-- ==== Sys2Proof/Word.lean ====
section
/-!
DEFINITION. The word types of the D640 and the sparse-map type in which the model holds numbered
things (registers, memory bytes, cores). Multi-byte fields are little-endian (R3); that choice is
made once, in Sys2Proof/Machine/Bytes.lean.
-/

namespace Sys2Proof

/-- A byte of any memory. -/
abbrev Byte := BitVec 8

/-- Sixteen bits: a BF16 or FP16 encoding, a conversation code. -/
abbrev W16 := BitVec 16

/-- One Sweux word (R125), or one FP32 or INT32 lane. -/
abbrev W32 := BitVec 32

/-- An s register, a d register, a ring register or a system register. -/
abbrev W64 := BitVec 64

/-- One predicate register: a bit for each of the 256 byte lanes of a row (R183). -/
abbrev Mask := BitVec 256

/-- A sparse map from numbers to values: keys strictly rising, and no entry equal to what an unlisted
key reads as. Its operations are in Sys2Proof/Machine/SMap.lean. -/
abbrev SMap (α : Type) := List (Nat × α)

/-- The four format families, one for each track of a core (R126). -/
inductive Family where
  | s | v | m | c
deriving DecidableEq, Repr, Inhabited

/-- The delivery modes of the Ultra Ethernet Transport (R285). -/
inductive Delivery where
  | rod | rud | rudi | uud
deriving DecidableEq, Repr, Inhabited

end Sys2Proof
end

