-- ==== Sys2Proof/Syntax.lean ====
section
/-!
DEFINITION. The syntax: one constructor of Instr for every row of the opcode table (347 rows). The
first 286 are Sweux words, one per row that has a bit pattern; their arguments are the word's fields,
named as the table names them (g is GAP), each as wide as the field. The other 61 are the commands,
host actions and device events that the table lists beside the words; their arguments are what the
event carries.
-/

namespace Sys2Proof

/-- What identifies a collective in the pod (R368): the member word of rank 0 in the group record
(chip and partition of the leader), the group number, the tag and the occurrence. -/
structure CollKey where
  leaderChip : Nat
  leaderPart : Nat
  group : Nat
  tag : Nat
  occurrence : Nat
deriving DecidableEq, Repr, Inhabited

/-- The parts of a collective request that every member must agree on (R368): the function of
R137, TYPE, CHUNKS and ROOT. -/
structure CollShape where
  fn : Nat
  type : Nat
  chunks : Nat
  root : Nat
deriving DecidableEq, Repr, Inhabited

/-- What a heartbeat carries beside the generation (R373): the number that the sequencer gave out last, and the collective up to
which its sender has completed all (log entry 53). -/
structure HeartbeatNews where
  last : Nat
  done : Option CollKey
deriving DecidableEq, Repr, Inhabited

/-- What a request to the sequencer asks for (R368): the collective's shape, and the member chips of its sender's group
record. -/
structure CollAsk where
  shape : CollShape
  chips : List Nat
deriving DecidableEq, Repr, Inhabited

/-- What comes with a collective's number (R368, R373, R374): to a member its null status, 0 where it runs; to the standby
what it was assigned for. -/
inductive NumberNote where
  | null (status : Nat)
  | assigned (ask : CollAsk)
deriving DecidableEq, Repr, Inhabited

/-- What a packet of a host peer says of itself (R13, R271, R285): the peer by its entry in the host table, the port that
receives it (of 16, R13), its delivery mode, and whether its operation is one of the AI Base profile. -/
structure Packet where
  peer : Nat
  port : Fin 16
  mode : Delivery
  aiBase : Bool
deriving DecidableEq, Repr, Inhabited

/-- One operation of the opcode table. -/
inductive Instr where
  /-- ANCHOR (R43): Opens a track of a job; every track of the partition leaves it on the anchor beat A = T+2048. -/
  | anchor
  /-- RENDEZ (R49): Ends the track's part in the step on beat A+D; on any other beat it raises the timetable-slip fault. -/
  | rendez (g : BitVec 3)
  /-- IDLE (R48): Spends issue opportunities and delays the next word by m of them. -/
  | idle (g : BitVec 3) (m : BitVec 18)
  /-- MCALL (R66): Runs macro-store entry e, substituting up to three parameters into its tagged fields. -/
  | mcall (g : BitVec 3) (e : BitVec 6) (p : BitVec 6) (q : BitVec 6) (r : BitVec 5)
  /-- ADD (R146): sd := sa + sb. -/
  | add (g : BitVec 3) (d : BitVec 5) (a : BitVec 5) (b : BitVec 5)
  /-- SUB (R146): sd := sa - sb. -/
  | sub (g : BitVec 3) (d : BitVec 5) (a : BitVec 5) (b : BitVec 5)
  /-- AND (R146): sd := sa AND sb. -/
  | and_ (g : BitVec 3) (d : BitVec 5) (a : BitVec 5) (b : BitVec 5)
  /-- OR (R146): sd := sa OR sb. -/
  | or_ (g : BitVec 3) (d : BitVec 5) (a : BitVec 5) (b : BitVec 5)
  /-- XOR (R146): sd := sa XOR sb. -/
  | xor_ (g : BitVec 3) (d : BitVec 5) (a : BitVec 5) (b : BitVec 5)
  /-- SHL (R146): sd := sa shifted left by sb mod 64. -/
  | shl (g : BitVec 3) (d : BitVec 5) (a : BitVec 5) (b : BitVec 5)
  /-- SHR (R146): sd := sa shifted right logically by sb mod 64. -/
  | shr (g : BitVec 3) (d : BitVec 5) (a : BitVec 5) (b : BitVec 5)
  /-- SAR (R146): sd := sa shifted right arithmetically by sb mod 64. -/
  | sar (g : BitVec 3) (d : BitVec 5) (a : BitVec 5) (b : BitVec 5)
  /-- ROL (R146): sd := sa rotated left by sb mod 64. -/
  | rol (g : BitVec 3) (d : BitVec 5) (a : BitVec 5) (b : BitVec 5)
  /-- MIN (R146): sd := signed minimum of sa and sb. -/
  | min_ (g : BitVec 3) (d : BitVec 5) (a : BitVec 5) (b : BitVec 5)
  /-- MAX (R146): sd := signed maximum of sa and sb. -/
  | max_ (g : BitVec 3) (d : BitVec 5) (a : BitVec 5) (b : BitVec 5)
  /-- MINU (R146): sd := unsigned minimum of sa and sb. -/
  | minu (g : BitVec 3) (d : BitVec 5) (a : BitVec 5) (b : BitVec 5)
  /-- MAXU (R146): sd := unsigned maximum of sa and sb. -/
  | maxu (g : BitVec 3) (d : BitVec 5) (a : BitVec 5) (b : BitVec 5)
  /-- SLT (R146): sd := 1 if sa < sb signed, else 0. -/
  | slt (g : BitVec 3) (d : BitVec 5) (a : BitVec 5) (b : BitVec 5)
  /-- SLTU (R146): sd := 1 if sa < sb unsigned, else 0. -/
  | sltu (g : BitVec 3) (d : BitVec 5) (a : BitVec 5) (b : BitVec 5)
  /-- SEQ (R146): sd := 1 if sa = sb, else 0. -/
  | seq (g : BitVec 3) (d : BitVec 5) (a : BitVec 5) (b : BitVec 5)
  /-- MUL (R147): sd := low 64 bits of sa times sb, latency 3. -/
  | mul (g : BitVec 3) (d : BitVec 5) (a : BitVec 5) (b : BitVec 5)
  /-- MULH (R147): sd := high 64 bits of the signed 128-bit product. -/
  | mulh (g : BitVec 3) (d : BitVec 5) (a : BitVec 5) (b : BitVec 5)
  /-- MULHU (R147): sd := high 64 bits of the unsigned 128-bit product. -/
  | mulhu (g : BitVec 3) (d : BitVec 5) (a : BitVec 5) (b : BitVec 5)
  /-- DIV (R148): sd := signed quotient rounded toward zero, with defined division-by-zero and overflow results. -/
  | div (g : BitVec 3) (d : BitVec 5) (a : BitVec 5) (b : BitVec 5)
  /-- DIVU (R148): sd := unsigned quotient. -/
  | divu (g : BitVec 3) (d : BitVec 5) (a : BitVec 5) (b : BitVec 5)
  /-- REM (R148): sd := signed remainder taking the dividend's sign. -/
  | rem (g : BitVec 3) (d : BitVec 5) (a : BitVec 5) (b : BitVec 5)
  /-- REMU (R148): sd := unsigned remainder. -/
  | remu (g : BitVec 3) (d : BitVec 5) (a : BitVec 5) (b : BitVec 5)
  /-- ADDSH (R147): sd := sa + (sb << n), n from the CX field. -/
  | addsh (g : BitVec 3) (d : BitVec 5) (a : BitVec 5) (b : BitVec 5) (n : BitVec 4)
  /-- SEL (R147): sd := sb if sa is non-zero, otherwise the value of sd sampled on b. -/
  | sel (g : BitVec 3) (d : BitVec 5) (a : BitVec 5) (b : BitVec 5)
  /-- CLZ (R149): sd := number of leading zero bits of sa. -/
  | clz (g : BitVec 3) (d : BitVec 5) (a : BitVec 5)
  /-- CTZ (R149): sd := number of trailing zero bits of sa. -/
  | ctz (g : BitVec 3) (d : BitVec 5) (a : BitVec 5)
  /-- POPC (R149): sd := number of one bits of sa. -/
  | popc (g : BitVec 3) (d : BitVec 5) (a : BitVec 5)
  /-- BSWAP (R149): sd := sa with its eight bytes reversed. -/
  | bswap (g : BitVec 3) (d : BitVec 5) (a : BitVec 5)
  /-- ADDI (R150): sd := sa + sign-extended imm13. -/
  | addi (g : BitVec 3) (d : BitVec 5) (a : BitVec 5) (i : BitVec 13)
  /-- ANDI (R150): sd := sa AND zero-extended imm13. -/
  | andi (g : BitVec 3) (d : BitVec 5) (a : BitVec 5) (i : BitVec 13)
  /-- ORI (R150): sd := sa OR zero-extended imm13. -/
  | ori (g : BitVec 3) (d : BitVec 5) (a : BitVec 5) (i : BitVec 13)
  /-- XORI (R150): sd := sa XOR zero-extended imm13. -/
  | xori (g : BitVec 3) (d : BitVec 5) (a : BitVec 5) (i : BitVec 13)
  /-- SHLI (R150): sd := sa shifted left by an immediate count. -/
  | shli (g : BitVec 3) (d : BitVec 5) (a : BitVec 5) (n : BitVec 6)
  /-- SHRI (R150): sd := sa shifted right logically by an immediate count. -/
  | shri (g : BitVec 3) (d : BitVec 5) (a : BitVec 5) (n : BitVec 6)
  /-- SARI (R150): sd := sa shifted right arithmetically by an immediate count. -/
  | sari (g : BitVec 3) (d : BitVec 5) (a : BitVec 5) (n : BitVec 6)
  /-- SLTI (R150): sd := 1 if sa < sign-extended imm13, else 0. -/
  | slti (g : BitVec 3) (d : BitVec 5) (a : BitVec 5) (i : BitVec 13)
  /-- EXTS (R151): sd := sign-extended bit field of sa at position q and width w. -/
  | exts (g : BitVec 3) (d : BitVec 5) (a : BitVec 5) (q : BitVec 6) (w : BitVec 6)
  /-- EXTU (R151): sd := zero-extended bit field of sa. -/
  | extu (g : BitVec 3) (d : BitVec 5) (a : BitVec 5) (q : BitVec 6) (w : BitVec 6)
  /-- INS (R151): Inserts the low w bits of sa into sd at position q. -/
  | ins (g : BitVec 3) (d : BitVec 5) (a : BitVec 5) (q : BitVec 6) (w : BitVec 6)
  /-- LI (R152): sd := sign-extended imm18. -/
  | li (g : BitVec 3) (d : BitVec 5) (i : BitVec 18)
  /-- LIH (R152): sd := (sd << 18) OR imm18. -/
  | lih (g : BitVec 3) (d : BitVec 5) (i : BitVec 18)
  /-- LDS_B (R154): Loads a sign-extended byte from scratchpad. -/
  | ldsB (g : BitVec 3) (d : BitVec 5) (a : BitVec 5) (c : BitVec 4) (i : BitVec 9)
  /-- LDS_H (R154): Loads a sign-extended halfword from scratchpad. -/
  | ldsH (g : BitVec 3) (d : BitVec 5) (a : BitVec 5) (c : BitVec 4) (i : BitVec 9)
  /-- LDS_W (R154): Loads a sign-extended word from scratchpad. -/
  | ldsW (g : BitVec 3) (d : BitVec 5) (a : BitVec 5) (c : BitVec 4) (i : BitVec 9)
  /-- LDS_D (R154): Loads a doubleword from scratchpad. -/
  | ldsD (g : BitVec 3) (d : BitVec 5) (a : BitVec 5) (c : BitVec 4) (i : BitVec 9)
  /-- STS_B (R154): Stores the low byte of ss to scratchpad, performing at b+2. -/
  | stsB (g : BitVec 3) (s : BitVec 5) (a : BitVec 5) (c : BitVec 4) (i : BitVec 9)
  /-- STS_H (R154): Stores the low halfword of ss to scratchpad. -/
  | stsH (g : BitVec 3) (s : BitVec 5) (a : BitVec 5) (c : BitVec 4) (i : BitVec 9)
  /-- STS_W (R154): Stores the low word of ss to scratchpad. -/
  | stsW (g : BitVec 3) (s : BitVec 5) (a : BitVec 5) (c : BitVec 4) (i : BitVec 9)
  /-- STS_D (R154): Stores ss as a doubleword to scratchpad. -/
  | stsD (g : BitVec 3) (s : BitVec 5) (a : BitVec 5) (c : BitVec 4) (i : BitVec 9)
  /-- LDM_B (R154): Loads a sign-extended byte from device memory over the scalar path. -/
  | ldmB (g : BitVec 3) (d : BitVec 5) (a : BitVec 5) (c : BitVec 4) (i : BitVec 9)
  /-- LDM_H (R154): Loads a sign-extended halfword from device memory. -/
  | ldmH (g : BitVec 3) (d : BitVec 5) (a : BitVec 5) (c : BitVec 4) (i : BitVec 9)
  /-- LDM_W (R154): Loads a sign-extended word from device memory. -/
  | ldmW (g : BitVec 3) (d : BitVec 5) (a : BitVec 5) (c : BitVec 4) (i : BitVec 9)
  /-- LDM_D (R154): Loads a doubleword from device memory. -/
  | ldmD (g : BitVec 3) (d : BitVec 5) (a : BitVec 5) (c : BitVec 4) (i : BitVec 9)
  /-- STM_B (R154): Stores a byte to device memory, performing at b+120. -/
  | stmB (g : BitVec 3) (s : BitVec 5) (a : BitVec 5) (c : BitVec 4) (i : BitVec 9)
  /-- STM_H (R154): Stores a halfword to device memory. -/
  | stmH (g : BitVec 3) (s : BitVec 5) (a : BitVec 5) (c : BitVec 4) (i : BitVec 9)
  /-- STM_W (R154): Stores a word to device memory. -/
  | stmW (g : BitVec 3) (s : BitVec 5) (a : BitVec 5) (c : BitVec 4) (i : BitVec 9)
  /-- STM_D (R154): Stores a doubleword to device memory. -/
  | stmD (g : BitVec 3) (s : BitVec 5) (a : BitVec 5) (c : BitVec 4) (i : BitVec 9)
  /-- LDA (R155): Reads one accumulator element, its size and extension fixed by the base bank's type on b. -/
  | lda (g : BitVec 3) (d : BitVec 5) (a : BitVec 5) (c : BitVec 4) (i : BitVec 9)
  /-- LDS_B_INDEXED (R154): Loads a sign-extended byte from scratchpad at sa+sb. -/
  | ldsBIndexed (g : BitVec 3) (d : BitVec 5) (a : BitVec 5) (b : BitVec 5) (c : BitVec 4)
  /-- LDS_H_INDEXED (R154): Loads a sign-extended halfword from scratchpad at sa+sb. -/
  | ldsHIndexed (g : BitVec 3) (d : BitVec 5) (a : BitVec 5) (b : BitVec 5) (c : BitVec 4)
  /-- LDS_W_INDEXED (R154): Loads a sign-extended word from scratchpad at sa+sb. -/
  | ldsWIndexed (g : BitVec 3) (d : BitVec 5) (a : BitVec 5) (b : BitVec 5) (c : BitVec 4)
  /-- LDS_D_INDEXED (R154): Loads a doubleword from scratchpad at sa+sb. -/
  | ldsDIndexed (g : BitVec 3) (d : BitVec 5) (a : BitVec 5) (b : BitVec 5) (c : BitVec 4)
  /-- LDS_BU_INDEXED (R154): Loads a zero-extended byte from scratchpad at sa+sb. -/
  | ldsBuIndexed (g : BitVec 3) (d : BitVec 5) (a : BitVec 5) (b : BitVec 5) (c : BitVec 4)
  /-- LDS_HU_INDEXED (R154): Loads a zero-extended halfword from scratchpad at sa+sb. -/
  | ldsHuIndexed (g : BitVec 3) (d : BitVec 5) (a : BitVec 5) (b : BitVec 5) (c : BitVec 4)
  /-- LDS_WU_INDEXED (R154): Loads a zero-extended word from scratchpad at sa+sb. -/
  | ldsWuIndexed (g : BitVec 3) (d : BitVec 5) (a : BitVec 5) (b : BitVec 5) (c : BitVec 4)
  /-- STS_B_INDEXED (R154): Stores a byte to scratchpad at sa+sb. -/
  | stsBIndexed (g : BitVec 3) (s : BitVec 5) (a : BitVec 5) (b : BitVec 5) (c : BitVec 4)
  /-- STS_H_INDEXED (R154): Stores a halfword to scratchpad at sa+sb. -/
  | stsHIndexed (g : BitVec 3) (s : BitVec 5) (a : BitVec 5) (b : BitVec 5) (c : BitVec 4)
  /-- STS_W_INDEXED (R154): Stores a word to scratchpad at sa+sb. -/
  | stsWIndexed (g : BitVec 3) (s : BitVec 5) (a : BitVec 5) (b : BitVec 5) (c : BitVec 4)
  /-- STS_D_INDEXED (R154): Stores a doubleword to scratchpad at sa+sb. -/
  | stsDIndexed (g : BitVec 3) (s : BitVec 5) (a : BitVec 5) (b : BitVec 5) (c : BitVec 4)
  /-- LDM_B_INDEXED (R154): Loads a sign-extended byte from device memory at sa+sb. -/
  | ldmBIndexed (g : BitVec 3) (d : BitVec 5) (a : BitVec 5) (b : BitVec 5) (c : BitVec 4)
  /-- LDM_H_INDEXED (R154): Loads a sign-extended halfword from device memory at sa+sb. -/
  | ldmHIndexed (g : BitVec 3) (d : BitVec 5) (a : BitVec 5) (b : BitVec 5) (c : BitVec 4)
  /-- LDM_W_INDEXED (R154): Loads a sign-extended word from device memory at sa+sb. -/
  | ldmWIndexed (g : BitVec 3) (d : BitVec 5) (a : BitVec 5) (b : BitVec 5) (c : BitVec 4)
  /-- LDM_D_INDEXED (R154): Loads a doubleword from device memory at sa+sb. -/
  | ldmDIndexed (g : BitVec 3) (d : BitVec 5) (a : BitVec 5) (b : BitVec 5) (c : BitVec 4)
  /-- LDM_BU_INDEXED (R154): Loads a zero-extended byte from device memory at sa+sb. -/
  | ldmBuIndexed (g : BitVec 3) (d : BitVec 5) (a : BitVec 5) (b : BitVec 5) (c : BitVec 4)
  /-- LDM_HU_INDEXED (R154): Loads a zero-extended halfword from device memory at sa+sb. -/
  | ldmHuIndexed (g : BitVec 3) (d : BitVec 5) (a : BitVec 5) (b : BitVec 5) (c : BitVec 4)
  /-- LDM_WU_INDEXED (R154): Loads a zero-extended word from device memory at sa+sb. -/
  | ldmWuIndexed (g : BitVec 3) (d : BitVec 5) (a : BitVec 5) (b : BitVec 5) (c : BitVec 4)
  /-- STM_B_INDEXED (R154): Stores a byte to device memory at sa+sb. -/
  | stmBIndexed (g : BitVec 3) (s : BitVec 5) (a : BitVec 5) (b : BitVec 5) (c : BitVec 4)
  /-- STM_H_INDEXED (R154): Stores a halfword to device memory at sa+sb. -/
  | stmHIndexed (g : BitVec 3) (s : BitVec 5) (a : BitVec 5) (b : BitVec 5) (c : BitVec 4)
  /-- STM_W_INDEXED (R154): Stores a word to device memory at sa+sb. -/
  | stmWIndexed (g : BitVec 3) (s : BitVec 5) (a : BitVec 5) (b : BitVec 5) (c : BitVec 4)
  /-- STM_D_INDEXED (R154): Stores a doubleword to device memory at sa+sb. -/
  | stmDIndexed (g : BitVec 3) (s : BitVec 5) (a : BitVec 5) (b : BitVec 5) (c : BitVec 4)
  /-- AMOS_ADD (R156): Atomically adds sb to the 8-byte scratchpad word at sa, returning the old value. -/
  | amosAdd (g : BitVec 3) (d : BitVec 5) (a : BitVec 5) (b : BitVec 5) (c : BitVec 4)
  /-- AMOS_AND (R156): Atomic 8-byte scratchpad AND. -/
  | amosAnd (g : BitVec 3) (d : BitVec 5) (a : BitVec 5) (b : BitVec 5) (c : BitVec 4)
  /-- AMOS_OR (R156): Atomic 8-byte scratchpad OR. -/
  | amosOr (g : BitVec 3) (d : BitVec 5) (a : BitVec 5) (b : BitVec 5) (c : BitVec 4)
  /-- AMOS_XOR (R156): Atomic 8-byte scratchpad XOR. -/
  | amosXor (g : BitVec 3) (d : BitVec 5) (a : BitVec 5) (b : BitVec 5) (c : BitVec 4)
  /-- AMOS_SWAP (R156): Atomic 8-byte scratchpad swap. -/
  | amosSwap (g : BitVec 3) (d : BitVec 5) (a : BitVec 5) (b : BitVec 5) (c : BitVec 4)
  /-- AMOS_MIN (R156): Atomic 8-byte scratchpad signed minimum. -/
  | amosMin (g : BitVec 3) (d : BitVec 5) (a : BitVec 5) (b : BitVec 5) (c : BitVec 4)
  /-- AMOS_MAX (R156): Atomic 8-byte scratchpad signed maximum. -/
  | amosMax (g : BitVec 3) (d : BitVec 5) (a : BitVec 5) (b : BitVec 5) (c : BitVec 4)
  /-- AMOS_MINU (R156): Atomic 8-byte scratchpad unsigned minimum. -/
  | amosMinu (g : BitVec 3) (d : BitVec 5) (a : BitVec 5) (b : BitVec 5) (c : BitVec 4)
  /-- AMOS_MAXU (R156): Atomic 8-byte scratchpad unsigned maximum. -/
  | amosMaxu (g : BitVec 3) (d : BitVec 5) (a : BitVec 5) (b : BitVec 5) (c : BitVec 4)
  /-- AMOS_W_ADD (R156): Atomic 4-byte scratchpad add. -/
  | amosWAdd (g : BitVec 3) (d : BitVec 5) (a : BitVec 5) (b : BitVec 5) (c : BitVec 4)
  /-- AMOS_W_AND (R156): Atomic 4-byte scratchpad AND. -/
  | amosWAnd (g : BitVec 3) (d : BitVec 5) (a : BitVec 5) (b : BitVec 5) (c : BitVec 4)
  /-- AMOS_W_OR (R156): Atomic 4-byte scratchpad OR. -/
  | amosWOr (g : BitVec 3) (d : BitVec 5) (a : BitVec 5) (b : BitVec 5) (c : BitVec 4)
  /-- AMOS_W_XOR (R156): Atomic 4-byte scratchpad XOR. -/
  | amosWXor (g : BitVec 3) (d : BitVec 5) (a : BitVec 5) (b : BitVec 5) (c : BitVec 4)
  /-- AMOS_W_SWAP (R156): Atomic 4-byte scratchpad swap. -/
  | amosWSwap (g : BitVec 3) (d : BitVec 5) (a : BitVec 5) (b : BitVec 5) (c : BitVec 4)
  /-- AMOS_W_MIN (R156): Atomic 4-byte scratchpad signed minimum. -/
  | amosWMin (g : BitVec 3) (d : BitVec 5) (a : BitVec 5) (b : BitVec 5) (c : BitVec 4)
  /-- AMOS_W_MAX (R156): Atomic 4-byte scratchpad signed maximum. -/
  | amosWMax (g : BitVec 3) (d : BitVec 5) (a : BitVec 5) (b : BitVec 5) (c : BitVec 4)
  /-- AMOS_W_MINU (R156): Atomic 4-byte scratchpad unsigned minimum. -/
  | amosWMinu (g : BitVec 3) (d : BitVec 5) (a : BitVec 5) (b : BitVec 5) (c : BitVec 4)
  /-- AMOS_W_MAXU (R156): Atomic 4-byte scratchpad unsigned maximum. -/
  | amosWMaxu (g : BitVec 3) (d : BitVec 5) (a : BitVec 5) (b : BitVec 5) (c : BitVec 4)
  /-- AMOM_ADD (R156): Atomic 8-byte device-memory add at b+120. -/
  | amomAdd (g : BitVec 3) (d : BitVec 5) (a : BitVec 5) (b : BitVec 5) (c : BitVec 4)
  /-- AMOM_AND (R156): Atomic 8-byte device-memory AND. -/
  | amomAnd (g : BitVec 3) (d : BitVec 5) (a : BitVec 5) (b : BitVec 5) (c : BitVec 4)
  /-- AMOM_OR (R156): Atomic 8-byte device-memory OR. -/
  | amomOr (g : BitVec 3) (d : BitVec 5) (a : BitVec 5) (b : BitVec 5) (c : BitVec 4)
  /-- AMOM_XOR (R156): Atomic 8-byte device-memory XOR. -/
  | amomXor (g : BitVec 3) (d : BitVec 5) (a : BitVec 5) (b : BitVec 5) (c : BitVec 4)
  /-- AMOM_SWAP (R156): Atomic 8-byte device-memory swap. -/
  | amomSwap (g : BitVec 3) (d : BitVec 5) (a : BitVec 5) (b : BitVec 5) (c : BitVec 4)
  /-- AMOM_MIN (R156): Atomic 8-byte device-memory signed minimum. -/
  | amomMin (g : BitVec 3) (d : BitVec 5) (a : BitVec 5) (b : BitVec 5) (c : BitVec 4)
  /-- AMOM_MAX (R156): Atomic 8-byte device-memory signed maximum. -/
  | amomMax (g : BitVec 3) (d : BitVec 5) (a : BitVec 5) (b : BitVec 5) (c : BitVec 4)
  /-- AMOM_MINU (R156): Atomic 8-byte device-memory unsigned minimum. -/
  | amomMinu (g : BitVec 3) (d : BitVec 5) (a : BitVec 5) (b : BitVec 5) (c : BitVec 4)
  /-- AMOM_MAXU (R156): Atomic 8-byte device-memory unsigned maximum. -/
  | amomMaxu (g : BitVec 3) (d : BitVec 5) (a : BitVec 5) (b : BitVec 5) (c : BitVec 4)
  /-- AMOM_W_ADD (R156): Atomic 4-byte device-memory add. -/
  | amomWAdd (g : BitVec 3) (d : BitVec 5) (a : BitVec 5) (b : BitVec 5) (c : BitVec 4)
  /-- AMOM_W_AND (R156): Atomic 4-byte device-memory AND. -/
  | amomWAnd (g : BitVec 3) (d : BitVec 5) (a : BitVec 5) (b : BitVec 5) (c : BitVec 4)
  /-- AMOM_W_OR (R156): Atomic 4-byte device-memory OR. -/
  | amomWOr (g : BitVec 3) (d : BitVec 5) (a : BitVec 5) (b : BitVec 5) (c : BitVec 4)
  /-- AMOM_W_XOR (R156): Atomic 4-byte device-memory XOR. -/
  | amomWXor (g : BitVec 3) (d : BitVec 5) (a : BitVec 5) (b : BitVec 5) (c : BitVec 4)
  /-- AMOM_W_SWAP (R156): Atomic 4-byte device-memory swap. -/
  | amomWSwap (g : BitVec 3) (d : BitVec 5) (a : BitVec 5) (b : BitVec 5) (c : BitVec 4)
  /-- AMOM_W_MIN (R156): Atomic 4-byte device-memory signed minimum. -/
  | amomWMin (g : BitVec 3) (d : BitVec 5) (a : BitVec 5) (b : BitVec 5) (c : BitVec 4)
  /-- AMOM_W_MAX (R156): Atomic 4-byte device-memory signed maximum. -/
  | amomWMax (g : BitVec 3) (d : BitVec 5) (a : BitVec 5) (b : BitVec 5) (c : BitVec 4)
  /-- AMOM_W_MINU (R156): Atomic 4-byte device-memory unsigned minimum. -/
  | amomWMinu (g : BitVec 3) (d : BitVec 5) (a : BitVec 5) (b : BitVec 5) (c : BitVec 4)
  /-- AMOM_W_MAXU (R156): Atomic 4-byte device-memory unsigned maximum. -/
  | amomWMaxu (g : BitVec 3) (d : BitVec 5) (a : BitVec 5) (b : BitVec 5) (c : BitVec 4)
  /-- BEQ (R158): Branches when sa = sb. -/
  | beq (g : BitVec 3) (a : BitVec 5) (b : BitVec 5) (o : BitVec 13)
  /-- BNE (R158): Branches when sa differs from sb. -/
  | bne (g : BitVec 3) (a : BitVec 5) (b : BitVec 5) (o : BitVec 13)
  /-- BLT (R158): Branches when sa < sb signed. -/
  | blt (g : BitVec 3) (a : BitVec 5) (b : BitVec 5) (o : BitVec 13)
  /-- BGE (R158): Branches when sa >= sb signed. -/
  | bge (g : BitVec 3) (a : BitVec 5) (b : BitVec 5) (o : BitVec 13)
  /-- BLTU (R158): Branches when sa < sb unsigned. -/
  | bltu (g : BitVec 3) (a : BitVec 5) (b : BitVec 5) (o : BitVec 13)
  /-- BGEU (R158): Branches when sa >= sb unsigned. -/
  | bgeu (g : BitVec 3) (a : BitVec 5) (b : BitVec 5) (o : BitVec 13)
  /-- JMP (R159): Jumps by a signed word offset, with one dead beat. -/
  | jmp (g : BitVec 3) (i : BitVec 18)
  /-- CALL (R159): Writes the return address to sd and jumps. -/
  | call (g : BitVec 3) (d : BitVec 5) (i : BitVec 18)
  /-- JR (R159): Jumps to the word address held in sa. -/
  | jr (g : BitVec 3) (a : BitVec 5)
  /-- BRQ (R160): Equalised branch: takes or falls through and sets a pending join whose word issues on the join beat. -/
  | brq (g : BitVec 3) (a : BitVec 5) (b : BitVec 5) (z : BitVec 1) (j : BitVec 12)
  /-- KLOOP (R161): Repeats the following body words an immediate number of times, counting in kn. -/
  | kloop (g : BitVec 3) (k : BitVec 2) (l : BitVec 5) (n : BitVec 13)
  /-- KLOOP_REG (R161): Repeats the following body words a number of times held in an s register. -/
  | kloopReg (g : BitVec 3) (k : BitVec 2) (l : BitVec 5) (r : BitVec 5)
  /-- CFENCE (R99): Makes accesses before and after it in the named classes and tracks ordered as one class. -/
  | cfence (g : BitVec 3) (s : BitVec 1) (v : BitVec 1) (c : BitVec 1) (m : BitVec 16)
  /-- BELAY (R56): Barrier that waits for every member of the core's domain instance and resumes on the completion beat. -/
  | belay (g : BitVec 3)
  /-- RESYNC (R61): Re-anchors the named tracks of the core so their next words issue on topo count X. -/
  | resync (g : BitVec 3) (a : BitVec 5) (m : BitVec 4)
  /-- GEAR_H (R54): Opens a 127-beat settle window and switches the core's compute tracks to high gear from b+128. -/
  | gearH (g : BitVec 3)
  /-- GEAR_L (R54): Opens a settle window and switches the core's compute tracks to low gear from b+128. -/
  | gearL (g : BitVec 3)
  /-- COMMIT (R166): Stages the flip of the context's recurrent-state buffer for the step's commit. -/
  | commit (g : BitVec 3)
  /-- RDCTR (R168): Reads a selected counter or special register into sd. -/
  | rdctr (g : BitVec 3) (d : BitVec 5) (s : BitVec 8)
  /-- STAT (R170): Reads STATUS into sd and clears the bits named by sa on b+1. -/
  | stat (g : BitVec 3) (d : BitVec 5) (a : BitVec 5)
  /-- BREAK (R171): Enters debugger halt precisely at itself when the context's break enable is set. -/
  | break_ (g : BitVec 3) (c : BitVec 8)
  /-- XPRE (R172): Prefetches the translation of the page holding sa, starting a walk if absent. -/
  | xpre (g : BitVec 3) (a : BitVec 5) (z : BitVec 1)
  /-- SFORK (R174): Stages a fork of the named stream, taking effect at the commit. -/
  | sfork (g : BitVec 3) (a : BitVec 5)
  /-- SCANCEL (R175): Stages the cancel of the named stream, its children moving to its parent. -/
  | scancel (g : BitVec 3) (a : BitVec 5)
  /-- SCANCEL_T (R175): Stages the cancel of the named stream with its whole subtree. -/
  | scancelT (g : BitVec 3) (a : BitVec 5)
  /-- RETRACT (R176): Stages a withdrawal of the named stream from position x. -/
  | retract (g : BitVec 3) (x : BitVec 5) (a : BitVec 5)
  /-- XSTEP (R177): Stages an extra-step request of priority p for queuing at the commit. -/
  | xstep (g : BitVec 3) (p : BitVec 2)
  /-- POSQ (R178): Reads N, Q, E of a stream or the context lag as they held at the anchor. -/
  | posq (g : BitVec 3) (d : BitVec 5) (a : BitVec 5) (s : BitVec 2)
  /-- RDSYS (R272): Service level: reads system register n of the rope's partition. -/
  | rdsys (g : BitVec 3) (d : BitVec 5) (n : BitVec 8)
  /-- WRSYS (R272): Service level: writes sa to system register n on b+1. -/
  | wrsys (g : BitVec 3) (a : BitVec 5) (n : BitVec 8)
  /-- XLATW (R323): Service level: writes one translation-cache entry of the issuing rope. -/
  | xlatw (g : BitVec 3) (a : BitVec 5) (i : BitVec 5)
  /-- XLATI (R323): Service level: invalidates translation-cache entries for an address or a whole context. -/
  | xlati (g : BitVec 3) (a : BitVec 5) (l : BitVec 1) (i : BitVec 5)
  /-- RESUME (R302): Service level: checks and restores the bivouac frames, re-injects latches and restarts the topo at F. -/
  | resume (g : BitVec 3) (a : BitVec 5)
  /-- HOLDX (R291): Service level: marks hold cause c as serviced. -/
  | holdx (g : BitVec 3) (c : BitVec 2)
  /-- VADD (R185): Floating-point lane add, rounded RNE. -/
  | vadd (g : BitVec 3) (p : BitVec 4) (z : BitVec 1) (d : BitVec 6) (a : BitVec 6) (b : BitVec 6)
  /-- VSUB (R185): Floating-point lane subtract. -/
  | vsub (g : BitVec 3) (p : BitVec 4) (z : BitVec 1) (d : BitVec 6) (a : BitVec 6) (b : BitVec 6)
  /-- VMUL (R185): Floating-point lane multiply. -/
  | vmul (g : BitVec 3) (p : BitVec 4) (z : BitVec 1) (d : BitVec 6) (a : BitVec 6) (b : BitVec 6)
  /-- VFMA (R185): Fused va*vb + vd, rounded once. -/
  | vfma (g : BitVec 3) (p : BitVec 4) (z : BitVec 1) (d : BitVec 6) (a : BitVec 6) (b : BitVec 6)
  /-- VFMS (R185): Fused va*vb - vd. -/
  | vfms (g : BitVec 3) (p : BitVec 4) (z : BitVec 1) (d : BitVec 6) (a : BitVec 6) (b : BitVec 6)
  /-- VFNMA (R185): Fused vd - va*vb. -/
  | vfnma (g : BitVec 3) (p : BitVec 4) (z : BitVec 1) (d : BitVec 6) (a : BitVec 6) (b : BitVec 6)
  /-- VMIN (R186): Lane minimum with -0 below +0 and NaNs suppressed. -/
  | vmin (g : BitVec 3) (p : BitVec 4) (z : BitVec 1) (d : BitVec 6) (a : BitVec 6) (b : BitVec 6)
  /-- VMAX (R186): Lane maximum with -0 below +0 and NaNs suppressed. -/
  | vmax (g : BitVec 3) (p : BitVec 4) (z : BitVec 1) (d : BitVec 6) (a : BitVec 6) (b : BitVec 6)
  /-- VADDC (R187): FP32 exact split: sum to vd's row and error term to the same row of the other window. -/
  | vaddc (g : BitVec 3) (p : BitVec 4) (z : BitVec 1) (d : BitVec 6) (a : BitVec 6) (b : BitVec 6)
  /-- VCPYSGN (R185): |va| with the sign bit of vb. -/
  | vcpysgn (g : BitVec 3) (p : BitVec 4) (z : BitVec 1) (d : BitVec 6) (a : BitVec 6) (b : BitVec 6)
  /-- VABS (R188): Clears each lane's sign bit. -/
  | vabs (g : BitVec 3) (p : BitVec 4) (z : BitVec 1) (d : BitVec 6) (a : BitVec 6)
  /-- VNEG (R188): Inverts each lane's sign bit. -/
  | vneg (g : BitVec 3) (p : BitVec 4) (z : BitVec 1) (d : BitVec 6) (a : BitVec 6)
  /-- VRCP (R189): Correctly rounded reciprocal. -/
  | vrcp (g : BitVec 3) (p : BitVec 4) (z : BitVec 1) (d : BitVec 6) (a : BitVec 6)
  /-- VRSQ (R189): Correctly rounded reciprocal square root. -/
  | vrsq (g : BitVec 3) (p : BitVec 4) (z : BitVec 1) (d : BitVec 6) (a : BitVec 6)
  /-- VSQRT (R189): Correctly rounded square root. -/
  | vsqrt (g : BitVec 3) (p : BitVec 4) (z : BitVec 1) (d : BitVec 6) (a : BitVec 6)
  /-- VEXP2 (R189): Correctly rounded 2^x. -/
  | vexp2 (g : BitVec 3) (p : BitVec 4) (z : BitVec 1) (d : BitVec 6) (a : BitVec 6)
  /-- VLOG2 (R189): Correctly rounded log2 x. -/
  | vlog2 (g : BitVec 3) (p : BitVec 4) (z : BitVec 1) (d : BitVec 6) (a : BitVec 6)
  /-- VSIN (R189): Correctly rounded sin(pi x). -/
  | vsin (g : BitVec 3) (p : BitVec 4) (z : BitVec 1) (d : BitVec 6) (a : BitVec 6)
  /-- VCOS (R189): Correctly rounded cos(pi x). -/
  | vcos (g : BitVec 3) (p : BitVec 4) (z : BitVec 1) (d : BitVec 6) (a : BitVec 6)
  /-- VTANH (R189): Correctly rounded tanh x. -/
  | vtanh (g : BitVec 3) (p : BitVec 4) (z : BitVec 1) (d : BitVec 6) (a : BitVec 6)
  /-- VSIGM (R189): Correctly rounded logistic sigmoid. -/
  | vsigm (g : BitVec 3) (p : BitVec 4) (z : BitVec 1) (d : BitVec 6) (a : BitVec 6)
  /-- VCLASS (R188): Writes a one-hot class code of each lane. -/
  | vclass (g : BitVec 3) (p : BitVec 4) (z : BitVec 1) (d : BitVec 6) (a : BitVec 6)
  /-- VIADD (R190): Wrapping integer lane add. -/
  | viadd (g : BitVec 3) (p : BitVec 4) (z : BitVec 1) (d : BitVec 6) (a : BitVec 6) (b : BitVec 6)
  /-- VISUB (R190): Wrapping integer lane subtract. -/
  | visub (g : BitVec 3) (p : BitVec 4) (z : BitVec 1) (d : BitVec 6) (a : BitVec 6) (b : BitVec 6)
  /-- VIMUL (R190): Low bits of the integer lane product. -/
  | vimul (g : BitVec 3) (p : BitVec 4) (z : BitVec 1) (d : BitVec 6) (a : BitVec 6) (b : BitVec 6)
  /-- VIMULH (R190): High bits of the signed integer lane product. -/
  | vimulh (g : BitVec 3) (p : BitVec 4) (z : BitVec 1) (d : BitVec 6) (a : BitVec 6) (b : BitVec 6)
  /-- VIMIN (R190): Signed integer lane minimum. -/
  | vimin (g : BitVec 3) (p : BitVec 4) (z : BitVec 1) (d : BitVec 6) (a : BitVec 6) (b : BitVec 6)
  /-- VIMAX (R190): Signed integer lane maximum. -/
  | vimax (g : BitVec 3) (p : BitVec 4) (z : BitVec 1) (d : BitVec 6) (a : BitVec 6) (b : BitVec 6)
  /-- VAND (R190): Raw-bit lane AND. -/
  | vand (g : BitVec 3) (p : BitVec 4) (z : BitVec 1) (d : BitVec 6) (a : BitVec 6) (b : BitVec 6)
  /-- VOR (R190): Raw-bit lane OR. -/
  | vor (g : BitVec 3) (p : BitVec 4) (z : BitVec 1) (d : BitVec 6) (a : BitVec 6) (b : BitVec 6)
  /-- VXOR (R190): Raw-bit lane XOR. -/
  | vxor (g : BitVec 3) (p : BitVec 4) (z : BitVec 1) (d : BitVec 6) (a : BitVec 6) (b : BitVec 6)
  /-- VSHL (R190): Lane shift left by vb mod w. -/
  | vshl (g : BitVec 3) (p : BitVec 4) (z : BitVec 1) (d : BitVec 6) (a : BitVec 6) (b : BitVec 6)
  /-- VSHR (R190): Logical lane shift right. -/
  | vshr (g : BitVec 3) (p : BitVec 4) (z : BitVec 1) (d : BitVec 6) (a : BitVec 6) (b : BitVec 6)
  /-- VSAR (R190): Arithmetic lane shift right. -/
  | vsar (g : BitVec 3) (p : BitVec 4) (z : BitVec 1) (d : BitVec 6) (a : BitVec 6) (b : BitVec 6)
  /-- VCLZ (R191): Leading zeros of each lane. -/
  | vclz (g : BitVec 3) (p : BitVec 4) (z : BitVec 1) (d : BitVec 6) (a : BitVec 6)
  /-- VCTZ (R191): Trailing zeros of each lane. -/
  | vctz (g : BitVec 3) (p : BitVec 4) (z : BitVec 1) (d : BitVec 6) (a : BitVec 6)
  /-- VPOPC (R191): One bits of each lane. -/
  | vpopc (g : BitVec 3) (p : BitVec 4) (z : BitVec 1) (d : BitVec 6) (a : BitVec 6)
  /-- VSATN_S (R191): Signed saturating narrow to half width, left in the wide lane. -/
  | vsatnS (g : BitVec 3) (p : BitVec 4) (z : BitVec 1) (d : BitVec 6) (a : BitVec 6)
  /-- VSATN_U (R191): Unsigned saturating narrow to half width. -/
  | vsatnU (g : BitVec 3) (p : BitVec 4) (z : BitVec 1) (d : BitVec 6) (a : BitVec 6)
  /-- VIDX (R191): Writes each lane's index. -/
  | vidx (g : BitVec 3) (p : BitVec 4) (z : BitVec 1) (d : BitVec 6)
  /-- VCMP_EQ (R192): Compares lanes for equality into predicate pd. -/
  | vcmpEq (g : BitVec 3) (p : BitVec 4) (d : BitVec 6) (a : BitVec 6) (b : BitVec 6)
  /-- VCMP_NE (R192): Compares lanes for inequality into pd. -/
  | vcmpNe (g : BitVec 3) (p : BitVec 4) (d : BitVec 6) (a : BitVec 6) (b : BitVec 6)
  /-- VCMP_LT (R192): Compares lanes for less-than into pd. -/
  | vcmpLt (g : BitVec 3) (p : BitVec 4) (d : BitVec 6) (a : BitVec 6) (b : BitVec 6)
  /-- VCMP_LE (R192): Compares lanes for less-or-equal into pd. -/
  | vcmpLe (g : BitVec 3) (p : BitVec 4) (d : BitVec 6) (a : BitVec 6) (b : BitVec 6)
  /-- VCMP_UN (R192): Tests lanes for unorderedness into pd. -/
  | vcmpUn (g : BitVec 3) (p : BitVec 4) (d : BitVec 6) (a : BitVec 6) (b : BitVec 6)
  /-- VCMP_ORD (R192): Tests lanes for orderedness into pd. -/
  | vcmpOrd (g : BitVec 3) (p : BitVec 4) (d : BitVec 6) (a : BitVec 6) (b : BitVec 6)
  /-- VSEL (R193): Selects va or vb per lane by the selected predicate. -/
  | vsel (g : BitVec 3) (p : BitVec 4) (d : BitVec 6) (a : BitVec 6) (b : BitVec 6)
  /-- VCVT (R195): Converts each lane from va's bank type to vd's with a named mode and saturation. -/
  | vcvt (g : BitVec 3) (p : BitVec 4) (z : BitVec 1) (d : BitVec 6) (a : BitVec 6) (t : BitVec 1) (m : BitVec 3)
  /-- VPACK (R196): Joins the low halves of va and vb. -/
  | vpack (g : BitVec 3) (p : BitVec 4) (z : BitVec 1) (d : BitVec 6) (a : BitVec 6) (b : BitVec 6)
  /-- VUNPK (R196): Brings the high half of va down. -/
  | vunpk (g : BitVec 3) (p : BitVec 4) (z : BitVec 1) (d : BitVec 6) (a : BitVec 6)
  /-- VORDKEY (R197): Turns each lane into a key whose unsigned order is the value order. -/
  | vordkey (g : BitVec 3) (p : BitVec 4) (z : BitVec 1) (d : BitVec 6) (a : BitVec 6)
  /-- VKEYORD (R197): Turns each order key back into a value. -/
  | vkeyord (g : BitVec 3) (p : BitVec 4) (z : BitVec 1) (d : BitVec 6) (a : BitVec 6)
  /-- VRSUM (R198): Exact sum of participating lanes rounded once into lane 0. -/
  | vrsum (g : BitVec 3) (p : BitVec 4) (d : BitVec 6) (a : BitVec 6)
  /-- VRMAX (R198): Greatest participating lane into lane 0. -/
  | vrmax (g : BitVec 3) (p : BitVec 4) (d : BitVec 6) (a : BitVec 6)
  /-- VRMIN (R198): Least participating lane into lane 0. -/
  | vrmin (g : BitVec 3) (p : BitVec 4) (d : BitVec 6) (a : BitVec 6)
  /-- VRARGMAX (R198): Greatest participating lane and its index. -/
  | vrargmax (g : BitVec 3) (p : BitVec 4) (d : BitVec 6) (a : BitVec 6)
  /-- VRARGMIN (R198): Least participating lane and its index. -/
  | vrargmin (g : BitVec 3) (p : BitVec 4) (d : BitVec 6) (a : BitVec 6)
  /-- VBCAST (R199): Broadcasts an immediate or s-register value into every lane. -/
  | vbcast (g : BitVec 3) (p : BitVec 4) (z : BitVec 1) (d : BitVec 6) (i : BitVec 1) (x : BitVec 5)
  /-- VROT (R199): Rotates lanes of va by x. -/
  | vrot (g : BitVec 3) (p : BitVec 4) (z : BitVec 1) (d : BitVec 6) (a : BitVec 6) (i : BitVec 1) (x : BitVec 5)
  /-- VSLIDE (R199): Slides lanes of va down by x, filling with zero. -/
  | vslide (g : BitVec 3) (p : BitVec 4) (z : BitVec 1) (d : BitVec 6) (a : BitVec 6) (i : BitVec 1) (x : BitVec 5)
  /-- VSHUF (R199): Permutes va by the index row vb. -/
  | vshuf (g : BitVec 3) (p : BitVec 4) (z : BitVec 1) (d : BitVec 6) (a : BitVec 6) (b : BitVec 6)
  /-- VEXTR (R199): Extracts lane x of va into lane 0. -/
  | vextr (g : BitVec 3) (p : BitVec 4) (z : BitVec 1) (d : BitVec 6) (a : BitVec 6) (i : BitVec 1) (x : BitVec 5)
  /-- VINSRT (R199): Inserts x into lane sk of vd. -/
  | vinsrt (g : BitVec 3) (p : BitVec 4) (z : BitVec 1) (d : BitVec 6) (k : BitVec 5) (i : BitVec 1) (x : BitVec 5)
  /-- VHIST (R200): Adds counts of participating bin numbers to running counts. -/
  | vhist (g : BitVec 3) (p : BitVec 4) (d : BitVec 6) (a : BitVec 6) (b : BitVec 6)
  /-- VPREFIX (R201): Inclusive running sum over lanes. -/
  | vprefix (g : BitVec 3) (p : BitVec 4) (z : BitVec 1) (d : BitVec 6) (a : BitVec 6)
  /-- VPREFIX_X (R201): Exclusive running sum over lanes. -/
  | vprefixX (g : BitVec 3) (p : BitVec 4) (z : BitVec 1) (d : BitVec 6) (a : BitVec 6)
  /-- VCOMPACT (R202): Packs active lanes of va into the low lanes of vd. -/
  | vcompact (g : BitVec 3) (p : BitVec 4) (d : BitVec 6) (a : BitVec 6)
  /-- VLD (R203): Loads one 256-B scratchpad row into a window row. -/
  | vld (g : BitVec 3) (p : BitVec 4) (z : BitVec 1) (d : BitVec 6) (s : BitVec 5) (c : BitVec 4) (i : BitVec 3)
  /-- VST (R203): Stores the active lanes of a window row to scratchpad. -/
  | vst (g : BitVec 3) (p : BitVec 4) (d : BitVec 6) (s : BitVec 5) (c : BitVec 4) (i : BitVec 3)
  /-- VLDS (R204): Strided lane load from scratchpad. -/
  | vlds (g : BitVec 3) (p : BitVec 4) (z : BitVec 1) (d : BitVec 6) (s : BitVec 5) (c : BitVec 4) (i : BitVec 3)
  /-- VSTS (R204): Strided lane store to scratchpad. -/
  | vsts (g : BitVec 3) (p : BitVec 4) (d : BitVec 6) (s : BitVec 5) (c : BitVec 4) (i : BitVec 3)
  /-- VGATH (R205): Gathers lanes from scratchpad through an index row. -/
  | vgath (g : BitVec 3) (p : BitVec 4) (z : BitVec 1) (d : BitVec 6) (a : BitVec 6) (c : BitVec 4) (s : BitVec 2)
  /-- VSCAT (R205): Scatters lanes to scratchpad through an index row. -/
  | vscat (g : BitVec 3) (p : BitVec 4) (d : BitVec 6) (a : BitVec 6) (c : BitVec 4) (s : BitVec 2)
  /-- VMOV (R208): Copies va to vd. -/
  | vmov (g : BitVec 3) (p : BitVec 4) (z : BitVec 1) (d : BitVec 6) (a : BitVec 6)
  /-- VZERO (R208): Writes zeros to vd. -/
  | vzero (g : BitVec 3) (p : BitVec 4) (z : BitVec 1) (d : BitVec 6)
  /-- VBIND_V (R207): Binds the V-window to bank k from b+2. -/
  | vbindV (g : BitVec 3) (k : BitVec 6)
  /-- VBIND_W (R207): Binds the W-window to bank k from b+2. -/
  | vbindW (g : BitVec 3) (k : BitVec 6)
  /-- VBIND_MAP (R207): Sets the operand map from b+2. -/
  | vbindMap (g : BitVec 3) (m : BitVec 3)
  /-- PROT (R210): Moves or resets the core's rotation bases outside a loop. -/
  | prot (g : BitVec 3) (m : BitVec 3)
  /-- MLOOP (R62): Starts a modulo loop on V or M with an immediate trip count. -/
  | mloop (g : BitVec 3) (l : BitVec 5) (s : BitVec 6) (k : BitVec 5) (n : BitVec 6)
  /-- MLOOP_REG (R62): Starts a modulo loop on V or M with its trip count from an s register. -/
  | mloopReg (g : BitVec 3) (l : BitVec 5) (s : BitVec 6) (k : BitVec 5) (r : BitVec 5)
  /-- PAND (R194): pd := pa AND pb. -/
  | pand (g : BitVec 3) (d : BitVec 7) (a : BitVec 7) (b : BitVec 7)
  /-- POR (R194): pd := pa OR pb. -/
  | por (g : BitVec 3) (d : BitVec 7) (a : BitVec 7) (b : BitVec 7)
  /-- PXOR (R194): pd := pa XOR pb. -/
  | pxor (g : BitVec 3) (d : BitVec 7) (a : BitVec 7) (b : BitVec 7)
  /-- PANDN (R194): pd := pa AND NOT pb. -/
  | pandn (g : BitVec 3) (d : BitVec 7) (a : BitVec 7) (b : BitVec 7)
  /-- PNOT (R194): pd := NOT pa. -/
  | pnot (g : BitVec 3) (d : BitVec 7) (a : BitVec 7)
  /-- PMOV (R194): pd := pa. -/
  | pmov (g : BitVec 3) (d : BitVec 7) (a : BitVec 7)
  /-- PSET (R194): pd := all ones. -/
  | pset (g : BitVec 3) (d : BitVec 7)
  /-- PCLR (R194): pd := all zeros. -/
  | pclr (g : BitVec 3) (d : BitVec 7)
  /-- PCNT (R194): Writes the count of pa's set bits into lane 0 of a row. -/
  | pcnt (g : BitVec 3) (d : BitVec 6) (a : BitVec 7)
  /-- PFIRST (R194): pd := lowest set bit of pa alone. -/
  | pfirst (g : BitVec 3) (d : BitVec 7) (a : BitVec 7)
  /-- PLAST (R194): pd := highest set bit of pa alone. -/
  | plast (g : BitVec 3) (d : BitVec 7) (a : BitVec 7)
  /-- MMA_BF16 (R214): BF16 tile product accumulated into a bank, optionally scaled and column-masked. -/
  | mmaBf16 (g : BitVec 3) (a : BitVec 3) (b : BitVec 3) (k : BitVec 6) (r : BitVec 6) (s : BitVec 1) (p : BitVec 4)
  /-- MMA_FP16 (R214): FP16 tile product accumulated into a bank. -/
  | mmaFp16 (g : BitVec 3) (a : BitVec 3) (b : BitVec 3) (k : BitVec 6) (r : BitVec 6) (s : BitVec 1) (p : BitVec 4)
  /-- MMA_B8 (R214): binary8 tile product in one named format, K = 64. -/
  | mmaB8 (g : BitVec 3) (a : BitVec 3) (b : BitVec 3) (k : BitVec 6) (r : BitVec 6) (u : BitVec 1) (x : BitVec 1) (f : BitVec 3)
  /-- MMAT (R214): Tile product whose formats, scales and writeback come from format entry k6 mod 16. -/
  | mmat (g : BitVec 3) (a : BitVec 3) (b : BitVec 3) (k : BitVec 6) (r : BitVec 6) (p : BitVec 4)
  /-- MGRP_BF16 (R216): Ragged grouped BF16 product over several B ring entries. -/
  | mgrpBf16 (g : BitVec 3) (a : BitVec 3) (b : BitVec 3) (k : BitVec 6) (s : BitVec 5) (p : BitVec 4)
  /-- MGRP_FP16 (R216): Ragged grouped FP16 product. -/
  | mgrpFp16 (g : BitVec 3) (a : BitVec 3) (b : BitVec 3) (k : BitVec 6) (s : BitVec 5) (p : BitVec 4)
  /-- MSCALE_A (R220): Loads the 64 per-row A scales from scratchpad. -/
  | mscaleA (g : BitVec 3) (s : BitVec 5)
  /-- MSCALE_B (R220): Loads the 64 per-column B scales from scratchpad. -/
  | mscaleB (g : BitVec 3) (s : BitVec 5)
  /-- BALLOC (R223): Allocates a bank with an element type and band owners. -/
  | balloc (g : BitVec 3) (k : BitVec 6) (t : BitVec 6) (o : BitVec 8)
  /-- BFREE (R224): Makes a bank unallocated and zeroes its rows. -/
  | bfree (g : BitVec 3) (k : BitVec 6)
  /-- BBAND (R225): Replaces the owner table of an allocated bank. -/
  | bband (g : BitVec 3) (k : BitVec 6) (o : BitVec 8)
  /-- QINIT (R227): Sets a ring's base, count and size and clears its counts and FULL bits. -/
  | qinit (g : BitVec 3) (q : BitVec 3) (s : BitVec 5)
  /-- QSKIP (R228): Pops a ring head without reading it. -/
  | qskip (g : BitVec 3) (q : BitVec 3)
  /-- RMODE (R222): Sets the M track's writeback rounding mode and saturation. -/
  | rmode (g : BitVec 3) (s : BitVec 1) (m : BitVec 3)
  /-- FTSET (R221): Writes a format-table entry from an s register. -/
  | ftset (g : BitVec 3) (e : BitVec 4) (s : BitVec 5)
  /-- RAMP (R218): Records its issue beat to warm the array. -/
  | ramp (g : BitVec 3)
  /-- TSTART (R219): Opens a new pitch. -/
  | tstart (g : BitVec 3)
  /-- MZERO (R226): Zeroes the first rows of an allocated bank, one row per beat. -/
  | mzero (g : BitVec 3) (k : BitVec 6) (r : BitVec 6)
  /-- CPY (R231): Copies CHUNKS 256-B chunks between spaces on the beats of R92. -/
  | cpy (g : BitVec 3) (d : BitVec 5) (s : BitVec 5) (l : BitVec 5) (t : BitVec 8)
  /-- CPYA (R232): Adds source chunks into accumulator rows. -/
  | cpya (g : BitVec 3) (d : BitVec 5) (s : BitVec 5) (l : BitVec 5) (t : BitVec 8)
  /-- CPY2 (R233): Copies a two-dimensional block described by a shape descriptor. -/
  | cpy2 (g : BitVec 3) (d : BitVec 5) (s : BitVec 5) (l : BitVec 5) (h : BitVec 5) (t : BitVec 3)
  /-- CPYQ (R234): Copies into a ring's tail entry and tags it FULL. -/
  | cpyq (g : BitVec 3) (q : BitVec 3) (s : BitVec 5) (l : BitVec 5) (t : BitVec 8)
  /-- CPYSEL (R236): Folds logits into a select record with running softmax sum and top-16 candidates. -/
  | cpysel (g : BitVec 3) (d : BitVec 5) (s : BitVec 5) (l : BitVec 5) (t : BitVec 8)
  /-- SEND (R238): Sends flits along a rope lane H hops away. -/
  | send (g : BitVec 3) (l : BitVec 3) (r : BitVec 1) (h : BitVec 3) (k : BitVec 6) (x : BitVec 5)
  /-- RECV (R238): Accepts one arriving flit per beat on a rope lane. -/
  | recv (g : BitVec 3) (l : BitVec 3) (r : BitVec 1) (k : BitVec 6) (x : BitVec 5)
  /-- COLL_ARSUM (R239): Starts a numbered all-reduce sum. -/
  | collArsum (g : BitVec 3) (d : BitVec 5) (s : BitVec 5) (p : BitVec 5)
  /-- COLL_ARMAX (R239): Starts a numbered all-reduce max. -/
  | collArmax (g : BitVec 3) (d : BitVec 5) (s : BitVec 5) (p : BitVec 5)
  /-- COLL_RS (R239): Starts a numbered reduce-scatter. -/
  | collRs (g : BitVec 3) (d : BitVec 5) (s : BitVec 5) (p : BitVec 5)
  /-- COLL_AG (R239): Starts a numbered all-gather. -/
  | collAg (g : BitVec 3) (d : BitVec 5) (s : BitVec 5) (p : BitVec 5)
  /-- COLL_BC (R239): Starts a numbered broadcast from ROOT. -/
  | collBc (g : BitVec 3) (d : BitVec 5) (s : BitVec 5) (p : BitVec 5)
  /-- COLL_XP (R239): Starts a numbered XOR-parity collective. -/
  | collXp (g : BitVec 3) (d : BitVec 5) (s : BitVec 5) (p : BitVec 5)
  /-- COLLQ (R242): Reads the number, generation and status of the latest matching collective into dd. -/
  | collq (g : BitVec 3) (d : BitVec 5) (p : BitVec 5)
  /-- LISTEN (R243): Gathers pending listening entries of a run of streams into a chunk buffer. -/
  | listen (g : BitVec 3) (d : BitVec 5) (s : BitVec 5) (l : BitVec 5) (t : BitVec 8)
  /-- SPEAK (R246): Stages speaking entries for publication at the commit. -/
  | speak (g : BitVec 3) (s : BitVec 5) (l : BitVec 5) (t : BitVec 8)
  /-- DLI (R248): Writes an imm16 into one quarter of a descriptor register. -/
  | dli (g : BitVec 3) (d : BitVec 5) (n : BitVec 2) (i : BitVec 16)
  /-- DSET (R248): Writes an s register to a descriptor register. -/
  | dset (g : BitVec 3) (d : BitVec 5) (a : BitVec 5)
  /-- DGET (R248): Writes a descriptor register to an s register. -/
  | dget (g : BitVec 3) (d : BitVec 5) (s : BitVec 5)
  /-- CLOOP (R235): Repeats C words an immediate number of times, offsetting copy addresses per trip. -/
  | cloop (g : BitVec 3) (l : BitVec 5) (n : BitVec 17)
  /-- CLOOP_REG (R235): Repeats C words a number of times held in an s register. -/
  | cloopReg (g : BitVec 3) (l : BitVec 5) (r : BitVec 5)
  /-- ACTIVATE (R282): Command: loads the job image and makes the context ACTIVE, restoring a parked or faulted one. -/
  | activate (ctx image : Nat)
  /-- DEACTIVATE (R282): Command: makes the context INACTIVE and clears its published entries. -/
  | deactivate (ctx : Nat)
  /-- STREAM_ADD (R282): Command: adds an active stream or records channels for a prepared id. -/
  | streamAdd (ctx sid llog : Nat) (prep : Bool) (lring lwp spk play : Nat)
  /-- STREAM_RESET (R282): Command: resets a stream as R38 at this TURN. -/
  | streamReset (ctx sid : Nat)
  /-- STREAM_END (R282): Command: removes a stream and its subtree. -/
  | streamEnd (ctx sid : Nat)
  /-- GRID_SET (R15): Command: sets a new grid epoch and slot table from the next frame start after S. -/
  | gridSet (ctx epoch table count : Nat)
  /-- FILL_SET (R282): Command: sets the context's fill codes. -/
  | fillSet (ctx count : Nat) (codes : List Nat)
  /-- KEY_SET (R282): Command: sets a stream's random key. -/
  | keySet (ctx sid : Nat) (key : W64)
  /-- NOTIFY_WRITE (R279): Host write of a notify register that advances TAIL and EVCONS, or sets the pending bit. -/
  | notifyWrite (pkt : Packet) (ctx : Nat) (value : W64)
  /-- RESMAP_WRITE (R276): Write of a resident-map register, validated and taking effect at the next frame start. -/
  | resmapWrite (pkt : Packet) (part index : Nat) (value : W64)
  /-- SYSTEM_REGISTER_WRITE (R274): Write to a system register with no behaviour of its own, such as CTXBASE; bad accesses are discarded. -/
  | systemRegisterWrite (pkt : Packet) (part n : Nat) (value : W64)
  /-- HOST_WRITE (R101): A host RDMA write into device memory, such as listening entries, write pointers or command rings. -/
  | hostWrite (pkt : Packet) (addr : Nat) (bytes : List Byte)
  /-- SLOT_START (R15): A slot (and at slot 0 a frame) starts on the wall clock; grid and residency changes take effect. -/
  | slotStart (part : Nat)
  /-- TURN (R19): At beat T the previous step's copies are cut, memories zeroed, commands applied, the job bound and SNAP taken. -/
  | turn (part : Nat)
  /-- STEP_COMMIT (R27): At the rendezvous beat + 16 the step's staged stream effects apply in order. -/
  | stepCommit (part : Nat)
  /-- DEADLINE (R32): At slot end - 20 us a step not yet committing is abandoned. -/
  | deadline (part : Nat)
  /-- RELEASE (R30): At slot end the grid controller releases one entry per active stream and advances Q. -/
  | release (part : Nat)
  /-- JOB_LOAD_COMPLETE (R277): A context's job-image load completes and LOADED becomes 1. -/
  | jobLoadComplete (part index : Nat)
  /-- EVENT_ACK (R284): On acknowledgement of an event write, the new produced count is written to EVCNT. -/
  | eventAck (ctx : Nat)
  /-- WRITE_PERFORM (R50): A pending register, row or memory write performs and becomes usable on its stated beat. -/
  | writePerform (rope core k : Nat)
  /-- COPY_START (R91): A delayed copy starts, leaving the start buffer and entering the overlap table. -/
  | copyStart (rope core k : Nat)
  /-- COPY_CHUNK (R92): A copy chunk samples its source and performs at its destination on its beats. -/
  | copyChunk (rope core k : Nat)
  /-- ROPE_FLIT_ARRIVAL (R95): A rope flit arrives at its receiving core and is accepted by a placed RECV. -/
  | ropeFlitArrival (part k : Nat)
  /-- MMA_WRITEBACK (R213): An accumulating word's rows are written on its write beat W. -/
  | mmaWriteback (rope core k : Nat)
  /-- COLL_RESULT_PERFORM (R102): A collective's results perform on the due beat, holding the partition if data is late. -/
  | collResultPerform (rope core k : Nat)
  /-- HOLD_END (R288): A hold ends when every cause is met and serviced by HOLDX; the beat proceeds. -/
  | holdEnd (part : Nat)
  /-- WALK_COMPLETE (R322): A translation walk completes, installing its entry or refusing the access. -/
  | walkComplete (k : Nat)
  /-- PITCH_REPLAY (R340): An uncorrectable matrix-path error holds the partition and replays the pitch to beat Y. -/
  | pitchReplay (rope core : Nat)
  /-- WATCHDOG (R296): The beat watchdog reaching RDZ + 16 + 2^24 raises the watchdog fault. -/
  | watchdog (part : Nat)
  /-- URGENT_PREEMPTION (R297): At a check beat a queued priority-3 request freezes the partition and bivouac frames are written. -/
  | urgentPreemption (part : Nat)
  /-- URGENT_STEP (R304): An urgent step runs TURN, RUN and commit on the frozen partition, then RESUME follows. -/
  | urgentStep (part : Nat)
  /-- HALT (R297): A HALT on the test access port freezes the partition for the debugger and writes frames. -/
  | halt (part : Nat)
  /-- RUN (R305): RUN on the test access port ends a debugger halt and moves the grid epoch. -/
  | run (part : Nat)
  /-- FREEZE (R306): FREEZE on the test access port stops every clock of the device. -/
  | freeze
  /-- THAW (R306): THAW restarts the clocks and skips slots whose deadlines passed. -/
  | thaw
  /-- DROOP_EPISODE (R351): A supply-sag sensor crossing its threshold stretches the beat clock. -/
  | droopEpisode (beatFs : Nat)
  /-- DROOP_END (R351): A droop episode ends when the sag clears or after 4096 periods. -/
  | droopEnd
  /-- THERMAL_READ (R354): Every 10 us the junction temperatures are read and the thermal state moves. -/
  | thermalRead (die0 die1 die2 die3 io : Int)
  /-- TRIP_TIMEOUT (R354): Ten seconds in TRIP powers off the compute dies with cause THERMAL. -/
  | tripTimeout
  /-- TELEMETRY_UPDATE (R350): Every 1000 us the device rewrites its core and device telemetry records. -/
  | telemetryUpdate
  /-- POWER_GOOD (R355): Power good or reset release starts the mask-ROM loader and reads the PUF. -/
  | powerGood (pufOk : Bool)
  /-- IMAGE_SLOTS_READ (R355): Both flash image slots are read and verified in SVN order. -/
  | imageSlotsRead
  /-- CONFIG (R357): The taken image's sections are applied. -/
  | config
  /-- TRAIN_COMPLETE (R355): DRAM training, links and 1588 lock complete; the device is READY and fuses are blown. -/
  | trainComplete
  /-- TRAIN_FAIL (R355): Training fails and the device enters RECOVERY. -/
  | trainFail
  /-- ATTESTATION_RESPONSE (R360): At partition 0's frame start a pending attestation request is signed and answered. -/
  | attestationResponse (flashOk : Bool)
  /-- PTP_MESSAGE (R362): An IEEE 1588 message of the configured domain is received with hardware timestamps. -/
  | ptpMessage (domain : Nat) (peerToPeer : Bool) (stepNs : Int)
  /-- STEP_MARK (R366): A received step mark is judged and the next frame start corrected. -/
  | stepMark (part gen frame time : Nat)
  /-- STEP_MARK_TIMEOUT (R366): No good mark within 10 us of the frame start; three in a row set LOCAL. -/
  | stepMarkTimeout (part : Nat)
  /-- SEQUENCER_REQUEST (R368): The sequencer receives a collective request and numbers or joins it. -/
  | sequencerRequest (chip part : Nat) (key : CollKey) (ask : CollAsk)
  /-- STANDBY_ACK (R368): The standby's acknowledgement lets the sequencer send the number to every member. -/
  | standbyAck (number : Nat)
  /-- DEFERRED_NUMBERING (R369): Deferred requests are numbered in arrival order as room in the number window returns. -/
  | deferredNumbering
  /-- START_NUMBER (R370): A chip receives a collective's start number and generation. -/
  | startNumber (number gen : Nat) (key : CollKey) (note : NumberNote)
  /-- COLLECTIVE_START (R370): The fabric engine starts a collective in number order once its sources are sampled. -/
  | collectiveStart (rope core k : Nat)
  /-- COLLECTIVE_DATA (R370): A peer's contribution or result arrives in the landing buffers. -/
  | collectiveData (key : CollKey) (rank : Nat) (bytes : List Byte) (poison : List Nat)
  /-- COLL_WITHDRAWAL (R344): The sequencer receives an abandoned step's withdrawal and removes unnumbered keys. -/
  | collWithdrawal (chip : Nat) (key : CollKey) (sampled : Bool)
  /-- HEARTBEAT (R373): Every 10 us heartbeats are sent to or from the sequencer and standby. -/
  | heartbeat (chip gen : Nat) (news : HeartbeatNews)
  /-- HEARTBEAT_TIMEOUT (R373): Three missing heartbeats declare a chip lost or trigger failover. -/
  | heartbeatTimeout (chip : Nat)
  /-- SEQUENCER_ANNOUNCE (R374): A chip receives the new sequencer's announcement and re-sends its unnumbered requests. -/
  | sequencerAnnounce (chip gen : Nat)
  /-- RESET_OR_POWER_LOSS (R355): Assertion of reset or loss of power takes the device from any state into RESET, dropping all running state. -/
  | resetOrPowerLoss
  /-- FLASH_REWRITE (R355): In RECOVERY the test access port rewrites the module's flash image slots. -/
  | flashRewrite (slot : Nat) (bytes : List Byte)
deriving DecidableEq, Repr

end Sys2Proof
end

