-- ==== Sys2Proof/WellFormed.lean ====
section
/-!
DEFINITION. The limits that the formats give a word's operands where they are narrower than the field
(R140 cases 2 and 6, R144). A word whose fields break one is malformed.
-/

namespace Sys2Proof

/-- A format code that R104 assigns (0x00, "none", among them). -/
def formatCode (c : BitVec 6) : Bool :=
  decide (c.toNat ≤ 6) || (decide (0x20 ≤ c.toNat) && decide (c.toNat % 8 ≠ 0))

/-- A rounding mode that R112 assigns. -/
def roundCode (m : BitVec 3) : Bool := decide (m.toNat ≤ 4)

/-- Owners of four bands, two bits each; 3 is reserved (R136). -/
def ownersOk (o : BitVec 8) : Bool :=
  decide (o.extractLsb' 0 2 ≠ 3) && decide (o.extractLsb' 2 2 ≠ 3) && decide (o.extractLsb' 4 2 ≠ 3)
    && decide (o.extractLsb' 6 2 ≠ 3)

/-- A counter select of RDCTR that R130 assigns. -/
def counterSelect (s : BitVec 8) : Bool :=
  decide (s.toNat ≤ 0x05) || (decide (0x08 ≤ s.toNat) && decide (s.toNat ≤ 0x1F))

/-- A system register number that R274 assigns. -/
def systemRegister (n : BitVec 8) : Bool :=
  decide (n.toNat ≤ 0x05) || (decide (0x10 ≤ n.toNat) && decide (n.toNat ≤ 0x3F))

/-- A bit-field word's position and width stay inside 64 bits (R144, R151). -/
def fieldInside (q w : BitVec 6) : Bool := decide (q.toNat + w.toNat + 1 ≤ 64)

/-- The word's operands are inside the limits of its format (R140 cases 2 and 6). The events of the
table have no format; their operands are judged where the spec says what a bad one does. -/
def Instr.wf : Instr → Bool
  | .exts _ _ _ q w => fieldInside q w
  | .extu _ _ _ q w => fieldInside q w
  | .ins _ _ _ q w => fieldInside q w
  | .brq _ _ _ _ j => decide (2 ≤ j.toNat)
  | .resync _ _ m => decide (m ≠ 0)
  | .rdctr _ _ s => counterSelect s
  | .rdsys _ _ n => systemRegister n
  | .wrsys _ _ n => systemRegister n
  | .holdx _ c => decide (c ≠ 0)
  | .vsel _ p _ _ _ => decide (p ≠ 0)
  | .vcvt _ _ _ _ _ _ m => roundCode m
  | .prot _ m => decide (1 ≤ m.toNat) && decide (m.toNat ≤ 4)
  | .mmaBf16 _ a b _ _ _ _ => decide (a ≠ b)
  | .mmaFp16 _ a b _ _ _ _ => decide (a ≠ b)
  | .mmaB8 _ a b _ _ _ _ f => decide (a ≠ b) && decide (f ≠ 0)
  | .mmat _ a b _ _ _ => decide (a ≠ b)
  | .mgrpBf16 _ a b _ _ _ => decide (a ≠ b)
  | .mgrpFp16 _ a b _ _ _ => decide (a ≠ b)
  | .balloc _ _ t o => formatCode t && decide (t ≠ 0) && ownersOk o
  | .bband _ _ o => ownersOk o
  | .rmode _ _ m => roundCode m
  | .send _ _ _ h _ _ => decide (h ≠ 0)
  | .collArsum _ _ _ p => decide (p.toNat ≤ 30)
  | .collArmax _ _ _ p => decide (p.toNat ≤ 30)
  | .collRs _ _ _ p => decide (p.toNat ≤ 30)
  | .collAg _ _ _ p => decide (p.toNat ≤ 30)
  | .collBc _ _ _ p => decide (p.toNat ≤ 30)
  | .collXp _ _ _ p => decide (p.toNat ≤ 30)
  | _ => true

end Sys2Proof
end

