-- ==== Sys2Proof/Decode.lean ====
section
/-!
DEFINITION. The decoder of each format family (R125 to R137), total on every 32-bit word and rejecting
by name (R140), and after it the encoder, written from the same tables. A field is cut out of the word
here once; no other file sees a raw encoding. Lean's compiler gives no code to a term that builds one of the
constructors of Instr after the 244th (a limit of its object tags), so the definitions that build them are
marked noncomputable; the kernel evaluates them as it does the others.
-/

namespace Sys2Proof

/-- Why a word is malformed (R140, cases 1 to 4 and 6). -/
inductive DecodeError where
  /-- Case 1: the major, or the VP operation group, is unassigned in the family's map. -/
  | unassignedMajor
  /-- Case 2: a function, sub-operation, condition or vb code of the major is unassigned. -/
  | unassignedFunction
  /-- Case 3: a reserved field is not zero. -/
  | reservedNotZero
  /-- Case 4: an ANCHOR with a GAP. -/
  | anchorGap
  /-- Cases 2 and 6: a select or operand outside its limits (WellFormed). -/
  | operandLimit
deriving DecidableEq, Repr

/-- The major opcode, bits 28:23 (R126). -/
def majorOf (w : W32) : BitVec 6 := w.extractLsb' 23 6

/-- GAP, bits 31:29 (R126). -/
def gapOf (w : W32) : BitVec 3 := w.extractLsb' 29 3

/-- Accept i when the reserved fields of its format are zero (R4). -/
def reserved (ok : Bool) (i : Instr) : Except DecodeError Instr :=
  if ok then .ok i else .error .reservedNotZero

/-- S family, major 0x05: the code in bits 3:0 selects the word. -/
def decodeS05 (w : W32) : Except DecodeError Instr :=
  match (w.extractLsb' 0 4).toNat with
  | 0x00 => reserved (w.extractLsb' 4 4 == 0) (.add (gapOf w) (w.extractLsb' 18 5) (w.extractLsb' 13 5) (w.extractLsb' 8 5))
  | 0x01 => reserved (w.extractLsb' 4 4 == 0) (.sub (gapOf w) (w.extractLsb' 18 5) (w.extractLsb' 13 5) (w.extractLsb' 8 5))
  | 0x02 => reserved (w.extractLsb' 4 4 == 0) (.and_ (gapOf w) (w.extractLsb' 18 5) (w.extractLsb' 13 5) (w.extractLsb' 8 5))
  | 0x03 => reserved (w.extractLsb' 4 4 == 0) (.or_ (gapOf w) (w.extractLsb' 18 5) (w.extractLsb' 13 5) (w.extractLsb' 8 5))
  | 0x04 => reserved (w.extractLsb' 4 4 == 0) (.xor_ (gapOf w) (w.extractLsb' 18 5) (w.extractLsb' 13 5) (w.extractLsb' 8 5))
  | 0x05 => reserved (w.extractLsb' 4 4 == 0) (.shl (gapOf w) (w.extractLsb' 18 5) (w.extractLsb' 13 5) (w.extractLsb' 8 5))
  | 0x06 => reserved (w.extractLsb' 4 4 == 0) (.shr (gapOf w) (w.extractLsb' 18 5) (w.extractLsb' 13 5) (w.extractLsb' 8 5))
  | 0x07 => reserved (w.extractLsb' 4 4 == 0) (.sar (gapOf w) (w.extractLsb' 18 5) (w.extractLsb' 13 5) (w.extractLsb' 8 5))
  | 0x08 => reserved (w.extractLsb' 4 4 == 0) (.rol (gapOf w) (w.extractLsb' 18 5) (w.extractLsb' 13 5) (w.extractLsb' 8 5))
  | 0x09 => reserved (w.extractLsb' 4 4 == 0) (.min_ (gapOf w) (w.extractLsb' 18 5) (w.extractLsb' 13 5) (w.extractLsb' 8 5))
  | 0x0a => reserved (w.extractLsb' 4 4 == 0) (.max_ (gapOf w) (w.extractLsb' 18 5) (w.extractLsb' 13 5) (w.extractLsb' 8 5))
  | 0x0b => reserved (w.extractLsb' 4 4 == 0) (.minu (gapOf w) (w.extractLsb' 18 5) (w.extractLsb' 13 5) (w.extractLsb' 8 5))
  | 0x0c => reserved (w.extractLsb' 4 4 == 0) (.maxu (gapOf w) (w.extractLsb' 18 5) (w.extractLsb' 13 5) (w.extractLsb' 8 5))
  | 0x0d => reserved (w.extractLsb' 4 4 == 0) (.slt (gapOf w) (w.extractLsb' 18 5) (w.extractLsb' 13 5) (w.extractLsb' 8 5))
  | 0x0e => reserved (w.extractLsb' 4 4 == 0) (.sltu (gapOf w) (w.extractLsb' 18 5) (w.extractLsb' 13 5) (w.extractLsb' 8 5))
  | 0x0f => reserved (w.extractLsb' 4 4 == 0) (.seq (gapOf w) (w.extractLsb' 18 5) (w.extractLsb' 13 5) (w.extractLsb' 8 5))
  | _ => .error .unassignedFunction

/-- S family, major 0x06: the code in bits 3:0 selects the word. -/
def decodeS06 (w : W32) : Except DecodeError Instr :=
  match (w.extractLsb' 0 4).toNat with
  | 0x00 => reserved (w.extractLsb' 4 4 == 0) (.mul (gapOf w) (w.extractLsb' 18 5) (w.extractLsb' 13 5) (w.extractLsb' 8 5))
  | 0x01 => reserved (w.extractLsb' 4 4 == 0) (.mulh (gapOf w) (w.extractLsb' 18 5) (w.extractLsb' 13 5) (w.extractLsb' 8 5))
  | 0x02 => reserved (w.extractLsb' 4 4 == 0) (.mulhu (gapOf w) (w.extractLsb' 18 5) (w.extractLsb' 13 5) (w.extractLsb' 8 5))
  | 0x03 => reserved (w.extractLsb' 4 4 == 0) (.div (gapOf w) (w.extractLsb' 18 5) (w.extractLsb' 13 5) (w.extractLsb' 8 5))
  | 0x04 => reserved (w.extractLsb' 4 4 == 0) (.divu (gapOf w) (w.extractLsb' 18 5) (w.extractLsb' 13 5) (w.extractLsb' 8 5))
  | 0x05 => reserved (w.extractLsb' 4 4 == 0) (.rem (gapOf w) (w.extractLsb' 18 5) (w.extractLsb' 13 5) (w.extractLsb' 8 5))
  | 0x06 => reserved (w.extractLsb' 4 4 == 0) (.remu (gapOf w) (w.extractLsb' 18 5) (w.extractLsb' 13 5) (w.extractLsb' 8 5))
  | 0x07 => .ok (.addsh (gapOf w) (w.extractLsb' 18 5) (w.extractLsb' 13 5) (w.extractLsb' 8 5) (w.extractLsb' 4 4))
  | 0x08 => reserved (w.extractLsb' 4 4 == 0) (.sel (gapOf w) (w.extractLsb' 18 5) (w.extractLsb' 13 5) (w.extractLsb' 8 5))
  | _ => .error .unassignedFunction

/-- S family, major 0x07: the code in bits 3:0 selects the word. -/
def decodeS07 (w : W32) : Except DecodeError Instr :=
  match (w.extractLsb' 0 4).toNat with
  | 0x00 => reserved (w.extractLsb' 4 9 == 0) (.clz (gapOf w) (w.extractLsb' 18 5) (w.extractLsb' 13 5))
  | 0x01 => reserved (w.extractLsb' 4 9 == 0) (.ctz (gapOf w) (w.extractLsb' 18 5) (w.extractLsb' 13 5))
  | 0x02 => reserved (w.extractLsb' 4 9 == 0) (.popc (gapOf w) (w.extractLsb' 18 5) (w.extractLsb' 13 5))
  | 0x03 => reserved (w.extractLsb' 4 9 == 0) (.bswap (gapOf w) (w.extractLsb' 18 5) (w.extractLsb' 13 5))
  | _ => .error .unassignedFunction

/-- S family, major 0x26: the code in bits 3:0 selects the word. -/
def decodeS26 (w : W32) : Except DecodeError Instr :=
  match (w.extractLsb' 0 4).toNat with
  | 0x00 => .ok (.ldsBIndexed (gapOf w) (w.extractLsb' 18 5) (w.extractLsb' 13 5) (w.extractLsb' 8 5) (w.extractLsb' 4 4))
  | 0x01 => .ok (.ldsHIndexed (gapOf w) (w.extractLsb' 18 5) (w.extractLsb' 13 5) (w.extractLsb' 8 5) (w.extractLsb' 4 4))
  | 0x02 => .ok (.ldsWIndexed (gapOf w) (w.extractLsb' 18 5) (w.extractLsb' 13 5) (w.extractLsb' 8 5) (w.extractLsb' 4 4))
  | 0x03 => .ok (.ldsDIndexed (gapOf w) (w.extractLsb' 18 5) (w.extractLsb' 13 5) (w.extractLsb' 8 5) (w.extractLsb' 4 4))
  | 0x04 => .ok (.ldsBuIndexed (gapOf w) (w.extractLsb' 18 5) (w.extractLsb' 13 5) (w.extractLsb' 8 5) (w.extractLsb' 4 4))
  | 0x05 => .ok (.ldsHuIndexed (gapOf w) (w.extractLsb' 18 5) (w.extractLsb' 13 5) (w.extractLsb' 8 5) (w.extractLsb' 4 4))
  | 0x06 => .ok (.ldsWuIndexed (gapOf w) (w.extractLsb' 18 5) (w.extractLsb' 13 5) (w.extractLsb' 8 5) (w.extractLsb' 4 4))
  | _ => .error .unassignedFunction

/-- S family, major 0x27: the code in bits 3:0 selects the word. -/
def decodeS27 (w : W32) : Except DecodeError Instr :=
  match (w.extractLsb' 0 4).toNat with
  | 0x00 => .ok (.stsBIndexed (gapOf w) (w.extractLsb' 18 5) (w.extractLsb' 13 5) (w.extractLsb' 8 5) (w.extractLsb' 4 4))
  | 0x01 => .ok (.stsHIndexed (gapOf w) (w.extractLsb' 18 5) (w.extractLsb' 13 5) (w.extractLsb' 8 5) (w.extractLsb' 4 4))
  | 0x02 => .ok (.stsWIndexed (gapOf w) (w.extractLsb' 18 5) (w.extractLsb' 13 5) (w.extractLsb' 8 5) (w.extractLsb' 4 4))
  | 0x03 => .ok (.stsDIndexed (gapOf w) (w.extractLsb' 18 5) (w.extractLsb' 13 5) (w.extractLsb' 8 5) (w.extractLsb' 4 4))
  | _ => .error .unassignedFunction

/-- S family, major 0x28: the code in bits 3:0 selects the word. -/
def decodeS28 (w : W32) : Except DecodeError Instr :=
  match (w.extractLsb' 0 4).toNat with
  | 0x00 => .ok (.ldmBIndexed (gapOf w) (w.extractLsb' 18 5) (w.extractLsb' 13 5) (w.extractLsb' 8 5) (w.extractLsb' 4 4))
  | 0x01 => .ok (.ldmHIndexed (gapOf w) (w.extractLsb' 18 5) (w.extractLsb' 13 5) (w.extractLsb' 8 5) (w.extractLsb' 4 4))
  | 0x02 => .ok (.ldmWIndexed (gapOf w) (w.extractLsb' 18 5) (w.extractLsb' 13 5) (w.extractLsb' 8 5) (w.extractLsb' 4 4))
  | 0x03 => .ok (.ldmDIndexed (gapOf w) (w.extractLsb' 18 5) (w.extractLsb' 13 5) (w.extractLsb' 8 5) (w.extractLsb' 4 4))
  | 0x04 => .ok (.ldmBuIndexed (gapOf w) (w.extractLsb' 18 5) (w.extractLsb' 13 5) (w.extractLsb' 8 5) (w.extractLsb' 4 4))
  | 0x05 => .ok (.ldmHuIndexed (gapOf w) (w.extractLsb' 18 5) (w.extractLsb' 13 5) (w.extractLsb' 8 5) (w.extractLsb' 4 4))
  | 0x06 => .ok (.ldmWuIndexed (gapOf w) (w.extractLsb' 18 5) (w.extractLsb' 13 5) (w.extractLsb' 8 5) (w.extractLsb' 4 4))
  | _ => .error .unassignedFunction

/-- S family, major 0x29: the code in bits 3:0 selects the word. -/
def decodeS29 (w : W32) : Except DecodeError Instr :=
  match (w.extractLsb' 0 4).toNat with
  | 0x00 => .ok (.stmBIndexed (gapOf w) (w.extractLsb' 18 5) (w.extractLsb' 13 5) (w.extractLsb' 8 5) (w.extractLsb' 4 4))
  | 0x01 => .ok (.stmHIndexed (gapOf w) (w.extractLsb' 18 5) (w.extractLsb' 13 5) (w.extractLsb' 8 5) (w.extractLsb' 4 4))
  | 0x02 => .ok (.stmWIndexed (gapOf w) (w.extractLsb' 18 5) (w.extractLsb' 13 5) (w.extractLsb' 8 5) (w.extractLsb' 4 4))
  | 0x03 => .ok (.stmDIndexed (gapOf w) (w.extractLsb' 18 5) (w.extractLsb' 13 5) (w.extractLsb' 8 5) (w.extractLsb' 4 4))
  | _ => .error .unassignedFunction

/-- S family, major 0x2A: the code in bits 3:0 selects the word. -/
def decodeS2a (w : W32) : Except DecodeError Instr :=
  match (w.extractLsb' 0 4).toNat with
  | 0x00 => .ok (.amosAdd (gapOf w) (w.extractLsb' 18 5) (w.extractLsb' 13 5) (w.extractLsb' 8 5) (w.extractLsb' 4 4))
  | 0x01 => .ok (.amosAnd (gapOf w) (w.extractLsb' 18 5) (w.extractLsb' 13 5) (w.extractLsb' 8 5) (w.extractLsb' 4 4))
  | 0x02 => .ok (.amosOr (gapOf w) (w.extractLsb' 18 5) (w.extractLsb' 13 5) (w.extractLsb' 8 5) (w.extractLsb' 4 4))
  | 0x03 => .ok (.amosXor (gapOf w) (w.extractLsb' 18 5) (w.extractLsb' 13 5) (w.extractLsb' 8 5) (w.extractLsb' 4 4))
  | 0x04 => .ok (.amosSwap (gapOf w) (w.extractLsb' 18 5) (w.extractLsb' 13 5) (w.extractLsb' 8 5) (w.extractLsb' 4 4))
  | 0x05 => .ok (.amosMin (gapOf w) (w.extractLsb' 18 5) (w.extractLsb' 13 5) (w.extractLsb' 8 5) (w.extractLsb' 4 4))
  | 0x06 => .ok (.amosMax (gapOf w) (w.extractLsb' 18 5) (w.extractLsb' 13 5) (w.extractLsb' 8 5) (w.extractLsb' 4 4))
  | 0x07 => .ok (.amosMinu (gapOf w) (w.extractLsb' 18 5) (w.extractLsb' 13 5) (w.extractLsb' 8 5) (w.extractLsb' 4 4))
  | 0x08 => .ok (.amosMaxu (gapOf w) (w.extractLsb' 18 5) (w.extractLsb' 13 5) (w.extractLsb' 8 5) (w.extractLsb' 4 4))
  | _ => .error .unassignedFunction

/-- S family, major 0x2B: the code in bits 3:0 selects the word. -/
def decodeS2b (w : W32) : Except DecodeError Instr :=
  match (w.extractLsb' 0 4).toNat with
  | 0x00 => .ok (.amosWAdd (gapOf w) (w.extractLsb' 18 5) (w.extractLsb' 13 5) (w.extractLsb' 8 5) (w.extractLsb' 4 4))
  | 0x01 => .ok (.amosWAnd (gapOf w) (w.extractLsb' 18 5) (w.extractLsb' 13 5) (w.extractLsb' 8 5) (w.extractLsb' 4 4))
  | 0x02 => .ok (.amosWOr (gapOf w) (w.extractLsb' 18 5) (w.extractLsb' 13 5) (w.extractLsb' 8 5) (w.extractLsb' 4 4))
  | 0x03 => .ok (.amosWXor (gapOf w) (w.extractLsb' 18 5) (w.extractLsb' 13 5) (w.extractLsb' 8 5) (w.extractLsb' 4 4))
  | 0x04 => .ok (.amosWSwap (gapOf w) (w.extractLsb' 18 5) (w.extractLsb' 13 5) (w.extractLsb' 8 5) (w.extractLsb' 4 4))
  | 0x05 => .ok (.amosWMin (gapOf w) (w.extractLsb' 18 5) (w.extractLsb' 13 5) (w.extractLsb' 8 5) (w.extractLsb' 4 4))
  | 0x06 => .ok (.amosWMax (gapOf w) (w.extractLsb' 18 5) (w.extractLsb' 13 5) (w.extractLsb' 8 5) (w.extractLsb' 4 4))
  | 0x07 => .ok (.amosWMinu (gapOf w) (w.extractLsb' 18 5) (w.extractLsb' 13 5) (w.extractLsb' 8 5) (w.extractLsb' 4 4))
  | 0x08 => .ok (.amosWMaxu (gapOf w) (w.extractLsb' 18 5) (w.extractLsb' 13 5) (w.extractLsb' 8 5) (w.extractLsb' 4 4))
  | _ => .error .unassignedFunction

/-- S family, major 0x2C: the code in bits 3:0 selects the word. -/
def decodeS2c (w : W32) : Except DecodeError Instr :=
  match (w.extractLsb' 0 4).toNat with
  | 0x00 => .ok (.amomAdd (gapOf w) (w.extractLsb' 18 5) (w.extractLsb' 13 5) (w.extractLsb' 8 5) (w.extractLsb' 4 4))
  | 0x01 => .ok (.amomAnd (gapOf w) (w.extractLsb' 18 5) (w.extractLsb' 13 5) (w.extractLsb' 8 5) (w.extractLsb' 4 4))
  | 0x02 => .ok (.amomOr (gapOf w) (w.extractLsb' 18 5) (w.extractLsb' 13 5) (w.extractLsb' 8 5) (w.extractLsb' 4 4))
  | 0x03 => .ok (.amomXor (gapOf w) (w.extractLsb' 18 5) (w.extractLsb' 13 5) (w.extractLsb' 8 5) (w.extractLsb' 4 4))
  | 0x04 => .ok (.amomSwap (gapOf w) (w.extractLsb' 18 5) (w.extractLsb' 13 5) (w.extractLsb' 8 5) (w.extractLsb' 4 4))
  | 0x05 => .ok (.amomMin (gapOf w) (w.extractLsb' 18 5) (w.extractLsb' 13 5) (w.extractLsb' 8 5) (w.extractLsb' 4 4))
  | 0x06 => .ok (.amomMax (gapOf w) (w.extractLsb' 18 5) (w.extractLsb' 13 5) (w.extractLsb' 8 5) (w.extractLsb' 4 4))
  | 0x07 => .ok (.amomMinu (gapOf w) (w.extractLsb' 18 5) (w.extractLsb' 13 5) (w.extractLsb' 8 5) (w.extractLsb' 4 4))
  | 0x08 => .ok (.amomMaxu (gapOf w) (w.extractLsb' 18 5) (w.extractLsb' 13 5) (w.extractLsb' 8 5) (w.extractLsb' 4 4))
  | _ => .error .unassignedFunction

/-- S family, major 0x2D: the code in bits 3:0 selects the word. -/
def decodeS2d (w : W32) : Except DecodeError Instr :=
  match (w.extractLsb' 0 4).toNat with
  | 0x00 => .ok (.amomWAdd (gapOf w) (w.extractLsb' 18 5) (w.extractLsb' 13 5) (w.extractLsb' 8 5) (w.extractLsb' 4 4))
  | 0x01 => .ok (.amomWAnd (gapOf w) (w.extractLsb' 18 5) (w.extractLsb' 13 5) (w.extractLsb' 8 5) (w.extractLsb' 4 4))
  | 0x02 => .ok (.amomWOr (gapOf w) (w.extractLsb' 18 5) (w.extractLsb' 13 5) (w.extractLsb' 8 5) (w.extractLsb' 4 4))
  | 0x03 => .ok (.amomWXor (gapOf w) (w.extractLsb' 18 5) (w.extractLsb' 13 5) (w.extractLsb' 8 5) (w.extractLsb' 4 4))
  | 0x04 => .ok (.amomWSwap (gapOf w) (w.extractLsb' 18 5) (w.extractLsb' 13 5) (w.extractLsb' 8 5) (w.extractLsb' 4 4))
  | 0x05 => .ok (.amomWMin (gapOf w) (w.extractLsb' 18 5) (w.extractLsb' 13 5) (w.extractLsb' 8 5) (w.extractLsb' 4 4))
  | 0x06 => .ok (.amomWMax (gapOf w) (w.extractLsb' 18 5) (w.extractLsb' 13 5) (w.extractLsb' 8 5) (w.extractLsb' 4 4))
  | 0x07 => .ok (.amomWMinu (gapOf w) (w.extractLsb' 18 5) (w.extractLsb' 13 5) (w.extractLsb' 8 5) (w.extractLsb' 4 4))
  | 0x08 => .ok (.amomWMaxu (gapOf w) (w.extractLsb' 18 5) (w.extractLsb' 13 5) (w.extractLsb' 8 5) (w.extractLsb' 4 4))
  | _ => .error .unassignedFunction

/-- S family, major 0x38: the code in bits 13:13 selects the word. -/
def decodeS38 (w : W32) : Except DecodeError Instr :=
  match (w.extractLsb' 13 1).toNat with
  | 0x00 => reserved (w.extractLsb' 14 2 == 0 && w.extractLsb' 5 8 == 0) (.kloopReg (gapOf w) (w.extractLsb' 21 2) (w.extractLsb' 16 5) (w.extractLsb' 0 5))
  | 0x01 => reserved (w.extractLsb' 14 2 == 0) (.kloop (gapOf w) (w.extractLsb' 21 2) (w.extractLsb' 16 5) (w.extractLsb' 0 13))
  | _ => .error .unassignedFunction

/-- S family, major 0x3F: the code in bits 12:8 selects the word. -/
def decodeS3f (w : W32) : Except DecodeError Instr :=
  match (w.extractLsb' 8 5).toNat with
  | 0x00 => reserved (w.extractLsb' 13 10 == 0 && w.extractLsb' 0 8 == 0) (.belay (gapOf w))
  | 0x01 => reserved (w.extractLsb' 18 5 == 0 && w.extractLsb' 4 4 == 0) (.resync (gapOf w) (w.extractLsb' 13 5) (w.extractLsb' 0 4))
  | 0x02 => if w.extractLsb' 0 1 == 0 then reserved (w.extractLsb' 13 10 == 0 && w.extractLsb' 1 7 == 0) (.gearH (gapOf w)) else reserved (w.extractLsb' 13 10 == 0 && w.extractLsb' 1 7 == 0) (.gearL (gapOf w))
  | 0x03 => reserved (w.extractLsb' 13 10 == 0 && w.extractLsb' 0 8 == 0) (.commit (gapOf w))
  | 0x04 => reserved (w.extractLsb' 13 5 == 0) (.rdctr (gapOf w) (w.extractLsb' 18 5) (w.extractLsb' 0 8))
  | 0x05 => reserved (w.extractLsb' 0 8 == 0) (.stat (gapOf w) (w.extractLsb' 18 5) (w.extractLsb' 13 5))
  | 0x06 => reserved (w.extractLsb' 13 10 == 0) (.break_ (gapOf w) (w.extractLsb' 0 8))
  | 0x07 => reserved (w.extractLsb' 18 5 == 0 && w.extractLsb' 1 7 == 0) (.xpre (gapOf w) (w.extractLsb' 13 5) (w.extractLsb' 0 1))
  | 0x08 => reserved (w.extractLsb' 18 5 == 0 && w.extractLsb' 0 8 == 0) (.sfork (gapOf w) (w.extractLsb' 13 5))
  | 0x09 => if w.extractLsb' 0 1 == 0 then reserved (w.extractLsb' 18 5 == 0 && w.extractLsb' 1 7 == 0) (.scancel (gapOf w) (w.extractLsb' 13 5)) else reserved (w.extractLsb' 18 5 == 0 && w.extractLsb' 1 7 == 0) (.scancelT (gapOf w) (w.extractLsb' 13 5))
  | 0x0a => reserved (w.extractLsb' 0 8 == 0) (.retract (gapOf w) (w.extractLsb' 18 5) (w.extractLsb' 13 5))
  | 0x0b => reserved (w.extractLsb' 13 10 == 0 && w.extractLsb' 2 6 == 0) (.xstep (gapOf w) (w.extractLsb' 0 2))
  | 0x0c => reserved (w.extractLsb' 2 6 == 0) (.posq (gapOf w) (w.extractLsb' 18 5) (w.extractLsb' 13 5) (w.extractLsb' 0 2))
  | 0x18 => reserved (w.extractLsb' 13 5 == 0) (.rdsys (gapOf w) (w.extractLsb' 18 5) (w.extractLsb' 0 8))
  | 0x19 => reserved (w.extractLsb' 18 5 == 0) (.wrsys (gapOf w) (w.extractLsb' 13 5) (w.extractLsb' 0 8))
  | 0x1a => reserved (w.extractLsb' 18 5 == 0 && w.extractLsb' 5 3 == 0) (.xlatw (gapOf w) (w.extractLsb' 13 5) (w.extractLsb' 0 5))
  | 0x1b => reserved (w.extractLsb' 18 5 == 0 && w.extractLsb' 6 2 == 0) (.xlati (gapOf w) (w.extractLsb' 13 5) (w.extractLsb' 5 1) (w.extractLsb' 0 5))
  | 0x1c => reserved (w.extractLsb' 18 5 == 0 && w.extractLsb' 0 8 == 0) (.resume (gapOf w) (w.extractLsb' 13 5))
  | 0x1d => reserved (w.extractLsb' 13 10 == 0 && w.extractLsb' 2 6 == 0) (.holdx (gapOf w) (w.extractLsb' 0 2))
  | _ => .error .unassignedFunction

/-- The S family's map (R129 to R131). -/
def decodeRawS (w : W32) : Except DecodeError Instr :=
  match (majorOf w).toNat with
  | 0x01 => if gapOf w == 0 then reserved (w.extractLsb' 0 23 == 0) .anchor else .error .anchorGap
  | 0x02 => reserved (w.extractLsb' 0 23 == 0) (.rendez (gapOf w))
  | 0x03 => reserved (w.extractLsb' 18 5 == 0) (.idle (gapOf w) (w.extractLsb' 0 18))
  | 0x04 => .ok (.mcall (gapOf w) (w.extractLsb' 17 6) (w.extractLsb' 11 6) (w.extractLsb' 5 6) (w.extractLsb' 0 5))
  | 0x05 => decodeS05 w
  | 0x06 => decodeS06 w
  | 0x07 => decodeS07 w
  | 0x08 => .ok (.addi (gapOf w) (w.extractLsb' 18 5) (w.extractLsb' 13 5) (w.extractLsb' 0 13))
  | 0x09 => .ok (.andi (gapOf w) (w.extractLsb' 18 5) (w.extractLsb' 13 5) (w.extractLsb' 0 13))
  | 0x0a => .ok (.ori (gapOf w) (w.extractLsb' 18 5) (w.extractLsb' 13 5) (w.extractLsb' 0 13))
  | 0x0b => .ok (.xori (gapOf w) (w.extractLsb' 18 5) (w.extractLsb' 13 5) (w.extractLsb' 0 13))
  | 0x0c => reserved (w.extractLsb' 6 7 == 0) (.shli (gapOf w) (w.extractLsb' 18 5) (w.extractLsb' 13 5) (w.extractLsb' 0 6))
  | 0x0d => reserved (w.extractLsb' 6 7 == 0) (.shri (gapOf w) (w.extractLsb' 18 5) (w.extractLsb' 13 5) (w.extractLsb' 0 6))
  | 0x0e => reserved (w.extractLsb' 6 7 == 0) (.sari (gapOf w) (w.extractLsb' 18 5) (w.extractLsb' 13 5) (w.extractLsb' 0 6))
  | 0x0f => .ok (.slti (gapOf w) (w.extractLsb' 18 5) (w.extractLsb' 13 5) (w.extractLsb' 0 13))
  | 0x10 => reserved (w.extractLsb' 12 1 == 0) (.exts (gapOf w) (w.extractLsb' 18 5) (w.extractLsb' 13 5) (w.extractLsb' 6 6) (w.extractLsb' 0 6))
  | 0x11 => reserved (w.extractLsb' 12 1 == 0) (.extu (gapOf w) (w.extractLsb' 18 5) (w.extractLsb' 13 5) (w.extractLsb' 6 6) (w.extractLsb' 0 6))
  | 0x12 => reserved (w.extractLsb' 12 1 == 0) (.ins (gapOf w) (w.extractLsb' 18 5) (w.extractLsb' 13 5) (w.extractLsb' 6 6) (w.extractLsb' 0 6))
  | 0x13 => .ok (.li (gapOf w) (w.extractLsb' 18 5) (w.extractLsb' 0 18))
  | 0x14 => .ok (.lih (gapOf w) (w.extractLsb' 18 5) (w.extractLsb' 0 18))
  | 0x15 => .ok (.ldsB (gapOf w) (w.extractLsb' 18 5) (w.extractLsb' 13 5) (w.extractLsb' 9 4) (w.extractLsb' 0 9))
  | 0x16 => .ok (.ldsH (gapOf w) (w.extractLsb' 18 5) (w.extractLsb' 13 5) (w.extractLsb' 9 4) (w.extractLsb' 0 9))
  | 0x17 => .ok (.ldsW (gapOf w) (w.extractLsb' 18 5) (w.extractLsb' 13 5) (w.extractLsb' 9 4) (w.extractLsb' 0 9))
  | 0x18 => .ok (.ldsD (gapOf w) (w.extractLsb' 18 5) (w.extractLsb' 13 5) (w.extractLsb' 9 4) (w.extractLsb' 0 9))
  | 0x19 => .ok (.stsB (gapOf w) (w.extractLsb' 18 5) (w.extractLsb' 13 5) (w.extractLsb' 9 4) (w.extractLsb' 0 9))
  | 0x1a => .ok (.stsH (gapOf w) (w.extractLsb' 18 5) (w.extractLsb' 13 5) (w.extractLsb' 9 4) (w.extractLsb' 0 9))
  | 0x1b => .ok (.stsW (gapOf w) (w.extractLsb' 18 5) (w.extractLsb' 13 5) (w.extractLsb' 9 4) (w.extractLsb' 0 9))
  | 0x1c => .ok (.stsD (gapOf w) (w.extractLsb' 18 5) (w.extractLsb' 13 5) (w.extractLsb' 9 4) (w.extractLsb' 0 9))
  | 0x1d => .ok (.ldmB (gapOf w) (w.extractLsb' 18 5) (w.extractLsb' 13 5) (w.extractLsb' 9 4) (w.extractLsb' 0 9))
  | 0x1e => .ok (.ldmH (gapOf w) (w.extractLsb' 18 5) (w.extractLsb' 13 5) (w.extractLsb' 9 4) (w.extractLsb' 0 9))
  | 0x1f => .ok (.ldmW (gapOf w) (w.extractLsb' 18 5) (w.extractLsb' 13 5) (w.extractLsb' 9 4) (w.extractLsb' 0 9))
  | 0x20 => .ok (.ldmD (gapOf w) (w.extractLsb' 18 5) (w.extractLsb' 13 5) (w.extractLsb' 9 4) (w.extractLsb' 0 9))
  | 0x21 => .ok (.stmB (gapOf w) (w.extractLsb' 18 5) (w.extractLsb' 13 5) (w.extractLsb' 9 4) (w.extractLsb' 0 9))
  | 0x22 => .ok (.stmH (gapOf w) (w.extractLsb' 18 5) (w.extractLsb' 13 5) (w.extractLsb' 9 4) (w.extractLsb' 0 9))
  | 0x23 => .ok (.stmW (gapOf w) (w.extractLsb' 18 5) (w.extractLsb' 13 5) (w.extractLsb' 9 4) (w.extractLsb' 0 9))
  | 0x24 => .ok (.stmD (gapOf w) (w.extractLsb' 18 5) (w.extractLsb' 13 5) (w.extractLsb' 9 4) (w.extractLsb' 0 9))
  | 0x25 => .ok (.lda (gapOf w) (w.extractLsb' 18 5) (w.extractLsb' 13 5) (w.extractLsb' 9 4) (w.extractLsb' 0 9))
  | 0x26 => decodeS26 w
  | 0x27 => decodeS27 w
  | 0x28 => decodeS28 w
  | 0x29 => decodeS29 w
  | 0x2a => decodeS2a w
  | 0x2b => decodeS2b w
  | 0x2c => decodeS2c w
  | 0x2d => decodeS2d w
  | 0x2e => .ok (.beq (gapOf w) (w.extractLsb' 18 5) (w.extractLsb' 13 5) (w.extractLsb' 0 13))
  | 0x2f => .ok (.bne (gapOf w) (w.extractLsb' 18 5) (w.extractLsb' 13 5) (w.extractLsb' 0 13))
  | 0x30 => .ok (.blt (gapOf w) (w.extractLsb' 18 5) (w.extractLsb' 13 5) (w.extractLsb' 0 13))
  | 0x31 => .ok (.bge (gapOf w) (w.extractLsb' 18 5) (w.extractLsb' 13 5) (w.extractLsb' 0 13))
  | 0x32 => .ok (.bltu (gapOf w) (w.extractLsb' 18 5) (w.extractLsb' 13 5) (w.extractLsb' 0 13))
  | 0x33 => .ok (.bgeu (gapOf w) (w.extractLsb' 18 5) (w.extractLsb' 13 5) (w.extractLsb' 0 13))
  | 0x34 => reserved (w.extractLsb' 18 5 == 0) (.jmp (gapOf w) (w.extractLsb' 0 18))
  | 0x35 => .ok (.call (gapOf w) (w.extractLsb' 18 5) (w.extractLsb' 0 18))
  | 0x36 => reserved (w.extractLsb' 18 5 == 0 && w.extractLsb' 0 13 == 0) (.jr (gapOf w) (w.extractLsb' 13 5))
  | 0x37 => .ok (.brq (gapOf w) (w.extractLsb' 18 5) (w.extractLsb' 13 5) (w.extractLsb' 12 1) (w.extractLsb' 0 12))
  | 0x38 => decodeS38 w
  | 0x39 => reserved (w.extractLsb' 16 4 == 0) (.cfence (gapOf w) (w.extractLsb' 22 1) (w.extractLsb' 21 1) (w.extractLsb' 20 1) (w.extractLsb' 0 16))
  | 0x3f => decodeS3f w
  | _ => .error .unassignedMajor

/-- V family, major 0x0F: the code in bits 5:0 selects the word. -/
def decodeV0f (w : W32) : Except DecodeError Instr :=
  match (w.extractLsb' 0 6).toNat with
  | 0x00 => .ok (.vabs (gapOf w) (w.extractLsb' 19 4) (w.extractLsb' 18 1) (w.extractLsb' 12 6) (w.extractLsb' 6 6))
  | 0x01 => .ok (.vneg (gapOf w) (w.extractLsb' 19 4) (w.extractLsb' 18 1) (w.extractLsb' 12 6) (w.extractLsb' 6 6))
  | 0x02 => .ok (.vrcp (gapOf w) (w.extractLsb' 19 4) (w.extractLsb' 18 1) (w.extractLsb' 12 6) (w.extractLsb' 6 6))
  | 0x03 => .ok (.vrsq (gapOf w) (w.extractLsb' 19 4) (w.extractLsb' 18 1) (w.extractLsb' 12 6) (w.extractLsb' 6 6))
  | 0x04 => .ok (.vsqrt (gapOf w) (w.extractLsb' 19 4) (w.extractLsb' 18 1) (w.extractLsb' 12 6) (w.extractLsb' 6 6))
  | 0x05 => .ok (.vexp2 (gapOf w) (w.extractLsb' 19 4) (w.extractLsb' 18 1) (w.extractLsb' 12 6) (w.extractLsb' 6 6))
  | 0x06 => .ok (.vlog2 (gapOf w) (w.extractLsb' 19 4) (w.extractLsb' 18 1) (w.extractLsb' 12 6) (w.extractLsb' 6 6))
  | 0x07 => .ok (.vsin (gapOf w) (w.extractLsb' 19 4) (w.extractLsb' 18 1) (w.extractLsb' 12 6) (w.extractLsb' 6 6))
  | 0x08 => .ok (.vcos (gapOf w) (w.extractLsb' 19 4) (w.extractLsb' 18 1) (w.extractLsb' 12 6) (w.extractLsb' 6 6))
  | 0x09 => .ok (.vtanh (gapOf w) (w.extractLsb' 19 4) (w.extractLsb' 18 1) (w.extractLsb' 12 6) (w.extractLsb' 6 6))
  | 0x0a => .ok (.vsigm (gapOf w) (w.extractLsb' 19 4) (w.extractLsb' 18 1) (w.extractLsb' 12 6) (w.extractLsb' 6 6))
  | 0x0b => .ok (.vclass (gapOf w) (w.extractLsb' 19 4) (w.extractLsb' 18 1) (w.extractLsb' 12 6) (w.extractLsb' 6 6))
  | _ => .error .unassignedFunction

/-- V family, major 0x1C: the code in bits 5:0 selects the word. -/
def decodeV1c (w : W32) : Except DecodeError Instr :=
  match (w.extractLsb' 0 6).toNat with
  | 0x00 => .ok (.vclz (gapOf w) (w.extractLsb' 19 4) (w.extractLsb' 18 1) (w.extractLsb' 12 6) (w.extractLsb' 6 6))
  | 0x01 => .ok (.vctz (gapOf w) (w.extractLsb' 19 4) (w.extractLsb' 18 1) (w.extractLsb' 12 6) (w.extractLsb' 6 6))
  | 0x02 => .ok (.vpopc (gapOf w) (w.extractLsb' 19 4) (w.extractLsb' 18 1) (w.extractLsb' 12 6) (w.extractLsb' 6 6))
  | 0x03 => .ok (.vsatnS (gapOf w) (w.extractLsb' 19 4) (w.extractLsb' 18 1) (w.extractLsb' 12 6) (w.extractLsb' 6 6))
  | 0x04 => .ok (.vsatnU (gapOf w) (w.extractLsb' 19 4) (w.extractLsb' 18 1) (w.extractLsb' 12 6) (w.extractLsb' 6 6))
  | 0x05 => reserved (w.extractLsb' 6 6 == 0) (.vidx (gapOf w) (w.extractLsb' 19 4) (w.extractLsb' 18 1) (w.extractLsb' 12 6))
  | _ => .error .unassignedFunction

/-- V family, major 0x1D: the code in bits 18:18 selects the word. -/
def decodeV1d (w : W32) : Except DecodeError Instr :=
  match (w.extractLsb' 18 1).toNat with
  | 0x00 => .ok (.vcmpEq (gapOf w) (w.extractLsb' 19 4) (w.extractLsb' 12 6) (w.extractLsb' 6 6) (w.extractLsb' 0 6))
  | 0x01 => .ok (.vcmpNe (gapOf w) (w.extractLsb' 19 4) (w.extractLsb' 12 6) (w.extractLsb' 6 6) (w.extractLsb' 0 6))
  | _ => .error .unassignedFunction

/-- V family, major 0x1E: the code in bits 18:18 selects the word. -/
def decodeV1e (w : W32) : Except DecodeError Instr :=
  match (w.extractLsb' 18 1).toNat with
  | 0x00 => .ok (.vcmpLt (gapOf w) (w.extractLsb' 19 4) (w.extractLsb' 12 6) (w.extractLsb' 6 6) (w.extractLsb' 0 6))
  | 0x01 => .ok (.vcmpLe (gapOf w) (w.extractLsb' 19 4) (w.extractLsb' 12 6) (w.extractLsb' 6 6) (w.extractLsb' 0 6))
  | _ => .error .unassignedFunction

/-- V family, major 0x1F: the code in bits 18:18 selects the word. -/
def decodeV1f (w : W32) : Except DecodeError Instr :=
  match (w.extractLsb' 18 1).toNat with
  | 0x00 => .ok (.vcmpUn (gapOf w) (w.extractLsb' 19 4) (w.extractLsb' 12 6) (w.extractLsb' 6 6) (w.extractLsb' 0 6))
  | 0x01 => .ok (.vcmpOrd (gapOf w) (w.extractLsb' 19 4) (w.extractLsb' 12 6) (w.extractLsb' 6 6) (w.extractLsb' 0 6))
  | _ => .error .unassignedFunction

/-- V family, major 0x24: the code in bits 5:0 selects the word. -/
def decodeV24 (w : W32) : Except DecodeError Instr :=
  match (w.extractLsb' 0 6).toNat with
  | 0x00 => .ok (.vordkey (gapOf w) (w.extractLsb' 19 4) (w.extractLsb' 18 1) (w.extractLsb' 12 6) (w.extractLsb' 6 6))
  | 0x01 => .ok (.vkeyord (gapOf w) (w.extractLsb' 19 4) (w.extractLsb' 18 1) (w.extractLsb' 12 6) (w.extractLsb' 6 6))
  | _ => .error .unassignedFunction

/-- V family, major 0x25: the code in bits 5:0 selects the word. -/
def decodeV25 (w : W32) : Except DecodeError Instr :=
  match (w.extractLsb' 0 6).toNat with
  | 0x00 => reserved (w.extractLsb' 18 1 == 0) (.vrsum (gapOf w) (w.extractLsb' 19 4) (w.extractLsb' 12 6) (w.extractLsb' 6 6))
  | 0x01 => reserved (w.extractLsb' 18 1 == 0) (.vrmax (gapOf w) (w.extractLsb' 19 4) (w.extractLsb' 12 6) (w.extractLsb' 6 6))
  | 0x02 => reserved (w.extractLsb' 18 1 == 0) (.vrmin (gapOf w) (w.extractLsb' 19 4) (w.extractLsb' 12 6) (w.extractLsb' 6 6))
  | 0x03 => reserved (w.extractLsb' 18 1 == 0) (.vrargmax (gapOf w) (w.extractLsb' 19 4) (w.extractLsb' 12 6) (w.extractLsb' 6 6))
  | 0x04 => reserved (w.extractLsb' 18 1 == 0) (.vrargmin (gapOf w) (w.extractLsb' 19 4) (w.extractLsb' 12 6) (w.extractLsb' 6 6))
  | _ => .error .unassignedFunction

/-- V family, major 0x2D: the code in bits 5:0 selects the word. -/
def decodeV2d (w : W32) : Except DecodeError Instr :=
  match (w.extractLsb' 0 6).toNat with
  | 0x00 => .ok (.vprefix (gapOf w) (w.extractLsb' 19 4) (w.extractLsb' 18 1) (w.extractLsb' 12 6) (w.extractLsb' 6 6))
  | 0x01 => .ok (.vprefixX (gapOf w) (w.extractLsb' 19 4) (w.extractLsb' 18 1) (w.extractLsb' 12 6) (w.extractLsb' 6 6))
  | _ => .error .unassignedFunction

/-- V family, major 0x35: the code in bits 5:0 selects the word. -/
def decodeV35 (w : W32) : Except DecodeError Instr :=
  match (w.extractLsb' 0 6).toNat with
  | 0x00 => .ok (.vmov (gapOf w) (w.extractLsb' 19 4) (w.extractLsb' 18 1) (w.extractLsb' 12 6) (w.extractLsb' 6 6))
  | 0x01 => reserved (w.extractLsb' 6 6 == 0) (.vzero (gapOf w) (w.extractLsb' 19 4) (w.extractLsb' 18 1) (w.extractLsb' 12 6))
  | _ => .error .unassignedFunction

/-- V family, major 0x36: the code in bits 22:18 selects the word. -/
def decodeV36 (w : W32) : Except DecodeError Instr :=
  match (w.extractLsb' 18 5).toNat with
  | 0x00 => reserved (w.extractLsb' 0 12 == 0) (.vbindV (gapOf w) (w.extractLsb' 12 6))
  | 0x01 => reserved (w.extractLsb' 0 12 == 0) (.vbindW (gapOf w) (w.extractLsb' 12 6))
  | 0x02 => reserved (w.extractLsb' 3 15 == 0) (.vbindMap (gapOf w) (w.extractLsb' 0 3))
  | 0x04 => reserved (w.extractLsb' 3 15 == 0) (.prot (gapOf w) (w.extractLsb' 0 3))
  | _ => .error .unassignedFunction

/-- V family, major 0x37: the code in bits 6:6 selects the word. -/
def decodeV37 (w : W32) : Except DecodeError Instr :=
  match (w.extractLsb' 6 1).toNat with
  | 0x00 => reserved (w.extractLsb' 5 1 == 0) (.mloopReg (gapOf w) (w.extractLsb' 18 5) (w.extractLsb' 12 6) (w.extractLsb' 7 5) (w.extractLsb' 0 5))
  | 0x01 => .ok (.mloop (gapOf w) (w.extractLsb' 18 5) (w.extractLsb' 12 6) (w.extractLsb' 7 5) (w.extractLsb' 0 6))
  | _ => .error .unassignedFunction

/-- V family, major 0x38: the code in bits 1:0 selects the word. -/
def decodeV38 (w : W32) : Except DecodeError Instr :=
  match (w.extractLsb' 0 2).toNat with
  | 0x00 => .ok (.pand (gapOf w) (w.extractLsb' 16 7) (w.extractLsb' 9 7) (w.extractLsb' 2 7))
  | 0x01 => .ok (.por (gapOf w) (w.extractLsb' 16 7) (w.extractLsb' 9 7) (w.extractLsb' 2 7))
  | 0x02 => .ok (.pxor (gapOf w) (w.extractLsb' 16 7) (w.extractLsb' 9 7) (w.extractLsb' 2 7))
  | 0x03 => .ok (.pandn (gapOf w) (w.extractLsb' 16 7) (w.extractLsb' 9 7) (w.extractLsb' 2 7))
  | _ => .error .unassignedFunction

/-- V family, major 0x39: the code in bits 1:0 selects the word. -/
def decodeV39 (w : W32) : Except DecodeError Instr :=
  match (w.extractLsb' 0 2).toNat with
  | 0x00 => reserved (w.extractLsb' 2 7 == 0) (.pnot (gapOf w) (w.extractLsb' 16 7) (w.extractLsb' 9 7))
  | 0x01 => reserved (w.extractLsb' 2 7 == 0) (.pmov (gapOf w) (w.extractLsb' 16 7) (w.extractLsb' 9 7))
  | 0x02 => reserved (w.extractLsb' 2 14 == 0) (.pset (gapOf w) (w.extractLsb' 16 7))
  | 0x03 => reserved (w.extractLsb' 2 14 == 0) (.pclr (gapOf w) (w.extractLsb' 16 7))
  | _ => .error .unassignedFunction

/-- V family, major 0x3A: the code in bits 1:0 selects the word. -/
noncomputable def decodeV3a (w : W32) : Except DecodeError Instr :=
  match (w.extractLsb' 0 2).toNat with
  | 0x00 => reserved (w.extractLsb' 22 1 == 0 && w.extractLsb' 2 7 == 0) (.pcnt (gapOf w) (w.extractLsb' 16 6) (w.extractLsb' 9 7))
  | 0x01 => reserved (w.extractLsb' 2 7 == 0) (.pfirst (gapOf w) (w.extractLsb' 16 7) (w.extractLsb' 9 7))
  | 0x02 => reserved (w.extractLsb' 2 7 == 0) (.plast (gapOf w) (w.extractLsb' 16 7) (w.extractLsb' 9 7))
  | _ => .error .unassignedFunction

/-- The V family's map (R132 to R135). -/
noncomputable def decodeRawV (w : W32) : Except DecodeError Instr :=
  match (majorOf w).toNat with
  | 0x01 => if gapOf w == 0 then reserved (w.extractLsb' 0 23 == 0) .anchor else .error .anchorGap
  | 0x02 => reserved (w.extractLsb' 0 23 == 0) (.rendez (gapOf w))
  | 0x03 => reserved (w.extractLsb' 18 5 == 0) (.idle (gapOf w) (w.extractLsb' 0 18))
  | 0x04 => .ok (.mcall (gapOf w) (w.extractLsb' 17 6) (w.extractLsb' 11 6) (w.extractLsb' 5 6) (w.extractLsb' 0 5))
  | 0x05 => .ok (.vadd (gapOf w) (w.extractLsb' 19 4) (w.extractLsb' 18 1) (w.extractLsb' 12 6) (w.extractLsb' 6 6) (w.extractLsb' 0 6))
  | 0x06 => .ok (.vsub (gapOf w) (w.extractLsb' 19 4) (w.extractLsb' 18 1) (w.extractLsb' 12 6) (w.extractLsb' 6 6) (w.extractLsb' 0 6))
  | 0x07 => .ok (.vmul (gapOf w) (w.extractLsb' 19 4) (w.extractLsb' 18 1) (w.extractLsb' 12 6) (w.extractLsb' 6 6) (w.extractLsb' 0 6))
  | 0x08 => .ok (.vfma (gapOf w) (w.extractLsb' 19 4) (w.extractLsb' 18 1) (w.extractLsb' 12 6) (w.extractLsb' 6 6) (w.extractLsb' 0 6))
  | 0x09 => .ok (.vfms (gapOf w) (w.extractLsb' 19 4) (w.extractLsb' 18 1) (w.extractLsb' 12 6) (w.extractLsb' 6 6) (w.extractLsb' 0 6))
  | 0x0a => .ok (.vfnma (gapOf w) (w.extractLsb' 19 4) (w.extractLsb' 18 1) (w.extractLsb' 12 6) (w.extractLsb' 6 6) (w.extractLsb' 0 6))
  | 0x0b => .ok (.vmin (gapOf w) (w.extractLsb' 19 4) (w.extractLsb' 18 1) (w.extractLsb' 12 6) (w.extractLsb' 6 6) (w.extractLsb' 0 6))
  | 0x0c => .ok (.vmax (gapOf w) (w.extractLsb' 19 4) (w.extractLsb' 18 1) (w.extractLsb' 12 6) (w.extractLsb' 6 6) (w.extractLsb' 0 6))
  | 0x0d => .ok (.vaddc (gapOf w) (w.extractLsb' 19 4) (w.extractLsb' 18 1) (w.extractLsb' 12 6) (w.extractLsb' 6 6) (w.extractLsb' 0 6))
  | 0x0e => .ok (.vcpysgn (gapOf w) (w.extractLsb' 19 4) (w.extractLsb' 18 1) (w.extractLsb' 12 6) (w.extractLsb' 6 6) (w.extractLsb' 0 6))
  | 0x0f => decodeV0f w
  | 0x10 => .ok (.viadd (gapOf w) (w.extractLsb' 19 4) (w.extractLsb' 18 1) (w.extractLsb' 12 6) (w.extractLsb' 6 6) (w.extractLsb' 0 6))
  | 0x11 => .ok (.visub (gapOf w) (w.extractLsb' 19 4) (w.extractLsb' 18 1) (w.extractLsb' 12 6) (w.extractLsb' 6 6) (w.extractLsb' 0 6))
  | 0x12 => .ok (.vimul (gapOf w) (w.extractLsb' 19 4) (w.extractLsb' 18 1) (w.extractLsb' 12 6) (w.extractLsb' 6 6) (w.extractLsb' 0 6))
  | 0x13 => .ok (.vimulh (gapOf w) (w.extractLsb' 19 4) (w.extractLsb' 18 1) (w.extractLsb' 12 6) (w.extractLsb' 6 6) (w.extractLsb' 0 6))
  | 0x14 => .ok (.vimin (gapOf w) (w.extractLsb' 19 4) (w.extractLsb' 18 1) (w.extractLsb' 12 6) (w.extractLsb' 6 6) (w.extractLsb' 0 6))
  | 0x15 => .ok (.vimax (gapOf w) (w.extractLsb' 19 4) (w.extractLsb' 18 1) (w.extractLsb' 12 6) (w.extractLsb' 6 6) (w.extractLsb' 0 6))
  | 0x16 => .ok (.vand (gapOf w) (w.extractLsb' 19 4) (w.extractLsb' 18 1) (w.extractLsb' 12 6) (w.extractLsb' 6 6) (w.extractLsb' 0 6))
  | 0x17 => .ok (.vor (gapOf w) (w.extractLsb' 19 4) (w.extractLsb' 18 1) (w.extractLsb' 12 6) (w.extractLsb' 6 6) (w.extractLsb' 0 6))
  | 0x18 => .ok (.vxor (gapOf w) (w.extractLsb' 19 4) (w.extractLsb' 18 1) (w.extractLsb' 12 6) (w.extractLsb' 6 6) (w.extractLsb' 0 6))
  | 0x19 => .ok (.vshl (gapOf w) (w.extractLsb' 19 4) (w.extractLsb' 18 1) (w.extractLsb' 12 6) (w.extractLsb' 6 6) (w.extractLsb' 0 6))
  | 0x1a => .ok (.vshr (gapOf w) (w.extractLsb' 19 4) (w.extractLsb' 18 1) (w.extractLsb' 12 6) (w.extractLsb' 6 6) (w.extractLsb' 0 6))
  | 0x1b => .ok (.vsar (gapOf w) (w.extractLsb' 19 4) (w.extractLsb' 18 1) (w.extractLsb' 12 6) (w.extractLsb' 6 6) (w.extractLsb' 0 6))
  | 0x1c => decodeV1c w
  | 0x1d => decodeV1d w
  | 0x1e => decodeV1e w
  | 0x1f => decodeV1f w
  | 0x20 => reserved (w.extractLsb' 18 1 == 0) (.vsel (gapOf w) (w.extractLsb' 19 4) (w.extractLsb' 12 6) (w.extractLsb' 6 6) (w.extractLsb' 0 6))
  | 0x21 => reserved (w.extractLsb' 4 2 == 0) (.vcvt (gapOf w) (w.extractLsb' 19 4) (w.extractLsb' 18 1) (w.extractLsb' 12 6) (w.extractLsb' 6 6) (w.extractLsb' 3 1) (w.extractLsb' 0 3))
  | 0x22 => .ok (.vpack (gapOf w) (w.extractLsb' 19 4) (w.extractLsb' 18 1) (w.extractLsb' 12 6) (w.extractLsb' 6 6) (w.extractLsb' 0 6))
  | 0x23 => reserved (w.extractLsb' 0 6 == 0) (.vunpk (gapOf w) (w.extractLsb' 19 4) (w.extractLsb' 18 1) (w.extractLsb' 12 6) (w.extractLsb' 6 6))
  | 0x24 => decodeV24 w
  | 0x25 => decodeV25 w
  | 0x26 => reserved (w.extractLsb' 6 6 == 0) (.vbcast (gapOf w) (w.extractLsb' 19 4) (w.extractLsb' 18 1) (w.extractLsb' 12 6) (w.extractLsb' 5 1) (w.extractLsb' 0 5))
  | 0x27 => .ok (.vrot (gapOf w) (w.extractLsb' 19 4) (w.extractLsb' 18 1) (w.extractLsb' 12 6) (w.extractLsb' 6 6) (w.extractLsb' 5 1) (w.extractLsb' 0 5))
  | 0x28 => .ok (.vslide (gapOf w) (w.extractLsb' 19 4) (w.extractLsb' 18 1) (w.extractLsb' 12 6) (w.extractLsb' 6 6) (w.extractLsb' 5 1) (w.extractLsb' 0 5))
  | 0x29 => .ok (.vshuf (gapOf w) (w.extractLsb' 19 4) (w.extractLsb' 18 1) (w.extractLsb' 12 6) (w.extractLsb' 6 6) (w.extractLsb' 0 6))
  | 0x2a => .ok (.vextr (gapOf w) (w.extractLsb' 19 4) (w.extractLsb' 18 1) (w.extractLsb' 12 6) (w.extractLsb' 6 6) (w.extractLsb' 5 1) (w.extractLsb' 0 5))
  | 0x2b => reserved (w.extractLsb' 11 1 == 0) (.vinsrt (gapOf w) (w.extractLsb' 19 4) (w.extractLsb' 18 1) (w.extractLsb' 12 6) (w.extractLsb' 6 5) (w.extractLsb' 5 1) (w.extractLsb' 0 5))
  | 0x2c => reserved (w.extractLsb' 18 1 == 0) (.vhist (gapOf w) (w.extractLsb' 19 4) (w.extractLsb' 12 6) (w.extractLsb' 6 6) (w.extractLsb' 0 6))
  | 0x2d => decodeV2d w
  | 0x2e => reserved (w.extractLsb' 18 1 == 0 && w.extractLsb' 0 6 == 0) (.vcompact (gapOf w) (w.extractLsb' 19 4) (w.extractLsb' 12 6) (w.extractLsb' 6 6))
  | 0x2f => .ok (.vld (gapOf w) (w.extractLsb' 19 4) (w.extractLsb' 18 1) (w.extractLsb' 12 6) (w.extractLsb' 7 5) (w.extractLsb' 3 4) (w.extractLsb' 0 3))
  | 0x30 => reserved (w.extractLsb' 18 1 == 0) (.vst (gapOf w) (w.extractLsb' 19 4) (w.extractLsb' 12 6) (w.extractLsb' 7 5) (w.extractLsb' 3 4) (w.extractLsb' 0 3))
  | 0x31 => .ok (.vlds (gapOf w) (w.extractLsb' 19 4) (w.extractLsb' 18 1) (w.extractLsb' 12 6) (w.extractLsb' 7 5) (w.extractLsb' 3 4) (w.extractLsb' 0 3))
  | 0x32 => reserved (w.extractLsb' 18 1 == 0) (.vsts (gapOf w) (w.extractLsb' 19 4) (w.extractLsb' 12 6) (w.extractLsb' 7 5) (w.extractLsb' 3 4) (w.extractLsb' 0 3))
  | 0x33 => .ok (.vgath (gapOf w) (w.extractLsb' 19 4) (w.extractLsb' 18 1) (w.extractLsb' 12 6) (w.extractLsb' 6 6) (w.extractLsb' 2 4) (w.extractLsb' 0 2))
  | 0x34 => reserved (w.extractLsb' 18 1 == 0) (.vscat (gapOf w) (w.extractLsb' 19 4) (w.extractLsb' 12 6) (w.extractLsb' 6 6) (w.extractLsb' 2 4) (w.extractLsb' 0 2))
  | 0x35 => decodeV35 w
  | 0x36 => decodeV36 w
  | 0x37 => decodeV37 w
  | 0x38 => decodeV38 w
  | 0x39 => decodeV39 w
  | 0x3a => decodeV3a w
  | _ => .error .unassignedMajor

/-- M family, major 0x09: the code in bits 4:4 selects the word. -/
noncomputable def decodeM09 (w : W32) : Except DecodeError Instr :=
  match (w.extractLsb' 4 1).toNat with
  | 0x00 => reserved (w.extractLsb' 10 1 == 0) (.mgrpBf16 (gapOf w) (w.extractLsb' 20 3) (w.extractLsb' 17 3) (w.extractLsb' 11 6) (w.extractLsb' 5 5) (w.extractLsb' 0 4))
  | 0x01 => reserved (w.extractLsb' 10 1 == 0) (.mgrpFp16 (gapOf w) (w.extractLsb' 20 3) (w.extractLsb' 17 3) (w.extractLsb' 11 6) (w.extractLsb' 5 5) (w.extractLsb' 0 4))
  | _ => .error .unassignedFunction

/-- M family, major 0x0A: the code in bits 22:22 selects the word. -/
noncomputable def decodeM0a (w : W32) : Except DecodeError Instr :=
  match (w.extractLsb' 22 1).toNat with
  | 0x00 => reserved (w.extractLsb' 0 17 == 0) (.mscaleA (gapOf w) (w.extractLsb' 17 5))
  | 0x01 => reserved (w.extractLsb' 0 17 == 0) (.mscaleB (gapOf w) (w.extractLsb' 17 5))
  | _ => .error .unassignedFunction

/-- M family, major 0x37: the code in bits 6:6 selects the word. -/
noncomputable def decodeM37 (w : W32) : Except DecodeError Instr :=
  match (w.extractLsb' 6 1).toNat with
  | 0x00 => reserved (w.extractLsb' 5 1 == 0) (.mloopReg (gapOf w) (w.extractLsb' 18 5) (w.extractLsb' 12 6) (w.extractLsb' 7 5) (w.extractLsb' 0 5))
  | 0x01 => .ok (.mloop (gapOf w) (w.extractLsb' 18 5) (w.extractLsb' 12 6) (w.extractLsb' 7 5) (w.extractLsb' 0 6))
  | _ => .error .unassignedFunction

/-- The M family's map (R136). -/
noncomputable def decodeRawM (w : W32) : Except DecodeError Instr :=
  match (majorOf w).toNat with
  | 0x01 => if gapOf w == 0 then reserved (w.extractLsb' 0 23 == 0) .anchor else .error .anchorGap
  | 0x02 => reserved (w.extractLsb' 0 23 == 0) (.rendez (gapOf w))
  | 0x03 => reserved (w.extractLsb' 18 5 == 0) (.idle (gapOf w) (w.extractLsb' 0 18))
  | 0x04 => .ok (.mcall (gapOf w) (w.extractLsb' 17 6) (w.extractLsb' 11 6) (w.extractLsb' 5 6) (w.extractLsb' 0 5))
  | 0x05 => .ok (.mmaBf16 (gapOf w) (w.extractLsb' 20 3) (w.extractLsb' 17 3) (w.extractLsb' 11 6) (w.extractLsb' 5 6) (w.extractLsb' 4 1) (w.extractLsb' 0 4))
  | 0x06 => .ok (.mmaFp16 (gapOf w) (w.extractLsb' 20 3) (w.extractLsb' 17 3) (w.extractLsb' 11 6) (w.extractLsb' 5 6) (w.extractLsb' 4 1) (w.extractLsb' 0 4))
  | 0x07 => .ok (.mmaB8 (gapOf w) (w.extractLsb' 20 3) (w.extractLsb' 17 3) (w.extractLsb' 11 6) (w.extractLsb' 5 6) (w.extractLsb' 4 1) (w.extractLsb' 3 1) (w.extractLsb' 0 3))
  | 0x08 => reserved (w.extractLsb' 4 1 == 0) (.mmat (gapOf w) (w.extractLsb' 20 3) (w.extractLsb' 17 3) (w.extractLsb' 11 6) (w.extractLsb' 5 6) (w.extractLsb' 0 4))
  | 0x09 => decodeM09 w
  | 0x0a => decodeM0a w
  | 0x0b => reserved (w.extractLsb' 0 3 == 0) (.balloc (gapOf w) (w.extractLsb' 17 6) (w.extractLsb' 11 6) (w.extractLsb' 3 8))
  | 0x0c => reserved (w.extractLsb' 0 17 == 0) (.bfree (gapOf w) (w.extractLsb' 17 6))
  | 0x0d => reserved (w.extractLsb' 11 6 == 0 && w.extractLsb' 0 3 == 0) (.bband (gapOf w) (w.extractLsb' 17 6) (w.extractLsb' 3 8))
  | 0x0e => reserved (w.extractLsb' 0 15 == 0) (.qinit (gapOf w) (w.extractLsb' 20 3) (w.extractLsb' 15 5))
  | 0x0f => reserved (w.extractLsb' 0 20 == 0) (.qskip (gapOf w) (w.extractLsb' 20 3))
  | 0x10 => reserved (w.extractLsb' 4 19 == 0) (.rmode (gapOf w) (w.extractLsb' 3 1) (w.extractLsb' 0 3))
  | 0x11 => reserved (w.extractLsb' 0 14 == 0) (.ftset (gapOf w) (w.extractLsb' 19 4) (w.extractLsb' 14 5))
  | 0x12 => reserved (w.extractLsb' 0 23 == 0) (.ramp (gapOf w))
  | 0x13 => reserved (w.extractLsb' 0 23 == 0) (.tstart (gapOf w))
  | 0x14 => reserved (w.extractLsb' 11 6 == 0 && w.extractLsb' 0 5 == 0) (.mzero (gapOf w) (w.extractLsb' 17 6) (w.extractLsb' 5 6))
  | 0x37 => decodeM37 w
  | _ => .error .unassignedMajor

/-- C family, major 0x0C: the code in bits 7:5 selects the word. -/
noncomputable def decodeC0c (w : W32) : Except DecodeError Instr :=
  match (w.extractLsb' 5 3).toNat with
  | 0x00 => reserved (w.extractLsb' 0 5 == 0) (.collArsum (gapOf w) (w.extractLsb' 18 5) (w.extractLsb' 13 5) (w.extractLsb' 8 5))
  | 0x01 => reserved (w.extractLsb' 0 5 == 0) (.collArmax (gapOf w) (w.extractLsb' 18 5) (w.extractLsb' 13 5) (w.extractLsb' 8 5))
  | 0x02 => reserved (w.extractLsb' 0 5 == 0) (.collRs (gapOf w) (w.extractLsb' 18 5) (w.extractLsb' 13 5) (w.extractLsb' 8 5))
  | 0x03 => reserved (w.extractLsb' 0 5 == 0) (.collAg (gapOf w) (w.extractLsb' 18 5) (w.extractLsb' 13 5) (w.extractLsb' 8 5))
  | 0x04 => reserved (w.extractLsb' 0 5 == 0) (.collBc (gapOf w) (w.extractLsb' 18 5) (w.extractLsb' 13 5) (w.extractLsb' 8 5))
  | 0x05 => reserved (w.extractLsb' 0 5 == 0) (.collXp (gapOf w) (w.extractLsb' 18 5) (w.extractLsb' 13 5) (w.extractLsb' 8 5))
  | _ => .error .unassignedFunction

/-- C family, major 0x13: the code in bits 17:17 selects the word. -/
noncomputable def decodeC13 (w : W32) : Except DecodeError Instr :=
  match (w.extractLsb' 17 1).toNat with
  | 0x00 => reserved (w.extractLsb' 5 12 == 0) (.cloopReg (gapOf w) (w.extractLsb' 18 5) (w.extractLsb' 0 5))
  | 0x01 => .ok (.cloop (gapOf w) (w.extractLsb' 18 5) (w.extractLsb' 0 17))
  | _ => .error .unassignedFunction

/-- The C family's map (R137). -/
noncomputable def decodeRawC (w : W32) : Except DecodeError Instr :=
  match (majorOf w).toNat with
  | 0x01 => if gapOf w == 0 then reserved (w.extractLsb' 0 23 == 0) .anchor else .error .anchorGap
  | 0x02 => reserved (w.extractLsb' 0 23 == 0) (.rendez (gapOf w))
  | 0x03 => reserved (w.extractLsb' 18 5 == 0) (.idle (gapOf w) (w.extractLsb' 0 18))
  | 0x04 => .ok (.mcall (gapOf w) (w.extractLsb' 17 6) (w.extractLsb' 11 6) (w.extractLsb' 5 6) (w.extractLsb' 0 5))
  | 0x05 => .ok (.cpy (gapOf w) (w.extractLsb' 18 5) (w.extractLsb' 13 5) (w.extractLsb' 8 5) (w.extractLsb' 0 8))
  | 0x06 => .ok (.cpya (gapOf w) (w.extractLsb' 18 5) (w.extractLsb' 13 5) (w.extractLsb' 8 5) (w.extractLsb' 0 8))
  | 0x07 => .ok (.cpy2 (gapOf w) (w.extractLsb' 18 5) (w.extractLsb' 13 5) (w.extractLsb' 8 5) (w.extractLsb' 3 5) (w.extractLsb' 0 3))
  | 0x08 => reserved (w.extractLsb' 18 2 == 0) (.cpyq (gapOf w) (w.extractLsb' 20 3) (w.extractLsb' 13 5) (w.extractLsb' 8 5) (w.extractLsb' 0 8))
  | 0x09 => .ok (.cpysel (gapOf w) (w.extractLsb' 18 5) (w.extractLsb' 13 5) (w.extractLsb' 8 5) (w.extractLsb' 0 8))
  | 0x0a => reserved (w.extractLsb' 0 5 == 0) (.send (gapOf w) (w.extractLsb' 20 3) (w.extractLsb' 19 1) (w.extractLsb' 16 3) (w.extractLsb' 10 6) (w.extractLsb' 5 5))
  | 0x0b => reserved (w.extractLsb' 16 3 == 0 && w.extractLsb' 0 5 == 0) (.recv (gapOf w) (w.extractLsb' 20 3) (w.extractLsb' 19 1) (w.extractLsb' 10 6) (w.extractLsb' 5 5))
  | 0x0c => decodeC0c w
  | 0x0d => reserved (w.extractLsb' 0 13 == 0) (.collq (gapOf w) (w.extractLsb' 18 5) (w.extractLsb' 13 5))
  | 0x0e => .ok (.listen (gapOf w) (w.extractLsb' 18 5) (w.extractLsb' 13 5) (w.extractLsb' 8 5) (w.extractLsb' 0 8))
  | 0x0f => reserved (w.extractLsb' 18 5 == 0) (.speak (gapOf w) (w.extractLsb' 13 5) (w.extractLsb' 8 5) (w.extractLsb' 0 8))
  | 0x10 => .ok (.dli (gapOf w) (w.extractLsb' 18 5) (w.extractLsb' 16 2) (w.extractLsb' 0 16))
  | 0x11 => reserved (w.extractLsb' 0 13 == 0) (.dset (gapOf w) (w.extractLsb' 18 5) (w.extractLsb' 13 5))
  | 0x12 => reserved (w.extractLsb' 0 13 == 0) (.dget (gapOf w) (w.extractLsb' 18 5) (w.extractLsb' 13 5))
  | 0x13 => decodeC13 w
  | _ => .error .unassignedMajor

/-- The map of a family, before the operand limits. -/
noncomputable def decodeRaw : Family → W32 → Except DecodeError Instr
  | .s, w => decodeRawS w
  | .v, w => decodeRawV w
  | .m, w => decodeRawM w
  | .c, w => decodeRawC w

/-- The word w as a track of family f decodes it (R126, R140). -/
noncomputable def decode (f : Family) (w : W32) : Except DecodeError Instr :=
  match decodeRaw f w with
  | .ok i => if i.wf then .ok i else .error .operandLimit
  | .error e => .error e

/-- The major of w is assigned in f's map, and for a VP word its operation group is: the first check
of R141. -/
noncomputable def majorAssigned (f : Family) (w : W32) : Bool :=
  match decodeRaw f w with
  | .error .unassignedMajor => false
  | _ => true

/-- The instruction w encodes, numbered as the opcode table numbers it. The table gives a word no
family; the families are tried in the order S, V, M, C and the first that decodes the word answers. -/
noncomputable def decodeTableWord (nbits w : Nat) : Option Instr :=
  if nbits = 32 then
    match decode .s (BitVec.ofNat 32 w) with
    | .ok i => some i
    | .error _ =>
      match decode .v (BitVec.ofNat 32 w) with
      | .ok i => some i
      | .error _ =>
        match decode .m (BitVec.ofNat 32 w) with
        | .ok i => some i
        | .error _ =>
          match decode .c (BitVec.ofNat 32 w) with
          | .ok i => some i
          | .error _ => none
  else none

/-! ## Encoder -/

/-- The word of an instruction that has one: its fields from bit 31 down (R127 to R137). Events of the
table have no bits. -/
def encode : Instr → Option W32
  | .anchor  => some (0#3 ++ 0x01#6 ++ 0#23)
  | .rendez g => some (g ++ 0x02#6 ++ 0#23)
  | .idle g m => some (g ++ 0x03#6 ++ 0#5 ++ m)
  | .mcall g e p q r => some (g ++ 0x04#6 ++ e ++ p ++ q ++ r)
  | .add g d a b => some (g ++ 0x05#6 ++ d ++ a ++ b ++ 0#4 ++ 0#4)
  | .sub g d a b => some (g ++ 0x05#6 ++ d ++ a ++ b ++ 0#4 ++ 1#4)
  | .and_ g d a b => some (g ++ 0x05#6 ++ d ++ a ++ b ++ 0#4 ++ 2#4)
  | .or_ g d a b => some (g ++ 0x05#6 ++ d ++ a ++ b ++ 0#4 ++ 3#4)
  | .xor_ g d a b => some (g ++ 0x05#6 ++ d ++ a ++ b ++ 0#4 ++ 4#4)
  | .shl g d a b => some (g ++ 0x05#6 ++ d ++ a ++ b ++ 0#4 ++ 5#4)
  | .shr g d a b => some (g ++ 0x05#6 ++ d ++ a ++ b ++ 0#4 ++ 6#4)
  | .sar g d a b => some (g ++ 0x05#6 ++ d ++ a ++ b ++ 0#4 ++ 7#4)
  | .rol g d a b => some (g ++ 0x05#6 ++ d ++ a ++ b ++ 0#4 ++ 8#4)
  | .min_ g d a b => some (g ++ 0x05#6 ++ d ++ a ++ b ++ 0#4 ++ 9#4)
  | .max_ g d a b => some (g ++ 0x05#6 ++ d ++ a ++ b ++ 0#4 ++ 10#4)
  | .minu g d a b => some (g ++ 0x05#6 ++ d ++ a ++ b ++ 0#4 ++ 11#4)
  | .maxu g d a b => some (g ++ 0x05#6 ++ d ++ a ++ b ++ 0#4 ++ 12#4)
  | .slt g d a b => some (g ++ 0x05#6 ++ d ++ a ++ b ++ 0#4 ++ 13#4)
  | .sltu g d a b => some (g ++ 0x05#6 ++ d ++ a ++ b ++ 0#4 ++ 14#4)
  | .seq g d a b => some (g ++ 0x05#6 ++ d ++ a ++ b ++ 0#4 ++ 15#4)
  | .mul g d a b => some (g ++ 0x06#6 ++ d ++ a ++ b ++ 0#4 ++ 0#4)
  | .mulh g d a b => some (g ++ 0x06#6 ++ d ++ a ++ b ++ 0#4 ++ 1#4)
  | .mulhu g d a b => some (g ++ 0x06#6 ++ d ++ a ++ b ++ 0#4 ++ 2#4)
  | .div g d a b => some (g ++ 0x06#6 ++ d ++ a ++ b ++ 0#4 ++ 3#4)
  | .divu g d a b => some (g ++ 0x06#6 ++ d ++ a ++ b ++ 0#4 ++ 4#4)
  | .rem g d a b => some (g ++ 0x06#6 ++ d ++ a ++ b ++ 0#4 ++ 5#4)
  | .remu g d a b => some (g ++ 0x06#6 ++ d ++ a ++ b ++ 0#4 ++ 6#4)
  | .addsh g d a b n => some (g ++ 0x06#6 ++ d ++ a ++ b ++ n ++ 7#4)
  | .sel g d a b => some (g ++ 0x06#6 ++ d ++ a ++ b ++ 0#4 ++ 8#4)
  | .clz g d a => some (g ++ 0x07#6 ++ d ++ a ++ 0#9 ++ 0#4)
  | .ctz g d a => some (g ++ 0x07#6 ++ d ++ a ++ 0#9 ++ 1#4)
  | .popc g d a => some (g ++ 0x07#6 ++ d ++ a ++ 0#9 ++ 2#4)
  | .bswap g d a => some (g ++ 0x07#6 ++ d ++ a ++ 0#9 ++ 3#4)
  | .addi g d a i => some (g ++ 0x08#6 ++ d ++ a ++ i)
  | .andi g d a i => some (g ++ 0x09#6 ++ d ++ a ++ i)
  | .ori g d a i => some (g ++ 0x0a#6 ++ d ++ a ++ i)
  | .xori g d a i => some (g ++ 0x0b#6 ++ d ++ a ++ i)
  | .shli g d a n => some (g ++ 0x0c#6 ++ d ++ a ++ 0#7 ++ n)
  | .shri g d a n => some (g ++ 0x0d#6 ++ d ++ a ++ 0#7 ++ n)
  | .sari g d a n => some (g ++ 0x0e#6 ++ d ++ a ++ 0#7 ++ n)
  | .slti g d a i => some (g ++ 0x0f#6 ++ d ++ a ++ i)
  | .exts g d a q w => some (g ++ 0x10#6 ++ d ++ a ++ 0#1 ++ q ++ w)
  | .extu g d a q w => some (g ++ 0x11#6 ++ d ++ a ++ 0#1 ++ q ++ w)
  | .ins g d a q w => some (g ++ 0x12#6 ++ d ++ a ++ 0#1 ++ q ++ w)
  | .li g d i => some (g ++ 0x13#6 ++ d ++ i)
  | .lih g d i => some (g ++ 0x14#6 ++ d ++ i)
  | .ldsB g d a c i => some (g ++ 0x15#6 ++ d ++ a ++ c ++ i)
  | .ldsH g d a c i => some (g ++ 0x16#6 ++ d ++ a ++ c ++ i)
  | .ldsW g d a c i => some (g ++ 0x17#6 ++ d ++ a ++ c ++ i)
  | .ldsD g d a c i => some (g ++ 0x18#6 ++ d ++ a ++ c ++ i)
  | .stsB g s a c i => some (g ++ 0x19#6 ++ s ++ a ++ c ++ i)
  | .stsH g s a c i => some (g ++ 0x1a#6 ++ s ++ a ++ c ++ i)
  | .stsW g s a c i => some (g ++ 0x1b#6 ++ s ++ a ++ c ++ i)
  | .stsD g s a c i => some (g ++ 0x1c#6 ++ s ++ a ++ c ++ i)
  | .ldmB g d a c i => some (g ++ 0x1d#6 ++ d ++ a ++ c ++ i)
  | .ldmH g d a c i => some (g ++ 0x1e#6 ++ d ++ a ++ c ++ i)
  | .ldmW g d a c i => some (g ++ 0x1f#6 ++ d ++ a ++ c ++ i)
  | .ldmD g d a c i => some (g ++ 0x20#6 ++ d ++ a ++ c ++ i)
  | .stmB g s a c i => some (g ++ 0x21#6 ++ s ++ a ++ c ++ i)
  | .stmH g s a c i => some (g ++ 0x22#6 ++ s ++ a ++ c ++ i)
  | .stmW g s a c i => some (g ++ 0x23#6 ++ s ++ a ++ c ++ i)
  | .stmD g s a c i => some (g ++ 0x24#6 ++ s ++ a ++ c ++ i)
  | .lda g d a c i => some (g ++ 0x25#6 ++ d ++ a ++ c ++ i)
  | .ldsBIndexed g d a b c => some (g ++ 0x26#6 ++ d ++ a ++ b ++ c ++ 0#4)
  | .ldsHIndexed g d a b c => some (g ++ 0x26#6 ++ d ++ a ++ b ++ c ++ 1#4)
  | .ldsWIndexed g d a b c => some (g ++ 0x26#6 ++ d ++ a ++ b ++ c ++ 2#4)
  | .ldsDIndexed g d a b c => some (g ++ 0x26#6 ++ d ++ a ++ b ++ c ++ 3#4)
  | .ldsBuIndexed g d a b c => some (g ++ 0x26#6 ++ d ++ a ++ b ++ c ++ 4#4)
  | .ldsHuIndexed g d a b c => some (g ++ 0x26#6 ++ d ++ a ++ b ++ c ++ 5#4)
  | .ldsWuIndexed g d a b c => some (g ++ 0x26#6 ++ d ++ a ++ b ++ c ++ 6#4)
  | .stsBIndexed g s a b c => some (g ++ 0x27#6 ++ s ++ a ++ b ++ c ++ 0#4)
  | .stsHIndexed g s a b c => some (g ++ 0x27#6 ++ s ++ a ++ b ++ c ++ 1#4)
  | .stsWIndexed g s a b c => some (g ++ 0x27#6 ++ s ++ a ++ b ++ c ++ 2#4)
  | .stsDIndexed g s a b c => some (g ++ 0x27#6 ++ s ++ a ++ b ++ c ++ 3#4)
  | .ldmBIndexed g d a b c => some (g ++ 0x28#6 ++ d ++ a ++ b ++ c ++ 0#4)
  | .ldmHIndexed g d a b c => some (g ++ 0x28#6 ++ d ++ a ++ b ++ c ++ 1#4)
  | .ldmWIndexed g d a b c => some (g ++ 0x28#6 ++ d ++ a ++ b ++ c ++ 2#4)
  | .ldmDIndexed g d a b c => some (g ++ 0x28#6 ++ d ++ a ++ b ++ c ++ 3#4)
  | .ldmBuIndexed g d a b c => some (g ++ 0x28#6 ++ d ++ a ++ b ++ c ++ 4#4)
  | .ldmHuIndexed g d a b c => some (g ++ 0x28#6 ++ d ++ a ++ b ++ c ++ 5#4)
  | .ldmWuIndexed g d a b c => some (g ++ 0x28#6 ++ d ++ a ++ b ++ c ++ 6#4)
  | .stmBIndexed g s a b c => some (g ++ 0x29#6 ++ s ++ a ++ b ++ c ++ 0#4)
  | .stmHIndexed g s a b c => some (g ++ 0x29#6 ++ s ++ a ++ b ++ c ++ 1#4)
  | .stmWIndexed g s a b c => some (g ++ 0x29#6 ++ s ++ a ++ b ++ c ++ 2#4)
  | .stmDIndexed g s a b c => some (g ++ 0x29#6 ++ s ++ a ++ b ++ c ++ 3#4)
  | .amosAdd g d a b c => some (g ++ 0x2a#6 ++ d ++ a ++ b ++ c ++ 0#4)
  | .amosAnd g d a b c => some (g ++ 0x2a#6 ++ d ++ a ++ b ++ c ++ 1#4)
  | .amosOr g d a b c => some (g ++ 0x2a#6 ++ d ++ a ++ b ++ c ++ 2#4)
  | .amosXor g d a b c => some (g ++ 0x2a#6 ++ d ++ a ++ b ++ c ++ 3#4)
  | .amosSwap g d a b c => some (g ++ 0x2a#6 ++ d ++ a ++ b ++ c ++ 4#4)
  | .amosMin g d a b c => some (g ++ 0x2a#6 ++ d ++ a ++ b ++ c ++ 5#4)
  | .amosMax g d a b c => some (g ++ 0x2a#6 ++ d ++ a ++ b ++ c ++ 6#4)
  | .amosMinu g d a b c => some (g ++ 0x2a#6 ++ d ++ a ++ b ++ c ++ 7#4)
  | .amosMaxu g d a b c => some (g ++ 0x2a#6 ++ d ++ a ++ b ++ c ++ 8#4)
  | .amosWAdd g d a b c => some (g ++ 0x2b#6 ++ d ++ a ++ b ++ c ++ 0#4)
  | .amosWAnd g d a b c => some (g ++ 0x2b#6 ++ d ++ a ++ b ++ c ++ 1#4)
  | .amosWOr g d a b c => some (g ++ 0x2b#6 ++ d ++ a ++ b ++ c ++ 2#4)
  | .amosWXor g d a b c => some (g ++ 0x2b#6 ++ d ++ a ++ b ++ c ++ 3#4)
  | .amosWSwap g d a b c => some (g ++ 0x2b#6 ++ d ++ a ++ b ++ c ++ 4#4)
  | .amosWMin g d a b c => some (g ++ 0x2b#6 ++ d ++ a ++ b ++ c ++ 5#4)
  | .amosWMax g d a b c => some (g ++ 0x2b#6 ++ d ++ a ++ b ++ c ++ 6#4)
  | .amosWMinu g d a b c => some (g ++ 0x2b#6 ++ d ++ a ++ b ++ c ++ 7#4)
  | .amosWMaxu g d a b c => some (g ++ 0x2b#6 ++ d ++ a ++ b ++ c ++ 8#4)
  | .amomAdd g d a b c => some (g ++ 0x2c#6 ++ d ++ a ++ b ++ c ++ 0#4)
  | .amomAnd g d a b c => some (g ++ 0x2c#6 ++ d ++ a ++ b ++ c ++ 1#4)
  | .amomOr g d a b c => some (g ++ 0x2c#6 ++ d ++ a ++ b ++ c ++ 2#4)
  | .amomXor g d a b c => some (g ++ 0x2c#6 ++ d ++ a ++ b ++ c ++ 3#4)
  | .amomSwap g d a b c => some (g ++ 0x2c#6 ++ d ++ a ++ b ++ c ++ 4#4)
  | .amomMin g d a b c => some (g ++ 0x2c#6 ++ d ++ a ++ b ++ c ++ 5#4)
  | .amomMax g d a b c => some (g ++ 0x2c#6 ++ d ++ a ++ b ++ c ++ 6#4)
  | .amomMinu g d a b c => some (g ++ 0x2c#6 ++ d ++ a ++ b ++ c ++ 7#4)
  | .amomMaxu g d a b c => some (g ++ 0x2c#6 ++ d ++ a ++ b ++ c ++ 8#4)
  | .amomWAdd g d a b c => some (g ++ 0x2d#6 ++ d ++ a ++ b ++ c ++ 0#4)
  | .amomWAnd g d a b c => some (g ++ 0x2d#6 ++ d ++ a ++ b ++ c ++ 1#4)
  | .amomWOr g d a b c => some (g ++ 0x2d#6 ++ d ++ a ++ b ++ c ++ 2#4)
  | .amomWXor g d a b c => some (g ++ 0x2d#6 ++ d ++ a ++ b ++ c ++ 3#4)
  | .amomWSwap g d a b c => some (g ++ 0x2d#6 ++ d ++ a ++ b ++ c ++ 4#4)
  | .amomWMin g d a b c => some (g ++ 0x2d#6 ++ d ++ a ++ b ++ c ++ 5#4)
  | .amomWMax g d a b c => some (g ++ 0x2d#6 ++ d ++ a ++ b ++ c ++ 6#4)
  | .amomWMinu g d a b c => some (g ++ 0x2d#6 ++ d ++ a ++ b ++ c ++ 7#4)
  | .amomWMaxu g d a b c => some (g ++ 0x2d#6 ++ d ++ a ++ b ++ c ++ 8#4)
  | .beq g a b o => some (g ++ 0x2e#6 ++ a ++ b ++ o)
  | .bne g a b o => some (g ++ 0x2f#6 ++ a ++ b ++ o)
  | .blt g a b o => some (g ++ 0x30#6 ++ a ++ b ++ o)
  | .bge g a b o => some (g ++ 0x31#6 ++ a ++ b ++ o)
  | .bltu g a b o => some (g ++ 0x32#6 ++ a ++ b ++ o)
  | .bgeu g a b o => some (g ++ 0x33#6 ++ a ++ b ++ o)
  | .jmp g i => some (g ++ 0x34#6 ++ 0#5 ++ i)
  | .call g d i => some (g ++ 0x35#6 ++ d ++ i)
  | .jr g a => some (g ++ 0x36#6 ++ 0#5 ++ a ++ 0#13)
  | .brq g a b z j => some (g ++ 0x37#6 ++ a ++ b ++ z ++ j)
  | .kloop g k l n => some (g ++ 0x38#6 ++ k ++ l ++ 0#2 ++ 1#1 ++ n)
  | .kloopReg g k l r => some (g ++ 0x38#6 ++ k ++ l ++ 0#2 ++ 0#1 ++ 0#8 ++ r)
  | .cfence g s v c m => some (g ++ 0x39#6 ++ s ++ v ++ c ++ 0#4 ++ m)
  | .belay g => some (g ++ 0x3f#6 ++ 0#10 ++ 0#5 ++ 0#8)
  | .resync g a m => some (g ++ 0x3f#6 ++ 0#5 ++ a ++ 1#5 ++ 0#4 ++ m)
  | .gearH g => some (g ++ 0x3f#6 ++ 0#10 ++ 2#5 ++ 0#7 ++ 0#1)
  | .gearL g => some (g ++ 0x3f#6 ++ 0#10 ++ 2#5 ++ 0#7 ++ 1#1)
  | .commit g => some (g ++ 0x3f#6 ++ 0#10 ++ 3#5 ++ 0#8)
  | .rdctr g d s => some (g ++ 0x3f#6 ++ d ++ 0#5 ++ 4#5 ++ s)
  | .stat g d a => some (g ++ 0x3f#6 ++ d ++ a ++ 5#5 ++ 0#8)
  | .break_ g c => some (g ++ 0x3f#6 ++ 0#10 ++ 6#5 ++ c)
  | .xpre g a z => some (g ++ 0x3f#6 ++ 0#5 ++ a ++ 7#5 ++ 0#7 ++ z)
  | .sfork g a => some (g ++ 0x3f#6 ++ 0#5 ++ a ++ 8#5 ++ 0#8)
  | .scancel g a => some (g ++ 0x3f#6 ++ 0#5 ++ a ++ 9#5 ++ 0#7 ++ 0#1)
  | .scancelT g a => some (g ++ 0x3f#6 ++ 0#5 ++ a ++ 9#5 ++ 0#7 ++ 1#1)
  | .retract g x a => some (g ++ 0x3f#6 ++ x ++ a ++ 10#5 ++ 0#8)
  | .xstep g p => some (g ++ 0x3f#6 ++ 0#10 ++ 11#5 ++ 0#6 ++ p)
  | .posq g d a s => some (g ++ 0x3f#6 ++ d ++ a ++ 12#5 ++ 0#6 ++ s)
  | .rdsys g d n => some (g ++ 0x3f#6 ++ d ++ 0#5 ++ 24#5 ++ n)
  | .wrsys g a n => some (g ++ 0x3f#6 ++ 0#5 ++ a ++ 25#5 ++ n)
  | .xlatw g a i => some (g ++ 0x3f#6 ++ 0#5 ++ a ++ 26#5 ++ 0#3 ++ i)
  | .xlati g a l i => some (g ++ 0x3f#6 ++ 0#5 ++ a ++ 27#5 ++ 0#2 ++ l ++ i)
  | .resume g a => some (g ++ 0x3f#6 ++ 0#5 ++ a ++ 28#5 ++ 0#8)
  | .holdx g c => some (g ++ 0x3f#6 ++ 0#10 ++ 29#5 ++ 0#6 ++ c)
  | .vadd g p z d a b => some (g ++ 0x05#6 ++ p ++ z ++ d ++ a ++ b)
  | .vsub g p z d a b => some (g ++ 0x06#6 ++ p ++ z ++ d ++ a ++ b)
  | .vmul g p z d a b => some (g ++ 0x07#6 ++ p ++ z ++ d ++ a ++ b)
  | .vfma g p z d a b => some (g ++ 0x08#6 ++ p ++ z ++ d ++ a ++ b)
  | .vfms g p z d a b => some (g ++ 0x09#6 ++ p ++ z ++ d ++ a ++ b)
  | .vfnma g p z d a b => some (g ++ 0x0a#6 ++ p ++ z ++ d ++ a ++ b)
  | .vmin g p z d a b => some (g ++ 0x0b#6 ++ p ++ z ++ d ++ a ++ b)
  | .vmax g p z d a b => some (g ++ 0x0c#6 ++ p ++ z ++ d ++ a ++ b)
  | .vaddc g p z d a b => some (g ++ 0x0d#6 ++ p ++ z ++ d ++ a ++ b)
  | .vcpysgn g p z d a b => some (g ++ 0x0e#6 ++ p ++ z ++ d ++ a ++ b)
  | .vabs g p z d a => some (g ++ 0x0f#6 ++ p ++ z ++ d ++ a ++ 0#6)
  | .vneg g p z d a => some (g ++ 0x0f#6 ++ p ++ z ++ d ++ a ++ 1#6)
  | .vrcp g p z d a => some (g ++ 0x0f#6 ++ p ++ z ++ d ++ a ++ 2#6)
  | .vrsq g p z d a => some (g ++ 0x0f#6 ++ p ++ z ++ d ++ a ++ 3#6)
  | .vsqrt g p z d a => some (g ++ 0x0f#6 ++ p ++ z ++ d ++ a ++ 4#6)
  | .vexp2 g p z d a => some (g ++ 0x0f#6 ++ p ++ z ++ d ++ a ++ 5#6)
  | .vlog2 g p z d a => some (g ++ 0x0f#6 ++ p ++ z ++ d ++ a ++ 6#6)
  | .vsin g p z d a => some (g ++ 0x0f#6 ++ p ++ z ++ d ++ a ++ 7#6)
  | .vcos g p z d a => some (g ++ 0x0f#6 ++ p ++ z ++ d ++ a ++ 8#6)
  | .vtanh g p z d a => some (g ++ 0x0f#6 ++ p ++ z ++ d ++ a ++ 9#6)
  | .vsigm g p z d a => some (g ++ 0x0f#6 ++ p ++ z ++ d ++ a ++ 10#6)
  | .vclass g p z d a => some (g ++ 0x0f#6 ++ p ++ z ++ d ++ a ++ 11#6)
  | .viadd g p z d a b => some (g ++ 0x10#6 ++ p ++ z ++ d ++ a ++ b)
  | .visub g p z d a b => some (g ++ 0x11#6 ++ p ++ z ++ d ++ a ++ b)
  | .vimul g p z d a b => some (g ++ 0x12#6 ++ p ++ z ++ d ++ a ++ b)
  | .vimulh g p z d a b => some (g ++ 0x13#6 ++ p ++ z ++ d ++ a ++ b)
  | .vimin g p z d a b => some (g ++ 0x14#6 ++ p ++ z ++ d ++ a ++ b)
  | .vimax g p z d a b => some (g ++ 0x15#6 ++ p ++ z ++ d ++ a ++ b)
  | .vand g p z d a b => some (g ++ 0x16#6 ++ p ++ z ++ d ++ a ++ b)
  | .vor g p z d a b => some (g ++ 0x17#6 ++ p ++ z ++ d ++ a ++ b)
  | .vxor g p z d a b => some (g ++ 0x18#6 ++ p ++ z ++ d ++ a ++ b)
  | .vshl g p z d a b => some (g ++ 0x19#6 ++ p ++ z ++ d ++ a ++ b)
  | .vshr g p z d a b => some (g ++ 0x1a#6 ++ p ++ z ++ d ++ a ++ b)
  | .vsar g p z d a b => some (g ++ 0x1b#6 ++ p ++ z ++ d ++ a ++ b)
  | .vclz g p z d a => some (g ++ 0x1c#6 ++ p ++ z ++ d ++ a ++ 0#6)
  | .vctz g p z d a => some (g ++ 0x1c#6 ++ p ++ z ++ d ++ a ++ 1#6)
  | .vpopc g p z d a => some (g ++ 0x1c#6 ++ p ++ z ++ d ++ a ++ 2#6)
  | .vsatnS g p z d a => some (g ++ 0x1c#6 ++ p ++ z ++ d ++ a ++ 3#6)
  | .vsatnU g p z d a => some (g ++ 0x1c#6 ++ p ++ z ++ d ++ a ++ 4#6)
  | .vidx g p z d => some (g ++ 0x1c#6 ++ p ++ z ++ d ++ 0#6 ++ 5#6)
  | .vcmpEq g p d a b => some (g ++ 0x1d#6 ++ p ++ 0#1 ++ d ++ a ++ b)
  | .vcmpNe g p d a b => some (g ++ 0x1d#6 ++ p ++ 1#1 ++ d ++ a ++ b)
  | .vcmpLt g p d a b => some (g ++ 0x1e#6 ++ p ++ 0#1 ++ d ++ a ++ b)
  | .vcmpLe g p d a b => some (g ++ 0x1e#6 ++ p ++ 1#1 ++ d ++ a ++ b)
  | .vcmpUn g p d a b => some (g ++ 0x1f#6 ++ p ++ 0#1 ++ d ++ a ++ b)
  | .vcmpOrd g p d a b => some (g ++ 0x1f#6 ++ p ++ 1#1 ++ d ++ a ++ b)
  | .vsel g p d a b => some (g ++ 0x20#6 ++ p ++ 0#1 ++ d ++ a ++ b)
  | .vcvt g p z d a t m => some (g ++ 0x21#6 ++ p ++ z ++ d ++ a ++ 0#2 ++ t ++ m)
  | .vpack g p z d a b => some (g ++ 0x22#6 ++ p ++ z ++ d ++ a ++ b)
  | .vunpk g p z d a => some (g ++ 0x23#6 ++ p ++ z ++ d ++ a ++ 0#6)
  | .vordkey g p z d a => some (g ++ 0x24#6 ++ p ++ z ++ d ++ a ++ 0#6)
  | .vkeyord g p z d a => some (g ++ 0x24#6 ++ p ++ z ++ d ++ a ++ 1#6)
  | .vrsum g p d a => some (g ++ 0x25#6 ++ p ++ 0#1 ++ d ++ a ++ 0#6)
  | .vrmax g p d a => some (g ++ 0x25#6 ++ p ++ 0#1 ++ d ++ a ++ 1#6)
  | .vrmin g p d a => some (g ++ 0x25#6 ++ p ++ 0#1 ++ d ++ a ++ 2#6)
  | .vrargmax g p d a => some (g ++ 0x25#6 ++ p ++ 0#1 ++ d ++ a ++ 3#6)
  | .vrargmin g p d a => some (g ++ 0x25#6 ++ p ++ 0#1 ++ d ++ a ++ 4#6)
  | .vbcast g p z d i x => some (g ++ 0x26#6 ++ p ++ z ++ d ++ 0#6 ++ i ++ x)
  | .vrot g p z d a i x => some (g ++ 0x27#6 ++ p ++ z ++ d ++ a ++ i ++ x)
  | .vslide g p z d a i x => some (g ++ 0x28#6 ++ p ++ z ++ d ++ a ++ i ++ x)
  | .vshuf g p z d a b => some (g ++ 0x29#6 ++ p ++ z ++ d ++ a ++ b)
  | .vextr g p z d a i x => some (g ++ 0x2a#6 ++ p ++ z ++ d ++ a ++ i ++ x)
  | .vinsrt g p z d k i x => some (g ++ 0x2b#6 ++ p ++ z ++ d ++ 0#1 ++ k ++ i ++ x)
  | .vhist g p d a b => some (g ++ 0x2c#6 ++ p ++ 0#1 ++ d ++ a ++ b)
  | .vprefix g p z d a => some (g ++ 0x2d#6 ++ p ++ z ++ d ++ a ++ 0#6)
  | .vprefixX g p z d a => some (g ++ 0x2d#6 ++ p ++ z ++ d ++ a ++ 1#6)
  | .vcompact g p d a => some (g ++ 0x2e#6 ++ p ++ 0#1 ++ d ++ a ++ 0#6)
  | .vld g p z d s c i => some (g ++ 0x2f#6 ++ p ++ z ++ d ++ s ++ c ++ i)
  | .vst g p d s c i => some (g ++ 0x30#6 ++ p ++ 0#1 ++ d ++ s ++ c ++ i)
  | .vlds g p z d s c i => some (g ++ 0x31#6 ++ p ++ z ++ d ++ s ++ c ++ i)
  | .vsts g p d s c i => some (g ++ 0x32#6 ++ p ++ 0#1 ++ d ++ s ++ c ++ i)
  | .vgath g p z d a c s => some (g ++ 0x33#6 ++ p ++ z ++ d ++ a ++ c ++ s)
  | .vscat g p d a c s => some (g ++ 0x34#6 ++ p ++ 0#1 ++ d ++ a ++ c ++ s)
  | .vmov g p z d a => some (g ++ 0x35#6 ++ p ++ z ++ d ++ a ++ 0#6)
  | .vzero g p z d => some (g ++ 0x35#6 ++ p ++ z ++ d ++ 0#6 ++ 1#6)
  | .vbindV g k => some (g ++ 0x36#6 ++ 0#5 ++ k ++ 0#12)
  | .vbindW g k => some (g ++ 0x36#6 ++ 1#5 ++ k ++ 0#12)
  | .vbindMap g m => some (g ++ 0x36#6 ++ 2#5 ++ 0#15 ++ m)
  | .prot g m => some (g ++ 0x36#6 ++ 4#5 ++ 0#15 ++ m)
  | .mloop g l s k n => some (g ++ 0x37#6 ++ l ++ s ++ k ++ 1#1 ++ n)
  | .mloopReg g l s k r => some (g ++ 0x37#6 ++ l ++ s ++ k ++ 0#1 ++ 0#1 ++ r)
  | .pand g d a b => some (g ++ 0x38#6 ++ d ++ a ++ b ++ 0#2)
  | .por g d a b => some (g ++ 0x38#6 ++ d ++ a ++ b ++ 1#2)
  | .pxor g d a b => some (g ++ 0x38#6 ++ d ++ a ++ b ++ 2#2)
  | .pandn g d a b => some (g ++ 0x38#6 ++ d ++ a ++ b ++ 3#2)
  | .pnot g d a => some (g ++ 0x39#6 ++ d ++ a ++ 0#7 ++ 0#2)
  | .pmov g d a => some (g ++ 0x39#6 ++ d ++ a ++ 0#7 ++ 1#2)
  | .pset g d => some (g ++ 0x39#6 ++ d ++ 0#14 ++ 2#2)
  | .pclr g d => some (g ++ 0x39#6 ++ d ++ 0#14 ++ 3#2)
  | .pcnt g d a => some (g ++ 0x3a#6 ++ 0#1 ++ d ++ a ++ 0#7 ++ 0#2)
  | .pfirst g d a => some (g ++ 0x3a#6 ++ d ++ a ++ 0#7 ++ 1#2)
  | .plast g d a => some (g ++ 0x3a#6 ++ d ++ a ++ 0#7 ++ 2#2)
  | .mmaBf16 g a b k r s p => some (g ++ 0x05#6 ++ a ++ b ++ k ++ r ++ s ++ p)
  | .mmaFp16 g a b k r s p => some (g ++ 0x06#6 ++ a ++ b ++ k ++ r ++ s ++ p)
  | .mmaB8 g a b k r u x f => some (g ++ 0x07#6 ++ a ++ b ++ k ++ r ++ u ++ x ++ f)
  | .mmat g a b k r p => some (g ++ 0x08#6 ++ a ++ b ++ k ++ r ++ 0#1 ++ p)
  | .mgrpBf16 g a b k s p => some (g ++ 0x09#6 ++ a ++ b ++ k ++ 0#1 ++ s ++ 0#1 ++ p)
  | .mgrpFp16 g a b k s p => some (g ++ 0x09#6 ++ a ++ b ++ k ++ 0#1 ++ s ++ 1#1 ++ p)
  | .mscaleA g s => some (g ++ 0x0a#6 ++ 0#1 ++ s ++ 0#17)
  | .mscaleB g s => some (g ++ 0x0a#6 ++ 1#1 ++ s ++ 0#17)
  | .balloc g k t o => some (g ++ 0x0b#6 ++ k ++ t ++ o ++ 0#3)
  | .bfree g k => some (g ++ 0x0c#6 ++ k ++ 0#17)
  | .bband g k o => some (g ++ 0x0d#6 ++ k ++ 0#6 ++ o ++ 0#3)
  | .qinit g q s => some (g ++ 0x0e#6 ++ q ++ s ++ 0#15)
  | .qskip g q => some (g ++ 0x0f#6 ++ q ++ 0#20)
  | .rmode g s m => some (g ++ 0x10#6 ++ 0#19 ++ s ++ m)
  | .ftset g e s => some (g ++ 0x11#6 ++ e ++ s ++ 0#14)
  | .ramp g => some (g ++ 0x12#6 ++ 0#23)
  | .tstart g => some (g ++ 0x13#6 ++ 0#23)
  | .mzero g k r => some (g ++ 0x14#6 ++ k ++ 0#6 ++ r ++ 0#5)
  | .cpy g d s l t => some (g ++ 0x05#6 ++ d ++ s ++ l ++ t)
  | .cpya g d s l t => some (g ++ 0x06#6 ++ d ++ s ++ l ++ t)
  | .cpy2 g d s l h t => some (g ++ 0x07#6 ++ d ++ s ++ l ++ h ++ t)
  | .cpyq g q s l t => some (g ++ 0x08#6 ++ q ++ 0#2 ++ s ++ l ++ t)
  | .cpysel g d s l t => some (g ++ 0x09#6 ++ d ++ s ++ l ++ t)
  | .send g l r h k x => some (g ++ 0x0a#6 ++ l ++ r ++ h ++ k ++ x ++ 0#5)
  | .recv g l r k x => some (g ++ 0x0b#6 ++ l ++ r ++ 0#3 ++ k ++ x ++ 0#5)
  | .collArsum g d s p => some (g ++ 0x0c#6 ++ d ++ s ++ p ++ 0#3 ++ 0#5)
  | .collArmax g d s p => some (g ++ 0x0c#6 ++ d ++ s ++ p ++ 1#3 ++ 0#5)
  | .collRs g d s p => some (g ++ 0x0c#6 ++ d ++ s ++ p ++ 2#3 ++ 0#5)
  | .collAg g d s p => some (g ++ 0x0c#6 ++ d ++ s ++ p ++ 3#3 ++ 0#5)
  | .collBc g d s p => some (g ++ 0x0c#6 ++ d ++ s ++ p ++ 4#3 ++ 0#5)
  | .collXp g d s p => some (g ++ 0x0c#6 ++ d ++ s ++ p ++ 5#3 ++ 0#5)
  | .collq g d p => some (g ++ 0x0d#6 ++ d ++ p ++ 0#13)
  | .listen g d s l t => some (g ++ 0x0e#6 ++ d ++ s ++ l ++ t)
  | .speak g s l t => some (g ++ 0x0f#6 ++ 0#5 ++ s ++ l ++ t)
  | .dli g d n i => some (g ++ 0x10#6 ++ d ++ n ++ i)
  | .dset g d a => some (g ++ 0x11#6 ++ d ++ a ++ 0#13)
  | .dget g d s => some (g ++ 0x12#6 ++ d ++ s ++ 0#13)
  | .cloop g l n => some (g ++ 0x13#6 ++ l ++ 1#1 ++ n)
  | .cloopReg g l r => some (g ++ 0x13#6 ++ l ++ 0#1 ++ 0#12 ++ r)
  | .activate .. => none
  | .deactivate .. => none
  | .streamAdd .. => none
  | .streamReset .. => none
  | .streamEnd .. => none
  | .gridSet .. => none
  | .fillSet .. => none
  | .keySet .. => none
  | .notifyWrite .. => none
  | .resmapWrite .. => none
  | .systemRegisterWrite .. => none
  | .hostWrite .. => none
  | .slotStart .. => none
  | .turn .. => none
  | .stepCommit .. => none
  | .deadline .. => none
  | .release .. => none
  | .jobLoadComplete .. => none
  | .eventAck .. => none
  | .writePerform .. => none
  | .copyStart .. => none
  | .copyChunk .. => none
  | .ropeFlitArrival .. => none
  | .mmaWriteback .. => none
  | .collResultPerform .. => none
  | .holdEnd .. => none
  | .walkComplete .. => none
  | .pitchReplay .. => none
  | .watchdog .. => none
  | .urgentPreemption .. => none
  | .urgentStep .. => none
  | .halt .. => none
  | .run .. => none
  | .freeze .. => none
  | .thaw .. => none
  | .droopEpisode .. => none
  | .droopEnd .. => none
  | .thermalRead .. => none
  | .tripTimeout .. => none
  | .telemetryUpdate .. => none
  | .powerGood .. => none
  | .imageSlotsRead .. => none
  | .config .. => none
  | .trainComplete .. => none
  | .trainFail .. => none
  | .attestationResponse .. => none
  | .ptpMessage .. => none
  | .stepMark .. => none
  | .stepMarkTimeout .. => none
  | .sequencerRequest .. => none
  | .standbyAck .. => none
  | .deferredNumbering .. => none
  | .startNumber .. => none
  | .collectiveStart .. => none
  | .collectiveData .. => none
  | .collWithdrawal .. => none
  | .heartbeat .. => none
  | .heartbeatTimeout .. => none
  | .sequencerAnnounce .. => none
  | .resetOrPowerLoss .. => none
  | .flashRewrite .. => none

/-- The families whose tracks decode the instruction's word (R127, R132, R136). -/
def familiesOf : Instr → List Family
  | .anchor .. => [.s, .v, .m, .c]
  | .rendez .. => [.s, .v, .m, .c]
  | .idle .. => [.s, .v, .m, .c]
  | .mcall .. => [.s, .v, .m, .c]
  | .add .. => [.s]
  | .sub .. => [.s]
  | .and_ .. => [.s]
  | .or_ .. => [.s]
  | .xor_ .. => [.s]
  | .shl .. => [.s]
  | .shr .. => [.s]
  | .sar .. => [.s]
  | .rol .. => [.s]
  | .min_ .. => [.s]
  | .max_ .. => [.s]
  | .minu .. => [.s]
  | .maxu .. => [.s]
  | .slt .. => [.s]
  | .sltu .. => [.s]
  | .seq .. => [.s]
  | .mul .. => [.s]
  | .mulh .. => [.s]
  | .mulhu .. => [.s]
  | .div .. => [.s]
  | .divu .. => [.s]
  | .rem .. => [.s]
  | .remu .. => [.s]
  | .addsh .. => [.s]
  | .sel .. => [.s]
  | .clz .. => [.s]
  | .ctz .. => [.s]
  | .popc .. => [.s]
  | .bswap .. => [.s]
  | .addi .. => [.s]
  | .andi .. => [.s]
  | .ori .. => [.s]
  | .xori .. => [.s]
  | .shli .. => [.s]
  | .shri .. => [.s]
  | .sari .. => [.s]
  | .slti .. => [.s]
  | .exts .. => [.s]
  | .extu .. => [.s]
  | .ins .. => [.s]
  | .li .. => [.s]
  | .lih .. => [.s]
  | .ldsB .. => [.s]
  | .ldsH .. => [.s]
  | .ldsW .. => [.s]
  | .ldsD .. => [.s]
  | .stsB .. => [.s]
  | .stsH .. => [.s]
  | .stsW .. => [.s]
  | .stsD .. => [.s]
  | .ldmB .. => [.s]
  | .ldmH .. => [.s]
  | .ldmW .. => [.s]
  | .ldmD .. => [.s]
  | .stmB .. => [.s]
  | .stmH .. => [.s]
  | .stmW .. => [.s]
  | .stmD .. => [.s]
  | .lda .. => [.s]
  | .ldsBIndexed .. => [.s]
  | .ldsHIndexed .. => [.s]
  | .ldsWIndexed .. => [.s]
  | .ldsDIndexed .. => [.s]
  | .ldsBuIndexed .. => [.s]
  | .ldsHuIndexed .. => [.s]
  | .ldsWuIndexed .. => [.s]
  | .stsBIndexed .. => [.s]
  | .stsHIndexed .. => [.s]
  | .stsWIndexed .. => [.s]
  | .stsDIndexed .. => [.s]
  | .ldmBIndexed .. => [.s]
  | .ldmHIndexed .. => [.s]
  | .ldmWIndexed .. => [.s]
  | .ldmDIndexed .. => [.s]
  | .ldmBuIndexed .. => [.s]
  | .ldmHuIndexed .. => [.s]
  | .ldmWuIndexed .. => [.s]
  | .stmBIndexed .. => [.s]
  | .stmHIndexed .. => [.s]
  | .stmWIndexed .. => [.s]
  | .stmDIndexed .. => [.s]
  | .amosAdd .. => [.s]
  | .amosAnd .. => [.s]
  | .amosOr .. => [.s]
  | .amosXor .. => [.s]
  | .amosSwap .. => [.s]
  | .amosMin .. => [.s]
  | .amosMax .. => [.s]
  | .amosMinu .. => [.s]
  | .amosMaxu .. => [.s]
  | .amosWAdd .. => [.s]
  | .amosWAnd .. => [.s]
  | .amosWOr .. => [.s]
  | .amosWXor .. => [.s]
  | .amosWSwap .. => [.s]
  | .amosWMin .. => [.s]
  | .amosWMax .. => [.s]
  | .amosWMinu .. => [.s]
  | .amosWMaxu .. => [.s]
  | .amomAdd .. => [.s]
  | .amomAnd .. => [.s]
  | .amomOr .. => [.s]
  | .amomXor .. => [.s]
  | .amomSwap .. => [.s]
  | .amomMin .. => [.s]
  | .amomMax .. => [.s]
  | .amomMinu .. => [.s]
  | .amomMaxu .. => [.s]
  | .amomWAdd .. => [.s]
  | .amomWAnd .. => [.s]
  | .amomWOr .. => [.s]
  | .amomWXor .. => [.s]
  | .amomWSwap .. => [.s]
  | .amomWMin .. => [.s]
  | .amomWMax .. => [.s]
  | .amomWMinu .. => [.s]
  | .amomWMaxu .. => [.s]
  | .beq .. => [.s]
  | .bne .. => [.s]
  | .blt .. => [.s]
  | .bge .. => [.s]
  | .bltu .. => [.s]
  | .bgeu .. => [.s]
  | .jmp .. => [.s]
  | .call .. => [.s]
  | .jr .. => [.s]
  | .brq .. => [.s]
  | .kloop .. => [.s]
  | .kloopReg .. => [.s]
  | .cfence .. => [.s]
  | .belay .. => [.s]
  | .resync .. => [.s]
  | .gearH .. => [.s]
  | .gearL .. => [.s]
  | .commit .. => [.s]
  | .rdctr .. => [.s]
  | .stat .. => [.s]
  | .break_ .. => [.s]
  | .xpre .. => [.s]
  | .sfork .. => [.s]
  | .scancel .. => [.s]
  | .scancelT .. => [.s]
  | .retract .. => [.s]
  | .xstep .. => [.s]
  | .posq .. => [.s]
  | .rdsys .. => [.s]
  | .wrsys .. => [.s]
  | .xlatw .. => [.s]
  | .xlati .. => [.s]
  | .resume .. => [.s]
  | .holdx .. => [.s]
  | .vadd .. => [.v]
  | .vsub .. => [.v]
  | .vmul .. => [.v]
  | .vfma .. => [.v]
  | .vfms .. => [.v]
  | .vfnma .. => [.v]
  | .vmin .. => [.v]
  | .vmax .. => [.v]
  | .vaddc .. => [.v]
  | .vcpysgn .. => [.v]
  | .vabs .. => [.v]
  | .vneg .. => [.v]
  | .vrcp .. => [.v]
  | .vrsq .. => [.v]
  | .vsqrt .. => [.v]
  | .vexp2 .. => [.v]
  | .vlog2 .. => [.v]
  | .vsin .. => [.v]
  | .vcos .. => [.v]
  | .vtanh .. => [.v]
  | .vsigm .. => [.v]
  | .vclass .. => [.v]
  | .viadd .. => [.v]
  | .visub .. => [.v]
  | .vimul .. => [.v]
  | .vimulh .. => [.v]
  | .vimin .. => [.v]
  | .vimax .. => [.v]
  | .vand .. => [.v]
  | .vor .. => [.v]
  | .vxor .. => [.v]
  | .vshl .. => [.v]
  | .vshr .. => [.v]
  | .vsar .. => [.v]
  | .vclz .. => [.v]
  | .vctz .. => [.v]
  | .vpopc .. => [.v]
  | .vsatnS .. => [.v]
  | .vsatnU .. => [.v]
  | .vidx .. => [.v]
  | .vcmpEq .. => [.v]
  | .vcmpNe .. => [.v]
  | .vcmpLt .. => [.v]
  | .vcmpLe .. => [.v]
  | .vcmpUn .. => [.v]
  | .vcmpOrd .. => [.v]
  | .vsel .. => [.v]
  | .vcvt .. => [.v]
  | .vpack .. => [.v]
  | .vunpk .. => [.v]
  | .vordkey .. => [.v]
  | .vkeyord .. => [.v]
  | .vrsum .. => [.v]
  | .vrmax .. => [.v]
  | .vrmin .. => [.v]
  | .vrargmax .. => [.v]
  | .vrargmin .. => [.v]
  | .vbcast .. => [.v]
  | .vrot .. => [.v]
  | .vslide .. => [.v]
  | .vshuf .. => [.v]
  | .vextr .. => [.v]
  | .vinsrt .. => [.v]
  | .vhist .. => [.v]
  | .vprefix .. => [.v]
  | .vprefixX .. => [.v]
  | .vcompact .. => [.v]
  | .vld .. => [.v]
  | .vst .. => [.v]
  | .vlds .. => [.v]
  | .vsts .. => [.v]
  | .vgath .. => [.v]
  | .vscat .. => [.v]
  | .vmov .. => [.v]
  | .vzero .. => [.v]
  | .vbindV .. => [.v]
  | .vbindW .. => [.v]
  | .vbindMap .. => [.v]
  | .prot .. => [.v]
  | .mloop .. => [.v, .m]
  | .mloopReg .. => [.v, .m]
  | .pand .. => [.v]
  | .por .. => [.v]
  | .pxor .. => [.v]
  | .pandn .. => [.v]
  | .pnot .. => [.v]
  | .pmov .. => [.v]
  | .pset .. => [.v]
  | .pclr .. => [.v]
  | .pcnt .. => [.v]
  | .pfirst .. => [.v]
  | .plast .. => [.v]
  | .mmaBf16 .. => [.m]
  | .mmaFp16 .. => [.m]
  | .mmaB8 .. => [.m]
  | .mmat .. => [.m]
  | .mgrpBf16 .. => [.m]
  | .mgrpFp16 .. => [.m]
  | .mscaleA .. => [.m]
  | .mscaleB .. => [.m]
  | .balloc .. => [.m]
  | .bfree .. => [.m]
  | .bband .. => [.m]
  | .qinit .. => [.m]
  | .qskip .. => [.m]
  | .rmode .. => [.m]
  | .ftset .. => [.m]
  | .ramp .. => [.m]
  | .tstart .. => [.m]
  | .mzero .. => [.m]
  | .cpy .. => [.c]
  | .cpya .. => [.c]
  | .cpy2 .. => [.c]
  | .cpyq .. => [.c]
  | .cpysel .. => [.c]
  | .send .. => [.c]
  | .recv .. => [.c]
  | .collArsum .. => [.c]
  | .collArmax .. => [.c]
  | .collRs .. => [.c]
  | .collAg .. => [.c]
  | .collBc .. => [.c]
  | .collXp .. => [.c]
  | .collq .. => [.c]
  | .listen .. => [.c]
  | .speak .. => [.c]
  | .dli .. => [.c]
  | .dset .. => [.c]
  | .dget .. => [.c]
  | .cloop .. => [.c]
  | .cloopReg .. => [.c]
  | .activate .. => []
  | .deactivate .. => []
  | .streamAdd .. => []
  | .streamReset .. => []
  | .streamEnd .. => []
  | .gridSet .. => []
  | .fillSet .. => []
  | .keySet .. => []
  | .notifyWrite .. => []
  | .resmapWrite .. => []
  | .systemRegisterWrite .. => []
  | .hostWrite .. => []
  | .slotStart .. => []
  | .turn .. => []
  | .stepCommit .. => []
  | .deadline .. => []
  | .release .. => []
  | .jobLoadComplete .. => []
  | .eventAck .. => []
  | .writePerform .. => []
  | .copyStart .. => []
  | .copyChunk .. => []
  | .ropeFlitArrival .. => []
  | .mmaWriteback .. => []
  | .collResultPerform .. => []
  | .holdEnd .. => []
  | .walkComplete .. => []
  | .pitchReplay .. => []
  | .watchdog .. => []
  | .urgentPreemption .. => []
  | .urgentStep .. => []
  | .halt .. => []
  | .run .. => []
  | .freeze .. => []
  | .thaw .. => []
  | .droopEpisode .. => []
  | .droopEnd .. => []
  | .thermalRead .. => []
  | .tripTimeout .. => []
  | .telemetryUpdate .. => []
  | .powerGood .. => []
  | .imageSlotsRead .. => []
  | .config .. => []
  | .trainComplete .. => []
  | .trainFail .. => []
  | .attestationResponse .. => []
  | .ptpMessage .. => []
  | .stepMark .. => []
  | .stepMarkTimeout .. => []
  | .sequencerRequest .. => []
  | .standbyAck .. => []
  | .deferredNumbering .. => []
  | .startNumber .. => []
  | .collectiveStart .. => []
  | .collectiveData .. => []
  | .collWithdrawal .. => []
  | .heartbeat .. => []
  | .heartbeatTimeout .. => []
  | .sequencerAnnounce .. => []
  | .resetOrPowerLoss .. => []
  | .flashRewrite .. => []

end Sys2Proof
end

