-- ==== Sys2Proof/Config.lean ====
section
/-!
DEFINITION. What the spec leaves open and the model does not choose: constants with no body, of which
nothing can be proved. Each is applied to the model's own counter of free values (State.free), so that
every use is a fresh value.
-/

namespace Sys2Proof.Config

/-- Which of the two values a racing 4-byte word takes (R98): by the free-value counter, the issue beat of one of the
two words and the memory word's index. Each racing pair has a bit of its own. -/
opaque raceBit : Nat → Nat → Nat → Bool

/-- A byte that the spec gives no value for at the time it is used, by the free-value counter and its address. -/
opaque freeByte : Nat → Nat → BitVec 8

/-- The vendor root hash in mask ROM (R356): the SHA-256 of the vendor's HSS public key. -/
opaque vendorRoot : List Byte

/-- The seed that an I/O die's PUF gives (R359). -/
opaque pufSeed : List Byte

/-- What an identity key draws from its seed: a tree's identifier, the secret start of a one-time chain and a one-time
signature's randomizer, by tree (0 the upper one, 1 + i the one below its leaf i), leaf and chain. -/
opaque treeId : List Byte → Nat → List Byte
opaque chainStart : List Byte → Nat → Nat → Nat → List Byte
opaque randomizer : List Byte → Nat → Nat → List Byte

/-- The identity public key that a report shows where the PUF gave no seed (R359), by the free-value counter. -/
opaque openIdentity : Nat → List Byte

/-- Whether a write of the module flash completes (R361), by the free-value counter. -/
opaque flashWrites : Nat → Bool

/-- What the sections of types 1, 2 and 4 set, whose layout the spec does not give (R357): the ropes of each
partition, the peers of the host table, the 1588 domain. -/
opaque partitionMap : List Byte → List (List Nat)
opaque hostTable : List Byte → List Nat
opaque timeDomain : List Byte → Nat

/-- Beat periods that RESUME spends on checking and restoring the frames (R302, R311), by the free-value counter. -/
opaque restorePeriods : Nat → Nat

/-- A 64-bit field that the spec names and gives no value for, such as the Position of an event about no
stream (R284). -/
opaque openWord : Nat → BitVec 64

end Sys2Proof.Config
end

