-- ==== Sys2Proof/Machine/SMap.lean ====
section
/-!
DEFINITION. The operations of sparse maps: reading a key, and writing one so that the map stays in its
canonical form (keys strictly rising, no entry equal to what an unlisted key reads as).
-/

namespace Sys2Proof.Machine

/-- What key k holds; d when k is not listed. -/
def SMap.get {α : Type} (d : α) : SMap α → Nat → α
  | [], _ => d
  | (j, x) :: m, k => if j = k then x else SMap.get d m k

/-- Insert or replace key k, keeping the keys rising. -/
def SMap.put {α : Type} : SMap α → Nat → α → SMap α
  | [], k, v => [(k, v)]
  | (j, x) :: m, k, v =>
    if k < j then (k, v) :: (j, x) :: m else if j = k then (k, v) :: m else (j, x) :: SMap.put m k v

/-- Remove key k. -/
def SMap.drop {α : Type} : SMap α → Nat → SMap α
  | [], _ => []
  | (j, x) :: m, k => if j = k then SMap.drop m k else (j, x) :: SMap.drop m k

/-- Write v at key k; writing what an unlisted key reads as removes the entry. -/
def SMap.set {α : Type} [DecidableEq α] (d : α) (m : SMap α) (k : Nat) (v : α) : SMap α :=
  if v = d then SMap.drop m k else SMap.put m k v

/-- Every key of m is at least b, the keys rise strictly, and no entry equals d. -/
def SMap.wfFrom {α : Type} [DecidableEq α] (d : α) : Nat → SMap α → Bool
  | _, [] => true
  | b, (j, x) :: m => decide (b ≤ j) && decide (x ≠ d) && SMap.wfFrom d (j + 1) m

/-- The canonical form. -/
def SMap.wf {α : Type} [DecidableEq α] (d : α) (m : SMap α) : Bool := SMap.wfFrom d 0 m

/-- Write a run of values at consecutive keys. -/
def SMap.setAll {α : Type} [DecidableEq α] (d : α) : SMap α → Nat → List α → SMap α
  | m, _, [] => m
  | m, k, v :: vs => SMap.setAll d (SMap.set d m k v) (k + 1) vs

/-- Read n consecutive keys. -/
def SMap.getAll {α : Type} (d : α) (m : SMap α) (k : Nat) : Nat → List α
  | 0 => []
  | n + 1 => SMap.get d m k :: SMap.getAll d m (k + 1) n

/-- Drop every key from lo to hi - 1. -/
def SMap.clear {α : Type} (m : SMap α) (lo hi : Nat) : SMap α :=
  m.filter fun e => e.1 < lo || hi ≤ e.1

/-- Apply f to the value at key k. -/
def SMap.modify {α : Type} [DecidableEq α] (d : α) (m : SMap α) (k : Nat) (f : α → α) : SMap α :=
  SMap.set d m k (f (SMap.get d m k))

/-- An optional entry: what is listed at k, if anything is. -/
def SMap.find {α : Type} : SMap α → Nat → Option α
  | [], _ => none
  | (j, x) :: m, k => if j = k then some x else SMap.find m k

/-! ## Sorting -/

/-- Insert by an order. -/
def insertBy {α : Type} (lt : α → α → Bool) (x : α) : List α → List α
  | [] => [x]
  | y :: ys => if lt x y then x :: y :: ys else y :: insertBy lt x ys

/-- Sort a list; equals keep their order. -/
def sortBy {α : Type} (lt : α → α → Bool) (xs : List α) : List α := xs.foldl (fun ys x => insertBy lt x ys) []

end Sys2Proof.Machine
end

