-- ==== Sys2Proof/Machine/Bytes.lean ====
section
/-!
DEFINITION. Little-endian byte order (R3), byte memories with the unlisted byte reading as zero, bit
fields, sign extension, and the CRC-32C of channel entries (R24).
-/

namespace Sys2Proof.Machine

/-- A list of bytes as a number, least significant byte first (R3). -/
def leNat : List Byte → Nat
  | [] => 0
  | b :: bs => b.toNat + 256 * leNat bs

/-- The n low bytes of x, least significant first (R3). -/
def toLe : Nat → Nat → List Byte
  | 0, _ => []
  | n + 1, x => BitVec.ofNat 8 x :: toLe n (x / 256)

/-- Bits h down to l of x (R3). -/
def bits (x h l : Nat) : Nat := (x / 2 ^ l) % 2 ^ (h + 1 - l)

/-- Bit k of x. -/
def bitOf (x k : Nat) : Bool := x.testBit k

/-- Replace bits h down to l of x by the low bits of v. -/
def setBits (x h l v : Nat) : Nat :=
  x - bits x h l * 2 ^ l + (v % 2 ^ (h + 1 - l)) * 2 ^ l

/-- Sx of R145: the low n bits of v, sign-extended to 64 bits. -/
def sx (n : Nat) (v : Nat) : W64 := (BitVec.ofNat n v).signExtend 64

/-- Zx of R145. -/
def zx (n : Nat) (v : Nat) : W64 := (BitVec.ofNat n v).setWidth 64

/-- A signed residue modulo 2^w read as an integer. -/
def signedOf (w x : Nat) : Int := (BitVec.ofNat w x).toInt

/-- An integer wrapped to w bits. -/
def wrap (w : Nat) (x : Int) : Nat := (x % (2 ^ w : Nat)).toNat

/-- The byte at an address; memories hold zero where nothing is listed. -/
def Mem.byte (m : SMap Byte) (a : Nat) : Byte := SMap.get 0 m a

/-- n bytes from an address on. -/
def Mem.bytes (m : SMap Byte) (a n : Nat) : List Byte := SMap.getAll 0 m a n

/-- n bytes as a number. -/
def Mem.nat (m : SMap Byte) (a n : Nat) : Nat := leNat (Mem.bytes m a n)

/-- Write bytes from an address on. -/
def Mem.put (m : SMap Byte) (a : Nat) (bs : List Byte) : SMap Byte := SMap.setAll 0 m a bs

/-- Write a number as n bytes. -/
def Mem.putNat (m : SMap Byte) (a n x : Nat) : SMap Byte := Mem.put m a (toLe n x)

/-- Write single bytes at their own addresses. -/
def Mem.putCells (m : SMap Byte) : List (Nat × Byte) → SMap Byte
  | [] => m
  | (a, b) :: cs => Mem.putCells (SMap.set 0 m a b) cs

/-- The canonical form of a byte memory. -/
def Mem.wf (m : SMap Byte) : Bool := SMap.wf 0 m

/-- Bytes paired with their addresses. -/
def cellsAt (a : Nat) : List Byte → List (Nat × Byte)
  | [] => []
  | b :: bs => (a, b) :: cellsAt (a + 1) bs

/-- The bytes of `under`, from address a, with later cells over them. -/
def overlay (a : Nat) (under : List Byte) (cells : List (Nat × Byte)) : List Byte :=
  cells.foldl (fun bs c => if a ≤ c.1 then bs.set (c.1 - a) c.2 else bs) under

/-- Split a list into pieces of n, at most fuel of them. -/
def pieces {α : Type} (n : Nat) : Nat → List α → List (List α)
  | 0, _ => []
  | f + 1, xs => if xs.isEmpty then [] else xs.take n :: pieces n f (xs.drop n)

/-- The numbers lo, lo + 1, … (n of them). -/
def range (lo : Nat) : Nat → List Nat
  | 0 => []
  | n + 1 => lo :: range (lo + 1) n

/-- The list with index i replaced, growing nowhere. -/
def zeros (n : Nat) : List Byte := List.replicate n 0

/-- One bit step of the reflected CRC-32C (Castagnoli, R24). -/
def crcBit (c : W32) : W32 :=
  if c.getLsbD 0 then (c >>> 1) ^^^ 0x82F63B78#32 else c >>> 1

/-- One byte of CRC-32C. -/
def crcByte (c : W32) (b : Byte) : W32 :=
  let c := c ^^^ b.setWidth 32
  crcBit (crcBit (crcBit (crcBit (crcBit (crcBit (crcBit (crcBit c)))))))

/-- CRC-32C with initial value and final XOR all ones (R24). -/
def crc32c (bs : List Byte) : W32 := bs.foldl crcByte 0xFFFFFFFF#32 ^^^ 0xFFFFFFFF#32

/-- Position x compared with y by 32-bit serial arithmetic over a window of 2^31 (R23): the signed
distance from y to x. -/
def serial32 (x y : Nat) : Int := (BitVec.ofNat 32 (x + 2 ^ 32 - y % 2 ^ 32)).toInt

/-- The 64-bit position that has low bits p and lies nearest q (R23, R246). -/
def nearest (p q : Nat) : Int := (q : Int) + serial32 p q

end Sys2Proof.Machine
end

