-- ==== Sys2Proof/Machine/Float.lean ====
section
/-!
DEFINITION. Number formats and their arithmetic (chapter 5): decoding a code of a format to its exact
value, rounding an exact value to a format (R113), the exact operations, comparisons, and the special
functions of R189.
-/

namespace Sys2Proof.Machine

/-- An exact value: not a number, an infinity, or (-1)^neg * m * 2^e. A zero keeps its sign. -/
inductive FVal where
  | nan
  | inf (neg : Bool)
  | fin (neg : Bool) (m : Nat) (e : Int)
deriving DecidableEq, Repr, Inhabited

/-- A number format (R104). -/
inductive Fmt where
  | none
  /-- Exponent and trailing-significand bits (R105). -/
  | ieee (eb tb : Nat)
  /-- A two's complement integer of w bits. -/
  | int (w : Nat)
  /-- binary8pP, unsigned, extended (R106). -/
  | b8 (p : Nat) (u x : Bool)
deriving DecidableEq, Repr, Inhabited

/-- The format a code names (R104); reserved codes name none. -/
def fmtOf (c : BitVec 6) : Fmt :=
  match c.toNat with
  | 1 => .ieee 8 23
  | 2 => .ieee 8 7
  | 3 => .ieee 5 10
  | 4 => .int 8
  | 5 => .int 16
  | 6 => .int 32
  | n => if 0x20 ≤ n ∧ n % 8 ≠ 0 then .b8 (n % 8) (decide (n / 16 % 2 = 1)) (decide (n / 8 % 2 = 1)) else .none

/-- Element size in bytes (R104, R79); 0 for none. -/
def Fmt.size : Fmt → Nat
  | .none => 0
  | .ieee eb tb => (eb + tb + 1) / 8
  | .int w => w / 8
  | .b8 .. => 1

/-- Element size of a format code. -/
def elemSize (c : BitVec 6) : Nat := (fmtOf c).size

/-- The exponent bias (R105, R106). -/
def Fmt.bias : Fmt → Nat
  | .ieee eb _ => 2 ^ (eb - 1) - 1
  | .b8 p u _ => if u then 2 ^ (8 - p) else 2 ^ (7 - p)
  | _ => 0

/-- Trailing significand bits. -/
def Fmt.trail : Fmt → Nat
  | .ieee _ tb => tb
  | .b8 p _ _ => p - 1
  | _ => 0

/-- The default NaN (R105, R106). Integer formats have none; a conversion to one never asks. -/
def Fmt.nan : Fmt → Nat
  | .ieee eb tb => (2 ^ eb - 1) * 2 ^ tb + 2 ^ (tb - 1)
  | .b8 _ u _ => if u then 0xFF else 0x80
  | _ => 0

/-- Whether the format has infinities. -/
def Fmt.hasInf : Fmt → Bool
  | .ieee .. => true
  | .b8 _ _ x => x
  | _ => false

/-- The sign bit of a code, or 0 where the format is unsigned. -/
def Fmt.signBit (f : Fmt) (neg : Bool) : Nat :=
  match f with
  | .ieee eb tb => if neg then 2 ^ (eb + tb) else 0
  | .b8 _ u _ => if neg && !u then 0x80 else 0
  | _ => 0

/-- The encoding of an infinity (R105, R106). -/
def Fmt.infCode (f : Fmt) (neg : Bool) : Nat :=
  match f with
  | .ieee eb tb => (2 ^ eb - 1) * 2 ^ tb + f.signBit neg
  | .b8 _ u _ => if u then 0xFE else 0x7F + f.signBit neg
  | _ => 0

/-- The encoding of the greatest finite magnitude, without its sign (R105, R107, R108). -/
def Fmt.maxCode : Fmt → Nat
  | .ieee eb tb => (2 ^ eb - 2) * 2 ^ tb + (2 ^ tb - 1)
  | .b8 _ u x => if u then (if x then 0xFD else 0xFE) else (if x then 0x7E else 0x7F)
  | _ => 0

/-- The value of exponent field E and trailing field T: subnormal when E is 0 (R105, R106). -/
def Fmt.value (f : Fmt) (neg : Bool) (E T : Nat) : FVal :=
  if E = 0 then .fin neg T (1 - (f.bias : Int) - f.trail)
  else .fin neg (2 ^ f.trail + T) ((E : Int) - f.bias - f.trail)

/-- The exact value of a code of the format (R105, R106 DecodeB8); an integer's value for an integer
format. -/
def Fmt.decode (f : Fmt) (c : Nat) : FVal :=
  match f with
  | .none => .fin false 0 0
  | .int w => let x := signedOf w c; .fin (decide (x < 0)) x.natAbs 0
  | .ieee eb tb =>
    let neg := c.testBit (eb + tb)
    let E := bits c (eb + tb - 1) tb
    let T := c % 2 ^ tb
    if E = 2 ^ eb - 1 then (if T = 0 then .inf neg else .nan) else f.value neg E T
  | .b8 p u x =>
    if u then
      let m := c % 256
      if m = 0xFF then .nan
      else if x && m == 0xFE then .inf false
      else f.value false (m / 2 ^ (p - 1)) (m % 2 ^ (p - 1))
    else
      let m := c % 128
      if c % 256 = 0x80 then .nan
      else if x && m == 0x7F then .inf (c.testBit 7)
      else f.value (c.testBit 7) (m / 2 ^ (p - 1)) (m % 2 ^ (p - 1))

/-- Rounding modes (R112). -/
inductive RMode where
  | rne | rtz | rup | rdn | rna
deriving DecidableEq, Repr, Inhabited

/-- The mode of a code of R112. A reserved code never reaches an operation (R140). -/
def rmodeOf (c : BitVec 3) : RMode :=
  match c.toNat with
  | 1 => .rtz
  | 2 => .rup
  | 3 => .rdn
  | 4 => .rna
  | _ => .rne

/-- n / 2^d rounded to an integer by the mode; neg is the sign of the value (R112). -/
def roundShift (mode : RMode) (neg : Bool) (n d : Nat) : Nat :=
  let q := n / 2 ^ d
  let r := n % 2 ^ d
  let up : Bool :=
    match mode with
    | .rne => decide (2 ^ d < 2 * r) || (decide (2 * r = 2 ^ d) && q % 2 == 1)
    | .rtz => false
    | .rup => decide (r ≠ 0) && !neg
    | .rdn => decide (r ≠ 0) && neg
    | .rna => decide (r ≠ 0) && decide (2 ^ d ≤ 2 * r)
  if up then q + 1 else q

/-- The value m * 2^e as a multiple of 2^q, rounded by the mode.
(DEDUCED, log entry 18). -/
def roundAt (mode : RMode) (neg : Bool) (m : Nat) (e q : Int) : Nat :=
  if q ≤ e then m * 2 ^ (e - q).toNat else roundShift mode neg m (q - e).toNat

/-- RoundGrid of R113: the multiple k and the quantum exponent q of the grid point chosen for a
non-zero m * 2^e. -/
def Fmt.grid (f : Fmt) (mode : RMode) (neg : Bool) (m : Nat) (e : Int) : Nat × Int :=
  let top : Int := e + Nat.log2 m
  let q : Int := max (top - f.trail) (1 - (f.bias : Int) - f.trail)
  (roundAt mode neg m e q, q)

/-- Whether k * 2^q exceeds the format's greatest finite magnitude. -/
def Fmt.exceeds (f : Fmt) (k : Nat) (q : Int) : Bool :=
  match f.decode f.maxCode with
  | .fin _ m e => if q ≤ e then decide (m * 2 ^ (e - q).toNat < k) else decide (m < k * 2 ^ (q - e).toNat)
  | _ => false

/-- The code of a grid point k * 2^q within the format's range (R113 Encode). -/
def Fmt.encode (f : Fmt) (neg : Bool) (k : Nat) (q : Int) : Nat :=
  if k = 0 then
    match f with
    | .b8 .. => 0
    | _ => f.signBit neg
  else
    let top : Int := q + Nat.log2 k
    if top < 1 - (f.bias : Int) then k + f.signBit neg
    else
      let E := (top + f.bias).toNat
      let T := roundAt .rtz false k q (top - f.trail) - 2 ^ f.trail
      E * 2 ^ f.trail + T + f.signBit neg

/-- OverflowToInf of R113. -/
def overflowToInf (mode : RMode) (neg : Bool) : Bool :=
  match mode with
  | .rne | .rna => true
  | .rup => !neg
  | .rdn => neg
  | .rtz => false

/-- What a magnitude beyond the format's range becomes (R113). -/
def Fmt.overflow (f : Fmt) (neg isInf : Bool) (mode : RMode) (sat : Bool) : Nat :=
  if sat then f.maxCode + f.signBit neg
  else if isInf || overflowToInf mode neg then (if f.hasInf then f.infCode neg else f.nan)
  else f.maxCode + f.signBit neg

/-- Whether the format is an unsigned binary8 one. -/
def Fmt.unsigned : Fmt → Bool
  | .b8 _ u _ => u
  | _ => false

/-- RoundToFormat of R113, and for an integer format the conversion of R114. -/
def Fmt.round (f : Fmt) (mode : RMode) (sat : Bool) (v : FVal) : Nat :=
  match f with
  | .none => 0
  | .int w =>
    match v with
    | .nan => 0
    | .inf neg => if neg then 2 ^ (w - 1) else 2 ^ (w - 1) - 1
    | .fin neg m e =>
      let k : Int := roundAt mode neg m e 0
      let x : Int := if neg then -k else k
      wrap w (max (-(2 ^ (w - 1) : Nat) : Int) (min x ((2 ^ (w - 1) : Nat) - 1)))
  | _ =>
    match v with
    | .nan => f.nan
    | .inf neg =>
      if f.unsigned && neg then (if sat then 0 else f.nan) else f.overflow neg true mode sat
    | .fin neg m e =>
      if m = 0 then f.encode neg 0 0
      else
        let (k, q) := f.grid mode neg m e
        if k = 0 then f.encode neg 0 0
        else if f.unsigned && neg then (if sat then 0 else f.nan)
        else if f.exceeds k q then f.overflow neg false mode sat
        else f.encode neg k q

/-- FP32, the format of group sums and of most carried values. -/
def fp32 : Fmt := .ieee 8 23

/-- BF16. -/
def bf16 : Fmt := .ieee 8 7

/-! ## Exact operations (R110) -/

/-- A dyadic integer with its sign. -/
def FVal.signed (neg : Bool) (m : Nat) : Int := if neg then -(m : Int) else m

/-- -x. -/
def FVal.neg : FVal → FVal
  | .nan => .nan
  | .inf n => .inf (!n)
  | .fin n m e => .fin (!n) m e

/-- |x| with the sign given. -/
def FVal.withSign (s : Bool) : FVal → FVal
  | .nan => .nan
  | .inf _ => .inf s
  | .fin _ m e => .fin s m e

/-- The exact sum; a zero sum is -0 only when both terms are -0 (R110, outside RDN). -/
def FVal.add : FVal → FVal → FVal
  | .nan, _ => .nan
  | _, .nan => .nan
  | .inf a, .inf b => if a = b then .inf a else .nan
  | .inf a, _ => .inf a
  | _, .inf b => .inf b
  | .fin a m e, .fin b n f =>
    if m = 0 ∧ n = 0 then .fin (a && b) 0 0
    else if m = 0 then .fin b n f
    else if n = 0 then .fin a m e
    else
      let q : Int := min e f
      let x : Int := FVal.signed a (m * 2 ^ (e - q).toNat) + FVal.signed b (n * 2 ^ (f - q).toNat)
      .fin (decide (x < 0)) x.natAbs q

/-- The exact product, its sign the XOR of the factors' signs (R110). -/
def FVal.mul : FVal → FVal → FVal
  | .nan, _ => .nan
  | _, .nan => .nan
  | .inf a, .inf b => .inf (a != b)
  | .inf a, .fin b n _ => if n = 0 then .nan else .inf (a != b)
  | .fin a m _, .inf b => if m = 0 then .nan else .inf (a != b)
  | .fin a m e, .fin b n f => .fin (a != b) (m * n) (e + f)

/-- The exact sum of several terms, formed before any rounding (R110). -/
def FVal.sum : List FVal → FVal
  | [] => .fin false 0 0
  | x :: xs => xs.foldl FVal.add x

/-- x < y, = 0, > as a sign; none when unordered (R111). Both zeros are equal. -/
def FVal.cmp : FVal → FVal → Option Ordering
  | .nan, _ => none
  | _, .nan => none
  | .inf a, .inf b => some (if a = b then .eq else if a then .lt else .gt)
  | .inf a, _ => some (if a then .lt else .gt)
  | _, .inf b => some (if b then .gt else .lt)
  | .fin a m e, .fin b n f =>
    let q : Int := min e f
    some (compare (FVal.signed a (m * 2 ^ (e - q).toNat)) (FVal.signed b (n * 2 ^ (f - q).toNat)))

/-- Whether the value carries a minus sign. -/
def FVal.negative : FVal → Bool
  | .nan => false
  | .inf n => n
  | .fin n _ _ => n

/-- x is less than y where -0 is less than +0 (R186); false with a NaN. -/
def FVal.below (x y : FVal) : Bool :=
  match FVal.cmp x y with
  | some .lt => true
  | some .eq => x.negative && !y.negative
  | _ => false

/-- A value is a NaN. -/
def FVal.isNan : FVal → Bool
  | .nan => true
  | _ => false

/-- An integer as an exact value. -/
def FVal.ofInt (x : Int) : FVal := .fin (decide (x < 0)) x.natAbs 0

/-! ## Special functions (R189)

An irrational result is returned to some 300 significant bits with a lowest bit of 1 that stands for
the rest, so that rounding it to a format rounds the exact value. -/

/-- Fraction bits of the fixed-point numbers used here.
(UNVERIFIED, log entry 17). -/
def fxBits : Nat := 448

/-- pi * 2^448, rounded down. -/
def fxPi : Nat :=
  0x3243f6a8885a308d313198a2e03707344a4093822299f31d0082efa98ec4e6c89452821e638d01377be5466cf34e90c6cc0ac29b7c97c50dd

/-- ln 2 * 2^448, rounded down. -/
def fxLn2 : Nat :=
  0xb17217f7d1cf79abc9e3b39803f2f6af40f343267298b62d8a0d175b8baafa2be7b876206debac98559552fb4afa1b10ed2eae35c1382144

/-- 1 * 2^448. -/
def fxOne : Nat := 2 ^ fxBits

/-- Product of fixed-point numbers. -/
def fxMul (x y : Nat) : Nat := x * y / 2 ^ fxBits

/-- A positive fixed-point result scaled by 2^k, with a sticky bit below it. -/
def fxVal (neg : Bool) (x : Nat) (k : Int) : FVal := .fin neg (2 * x + 1) (k - fxBits - 1)

/-- m * 2^e in fixed point, rounded down. -/
def fxOf (m : Nat) (e : Int) : Nat :=
  let s : Int := e + fxBits
  if 0 ≤ s then m * 2 ^ s.toNat else m / 2 ^ (-s).toNat

/-- Sum of the exponential series from term i on: t is the term before. -/
def fxExpTail (y : Nat) : Nat → Nat → Nat → Nat
  | 0, _, _ => 0
  | f + 1, i, t => let t' := fxMul t y / i; t' + fxExpTail y f (i + 1) t'

/-- e^y for a fixed-point y in [0, 1). -/
def fxExp (y : Nat) : Nat := fxOne + fxExpTail y 90 1 fxOne

/-- e^(m * 2^e): the fixed-point part in [1, 2) and the power of two. -/
def expParts (neg : Bool) (m : Nat) (e : Int) : Nat × Int :=
  let y : Int := FVal.signed neg (fxOf m e)
  let k : Int := y / fxLn2
  (fxExp (y - k * fxLn2).toNat, k)

/-- sin(t)/t for a fixed-point t^2 = u, from term i on; t is the term before. -/
def fxSincTail (u : Nat) : Nat → Nat → Nat → Int
  | 0, _, _ => 0
  | f + 1, i, t =>
    let t' := fxMul t u / ((2 * i) * (2 * i + 1))
    (if i % 2 = 1 then -(t' : Int) else t') + fxSincTail u f (i + 1) t'

/-- sin(pi * m * 2^e) for 0 < m * 2^e ≤ 1/2. -/
def sinPiSmall (neg : Bool) (m : Nat) (e : Int) : FVal :=
  let t := fxMul (fxOf m e) fxPi
  let sinc := (fxOne + fxSincTail (fxMul t t) 60 1 fxOne).toNat
  .fin neg (2 * (fxMul sinc fxPi * m) + 1) (e - fxBits - 1)

/-- Sum of z^(2i)/(2i+1) from term i on. -/
def fxAtanhTail (u : Nat) : Nat → Nat → Nat → Nat
  | 0, _, _ => 0
  | f + 1, i, t => let t' := fxMul t u; t' / (2 * i + 1) + fxAtanhTail u f (i + 1) t'

/-- The integer square root, by bits from 2^f down. -/
def isqrtFrom (n : Nat) : Nat → Nat → Nat
  | 0, r => if (r + 1) * (r + 1) ≤ n then r + 1 else r
  | f + 1, r =>
    let r' := r + 2 ^ (f + 1)
    isqrtFrom n f (if r' * r' ≤ n then r' else r)

/-- The integer square root of n. -/
def isqrt (n : Nat) : Nat := isqrtFrom n (Nat.log2 n / 2) 0

/-- n / d as an exact value where d divides n, else to 80 bits and more with a sticky bit. -/
def ratio (neg : Bool) (n d : Nat) (e : Int) : FVal :=
  let s := 96 + Nat.log2 d
  let q := n * 2 ^ s / d
  if q * d = n * 2 ^ s then .fin neg q (e - s) else .fin neg (2 * q + 1) (e - s - 1)

/-- 1/x. -/
def fRcp : FVal → FVal
  | .nan => .nan
  | .inf n => .fin n 0 0
  | .fin n m e => if m = 0 then .inf n else ratio n 1 m (-e)

/-- The square root of m * 2^e, exact or with a sticky bit. -/
def sqrtPos (m : Nat) (e : Int) : FVal :=
  let m' := if e % 2 = 0 then m else 2 * m
  let e' : Int := if e % 2 = 0 then e else e - 1
  let big := m' * 2 ^ 160
  let r := isqrt big
  if r * r = big then .fin false r (e' / 2 - 80) else .fin false (2 * r + 1) (e' / 2 - 81)

/-- √x. -/
def fSqrt : FVal → FVal
  | .nan => .nan
  | .inf n => if n then .nan else .inf false
  | .fin n m e => if m = 0 then .fin n 0 0 else if n then .nan else sqrtPos m e

/-- 1/√x. -/
def fRsq : FVal → FVal
  | .nan => .nan
  | .inf n => if n then .nan else .fin false 0 0
  | .fin n m e =>
    if m = 0 then .inf n
    else if n then .nan
    else
      let m' := if e % 2 = 0 then m else 2 * m
      let e' : Int := if e % 2 = 0 then e else e - 1
      let s := 96 + Nat.log2 m'
      let r := isqrt (2 ^ (2 * s) / m')
      if r * r * m' = 2 ^ (2 * s) then .fin false r (-(e' / 2) - s) else .fin false (2 * r + 1) (-(e' / 2) - s - 1)

/-- The value is an integer: its lowest set bit is at 2^0 or above. -/
def dyadicInt (m : Nat) (e : Int) : Bool := decide (0 ≤ e) || decide (m % 2 ^ (-e).toNat = 0)

/-- m * 2^e rounded down to an integer. -/
def dyadicFloor (m : Nat) (e : Int) : Nat := if 0 ≤ e then m * 2 ^ e.toNat else m / 2 ^ (-e).toNat

/-- 2^x. -/
def fExp2 : FVal → FVal
  | .nan => .nan
  | .inf n => if n then .fin false 0 0 else .inf false
  | .fin n m e =>
    if m = 0 then .fin false 1 0
    else if decide (10 ≤ e + Nat.log2 m) then
      -- beyond every format's range: rounds as 2^±1024 does
      .fin false 1 (if n then -1024 else 1024)
    else if dyadicInt m e then .fin false 1 (FVal.signed n (dyadicFloor m e))
    else
      let x : Int := FVal.signed n (fxOf m e)
      let k : Int := x / fxOne
      fxVal false (fxExp (fxMul (x - k * fxOne).toNat fxLn2)) k

/-- log2 of m * 2^e, for m not a power of two: an odd power series around 1. -/
def log2Pos (m : Nat) (e : Int) : FVal :=
  -- x = y * 2^k with y in [3/4, 3/2)
  let l := Nat.log2 m
  let up : Bool := decide (3 * 2 ^ l ≤ 2 * m)
  let k : Int := e + l + (if up then 1 else 0)
  let d := if up then l + 1 else l
  -- z = (m - 2^d) / (m + 2^d), log2 y = 2 atanh z / ln 2
  let num : Int := (m : Int) - (2 ^ d : Nat)
  let den := m + 2 ^ d
  let z := num.natAbs * fxOne / den
  let ser := 2 * (fxOne + fxAtanhTail (fxMul z z) 100 1 fxOne)
  if k = 0 then
    .fin (decide (num < 0)) (2 * (num.natAbs * ser * fxOne / (den * fxLn2)) + 1) (-(fxBits : Int) - 1)
  else
    let y : Int := FVal.signed (decide (num < 0)) (fxMul z (ser * fxOne / fxLn2)) + k * fxOne
    fxVal (decide (y < 0)) y.natAbs 0

/-- log2 x. -/
def fLog2 : FVal → FVal
  | .nan => .nan
  | .inf n => if n then .nan else .inf false
  | .fin n m e =>
    if m = 0 then .inf true
    else if n then .nan
    else if m = 2 ^ Nat.log2 m then FVal.ofInt (e + Nat.log2 m)
    else log2Pos m e

/-- sin(pi * x) for a finite non-zero magnitude x = m * 2^e of sign neg. -/
def sinPiFin (neg : Bool) (m : Nat) (e : Int) : FVal :=
  if dyadicInt m e then .fin false 0 0
  else
    -- x = whole + frac, both exact; e < 0 here
    let d := (-e).toNat
    let odd := decide (m / 2 ^ d % 2 = 1)
    let r := m % 2 ^ d
    let r' := if 2 * r ≤ 2 ^ d then r else 2 ^ d - r
    if 2 * r' = 2 ^ d then .fin (neg != odd) 1 0 else sinPiSmall (neg != odd) r' e

/-- sin(pi x). -/
def fSin : FVal → FVal
  | .nan => .nan
  | .inf _ => .nan
  | .fin n m e => if m = 0 then .fin n 0 0 else sinPiFin n m e

/-- cos(pi x) = sin(pi (1/2 - |x|)), or ±1 at an integer and +0 halfway between. -/
def fCos : FVal → FVal
  | .nan => .nan
  | .inf _ => .nan
  | .fin _ m e =>
    if dyadicInt m e then .fin (decide (dyadicFloor m e % 2 = 1)) 1 0
    else
      match FVal.add (.fin false 1 (-1)) (.fin true m e) with
      | .fin n' m' e' => if dyadicInt m' e' then .fin false 0 0 else sinPiFin n' m' e'
      | _ => .nan

/-- tanh x. Below 2^-40 it rounds as x does, and from 64 on as ±1 does. -/
def fTanh : FVal → FVal
  | .nan => .nan
  | .inf n => .fin n 1 0
  | .fin n m e =>
    if m = 0 then .fin n 0 0
    else
      let top : Int := e + Nat.log2 m
      if top < -40 then .fin n m e
      else if 6 ≤ top then .fin n 1 0
      else
        -- a = e^(2|x|) = f * 2^k, so tanh = (a - 1)/(a + 1)
        let (f, k) := expParts false m (e + 1)
        let a := f * 2 ^ k.toNat
        ratio n (a - fxOne) (a + fxOne) 0

/-- 1/(1 + e^-x). Below -256 it rounds as 2^-256 does, and above 256 as 1 does. -/
def fSigm : FVal → FVal
  | .nan => .nan
  | .inf n => if n then .fin false 0 0 else .fin false 1 0
  | .fin n m e =>
    if m = 0 then .fin false 1 (-1)
    else if 8 ≤ e + Nat.log2 m then (if n then .fin false 1 (-256) else .fin false 1 0)
    else
      -- a = e^|x|; for x > 0 the result is a/(a + 1), for x < 0 it is 1/(a + 1)
      let (f, k) := expParts false m e
      let a := f * 2 ^ k.toNat
      ratio false (if n then fxOne else a) (a + fxOne) 0

end Sys2Proof.Machine
end

