-- ==== Sys2Proof/Machine/State.lean ====
section
/-!
DEFINITION. The state of one D640 device, as plain data: every register, memory, queue and table the
spec gives the machine, the reasons a step can stop, and the state after reset. A numbered collection
is a sparse map (SMap) whose unlisted keys read as the stated default, so that equal machines are equal
data. Beats are topo counts of the owning partition unless a docstring says otherwise; wall-clock
times are in femtoseconds (one beat is 625,000 fs, R12).
-/

namespace Sys2Proof.Machine

/-! ## Stops -/

/-- Where the machine itself stops. -/
inductive Fault where
  /-- A service-level word used a physical device-memory address at or above 80 GiB, which R317 says
  does not exist. Raised by LDM, STM and AMOM of a shadow service context. Safe: the model stops. -/
  | noSuchDeviceAddress (addr : Nat)
deriving DecidableEq, Repr

/-- Where the model gives an instruction no meaning. -/
inductive Refusal where
  /-- An arm of the dispatch that is not written yet. Safe: nothing can be proved of the word. -/
  | notModelled (mnemonic : String)
deriving DecidableEq, Repr

/-! ## Names of places -/

/-- The issuing unit of a word: a track of a core, or (svc) a rope's shadow service context. -/
structure UnitId where
  part : Nat
  rope : Nat
  core : Nat
  track : Family
  svc : Bool
deriving DecidableEq, Repr, Inhabited

/-- The word that an access or effect belongs to; what a trap record names (R67, R292). pc is a word
address, mac is the macro entry and word index of a word run by an MCALL (R66). -/
structure Origin where
  rope : Nat
  core : Nat
  track : Family
  issue : Nat
  pc : Nat
  mac : Option (Nat × Nat)
  word : W32
deriving DecidableEq, Repr, Inhabited

/-- The address spaces that hold bytes (R74). -/
inductive Space where
  | spad | acc | dev
deriving DecidableEq, Repr, Inhabited

/-- Functions of AMOS and AMOM (R129, R156). -/
inductive AtomFn where
  | add | and_ | or_ | xor_ | swap | min_ | max_ | minu | maxu
deriving DecidableEq, Repr, Inhabited

/-- The check and program faults of R293, by name. -/
inductive FaultClass where
  | illegal | slip | gearWindow | loopConflict | schedule | earlyRead | bankConflict | ropeTiming
  | columnConflict | addressRange | alignment | unallocatedWrite | band | type | format | ringShape
  | groupBounds | allocation | copyDescriptor | copyBuffer | copyOverlap | overlapTableFull
  | classOrder | stageFull | translation | residue | controlCheck | dataError | watchdog | bivouac
deriving DecidableEq, Repr, Inhabited

/-! ## Tracks -/

/-- One running KLOOP (R161): the body's first word and length, which k register, count and trip. -/
structure KLoop where
  body : Nat
  len : Nat
  kreg : Nat
  count : Nat
  trip : Nat
deriving DecidableEq, Repr, Inhabited

/-- A running MLOOP (R62, R63): II in issue opportunities, stages, kernel length, trips, the kernel's
first word; the next pass to start and the opportunities until it does; the pass that the next kernel
word belongs to; and whether V and M run one joint loop. -/
structure MLoop where
  ii : Nat
  stages : Nat
  k : Nat
  n : Nat
  body : Nat
  pass : Nat
  next : Nat
  opp : Nat
  joint : Bool
  /-- Opportunities since the last pass ended, while a word of a pass is still to issue. -/
  past : Nat := 0
deriving DecidableEq, Repr, Inhabited

/-- A running CLOOP (R235). -/
structure CLoop where
  body : Nat
  len : Nat
  count : Nat
  trip : Nat
deriving DecidableEq, Repr, Inhabited

/-- A running macro entry (R66): entry, next word index, and the parameters of its MCALL. -/
structure MacroRun where
  entry : Nat
  word : Nat
  p1 : Nat
  p2 : Nat
  p3 : Nat
  callPc : Nat
deriving DecidableEq, Repr, Inhabited

/-- One track: program counter, issue opportunities still to wait before the next word (the WAIT of
R299), and the conditions that move its next issue beat. -/
structure Track where
  /-- Word address of the next word, within the context's code region (R125, R276). -/
  pc : Nat
  wait : Nat
  /-- The track issued on the present beat (at most one word a beat, R46). -/
  fresh : Bool
  /-- The track takes part in the running step and has not issued RENDEZ (R49). -/
  live : Bool
  /-- RENDEZ issued. -/
  done : Bool
  mac : Option MacroRun
  /-- A BELAY waits for its completion beat (R56); the number of BELAYs issued in this step. -/
  belay : Option Origin
  belays : Nat
  /-- Held by a BELAY of the core (R57). -/
  held : Bool
  /-- Re-anchored by a RESYNC: its issue beat, and the beat the next word issues on (R61). -/
  resync : Option (Nat × Nat)
  /-- A pending BRQ join: join address and join beat (R60). -/
  join : Option (Nat × Nat)
  kloops : List KLoop
  mloop : Option MLoop
  /-- Issue beat, II, S and N of the track's last MLOOP, to compare with the other track's (R65). -/
  loopAt : Option (Nat × Nat × Nat × Nat)
  cloop : Option CLoop
  /-- The checker sequencer's own reading of the next word, when an error makes it differ (R334). -/
  checker : Option W32
deriving DecidableEq, Repr, Inhabited

/-! ## Pending effects -/

/-- An effect scheduled for a beat (R50, R300). Predicate numbers are physical. -/
inductive Effect where
  /-- s register n becomes usable with this value and residue. -/
  | sreg (n : Nat) (v : W64) (res : BitVec 4)
  | dreg (n : Nat) (v : W64)
  | pred (n : Nat) (v : Mask)
  /-- A window row is written whole (R180). -/
  | row (bank row : Nat) (bytes : List Byte)
  /-- Bytes of a store, each at its own address, virtual in device memory; class of R96; and those of the addresses
  where a racing write of another class stands (R98). -/
  | store (sp : Space) (cells : List Host.Cell) (cls : Nat) (raced : List Nat)
  /-- A scalar load: samples on its action beat, usable later. -/
  | load (sp : Space) (addr size : Nat) (sx : Bool) (dst usable : Nat) (cls : Nat)
  /-- LDA, with the element size and extension fixed on issue (R155). -/
  | loadElem (addr size : Nat) (sx : Bool) (dst usable : Nat)
  /-- VLD, VLDS, VGATH: the row as merged, and for each byte to fetch its place in the row and its
  scratchpad address. -/
  | loadRow (bank row : Nat) (base : List Byte) (fetch : List (Nat × Nat)) (write : Nat) (cls : Nat)
  /-- A load that has sampled and waits for an earlier atomic of its track to form its value (R96, R98): the bytes as
  sampled, and what lies over them, by the issue beats of the words that write it. -/
  | loadAfter (sp : Space) (addr : Nat) (sx : Bool) (dst usable : Nat) (cls : Nat) (base : List Byte)
      (laid : List (Nat × List Host.Cell))
  /-- skip: bytes that a later write of the class has taken over (R96). raced: as for a store. alts: for each racing write
  that performed before it on its own beat, that word's issue beat and the bytes as they stood (R98). -/
  | atomic (sp : Space) (addr size : Nat) (fn : AtomFn) (x : W64) (dst usable : Nat) (cls : Nat)
      (skip raced : List Nat) (alts : List (Nat × List Host.Cell))
  | bindWin (w : Bool) (bank : Nat)
  | omap (m : BitVec 3)
  | alloc (bank : Nat) (type : BitVec 6) (owners : BitVec 8)
  | free (bank : Nat) (allocatable : Nat)
  | owners (bank : Nat) (owners : BitVec 8)
  /-- Zero rows of a bank one a period of beats: next row, rows left, beats between (R224, R226). -/
  | zeroRows (bank next left period : Nat) (freeing : Bool)
  | rmode (mode : BitVec 3) (sat : Bool)
  | ftab (n : Nat) (v : W32)
  /-- MSCALE: sampled on the action beat, used from the later beat (R220). -/
  | scaleLoad (b : Bool) (addr use : Nat)
  | scaleUse (b : Bool) (addr sampled : Nat) (vals : List W16)
  | ringPop (q n : Nat)
  /-- QINIT and the push of a CPYQ act on their issue beat, after that beat's reads (R227, R84). -/
  | ringInit (q : Nat) (v : W64)
  | ringPush (q : Nat)
  | prot (m : BitVec 3)
  | statClear (mask : W64)
  | sysWrite (n : Nat) (v : W64)
  | xlatWrite (v : W64) (idx : Nat)
  | xlatClear (v : W64) (idx : Nat) (all : Bool)
  | xpre (va : Nat) (big : Bool)
deriving DecidableEq, Repr, Inhabited

/-- A pending effect, the word it belongs to and the beat it acts on. -/
structure Latch where
  org : Origin
  act : Nat
  eff : Effect
  /-- DETAIL and DETAIL2 of a residue mismatch found on issue: the fault is raised on the action beat, in
  place of the effect (R333, R342). -/
  bad : Option (Nat × Nat) := none
deriving DecidableEq, Repr, Inhabited

/-- Operand formats of a tile product (R104): the two codes, and the number of products K. -/
structure TileFormat where
  a : BitVec 6
  b : BitVec 6
  k : Nat
deriving DecidableEq, Repr, Inhabited

/-- One B tile of an accumulating word: its address and the rows of A it multiplies. -/
structure BTile where
  addr : Nat
  first : Nat
  count : Nat
deriving DecidableEq, Repr, Inhabited

/-- An accumulating word in flight (R213), with everything it fixed on its issue beat. -/
structure AccOp where
  org : Origin
  gear : Nat
  cold : Nat
  /-- Its chunk n is sampled on start + gear * (cold + n), and P is the beat of the last one (R213): start is its issue beat,
  unless a frame gave it back at other beats (R302). -/
  start : Nat
  last : Nat
  bank : Nat
  rows : Nat
  cols : BitVec 64
  fmt : TileFormat
  /-- Accumulator type computed for (R213). -/
  acc : BitVec 6
  mode : BitVec 3
  sat : Bool
  sA : List W16
  sB : List W16
  aAddr : Nat
  bTiles : List BTile
  /-- Next chunk to sample, 0 to 31, and the bytes sampled. -/
  next : Nat
  aBytes : List Byte
  bBytes : List (List Byte)
  w : Nat
  /-- MGRP: the group table's address, its bytes, and ring B's register, as read on the issue beat. -/
  table : Option Nat
  tableBytes : List Byte := []
  ringB : W64
deriving DecidableEq, Repr, Inhabited

/-- The copy words (R230). -/
inductive CopyKind where
  | cpy | cpya | cpy2 | cpyq | cpysel | listen | speak
deriving DecidableEq, Repr, Inhabited

/-- One chunk sampled and not yet performed: chunk index, bytes, and the 64-B lines found poisoned. owed: the places of
bytes that an earlier write of the track, not formed yet, is still to give (R96), each with the address and the issue beat
of that write. -/
structure Chunk where
  idx : Nat
  bytes : List Byte
  poison : List Nat
  owed : List (Nat × Nat × Nat) := []
deriving DecidableEq, Repr, Inhabited

/-- A ring entry's tag state (R68). -/
structure Tag where
  tag : BitVec 8
  full : Bool
deriving DecidableEq, Repr, Inhabited

/-- A copy issued by a C track, from its issue to its last chunk (R91, R92). Device addresses are
physical, fixed by the translation on the issue beat (R85). -/
structure Copy where
  org : Origin
  kind : CopyKind
  cls : Nat
  start : Nat
  started : Bool
  /-- Beats from start to the first sample and the first perform, and the period between chunks. -/
  sample0 : Nat
  perform0 : Nat
  period : Nat
  chunks : Nat
  srcSpace : Space
  src : Nat
  dstSpace : Space
  dst : Nat
  /-- Descriptor ADDR fields, for trap records. -/
  srcVa : Nat
  dstVa : Nat
  port : Nat
  column : Nat
  /-- Chunks per row and the two row strides in chunks (CPY2; one row otherwise). -/
  rowLen : Nat
  sStride : Nat
  dStride : Nat
  type : BitVec 6
  ring : Option (Nat × Nat × BitVec 8)
  nextSample : Nat
  nextPerform : Nat
  buf : List Chunk
  /-- Destination bytes already taken over by a later copy of the track (R94). -/
  suppressed : List (Nat × Nat)
  /-- CPYQ: its entry's tag state, sampled on the first chunk's perform beat (R84). -/
  found : Option Tag := none
  /-- CPYSEL's record as sampled, and the chunks folded so far. -/
  record : List Byte
  poisoned : Bool
  /-- LISTEN: first stream, streams, and MAXE. -/
  first : Nat
  streams : Nat
  maxe : Nat
  /-- The step that issued it, counted in the partition, its anchor, and its grants of this core (R88). -/
  step : Nat
  anchor : Nat
  grants : List W32
  /-- It has lost a chunk (R20). -/
  cut : Bool
  /-- Its descriptors as sampled: destination, source, length, and CPY2's shape (R300). -/
  raw : List W64
  /-- PENDING-XLAT: RESUME found the page of its device-memory end absent (R301). -/
  pending : Bool := false
deriving DecidableEq, Repr, Inhabited

/-- A copy's write that performed before the value that R96 gives it was formed: the copy with the chunks that the write is
made of, the address written (physical in device memory), a CPYA's old row, and the free values that stand there until the
value is formed. -/
structure Debt where
  copy : Copy
  addr : Nat
  old : Option Chunk
  held : List Host.Cell
deriving DecidableEq, Repr, Inhabited

/-- A SEND whose flits are still to be sampled (R95). -/
structure SendOp where
  org : Origin
  lane : Nat
  acw : Bool
  hops : Nat
  count : Nat
  sp : Space
  addr : Nat
  next : Nat
deriving DecidableEq, Repr, Inhabited

/-- A RECV that still accepts flits (R95). -/
structure RecvOp where
  org : Origin
  lane : Nat
  acw : Bool
  count : Nat
  sp : Space
  addr : Nat
  next : Nat
deriving DecidableEq, Repr, Inhabited

/-- A flit on a rope: its SEND, its lane and hops, and the core and beat it arrives at. -/
structure Flit where
  org : Origin
  lane : Nat
  acw : Bool
  hops : Nat
  rope : Nat
  dst : Nat
  arrive : Nat
  bytes : List Byte
  poison : Bool
deriving DecidableEq, Repr, Inhabited

/-- A collective issued by a core in this step (R239 to R242). status is the STATUS of R242. -/
structure CollOp where
  org : Origin
  shape : CollShape
  key : CollKey
  dstSpace : Space
  dst : Nat
  srcSpace : Space
  src : Nat
  due : Nat
  /-- Its source chunk j is sampled on start + 1 + j (R241): start is its issue beat, unless a frame gave it back at other
  beats (R302). -/
  start : Nat
  next : Nat
  bytes : List Byte
  poison : List Nat
  number : Option Nat
  gen : Nat
  status : Nat
  rank : Nat
  size : Nat
  started : Bool
  /-- The result bytes, once complete in the landing buffers, and the 64-B lines poisoned. -/
  result : Option (List Byte × List Nat)
  entered : Bool
  /-- Its step was abandoned before every source chunk was sampled (R344), or the band of one refused it. -/
  dropped : Bool
  /-- Its step was abandoned, and its withdrawal sent (R344). -/
  withdrawn : Bool
  /-- Its descriptors and parameter pair as sampled (R300). -/
  raw : List W64 := []
deriving DecidableEq, Repr, Inhabited

/-! ## Checks -/

/-- One pending write in a core's early-read table (R69). -/
structure ErEntry where
  sp : Space
  lo : Nat
  hi : Nat
  perform : Nat
  org : Origin
deriving DecidableEq, Repr, Inhabited

/-- A bank or port taken on the present beat (R70, R78, R81). -/
inductive PortKind where
  | spadBank | accRead | accWrite
deriving DecidableEq, Repr, Inhabited

structure PortUse where
  kind : PortKind
  bank : Nat
  org : Origin
deriving DecidableEq, Repr, Inhabited

/-- A range in an overlap table (R94). -/
structure OvEntry where
  /-- 0 a core's scratchpad, 1 its accumulator memory, 2 a column. -/
  kind : Nat
  place : Nat
  lo : Nat
  hi : Nat
  rope : Nat
  core : Nat
  step : Nat
  leave : Nat
deriving DecidableEq, Repr, Inhabited

/-! ## The core -/

/-- An accumulator bank's allocation (R79, R80): type code 0 when unallocated, two owner bits a band,
and the beat from which a freed bank is allocatable. -/
structure Bank where
  type : BitVec 6
  owners : BitVec 8
  freeFrom : Nat
deriving DecidableEq, Repr, Inhabited

/-- A macro-store entry (R138). -/
structure MacroEntry where
  header : W64
  slots : SMap W32
deriving DecidableEq, Repr, Inhabited

/-- A gear settle window (R54). -/
structure Settle where
  opened : Nat
  low : Bool
deriving DecidableEq, Repr, Inhabited

/-- A CFENCE in force (R99): its issue beat, class mask and tracks S, V, C. -/
structure Fence where
  beat : Nat
  classes : BitVec 16
  s : Bool
  v : Bool
  c : Bool
deriving DecidableEq, Repr, Inhabited

/-- A command retained by a pitch (R339): an accumulating word; one that zeroes rows, by its word, bank,
first beat, rows and beats between; an MSCALE, by its side, address, sample beat and first beat of use; any
other. -/
inductive PitchCmd where
  | acc (a : AccOp)
  | zero (org : Origin) (bank first rows period : Nat)
  | scale (org : Origin) (b : Bool) (addr sample use : Nat)
  | other (org : Origin)
deriving DecidableEq, Repr, Inhabited

/-- The M track's open pitch (R219, R339 to R341): its commands, the banks they write, the prior images of
the banks written so far with their ECC marks, the ring entries read and whether one was pushed again, and the banks that
anything but the M track wrote since it opened. -/
structure Pitch where
  commands : List PitchCmd
  banks : List Nat
  shadow : List (Nat × SMap Byte × SMap Nat)
  entries : List (Nat × Nat)
  pushed : Bool
  touched : List Nat
deriving DecidableEq, Repr, Inhabited

/-- A core's telemetry counts (R349, R165). -/
structure Telemetry where
  high : Nat
  low : Nat
  settle : Nat
  gears : Nat
  cold : Nat
  ramps : Nat
deriving DecidableEq, Repr, Inhabited

/-- One core (R10), or the S sequencer of a shadow service context (R290). -/
structure Core where
  /-- s1 to s31; s0 reads as zero (R51). -/
  sregs : SMap W64
  /-- The 4-bit residue each s register carries (R332). -/
  sres : SMap (BitVec 4)
  /-- k0 to k7 (R63, R161). -/
  kregs : SMap W64
  /-- d0 to d31 (R89). -/
  dregs : SMap W64
  /-- q0 to q7 (R83). -/
  qregs : SMap W64
  /-- f0 to f15 (R115). -/
  fregs : SMap W32
  /-- Per-row and per-column BF16 scales (R117). -/
  sA : SMap W16
  sB : SMap W16
  /-- p0 to p127, physical (R63). -/
  preds : SMap Mask
  rb : Nat
  pb : Nat
  vwin : Nat
  wwin : Nat
  omap : BitVec 3
  mmode : BitVec 3
  msat : Bool
  banks : SMap Bank
  /-- Tag state of entry i of ring q at key 256q + i. -/
  tags : SMap Tag
  spad : SMap Byte
  acc : SMap Byte
  /-- Aligned 64-bit words holding a corrected single-bit error (1) or the poison syndrome (2),
  by word index (R335). -/
  spadEcc : SMap Nat
  accEcc : SMap Nat
  codeEcc : SMap Nat
  macEcc : SMap Nat
  code : SMap W32
  macros : SMap MacroEntry
  /-- STATUS (R169). -/
  status : W64
  /-- STATUS bits that an event set on the present beat (R170). -/
  stuck : W64
  /-- DOM (R53). -/
  dom : W64
  low : Bool
  window : Option Settle
  erchk : Bool
  ertab : List ErEntry
  /-- Reads of the present beat made while the checker is enabled: word, space and byte range (R69). -/
  reads : List (Origin × Space × Nat × Nat)
  fences : List Fence
  /-- Last beat of array occupancy since the anchor, and the issue beats of the RAMPs, newest first (R218). -/
  busyTo : Option Nat
  ramps : List Nat
  latches : List Latch
  accops : List AccOp
  copies : List Copy
  debts : List Debt
  sends : List SendOp
  recvs : List RecvOp
  colls : List CollOp
  ports : List PortUse
  /-- Device-memory column ports used on the present beat, each with the copy that uses it (R88). -/
  colPorts : List (Nat × Nat × Origin)
  /-- Atomic writes of the present beat: their words, classes and bytes (R96). -/
  atomDone : List (Origin × Nat × Space × List Host.Cell)
  s : Track
  v : Track
  m : Track
  c : Track
  pitch : Pitch
  /-- The errors of R337 that lead to replay, all of one beat: the beat they were found on, the word of each, and its bad
  word's address with its space code (R340, R342). -/
  replay : List (Nat × Origin × Nat)
  tele : Telemetry
deriving DecidableEq, Repr, Inhabited

/-- A rope's shadow service context (R290): its S sequencer, whether it runs, its own issue period, and
which holds it has marked as serviced. -/
structure Service where
  seq : Core
  active : Bool
  /-- Why it was last entered: 1 a hold, 2 a fault, 3 a pre-emption or a halt, 4 the return from a halt (R290). -/
  cause : Nat
  period : Nat
  /-- Wall-clock time in beat periods up to which it has run: it issues one word per period (R290). -/
  clock : Nat
  /-- It has issued RESUME and waits for the partition's other ropes (R302). -/
  resumeAt : Option Nat
deriving DecidableEq, Repr, Inhabited

/-! ## Job images -/

/-- A core's record of a job image (R283). -/
structure CoreJob where
  rope : Nat
  core : Nat
  gear0 : Bool
  erchk : Bool
  dom0 : BitVec 12
  code : SMap W32
  words : Nat
  entryS : Nat
  entryV : Nat
  entryM : Nat
  entryC : Nat
  macros : SMap MacroEntry
  preload : List Host.Cell
deriving DecidableEq, Repr, Inhabited

/-- A job image as loaded (R283): RDZ, the mesh plan's grants in list order, and the core records. -/
structure JobImage where
  rdz : Nat
  grants : List W32
  cores : List CoreJob
deriving DecidableEq, Repr, Inhabited

/-! ## The partition -/

/-- STATE of a context descriptor (R278). -/
inductive CtxState where
  | inactive | active | parked | faulted
deriving DecidableEq, Repr, Inhabited

/-- A stream's state at the anchor. -/
structure AnchorStream where
  sid : Nat
  n : Nat
  q : Nat
  rp : Nat
  snap : Nat
  key : W64
deriving DecidableEq, Repr, Inhabited

/-- The queue mapper's copy of a resident context (R277, R278). -/
structure Resident where
  ctx : Nat
  csbase : Nat
  cslen : Nat
  state : CtxState
  lag : Nat
  head : Nat
  tail : Nat
  loaded : Bool
  loading : Bool
  image : JobImage
  /-- An ACTIVATE whose first step has not begun (R282). -/
  fresh : Bool
  /-- Streams whose listening entries an ACTIVATE from PARKED or FAULTED has still to consume, with the N that it gave
  them (R34). -/
  restore : List (Nat × Nat)
  /-- Stream ids whose last TURN raised LISTEN-OVERRUN (R244). -/
  overrun : List Nat
  /-- Streams to release as reset (R38), with FILL and RESET. -/
  resets : List Nat
  /-- Streams active at the running step's anchor, as they stood there, and the lag (R22, R237, R244). -/
  atAnchor : List AnchorStream
  lagAtAnchor : Nat
deriving DecidableEq, Repr, Inhabited

/-- Bytes of a range of device memory with the marks of its 64-B lines, by their distance from the range's start: where it
lies, its length, and what stood there. -/
structure Snap where
  at_ : Nat
  len : Nat
  cells : List Host.Cell
  marks : List (Nat × Nat)
deriving DecidableEq, Repr, Inhabited

/-- What a child of a commit still inherits at its context's next TURN (R326): the parent's committed extent, the half that
was read, and the sources: the parent's bytes below the extent on the page that holds it, its state slice page by page, and
its penalty table. They stand as before the commit, under what others than the parent have written there since. -/
structure ForkTail where
  ctx : Nat
  child : Nat
  parent : Nat
  ext : Nat
  half : Bool
  page : Option Snap
  slices : List (Option Snap)
  pen : Snap
deriving DecidableEq, Repr, Inhabited

/-- A staged stream effect (R173). Positions are the 64-bit values of the word. -/
inductive StageOp where
  | fork (sid : Nat)
  | cancel (sid : Nat) (tree : Bool)
  | retract (sid pos : Nat)
deriving DecidableEq, Repr, Inhabited

/-- A staged effect with the order in which its word issued (R173). -/
structure Staged where
  org : Origin
  op : StageOp
deriving DecidableEq, Repr, Inhabited

/-- A staged speaking entry (R246, R247): its SPEAK word, chunk and slot, and its 64 bytes. -/
structure SpeakEntry where
  org : Origin
  slot : Nat
  bytes : List Byte
  poison : Bool
deriving DecidableEq, Repr, Inhabited

/-- A queued extra-step request (R35). -/
structure XReq where
  ctx : Nat
  prio : Nat
  frame : Nat
  seq : Nat
deriving DecidableEq, Repr, Inhabited

/-- One row of the slot table (R15, R282). owner none is a spare slot. -/
structure SlotRow where
  us : Nat
  owner : Option Nat
deriving DecidableEq, Repr, Inhabited

/-- The parts of a slot (R17): no slot, before T, TURN, RUN, after the step's end. -/
inductive Phase where
  | gap | lead | turn | run | over
deriving DecidableEq, Repr, Inhabited

/-- How the slot's step came to run. -/
inductive StepKind where
  | owned | extra | urgent
deriving DecidableEq, Repr, Inhabited

/-- What became of the slot's step. -/
inductive StepEnd where
  | none | open_ | committed | abandoned | faulted
deriving DecidableEq, Repr, Inhabited

/-- The step of the present slot. -/
structure Step where
  serial : Nat
  kind : StepKind
  resident : Nat
  /-- Its context, and the context whose step ran before it on these cores. -/
  ctx : Nat
  prevCtx : Nat
  turnBeat : Nat
  anchor : Nat
  rdz : Nat
  outcome : StepEnd
  /-- The watchdog still counts (R296). -/
  watching : Bool
  watched : Nat
  grants : List W32
  csbase : Nat
  cslen : Nat
  preempted : Bool
  /-- Residents whose commands this TURN has still to apply, and how many it applied of the first (R281). -/
  todo : List Nat
  applied : Nat
  /-- TURN has bound the job and taken SNAP. -/
  bound : Bool
  /-- An abandonment has been settled: staged effects dropped, withdrawals sent (R32, R344). -/
  settled : Bool
  /-- From T on: the slot's context was LOADED on T, and no load of it has started since; once the step is bound,
  also that it is not INACTIVE: the slot releases (R277). -/
  releases : Bool
  /-- Stream and position of the entries that this step's commit published (R30). -/
  published : List (Nat × Nat)
deriving DecidableEq, Repr, Inhabited

/-- A pending page need of a held beat: rope, virtual address, whether it writes, reads. -/
structure PageNeed where
  rope : Nat
  va : Nat
  write : Bool
  read : Bool
  org : Origin
deriving DecidableEq, Repr, Inhabited

/-- A hold in force (R287): its causes, which are serviced by HOLDX, its start, the accesses that missed, and those
of them whose walk refused (R322). -/
structure Hold where
  causes : List Nat
  serviced : List Nat
  since : Nat
  needs : List PageNeed
  refused : List PageNeed := []
deriving DecidableEq, Repr, Inhabited

/-- A fault taken in the running step (R67, R292). -/
structure FaultRec where
  cls : FaultClass
  org : Origin
  detail : W64
  detail2 : W64
  beat : Nat
  svc : Bool
  /-- Raised as a hold ends, before the held beat: no word issues on that beat (R322). -/
  ahead : Bool := false
deriving DecidableEq, Repr, Inhabited

/-- The hold counters of a step (R289). -/
structure HoldCounts where
  holds : Nat
  holdt : Nat
  xlath : Nat
  collh : Nat
  replh : Nat
  preh : Nat
  pret : Nat
  strt : Nat
deriving DecidableEq, Repr, Inhabited

/-- Why the partition is frozen (R297). -/
inductive FreezeCause where
  | urgent | debugger
deriving DecidableEq, Repr, Inhabited

/-- What the grid controller keeps of a frozen step (R297): the step, its staged effects and counts,
its freeze beat, cause and wall instant. -/
structure Frozen where
  cause : FreezeCause
  beat : Nat
  since : Nat
  step : Step
  plan : Option (StepKind × Nat)
  phase : Phase
  stage : List Staged
  speak : List SpeakEntry
  flip : Bool
  xstep : Option Nat
  counts : HoldCounts
  strtFs : Nat
  flits : List Flit
  overlaps : List OvEntry
  /-- The frozen cores, for what R300 leaves without a byte layout: payloads of kinds 8 to 10. -/
  cores : SMap Core
  /-- RUN has ended the debugger halt (R305). -/
  ran : Bool
  /-- The instant of the freeze, which THAW does not move, and the frame and slot it fell in. -/
  began : Nat
  at_ : Nat × Nat
deriving DecidableEq, Repr, Inhabited

/-- One partition (R9, R274): its topo, its grid, its residents and its running step. -/
structure Partition where
  ropes : List Nat
  topo : Nat
  /-- The model's own: how far the present beat has been worked. 0 not begun, 1 words issuing, 2 samples
  due, 3 writes due, 4 finished. -/
  mark : Nat
  phase : Phase
  step : Step
  /-- What the present slot is for: nothing, or a step of one kind for a resident. -/
  plan : Option (StepKind × Nat)
  /-- The grid (R15): epoch in ns, slot table, the frame and slot now running, wall start and end. -/
  epoch : Nat
  slots : List SlotRow
  frame : Nat
  slot : Nat
  slotStart : Nat
  slotEnd : Nat
  frameStart : Nat
  /-- A new grid waiting for the frame start (R15): epoch in ns and table. -/
  newGrid : Option (Nat × List SlotRow)
  running : Bool
  local_ : Bool
  badMarks : Nat
  marked : Bool
  /-- The present frame's offset is measured, and a mark that came before its own frame's start: frame and time (R366). -/
  measured : Bool
  early : Option (Nat × Nat)
  shift : Int
  /-- RESMAP0 to RESMAP31 as read, and values waiting for the frame start (R276). -/
  resmap : SMap W64
  resmapNew : SMap W64
  residents : SMap Resident
  xqueue : List XReq
  xseq : Nat
  stage : List Staged
  speak : List SpeakEntry
  flip : Bool
  xstep : Option Nat
  counts : HoldCounts
  /-- Droop time inside the step in fs, and its share of STRT. -/
  strtFs : Nat
  hold : Option Hold
  fault : Option FaultRec
  /-- A service-level word has faulted since the slot began: every resident context becomes FAULTED at its end (R294). -/
  svcFault : Bool
  traps : Nat
  frozen : List Frozen
  haltAsked : Bool
  flits : List Flit
  overlaps : List OvEntry
  /-- The deadline of the slot has been applied. -/
  deadlined : Bool
  released : Bool
  /-- The slot is skipped by a thaw (R306): it releases nothing. -/
  skipped : Bool
  /-- The reclaimer (R329, R330): pages queued, by context, stream and address; the streams released; and those of them
  whose state slices and penalty table the next TURN zeroes. -/
  reclaim : List (Nat × Nat × Nat)
  reclaiming : List (Nat × Nat)
  zeroing : List (Nat × Nat)
  /-- A restored step waits for its restart: the instant, and the instant of its freeze (R302). -/
  resumeWait : Option (Nat × Nat)
deriving DecidableEq, Repr, Inhabited

/-! ## Translation -/

/-- An entry of a rope's translation cache (R321). -/
structure XlatEntry where
  idx : Nat
  big : Bool
  va : Nat
  pa : Nat
  w : Bool
  r : Bool
deriving DecidableEq, Repr, Inhabited

/-- A pending walk of a rope's walker (R322). -/
structure Walk where
  part : Nat
  rope : Nat
  idx : Nat
  va : Nat
  write : Bool
  read : Bool
  /-- XPRE's granule: 2 MiB or not (R172). -/
  prefetch : Option Bool
deriving DecidableEq, Repr, Inhabited

/-! ## Pod fabric -/

/-- A group record (R363). members are (chip, partition) in rank order. -/
structure Group where
  part : Nat
  group : Nat
  rank : Nat
  members : List (Nat × Nat)
deriving DecidableEq, Repr, Inhabited

/-- The pod configuration of the running image (R363). -/
structure PodConfig where
  chip : Nat
  podn : Nat
  seq : Nat
  stby : Nat
  mark : Nat
  align : BitVec 8
  start : Nat
  lead : Nat
  groups : List Group
deriving DecidableEq, Repr, Inhabited

/-- A collective known to the sequencer (R368): key, number, first request, requesters, and whether it
runs as null. -/
structure SeqColl where
  key : CollKey
  shape : CollShape
  number : Nat
  gen : Nat
  /-- Sent to the members: the standby has acknowledged it, or there is none. -/
  sent : Bool
  /-- Chips it is sent to, and those of them that have completed it. -/
  members : List Nat
  complete : List Nat
  nullStatus : Nat
deriving DecidableEq, Repr, Inhabited

/-- A start number that this chip has received (R370): with its generation, key and null status, the partitions of this
chip that have started it (or, where it runs as null, have reached it), and whether it is complete here. -/
structure Numbered where
  number : Nat
  gen : Nat
  key : CollKey
  nullStatus : Nat
  started : List Nat
  done : Bool
deriving DecidableEq, Repr, Inhabited

/-- The sequencer or standby role of this chip, and what it knows of the pod (R368 to R374). -/
structure Fabric where
  gen : Nat
  last : Option Nat
  colls : List SeqColl
  /-- Requests that wait for room: chip, partition, key, shape and member chips (R369). -/
  deferred : List (Nat × Nat × CollKey × CollShape × List Nat)
  lost : List Nat
  missed : SMap Nat
  seqChip : Nat
  /-- Numbers received, in number order. -/
  numbers : List Numbered
  /-- Contributions in the landing buffers of collectives that are not complete: key, rank, bytes, poisoned lines. -/
  landing : List (CollKey × Nat × List Byte × List Nat)
  /-- COLL words issued since boot for one group record and tag (R368). -/
  occurrences : List (Nat × Nat × Nat × Nat)
  /-- Collectives whose step has left its cores before they started, by partition, with their sources in the
  landing buffers (R344, R370). -/
  held : List (Nat × CollOp)
deriving DecidableEq, Repr, Inhabited

/-! ## Device-wide state -/

/-- Bring-up states (R355). -/
inductive Boot where
  | reset | rom | verify | config | train | ready | recovery
deriving DecidableEq, Repr, Inhabited

/-- Thermal states (R354). -/
inductive Thermal where
  | normal | warn | trip
deriving DecidableEq, Repr, Inhabited

/-- Module flash (R355, R361): image slots, boots, and the two copies of the leaf limit with whether
each passes its CRC. -/
structure Flash where
  slotA : SMap Byte
  lenA : Nat
  slotB : SMap Byte
  lenB : Nat
  boots : Nat
  limit0 : Nat
  ok0 : Bool
  limit1 : Nat
  ok1 : Bool
deriving DecidableEq, Repr, Inhabited

/-- The running image (R357): which slot, SVN, the SHA-256 of its signed bytes, and its sections. -/
structure Image where
  slotB : Bool
  svn : Nat
  hash : List Byte
deriving DecidableEq, Repr, Inhabited

/-- What the device sends: to its hosts (R30, R284), and to the chips of its pod, the chip it goes to
first (R365, R368, R373). -/
inductive OutMsg where
  | readData (pkt : Packet) (bytes : List Byte)
  | release (ctx sid : Nat) (entry : List Byte)
  | event (ctx : Nat) (addr : Nat) (bytes : List Byte)
  | eventCount (ctx addr count : Nat)
  | stepMark (dst : Nat) (bytes : List Byte)
  | request (dst chip part : Nat) (key : CollKey) (shape : CollShape) (chips : List Nat)
  | withdrawal (dst chip : Nat) (key : CollKey) (sampled : Bool)
  | number (dst number gen : Nat) (key : CollKey) (nullStatus : Nat)
  | toStandby (dst number gen : Nat) (key : CollKey) (shape : CollShape) (chips : List Nat)
  | contribution (dst : Nat) (key : CollKey) (rank : Nat) (bytes : List Byte) (poison : List Nat)
  | heartbeat (dst chip gen last : Nat) (done : Option CollKey)
  | announce (dst chip gen : Nat)
  | standbyAck (dst number : Nat)
deriving DecidableEq, Repr, Inhabited

/-- What reaches the device from outside: an event of the opcode table, or a host's access that the table has no row for:
a write of bytes at an offset of the register window, a read there, a read of device memory (R271, R273); how hot the
hottest junction of each die now is (R354); or the bytes of a step mark (R365). -/
inductive Arrival where
  | event (i : Instr)
  | windowWrite (pkt : Packet) (offset : Nat) (bytes : List Byte)
  | windowRead (pkt : Packet) (offset size : Nat)
  | memoryRead (pkt : Packet) (addr size : Nat)
  | junctions (die0 die1 die2 die3 io : Int)
  | mark (bytes : List Byte)
deriving DecidableEq, Repr, Inhabited

/-- The whole device. -/
structure State where
  /-- 1588 wall-clock time in fs, and the present beat period in fs (R12, R351). -/
  wall : Nat
  beatFs : Nat
  /-- Beats left of a droop episode (R351), and the totals of R350. -/
  droop : Option Nat
  droops : Nat
  droopFs : Nat
  boot : Boot
  thermal : Thermal
  /-- THERM.WARN, and TRIPPED since reset (R350, R354). -/
  warn : Bool
  tripped : Bool
  tripSince : Nat
  temps : List Int
  /-- The hottest junction of each die as the sensors stand, and the instant of the next reading (R354). -/
  sensors : List Int
  thermAt : Nat
  /-- Debug freeze by FREEZE, and the wall instant at which the clocks stopped. -/
  frozen : Bool
  frozenSince : Nat
  flash : Flash
  fuse : Nat
  image : Option Image
  puf : Bool
  leaf : Nat
  leafLimit : Nat
  /-- Partition 0's frame has started and its attestation mailbox has not been looked at (R360). -/
  attestDue : Bool
  /-- The boot record's cause is THERMAL (R354). -/
  thermalCause : Bool
  hosts : List Nat
  /-- Packets discarded, by port (R271). -/
  discards : SMap Nat
  domain : Nat
  pod : PodConfig
  fabric : Fabric
  firmware : SMap W32
  /-- CTXBASE, one value for every partition (R274); none until it is written (R349). -/
  ctxbase : Option Nat
  nparts : Nat
  parts : SMap Partition
  /-- Cores at key 8·rope + core, service contexts and caches at key rope. -/
  cores : SMap Core
  svcs : SMap Service
  caches : SMap (List XlatEntry)
  walks : List Walk
  /-- Device memory by physical address, its lines' poison (2) and corrected-error (1) marks by line,
  and the pages whose lines still read as zero are ordinary zero bytes (R329). -/
  mem : SMap Byte
  memEcc : SMap Nat
  /-- PEND0 to PEND15: contexts with a pending notify (R278). -/
  pend : SMap Bool
  /-- Events counted and not written, by context, and the event writes not yet acknowledged, oldest first: the context
  and the produced count after it (R284). -/
  evLost : SMap Nat
  evSent : List (Nat × Nat)
  /-- Retracted marks by context, stream and position (R28), and the streams whose next release carries
  SKIPPED, by context (R306). -/
  retracted : List (Nat × Nat × Nat)
  skipped : List (Nat × Nat)
  /-- Fork tail copies due at a context's next TURN (R326), and the contexts that were switched out with an ACTIVATE whose
  first step has not begun (R282). -/
  tails : List ForkTail
  activated : List Nat
  teleAt : Nat
  beatAt : Nat
  /-- The unit whose word runs. -/
  cur : UnitId
  /-- What arrives from outside, with its wall instant, oldest first. -/
  inbox : List (Nat × Arrival)
  /-- What the device sends to its hosts and to other chips, oldest first. -/
  out : List OutMsg
  /-- Fabric messages that this chip sends to itself and has not met yet, oldest first. -/
  own : List OutMsg
  /-- The model's own counter for free values; no part of the device. -/
  free : Nat
deriving DecidableEq, Repr

/-! ## Reset -/

/-- A track that takes part in no step. -/
def Track.idle : Track :=
  { pc := 0, wait := 0, fresh := false, live := false, done := false, mac := none, belay := none, belays := 0,
    held := false, resync := none, join := none, kloops := [], mloop := none, loopAt := none, cloop := none, checker := none }

/-- A core with everything zero, as TURN leaves it (R19, R44) and as the model takes it at reset.
(DESIGN CHOICE, log entry 3). -/
def Core.reset : Core :=
  { sregs := [], sres := [], kregs := [], dregs := [], qregs := [], fregs := [], sA := [], sB := [],
    preds := [], rb := 0, pb := 0, vwin := 0, wwin := 1, omap := 0, mmode := 0, msat := false, banks := [],
    tags := [], spad := [], acc := [], spadEcc := [], accEcc := [], codeEcc := [], macEcc := [],
    code := [], macros := [], status := 0, stuck := 0, dom := 0, low := false, window := none, erchk := false,
    ertab := [], reads := [], fences := [], busyTo := none, ramps := [], latches := [], accops := [], copies := [],
    debts := [], sends := [], recvs := [], colls := [], ports := [], colPorts := [], atomDone := [],
    s := .idle, v := .idle, m := .idle, c := .idle,
    pitch := { commands := [], banks := [], shadow := [], entries := [], pushed := false, touched := [] },
    replay := [],
    tele := { high := 0, low := 0, settle := 0, gears := 0, cold := 0, ramps := 0 } }

/-- A service context that waits (R290).
(DESIGN CHOICE, log entry 3). -/
def Service.reset : Service := { seq := Core.reset, active := false, cause := 0, period := 0, clock := 0, resumeAt := none }

/-- A context descriptor's copy before anything is known of it. -/
def Resident.reset : Resident :=
  { ctx := 0, csbase := 0, cslen := 0, state := .inactive, lag := 0, head := 0, tail := 0, loaded := false, loading := false,
    image := { rdz := 0, grants := [], cores := [] }, fresh := false, restore := [], overrun := [],
    resets := [], atAnchor := [], lagAtAnchor := 0 }

/-- No step. -/
def Step.none_ : Step :=
  { serial := 0, kind := .owned, resident := 0, ctx := 0, prevCtx := 0, turnBeat := 0, anchor := 0, rdz := 0, outcome := .none,
    watching := false, watched := 0, grants := [], csbase := 0, cslen := 0, preempted := false,
    todo := [], applied := 0, bound := false, settled := false, releases := false, published := [] }

/-- Hold counters at zero (R289). -/
def HoldCounts.zero : HoldCounts :=
  { holds := 0, holdt := 0, xlath := 0, collh := 0, replh := 0, preh := 0, pret := 0, strt := 0 }

/-- A partition after reset: its grid is one spare slot of 1,000 µs (R275), not started. -/
def Partition.reset : Partition :=
  { ropes := [], topo := 0, mark := 0, phase := .gap, step := .none_, plan := none, epoch := 0, slots := [⟨1000, none⟩], frame := 0,
    slot := 0, slotStart := 0, slotEnd := 0, frameStart := 0, newGrid := none, running := false,
    local_ := false, badMarks := 0, marked := false, measured := false, early := none, shift := 0, resmap := [], resmapNew := [],
    residents := [], xqueue := [], xseq := 0, stage := [], speak := [], flip := false, xstep := none,
    counts := .zero, strtFs := 0, hold := none, fault := none, svcFault := false, traps := 0, frozen := [], haltAsked := false,
    flits := [], overlaps := [], deadlined := false, released := false, skipped := false,
    reclaim := [], reclaiming := [], zeroing := [], resumeWait := none }

/-- The device right after reset (R355 state RESET): every partition with its reset grid (R275), no
image taken, memories holding nothing.
(DESIGN CHOICE, log entry 4). -/
def State.reset : State :=
  { wall := 0, beatFs := 625000, droop := none, droops := 0, droopFs := 0, boot := .reset,
    thermal := .normal, warn := false, tripped := false, tripSince := 0, temps := [0, 0, 0, 0, 0],
    sensors := [0, 0, 0, 0, 0], thermAt := 0, frozen := false,
    frozenSince := 0,
    flash := { slotA := [], lenA := 0, slotB := [], lenB := 0, boots := 0, limit0 := 0, ok0 := true,
               limit1 := 0, ok1 := true },
    fuse := 0, image := none, puf := false, leaf := 0, leafLimit := 0, attestDue := false, thermalCause := false,
    hosts := [], discards := [], domain := 0,
    pod := { chip := 0, podn := 1, seq := 0, stby := 0, mark := 0, align := 0, start := 0, lead := 1024,
             groups := [] },
    fabric := { gen := 0, last := none, colls := [], deferred := [], lost := [], missed := [], seqChip := 0,
                numbers := [], landing := [], occurrences := [], held := [] },
    firmware := [], ctxbase := none, nparts := 1, parts := [], cores := [], svcs := [], caches := [],
    walks := [], mem := [], memEcc := [], pend := [], evLost := [], evSent := [], retracted := [], skipped := [], tails := [],
    activated := [], teleAt := 0, beatAt := 0,
    cur := { part := 0, rope := 0, core := 0, track := .s, svc := false },
    inbox := [], out := [], own := [], free := 0 }

end Sys2Proof.Machine
end

