-- ==== Sys2Proof/Machine/Ops.lean ====
section
/-!
DEFINITION. The named operations over the state that every meaning is built from: reaching a core, a
track, a register; the next word of a track and the step to it (R47); scheduling an effect; taking a
fault (R67, R292), which is this machine's exception, and entering a service context (R290).
-/

namespace Sys2Proof.Machine

/-- What a meaning answers. -/
abbrev Out := Host.Outcome State Fault Refusal

/-! ## Reaching things -/

/-- Partition p. -/
def State.partAt (s : State) (p : Nat) : Partition := SMap.get Partition.reset s.parts p

/-- Replace partition p. -/
def State.setPart (s : State) (p : Nat) (q : Partition) : State :=
  { s with parts := SMap.set Partition.reset s.parts p q }

/-- Change partition p. -/
def State.onPart (s : State) (p : Nat) (f : Partition → Partition) : State := s.setPart p (f (s.partAt p))

/-- Core c of pod rope r. -/
def State.coreAt (s : State) (r c : Nat) : Core := SMap.get Core.reset s.cores (8 * r + c)

/-- Replace core c of rope r. -/
def State.setCoreAt (s : State) (r c : Nat) (k : Core) : State :=
  { s with cores := SMap.set Core.reset s.cores (8 * r + c) k }

/-- Change core c of rope r. -/
def State.onCore (s : State) (r c : Nat) (f : Core → Core) : State := s.setCoreAt r c (f (s.coreAt r c))

/-- The shadow service context of rope r (R290). -/
def State.svcAt (s : State) (r : Nat) : Service := SMap.get Service.reset s.svcs r

/-- Replace the service context of rope r. -/
def State.setSvc (s : State) (r : Nat) (v : Service) : State :=
  { s with svcs := SMap.set Service.reset s.svcs r v }

/-- The registers of the issuing unit: its core's, or its rope's service context's own (R290). -/
def State.core (s : State) : Core :=
  if s.cur.svc then (s.svcAt s.cur.rope).seq else s.coreAt s.cur.rope s.cur.core

/-- Replace the registers of the issuing unit. -/
def State.setCore (s : State) (k : Core) : State :=
  if s.cur.svc then s.setSvc s.cur.rope { s.svcAt s.cur.rope with seq := k }
  else s.setCoreAt s.cur.rope s.cur.core k

/-- Change the registers of the issuing unit. -/
def State.onCur (s : State) (f : Core → Core) : State := s.setCore (f s.core)

/-- The issuing unit's partition. -/
def State.part (s : State) : Partition := s.partAt s.cur.part

/-- The present beat b of the issuing unit: its partition's topo count, or a service context's own issue
period (R1, R290). -/
def State.now (s : State) : Nat :=
  if s.cur.svc then (s.svcAt s.cur.rope).period else s.part.topo

/-- The partition a rope belongs to. -/
def State.partOf (s : State) (r : Nat) : Nat :=
  match s.parts.find? (fun e => e.2.ropes.contains r) with
  | some e => e.1
  | none => 0

/-- A track of a core. -/
def Core.track (k : Core) : Family → Track
  | .s => k.s
  | .v => k.v
  | .m => k.m
  | .c => k.c

/-- Replace a track of a core. -/
def Core.setTrack (k : Core) (f : Family) (t : Track) : Core :=
  match f with
  | .s => { k with s := t }
  | .v => { k with v := t }
  | .m => { k with m := t }
  | .c => { k with c := t }

/-- Change a track of a core. -/
def Core.onTrack (k : Core) (f : Family) (g : Track → Track) : Core := k.setTrack f (g (k.track f))

/-- The issuing track. -/
def State.track (s : State) : Track := s.core.track s.cur.track

/-- Rank of a track (R67, R76): S, V, M, C. -/
def trackRank : Family → Nat
  | .s => 0
  | .v => 1
  | .m => 2
  | .c => 3

/-- The resident context whose step runs (R277). -/
def Partition.runner (q : Partition) : Resident := SMap.get Resident.reset q.residents q.step.resident

/-- The declared rendezvous beat A + D (R45, R49). -/
def Partition.rendezBeat (q : Partition) : Nat := q.step.anchor + q.step.rdz

/-- Words of the running step may issue (R49, R67, R32): it is in RUN and neither committed nor
abandoned; words of the beat on which a fault was found still run their checks. -/
def Partition.issuing (q : Partition) : Bool :=
  decide (q.phase = .run) &&
    (decide (q.step.outcome = .open_) ||
      match q.fault with
      | some f => decide (q.step.outcome = .faulted) && decide (f.beat = q.topo) && !f.ahead
      | none => false)

/-! ## Registers -/

/-- The value of s register n: s0 reads as zero (R51). -/
def Core.sreg (k : Core) (n : BitVec 5) : W64 := if n = 0 then 0 else SMap.get 0 k.sregs n.toNat

/-- The residue that s register n carries; s0 carries 0 (R332). -/
def Core.sresidue (k : Core) (n : BitVec 5) : BitVec 4 := if n = 0 then 0 else SMap.get 0 k.sres n.toNat

/-- Write s register n with its residue; a write of s0 is discarded (R51). -/
def Core.putS (k : Core) (n : Nat) (v : W64) (res : BitVec 4) : Core :=
  if n = 0 then k else { k with sregs := SMap.set 0 k.sregs n v, sres := SMap.set 0 k.sres n res }

/-- k register n (R63, R161). -/
def Core.kreg (k : Core) (n : Nat) : W64 := SMap.get 0 k.kregs n

/-- Write k register n. -/
def Core.putK (k : Core) (n : Nat) (v : W64) : Core := { k with kregs := SMap.set 0 k.kregs n v }

/-- d register n (R89). -/
def Core.dreg (k : Core) (n : Nat) : W64 := SMap.get 0 k.dregs n

/-- Ring register n (R83). -/
def Core.qreg (k : Core) (n : Nat) : W64 := SMap.get 0 k.qregs n

/-- Physical predicate register n (R183). p0 is all ones wherever a selector reads it; the stored p0 is
the one predicate words write. -/
def Core.predReg (k : Core) (n : Nat) : Mask := SMap.get 0 k.preds n

/-- A value read as an unsigned number modulo 15 (R332). -/
def residueOf (v : W64) : BitVec 4 := BitVec.ofNat 4 (v.toNat % 15)

/-- Latency n in the gear of the core (R50): low-gear figures are four times the high-gear ones. -/
def Core.lat (k : Core) (n : Nat) : Nat := if k.low then 4 * n else n

/-! ## The next word of a track -/

/-- The code of a core's word address i within the running context's region (R125, R276): absent at or
above CSLEN, and 49,152 words in all. -/
def Partition.codeIndex (q : Partition) (i : Nat) : Option Nat :=
  if i < q.step.cslen ∧ q.step.csbase + i < 49152 then some (q.step.csbase + i) else none

/-- A macro entry's header and slots (R138). -/
def Core.macro_ (k : Core) (e : Nat) : MacroEntry := SMap.get { header := 0, slots := [] } k.macros e

/-- A header with its reserved bits as they read (R4, R138). -/
def macroHeader (v : Nat) : W64 := BitVec.ofNat 64 (bits v 49 0)

/-- LEN and FAM of a header (R138). -/
def MacroEntry.len (m : MacroEntry) : Nat := bits m.header.toNat 5 0

/-- The family an entry is written in. -/
def MacroEntry.family (m : MacroEntry) : Nat := bits m.header.toNat 7 6

/-- The 14-bit tag of parameter n, 1 to 3 (R138). -/
def MacroEntry.tag (m : MacroEntry) (n : Nat) : Nat := bits m.header.toNat (14 * n + 7) (14 * n - 6)

/-- Put parameter value p into the field of one tag, when the tag is VALID and names word w (R139). -/
def substTag (tag p w : Nat) (x : Nat) : Nat :=
  if bits tag 13 13 = 1 ∧ bits tag 12 8 = w ∧ bits tag 2 0 ≠ 0 then
    setBits x (bits tag 7 3 + bits tag 2 0 - 1) (bits tag 7 3) p
  else x

/-- Substituted(w) of R139. -/
def MacroEntry.word (m : MacroEntry) (r : MacroRun) : W32 :=
  let x := (SMap.get 0 m.slots r.word).toNat
  BitVec.ofNat 32 (substTag (m.tag 3) r.p3 r.word (substTag (m.tag 2) r.p2 r.word (substTag (m.tag 1) r.p1 r.word x)))

/-- The code a core fetches from, by word address. -/
def Core.source (k : Core) (q : Partition) (i : Nat) : Option W32 := (q.codeIndex i).map (SMap.get 0 k.code)

/-- The code a service context fetches from: its rope's 16 KiB firmware store (R290). -/
def State.firmwareAt (s : State) (i : Nat) : Option W32 := if i < 4096 then some (SMap.get 0 s.firmware i) else none

/-- The word a track stands at: a macro entry's substituted word, or the word at its program counter
(R125, R139). -/
def Core.nextWord (k : Core) (src : Nat → Option W32) (f : Family) : Option W32 :=
  match (k.track f).mac with
  | some r => some ((k.macro_ r.entry).word r)
  | none => src (k.track f).pc

/-- The code the issuing unit fetches from. -/
def State.source (s : State) : Nat → Option W32 :=
  if s.cur.svc then s.firmwareAt else s.core.source s.part

/-- The word the issuing unit stands at. -/
def State.word (s : State) : Option W32 := s.core.nextWord s.source s.cur.track

/-- The word that runs now, for what a trap record or a latch keeps of it. A fetch outside the code has no word, and its
fault's DETAIL is 0 (R125, R140).
(DESIGN CHOICE, log entry 105). -/
def State.org (s : State) : Origin :=
  { rope := s.cur.rope, core := s.cur.core, track := s.cur.track, issue := s.now,
    pc := match s.track.mac with
      | some r => r.callPc
      | none => s.track.pc,
    mac := s.track.mac.map fun r => (r.entry, r.word),
    word := s.word.getD 0 }

/-! ## Issue opportunities (R46, R47) -/

/-- The present beat is an issue opportunity of the track: every beat in high gear and on C, and every
fourth one in low gear (R46). -/
def Core.opportunity (k : Core) (f : Family) (beat : Nat) : Bool :=
  decide (f = .c) || !k.low || decide (beat % 4 = 0)

/-- Nothing of the track may issue or count on this beat: an S track in a settle window (R54), a waiting
BELAY (R56), or a track held by one from the beat after its issue (R57). -/
def Core.blocked (k : Core) (f : Family) : Bool :=
  (decide (f = .s) && k.window.isSome && !k.s.fresh) || (k.track f).belay.isSome || ((k.track f).held && !k.s.fresh)

/-- The next word stands at the address of a pending join (R160). -/
def Track.atJoin (t : Track) : Bool :=
  match t.join with
  | some (a, _) => decide (t.pc = a) && t.mac.isNone
  | none => false

/-- The track's next word issues on this beat (R46, R47, R57, R60, R61). A track that a BELAY holds on the target beat of
a RESYNC has no other beat on which that word may issue.
(DEDUCED, log entry 87). -/
def Core.due (k : Core) (f : Family) (beat : Nat) : Bool :=
  let t := k.track f
  let plain := k.opportunity f beat && decide (t.wait = 0) &&
    match t.join with
    | some (_, jb) => !t.atJoin || decide (jb = beat)
    | none => true
  t.live && !t.fresh && !k.blocked f &&
    match t.resync with
    | some (b, x) => if b < beat then decide (x = beat) else plain
    | none => plain

/-- Dead opportunities of R47 plus the next word's GAP; at a join address GAP is not counted (R160). -/
def Core.waitFor (k : Core) (src : Nat → Option W32) (f : Family) (dead : Nat) : Nat :=
  if (k.track f).atJoin then dead
  else
    match k.nextWord src f with
    | some w => w.toNat / 2 ^ 29 + dead
    | none => dead

/-! ## Loops and the step to the next word -/

/-- End of an S body at pc: count the trip, and go back or leave (R161). -/
def loopBack : List KLoop → Nat → SMap W64 → List KLoop × Nat × SMap W64
  | [], pc, ks => ([], pc, ks)
  | l :: ls, pc, ks =>
    if pc = l.body + l.len then
      let n := l.count + 1
      let ks := SMap.set 0 ks l.kreg (BitVec.ofNat 64 n)
      if n < l.trip then ({ l with count := n } :: ls, l.body, ks) else loopBack ls pc ks
    else (l :: ls, pc, ks)

/-- The S track after a word that falls through to pc (R47, R161). -/
def Core.fallS (k : Core) (pc : Nat) : Core :=
  let (ls, pc, ks) := loopBack k.s.kloops pc k.kregs
  { k with kregs := ks, s := { k.s with kloops := ls, pc := pc } }

/-- A compute track after a word that falls through to pc. After the last word of a pass the next word
counts from the next pass's start, or from the loop's last opportunity (R62): the second part is the
opportunities until then, which stand in the place of the word's own dead ones. -/
def fallLoop (t : Track) (pc : Nat) : Track × Option Nat :=
  match t.mloop with
  | some l =>
    if pc = l.body + l.k then
      let w := l.opp + 1
      let t := { t with mloop := some { l with opp := w } }
      if w < l.n + l.stages - 1 then ({ t with pc := l.body }, some l.next) else ({ t with pc := pc }, some l.next)
    else ({ t with pc := pc }, none)
  | none => ({ t with pc := pc }, none)

/-- The C track after a word that falls through to pc (R235). -/
def fallC (t : Track) (pc : Nat) : Track :=
  match t.cloop with
  | some l =>
    if pc = l.body + l.len then
      if l.count + 1 < l.trip then { t with pc := l.body, cloop := some { l with count := l.count + 1 } }
      else { t with pc := pc, cloop := none }
    else { t with pc := pc }
  | none => { t with pc := pc }

/-- A track falls through to pc, its loops turning; the second part replaces the word's own dead
opportunities where a modulo loop says so. -/
def Core.fall (k : Core) (f : Family) (pc : Nat) : Core × Option Nat :=
  match f with
  | .s => (k.fallS pc, none)
  | .c => ({ k with c := fallC k.c pc }, none)
  | .v => let (t, n) := fallLoop k.v pc; ({ k with v := t }, n)
  | .m => let (t, n) := fallLoop k.m pc; ({ k with m := t }, n)

/-- A word of the track issues on this beat: a pending join is met when it is the word at it, and a
re-anchoring ends with its word (R160, R61). -/
def Track.issued (beat : Nat) (t : Track) : Track :=
  { t with fresh := true, checker := none, join := if t.atJoin then none else t.join,
           resync := match t.resync with
             | some (b, x) => if b < beat then none else some (b, x)
             | none => none }

/-- The track moves past its present word: within a macro entry to its next word, else to the word
after it. -/
def Core.forward (k : Core) (f : Family) : Core × Option Nat :=
  let t := k.track f
  match t.mac with
  | some r =>
    if r.word + 1 < (k.macro_ r.entry).len then
      (k.setTrack f { t with mac := some { r with word := r.word + 1 } }, none)
    else (k.setTrack f { t with mac := none }).fall f t.pc
  | none => k.fall f (t.pc + 1)

/-- The core after a word of track f that has Dead opportunities of its own (R47). j sets a join (R160). -/
def Core.retire (k : Core) (src : Nat → Option W32) (beat : Nat) (f : Family) (dead : Nat)
    (j : Option (Nat × Nat) := none) : Core :=
  let k := k.onTrack f (Track.issued beat)
  let k := k.onTrack f fun t => { t with join := j <|> t.join }
  let (k, n) := k.forward f
  k.onTrack f fun t => { t with wait := k.waitFor src f (n.getD dead) }

/-- The unit's word has issued and its next word follows it (R47). -/
def State.retire (s : State) (dead : Nat := 0) (j : Option (Nat × Nat) := none) : State :=
  s.onCur fun k => k.retire s.source s.now s.cur.track dead j

/-- Running loops that do not hold the target of a transfer end, innermost first (R162). -/
def leaveLoops : List KLoop → Nat → List KLoop
  | [], _ => []
  | l :: ls, pc => if l.body ≤ pc ∧ pc < l.body + l.len then l :: ls else leaveLoops ls pc

/-- The S track goes to word address pc. -/
def Core.jump (k : Core) (src : Nat → Option W32) (beat pc dead : Nat) (j : Option (Nat × Nat)) : Core :=
  let k := k.onTrack .s (Track.issued beat)
  let k := k.onTrack .s fun t => { t with pc := pc, kloops := leaveLoops t.kloops pc, join := j <|> t.join }
  k.onTrack .s fun t => { t with wait := k.waitFor src .s dead }

/-- The unit's word has issued and the S track goes to word address pc (R158 to R160). -/
def State.jump (s : State) (pc : Nat) (dead : Nat := 1) (j : Option (Nat × Nat) := none) : State :=
  s.onCur fun k => k.jump s.source s.now pc dead j

/-! ## Scheduling -/

/-- Schedule an effect of the running word for beat act (R50), or the residue fault that takes its place
(R333). -/
def State.emit (s : State) (act : Nat) (e : Effect) (bad : Option (Nat × Nat) := none) : State :=
  s.onCur fun k => { k with latches := k.latches ++ [{ org := s.org, act := act, eff := e, bad := bad }] }

/-- Write s register d, usable lat beats after b, with a stated residue (R50, R51, R332). -/
def State.emitS (s : State) (d : BitVec 5) (v : W64) (res : BitVec 4) (lat : Nat) : State :=
  s.emit (s.now + s.core.lat lat) (.sreg d.toNat v res)

/-- Write s register d with the residue of its value. -/
def State.giveS (s : State) (d : BitVec 5) (v : W64) (lat : Nat := 1) : State :=
  s.emitS d v (residueOf v) lat

/-- Set a sticky bit of STATUS (R169). A clear that STAT has scheduled, or schedules on this beat, leaves it set
(R170). -/
def Core.sticky (k : Core) (bit : Nat) : Core :=
  { k with
    status := k.status ||| BitVec.ofNat 64 (2 ^ bit)
    stuck := k.stuck ||| BitVec.ofNat 64 (2 ^ bit)
    latches := k.latches.map fun l =>
      match l.eff with
      | .statClear m => { l with eff := .statClear (m &&& ~~~(BitVec.ofNat 64 (2 ^ bit))) }
      | _ => l }

/-! ## Device memory and its marks (R335, R336) -/

/-- Marks after a write of [a, a + n): a unit written whole loses its mark, another keeps poison; a
corrected single-bit error goes with any write of its word (R335, R336). -/
def eccWrite (marks : SMap Nat) (u a n : Nat) : SMap Nat :=
  if n = 0 then marks
  else (range (a / u) ((a + n - 1) / u - a / u + 1)).foldl (fun m i =>
    if (a ≤ i * u ∧ i * u + u ≤ a + n) ∨ SMap.get 0 m i = 1 then SMap.set 0 m i 0 else m) marks

/-- Write bytes of physical device memory: a line written whole loses its poison (R336). -/
def State.putDev (s : State) (a : Nat) (bs : List Byte) : State :=
  { s with mem := Mem.put s.mem a bs, memEcc := eccWrite s.memEcc 64 a bs.length }

/-- Contexts of the context table (R273). -/
def contexts : Nat := 1024

/-- The fields of words 0 to 3 of a translation entry that a write sets; the others, and bytes 32 to 63, ignore it (R4, R5,
R318). -/
def entryRw : List Nat := [0x1FFFFFF001, 0xFF03FF00000000, 0x1FFFE00000, 0x1FFFF9FFFF]

/-- The bits of the byte at a physical address that a write of the host, of service firmware or of a step sets: all, but in a
translation entry.
(DEDUCED, log entry 103). -/
def State.rwBits (s : State) (a : Nat) : Byte :=
  match s.ctxbase with
  | some b =>
    if b + 0x80000 ≤ a ∧ a < b + 0x80000 + 64 * contexts then
      let o := (a - b - 0x80000) % 64
      BitVec.ofNat 8 (entryRw.getD (o / 8) 0 / 256 ^ (o % 8))
    else 0xFF
  | none => 0xFF

/-- Bytes as they come to stand at address a: bits that are read only stay (R5, R318). -/
def State.settable (s : State) (a : Nat) (bs : List Byte) : List Byte :=
  (cellsAt a bs).map fun (x, b) => (b &&& s.rwBits x) ||| (Mem.byte s.mem x &&& ~~~s.rwBits x)

/-- Write bytes of physical device memory as a program or a host writes them. -/
def State.storeDev (s : State) (a : Nat) (bs : List Byte) : State := s.putDev a (s.settable a bs)

/-- A range that is kept takes the bytes that a write at address a brings to it. -/
def Snap.overwrite (a : Nat) (bs : List Byte) (x : Snap) : Snap :=
  let lo := max a x.at_
  let hi := min (a + bs.length) (x.at_ + x.len)
  { x with
    cells := Mem.putCells x.cells
      (((cellsAt a bs).filter fun y => decide (x.at_ ≤ y.1) && decide (y.1 < x.at_ + x.len)).map fun y => (y.1 - x.at_, y.2))
    marks := eccWrite x.marks 64 (lo - x.at_) (hi - lo) }

/-- What a child is to inherit, after a write that is not its parent's (R326). -/
def ForkTail.overwrite (a : Nat) (bs : List Byte) (x : ForkTail) : ForkTail :=
  { x with page := x.page.map (Snap.overwrite a bs), slices := x.slices.map (Option.map (Snap.overwrite a bs)),
           pen := x.pen.overwrite a bs }

/-- A write of the host or of service firmware: what is kept for a child to inherit follows it (R326). -/
def State.putOutside (s : State) (a : Nat) (bs : List Byte) : State :=
  { s.storeDev a bs with tails := s.tails.map (ForkTail.overwrite a (s.settable a bs)) }

/-! ## Faults (R67, R292, R293) -/

/-- Class numbers of R293. -/
def FaultClass.code : FaultClass → Nat
  | .illegal => 1
  | .slip => 2
  | .gearWindow => 3
  | .loopConflict => 4
  | .schedule => 5
  | .earlyRead => 6
  | .bankConflict => 7
  | .ropeTiming => 8
  | .columnConflict => 9
  | .addressRange => 10
  | .alignment => 11
  | .unallocatedWrite => 12
  | .band => 13
  | .type => 14
  | .format => 15
  | .ringShape => 16
  | .groupBounds => 17
  | .allocation => 18
  | .copyDescriptor => 19
  | .copyBuffer => 20
  | .copyOverlap => 21
  | .overlapTableFull => 22
  | .classOrder => 23
  | .stageFull => 24
  | .translation => 25
  | .residue => 26
  | .controlCheck => 27
  | .dataError => 28
  | .watchdog => 29
  | .bivouac => 30

/-- The order of R67 and R76: issue beat, then rope, core and track; the later in it is responsible. -/
def Origin.before (a b : Origin) : Bool :=
  let x := [a.issue, a.rope, a.core, trackRank a.track]
  let y := [b.issue, b.rope, b.core, trackRank b.track]
  decide (x < y)

/-- UNIT of a trap record (R292). -/
def unitByte (o : Origin) : Nat := o.core + 16 * trackRank o.track

/-- The 64 bytes of a trap record (R292). -/
def trapRecord (p : Nat) (q : Partition) (wall : Nat) (f : FaultRec) : List Byte :=
  let o := f.org
  let flags := (if f.svc then 1 else 0) + (if o.mac.isSome then 2 else 0)
    + (if q.step.kind = .urgent then 4 else 0) + (if q.step.kind = .extra then 8 else 0)
  let m := o.mac.getD (0, 0)
  toLe 1 f.cls.code ++ toLe 1 flags ++ toLe 1 p ++ toLe 1 o.rope ++ toLe 1 (unitByte o) ++ toLe 1 m.1
    ++ toLe 1 m.2 ++ toLe 1 q.slot ++ toLe 4 o.pc ++ toLe 2 q.runner.ctx ++ toLe 2 0 ++ toLe 8 f.beat
    ++ toLe 8 q.step.anchor ++ toLe 8 q.frame ++ toLe 8 f.detail.toNat ++ toLe 8 f.detail2.toNat
    ++ toLe 8 (wall / 1000000)

/-- Physical address of record n of partition p's trap ring (R292). -/
def trapAddr (base p n : Nat) : Nat := base + 0x40000 + 0x1000 * p + 64 * (n % 64)

/-- Enter rope r's service context afresh with s1 and s2 (R290). -/
def State.enterService (s : State) (r cause addr : Nat) : State :=
  let v := s.svcAt r
  let k := (v.seq.putS 1 (BitVec.ofNat 64 cause) (residueOf (BitVec.ofNat 64 cause))).putS 2 (BitVec.ofNat 64 addr)
    (residueOf (BitVec.ofNat 64 addr))
  s.setSvc r { v with
    active := true, cause := cause, resumeAt := none, clock := s.wall / 625000,
    seq := { k with s := { Track.idle with live := true, wait := (SMap.get 0 s.firmware 0).toNat / 2 ^ 29 } } }

/-- Write a trap record as record n and enter the service firmware of the faulting rope (R292). -/
def State.record (s : State) (p n : Nat) (f : FaultRec) : State :=
  let base := s.ctxbase.getD 0
  let a := trapAddr base p n
  let s := s.putDev a (trapRecord p (s.partAt p) s.wall f)
  s.enterService f.org.rope 2 a

/-- A frozen step is abandoned. -/
def Frozen.abandon (f : Frozen) : Frozen :=
  if f.step.outcome = .open_ then
    { f with step := { f.step with outcome := .abandoned, watching := false, settled := f.step.settled || decide (f.cause = .urgent) },
             stage := [], speak := [],
             flip := false, xstep := none }
  else f

/-- The step is abandoned by fault f on the present beat, recorded as record n (R294). -/
def State.abandonBy (s : State) (p n : Nat) (f : FaultRec) : State :=
  let s := s.onPart p fun q =>
    { q with fault := some f, traps := n + 1, step := { q.step with outcome := .faulted, watching := false } }
  s.record p n f

/-- TAKING A FAULT. A check or program fault found on the present beat of partition p, for word o. The
first one abandons the step; another on the same beat replaces it when its word comes later in the
order of R67. Nothing is raised for a step that has committed or was abandoned before (R294). -/
def State.raiseAt (s : State) (p : Nat) (cls : FaultClass) (o : Origin) (d d2 : Nat) (ahead : Bool := false) : State :=
  let q := s.partAt p
  let f : FaultRec := { cls := cls, org := o, detail := BitVec.ofNat 64 d, detail2 := BitVec.ofNat 64 d2,
                        beat := q.topo, svc := false, ahead := ahead }
  match q.fault with
  | some g =>
    if g.beat = q.topo ∧ Origin.before g.org o then
      let v := s.svcAt g.org.rope
      (s.setSvc g.org.rope { v with active := false }).abandonBy p (q.traps - 1) f
    else s
  | none => if q.step.outcome = .open_ then s.abandonBy p q.traps f else s

/-- A fault of a service-level word (R294): recorded with SERVICE set; a step that has not committed goes no further
(R292), and every resident context becomes FAULTED at the slot's end.
(DEDUCED, log entry 77). -/
def State.raiseService (s : State) (p : Nat) (cls : FaultClass) (o : Origin) (d d2 : Nat) : State :=
  let q := s.partAt p
  let f : FaultRec := { cls := cls, org := o, detail := BitVec.ofNat 64 d, detail2 := BitVec.ofNat 64 d2,
                        beat := q.topo, svc := true }
  let s := s.onPart p fun q =>
    { q with
      svcFault := true, traps := q.traps + 1, frozen := q.frozen.map Frozen.abandon,
      step := if q.step.outcome = .open_ then { q.step with outcome := .faulted, watching := false } else q.step }
  s.record p q.traps f

/-- A fault of the running word, for the word itself. -/
def State.raise (s : State) (cls : FaultClass) (d : Nat := 0) (d2 : Nat := 0) : State :=
  if s.cur.svc then s.raiseService s.cur.part cls s.org d d2 else s.raiseAt s.cur.part cls s.org d d2

/-- The illegal-instruction fault of the running word: DETAIL is its 32 bits (R140). -/
def State.illegal (s : State) : State := s.raise .illegal s.org.word.toNat 0

/-! ## The shapes of a meaning -/

/-- A word with a check of its own and an effect: the first failing check's fault is taken, else the
effect happens and the next word follows. -/
def guarded (bad : State → Option State) (eff : State → State) (s : State) : Out :=
  match bad s with
  | some t => .next t
  | none => .next (eff s)

/-- A word that acts on a core or on a running step, and what is left of it in a service context, which has neither
(R271, R290).
(DESIGN CHOICE, log entry 12). -/
def onCore (svc : State → State) (k : State → Out) (s : State) : Out := if s.cur.svc then .next (svc s).retire else k s

/-- What a service context reads of the core it has not: s register d takes an open value, usable as ever.
(DESIGN CHOICE, log entry 12). -/
def State.giveOpen (s : State) (d : BitVec 5) (lat : Nat := 1) : State :=
  ({ s with free := s.free + 1 }).giveS d (Config.openWord s.free) lat

/-- A service-level word; at step level it is malformed (R140, R179). -/
def serviceOnly (k : State → Out) (s : State) : Out := if s.cur.svc then k s else .next s.illegal

end Sys2Proof.Machine
end

