-- ==== Sys2Proof/Machine/Flags.lean ====
section
/-!
DEFINITION. The status computations: the residues of the S track and their checks (R332, R333), and the
sticky bits of STATUS (R169).
-/

namespace Sys2Proof.Machine

/-- The residue predicted from the operands' residues by the same linear form, with the wraps modulo
2^64 of the exact result folded in: 2^64 is 1 modulo 15 (R332). -/
def predicted (form exact : Int) : BitVec 4 := BitVec.ofNat 4 ((form - exact / (2 ^ 64 : Int)) % 15).toNat

/-- Unsigned value as an integer. -/
def ofW (v : W64) : Int := v.toNat

/-- Residue as an integer. -/
def ofR (r : BitVec 4) : Int := r.toNat

/-- Predicted residue of ra + rb * 2^n. -/
def Core.resAddSh (k : Core) (a b : BitVec 5) (n : Nat) : BitVec 4 :=
  predicted (ofR (k.sresidue a) + ofR (k.sresidue b) * 2 ^ n) (ofW (k.sreg a) + ofW (k.sreg b) * 2 ^ n)

/-- Predicted residue of a difference. -/
def Core.resSub (k : Core) (a b : BitVec 5) : BitVec 4 :=
  predicted (ofR (k.sresidue a) - ofR (k.sresidue b)) (ofW (k.sreg a) - ofW (k.sreg b))

/-- Predicted residue of the low product. -/
def Core.resMul (k : Core) (a b : BitVec 5) : BitVec 4 :=
  predicted (ofR (k.sresidue a) * ofR (k.sresidue b)) (ofW (k.sreg a) * ofW (k.sreg b))

/-- Predicted residue of a sum with an immediate. -/
def Core.resAddImm (k : Core) (a : BitVec 5) (i : W64) : BitVec 4 :=
  predicted (ofR (k.sresidue a) + ofW i) (ofW (k.sreg a) + ofW i)

/-- Predicted residue of (sd << 18) OR an 18-bit immediate, the sum of the two (R152). -/
def Core.resLih (k : Core) (d : BitVec 5) (i : Nat) : BitVec 4 :=
  predicted (ofR (k.sresidue d) * 2 ^ 18 + i) (ofW (k.sreg d) * 2 ^ 18 + i)

/-- The carried residue of s register n differs from its value's (R333). -/
def Core.residueBad (k : Core) (n : BitVec 5) : Bool := decide (k.sresidue n ≠ residueOf (k.sreg n))

/-- DETAIL2 of a residue fault (R342). -/
def Core.residueDetail (k : Core) (n : BitVec 5) : Nat :=
  n.toNat + 256 * (k.sresidue n).toNat + 4096 * (residueOf (k.sreg n)).toNat

/-- The first of these registers whose residue is wrong. -/
def Core.firstBad (k : Core) (ns : List (BitVec 5)) : Option (BitVec 5) := ns.find? k.residueBad

/-- The store data's residue mismatch, to be raised on the perform beat: DETAIL is 0 (R333, R342). -/
def Core.dataBad (k : Core) (n : BitVec 5) : Option (Nat × Nat) :=
  if k.residueBad n then some (0, k.residueDetail n) else none

/-- The residue mismatch of a read's address or index registers, to be raised on the sample beat (R333): DETAIL is
the address d. -/
def Core.baseBad (k : Core) (ns : List (BitVec 5)) (d : Nat) : Option (Nat × Nat) :=
  (k.firstBad ns).map fun n => (d, k.residueDetail n)

/-- Bits of STATUS (R169). -/
def stUnallocRead : Nat := 0
def stErchkFull : Nat := 1
def stCopyPoisoned : Nat := 2
def stCollNull : Nat := 3
def stEccCorr : Nat := 4

end Sys2Proof.Machine
end

