-- ==== Sys2Proof/Machine/Operands.lean ====
section
/-!
DEFINITION. The operand forms over memory: effective addresses and their checks (R75, R153), translation
lookups (R317 to R322), lane classes and fences (R96 to R99), the early-read table (R69), banks and
ports (R70, R78, R81), ECC and poison (R335 to R337), and the read of bytes that all of them share.
-/

namespace Sys2Proof.Machine

/-! ## Sizes of the spaces (R10, R74, R317) -/

/-- One past the last scratchpad address. -/
def spadEnd : Nat := 0x50000

/-- One past the last accumulator-memory address. -/
def accEnd : Nat := 0x100000

/-- One past the last virtual device address. -/
def devEnd : Nat := 2 ^ 48

/-- One past the last physical device address: 80 columns of 2^30 bytes (R317). -/
def physEnd : Nat := 80 * 2 ^ 30

/-- SPACE codes (R89, R300). -/
def Space.code : Space → Nat
  | .spad => 0
  | .acc => 1
  | .dev => 2

/-- An address with its space at bits 63:62 (R300, R342). -/
def Space.tagged (sp : Space) (a : Nat) : Nat := sp.code * 2 ^ 62 + a

/-- The end of a space. -/
def Space.limit : Space → Nat
  | .spad => spadEnd
  | .acc => accEnd
  | .dev => devEnd

/-- An access of z bytes at ea lies outside its space: a device address is judged by its first byte (R75, R153). -/
def Space.outside (sp : Space) (ea z : Nat) : Bool :=
  match sp with
  | .dev => decide (devEnd ≤ ea)
  | _ => decide (sp.limit < ea + z)

/-- R75 and R153 for an access of z bytes at ea: inside the space, then aligned. -/
def addrBad (sp : Space) (ea z : Nat) : Option FaultClass :=
  if sp.outside ea z then some .addressRange else if ea % z ≠ 0 then some .alignment else none

/-- The memory of a space of a core; device memory is the device's. -/
def State.memOf (s : State) (r c : Nat) : Space → SMap Byte
  | .spad => (s.coreAt r c).spad
  | .acc => (s.coreAt r c).acc
  | .dev => s.mem

/-- The accumulator bank of an address (R74). -/
def bankOf (a : Nat) : Nat := a / 0x4000

/-- The row of an address within its bank. -/
def rowOf (a : Nat) : Nat := a / 0x100 % 64

/-- Bank k of a core. -/
def Core.bank (k : Core) (n : Nat) : Bank := SMap.get { type := 0, owners := 0, freeFrom := 0 } k.banks n

/-- Bank n is allocated (R79). -/
def Core.allocated (k : Core) (n : Nat) : Bool := decide ((k.bank n).type ≠ 0)

/-- The owner of a row's band: 0 V, 1 C, 2 X (R80, R136). -/
def Bank.owner (b : Bank) (row : Nat) : Nat := bits b.owners.toNat (2 * (row / 16) + 1) (2 * (row / 16))

/-! ## Translation (R317 to R322) -/

/-- Context c's translation entry, word w (R318). -/
def State.ctxWord (s : State) (c w : Nat) : Nat := Mem.nat s.mem (s.ctxbase.getD 0 + 0x80000 + 64 * c + 8 * w) 8

/-- FLIP of a context (R318, R324). -/
def State.flipOf (s : State) (c : Nat) : Nat := bits (s.ctxWord c 0) 1 1

/-- Physical address of context c's descriptor (R278). -/
def State.ctxDesc (s : State) (c : Nat) : Nat := s.ctxbase.getD 0 + 256 * c

/-- A field of context c's descriptor. -/
def State.desc (s : State) (c off n : Nat) : Nat := Mem.nat s.mem (s.ctxDesc c + off) n

/-- The stream table's page range and the penalty tables are mapped by the device itself (R317, R320):
physical address, writable. -/
def State.deviceMap (s : State) (c va : Nat) : Option (Nat × Bool) :=
  if 0xFF0000000000 ≤ va ∧ va < 0xFF0000010000 then some (s.desc c 72 8 + (va - 0xFF0000000000), false)
  else if 0xFD0000000000 ≤ va ∧ va < 0xFD0000200000 then
    some (bits (s.ctxWord c 2) 36 21 * 2 ^ 21 + (va - 0xFD0000000000), true)
  else none

/-- What a lookup of a virtual address finds. -/
inductive Xlate where
  | hit (pa : Nat)
  | refused
  | missing
deriving DecidableEq, Repr, Inhabited

/-- The size of a cached page. -/
def XlatEntry.size (e : XlatEntry) : Nat := if e.big then 2 ^ 21 else 2 ^ 16

/-- A cached entry covers an address of resident index i. -/
def XlatEntry.covers (e : XlatEntry) (i va : Nat) : Bool := decide (e.idx = i) && decide (va / e.size = e.va / e.size)

/-- VALID of a context's translation entry: without it every access of the context is refused (R318). -/
def State.ctxValid (s : State) (c : Nat) : Bool := (s.ctxWord c 0).testBit 0

/-- Translate an address of the running context of partition p through rope r's cache (R318, R321). -/
def State.translate (s : State) (p r va : Nat) (write read : Bool) : Xlate :=
  let q := s.partAt p
  if !s.ctxValid q.runner.ctx then .refused
  else match s.deviceMap q.runner.ctx va with
  | some (pa, w) => if write && !w then .refused else if pa < physEnd then .hit pa else .refused
  | none =>
    match (SMap.get [] s.caches r).find? (fun e => e.covers q.step.resident va) with
    | some e => if (write && !e.w) || (read && !e.r) then .refused else .hit (e.pa + va % e.size)
    | none => .missing

/-- A hit makes its entry the most recently used of its rope's cache (R321). -/
def State.touch (s : State) (p r va : Nat) : State :=
  let es := SMap.get [] s.caches r
  let i := (s.partAt p).step.resident
  match es.find? (fun e => e.covers i va) with
  | some e => { s with caches := SMap.set [] s.caches r (e :: es.erase e) }
  | none => s

/-! ## Lane classes and fences (R96 to R99) -/

/-- A fence names a track. -/
def Fence.names (f : Fence) : Family → Bool
  | .s => f.s
  | .v => f.v
  | .c => f.c
  | .m => false

/-- Accesses of classes e and l, issued on beats ei before li, are ordered as one class (R96, R99). -/
def Core.sameClass (k : Core) (t : Family) (ei e li l : Nat) : Bool :=
  decide (e = l) ||
    k.fences.any fun f => f.names t && decide (ei ≤ f.beat) && decide (f.beat < li) && f.classes.getLsbD e
      && f.classes.getLsbD l

/-- The free value's bit decides, for one aligned word and one racing pair, named by the issue beat of a word of it, which
value shows (R98).
(DESIGN CHOICE, log entry 10). -/
def raceShows (free issue a : Nat) : Bool := Config.raceBit free issue (a / 4)

/-- Free bytes at n addresses from a on. -/
def freeCells (free a n : Nat) : List Host.Cell := (range a n).map fun x => (x, Config.freeByte free x)

/-- What a read sees of a write by word e, of another class or its own: every byte of its own class, and each word of
another class that the free values show (R96, R98). -/
def Core.seen (k : Core) (o e : Origin) (ocls ecls free : Nat) (cells : List Host.Cell) : Nat × List Host.Cell :=
  (e.issue, if k.sameClass o.track e.issue ecls o.issue ocls then cells
    else cells.filter fun x => raceShows free e.issue x.1)

/-- What lies over the bytes of memory for a read of class cls by word o on beat b, in issue order: the stores of its
track still to perform (R96, R98), and the racing atomics that form their values too late for the read, from beat late on,
as free values. An earlier atomic is waited for; one of the read's own class that acts after b shows nothing (R96).
(DESIGN CHOICE, log entry 10). -/
def Core.layers (k : Core) (o : Origin) (sp : Space) (cls b late free : Nat) : List (Nat × List Host.Cell) :=
  k.latches.filterMap fun l =>
    let mine (sp' : Space) : Bool := decide (sp' = sp) && decide (l.org.track = o.track) && decide (l.org.issue < o.issue)
    match l.eff with
    | .store sp' cells c raced =>
      if mine sp' && decide (b ≤ l.act) then
        some (k.seen o l.org cls c free (cells.filter fun x => !raced.contains x.1))
      else none
    | .atomic sp' a n _ _ _ _ c skip raced _ =>
      if mine sp' && decide (b < l.act) && decide (late ≤ l.act) && !k.sameClass o.track l.org.issue c o.issue cls then
        some (k.seen o l.org cls c free ((freeCells free a n).filter fun x => !skip.contains x.1 && !raced.contains x.1))
      else none
    | _ => none

/-- Bytes from address a on under layers, in their order. -/
def layered (a : Nat) (bs : List Byte) (laid : List (Nat × List Host.Cell)) : List Byte :=
  laid.foldl (fun bs x => overlay a bs x.2) bs

/-- Bytes with older ones chosen by the free values: a read that races with writes performed before it (R98). -/
def withAlts (free a : Nat) (bs : List Byte) (alts : List (Nat × List Host.Cell)) : List Byte :=
  layered a bs (alts.map fun x => (x.1, x.2.filter fun y => raceShows free x.1 y.1))

/-- The bytes from address a on, as a read of class cls by word o sees them on beat b: the bytes R76
gives, under the same-class stores of its track still to perform (R96), and with the racing writes of
other classes by the free values (R98). -/
def Core.forwarded (k : Core) (o : Origin) (sp : Space) (cls b late a free : Nat) (bs : List Byte) : List Byte :=
  layered a bs (k.layers o sp cls b late free)

/-! ## The early-read table (R69) -/

/-- Record a pending write of a word into this core's memory, while the checker is enabled. -/
def Core.erRecord (k : Core) (sp : Space) (lo hi perform : Nat) (o : Origin) : Core :=
  if k.erchk then
    if k.ertab.length < 64 then
      { k with ertab := k.ertab ++ [{ sp := sp, lo := lo, hi := hi, perform := perform, org := o }] }
    else k.sticky stErchkFull
  else k

/-- The recorded write that a read of [lo, hi) on beat b comes too early for, the latest in the order of R67 if there are
several; accesses of the read's own track are never matched (R69, R98).
(DEDUCED, log entry 20). -/
def Core.earlyHit (k : Core) (sp : Space) (lo hi b : Nat) (t : Family) : Option ErEntry :=
  if k.erchk then
    (k.ertab.filter fun e => decide (e.sp = sp) && decide (e.lo < hi) && decide (lo < e.hi) && decide (b ≤ e.perform)
      && decide (e.org.track ≠ t)).foldl (fun x e =>
        match x with
        | some y => if y.org.before e.org then some e else some y
        | none => some e) none
  else none

/-- The later of two words in the order of R67. -/
def laterOf (a b : Origin) : Origin := if a.before b then b else a

/-- A read of core c of rope r against its early-read table; the fault is raised for the later word (R67). -/
def State.earlyHitAt (s : State) (p r c : Nat) (sp : Space) (lo hi : Nat) (o : Origin) : State :=
  match (s.coreAt r c).earlyHit sp lo hi (s.partAt p).topo o.track with
  | some e => s.raiseAt p .earlyRead (laterOf o e.org) lo e.perform
  | none => s

/-- Keep a read of the present beat, for writes that are recorded later on it (R69). -/
def Core.keepRead (k : Core) (sp : Space) (lo hi : Nat) (o : Origin) : Core :=
  if k.erchk then { k with reads := k.reads ++ [(o, sp, lo, hi)] } else k

/-- Check a read as it samples. -/
def State.earlyCheck (s : State) (p r c : Nat) (sp : Space) (lo hi : Nat) (o : Origin) : State :=
  (s.earlyHitAt p r c sp lo hi o).onCore r c fun k => k.keepRead sp lo hi o

/-! ## Banks and ports (R70, R78, R81) -/

/-- Bank number of a bank-conflict trap record (R293). -/
def portDetail : PortKind → Nat → Nat
  | .spadBank, n => n
  | _, n => 0x100 + n

/-- Word o takes a bank or port of core c of rope r on the present beat; a second taker raises the
bank-conflict fault for the later of the two words (R67, R70). -/
def State.takePort (s : State) (p r c : Nat) (kind : PortKind) (n : Nat) (o : Origin) : State :=
  let k := s.coreAt r c
  match k.ports.find? (fun u => decide (u.kind = kind) && decide (u.bank = n)) with
  | some u =>
    let w := laterOf o u.org
    let other := if w = o then u.org else o
    s.raiseAt p .bankConflict w (portDetail kind n) (unitByte other + 256 * other.rope)
  | none => s.setCoreAt r c { k with ports := k.ports ++ [{ kind := kind, bank := n, org := o }] }

/-- The scratchpad bank of an address (R78). -/
def spadBankOf (a : Nat) : Nat := a / 0x4000

/-- Take the bank or port of a read of one row or element. -/
def State.takeRead (s : State) (p r c : Nat) (sp : Space) (a : Nat) (o : Origin) : State :=
  match sp with
  | .spad => s.takePort p r c .spadBank (spadBankOf a) o
  | .acc => s.takePort p r c .accRead (bankOf a) o
  | .dev => s

/-- Take the bank or port of a write of one row or element. -/
def State.takeWrite (s : State) (p r c : Nat) (sp : Space) (a : Nat) (o : Origin) : State :=
  match sp with
  | .spad => s.takePort p r c .spadBank (spadBankOf a) o
  | .acc => s.takePort p r c .accWrite (bankOf a) o
  | .dev => s

/-- The addresses of a list as runs [lo, hi) of consecutive ones, rising, each address once. -/
def spansOf (as : List Nat) : List (Nat × Nat) :=
  (as.foldl (fun m a => SMap.put m a ()) ([] : SMap Unit)).foldr (fun e rs =>
    match rs with
    | (lo, hi) :: rest => if e.1 + 1 = lo then (e.1, hi) :: rest else (e.1, e.1 + 1) :: rs
    | [] => [(e.1, e.1 + 1)]) []

/-! ## ECC and poison (R335, R336) -/

/-- The worst mark among the units of u bytes that [a, a + n) touches: 0 none, 1 corrected, 2 poison. -/
def eccOver (marks : SMap Nat) (u a n : Nat) : Nat :=
  if n = 0 then 0
  else (range (a / u) ((a + n - 1) / u - a / u + 1)).foldl (fun m i => max m (SMap.get 0 marks i)) 0

/-- The marks of a space of a core, and the bytes each covers. -/
def State.eccOf (s : State) (r c : Nat) : Space → SMap Nat × Nat
  | .spad => ((s.coreAt r c).spadEcc, 8)
  | .acc => ((s.coreAt r c).accEcc, 8)
  | .dev => (s.memEcc, 64)

/-- The first unit of [a, a + n) that holds poison, as an address. -/
def eccBadAt (marks : SMap Nat) (u a n : Nat) : Nat :=
  match (range (a / u) ((a + n - 1) / u - a / u + 1)).find? fun i => SMap.get 0 marks i = 2 with
  | some i => i * u
  | none => a

/-- Some unit of [a, a + n) holds a corrected error. -/
def eccCorrected (marks : SMap Nat) (u a n : Nat) : Bool :=
  decide (n ≠ 0) && (range (a / u) ((a + n - 1) / u - a / u + 1)).any fun i => SMap.get 0 marks i = 1

/-- Mark the units that [a, a + n) touches as poisoned. -/
def eccPoison (marks : SMap Nat) (u a n : Nat) : SMap Nat :=
  if n = 0 then marks
  else (range (a / u) ((a + n - 1) / u - a / u + 1)).foldl (fun m i => SMap.set 0 m i 2) marks

/-- Write bytes at an address of a core's memory or of physical device memory, with their marks. -/
def State.poke (s : State) (r c : Nat) (sp : Space) (a : Nat) (bs : List Byte) : State :=
  match sp with
  | .spad => s.onCore r c fun k =>
    { k with spad := Mem.put k.spad a bs, spadEcc := eccWrite k.spadEcc 8 a bs.length }
  | .acc => s.onCore r c fun k =>
    { k with acc := Mem.put k.acc a bs, accEcc := eccWrite k.accEcc 8 a bs.length }
  | .dev => s.storeDev a bs

/-- The cells of one write as runs of bytes at consecutive addresses. -/
def runsOf : List Host.Cell → List (Nat × List Byte)
  | [] => []
  | (a, x) :: cs =>
    match runsOf cs with
    | (b, xs) :: rs => if a + 1 = b then (a, x :: xs) :: rs else (a, [x]) :: (b, xs) :: rs
    | [] => [(a, [x])]

/-- Write the cells of one write, run by run in the order of addresses; of two cells of one byte the later stands. -/
def State.pokeCells (s : State) (r c : Nat) (sp : Space) (cells : List Host.Cell) : State :=
  (runsOf (cells.foldl (fun m x => SMap.put m x.1 x.2) [])).foldl (fun s x => s.poke r c sp x.1 x.2) s

/-- Poison the units of a range (R338). -/
def State.poison (s : State) (r c : Nat) (sp : Space) (a n : Nat) : State :=
  match sp with
  | .spad => s.onCore r c fun k => { k with spadEcc := eccPoison k.spadEcc 8 a n }
  | .acc => s.onCore r c fun k => { k with accEcc := eccPoison k.accEcc 8 a n }
  | .dev => { s with memEcc := eccPoison s.memEcc 64 a n }

/-- The mark a read of a range finds; a corrected error sets ECC-CORR of the core (R335). -/
def State.eccRead (s : State) (r c : Nat) (sp : Space) (a n : Nat) : State × Nat :=
  let (marks, u) := s.eccOf r c sp
  let m := eccOver marks u a n
  if eccCorrected marks u a n ∧ sp ≠ .dev then (s.onCore r c fun k => k.sticky stEccCorr, m) else (s, m)

/-- Raise the data-error fault of a consumed word or line of [a, a + n): DETAIL is the first bad one (R337, R342). -/
def State.dataError (s : State) (p r c : Nat) (sp : Space) (a n : Nat) (o : Origin) : State :=
  let (marks, u) := s.eccOf r c sp
  s.raiseAt p .dataError o (sp.tagged (eccBadAt marks u a n)) (if sp = .dev then 2 else 1)

/-! ## The reads and writes that words share -/

/-- The place of a local or device access: its physical address, or why there is none. -/
def State.place (s : State) (p r : Nat) (sp : Space) (a : Nat) (write read : Bool) : Xlate :=
  match sp with
  | .dev => s.translate p r a write read
  | _ => .hit a

/-! ## Effective addresses -/

/-- The SM form: sa + Sx(imm9)·z (R153). -/
def State.eaImm (s : State) (a : BitVec 5) (i : BitVec 9) (z : Nat) : Nat :=
  (s.core.sreg a + BitVec.ofInt 64 (i.toInt * z)).toNat

/-- The indexed form: sa + sb. -/
def State.eaIdx (s : State) (a b : BitVec 5) : Nat := (s.core.sreg a + s.core.sreg b).toNat

/-- A memory word's check of its address on b (R75, R153). -/
def State.addrFault (s : State) (sp : Space) (ea z : Nat) : Option State :=
  (addrBad sp ea z).map fun c => s.raise c ea z

/-- The checks on b of a word that has no sample beat of its own: its address, then the residues of its address
registers (R153, R333).
(DEDUCED, log entry 19). -/
def State.memBad (s : State) (sp : Space) (regs : List (BitVec 5)) (ea z : Nat) : Option State :=
  match s.addrFault sp ea z with
  | some t => some t
  | none => (s.core.baseBad regs (sp.tagged ea)).map fun x => s.raise .residue x.1 x.2

/-- Beats to the sample or perform of a scalar access, and to its usable register (R77). -/
def accessBeat : Space → Nat
  | .spad => 2
  | .acc => 3
  | .dev => 120

/-- Usable latency of a scalar load (R77). -/
def loadUsable : Space → Nat
  | .spad => 4
  | .acc => 5
  | .dev => 160

/-- Usable latency of an atomic (R77). -/
def atomUsable : Space → Nat
  | .dev => 170
  | _ => 6

/-- A service context's device access is physical, and there is no device memory at or above 80 GiB
(R271, R317).
(DEDUCED, log entry 13). -/
def physical (sp : Space) (ea : Nat) (k : State → Out) (s : State) : Out :=
  if s.cur.svc ∧ sp = .dev ∧ physEnd ≤ ea then .fault (.noSuchDeviceAddress ea) else k s

/-- A word that reaches a core's own memory, past its address check: what a service context is left with, or the
access.
(DESIGN CHOICE, log entry 12). -/
def reach (sp : Space) (svc : State → State) (k : State → Out) (s : State) : Out :=
  if sp = .dev then k s else onCore svc k s

/-- A scalar load of z bytes at ea (R153, R154). -/
def loadWord (sp : Space) (z : Nat) (signed : Bool) (d : BitVec 5) (regs : List (BitVec 5)) (ea : Nat)
    (cls : BitVec 4) (s : State) : Out :=
  match s.addrFault sp ea z with
  | some t => .next t
  | none =>
    reach sp (·.giveOpen d (loadUsable sp)) (physical sp ea fun s =>
      .next (s.emit (s.now + s.core.lat (accessBeat sp))
        (.load sp ea z signed d.toNat (s.now + s.core.lat (loadUsable sp)) cls.toNat)
        (s.core.baseBad regs (sp.tagged ea))).retire) s

/-- Record a pending local write of the running word (R69). -/
def State.note (s : State) (sp : Space) (lo hi perform : Nat) : State :=
  if sp = .dev then s else s.onCur fun k => k.erRecord sp lo hi perform s.org

/-- A scalar store of the low z bytes of ss at ea (R153, R154). -/
def storeWord (sp : Space) (z : Nat) (v : BitVec 5) (regs : List (BitVec 5)) (ea : Nat)
    (cls : BitVec 4) (s : State) : Out :=
  match s.memBad sp regs ea z with
  | some t => .next t
  | none =>
    reach sp id (physical sp ea fun s =>
      let act := s.now + s.core.lat (accessBeat sp)
      let s := s.note sp ea (ea + z) act
      .next (s.emit act (.store sp (cellsAt ea (toLe z (s.core.sreg v).toNat)) cls.toNat []) (s.core.dataBad v)).retire) s

/-- An atomic of z bytes at sa with operand sb (R156). It samples and performs on one beat, its address judged
first (R333). -/
def atomicWord (sp : Space) (z : Nat) (fn : AtomFn) (d a b : BitVec 5) (cls : BitVec 4) (s : State) :
    Out :=
  let ea := (s.core.sreg a).toNat
  match s.addrFault sp ea z with
  | some t => .next t
  | none =>
    reach sp (·.giveOpen d (atomUsable sp)) (physical sp ea fun s =>
      let act := s.now + s.core.lat (accessBeat sp)
      let s := s.note sp ea (ea + z) act
      .next (s.emit act (.atomic sp ea z fn (s.core.sreg b) d.toNat (s.now + s.core.lat (atomUsable sp)) cls.toNat [] [] [])
        (s.core.baseBad [a] (sp.tagged ea) <|> s.core.dataBad b)).retire) s

/-- The result of an atomic function on w-bit values (R156). -/
def AtomFn.apply (fn : AtomFn) (w old x : Nat) : Nat :=
  let x := x % 2 ^ w
  match fn with
  | .add => (old + x) % 2 ^ w
  | .and_ => old &&& x
  | .or_ => old ||| x
  | .xor_ => old ^^^ x
  | .swap => x
  | .min_ => if signedOf w x < signedOf w old then x else old
  | .max_ => if signedOf w old < signedOf w x then x else old
  | .minu => min old x
  | .maxu => max old x

end Sys2Proof.Machine
end

