-- ==== Sys2Proof/Machine/Control.lean ====
section
/-!
DEFINITION. The words common to all tracks (R43, R48, R49, R66), and the S track's branches, loops,
barriers, gears, counters, status, prefetch and stream words (chapter 7, from R158 on).
-/

namespace Sys2Proof.Machine

/-! ## Placement and the settle window -/

/-- The running word stands in a macro entry. -/
def State.inMacro (s : State) : Bool := s.track.mac.isSome

/-- The running word stands in the kernel of its track's modulo loop. -/
def State.inKernel (s : State) : Bool :=
  match s.track.mloop with
  | some l => decide (l.body ≤ s.track.pc) && decide (s.track.pc < l.body + l.k)
  | none => false

/-- The placement rules of R65 and R66. -/
def placed (ker mac : Bool) (k : State → Out) (s : State) : Out :=
  if (mac && s.inMacro) || (ker && s.inKernel) then .next s.illegal else k s

/-- A V or M word other than IDLE on a beat of a settle window raises the gear-window fault (R54). -/
def windowed (k : State → Out) (s : State) : Out :=
  match s.core.window with
  | some w =>
    if (s.cur.track = .v ∨ s.cur.track = .m) ∧ w.opened < s.now then .next (s.raise .gearWindow (w.opened + 127))
    else k s
  | none => k s

/-! ## Domains (R53, R56) -/

/-- EN of DOM. -/
def Core.domEn (k : Core) : Bool := k.dom.getLsbD 2

/-- LEVEL of DOM. -/
def Core.domLevel (k : Core) : Nat := bits k.dom.toNat 1 0

/-- Two ropes of one partition lie in one domain instance of a level (R56). -/
def sameInstance (level r1 r2 : Nat) : Bool :=
  match level with
  | 0 => decide (r1 = r2)
  | 1 => decide (r1 / 20 = r2 / 20)
  | _ => true

/-- The cores of a partition, as rope and core, in rising order. -/
def Partition.coreIds (q : Partition) : List (Nat × Nat) :=
  q.ropes.flatMap fun r => (range 0 8).map fun c => (r, c)

/-- The members of the domain instance that core c of rope r belongs to (R56). -/
def State.domainOf (s : State) (p r c : Nat) : List (Nat × Nat) :=
  let k := s.coreAt r c
  (s.partAt p).coreIds.filter fun (r', c') =>
    (s.coreAt r' c').domEn && decide ((s.coreAt r' c').domLevel = k.domLevel) && sameInstance k.domLevel r r'

/-! ## Job words -/

/-- ANCHOR opens a track (R43); it changes no state. -/
def execAnchor (s : State) : Out := placed true true (windowed fun s => .next s.retire) s

/-- The later of the waiting BELAYs of the running core's domain instance (R58, R67).
(DEDUCED, log entry 71). -/
def State.waitingBelay (s : State) : Option Origin :=
  (s.domainOf s.cur.part s.cur.rope s.cur.core).foldl (fun o (r, c) =>
    match (s.coreAt r c).s.belay, o with
    | some b, some o => some (laterOf o b)
    | some b, none => some b
    | none, o => o) none

/-- RENDEZ ends the track's part in the step on A + D (R49); a service context returns to waiting
(R290). -/
def execRendez (_g : BitVec 3) (s : State) : Out :=
  placed true true (windowed fun s =>
    if s.cur.svc then .next (s.setSvc s.cur.rope { s.svcAt s.cur.rope with active := false })
    else
      let due := s.part.rendezBeat
      if s.now ≠ due ∨ s.track.join.isSome then .next (s.raise .slip due s.now)
      else
        match (if s.cur.track = .s ∧ s.core.domEn then s.waitingBelay else none) with
        | some o =>
          .next ((s.retire.onCur fun k => k.onTrack s.cur.track fun t => { t with live := false, done := true }).raiseAt
            s.cur.part .slip o due 0)
        | none =>
          .next (s.retire.onCur fun k => k.onTrack s.cur.track fun t => { t with live := false, done := true })) s

/-- IDLE m changes only the program counter, with m dead opportunities (R48). -/
def execIdle (_g : BitVec 3) (m : BitVec 18) (s : State) : Out := .next (s.retire m.toNat)

/-- The parameter n of an MCALL fits the entry's tag (R139). -/
def tagOk (len tag p : Nat) : Bool :=
  if bits tag 13 13 = 1 then
    let w := bits tag 2 0
    let l := bits tag 7 3
    decide (bits tag 12 8 < len) && decide (1 ≤ w) && decide (w ≤ 6) && decide (l + w ≤ 32)
      && (decide (28 < l) || decide (l + w ≤ 23)) && decide (p < 2 ^ w)
  else decide (p = 0)

/-- FAM code of a family (R138). -/
def famCode : Family → Nat
  | .s => 0
  | .v => 1
  | .m => 2
  | .c => 3

/-- The header of macro-store entry e, as MCALL reads it: an uncorrectable one faults as a fetch of it does, a corrected
one shows in STATUS (R335, R337, R342). -/
def headerRead (e : Nat) (k : State → Out) (s : State) : Out :=
  match SMap.get 0 s.core.macEcc e with
  | 2 => .next (s.raise .dataError (8 * e) 3)
  | 1 => k (s.onCur fun k => k.sticky stEccCorr)
  | _ => k s

/-- MCALL e runs macro-store entry e with its parameters substituted (R66, R139). -/
def execMcall (_g : BitVec 3) (e p q : BitVec 6) (r : BitVec 5) (s : State) : Out :=
  placed true true (headerRead e.toNat fun s =>
    let m := s.core.macro_ e.toNat
    let ok := decide (m.family = famCode s.cur.track) && decide (1 ≤ m.len) && decide (m.len ≤ 32)
      && tagOk m.len (m.tag 1) p.toNat && tagOk m.len (m.tag 2) q.toNat && tagOk m.len (m.tag 3) r.toNat
    if ok then
      windowed (fun s =>
        .next (s.onCur fun k =>
          let k := k.onTrack s.cur.track (Track.issued s.now)
          let k := k.onTrack s.cur.track fun t =>
            { t with pc := t.pc + 1,
                     mac := some { entry := e.toNat, word := 0, p1 := p.toNat, p2 := q.toNat, p3 := r.toNat,
                                   callPc := t.pc } }
          k.onTrack s.cur.track fun t => { t with wait := k.waitFor s.source s.cur.track 0 })) s
    else .next s.illegal) s

/-! ## Branches (R158, R159) -/

/-- The word's own address plus a signed offset, modulo 2^64: below 0 it lies past every code region. -/
def State.relative (s : State) (o : Int) : Nat := (BitVec.ofInt 64 (s.track.pc + o)).toNat

/-- A conditional branch (R158). -/
def branch (taken : Bool) (o : BitVec 13) (s : State) : Out :=
  placed false true (fun s => if taken then .next (s.jump (s.relative o.toInt)) else .next s.retire) s

def execBeq (_g : BitVec 3) (a b : BitVec 5) (o : BitVec 13) (s : State) : Out :=
  branch (s.core.sreg a == s.core.sreg b) o s
def execBne (_g : BitVec 3) (a b : BitVec 5) (o : BitVec 13) (s : State) : Out :=
  branch (s.core.sreg a != s.core.sreg b) o s
def execBlt (_g : BitVec 3) (a b : BitVec 5) (o : BitVec 13) (s : State) : Out :=
  branch ((s.core.sreg a).slt (s.core.sreg b)) o s
def execBge (_g : BitVec 3) (a b : BitVec 5) (o : BitVec 13) (s : State) : Out :=
  branch (!(s.core.sreg a).slt (s.core.sreg b)) o s
def execBltu (_g : BitVec 3) (a b : BitVec 5) (o : BitVec 13) (s : State) : Out :=
  branch ((s.core.sreg a).ult (s.core.sreg b)) o s
def execBgeu (_g : BitVec 3) (a b : BitVec 5) (o : BitVec 13) (s : State) : Out :=
  branch (!(s.core.sreg a).ult (s.core.sreg b)) o s

def execJmp (_g : BitVec 3) (i : BitVec 18) (s : State) : Out :=
  placed false true (fun s => .next (s.jump (s.relative i.toInt))) s
/-- CALL writes its own address + 1 to sd, usable b+1 (R159). -/
def execCall (_g : BitVec 3) (d : BitVec 5) (i : BitVec 18) (s : State) : Out :=
  placed false true (fun s =>
    .next ((s.giveS d (BitVec.ofNat 64 (s.track.pc + 1))).jump (s.relative i.toInt))) s
def execJr (_g : BitVec 3) (a : BitVec 5) (s : State) : Out :=
  placed false true (fun s => .next (s.jump (s.core.sreg a).toNat)) s

/-- BRQ (R60, R160): z selects the condition, j the join offset. A join word that is itself a BRQ, RESYNC, RENDEZ or GEAR
finds its join still pending on the join beat, and slips.
(DEDUCED, log entry 86). -/
def execBrq (_g : BitVec 3) (a b : BitVec 5) (z : BitVec 1) (j : BitVec 12) (s : State) : Out :=
  placed false true (fun s =>
    let x := (s.core.sreg b).toNat
    let tgt := bits x 17 0
    let join := bits x 35 18
    if 49151 < tgt ∨ 49151 < join then .next s.illegal
    else
      match s.track.join with
      | some (_, jb) => .next (s.raise .slip jb s.now)
      | none =>
        let jb := s.now + s.core.lat j.toNat
        let taken := if z = 0 then decide (s.core.sreg a ≠ 0) else decide (s.core.sreg a = 0)
        if taken then .next (s.jump tgt 1 (some (join, jb))) else .next (s.retire 0 (some (join, jb)))) s

/-! ## Counted loops (R161, R162) -/

/-- KLOOP of k register kn over len words, trip times. -/
def kloopWord (kn len trip : Nat) (s : State) : Out :=
  placed true true (fun s =>
    let t := s.track
    let body := t.pc + 1
    let bad := t.kloops.any fun l =>
      decide (l.kreg = kn) || !(decide (l.body ≤ body) && decide (body + len ≤ l.body + l.len))
    if bad then .next s.illegal
    else if trip = 0 then
      .next (s.onCur fun k =>
        let k := (k.putK kn 0).onTrack .s (Track.issued s.now)
        let k := k.fallS (body + len)
        k.onTrack .s fun t => { t with wait := k.waitFor s.source .s 0 })
    else
      .next (s.onCur fun k =>
        let k := (k.putK kn 0).onTrack .s (Track.issued s.now)
        let k := k.onTrack .s fun t =>
          { t with pc := body,
                   kloops := { body := body, len := len, kreg := kn, count := 0, trip := trip } :: t.kloops }
        k.onTrack .s fun t => { t with wait := k.waitFor s.source .s 0 })) s

def execKloop (_g : BitVec 3) (k : BitVec 2) (l : BitVec 5) (n : BitVec 13) (s : State) : Out :=
  kloopWord k.toNat (l.toNat + 1) n.toNat s
/-- A count above 16,777,215 is illegal on b (R161). -/
def execKloopReg (_g : BitVec 3) (k : BitVec 2) (l r : BitVec 5) (s : State) : Out :=
  if 16777215 < (s.core.sreg r).toNat then .next s.illegal
  else kloopWord k.toNat (l.toNat + 1) (s.core.sreg r).toNat s

/-! ## Fences, barriers, gears -/

/-- CFENCE (R99, R167); one with no class or no track has no effect. -/
def execCfence (_g : BitVec 3) (fs fv fc : BitVec 1) (m : BitVec 16) (s : State) : Out :=
  let f : Fence := { beat := s.now, classes := m, s := fs == 1, v := fv == 1, c := fc == 1 }
  .next (if m = 0 ∨ (fs = 0 ∧ fv = 0 ∧ fc = 0) then s.retire
         else (s.onCur fun k => { k with fences := k.fences ++ [f] }).retire)

/-- BELAY (R56, R57): a member waits, its DOM's tracks held; a core that is no member completes on its
next issue opportunity. -/
def execBelay (_g : BitVec 3) (s : State) : Out :=
  placed false true (fun s =>
    let o := s.org
    let k0 := s.core
    if k0.domEn then
      .next (s.retire.onCur fun k =>
        let k := k.onTrack .s fun t => { t with belay := some o, belays := t.belays + 1 }
        let hold (b : Bool) (t : Track) : Track := if b then { t with held := true } else t
        ((k.onTrack .v (hold (k0.dom.getLsbD 8))).onTrack .m (hold (k0.dom.getLsbD 9))).onTrack .c
          (hold (k0.dom.getLsbD 10)))
    else .next s.retire) s

/-- A track that RESYNC names and that has not issued RENDEZ (R164). -/
def State.resyncNames (s : State) (m : BitVec 4) : List Family :=
  [(Family.s, m.getLsbD 3), (.v, m.getLsbD 2), (.m, m.getLsbD 1), (.c, m.getLsbD 0)].filterMap fun (f, b) =>
    if b && (s.core.track f).live then some f else none

/-- RESYNC (R61, R164). -/
def execResync (_g : BitVec 3) (a : BitVec 5) (m : BitVec 4) (s : State) : Out :=
  placed false true (fun s =>
    let x := (s.core.sreg a).toNat
    let fs := s.resyncNames m
    let bad := s.track.join.isSome || decide (x ≤ s.now) || fs.any fun f =>
      !s.core.opportunity f x || (s.core.track f).mac.isSome || (s.core.track f).mloop.isSome
    if bad then .next (s.raise .slip x s.now)
    else
      .next (s.retire.onCur fun k =>
        fs.foldl (fun k f => k.onTrack f fun t => { t with resync := some (s.now, x) }) k)) s

/-- GEAR opens a settle window of 127 beats (R54, R165); a service context has no gear.
(DESIGN CHOICE, log entry 12). -/
def gearWord (low : Bool) (s : State) : Out :=
  placed false true (fun s =>
    match s.track.join with
    | some (_, jb) => .next (s.raise .slip jb s.now)
    | none =>
      onCore id (fun s =>
        .next (s.retire.onCur fun k =>
          { k with window := some { opened := s.now, low := low }, tele := { k.tele with gears := k.tele.gears + 1 } })) s) s

def execGearH (_g : BitVec 3) (s : State) : Out := gearWord false s
def execGearL (_g : BitVec 3) (s : State) : Out := gearWord true s

/-- COMMIT stages the flip of the recurrent-state buffer (R166); a service context has no step to stage it for.
(DESIGN CHOICE, log entry 12). -/
def execCommit (_g : BitVec 3) (s : State) : Out :=
  onCore id (fun s => .next (s.onPart s.cur.part fun q => { q with flip := true }).retire) s

/-! ## Counters, status, prefetch -/

/-- A step is running, so SLOT and FRAME are not 0 (R21). -/
def Partition.inStep (q : Partition) : Bool := decide (q.phase = .run) && decide (q.step.outcome = .open_)

/-- SLOT (R21). -/
def Partition.slotReg (q : Partition) : Nat :=
  if q.inStep then
    let len := (q.slots.getD q.slot ⟨0, none⟩).us
    len * 2 ^ 32 + q.runner.ctx * 2 ^ 16 + q.step.resident * 2 ^ 8
      + (if q.step.kind = .urgent then 2 ^ 7 else 0) + (if q.step.kind = .owned then 0 else 2 ^ 6) + q.slot
  else 0

/-- GEARST (R53).
(DEDUCED, log entry 67). -/
def Core.gearst (k : Core) (beat : Nat) : Nat :=
  let cur := if k.low then 1 else 0
  match k.window with
  | some w => (w.opened + 128 - beat) * 2 ^ 9 + (if w.low then 4 else 0) + 2 + cur
  | none => cur * 4 + cur

/-- Beat periods in a number of femtoseconds, rounded down (R289). -/
def beatPeriods (fs : Nat) : Nat := fs / 625000

/-- A hold counter (R289): its number counts from select 0x18. -/
def Partition.holdCounter (q : Partition) (n : Nat) : Nat :=
  match n with
  | 0 => q.counts.holds
  | 1 => q.counts.holdt
  | 2 => q.counts.xlath
  | 3 => q.counts.collh
  | 4 => q.counts.replh
  | 5 => q.counts.preh
  | 6 => q.counts.pret
  | _ => beatPeriods q.strtFs

/-- The value RDCTR reads (R130, R168). -/
def State.counter (s : State) (sel : Nat) : W64 :=
  let q := s.part
  let k := s.core
  if sel = 0 then BitVec.ofNat 64 q.topo
  else if sel = 1 then BitVec.ofNat 64 q.slotReg
  else if sel = 2 then (if q.inStep then BitVec.ofNat 64 q.frame else 0)
  else if sel = 3 then BitVec.ofNat 64 (k.gearst s.now)
  else if sel = 4 then k.status
  else if sel = 5 then k.dom
  else if sel < 0x10 then k.qreg (sel - 8)
  else if sel < 0x18 then k.kreg (sel - 0x10)
  else BitVec.ofNat 64 (q.holdCounter (sel - 0x18))

/-- The selects that name a register of a core which no sequencer has: GEARST, STATUS, DOM and the q registers. -/
def coreSelect (sel : Nat) : Bool := decide (3 ≤ sel) && decide (sel < 0x10)

/-- RDCTR (R168); a service context has the k registers of its own sequencer only.
(DESIGN CHOICE, log entry 12). -/
def execRdctr (_g : BitVec 3) (d : BitVec 5) (sel : BitVec 8) (s : State) : Out :=
  if s.cur.svc ∧ coreSelect sel.toNat then .next (s.giveOpen d).retire
  else .next (s.giveS d (s.counter sel.toNat)).retire

/-- STAT reads STATUS, and on b+1 clears the bits sa names (R170); a service context has no STATUS.
(DESIGN CHOICE, log entry 12). -/
def execStat (_g : BitVec 3) (d a : BitVec 5) (s : State) : Out :=
  onCore (·.giveOpen d) (fun s =>
    .next (((s.giveS d s.core.status).emit (s.now + 1) (.statClear (s.core.sreg a &&& 0x1F &&& ~~~s.core.stuck))).retire)) s

/-- XPRE looks its page up and starts a walk on b+1 where it is absent (R172).
(DEDUCED, log entry 23). -/
def execXpre (_g : BitVec 3) (a : BitVec 5) (z : BitVec 1) (s : State) : Out :=
  let va := (s.core.sreg a).toNat
  if devEnd ≤ va then .next s.retire
  else
    match s.translate s.cur.part s.cur.rope va false false with
    | .missing => .next (s.emit (s.now + 1) (.xpre va (z == 1))).retire
    | _ => .next s.retire

/-! ## Stream words (R173 to R178) -/

/-- The stage buffer's entries (R173). -/
def stageSize : Nat := 1024

/-- Stage one stream effect, for the stream id in sa (R173); a service context has no step to stage it for.
(DESIGN CHOICE, log entry 12). -/
def stageWord (sid : Nat) (op : StageOp) (s : State) : Out :=
  if 511 < sid then .next s.illegal
  else
    onCore id (fun s =>
      if stageSize ≤ s.part.stage.length then .next (s.raise .stageFull 0)
      else .next (s.onPart s.cur.part fun q => { q with stage := q.stage ++ [{ org := s.org, op := op }] }).retire) s

def execSfork (_g : BitVec 3) (a : BitVec 5) (s : State) : Out :=
  stageWord (s.core.sreg a).toNat (.fork (s.core.sreg a).toNat) s
def execScancel (_g : BitVec 3) (a : BitVec 5) (s : State) : Out :=
  stageWord (s.core.sreg a).toNat (.cancel (s.core.sreg a).toNat false) s
def execScancelT (_g : BitVec 3) (a : BitVec 5) (s : State) : Out :=
  stageWord (s.core.sreg a).toNat (.cancel (s.core.sreg a).toNat true) s
def execRetract (_g : BitVec 3) (x a : BitVec 5) (s : State) : Out :=
  stageWord (s.core.sreg a).toNat (.retract (s.core.sreg a).toNat (s.core.sreg x).toNat) s

/-- XSTEP stages the step's one request, at the highest priority named (R177); a service context has no step to stage
it for.
(DESIGN CHOICE, log entry 12). -/
def execXstep (_g : BitVec 3) (p : BitVec 2) (s : State) : Out :=
  onCore id (fun s =>
    .next (s.onPart s.cur.part fun q => { q with xstep := some (max p.toNat (q.xstep.getD 0)) }).retire) s

/-- Address of entry sid of the context's stream table (R280). -/
def State.streamAt (s : State) (c sid : Nat) : Nat := s.desc c 72 8 + 128 * sid

/-- A field of a stream-table entry. -/
def State.stream (s : State) (c sid off n : Nat) : Nat := Mem.nat s.mem (s.streamAt c sid + off) n

/-- Write a field of a stream-table entry. -/
def State.setStream (s : State) (c sid off n v : Nat) : State :=
  { s with mem := Mem.putNat s.mem (s.streamAt c sid + off) n v }

/-- The stream is active (R280). -/
def State.active (s : State) (c sid : Nat) : Bool := decide (s.stream c sid 0 1 = 1)

/-- The value POSQ reads: N, Q, E or the context's lag (R178). -/
def State.posq (s : State) (sid sel : Nat) : W64 :=
  let c := s.part.runner.ctx
  if sel = 3 then BitVec.ofNat 64 s.part.runner.lag
  else if sid ≤ 511 ∧ s.active c sid then
    BitVec.ofNat 64 (if sel = 0 then s.stream c sid 8 8 else if sel = 1 then s.stream c sid 16 8 else s.stream c sid 24 4)
  else BitVec.allOnes 64

/-- POSQ (R178); a service context runs no step, so it has no stream and no lag to read.
(DESIGN CHOICE, log entry 12). -/
def execPosq (_g : BitVec 3) (d a : BitVec 5) (sel : BitVec 2) (s : State) : Out :=
  onCore (·.giveOpen d) (fun s => .next (s.giveS d (s.posq (s.core.sreg a).toNat sel.toNat)).retire) s

/-! ## Service words with no other home (R272, R291, R323) -/

/-- WRSYS (R272): the write happens on b+1. -/
def execWrsys (_g : BitVec 3) (a : BitVec 5) (n : BitVec 8) (s : State) : Out :=
  serviceOnly (fun s => .next (s.emit (s.now + 1) (.sysWrite n.toNat (s.core.sreg a))).retire) s

/-- XLATW (R323): a value or operand that breaks its layout is malformed. -/
def execXlatw (_g : BitVec 3) (a i : BitVec 5) (s : State) : Out :=
  serviceOnly (fun s =>
    let v := s.core.sreg a
    let big := v.getLsbD 10
    if v.extractLsb' 0 8 ≠ 0 ∨ (big ∧ (v.extractLsb' 32 5 ≠ 0 ∨ v.extractLsb' 11 5 ≠ 0)) then .next s.illegal
    else .next (s.emit (s.now + 1) (.xlatWrite v i.toNat)).retire) s

/-- XLATI (R323). -/
def execXlati (_g : BitVec 3) (a : BitVec 5) (l : BitVec 1) (i : BitVec 5) (s : State) : Out :=
  serviceOnly (fun s => .next (s.emit (s.now + 1) (.xlatClear (s.core.sreg a) i.toNat (l == 1))).retire) s

/-- HOLDX marks a cause of the current hold as serviced; for another cause it does nothing (R291). -/
def execHoldx (_g : BitVec 3) (c : BitVec 2) (s : State) : Out :=
  serviceOnly (fun s =>
    .next (s.onPart s.cur.part fun q =>
      match q.hold with
      | some h =>
        if h.causes.contains c.toNat ∧ !h.serviced.contains c.toNat then
          { q with hold := some { h with serviced := h.serviced ++ [c.toNat] } }
        else q
      | none => q).retire) s

/-! ## System registers (R274, R275) -/

/-- GRIDST (R275). -/
def Partition.gridst (q : Partition) : Nat :=
  q.frame % 2 ^ 32 * 2 ^ 32 + q.slots.length * 2 ^ 16 + q.slot * 2 ^ 8 + (if q.local_ then 2 ^ 6 else 0)

/-- Bit r - lo of a ROPES register: rope r belongs to the partition. -/
def ropesMask (lo : Nat) : List Nat → Nat
  | [] => 0
  | r :: rs => (if lo ≤ r ∧ r < lo + 64 then 2 ^ (r - lo) else 0) + ropesMask lo rs

/-- Bit k of PENDj: context 64 j + k has a pending notify (R278). -/
def pendWord (m : SMap Bool) (j : Nat) : Nat :=
  (range 0 64).foldl (fun x k => if SMap.get false m (64 * j + k) then x + 2 ^ k else x) 0

/-- System register n of partition p (R274). -/
def State.sysReg (s : State) (p n : Nat) : W64 :=
  let q := s.partAt p
  BitVec.ofNat 64 <|
    if n = 0 then p + s.nparts * 2 ^ 8
    else if n = 1 then ropesMask 0 q.ropes
    else if n = 2 then ropesMask 64 q.ropes
    else if n = 3 then s.ctxbase.getD 0
    else if n = 4 then q.gridst
    else if n = 5 then q.epoch
    else if 0x10 ≤ n ∧ n < 0x20 then pendWord s.pend (n - 0x10)
    else if 0x20 ≤ n ∧ n < 0x40 then (SMap.get 0 q.resmap (n - 0x20)).toNat
    else 0

/-- RDSYS (R272). -/
def execRdsys (_g : BitVec 3) (d : BitVec 5) (n : BitVec 8) (s : State) : Out :=
  serviceOnly (fun s => .next (s.giveS d (s.sysReg s.cur.part n.toNat)).retire) s

end Sys2Proof.Machine
end

