-- ==== Sys2Proof/Machine/Rows.lean ====
section
/-!
DEFINITION. The V track's operand forms (R180 to R184): rows and their windows, lanes, predicates, the
word type, and the shape that every word writing a row shares.
-/

namespace Sys2Proof.Machine

/-! ## Rows -/

/-- A row of accumulator memory. -/
structure Place where
  bank : Nat
  row : Nat
deriving DecidableEq, Repr, Inhabited

/-- Address of a row (R74). -/
def Place.addr (x : Place) : Nat := x.bank * 0x4000 + x.row * 0x100

/-- Physical row of name n, 0 to 63 (R63).
(DEDUCED, log entry 21). -/
def Core.physRow (k : Core) (n : Nat) : Nat := if n < 32 then n else 32 + (n - 32 + k.rb) % 32

/-- Physical predicate of name n, 0 to 127 (R63). -/
def Core.physPred (k : Core) (n : Nat) : Nat := if n < 64 then n else 64 + (n - 64 + k.pb) % 64

/-- Bits of the operand map (R134). -/
def mapVd : Nat := 2
def mapVa : Nat := 1
def mapVb : Nat := 0

/-- The row a field names, by the map bit of its position (R82, R134). -/
def Core.place (k : Core) (bit : Nat) (n : BitVec 6) : Place :=
  { bank := if k.omap.getLsbD bit then k.wwin else k.vwin, row := k.physRow n.toNat }

/-- The same physical row of the other window than a vd field names (R187). -/
def Core.otherPlace (k : Core) (n : BitVec 6) : Place :=
  { bank := if k.omap.getLsbD mapVd then k.vwin else k.wwin, row := k.physRow n.toNat }

/-- The 256 bytes of a row; a row of an unallocated bank reads as zero (R79). -/
def Core.rowBytes (k : Core) (x : Place) : List Byte :=
  if k.allocated x.bank then Mem.bytes k.acc x.addr 256 else zeros 256

/-- The elements of a row for a type: size z bytes each. -/
def lanesOf (z : Nat) (bs : List Byte) : List Nat := (pieces z 256 bs).map leNat

/-- The bytes of a list of lanes. -/
def lanesToBytes (z : Nat) (ls : List Nat) : List Byte := ls.flatMap (toLe z)

/-- A row's lanes. -/
def Core.rowLanes (k : Core) (z : Nat) (x : Place) : List Nat := lanesOf z (k.rowBytes x)

/-! ## Types and predicates -/

/-- INT32's code: T where no bank gives one (R181). -/
def codeInt32 : BitVec 6 := 6

/-- T of a word from its destination bank (R181). -/
def Core.destType (k : Core) (n : Nat) : BitVec 6 := if k.allocated n then (k.bank n).type else codeInt32

/-- T of a word from a source bank, with the bank that serves when that one is unallocated (R181). -/
def Core.sourceType (k : Core) (n m : Nat) : BitVec 6 := if k.allocated n then (k.bank n).type else k.destType m

/-- FP32, BF16, FP16. -/
def isFloat (t : BitVec 6) : Bool := decide (1 ≤ t.toNat) && decide (t.toNat ≤ 3)

/-- INT8, INT16, INT32. -/
def isInt (t : BitVec 6) : Bool := decide (4 ≤ t.toNat) && decide (t.toNat ≤ 6)

/-- Every type. -/
def anyType (_ : BitVec 6) : Bool := true

/-- The predicate of a selector: all ones for 0, p1 to p7, and p64 to p71 through the rotation (R128). -/
def Core.selected (k : Core) (p : BitVec 4) : Mask :=
  if p = 0 then BitVec.allOnes 256
  else if p.toNat < 8 then k.predReg p.toNat
  else k.predReg (k.physPred (56 + p.toNat))

/-- Lanes from i on: the new value where active, else zero or the old one (R183). -/
def mergeLanes (m : Mask) (z : Bool) : Nat → List Nat → List Nat → List Nat
  | _, [], _ => []
  | _, o :: os, [] => o :: os
  | i, o :: os, r :: rs => (if m.getLsbD i then r else if z then 0 else o) :: mergeLanes m z (i + 1) os rs

/-- Whether any of lanes 0 to n - 1 is active. -/
def anyActive (m : Mask) : Nat → Bool
  | 0 => false
  | n + 1 => m.getLsbD n || anyActive m n

/-! ## Reads and their checks (R184) -/

/-- Check the read of one row: its band, the early-read table, poison; an unallocated bank has no band and no
contents, and sets UNALLOC-READ. The Bool says whether the word may go on.
(DEDUCED, log entry 75). -/
def State.checkRow (s : State) (x : Place) : State × Bool :=
  let k := s.core
  if k.allocated x.bank && decide ((k.bank x.bank).owner x.row ≠ 0) then (s.raise .band x.bank x.row, false)
  else
    match k.earlyHit .acc x.addr (x.addr + 256) s.now .v with
    | some e => (s.raiseAt s.cur.part .earlyRead (laterOf s.org e.org) x.addr e.perform, false)
    | none =>
      let s := s.onCur fun k => k.keepRead .acc x.addr (x.addr + 256) s.org
      if !k.allocated x.bank then (s.onCur fun k => k.sticky stUnallocRead, true)
      else
        let (s, m) := s.eccRead s.cur.rope s.cur.core .acc x.addr 256
        if m = 2 then (s.dataError s.cur.part s.cur.rope s.cur.core .acc x.addr 256 s.org, false) else (s, true)

/-- Check the reads of several rows, each distinct row once: row by row in the order in which they are given, va before vb
before vd, and of a row its band, then the early-read table, then its poison.
(DEDUCED, log entry 19). -/
def State.checkRows (s : State) (xs : List Place) : State × Bool :=
  xs.eraseDups.foldl (fun (s, ok) x => if ok then s.checkRow x else (s, false)) (s, true)

/-- Schedule the write of a row for its usable beat minus 1 (R180), recorded by the early-read checker. -/
def State.emitRow (s : State) (x : Place) (bs : List Byte) (lat : Nat) : State :=
  let act := s.now + s.core.lat lat - 1
  (s.onCur fun k => k.erRecord .acc x.addr (x.addr + 256) act s.org).emit act (.row x.bank x.row bs)

/-! ## The shape of a word that writes a row -/

/-- A word that writes row vd: its type check, its reads and their checks, then the row of lanes from f
merged under the predicate. T and the destination's type may differ only where f says so; types is
asked of T, and only when the destination bank is allocated (R181, R182). reads are the source rows;
acc adds the destination to them (R184). -/
def rowWord (types : BitVec 6 → Bool) (lat : Nat) (p : BitVec 4) (z : BitVec 1) (d : BitVec 6) (acc : Bool)
    (reads : Core → List Place) (f : Core → BitVec 6 → List Nat) (s : State) : Out :=
  let k := s.core
  let x := k.place mapVd d
  let t := k.destType x.bank
  if k.allocated x.bank && !types t then .next (s.raise .type t.toNat)
  else
    windowed (fun s =>
      let merges := decide (p ≠ 0) && decide (z = 0)
      let (s, ok) := s.checkRows (reads k ++ if acc || merges then [x] else [])
      if ok then
        let e := elemSize t
        let r := mergeLanes (k.selected p) (z == 1) 0 (k.rowLanes e x) (f k t)
        .next (s.emitRow x (lanesToBytes e r) lat).retire
      else .next s) s

/-- A lane-wise word of one source. -/
def laneUnary (types : BitVec 6 → Bool) (lat : Nat) (f : BitVec 6 → Nat → Nat) (p : BitVec 4) (z : BitVec 1)
    (d a : BitVec 6) (s : State) : Out :=
  rowWord types lat p z d false (fun k => [k.place mapVa a])
    (fun k t => (k.rowLanes (elemSize t) (k.place mapVa a)).map (f t)) s

/-- A lane-wise word of two sources. -/
def laneBinary (types : BitVec 6 → Bool) (lat : Nat) (f : BitVec 6 → Nat → Nat → Nat) (p : BitVec 4) (z : BitVec 1)
    (d a b : BitVec 6) (s : State) : Out :=
  rowWord types lat p z d false (fun k => [k.place mapVa a, k.place mapVb b])
    (fun k t => List.zipWith (f t) (k.rowLanes (elemSize t) (k.place mapVa a)) (k.rowLanes (elemSize t) (k.place mapVb b)))
    s

/-- A lane-wise word of two sources and the destination. -/
def laneTernary (types : BitVec 6 → Bool) (lat : Nat) (f : BitVec 6 → Nat → Nat → Nat → Nat) (p : BitVec 4)
    (z : BitVec 1) (d a b : BitVec 6) (s : State) : Out :=
  rowWord types lat p z d true (fun k => [k.place mapVa a, k.place mapVb b])
    (fun k t => List.zipWith (fun ab c => f t ab.1 ab.2 c)
      (List.zip (k.rowLanes (elemSize t) (k.place mapVa a)) (k.rowLanes (elemSize t) (k.place mapVb b)))
      (k.rowLanes (elemSize t) (k.place mapVd d))) s

/-- Lane width in bits of a type. -/
def laneBits (t : BitVec 6) : Nat := 8 * elemSize t

/-- Lanes per row of a type. -/
def laneCount (t : BitVec 6) : Nat := 256 / elemSize t

/-- A word whose s registers are lane indices: each carries its residue on b, or the residue fault is raised (R333), before
the checks of the word's rows.
(DEDUCED, log entry 19). -/
def indexed (regs : List (BitVec 5)) (k : State → Out) (s : State) : Out :=
  windowed (fun s =>
    match s.core.baseBad regs 0 with
    | some x => .next (s.raise .residue x.1 x.2)
    | none => k s) s

/-- The register that a VS operand names, if it names one (R199). -/
def vsRegs (i : BitVec 1) (x : BitVec 5) : List (BitVec 5) := if i = 1 then [] else [x]

/-- The operand x of a VS word: imm5 or an s register (R199). -/
def State.vsOperand (s : State) (i : BitVec 1) (x : BitVec 5) : Nat := if i = 1 then x.toNat else (s.core.sreg x).toNat

end Sys2Proof.Machine
end

