-- ==== Sys2Proof/Machine/Matrix.lean ====
section
/-!
DEFINITION. The M track's words (R212 to R229): ring heads and their checks, the accumulating words from
their issue to what they leave in flight, banks, rings, scales, modes, and the pitch that retains them.
-/

namespace Sys2Proof.Machine

/-! ## Rings (R83, R84) -/

/-- POP of a ring register. -/
def ringPop (q : W64) : Nat := bits q.toNat 63 56
/-- PUSH. -/
def ringPush (q : W64) : Nat := bits q.toNat 55 48
/-- Entry count 2^LCOUNT. -/
def ringCount (q : W64) : Nat := 2 ^ bits q.toNat 47 44
/-- SIZE, in 256-B units. -/
def ringSize (q : W64) : Nat := bits q.toNat 39 32
/-- BASE as an address. -/
def ringBase (q : W64) : Nat := bits q.toNat 18 8 * 256
/-- A ring register with its reserved bits as they read (R4, R83). -/
def ringFields (v : W64) : W64 := v &&& 0xFFFFF0FF0007FF00#64
/-- Scratchpad address of entry i. -/
def ringEntry (q : W64) (i : Nat) : Nat := ringBase q + i % ringCount q * ringSize q * 256

/-- Tag state of entry i of ring n (R68). -/
def Core.tag (k : Core) (n i : Nat) : Tag := SMap.get { tag := 0, full := false } k.tags (256 * n + i)

/-- Replace the tag state of an entry. -/
def Core.setTag (k : Core) (n i : Nat) (t : Tag) : Core :=
  { k with tags := SMap.set { tag := 0, full := false } k.tags (256 * n + i) t }

/-- Write a ring register. -/
def Core.putQ (k : Core) (n : Nat) (v : W64) : Core := { k with qregs := SMap.set 0 k.qregs n v }

/-- One pop: POP rises by 1 and the head's FULL bit clears (R84). -/
def Core.popOne (k : Core) (n : Nat) : Core :=
  let q := k.qreg n
  let i := ringPop q % ringCount q
  let k := k.setTag n i { k.tag n i with full := false }
  k.putQ n (BitVec.ofNat 64 (setBits q.toNat 63 56 (ringPop q + 1)))

/-- n pops of a ring. -/
def Core.pops (k : Core) (q : Nat) : Nat → Core
  | 0 => k
  | n + 1 => (k.popOne q).pops q n

/-- The push of a CPYQ: PUSH rises by 1 (R84). -/
def Core.push (k : Core) (n : Nat) : Core :=
  let q := k.qreg n
  k.putQ n (BitVec.ofNat 64 (setBits q.toNat 55 48 (ringPush q + 1)))

/-- QINIT: the register written, with POP and PUSH 0, and every entry's FULL bit clear (R227). -/
def Core.ringReset (k : Core) (n : Nat) (v : W64) : Core :=
  (range 0 256).foldl (fun k i => k.setTag n i { k.tag n i with full := false })
    (k.putQ n (BitVec.ofNat 64 (setBits (setBits v.toNat 63 56 0) 55 48 0)))

/-! ## The pitch (R219, R339) -/

/-- A pitch with nothing in it. -/
def Pitch.empty : Pitch := { commands := [], banks := [], shadow := [], entries := [], pushed := false, touched := [] }

/-- Commands and banks that one pitch holds. -/
def pitchCommands : Nat := 64
def pitchBanks : Nat := 4

/-- A command enters the pitch, writing banks bs and reading ring entries es; it opens a new one when none is open, when it
is the 65th or when it would write a fifth bank (R339). What was written before the pitch opened is no matter of it (R341). -/
def Pitch.add (x : Pitch) (c : PitchCmd) (bs : List Nat) (es : List (Nat × Nat)) : Pitch :=
  let opens := x.commands.isEmpty || decide (pitchCommands ≤ x.commands.length)
    || decide (pitchBanks < (x.banks ++ bs).eraseDups.length)
  let x := if opens then Pitch.empty else x
  { x with commands := x.commands ++ [c], banks := (x.banks ++ bs).eraseDups, entries := x.entries ++ es }

/-- The running word enters the pitch of its core. -/
def State.retain (s : State) (c : PitchCmd) (bs : List Nat) (es : List (Nat × Nat)) : State :=
  s.onCur fun k => { k with pitch := k.pitch.add c bs es }

/-- The running word, retained with no bytes of its own. -/
def State.retainOther (s : State) : State := s.retain (.other s.org) [] []

/-- The pitch of a core closes (R339). -/
def Core.closePitch (k : Core) : Core := { k with pitch := .empty }

/-! ## The accumulating words (R212 to R217) -/

/-- The first failing check of a list. -/
def State.firstOf (s : State) (cs : List (State → Option State)) : Option State := cs.findSome? fun c => c s

/-- The gear factor g of R213. -/
def Core.gearFactor (k : Core) : Nat := if k.low then 4 else 1

/-- The array is occupied on beat b. -/
def Core.arrayBusy (k : Core) (b : Nat) : Bool :=
  match k.busyTo with
  | some p => decide (b ≤ p)
  | none => false

/-- The array is warm on beat b (R218).
(DEDUCED, log entry 27). -/
def Core.warm (k : Core) (b : Nat) : Bool :=
  let g := k.gearFactor
  (match k.busyTo with
    | some p => decide (b ≤ p + 256 * g)
    | none => false)
  || k.ramps.any fun r => decide (b ≤ r + 512 * g) && decide (r + 64 * g ≤ b)

/-- What the four tile words and MGRP differ in (R214): rings, bank, selector, format-table entry where
the word takes one, operand formats, scales, the accumulator type it demands, and writeback mode. -/
structure TileWord where
  qa : Nat
  qb : Nat
  bank : Nat
  sel : BitVec 4
  entry : Option Nat
  fmt : TileFormat
  scaleA : Bool
  scaleB : Bool
  acc : Option (BitVec 6)
  mode : BitVec 3
  sat : Bool

/-- The ring-shape check of one ring: SIZE below 16 (R212). -/
def shapeBad (q : Nat) (s : State) : Option State :=
  let z := ringSize (s.core.qreg q)
  if z < 16 then some (s.raise .ringShape q z) else none

/-- The format check of R116. -/
def formatBad (t : TileWord) (s : State) : Option State :=
  let b := s.core.bank t.bank
  match t.entry with
  | some e =>
    if SMap.get 0 s.core.fregs e = 0 then some (s.raise .format e b.type.toNat)
    else if b.type ≠ 0 ∧ t.acc ≠ some b.type then some (s.raise .format e b.type.toNat)
    else none
  | none => if b.type ≠ 0 ∧ !isFloat b.type then some (s.raise .format t.bank b.type.toNat) else none

/-- The array must be free on b (R50, R67). -/
def arrayBad (s : State) : Option State :=
  if s.core.arrayBusy s.now then some (s.raise .schedule (2 ^ 64 - 1) 0) else none

/-- The head check of R68 for the entry u places behind the head. -/
def headBad (q u : Nat) (s : State) : Option State :=
  let r := s.core.qreg q
  let i := (ringPop r + u) % ringCount r
  let want := (ringPop r + u) % 256
  let t := s.core.tag q i
  if t.full ∧ t.tag.toNat = want then none
  else some (s.raise .schedule (q + 256 * want + 65536 * t.tag.toNat + (if t.full then 2 ^ 24 else 0)) i)

/-- The columns written (R215). -/
def State.columns (s : State) (sel : BitVec 4) : BitVec 64 :=
  if sel = 0 ∨ (8 ≤ sel.toNat ∧ s.inKernel) then BitVec.allOnes 64 else (s.core.selected sel).extractLsb' 0 64

/-- The 64 scales of a side, as they stand. -/
def scalesOf (m : SMap W16) : List W16 := (range 0 64).map (SMap.get 0 m)

/-- An accumulating word that passed its checks starts (R213): it occupies the array, fixes its addresses
and operands, and leaves its chunks, pops and writeback in flight. rows is how many rows it writes, popB
its pops of ring B; table is MGRP's group table, by address and bytes. -/
def startAcc (t : TileWord) (bs : List BTile) (rows popB : Nat) (table : Option (Nat × List Byte)) (s : State) : State :=
  let k := s.core
  let b := s.now
  let g := k.gearFactor
  let cold := if k.warm b then 0 else 96
  let last := b + g * (cold + 32) - 1
  let w := b + g * (cold + 56)
  let ra := k.qreg t.qa
  let rb := k.qreg t.qb
  let cols := s.columns t.sel
  let type := (k.bank t.bank).type
  let writes := decide (rows ≠ 0) && decide (cols ≠ 0)
  let a : AccOp :=
    { org := s.org, gear := g, cold := cold, start := b, last := last, bank := t.bank, rows := rows, cols := cols, fmt := t.fmt,
      acc := if type ≠ 0 then type else t.acc.getD 1, mode := t.mode, sat := t.sat,
      sA := if t.scaleA then scalesOf k.sA else [], sB := if t.scaleB then scalesOf k.sB else [],
      aAddr := ringEntry ra (ringPop ra), bTiles := bs, next := 0, aBytes := [], bBytes := bs.map fun _ => [],
      w := w, table := table.map (·.1), tableBytes := (table.map (·.2)).getD [], ringB := rb }
  let es := (t.qa, ringPop ra % ringCount ra) :: (range 0 popB).map fun u => (t.qb, (ringPop rb + u) % ringCount rb)
  let s := s.onCur fun k =>
    { k with accops := k.accops ++ [a], busyTo := some last,
             tele := { k.tele with cold := k.tele.cold + if cold = 0 then 0 else 1 } }
  let s := s.retain (.acc a) (if writes then [t.bank] else []) es
  let s := if writes then
      s.onCur fun k => k.erRecord .acc (t.bank * 0x4000) (t.bank * 0x4000 + rows * 0x100) w s.org
    else s
  let s := s.emit last (.ringPop t.qa 1)
  (if popB = 0 then s else s.emit last (.ringPop t.qb popB)).retire

/-- A tile word (R214): one B tile for all its rows. -/
def tileWord (t : TileWord) (rows : Nat) (s : State) : Out :=
  windowed (fun s =>
    match s.firstOf [shapeBad t.qa, shapeBad t.qb, formatBad t, arrayBad, headBad t.qa 0, headBad t.qb 0] with
    | some f => .next f
    | none =>
      let rb := s.core.qreg t.qb
      .next (startAcc t [{ addr := ringEntry rb (ringPop rb), first := 0, count := rows }] rows 1 none s)) s

/-- Two equal formats, for the words that name one. -/
def sameFormat (c : BitVec 6) : TileFormat := { a := c, b := c, k := if 0x20 ≤ c.toNat then 64 else 32 }

/-- Format codes of BF16 and FP16 (R104). -/
def codeBf16 : BitVec 6 := 2
def codeFp16 : BitVec 6 := 3

/-- A tile word with operands of one format and the M track's writeback mode. -/
def plainTile (s : State) (c : BitVec 6) (scaled : Bool) (sel : BitVec 4) (a b : BitVec 3) (k : BitVec 6) : TileWord :=
  { qa := a.toNat, qb := b.toNat, bank := k.toNat, sel := sel, entry := none, fmt := sameFormat c, scaleA := scaled,
    scaleB := scaled, acc := none, mode := s.core.mmode, sat := s.core.msat }

def execMmaBf16 (_g : BitVec 3) (a b : BitVec 3) (k r : BitVec 6) (sc : BitVec 1) (p : BitVec 4) (s : State) : Out :=
  tileWord (plainTile s codeBf16 (sc == 1) p a b k) (r.toNat + 1) s
def execMmaFp16 (_g : BitVec 3) (a b : BitVec 3) (k r : BitVec 6) (sc : BitVec 1) (p : BitVec 4) (s : State) : Out :=
  tileWord (plainTile s codeFp16 (sc == 1) p a b k) (r.toNat + 1) s
/-- MMA.B8: one binary8 format, no selector and no scales (R214). -/
def execMmaB8 (_g : BitVec 3) (a b : BitVec 3) (k r : BitVec 6) (u x : BitVec 1) (f : BitVec 3) (s : State) : Out :=
  tileWord (plainTile s ((1#1 ++ u ++ x ++ f : BitVec 6)) false 0 a b k) (r.toNat + 1) s

/-- The accumulator type of a format-table entry's ACC field (R115). -/
def accType (x : Nat) : BitVec 6 := BitVec.ofNat 6 (x + 1)

/-- MMAT takes its formats, scales, accumulator type and mode from entry k6 mod 16 (R115, R214). -/
def execMmat (_g : BitVec 3) (a b : BitVec 3) (k r : BitVec 6) (p : BitVec 4) (s : State) : Out :=
  let e := (s.core.kreg 6).toNat % 16
  let f := (SMap.get 0 s.core.fregs e).toNat
  let fa : BitVec 6 := BitVec.ofNat 6 (bits f 31 26)
  let t : TileWord :=
    { qa := a.toNat, qb := b.toNat, bank := k.toNat, sel := p, entry := some e,
      fmt := { sameFormat fa with b := BitVec.ofNat 6 (bits f 25 20) },
      scaleA := f.testBit 18, scaleB := f.testBit 19, acc := some (accType (bits f 17 16)),
      mode := BitVec.ofNat 3 (bits f 15 13), sat := f.testBit 12 }
  tileWord t (r.toNat + 1) s

/-! ## MGRP (R216, R217) -/

/-- The group table is legal (R217): G and the counts inside their limits, and nothing else set. -/
def groupsOk (t : List Byte) : Bool :=
  let c := (t.take 8).map BitVec.toNat
  let g := (t.getD 8 0).toNat
  decide (g ≤ 8) && c.all (fun x => decide (x ≤ 64)) && decide (c.sum ≤ 64) && (c.drop g).all (fun x => decide (x = 0))
    && (t.drop 9).all (fun x => decide (x = 0))

/-- The B tiles of groups u, u + 1, …, whose rows begin at r (R216). -/
def groupTiles (q : W64) : Nat → Nat → List Nat → List BTile
  | _, _, [] => []
  | u, r, c :: cs => { addr := ringEntry q (ringPop q + u), first := r, count := c } :: groupTiles q (u + 1) (r + c) cs

/-- The word's address checks on its group table: residue, space, alignment (R216, R333). -/
def tableBad (a : BitVec 5) (s : State) : Option State := s.memBad .spad [a] (s.core.sreg a).toNat 16

/-- An uncorrectable read for the matrix engine, at address a with its space code: a replay is due before the next
beat (R337, R340). -/
def Core.askReplay (k : Core) (y : Nat) (o : Origin) (a : Nat) : Core := { k with replay := k.replay ++ [(y, o, a)] }

/-- A matrix read of [a, a + n) of a core's scratchpad on beat y: corrected errors show in STATUS, and poison asks for
a replay (R335, R337). -/
def State.engineEcc (s : State) (r c y : Nat) (a n : Nat) (o : Origin) : State :=
  let (s, m) := s.eccRead r c .spad a n
  if m = 2 then s.onCore r c fun k => k.askReplay y o (Space.spad.tagged (eccBadAt k.spadEcc 8 a n)) else s

/-- Read the 16 bytes of the group table on b (R216).
(DEDUCED, log entry 35). -/
def State.readTable (s : State) (ea : Nat) : State × List Byte :=
  let s := s.earlyCheck s.cur.part s.cur.rope s.cur.core .spad ea (ea + 16) s.org
  let s := s.takeRead s.cur.part s.cur.rope s.cur.core .spad ea s.org
  let s := s.engineEcc s.cur.rope s.cur.core s.now ea 16 s.org
  (s, Mem.bytes s.core.spad ea 16)

/-- MGRP over tiles of one format (R216).
(DEDUCED, log entry 31). -/
def groupWord (c : BitVec 6) (a b : BitVec 3) (k : BitVec 6) (sn : BitVec 5) (p : BitVec 4) (s : State) : Out :=
  windowed (fun s =>
    match s.firstOf [shapeBad a.toNat, shapeBad b.toNat, tableBad sn] with
    | some f => .next f
    | none =>
      let ea := (s.core.sreg sn).toNat
      let (s, bs) := s.readTable ea
      let g := (bs.getD 8 0).toNat
      let rb := s.core.qreg b.toNat
      let t := plainTile s c false p a b k
      if !groupsOk bs then .next (s.raise .groupBounds ea)
      else if ringCount rb < g then .next (s.raise .ringShape b.toNat (ringSize rb))
      else
        match s.firstOf ([formatBad t, arrayBad, headBad t.qa 0] ++ (range 0 g).map (headBad t.qb)) with
        | some f => .next f
        | none =>
          let cs := ((bs.take 8).map BitVec.toNat).take g
          .next (startAcc t (groupTiles rb 0 0 cs) cs.sum g (some (ea, bs)) s)) s

def execMgrpBf16 (_g : BitVec 3) (a b : BitVec 3) (k : BitVec 6) (sn : BitVec 5) (p : BitVec 4) (s : State) : Out :=
  groupWord codeBf16 a b k sn p s
def execMgrpFp16 (_g : BitVec 3) (a b : BitVec 3) (k : BitVec 6) (sn : BitVec 5) (p : BitVec 4) (s : State) : Out :=
  groupWord codeFp16 a b k sn p s

/-! ## Warmth, scales, entries, modes (R218 to R222) -/

def execRamp (_g : BitVec 3) (s : State) : Out :=
  windowed (fun s =>
    .next (s.retainOther.onCur fun k =>
      { k with ramps := s.now :: k.ramps, tele := { k.tele with ramps := k.tele.ramps + 1 } }).retire) s

/-- TSTART opens a new pitch and changes no visible state (R219). -/
def execTstart (_g : BitVec 3) (s : State) : Out := windowed (fun s => .next (s.onCur Core.closePitch).retire) s

/-- MSCALE (R220): b selects the B side. Its address register's residue is judged on the sample's beat (R333). -/
def scaleWord (b : Bool) (sn : BitVec 5) (s : State) : Out :=
  windowed (fun s =>
    let ea := (s.core.sreg sn).toNat
    match s.addrFault .spad ea 128 with
    | some f => .next f
    | none =>
      let g := s.core.gearFactor
      .next ((s.retain (.scale s.org b ea (s.now + g) (s.now + 2 * g)) [] []).emit (s.now + g)
        (.scaleLoad b ea (s.now + 2 * g)) (s.core.baseBad [sn] (Space.spad.tagged ea))).retire) s

def execMscaleA (_g : BitVec 3) (sn : BitVec 5) (s : State) : Out := scaleWord false sn s
def execMscaleB (_g : BitVec 3) (sn : BitVec 5) (s : State) : Out := scaleWord true sn s

/-- A format-table value with its reserved bits as they read (R4, R115). -/
def entryFields (v : W32) : W32 := v &&& 0xFFFFF000#32

/-- A format-table value is valid (R116). -/
def entryValid (v : Nat) : Bool :=
  let a : BitVec 6 := BitVec.ofNat 6 (bits v 31 26)
  let b : BitVec 6 := BitVec.ofNat 6 (bits v 25 20)
  let b8 (c : BitVec 6) : Bool := decide (0x20 ≤ c.toNat) && decide (c.toNat % 8 ≠ 0)
  (decide (a = codeBf16 ∧ b = codeBf16) || decide (a = codeFp16 ∧ b = codeFp16) || (b8 a && b8 b))
    && decide (bits v 17 16 ≠ 3) && decide (bits v 15 13 ≤ 4) && decide (bits v 11 0 = 0)

/-- FTSET's value is a descriptor: one that is not valid makes the word malformed, then its residue is judged (R116, R140,
R141, R221, R333).
(DEDUCED, log entry 31). -/
def execFtset (_g : BitVec 3) (e : BitVec 4) (sn : BitVec 5) (s : State) : Out :=
  let v : W32 := (s.core.sreg sn).setWidth 32
  if entryValid v.toNat then
    indexed [sn] (fun s => .next (s.retainOther.emit (s.now + s.core.gearFactor) (.ftab e.toNat v)).retire) s
  else .next s.illegal

def execRmode (_g : BitVec 3) (sat : BitVec 1) (m : BitVec 3) (s : State) : Out :=
  windowed (fun s => .next (s.retainOther.emit (s.now + s.core.gearFactor) (.rmode m (sat == 1))).retire) s

/-! ## Banks (R223 to R226) -/

/-- Beats from a BFREE's issue until its bank can be allocated, in high gear (R50). -/
def freeBeats : Nat := 65

def execBalloc (_g : BitVec 3) (k t : BitVec 6) (o : BitVec 8) (s : State) : Out :=
  windowed (fun s =>
    let x := s.core.bank k.toNat
    if x.type ≠ 0 ∨ s.now < x.freeFrom then .next (s.raise .allocation k.toNat)
    else .next (s.retainOther.emit (s.now + s.core.gearFactor) (.alloc k.toNat t o)).retire) s

/-- Record rows i to n - 1 of a bank, written g beats apart from beat a on (R69, R224, R226). -/
def Core.recordRows (k : Core) (bank a g : Nat) (o : Origin) (rows : List Nat) : Core :=
  rows.foldl (fun k i =>
    k.erRecord .acc (bank * 0x4000 + i * 0x100) (bank * 0x4000 + i * 0x100 + 0x100) (a + g * i) o) k

def execBfree (_g : BitVec 3) (k : BitVec 6) (s : State) : Out :=
  windowed (fun s =>
    let g := s.core.gearFactor
    if s.core.allocated k.toNat then
      let s := s.retain (.zero s.org k.toNat (s.now + g) 64 g) [k.toNat] []
      let s := s.onCur fun c => c.recordRows k.toNat (s.now + g) g s.org (range 0 64)
      .next ((s.emit (s.now + g) (.free k.toNat (s.now + freeBeats * g))).emit (s.now + g)
        (.zeroRows k.toNat 0 64 g true)).retire
    else .next s.retainOther.retire) s

def execBband (_g : BitVec 3) (k : BitVec 6) (o : BitVec 8) (s : State) : Out :=
  windowed (fun s =>
    if s.core.allocated k.toNat then
      .next (s.retainOther.emit (s.now + s.core.gearFactor) (.owners k.toNat o)).retire
    else .next (s.raise .allocation k.toNat)) s

def execMzero (_g : BitVec 3) (k r : BitVec 6) (s : State) : Out :=
  windowed (fun s =>
    let g := s.core.gearFactor
    let n := r.toNat + 1
    let s := s.retain (.zero s.org k.toNat (s.now + g) n g) [k.toNat] []
    let s := s.onCur fun c => c.recordRows k.toNat (s.now + g) g s.org (range 0 n)
    .next (s.emit (s.now + g) (.zeroRows k.toNat 0 n g false)).retire) s

/-! ## Ring words (R227, R228) -/

/-- QINIT's checks (R84, R227, R333): the value's residue, its reserved bits, SIZE and LCOUNT, then its region.
(DEDUCED, log entry 31). -/
def ringBad (sn : BitVec 5) (s : State) : Option State :=
  let v := s.core.sreg sn
  let n := v.toNat
  match s.core.firstBad [sn] with
  | some r => some (s.raise .residue (Space.spad.tagged (ringBase v)) (s.core.residueDetail r))
  | none =>
    if bits n 63 48 ≠ 0 ∨ bits n 43 40 ≠ 0 ∨ bits n 31 19 ≠ 0 ∨ bits n 7 0 ≠ 0 ∨ ringSize v = 0 ∨ 8 < bits n 47 44 then
      some s.illegal
    else if spadEnd < ringBase v + ringCount v * ringSize v * 256 then
      some (s.raise .addressRange (ringBase v) (ringCount v * ringSize v * 256))
    else none

def execQinit (_g : BitVec 3) (q : BitVec 3) (sn : BitVec 5) (s : State) : Out :=
  windowed (guarded (ringBad sn) fun s => (s.retainOther.emit s.now (.ringInit q.toNat (s.core.sreg sn))).retire) s

/-- QSKIP pops the head with no check but its ring's SIZE (R228). -/
def execQskip (_g : BitVec 3) (q : BitVec 3) (s : State) : Out :=
  windowed (fun s =>
    if ringSize (s.core.qreg q.toNat) = 0 then .next (s.raise .ringShape q.toNat 0)
    else .next (s.retainOther.emit s.now (.ringPop q.toNat 1)).retire) s

/-! ## The product (R119) -/

/-- The exact sum of a group of products. -/
def groupSum (fa fb : Fmt) (as bs : List Nat) : FVal :=
  FVal.sum (List.zipWith (fun a b => FVal.mul (fa.decode a) (fb.decode b)) as bs)

/-- acc after the groups of a row of A and a column of B, eight products at a time. -/
def accGroups (fa fb : Fmt) (scale : FVal) : Nat → List Nat → List Nat → Nat → Nat
  | 0, _, _, acc => acc
  | n + 1, as, bs, acc =>
    let gs := fp32.round .rne false (FVal.mul (groupSum fa fb (as.take 8) (bs.take 8)) scale)
    let acc := fp32.round .rne false (FVal.add (fp32.decode acc) (fp32.decode gs))
    accGroups fa fb scale n (as.drop 8) (bs.drop 8) acc

/-- A scale as an exact value; 1 where the mode names none (R117). -/
def scaleVal (ss : List W16) (i : Nat) : FVal :=
  match ss[i]? with
  | some x => bf16.decode x.toNat
  | none => .fin false 1 0

/-- The elements of row i of a tile of k columns, z bytes each (R212). -/
def tileRow (z k i : Nat) (bs : List Byte) : List Nat := (pieces z k ((bs.drop (z * k * i)).take (z * k))).map leNat

/-- Column j of a B tile of k rows of 64 elements. -/
def tileColumn (z k j : Nat) (bs : List Byte) : List Nat :=
  (range 0 k).map fun i => leNat ((bs.drop (64 * z * i + z * j)).take z)

/-- MmaElement of R119: the accumulator's new code, from its old one. -/
def AccOp.element (a : AccOp) (bs : List Byte) (i j old : Nat) : Nat :=
  let fa := fmtOf a.fmt.a
  let fb := fmtOf a.fmt.b
  let acc := fp32.round .rne false ((fmtOf a.acc).decode old)
  let scale := FVal.mul (scaleVal a.sA i) (scaleVal a.sB j)
  let r := accGroups fa fb scale (a.fmt.k / 8) (tileRow fa.size a.fmt.k i a.aBytes) (tileColumn fb.size a.fmt.k j bs) acc
  if a.acc = 1 then r else (fmtOf a.acc).round (rmodeOf a.mode) a.sat (fp32.decode r)

/-- The B tile whose group holds row i: its place in the list. -/
def tileOfRow (ts : List BTile) (i : Nat) : Option Nat :=
  ts.findIdx? fun t => decide (t.first ≤ i) && decide (i < t.first + t.count)

/-- The cells of accumulator memory that the writeback writes, from what the memory holds (R119, R215). -/
def AccOp.cells (a : AccOp) (acc : SMap Byte) : List Host.Cell :=
  let z := elemSize a.acc
  (range 0 a.rows).flatMap fun i =>
    match tileOfRow a.bTiles i with
    | some t =>
      (range 0 64).flatMap fun j =>
        if a.cols.getLsbD j then
          let at_ := a.bank * 0x4000 + i * 0x100 + z * j
          cellsAt at_ (toLe z (a.element (a.bBytes.getD t []) i j (Mem.nat acc at_ z)))
        else []
    | none => []

end Sys2Proof.Machine
end

