-- ==== Sys2Proof/Machine/Copy.lean ====
section
/-!
DEFINITION. The C track's words (R230 to R248): descriptors and their checks (R89 to R93), the copies as
they leave their issue beat, rope lanes (R95, R238), collectives on issue (R239 to R242), and the words
that move descriptor registers.
-/

namespace Sys2Proof.Machine

/-! ## Descriptors (R89, R90) -/

/-- SPACE of a descriptor; none for the reserved code. -/
def descSpace (v : W64) : Option Space :=
  match bits v.toNat 63 62 with
  | 0 => some .spad
  | 1 => some .acc
  | 2 => some .dev
  | _ => none

def descLper (v : W64) : Nat := bits v.toNat 61 60
def descPort (v : W64) : Nat := bits v.toNat 59 59
def descAddr (v : W64) : Nat := bits v.toNat 47 0
/-- The reserved bits of a destination or source descriptor are zero. -/
def descClear (v : W64) : Bool := decide (bits v.toNat 58 48 = 0)

def lenClass (v : W64) : Nat := bits v.toNat 63 60
def lenAbs (v : W64) : Bool := v.toNat.testBit 59
def lenAt (v : W64) : Nat := bits v.toNat 55 24
def lenChunks (v : W64) : Nat := bits v.toNat 16 0
/-- The reserved bits of a length descriptor are zero. -/
def lenClear (v : W64) : Bool := decide (bits v.toNat 58 56 = 0) && decide (bits v.toNat 23 17 = 0)

/-- The present trip of a CLOOP, 0 outside one (R235). -/
def State.trip (s : State) : Nat :=
  match s.track.cloop with
  | some l => l.count
  | none => 0

/-- An ADDR with its CLOOP offset, modulo 2^48 (R235).
(DEDUCED, log entry 24). -/
def offsetAddr (a off : Nat) : Nat := (a + off) % 2 ^ 48

/-! ## A copy as its word plans it -/

/-- What a copy word fixes before its checks. Geometry is R233's: chunks of 256 B in rows of rowLen. -/
structure CopyPlan where
  kind : CopyKind
  len : W64
  delay : Nat
  srcSpace : Option Space
  src : Nat
  srcLper : Nat
  srcPort : Nat
  dstSpace : Option Space
  dst : Nat
  dstLper : Nat
  dstPort : Nat
  /-- Every reserved field that the word reads is zero, and its own limits hold. -/
  clear : Bool
  rowLen : Nat
  sStride : Nat
  dStride : Nat
  type : BitVec 6
  ring : Option (Nat × Nat × BitVec 8)
  first : Nat
  streams : Nat
  maxe : Nat
  /-- The descriptors as sampled. -/
  raw : List W64

/-- Chunks of a plan. -/
def CopyPlan.chunks (x : CopyPlan) : Nat := lenChunks x.len

/-- Rows of a plan. -/
def CopyPlan.rows (x : CopyPlan) : Nat := x.chunks / x.rowLen

/-- Bytes from the first byte of an end to one past its last, for a row stride in chunks. -/
def CopyPlan.span (x : CopyPlan) (stride : Nat) : Nat := 256 * ((x.rows - 1) * stride + x.rowLen)

/-- Bytes that the source end covers. CPYSEL's and LISTEN's plans state their own. -/
def CopyPlan.srcSpan (x : CopyPlan) : Nat := x.span x.sStride

/-- Bytes that the destination end covers: a CPYSEL writes its record only (R236). -/
def CopyPlan.dstSpan (x : CopyPlan) : Nat :=
  match x.kind with
  | .cpysel => 256
  | _ => x.span x.dStride

/-- R75 for one end of a copy, without the page of a device end. -/
def endOk (sp : Space) (a n : Nat) : Bool :=
  match sp with
  | .dev => decide (a % 64 = 0) && decide (a + n ≤ devEnd)
  | _ => decide (a % 256 = 0) && decide (a + n ≤ sp.limit)

/-- Start beat (R91), from the anchor. -/
def CopyPlan.start (x : CopyPlan) (b anchor : Nat) : Nat := if lenAbs x.len then anchor + lenAt x.len else b + 16 * x.delay

/-- The copy-descriptor checks of R93 that need no translation. A copy with ABS = 1 in a later trip of a CLOOP is judged by
R93's condition like any other (R235).
(DEDUCED, log entry 107). -/
def CopyPlan.ok (x : CopyPlan) (b anchor : Nat) : Bool :=
  x.clear && lenClear x.len && decide (1 ≤ x.chunks) && decide (x.chunks ≤ 65536)
    && (!lenAbs x.len || (decide (x.delay = 0) && decide (b ≤ anchor + lenAt x.len)))
    && (match x.srcSpace, x.dstSpace with
      | some p, some q =>
        !(decide (p = .dev) && decide (q = .dev)) && (decide (p = .dev) || decide (x.srcLper = 0))
          && (decide (q = .dev) || decide (x.dstLper = 0)) && endOk p x.src x.srcSpan && endOk q x.dst x.dstSpan
      | _, _ => false)

/-- The copy-descriptor and copy faults carry the two ADDR fields (R293). -/
def State.copyFault (s : State) (c : FaultClass) (x : CopyPlan) : State := s.raise c x.dst x.src

/-- Where the page that holds a device address begins and how long it is: the two ranges that the device
maps itself are one page each; the cache knows the others (R85, R317, R320, R321). -/
def State.pageOf (s : State) (p r va : Nat) : Option (Nat × Nat) :=
  if 0xFF0000000000 ≤ va ∧ va < 0xFF0000010000 then some (0xFF0000000000, 2 ^ 16)
  else if 0xFD0000000000 ≤ va ∧ va < 0xFD0000200000 then some (0xFD0000000000, 2 ^ 21)
  else
    ((SMap.get [] s.caches r).find? (fun e => e.covers (s.partAt p).step.resident va)).map fun e =>
      (va / e.size * e.size, e.size)

/-- A range of n bytes lies inside one page. -/
def State.onePage (s : State) (p r va n : Nat) : Bool :=
  match s.pageOf p r va with
  | some (a, z) => decide (va + n ≤ a + z)
  | none => false

/-- The column of a physical address: its pod-visible rope (R317). -/
def columnOf (pa : Nat) : Nat := pa / 2 ^ 30

/-- Hops between two ropes' places on a die (R86). -/
def hops (m n : Nat) : Nat :=
  let d (x y : Nat) : Nat := (x - y) + (y - x)
  d (m % 20 % 5) (n % 20 % 5) + d (m % 20 / 5) (n % 20 / 5)

/-- Beats from start to the first sample and the first perform of a copy (R92). -/
def routeBeats (r : Nat) (src dst : Space) (column : Nat) : Nat × Nat :=
  match src, dst with
  | .spad, .spad => (2, 8)
  | .dev, _ => (100, far)
  | _, .dev => (1, far)
  | _, _ => (1, 6)
where
  /-- Beats to the first perform over a column (R92). -/
  far : Nat :=
    if column = r then 140
    else if column / 20 = r / 20 then 180 + 3 * hops r column
    else 260 + 3 * hops r column

/-- Beats of the kinds whose descriptions state their own (R237, R245, R247). -/
def copyBeats (kind : CopyKind) (r : Nat) (src dst : Space) (column chunks : Nat) : Nat × Nat :=
  match kind with
  | .cpysel => (1, chunks + 12)
  | .listen => (100, 300)
  | .speak => (2, 2)
  | _ => routeBeats r src dst column

/-- Entries of a core's start buffer (R91). -/
def startEntries : Nat := 32

/-- Start-buffer entries held on beat b. -/
def Core.held (k : Core) (b : Nat) : Nat :=
  (k.copies.filter fun c => decide (c.org.issue < c.start) && decide (b ≤ c.start)).length

/-- The grants of a plan that name one core (R87, R88). -/
def grantsOf (r c : Nat) (gs : List W32) : List W32 :=
  gs.filter fun g => decide (bits g.toNat 10 4 = r) && decide (bits g.toNat 2 0 = c)

/-- The copy enters the core's queue: a CPYQ takes its tail entry, and a write of device memory, or a
SPEAK, closes the pitch (R84, R230, R339). -/
def State.launch (s : State) (x : CopyPlan) (sp dp : Space) (src dst column : Nat) : State :=
  let q := s.part
  let (s0, p0) := copyBeats x.kind s.cur.rope sp dp column x.chunks
  let c : Copy :=
    { org := s.org, kind := x.kind, cls := lenClass x.len, start := x.start s.now q.step.anchor, started := false,
      sample0 := s0, perform0 := p0,
      period := if sp = .dev then 2 ^ x.srcLper else if dp = .dev then 2 ^ x.dstLper else 1,
      chunks := x.chunks, srcSpace := sp, src := src, dstSpace := dp, dst := dst, srcVa := x.src, dstVa := x.dst,
      port := if sp = .dev then x.srcPort else x.dstPort, column := column, rowLen := x.rowLen,
      sStride := x.sStride, dStride := x.dStride, type := x.type, ring := x.ring, nextSample := 0, nextPerform := 0,
      buf := [], suppressed := [], record := [], poisoned := false, first := x.first, streams := x.streams,
      maxe := x.maxe, step := q.step.serial, anchor := q.step.anchor,
      grants := grantsOf s.cur.rope s.cur.core q.step.grants, cut := false, raw := x.raw }
  let s := s.onCur fun k => { k with copies := k.copies ++ [c] }
  let s := match x.ring with
    | some (n, t, _) =>
      (s.onCur fun k => { k with pitch := { k.pitch with pushed := k.pitch.pushed || k.pitch.entries.contains (n, t) } }).emit
        s.now (.ringPush n)
    | none => s
  (if dp = .dev ∨ x.kind = .speak then s.onCur Core.closePitch else s).retire

/-- The checks of a copy word on b, and its launch: descriptor, page and translation, start buffer. -/
def State.copyWord (s : State) (x : CopyPlan) : State :=
  let b := s.now
  let anchor := s.part.step.anchor
  if !x.ok b anchor then s.copyFault .copyDescriptor x
  else
    let room (s : State) (sp dp : Space) (src dst column : Nat) : State :=
      if b < x.start b anchor ∧ startEntries ≤ s.core.held b then s.copyFault .copyBuffer x
      else s.launch x sp dp src dst column
    match x.srcSpace, x.dstSpace with
    | some sp, some dp =>
      if sp = .dev ∨ dp = .dev then
        let va := if sp = .dev then x.src else x.dst
        let n := if sp = .dev then x.srcSpan else x.dstSpan
        match s.translate s.cur.part s.cur.rope va (decide (dp = .dev)) (decide (sp = .dev)) with
        | .hit pa =>
          if s.onePage s.cur.part s.cur.rope va n then
            let s := s.touch s.cur.part s.cur.rope va
            room s sp dp (if sp = .dev then pa else x.src) (if dp = .dev then pa else x.dst) (columnOf pa)
          else s.copyFault .copyDescriptor x
        | _ => s.raise .translation va
      else room s sp dp x.src x.dst 0
    | _, _ => s.copyFault .copyDescriptor x

/-- A plan from three descriptor registers, with byte offsets of the present CLOOP trip. -/
def State.plan (s : State) (kind : CopyKind) (d a l : BitVec 5) (t : Nat) (sOff dOff : Nat) : CopyPlan :=
  let dv := s.core.dreg d.toNat
  let sv := s.core.dreg a.toNat
  let lv := s.core.dreg l.toNat
  { kind := kind, len := lv, delay := t, srcSpace := descSpace sv, src := offsetAddr (descAddr sv) (s.trip * sOff),
    srcLper := descLper sv, srcPort := descPort sv, dstSpace := descSpace dv,
    dst := offsetAddr (descAddr dv) (s.trip * dOff), dstLper := descLper dv, dstPort := descPort dv,
    clear := descClear dv && descClear sv, rowLen := max 1 (lenChunks lv), sStride := 0, dStride := 0, type := 0,
    ring := none, first := 0, streams := 0, maxe := 0, raw := [dv, sv, lv] }

/-- Bytes of a one-row copy: the CLOOP offset of CPY, CPYA, CPYQ and CPYSEL sources (R235). -/
def State.lenBytes (s : State) (l : BitVec 5) : Nat := 256 * lenChunks (s.core.dreg l.toNat)

def execCpy (_g : BitVec 3) (d a l : BitVec 5) (t : BitVec 8) (s : State) : Out :=
  .next (s.copyWord (s.plan .cpy d a l t.toNat (s.lenBytes l) (s.lenBytes l)))

/-- The element types CPYA adds (R232). -/
def addType (t : BitVec 6) : Bool := isFloat t || isInt t

/-- CPYA's destination is accumulator memory, and its type that of the destination bank on b (R232): of the bank of its first
row, for every chunk.
(DEDUCED, log entry 30). -/
def execCpya (_g : BitVec 3) (d a l : BitVec 5) (t : BitVec 8) (s : State) : Out :=
  let x := s.plan .cpya d a l t.toNat (s.lenBytes l) (s.lenBytes l)
  let type := (s.core.bank (bankOf x.dst)).type
  if x.dstSpace = some .acc ∧ x.ok s.now s.part.step.anchor ∧ type ≠ 0 ∧ !addType type then
    .next (s.raise .type type.toNat)
  else .next (s.copyWord { x with type := type, clear := x.clear && decide (x.dstSpace = some .acc) })

/-- CPY2's shape descriptor (R233): strides, ROWS, ROWLEN. -/
def execCpy2 (_g : BitVec 3) (d a l h : BitVec 5) (t : BitVec 3) (s : State) : Out :=
  let v := (s.core.dreg h.toNat).toNat
  let ss := bits v 63 48
  let ds := bits v 47 32
  let rows := bits v 28 16
  let len := bits v 12 0
  let x := s.plan .cpy2 d a l t.toNat (256 * rows * ss) (256 * rows * ds)
  let ok := decide (bits v 31 29 = 0) && decide (bits v 15 13 = 0) && decide (1 ≤ rows) && decide (rows ≤ 4096)
    && decide (1 ≤ len) && decide (len ≤ 4096) && decide (x.chunks = rows * len)
  .next (s.copyWord { x with
    clear := x.clear && ok, rowLen := max 1 len, sStride := ss, dStride := ds, raw := x.raw ++ [s.core.dreg h.toNat] })

/-- CPYQ writes the tail entry of a ring (R84, R234). -/
def execCpyq (_g : BitVec 3) (q : BitVec 3) (a l : BitVec 5) (t : BitVec 8) (s : State) : Out :=
  let r := s.core.qreg q.toNat
  if ringSize r = 0 then .next (s.raise .ringShape q.toNat 0)
  else
    let tail := ringPush r % ringCount r
    let sv := s.core.dreg a.toNat
    let x := s.plan .cpyq 0 a l t.toNat (s.lenBytes l) 0
    .next (s.copyWord { x with
      dstSpace := some .spad, dst := ringEntry r tail, dstLper := 0, dstPort := 0,
      clear := descClear sv && decide (x.chunks ≤ ringSize r),
      ring := some (q.toNat, tail, BitVec.ofNat 8 (ringPush r)) })

/-- CPYSEL (R236): source rows of FP32, which the bank of the first row answers for, a record in the scratchpad.
(DEDUCED, log entry 30). -/
def execCpysel (_g : BitVec 3) (d a l : BitVec 5) (t : BitVec 8) (s : State) : Out :=
  let x := s.plan .cpysel d a l t.toNat (s.lenBytes l) 256
  let x := { x with clear := x.clear && decide (x.srcSpace = some .acc) && decide (x.dstSpace = some .spad) }
  let type := (s.core.bank (bankOf x.src)).type
  if x.ok s.now s.part.step.anchor ∧ type ≠ 0 ∧ type ≠ 1 then .next (s.raise .type type.toNat)
  else .next (s.copyWord x)

/-- LISTEN (R243): ds is a stream selection descriptor. -/
def execListen (_g : BitVec 3) (d a l : BitVec 5) (t : BitVec 8) (s : State) : Out :=
  let v := (s.core.dreg a.toNat).toNat
  let maxe := bits v 39 32
  let count := bits v 25 16
  let first := bits v 8 0
  let x := s.plan .listen d a l t.toNat 0 0
  let ok := decide (bits v 63 40 = 0) && decide (bits v 31 26 = 0) && decide (bits v 15 9 = 0) && decide (4 ≤ maxe)
    && decide (maxe ≤ 64) && decide (maxe % 4 = 0) && decide (1 ≤ count) && decide (count ≤ 512)
    && decide (first + count ≤ 512) && decide (x.chunks = count * (1 + maxe / 4))
    && descClear (s.core.dreg d.toNat) && decide (x.dstSpace = some .spad)
  .next (s.copyWord { x with
    srcSpace := some .spad, src := 0, srcLper := 0, srcPort := 0, sStride := 0, rowLen := 1, dStride := 1, clear := ok,
    first := first, streams := count, maxe := maxe })

/-- SPEAK (R246): a source in the scratchpad and no destination. -/
def execSpeak (_g : BitVec 3) (a l : BitVec 5) (t : BitVec 8) (s : State) : Out :=
  let sv := s.core.dreg a.toNat
  let x := s.plan .speak 0 a l t.toNat 0 0
  .next (s.copyWord { x with
    dstSpace := some .spad, dst := 0, dstLper := 0, dstPort := 0, rowLen := 1, sStride := 1, dStride := 0,
    clear := descClear sv && decide (x.srcSpace = some .spad) })

/-! ## Rope lanes (R238) -/

/-- The copy-descriptor checks of SEND and RECV: k flits at the descriptor's address. -/
def laneOk (v : W64) (k : Nat) : Bool :=
  match descSpace v with
  | some .spad => ok .spad
  | some .acc => ok .acc
  | _ => false
where
  /-- Everything but the space. -/
  ok (sp : Space) : Bool :=
    descClear v && decide (descLper v = 0) && decide (descPort v = 0) && decide (descAddr v % 64 = 0)
      && decide (descAddr v + 64 * k ≤ sp.limit)

/-- The space of a lane descriptor that passed its checks. -/
def laneSpace (v : W64) : Space := if bits v.toNat 63 62 = 1 then .acc else .spad

def execSend (_g : BitVec 3) (l : BitVec 3) (r : BitVec 1) (h : BitVec 3) (k : BitVec 6) (x : BitVec 5) (s : State) : Out :=
  let v := s.core.dreg x.toNat
  let n := k.toNat + 1
  if laneOk v n then
    let o : SendOp := { org := s.org, lane := l.toNat, acw := r == 1, hops := h.toNat, count := n, sp := laneSpace v,
                        addr := descAddr v, next := 0 }
    .next ((s.onCur fun c => { c with sends := c.sends ++ [o] }).onCur Core.closePitch).retire
  else .next (s.raise .copyDescriptor 0 (descAddr v))

def execRecv (_g : BitVec 3) (l : BitVec 3) (r : BitVec 1) (k : BitVec 6) (x : BitVec 5) (s : State) : Out :=
  let v := s.core.dreg x.toNat
  let n := k.toNat + 1
  if laneOk v n then
    let sp := laneSpace v
    let o : RecvOp := { org := s.org, lane := l.toNat, acw := r == 1, count := n, sp := sp, addr := descAddr v, next := 0 }
    let s := s.onCur fun c => (range 0 n).foldl (fun c i =>
      c.erRecord sp (descAddr v + 64 * i) (descAddr v + 64 * i + 64) (s.now + i) s.org) c
    .next (s.onCur fun c => { c with recvs := c.recvs ++ [o] }).retire
  else .next (s.raise .copyDescriptor (descAddr v) 0)

/-! ## Collectives on issue (R239 to R242) -/

/-- The record of one of the partition's groups (R363, R364). -/
def State.group (s : State) (p g : Nat) : Option Group := s.pod.groups.find? fun x => decide (x.part = p) && decide (x.group = g)

/-- The member chips of a group record, each once. -/
def Group.chips (g : Group) : List Nat := (g.members.map (·.1)).eraseDups

/-- Chunks of a collective's result (R240), by function 0 to 5, for n members. -/
def resultChunks (fn chunks n : Nat) : Nat :=
  match fn with
  | 2 | 5 => chunks / n
  | 3 => chunks * n
  | _ => chunks

/-- A TYPE that a function allows (R240). -/
def collType (fn type : Nat) : Bool := if fn ≤ 2 then [1, 2, 3, 6].contains type else decide (type = 0)

/-- A COLL's fields, as R239 lays them out. -/
structure CollFields where
  due : Nat
  tag : Nat
  group : Nat
  type : Nat
  root : Nat
  chunks : Nat
  clear : Bool

/-- The parameter pair of a COLL. -/
def collFields (x y : W64) : CollFields :=
  let x := x.toNat
  let y := y.toNat
  { due := bits x 63 32, tag := bits x 31 16, group := bits x 15 8, type := bits x 5 0, root := bits y 43 32,
    chunks := bits y 16 0,
    clear := decide (bits x 7 6 = 0) && decide (bits y 63 44 = 0) && decide (bits y 31 17 = 0) }

/-- The copy-descriptor checks of a COLL on beat b (R241, R364). -/
def collOk (f : CollFields) (fn n lead b due : Nat) (dv sv : W64) : Bool :=
  f.clear && descClear dv && descClear sv && collType fn f.type && decide (1 ≤ f.chunks) && decide (f.chunks ≤ 4096)
    && (!(fn == 2 || fn == 5) || decide (f.chunks % n = 0)) && decide (resultChunks fn f.chunks n ≤ 65536)
    && (if fn = 4 then decide (f.root < n) else decide (f.root = 0))
    && decide (b + f.chunks < due) && decide (b + f.chunks + lead ≤ due)
    && end_ dv (256 * resultChunks fn f.chunks n) && end_ sv (256 * f.chunks)
where
  /-- An end in the core's own memories that keeps R75. -/
  end_ (v : W64) (z : Nat) : Bool :=
    match descSpace v with
    | some .spad => endOk .spad (descAddr v) z
    | some .acc => endOk .acc (descAddr v) z
    | _ => false

/-- Send a fabric message: to another chip, or to this one itself. -/
def State.send (s : State) (dst : Nat) (m : OutMsg) : State :=
  if dst = s.pod.chip then { s with own := s.own ++ [m] } else { s with out := s.out ++ [m] }

/-- Earlier COLL words of one group record and tag since boot (R368). -/
def State.occurrence (s : State) (p g t : Nat) : Nat :=
  match s.fabric.occurrences.find? (fun x => decide (x.1 = p) && decide (x.2.1 = g) && decide (x.2.2.1 = t)) with
  | some x => x.2.2.2
  | none => 0

/-- Count one more. -/
def State.countOccurrence (s : State) (p g t : Nat) : State :=
  let n := s.occurrence p g t
  let rest := s.fabric.occurrences.filter fun x => !(decide (x.1 = p) && decide (x.2.1 = g) && decide (x.2.2.1 = t))
  { s with fabric := { s.fabric with occurrences := (p, g, t, n + 1) :: rest } }

/-- The COLLs of a core that issued on beat b have not issued: they are not counted, and their requests are not sent
(R67, R368). -/
def State.undoColls (s : State) (p r c b : Nat) : State :=
  ((s.coreAt r c).colls.filter fun x => decide (x.org.issue = b)).foldl (fun s x =>
    let mine (m : OutMsg) : Bool :=
      match m with
      | .request _ _ p' key _ _ => decide (p' = p) && decide (key = x.key)
      | _ => false
    let g := x.key.group
    let t := x.key.tag
    let rest := s.fabric.occurrences.filter fun y => !(decide (y.1 = p) && decide (y.2.1 = g) && decide (y.2.2.1 = t))
    let n := s.occurrence p g t - 1
    ({ s with
      own := s.own.filter fun m => !mine m
      out := s.out.filter fun m => !mine m
      fabric := { s.fabric with occurrences := if n = 0 then rest else (p, g, t, n) :: rest } }).onCore r c fun k =>
        { k with colls := k.colls.filter fun y => y.org ≠ x.org }) s

/-- A step of the partition may still issue a word: the present one, or a frozen one. -/
def Partition.mayIssue (q : Partition) : Bool :=
  decide (q.step.outcome = .open_) || q.frozen.any fun f => decide (f.step.outcome = .open_)

/-- The collectives that partition p has reached as null and never issued count as occurrences of that member, once no step
of it may issue them any more (R368).
(DEDUCED, log entry 73). -/
def State.countNull (s : State) (p : Nat) : State :=
  if (s.partAt p).mayIssue then s
  else
    s.fabric.numbers.foldl (fun s e =>
      match s.group p e.key.group with
      | some g =>
        if e.nullStatus ≠ 0 ∧ e.started.contains p ∧ g.members.head? = some (e.key.leaderChip, e.key.leaderPart)
            ∧ s.occurrence p e.key.group e.key.tag = e.key.occurrence then
          s.countOccurrence p e.key.group e.key.tag
        else s
      | none => s) s

/-- A collective that runs as null, or whose key is removed: it waits for nothing more (R241, R375). -/
def CollOp.void (x : CollOp) (status : Nat) : CollOp :=
  if x.status = 3 then x else { x with status := status, result := some ([], []), started := true }

/-- A collective of partition p as a number stands for it; it is null once the engine has reached it (R242, R368, R370).
(DEDUCED, log entry 72). -/
def Numbered.tell (e : Numbered) (p : Nat) (x : CollOp) : CollOp :=
  let x := if x.status = 1 then { x with number := some e.number, gen := e.gen, status := 2 } else x
  if e.nullStatus ≠ 0 ∧ e.started.contains p then x.void e.nullStatus else x

/-- A collective's function code (R137). A number that came before the word is known at once (R368). -/
def collWord (fn : Nat) (d a p : BitVec 5) (s : State) : Out :=
  let dv := s.core.dreg d.toNat
  let sv := s.core.dreg a.toNat
  let f := collFields (s.core.dreg p.toNat) (s.core.dreg (p.toNat + 1))
  let due := s.part.step.anchor + f.due
  let fault := s.raise .copyDescriptor (descAddr dv) (descAddr sv)
  match s.group s.cur.part f.group with
  | none => .next fault
  | some g =>
    let n := g.members.length
    if collOk f fn n s.pod.lead s.now due dv sv then
      let (lc, lp) := g.members.getD 0 (0, 0)
      let key : CollKey := { leaderChip := lc, leaderPart := lp, group := f.group, tag := f.tag,
                             occurrence := s.occurrence s.cur.part f.group f.tag }
      let shape : CollShape := { fn := fn, type := f.type, chunks := f.chunks, root := f.root }
      let size := 256 * resultChunks fn f.chunks n
      let c : CollOp :=
        { org := s.org, shape := shape, key := key, dstSpace := laneSpace dv, dst := descAddr dv,
          srcSpace := laneSpace sv, src := descAddr sv, due := due, start := s.now, next := 0, bytes := [], poison := [],
          number := none, gen := 0, status := 1, rank := g.rank, size := n, started := false, result := none,
          entered := false, dropped := false, withdrawn := false,
          raw := [dv, sv, s.core.dreg p.toNat, s.core.dreg (p.toNat + 1)] }
      let c := match s.fabric.numbers.find? fun e => e.key = key with
        | some e => e.tell s.cur.part c
        | none => c
      let s := s.countOccurrence s.cur.part f.group f.tag
      let s := s.onCur fun k =>
        { (k.erRecord c.dstSpace c.dst (c.dst + size) due s.org).closePitch with colls := k.colls ++ [c] }
      let s := s.send s.fabric.seqChip (.request s.fabric.seqChip s.pod.chip s.cur.part key shape g.chips)
      .next s.retire
    else .next fault

def execCollArsum (_g : BitVec 3) (d a p : BitVec 5) (s : State) : Out := collWord 0 d a p s
def execCollArmax (_g : BitVec 3) (d a p : BitVec 5) (s : State) : Out := collWord 1 d a p s
def execCollRs (_g : BitVec 3) (d a p : BitVec 5) (s : State) : Out := collWord 2 d a p s
def execCollAg (_g : BitVec 3) (d a p : BitVec 5) (s : State) : Out := collWord 3 d a p s
def execCollBc (_g : BitVec 3) (d a p : BitVec 5) (s : State) : Out := collWord 4 d a p s
def execCollXp (_g : BitVec 3) (d a p : BitVec 5) (s : State) : Out := collWord 5 d a p s

/-- The value COLLQ writes for the latest matching collective of the core's step (R242). -/
def Core.collState (k : Core) (g t : Nat) : W64 :=
  match (k.colls.filter fun c => decide (c.key.group = g) && decide (c.key.tag = t)).getLast? with
  | some c =>
    BitVec.ofNat 64 (c.gen % 256 * 2 ^ 32 + c.status * 2 ^ 24 + (if c.status ≤ 1 then 0 else c.number.getD 0))
  | none => 0

/-- Write d register d on b+1 (R248). -/
def State.giveD (s : State) (d : BitVec 5) (v : W64) (bad : Option (Nat × Nat) := none) : State :=
  s.emit (s.now + 1) (.dreg d.toNat v) bad

def execCollq (_g : BitVec 3) (d p : BitVec 5) (s : State) : Out :=
  let f := collFields (s.core.dreg p.toNat) 0
  .next (s.giveD d (s.core.collState f.group f.tag) none).retire

/-! ## Descriptor registers and CLOOP (R248, R235) -/

def execDli (_g : BitVec 3) (d : BitVec 5) (n : BitVec 2) (i : BitVec 16) (s : State) : Out :=
  let q := 16 * n.toNat
  .next (s.giveD d (BitVec.ofNat 64 (setBits (s.core.dreg d.toNat).toNat (q + 15) q i.toNat)) none).retire

def execDset (_g : BitVec 3) (d a : BitVec 5) (s : State) : Out :=
  .next (s.giveD d (s.core.sreg a) (s.core.dataBad a)).retire

/-- DGET's timing is the C track's, which no gear scales (R50, R248). -/
def execDget (_g : BitVec 3) (d a : BitVec 5) (s : State) : Out :=
  let v := s.core.dreg a.toNat
  .next (s.emit (s.now + 1) (.sreg d.toNat v (residueOf v))).retire

/-- The MCALL major, common to every family (R127). -/
def majorMcall : Nat := 4

/-- A body of n words from pc holds an MCALL (R235). -/
def callsMacro (src : Nat → Option W32) (pc n : Nat) : Bool :=
  (range pc n).any fun i =>
    match src i with
    | some w => decide (bits w.toNat 28 23 = majorMcall)
    | none => false

/-- CLOOP over len words, trip times (R235). -/
def cloopWord (len trip : Nat) (s : State) : Out :=
  placed false true (fun s =>
    let body := s.track.pc + 1
    if s.track.cloop.isSome ∨ callsMacro s.source body len then .next s.illegal
    else
      .next (s.onCur fun k =>
        let k := k.onTrack .c (Track.issued s.now)
        let k := k.onTrack .c fun t =>
          if trip = 0 then { t with pc := body + len }
          else { t with pc := body, cloop := some { body := body, len := len, count := 0, trip := trip } }
        k.onTrack .c fun t => { t with wait := k.waitFor s.source .c 0 })) s

def execCloop (_g : BitVec 3) (l : BitVec 5) (n : BitVec 17) (s : State) : Out := cloopWord (l.toNat + 1) n.toNat s
/-- A register count above 16,777,215 is illegal on b (R235). -/
def execCloopReg (_g : BitVec 3) (l r : BitVec 5) (s : State) : Out :=
  if 16777215 < (s.core.sreg r).toNat then .next s.illegal else cloopWord (l.toNat + 1) (s.core.sreg r).toNat s

end Sys2Proof.Machine
end

