-- ==== Sys2Proof/Machine/Xlat.lean ====
section
/-!
DEFINITION. Translation beyond the lookup (R318 to R331): the walk, what a cache takes and loses, demand
pages, holds and their end (R287 to R289, R322), and the writes of system registers (R274, R276).
-/

namespace Sys2Proof.Machine

/-! ## Tables and pages (R318 to R320, R325, R328) -/

/-- Address of a context's translation entry, word w. -/
def State.ctxWordAt (s : State) (c w : Nat) : Nat := s.ctxbase.getD 0 + 0x80000 + 64 * c + 8 * w

/-- Write a word of a context's translation entry. -/
def State.setCtxWord (s : State) (c w v : Nat) : State := { s with mem := Mem.putNat s.mem (s.ctxWordAt c w) 8 v }

/-- SPG: pages of a state slice. -/
def State.spg (s : State) (c : Nat) : Nat := bits (s.ctxWord c 1) 55 48
/-- KVB: KV bytes per position, in 64-B units. -/
def State.kvb (s : State) (c : Nat) : Nat := bits (s.ctxWord c 1) 41 32
/-- Physical base of the penalty area. -/
def State.pen (s : State) (c : Nat) : Nat := bits (s.ctxWord c 2) 36 21 * 2 ^ 21

/-- PA of a table entry. -/
def entryPa (e : Nat) : Nat := bits e 36 12 * 2 ^ 12
/-- V, T, R and W of a table entry (R319). -/
def entryV (e : Nat) : Bool := e.testBit 0
def entryT (e : Nat) : Bool := e.testBit 1
def entryR (e : Nat) : Bool := e.testBit 2
def entryW (e : Nat) : Bool := e.testBit 3
/-- The reserved bits of a table entry are zero. -/
def entryClear (e : Nat) : Bool := decide (bits e 63 37 = 0) && decide (bits e 11 4 = 0)

/-- An address lies in a KV window (R317). -/
def inKv (va : Nat) : Bool := decide (2 ^ 40 ≤ va) && decide (va < 2 ^ 41)

/-- An address lies in one of the two state halves (R320). -/
def inHalves (va : Nat) : Bool := decide (bits va 47 39 = 0x1FC)

/-- What a walk finds. -/
inductive Found where
  | refuse
  /-- A page: 2 MiB or not, its table entry. -/
  | page (big : Bool) (e : Nat)
  /-- An invalid 64-KiB page of a KV window, by the address of its table entry (R328). -/
  | demand (pte : Nat)
deriving DecidableEq, Repr, Inhabited

/-- Read a table entry; a table beyond device memory holds none.
(DESIGN CHOICE, log entry 28). -/
def State.entryAt (s : State) (a : Nat) : Nat := if a + 8 ≤ physEnd then Mem.nat s.mem a 8 else 0

/-- The tables' answer for a virtual address of context c (R320). -/
def State.walkTables (s : State) (c va : Nat) : Found :=
  let va := if inHalves va ∧ s.flipOf c = 1 then Nat.xor va (2 ^ 38) else va
  if (s.ctxWord c 0).testBit 0 then
    let e1 := s.entryAt (entryPa (s.ctxWord c 0) + 8 * bits va 47 39)
    if !(entryV e1 && entryT e1) then .refuse
    else
      let e2 := s.entryAt (entryPa e1 + 8 * bits va 38 30)
      if !(entryV e2 && entryT e2) then .refuse
      else
        let e3 := s.entryAt (entryPa e2 + 8 * bits va 29 21)
        if !entryV e3 then .refuse
        else if !entryT e3 then .page true e3
        else
          let pte := entryPa e3 + 8 * bits va 20 16
          let e4 := s.entryAt pte
          if entryV e4 && !entryT e4 then .page false e4
          else if !entryV e4 && inKv va then .demand pte
          else .refuse
  else .refuse

/-- A page entry that R320 does not refuse for its own sake.
(DESIGN CHOICE, log entry 28). -/
def pageOk (big : Bool) (e : Nat) : Bool :=
  let z := if big then 2 ^ 21 else 2 ^ 16
  entryClear e && decide (entryPa e % z = 0) && decide (entryPa e + z ≤ physEnd)

/-- The page stack's base and depth (R318). -/
def State.stackBase (s : State) (c : Nat) : Nat := bits (s.ctxWord c 3) 36 19 * 2 ^ 19
def State.depth (s : State) (c : Nat) : Nat := bits (s.ctxWord c 3) 16 0

/-- Set DEPTH. -/
def State.setDepth (s : State) (c n : Nat) : State := s.setCtxWord c 3 (setBits (s.ctxWord c 3) 16 0 n)

/-- Pop a page off a context's stack. -/
def State.popPage (s : State) (c : Nat) : Option (Nat × State) :=
  let n := s.depth c
  if n = 0 then none else some (Mem.nat s.mem (s.stackBase c + 8 * (n - 1)) 8, s.setDepth c (n - 1))

/-- Address of the count of a 64-KiB physical page (R325). -/
def State.countAt (s : State) (pa : Nat) : Nat := s.ctxbase.getD 0 + 0x100000 + 2 * bits pa 36 16

/-- The count of a physical page. -/
def State.pageCount (s : State) (pa : Nat) : Nat := Mem.nat s.mem (s.countAt pa) 2

/-- Set the count of a physical page. -/
def State.setPageCount (s : State) (pa n : Nat) : State := { s with mem := Mem.putNat s.mem (s.countAt pa) 2 n }

/-- A table entry of a 64-KiB page. -/
def leafEntry (pa : Nat) (w : Bool) : Nat := bits pa 36 12 * 2 ^ 12 + (if w then 8 else 0) + 4 + 1

/-- Zero a range of device memory, with its poison (R329). -/
def State.zeroMem (s : State) (a n : Nat) : State :=
  { s with mem := SMap.clear s.mem a (a + n), memEcc := SMap.clear s.memEcc (a / 64) ((a + n) / 64) }

/-! ## The cache (R321, R323, R324) -/

/-- Entries of a translation cache. -/
def cacheSize : Nat := 2048

/-- Two entries carry one tag. -/
def XlatEntry.sameTag (a b : XlatEntry) : Bool :=
  decide (a.idx = b.idx) && decide (a.big = b.big) && decide (a.va / a.size = b.va / b.size)

/-- Install an entry in rope r's cache, displacing the least recently used one. -/
def State.install (s : State) (r : Nat) (e : XlatEntry) : State :=
  let es := (SMap.get [] s.caches r).filter fun x => !x.sameTag e
  { s with caches := SMap.set [] s.caches r ((e :: es).take cacheSize) }

/-- Remove the entries of some ropes' caches that a test names. -/
def State.uncache (s : State) (rs : List Nat) (f : XlatEntry → Bool) : State :=
  rs.foldl (fun s r => { s with caches := SMap.set [] s.caches r ((SMap.get [] s.caches r).filter fun e => !f e) }) s

/-- XLATW's entry (R323). -/
def xlatwEntry (v : W64) (i : Nat) : XlatEntry :=
  let x := v.toNat
  { idx := i, big := x.testBit 10, va := bits x 63 32 * 2 ^ 16, pa := bits x 31 11 * 2 ^ 16, w := x.testBit 9,
    r := x.testBit 8 }

/-- XLATI's effect on the issuing rope's cache (R323). -/
def State.xlatClear (s : State) (r : Nat) (v : W64) (i : Nat) (all : Bool) : State :=
  s.uncache [r] fun e => if all then decide (e.idx = i) else e.covers i v.toNat

/-! ## Walks (R320, R322, R328) -/

/-- The page of an address, for the walks that wait: 64 KiB. -/
def pageNo (va : Nat) : Nat := va / 2 ^ 16

/-- Two walks of one rope are for one page. -/
def Walk.joins (w x : Walk) : Bool := decide (x.rope = w.rope) && decide (x.idx = w.idx) && decide (pageNo x.va = pageNo w.va)

/-- Start a walk unless one for the page is pending on the rope: an access that misses waits for it, XPRE's too
(R172).
(DEDUCED, log entry 74). -/
def State.startWalk (s : State) (w : Walk) : State :=
  if s.walks.any w.joins then s
  else { s with walks := s.walks ++ [w] }

/-- Walks that one rope runs at once (R322). -/
def walksAtOnce : Nat := 8

/-- Walk k runs: it is one of the first eight of its rope. -/
def State.walkRuns (s : State) (k : Nat) : Bool :=
  match s.walks[k]? with
  | some w => decide (((s.walks.take k).filter fun x => x.rope = w.rope).length < walksAtOnce)
  | none => false

/-- Walks pending in a partition (R287). -/
def State.walksOf (s : State) (p : Nat) : List Walk := s.walks.filter fun w => w.part = p

/-- A page of a table entry, as the cache holds it. -/
def pageEntry (i : Nat) (big : Bool) (va e : Nat) : XlatEntry :=
  let z := if big then 2 ^ 21 else 2 ^ 16
  { idx := i, big := big, va := va / z * z, pa := entryPa e, w := entryW e, r := entryR e }

/-- The access of a walk is one that the page allows; a prefetch asks only for its granule (R172, R320). -/
def Walk.allowed (w : Walk) (big : Bool) (e : Nat) : Bool :=
  (!w.write || entryW e) && (!w.read || entryR e) &&
    match w.prefetch with
    | some b => b == big
    | none => true

/-- An access that waits for a page is one that the page allows (R320). -/
def PageNeed.allowed (n : PageNeed) (e : Nat) : Bool := (!n.write || entryW e) && (!n.read || entryR e)

/-- Demand allocation (R328): a popped page mapped with R and W, count 1, reading as zeros where it is a page of device
memory. -/
def State.demand (s : State) (c pte : Nat) : Option (State × Nat) :=
  match s.popPage c with
  | some (pa, s) =>
    let e := leafEntry pa true
    let s := { s with mem := Mem.putNat s.mem pte 8 e }.setPageCount pa 1
    some (if pageOk false e then s.zeroMem pa (2 ^ 16) else s, e)
  | none => none

/-- XPRE's walk would install its entry as the tables stand; otherwise XPRE does nothing (R172).
(DEDUCED, log entry 74). -/
def State.worthWalk (s : State) (w : Walk) : Bool :=
  let c := (SMap.get Resident.reset (s.partAt w.part).residents w.idx).ctx
  match s.walkTables c w.va with
  | .refuse => false
  | .page big e => pageOk big e && w.allowed big e
  | .demand _ => decide (w.prefetch ≠ some true)

/-- What a walk finds as it ends: the page, after a demand allocation where one is due (R320, R328). -/
def State.walkPage (s : State) (w : Walk) : State × Option (Bool × Nat) :=
  let c := (SMap.get Resident.reset (s.partAt w.part).residents w.idx).ctx
  match s.walkTables c w.va with
  | .refuse => (s, none)
  | .page big e => (s, if pageOk big e then some (big, e) else none)
  | .demand pte =>
    if w.prefetch = some true then (s, none)
    else
      match s.demand c pte with
      | some (s, e) => (s, if pageOk false e then some (false, e) else none)
      | none => (s, none)

/-- A hold's access waits for a walk. -/
def Walk.serves (w : Walk) (n : PageNeed) : Bool := decide (n.rope = w.rope) && decide (pageNo n.va = pageNo w.va)

/-- The end of a walk: its page is installed where it allows the walk's own access or one that waits for it; the
others that wait are refused (R320, R322). What waits for a prefetch's walk and is not served has a walk of its own.
(DEDUCED, log entry 78). -/
def State.walkEnd (s : State) (w : Walk) : State :=
  let waiting := match (s.partAt w.part).hold with
    | some h => if (s.partAt w.part).step.resident = w.idx then h.needs.filter w.serves else []
    | none => []
  let (s, page) := s.walkPage w
  let ok (n : PageNeed) : Bool :=
    match page with
    | some (_, e) => n.allowed e
    | none => false
  let s := match page with
    | some (big, e) => if w.allowed big e || waiting.any ok then s.install w.rope (pageEntry w.idx big w.va e) else s
    | none => s
  let bad := waiting.filter fun n => !ok n
  if w.prefetch.isSome then
    bad.foldl (fun s n =>
      s.startWalk { part := w.part, rope := n.rope, idx := w.idx, va := n.va, write := n.write, read := n.read,
                    prefetch := none }) s
  else
    s.onPart w.part fun q => { q with hold := q.hold.map fun h => { h with refused := h.refused ++ bad } }

/-! ## Holds (R287 to R289) -/

/-- A collective of the partition's step that must have its results on beat x and has not (R102). -/
def State.resultMissing (s : State) (p x : Nat) : Bool :=
  let q := s.partAt p
  decide (q.step.outcome = .open_) && decide (x ≤ q.rendezBeat + 16) &&
    q.coreIds.any fun (r, c) => (s.coreAt r c).colls.any fun o =>
      decide (o.due = x) && o.result.isNone

/-- A core of the partition waits for a replay (R340). -/
def State.replayDue (s : State) (p : Nat) : Bool :=
  (s.partAt p).coreIds.any fun (r, c) => !(s.coreAt r c).replay.isEmpty

/-- The hardware condition of a hold cause (R287). -/
def State.causeMet (s : State) (p cause : Nat) : Bool :=
  match cause with
  | 1 => (s.walksOf p).isEmpty
  | 2 => !s.resultMissing p (s.partAt p).topo
  | _ => !s.replayDue p

/-- Every cause of the hold is met and serviced (R288). -/
def State.holdOver (s : State) (p : Nat) (h : Hold) : Bool :=
  h.causes.all fun c => s.causeMet p c && h.serviced.contains c

/-- A wall-clock time in beat periods, rounded up (R289). -/
def periodsUp (fs : Nat) : Nat := (fs + 624999) / 625000

/-- The counters after a hold (R289). -/
def HoldCounts.afterHold (h : HoldCounts) (causes : List Nat) (fs : Nat) : HoldCounts :=
  let one (c : Nat) : Nat := if causes.contains c then 1 else 0
  { h with holds := h.holds + 1, holdt := h.holdt + periodsUp fs, xlath := h.xlath + one 1,
           collh := h.collh + one 2, replh := h.replh + one 3 }

/-- A service context returns to waiting (R290). -/
def Service.waiting (v : Service) : Service := { v with active := false, resumeAt := none }

/-- The service contexts of a partition return to waiting (R290). -/
def State.quiet (s : State) (p : Nat) : State :=
  (s.partAt p).ropes.foldl (fun s r => s.setSvc r (s.svcAt r).waiting) s

/-- The firmware of a partition that was entered with this cause is stopped, and no other (R290). -/
def State.quietFor (s : State) (p cause : Nat) : State :=
  (s.partAt p).ropes.foldl (fun s r => if (s.svcAt r).cause = cause then s.setSvc r (s.svcAt r).waiting else s) s

/-- The hold of a partition ends and is counted; the firmware entered for it runs no further (R288, R290). -/
def State.closeHold (s : State) (p : Nat) : State :=
  (s.quietFor p 1).onPart p fun q =>
    match q.hold with
    | some h => { q with hold := none, counts := q.counts.afterHold h.causes (s.wall - h.since) }
    | none => q

/-- Every rope's service context is entered with a cause (R290). -/
def State.enterAll (s : State) (p cause : Nat) (addr : Nat → Nat) : State :=
  (s.partAt p).ropes.foldl (fun s r => s.enterService r cause (addr r)) s

/-- A hold begins before the present beat: its missing pages are walked, in the order of R67, and firmware is entered
(R287, R290, R322). -/
def State.beginHold (s : State) (p : Nat) (causes : List Nat) (needs : List PageNeed) : State :=
  let i := (s.partAt p).step.resident
  let needs := sortBy (fun (a b : PageNeed) => a.org.before b.org) needs
  let s := needs.foldl (fun s n =>
    s.startWalk { part := p, rope := n.rope, idx := i, va := n.va, write := n.write, read := n.read, prefetch := none }) s
  (s.onPart p fun q => { q with hold := some { causes := causes, serviced := [], since := s.wall, needs := needs } }).enterAll
    p 1 fun _ => 0

/-- A latch makes this access: its word's, and due. -/
def Latch.makes (l : Latch) (x : Nat) (n : PageNeed) : Bool :=
  decide (l.org = n.org) && decide (l.act ≤ x) &&
    match l.eff with
    | .load .dev .. | .store .dev .. | .atomic .dev .. => true
    | _ => false

/-- A refused access is not made. -/
def State.refuse (s : State) (p : Nat) (n : PageNeed) : State :=
  let x := (s.partAt p).topo
  s.onCore n.rope n.org.core fun k =>
    { k with
      latches := k.latches.filter fun l => !l.makes x n,
      copies := k.copies.map fun c => if c.org = n.org then { c with pending := false } else c }

/-- Once every walk of the partition is done, the hold of refused accesses ends with their faults, before the held
beat (R322). -/
def State.refusals (s : State) (p : Nat) : State :=
  match (s.partAt p).hold with
  | some h =>
    if (s.walksOf p).isEmpty ∧ !h.refused.isEmpty then
      h.refused.foldl (fun s n => (s.raiseAt p .translation n.org n.va 0 true).refuse p n) (s.closeHold p)
    else s
  | none => s

/-- WALK_COMPLETE: walk k ends (R320, R322). -/
def execWalkComplete (k : Nat) (s : State) : Out :=
  match s.walks[k]? with
  | some w =>
    if s.walkRuns k then
      let s := { s with walks := s.walks.eraseIdx k }
      .next ((s.walkEnd w).refusals w.part)
    else .next s
  | none => .next s

/-- HOLD_END: a hold whose causes are met and serviced ends, and its beat proceeds (R288). -/
def execHoldEnd (p : Nat) (s : State) : Out :=
  match (s.partAt p).hold with
  | some h => if s.holdOver p h then .next (s.closeHold p) else .next s
  | none => .next s

/-! ## System registers (R274, R276) -/

/-- Fields of a RESMAP register (R276). -/
def mapLen (v : W64) : Nat := bits v.toNat 63 48
def mapBase (v : W64) : Nat := bits v.toNat 47 32
def mapValid (v : W64) : Bool := v.toNat.testBit 31
def mapCtx (v : W64) : Nat := bits v.toNat 9 0

/-- The value a RESMAP register has or is about to have. -/
def Partition.mapOf (q : Partition) (i : Nat) : W64 := (SMap.find q.resmapNew i).getD (SMap.get 0 q.resmap i)

/-- The RESMAP registers of a partition. -/
def mapIndexes : List Nat := range 0 32

/-- A RESMAP write that R276 ignores: it is judged as it is written, against what the other entries of its partition will
hold, and against what those of the other partitions hold and will hold.
(DESIGN CHOICE, log entry 29). -/
def State.mapBad (s : State) (p i : Nat) (v : W64) : Bool :=
  mapValid v &&
    (decide (mapLen v = 0) || decide (49152 < mapBase v + mapLen v)
      || (mapIndexes.any fun j =>
        let w := (s.partAt p).mapOf j
        decide (j ≠ i) && mapValid w && decide (mapBase w < mapBase v + mapLen v) && decide (mapBase v < mapBase w + mapLen w))
      || (range 0 s.nparts).any fun p' => mapIndexes.any fun j =>
        let q := s.partAt p'
        let names (w : W64) : Bool := mapValid w && decide (mapCtx w = mapCtx v)
        if p' = p then decide (j ≠ i) && names (q.mapOf j) else names (q.mapOf j) || names (SMap.get 0 q.resmap j))

/-- A RESMAP value with its read-only fields zero. -/
def mapWritten (v : W64) : W64 :=
  BitVec.ofNat 64 (mapLen v * 2 ^ 48 + mapBase v * 2 ^ 32 + (if mapValid v then 2 ^ 31 else 0) + mapCtx v)

/-- A write of system register n of partition p, from firmware or the host (R272 to R276). Read-only
registers ignore it; CTXBASE keeps its low 8 bits zero.
(DESIGN CHOICE, log entry 14). -/
def State.writeSys (s : State) (p n : Nat) (v : W64) : State :=
  if n = 3 then { s with ctxbase := some (v.toNat / 256 * 256) }
  else if 0x20 ≤ n ∧ n < 0x40 then
    if s.mapBad p (n - 0x20) v then s
    else s.onPart p fun q => { q with resmapNew := SMap.put q.resmapNew (n - 0x20) (mapWritten v) }
  else s

end Sys2Proof.Machine
end

