-- ==== Sys2Proof/Machine/Engine.lean ====
section
/-!
DEFINITION. What happens on a beat after its words: latches, stores, loads and atomics perform (R50, R76,
R96 to R98, R156, R157), accumulating words and copies sample and write (R92, R94, R213, R231 to R247),
flits arrive (R95), collective results perform (R102), and a pitch is replayed (R339 to R341).
-/

namespace Sys2Proof.Machine

/-! ## The pitch's shadow (R340, R341) -/

/-- A retained command's word. -/
def PitchCmd.org : PitchCmd → Origin
  | .acc a => a.org
  | .zero o .. => o
  | .scale o .. => o
  | .other o => o

/-- A word of the open pitch. -/
def Pitch.holds (x : Pitch) (o : Origin) : Bool := x.commands.any fun c => c.org = o

/-- The bytes of a bank. -/
def bankImage (acc : SMap Byte) (n : Nat) : SMap Byte := acc.filter fun e => e.1 / 0x4000 = n

/-- 64-bit words of a bank. -/
def bankWords : Nat := 0x800

/-- The ECC marks of a bank's words. -/
def bankMarks (ecc : SMap Nat) (n : Nat) : SMap Nat := ecc.filter fun e => e.1 / bankWords = n

/-- A command of the open pitch is about to write a bank: its image enters the shadow once. -/
def Core.shade (k : Core) (o : Origin) (n : Nat) : Core :=
  if k.pitch.holds o && !(k.pitch.shadow.any fun x => x.1 = n) then
    { k with pitch := { k.pitch with shadow := k.pitch.shadow ++ [(n, bankImage k.acc n, bankMarks k.accEcc n)] } }
  else k

/-- A bank is written by something other than the M track (R341). -/
def Core.touchBank (k : Core) (n : Nat) : Core :=
  if k.pitch.touched.contains n then k else { k with pitch := { k.pitch with touched := n :: k.pitch.touched } }

/-! ## Order within a track (R96 to R98) -/

/-- The other writes of a track after word w writes bytes on beat b: an earlier word's write still to come
loses them (R96), or, where the classes differ, races with this one (R98). -/
def Latch.after (k : Core) (b : Nat) (w : Origin) (cls : Nat) (sp : Space) (addrs : List Nat) (free : Nat) (l : Latch) : Latch :=
  let mine (sp' : Space) : Bool := decide (sp' = sp) && decide (l.org.track = w.track) && decide (l.org ≠ w) && decide (b ≤ l.act)
  let same (c' : Nat) : Bool := k.sameClass w.track l.org.issue c' w.issue cls || k.sameClass w.track w.issue cls l.org.issue c'
  let gone (c' : Nat) (a : Nat) : Bool := decide (l.org.issue < w.issue) && same c' && addrs.contains a
  let races (c' : Nat) (a : Nat) : Bool :=
    (decide (l.org.issue < w.issue) || decide (l.act = b)) && !same c' && addrs.contains a && raceShows free l.org.issue a
  match l.eff with
  | .store sp' cells c' raced =>
    if mine sp' then
      { l with eff := .store sp' (cells.filter fun x => !gone c' x.1) c' (raced ++ (cells.map (·.1)).filter (races c')) }
    else l
  | .atomic sp' a z fn x d u c' skip raced alts =>
    if mine sp' then
      { l with eff := .atomic sp' a z fn x d u c' (skip ++ (range a z).filter (gone c')) (raced ++ (range a z).filter (races c')) alts }
    else l
  | _ => l

/-- The bytes that a latch has still to read, and its class. -/
def Latch.reads (l : Latch) (sp : Space) : List Nat × Nat :=
  match l.eff with
  | .load sp' a z _ _ _ c => if sp' = sp then (range a z, c) else ([], 0)
  | .atomic sp' a z _ _ _ _ c .. => if sp' = sp then (range a z, c) else ([], 0)
  | .loadRow _ _ _ fetch _ c => if sp = .spad then (fetch.map (·.2), c) else ([], 0)
  | _ => ([], 0)

/-- The first byte that word w may not write on beat b, because an earlier same-class word of its track
has still to read it (R97). -/
def Core.orderBad (k : Core) (b : Nat) (w : Origin) (cls : Nat) (sp : Space) (addrs : List Nat) : Option Nat :=
  k.latches.findSome? fun l =>
    let (rs, c) := l.reads sp
    if l.org.track = w.track ∧ l.org.issue < w.issue ∧ b < l.act ∧ k.sameClass w.track l.org.issue c w.issue cls then
      rs.find? addrs.contains
    else none

/-- An atomic of this very beat, issued later and of another class, which reads as it writes, keeps the bytes that word w is
about to overwrite, since it may see either (R98). Any other read that samples after a write sees it (R76). -/
def Latch.keep (k : Core) (b : Nat) (w : Origin) (cls : Nat) (sp : Space) (old : List Host.Cell) (l : Latch) : Latch :=
  match l.eff with
  | .atomic sp' a z fn x d u c skip raced alts =>
    let new := old.filter fun y => decide (a ≤ y.1) && decide (y.1 < a + z)
    if sp' = sp ∧ l.org.track = w.track ∧ w.issue < l.org.issue ∧ l.act = b ∧ !k.sameClass w.track w.issue cls l.org.issue c
        ∧ !new.isEmpty then
      { l with eff := .atomic sp' a z fn x d u c skip raced (alts ++ [(w.issue, new)]) }
    else l
  | _ => l

/-- The core after word w of it wrote cells, for the other accesses of the track. -/
def Core.wrote (k : Core) (b : Nat) (w : Origin) (cls : Nat) (sp : Space) (old : List Host.Cell) (free : Nat) : Core :=
  let ls := k.latches.map fun l => (l.keep k b w cls sp old).after k b w cls sp (old.map (·.1)) free
  { k with latches := ls }

/-! ## Where an engine acts -/

/-- A core, or (svc) a service context's sequencer. -/
structure Home where
  p : Nat
  r : Nat
  c : Nat
  svc : Bool

/-- The registers at a home. -/
def State.homeCore (s : State) (h : Home) : Core := if h.svc then (s.svcAt h.r).seq else s.coreAt h.r h.c

/-- Change the registers at a home. -/
def State.onHome (s : State) (h : Home) (f : Core → Core) : State :=
  if h.svc then s.setSvc h.r { s.svcAt h.r with seq := f (s.svcAt h.r).seq } else s.onCore h.r h.c f

/-- The present beat at a home. -/
def State.homeNow (s : State) (h : Home) : Nat := if h.svc then (s.svcAt h.r).period else (s.partAt h.p).topo

/-- A fault of a word at a home (R67, R294). -/
def State.homeRaise (s : State) (h : Home) (cls : FaultClass) (o : Origin) (d d2 : Nat) : State :=
  if h.svc then s.raiseService h.p cls o d d2 else s.raiseAt h.p cls o d d2

/-- The memory a home's access of a space reaches. -/
def State.homeMem (s : State) (h : Home) (sp : Space) : SMap Byte := if h.svc then s.mem else s.memOf h.r h.c sp

/-- The physical place of a home's access: a service context's device address is physical (R271). -/
def State.homePlace (s : State) (h : Home) (sp : Space) (a : Nat) (w r : Bool) : Xlate :=
  if h.svc then .hit a else s.place h.p h.r sp a w r

/-- Schedule an effect for a word at a home. -/
def State.later (s : State) (h : Home) (o : Origin) (act : Nat) (e : Effect) : State :=
  s.onHome h fun k => { k with latches := k.latches ++ [{ org := o, act := act, eff := e }] }

/-- The rows of addresses, each once, for the banks they take (R78). -/
def rowsOfAddrs (as : List Nat) : List Nat := (as.map (· / 256)).eraseDups

/-! ## Stores and loads -/

/-- Check a read at a home and take its banks: the early-read table for the bytes read, then one access per row
(R69, R78). -/
def State.homeRead (s : State) (h : Home) (sp : Space) (as : List Nat) (o : Origin) : State :=
  if h.svc || sp = .dev then s
  else
    let s := (spansOf as).foldl (fun s x => s.earlyCheck h.p h.r h.c sp x.1 x.2 o) s
    (rowsOfAddrs as).foldl (fun s row => s.takeRead h.p h.r h.c sp (row * 256) o) s

/-- Take the banks of a write at a home. -/
def State.homeWrite (s : State) (h : Home) (sp : Space) (as : List Nat) (o : Origin) : State :=
  if h.svc || sp = .dev then s
  else (rowsOfAddrs as).foldl (fun s row => s.takeWrite h.p h.r h.c sp (row * 256) o) s

/-- The marks of a home's read. -/
def State.homeEcc (s : State) (h : Home) (sp : Space) (a n : Nat) : State × Nat :=
  if h.svc then (s, eccOver s.memEcc 64 a n) else s.eccRead h.r h.c sp a n

/-- Consumed poison of [a, a + n) at a home: DETAIL is the first bad word or line (R337, R342). -/
def State.homePoisoned (s : State) (h : Home) (sp : Space) (a n : Nat) (o : Origin) : State :=
  let (marks, u) := if h.svc then (s.memEcc, 64) else s.eccOf h.r h.c sp
  s.homeRaise h .dataError o (sp.tagged (eccBadAt marks u a n)) (if sp = .dev then 2 else 1)

/-- Bytes a ... a + n - 1 of a home as they stand for word o on this beat, and what lies over them, or none after a fault.
late: as for layers. -/
def State.fetchBytes (s : State) (h : Home) (sp : Space) (a n cls late : Nat) (o : Origin) (alts : List (Nat × List Host.Cell)) :
    State × Option (List Byte × List (Nat × List Host.Cell)) :=
  match s.homePlace h sp a false true with
  | .hit pa =>
    let s := if sp = .dev ∧ !h.svc then s.touch h.p h.r a else s.homeRead h sp (range a n) o
    let (s, m) := s.homeEcc h sp pa n
    if m = 2 then (s.homePoisoned h sp pa n o, none)
    else
      let bs := withAlts (s.free + 1) a (Mem.bytes (s.homeMem h sp) pa n) alts
      ({ s with free := s.free + 2 }, some (bs, (s.homeCore h).layers o sp cls (s.homeNow h) late s.free))
  | _ => (s.homeRaise h .translation o a 0, none)

/-- Write cells of one access at a home, each run at its physical place. -/
def State.putCells (s : State) (h : Home) (sp : Space) (pa a : Nat) (cells : List Host.Cell) : State :=
  let cs := if sp = .dev then cells.map fun x => (pa + (x.1 - a), x.2) else cells
  if h.svc then (runsOf cs).foldl (fun s x => s.putOutside x.1 x.2) s
  else s.pokeCells h.r h.c sp cs

/-- The write of one access by word o: its order within the track, and its bytes but for those where a racing write
stands (R76, R96 to R98). -/
def State.writeBytes (s : State) (h : Home) (o : Origin) (sp : Space) (pa a cls : Nat) (cells : List Host.Cell)
    (raced : List Nat) : State :=
  let b := s.homeNow h
  match (s.homeCore h).orderBad b o cls sp (cells.map (·.1)) with
  | some x => s.homeRaise h .classOrder o x cls
  | none =>
    let cells := cells.filter fun x => !raced.contains x.1
    let old := cells.map fun x => (x.1, Mem.byte (s.homeMem h sp) (if sp = .dev then pa + (x.1 - a) else x.1))
    let s := s.onHome h fun k => k.wrote b o cls sp old s.free
    ({ s with free := s.free + 1 }).putCells h sp pa a cells

/-- A store performs (R76, R154, R206): it takes the banks of its bytes, whatever becomes of them in a race (R78, R98); one
with every byte suppressed (R96) takes none.
(DESIGN CHOICE, log entry 88). -/
def State.performStore (s : State) (h : Home) (o : Origin) (sp : Space) (cells : List Host.Cell) (cls : Nat) (raced : List Nat) :
    State :=
  match cells with
  | [] => s
  | (a, x) :: cs =>
    let cells := (a, x) :: cs
    match s.homePlace h sp a true false with
    | .hit pa =>
      let s := if sp = .dev ∧ !h.svc then s.touch h.p h.r a else s
      (s.homeWrite h sp (cells.map (·.1)) o).writeBytes h o sp pa a cls cells raced
    | _ => s.homeRaise h .translation o a 0

/-- The value a load delivers: Sx or Zx of its bytes (R154). -/
def extend (sx_ : Bool) (bs : List Byte) : W64 :=
  if sx_ then sx (8 * bs.length) (leNat bs) else zx (8 * bs.length) (leNat bs)

/-- An s register becomes usable later with the residue of its value (R332). -/
def State.laterS (s : State) (h : Home) (o : Origin) (usable dst : Nat) (v : W64) : State :=
  s.later h o usable (.sreg dst v (residueOf v))

/-- The earliest beat from b on, and before the read is usable, on which an atomic of word o's track, issued earlier, forms
bytes that a read of [a, a + n) may see: one that acts on b, or one of another class (R96, R98). -/
def Core.atomicBefore (k : Core) (b usable : Nat) (o : Origin) (sp : Space) (cls a n : Nat) : Option Nat :=
  k.latches.foldl (fun x l =>
    match l.eff with
    | .atomic sp' a' n' _ _ _ _ c .. =>
      if sp' = sp ∧ l.org.track = o.track ∧ l.org.issue < o.issue ∧ a' < a + n ∧ a < a' + n' ∧ b ≤ l.act ∧ l.act < usable
          ∧ (l.act = b ∨ !k.sameClass o.track l.org.issue c o.issue cls) then
        some (min l.act (x.getD l.act))
      else x
    | _ => x) none

/-- A load has what it samples: it delivers its register, or waits for the next atomic. -/
def State.finishLoad (s : State) (h : Home) (o : Origin) (sp : Space) (a : Nat) (sx_ : Bool) (dst usable cls from_ : Nat)
    (bs : List Byte) (laid : List (Nat × List Host.Cell)) : State :=
  match (s.homeCore h).atomicBefore from_ usable o sp cls a bs.length with
  | some t => s.later h o t (.loadAfter sp a sx_ dst usable cls bs laid)
  | none => s.laterS h o usable dst (extend sx_ (layered a bs laid))

/-- A scalar load samples (R77). Two accesses of one core to device memory that a change of gear brings to one beat both
happen (R85).
(DESIGN CHOICE, log entry 98). -/
def State.performLoad (s : State) (h : Home) (o : Origin) (sp : Space) (a n : Nat) (sx_ : Bool) (dst usable cls : Nat) :
    State :=
  match s.fetchBytes h sp a n cls usable o [] with
  | (s, some (bs, laid)) => s.finishLoad h o sp a sx_ dst usable cls (s.homeNow h) bs laid
  | (s, none) => s

/-- A load goes on after the atomics of its beat: it reads what those of its class wrote (R96), and may read what
the others did (R98), each in the place of its issue among the writes that it sees. -/
def State.performLoadAfter (s : State) (h : Home) (o : Origin) (sp : Space) (a : Nat) (sx_ : Bool)
    (dst usable cls : Nat) (base : List Byte) (laid : List (Nat × List Host.Cell)) : State :=
  let k := s.homeCore h
  let done := (k.atomDone.filter fun (eo, _, sp', _) => decide (sp' = sp ∧ eo.track = o.track ∧ eo.issue < o.issue)).map
    fun (eo, ec, _, cells) => k.seen o eo cls ec s.free cells
  let laid := sortBy (fun (x y : Nat × List Host.Cell) => decide (x.1 < y.1)) (laid ++ done)
  ({ s with free := s.free + 1 }).finishLoad h o sp a sx_ dst usable cls (s.homeNow h + 1) base laid

/-- LDA samples: the bank that ea lies in, as it stands. An unallocated one is read all the same, on its port and
under the early-read check, as zero (R69, R79, R81, R155). -/
def State.performLda (s : State) (h : Home) (o : Origin) (a n : Nat) (sx_ : Bool) (dst usable : Nat) : State :=
  let k := s.homeCore h
  let bank := bankOf a
  if !k.allocated bank then
    ((s.homeRead h .acc (range a n) o).onHome h fun k => k.sticky stUnallocRead).laterS h o usable dst 0
  else if (k.bank bank).owner (rowOf a) ≠ 0 then s.homeRaise h .band o bank (rowOf a)
  else
    match s.fetchBytes h .acc a n 0 0 o [] with
    | (s, some (bs, _)) => s.laterS h o usable dst (extend sx_ bs)
    | (s, none) => s

/-- VLD, VLDS and VGATH sample: the fetched bytes go to their places in the row (R203 to R205). -/
def State.performLoadRow (s : State) (h : Home) (o : Origin) (bank row : Nat) (base : List Byte)
    (fetch : List (Nat × Nat)) (write cls : Nat) : State :=
  let as := fetch.map (·.2)
  let s := s.homeRead h .spad as o
  let worst := (as.map (· / 8)).eraseDups.foldl (fun (x : State × Option Nat) w =>
    let (s, m) := x.1.homeEcc h .spad (8 * w) 8
    (s, if m = 2 ∧ x.2.isNone then some (8 * w) else x.2)) (s, none)
  match worst with
  | (s, some a) => s.homePoisoned h .spad a 8 o
  | (s, none) =>
    let k := s.homeCore h
    let b := s.homeNow h
    let laid := k.layers o .spad cls b 0 s.free
    let bytes := fetch.foldl (fun (bs : List Byte) (i, a) =>
      match layered a [Mem.byte k.spad a] laid with
      | y :: _ => bs.set i y
      | [] => bs) base
    ({ s with free := s.free + 1 }).later h o write (.row bank row bytes)

/-- An atomic reads and writes as one access (R156, R157). -/
def State.performAtomic (s : State) (h : Home) (o : Origin) (sp : Space) (a n : Nat) (fn : AtomFn) (x : W64)
    (dst usable cls : Nat) (skip raced : List Nat) (alts : List (Nat × List Host.Cell)) : State :=
  match s.homePlace h sp a true true with
  | .hit pa =>
    match s.fetchBytes h sp a n cls 0 o alts with
    | (s, some (bs, laid)) =>
      let bs := layered a bs laid
      let w := 8 * n
      let new := toLe n (fn.apply w (leNat bs) x.toNat)
      let cells := (cellsAt a new).filter fun c => !skip.contains c.1
      let s := s.writeBytes h o sp pa a cls cells raced
      let cells := cells.filter fun c => !raced.contains c.1
      let s := s.onHome h fun k => { k with atomDone := k.atomDone ++ [(o, cls, sp, cells)] }
      s.laterS h o usable dst (extend true bs)
    | (s, none) => s
  | _ => s.homeRaise h .translation o a 0

/-! ## Row writes, banks and control latches -/

/-- A row write performs: an unallocated bank faults, and the write port is taken (R79, R81, R180). -/
def State.performRow (s : State) (h : Home) (o : Origin) (bank row : Nat) (bs : List Byte) : State :=
  if !(s.homeCore h).allocated bank then s.homeRaise h .unallocatedWrite o bank row
  else
    let a := bank * 0x4000 + row * 0x100
    ((s.takeWrite h.p h.r h.c .acc a o).onHome h fun k => k.touchBank bank).poke h.r h.c .acc a bs

/-- One row of a BFREE or MZERO (R224, R226). -/
def State.performZero (s : State) (h : Home) (o : Origin) (bank next left period : Nat) (freeing : Bool) : State :=
  let a := bank * 0x4000 + next * 0x100
  if !freeing && !(s.homeCore h).allocated bank then s.homeRaise h .unallocatedWrite o bank next
  else
    let s := (s.takeWrite h.p h.r h.c .acc a o).onHome h fun k => k.shade o bank
    let s := s.poke h.r h.c .acc a (zeros 256)
    if left ≤ 1 then s
    else s.later h o (s.homeNow h + period) (.zeroRows bank (next + 1) (left - 1) period freeing)

/-- Change a bank's table entry. -/
def Core.onBank (k : Core) (n : Nat) (f : Bank → Bank) : Core :=
  { k with banks := SMap.modify { type := 0, owners := 0, freeFrom := 0 } k.banks n f }

/-- The 64 scales at an address of a scratchpad (R117). -/
def scalesIn (spad : SMap Byte) (a : Nat) : List W16 := (range 0 64).map fun i => BitVec.ofNat 16 (Mem.nat spad (a + 2 * i) 2)

/-- Use 64 scales on side A or, where b, B. -/
def Core.useScales (k : Core) (b : Bool) (vals : List W16) : Core :=
  if b then { k with sB := SMap.setAll 0 k.sB 0 vals } else { k with sA := SMap.setAll 0 k.sA 0 vals }

/-- MSCALE samples its 64 scales (R220). -/
def State.performScales (s : State) (h : Home) (o : Origin) (b : Bool) (a use : Nat) : State :=
  let s := (s.homeRead h .spad (range a 128) o).engineEcc h.r h.c (s.homeNow h) a 128 o
  s.later h o use (.scaleUse b a (s.homeNow h) (scalesIn (s.homeCore h).spad a))

/-- PROT (R210). -/
def Core.rotate (k : Core) (m : BitVec 3) : Core :=
  if m = 4 then { k with rb := 0, pb := 0 }
  else
    let k := if m.getLsbD 0 then { k with rb := (k.rb + 31) % 32 } else k
    if m.getLsbD 1 then { k with pb := (k.pb + 63) % 64 } else k

/-- Start the walk of an XPRE whose page is still absent (R172). -/
def State.performXpre (s : State) (h : Home) (va : Nat) (big : Bool) : State :=
  match s.translate h.p h.r va false false with
  | .missing =>
    let w : Walk := { part := h.p, rope := h.r, idx := (s.partAt h.p).step.resident, va := va, write := false,
                      read := false, prefetch := some big }
    if s.worthWalk w then s.startWalk w else s
  | _ => s

/-- The stage of a beat in which a latch acts: 1 registers and control, before the beat's words; 2 samples;
3 writes. -/
def Effect.stage : Effect → Nat
  | .sreg .. | .dreg .. | .pred .. | .bindWin .. | .omap .. | .alloc .. | .free .. | .owners .. | .rmode .. | .ftab ..
  | .scaleUse .. | .prot .. | .statClear .. | .sysWrite .. | .xlatWrite .. | .xlatClear .. | .xpre .. => 1
  | .load .. | .loadElem .. | .loadRow .. | .scaleLoad .. => 2
  | .row .. | .store .. | .loadAfter .. | .atomic .. | .zeroRows .. | .ringPop .. | .ringInit .. | .ringPush .. => 3

/-- Ring registers change after everything else of a beat (R84). -/
def Effect.onRing : Effect → Bool
  | .ringPop .. | .ringInit .. | .ringPush .. => true
  | _ => false

/-- An effect happens at its home, for word o (R50). -/
def State.performEffect (s : State) (h : Home) (o : Origin) (e : Effect) : State :=
  match e with
  | .sreg n v res => s.onHome h fun k => k.putS n v res
  | .dreg n v => s.onHome h fun k => { k with dregs := SMap.set 0 k.dregs n v }
  | .pred n v => s.onHome h fun k => { k with preds := SMap.set 0 k.preds n v }
  | .row bank row bs => s.performRow h o bank row bs
  | .store sp cells cls raced => s.performStore h o sp cells cls raced
  | .load sp a n sx_ dst usable cls => s.performLoad h o sp a n sx_ dst usable cls
  | .loadAfter sp a sx_ dst usable cls base laid => s.performLoadAfter h o sp a sx_ dst usable cls base laid
  | .loadElem a n sx_ dst usable => s.performLda h o a n sx_ dst usable
  | .loadRow bank row base fetch write cls => s.performLoadRow h o bank row base fetch write cls
  | .atomic sp a n fn x dst usable cls skip raced alts => s.performAtomic h o sp a n fn x dst usable cls skip raced alts
  | .bindWin w bank => s.onHome h fun k => if w then { k with wwin := bank } else { k with vwin := bank }
  | .omap m => s.onHome h fun k => { k with omap := m }
  | .alloc bank type owners => s.onHome h fun k => k.onBank bank fun _ => { type := type, owners := owners, freeFrom := 0 }
  | .free bank at_ => s.onHome h fun k => k.onBank bank fun _ => { type := 0, owners := 0, freeFrom := at_ }
  | .owners bank owners => s.onHome h fun k => k.onBank bank fun b => { b with owners := owners }
  | .zeroRows bank next left period freeing => s.performZero h o bank next left period freeing
  | .rmode m sat => s.onHome h fun k => { k with mmode := m, msat := sat }
  | .ftab n v => s.onHome h fun k => { k with fregs := SMap.set 0 k.fregs n v }
  | .scaleLoad b a use => s.performScales h o b a use
  | .scaleUse b _ _ vals => s.onHome h fun k => k.useScales b vals
  | .ringPop q n => s.onHome h fun k => k.pops q n
  | .ringInit q v => s.onHome h fun k => k.ringReset q v
  | .ringPush q => s.onHome h fun k => k.push q
  | .prot m => s.onHome h fun k => k.rotate m
  | .statClear mask => s.onHome h fun k => { k with status := k.status &&& ~~~mask }
  | .sysWrite n v => s.writeSys h.p n v
  | .xlatWrite v i => s.install h.r (xlatwEntry v i)
  | .xlatClear v i all => s.xlatClear h.r v i all
  | .xpre va big => s.performXpre h va big

/-- A latch performs at its home: its effect, or the residue fault that takes its place (R50, R333). -/
def State.performLatch (s : State) (h : Home) (l : Latch) : State :=
  match l.bad with
  | some d => s.homeRaise h .residue l.org d.1 d.2
  | none => s.performEffect h l.org l.eff

/-- WRITE_PERFORM: latch k of a core acts when its beat has come (R50). Number 8 names the rope's service
sequencer in place of a core. -/
def execWritePerform (r c k : Nat) (s : State) : Out :=
  let h : Home := { p := s.partOf r, r := r, c := c, svc := decide (8 ≤ c) }
  match (s.homeCore h).latches[k]? with
  | some l =>
    if l.act ≤ s.homeNow h then
      .next ((s.onHome h fun k' => { k' with latches := k'.latches.eraseIdx k }).performLatch h l)
    else .next s
  | none => .next s

/-! ## Accumulating words (R213) -/

/-- The beat of an accumulating word's next chunk. -/
def AccOp.nextBeat (a : AccOp) : Nat := a.start + a.gear * (a.cold + a.next)

/-- The tiles that chunk n reads: A for the first sixteen, then every B tile with rows of its own. -/
def AccOp.chunkAddrs (a : AccOp) (n : Nat) : List Nat :=
  if n < 16 then [a.aAddr + 256 * n]
  else (a.bTiles.filter fun t => t.count ≠ 0).map fun t => t.addr + 256 * (n - 16)

/-- The accumulating word with chunk n's bytes taken from a scratchpad. -/
def AccOp.take (a : AccOp) (spad : SMap Byte) (n : Nat) : AccOp :=
  if n < 16 then { a with next := n + 1, aBytes := a.aBytes ++ Mem.bytes spad (a.aAddr + 256 * n) 256 }
  else
    { a with
      next := n + 1
      bBytes := List.zipWith (fun (t : BTile) (bs : List Byte) =>
        if t.count ≠ 0 then bs ++ Mem.bytes spad (t.addr + 256 * (n - 16)) 256 else bs) a.bTiles a.bBytes }

/-- Replace a core's accumulating word by the same word further on. -/
def Core.putAcc (k : Core) (a : AccOp) : Core := { k with accops := k.accops.map fun x => if x.org = a.org then a else x }

/-- The tile chunk of an accumulating word that is due now (R76, R78, R213). -/
def State.sampleTile (s : State) (p r c : Nat) (a : AccOp) : State :=
  let s := (a.chunkAddrs a.next).foldl (fun s x =>
    ((s.earlyCheck p r c .spad x (x + 256) a.org).takeRead p r c .spad x a.org).engineEcc r c (s.partAt p).topo x 256 a.org) s
  s.onCore r c fun k => k.putAcc (a.take k.spad a.next)

/-- The accumulator elements that the writeback reads and writes. -/
def AccOp.elements (a : AccOp) : List Nat :=
  (range 0 a.rows).flatMap fun i => (range 0 64).filterMap fun j =>
    if a.cols.getLsbD j then some (a.bank * 0x4000 + i * 0x100 + elemSize a.acc * j) else none

/-- The address ranges of those elements, row by row. -/
def AccOp.spans (a : AccOp) : List (Nat × Nat) :=
  let z := elemSize a.acc
  let runs := spansOf ((range 0 64).filter a.cols.getLsbD)
  (range 0 a.rows).flatMap fun i => runs.map fun x =>
    (a.bank * 0x4000 + i * 0x100 + z * x.1, a.bank * 0x4000 + i * 0x100 + z * x.2)

/-- The first poisoned word of the accumulator elements that the writeback reads (R337). -/
def AccOp.badWord (a : AccOp) (ecc : SMap Nat) : Option Nat :=
  (a.elements.find? fun x => eccOver ecc 8 x (elemSize a.acc) = 2).map fun x => eccBadAt ecc 8 x (elemSize a.acc)

/-- Write cells of accumulator memory. -/
def State.writeAcc (s : State) (r c : Nat) (cells : List Host.Cell) : State := s.pokeCells r c .acc cells

/-- The writeback of an accumulating word on W: it samples its elements under the early-read check and writes them (R69, R79,
R213). A poisoned accumulator asks for a replay. -/
def State.writeback (s : State) (p r c : Nat) (a : AccOp) : State :=
  let s := s.onCore r c fun k => { k with accops := k.accops.filter fun x => x.org ≠ a.org }
  let k := s.coreAt r c
  if a.rows = 0 ∨ a.cols = 0 then s
  else if !k.allocated a.bank then s.raiseAt p .unallocatedWrite a.org a.bank 0
  else
    let s := a.spans.foldl (fun s x => s.earlyCheck p r c .acc x.1 x.2 a.org) s
    let s := s.takeWrite p r c .acc (a.bank * 0x4000) a.org
    let s := if a.elements.any fun x => eccCorrected k.accEcc 8 x (elemSize a.acc) then
        s.onCore r c fun k => k.sticky stEccCorr
      else s
    match a.badWord k.accEcc with
    | some x => s.onCore r c fun k => k.askReplay (s.partAt p).topo a.org (Space.acc.tagged x)
    | none => (s.onCore r c fun k => k.shade a.org a.bank).writeAcc r c (a.cells k.acc)

/-- MMA_WRITEBACK: accumulating word k of a core writes its rows when W has come (R213). -/
def execMmaWriteback (r c k : Nat) (s : State) : Out :=
  let p := s.partOf r
  match (s.coreAt r c).accops[k]? with
  | some a => if a.w ≤ (s.partAt p).topo ∧ a.next = 32 then .next (s.writeback p r c a) else .next s
  | none => .next s

/-! ## Replay (R340, R341) -/

/-- A group table read again (R216). -/
def AccOp.regroup (a : AccOp) (spad : SMap Byte) : AccOp :=
  match a.table with
  | some t =>
    let bs := Mem.bytes spad t 16
    let cs := ((bs.take 8).map BitVec.toNat).take (bs.getD 8 0).toNat
    { a with bTiles := groupTiles a.ringB 0 0 cs, rows := cs.sum, tableBytes := bs }
  | none => a

/-- An accumulating word with its chunks 0 to n - 1 sampled again. -/
def AccOp.resample (a : AccOp) (spad : SMap Byte) (n : Nat) : AccOp :=
  let a := a.regroup spad
  (range 0 n).foldl (fun a i => a.take spad i) { a with next := 0, aBytes := [], bBytes := a.bTiles.map fun _ => [] }

/-- Chunks of a word sampled on beats up to y. -/
def AccOp.chunksBy (a : AccOp) (y : Nat) : Nat :=
  ((range 0 32).filter fun n => decide (a.start + a.gear * (a.cold + n) ≤ y)).length

/-- A re-sample of these chunks, or of the group table, is uncorrectable again. -/
def AccOp.badAgain (a : AccOp) (ecc : SMap Nat) (n : Nat) : Bool :=
  ((range 0 n).any fun i => (a.chunkAddrs i).any fun x => eccOver ecc 8 x 256 = 2)
    || match a.table with
      | some t => eccOver ecc 8 t 16 = 2
      | none => false

/-- Write bytes of a core's accumulator memory, with their marks. -/
def Core.pokeAcc (k : Core) (a : Nat) (bs : List Byte) : Core :=
  { k with acc := Mem.put k.acc a bs, accEcc := eccWrite k.accEcc 8 a bs.length }

/-- Restore the shadow's images. -/
def Core.restoreShadow (k : Core) : Core :=
  k.pitch.shadow.foldl (fun k (n, image, marks) =>
    { k with acc := Mem.putCells (SMap.clear k.acc (n * 0x4000) ((n + 1) * 0x4000)) image,
             accEcc := marks.foldl (fun m e => SMap.set 0 m e.1 e.2)
               (SMap.clear k.accEcc (n * bankWords) ((n + 1) * bankWords)) }) k

/-- The address of the pitch's latest MSCALE of a side that a word issued on beat b uses. -/
def Pitch.scaleAt (x : Pitch) (side : Bool) (b : Nat) : Option Nat :=
  (x.commands.filterMap fun c =>
    match c with
    | .scale _ side' a _ use => if side' = side ∧ use ≤ b then some a else none
    | _ => none).getLast?

/-- An accumulating word with its scales sampled again. -/
def Core.rescale (k : Core) (a : AccOp) : AccOp :=
  let again (side : Bool) (old : List W16) : List W16 :=
    if old.isEmpty then old
    else
      match k.pitch.scaleAt side a.org.issue with
      | some x => scalesIn k.spad x
      | none => old
  { a with sA := again false a.sA, sB := again true a.sB }

/-- Run one retained command again, on the state of beat y (R340); the second part says that a re-sample or an
accumulator read was uncorrectable again (R341, R347).
(DEDUCED, log entry 36). -/
def Core.rerun (y : Nat) (x : Core × Bool) (cmd : PitchCmd) : Core × Bool :=
  let (k, bad) := x
  match cmd with
  | .acc a =>
    if y < a.org.issue then (k, bad)
    else
      let n := a.chunksBy y
      let a := (k.rescale a).resample k.spad n
      let bad := bad || a.badAgain k.spadEcc n
      if a.w ≤ y then
        ((runsOf (a.cells k.acc)).foldl (fun k e => k.pokeAcc e.1 e.2)
          { k with accops := k.accops.filter fun x => x.org ≠ a.org }, bad || (a.badWord k.accEcc).isSome)
      else (k.putAcc a, bad)
  | .zero _ bank first rows period =>
    ((range 0 rows).foldl (fun k i =>
      if first + period * i ≤ y then k.pokeAcc (bank * 0x4000 + i * 0x100) (zeros 256) else k) k, bad)
  | .scale o side a at_ use =>
    if y < at_ then (k, bad)
    else
      let vals := scalesIn k.spad a
      let k := if use ≤ y then k.useScales side vals
        else { k with latches := k.latches.map fun l => if l.org = o then { l with eff := .scaleUse side a at_ vals } else l }
      (k, bad || decide (eccOver k.spadEcc 8 a 128 = 2))
  | .other _ => (k, bad)

/-- The pitch restored and run again up to beat y. -/
def Core.replayed (k : Core) (y : Nat) : Core × Bool :=
  let k := k.restoreShadow
  k.pitch.commands.foldl (Core.rerun y) (k, false)

/-- The escalation reason of a replay for word o, in the order of R341. again: a read was uncorrectable again. -/
def Core.escalates (k : Core) (o : Origin) (again : Bool) : Option Nat :=
  let x := k.pitch
  if !x.holds o then some 1
  else if again then some 2
  else if x.pushed then some 3
  else if x.shadow.any (fun e => x.touched.contains e.1) then some 4
  else none

/-- A word that issued on the beat on which a fault was found leaves nothing behind, in the counts of R349 and the gear's
window neither (R67). -/
def Core.dropIssued (k : Core) (x : Nat) : Core :=
  let opened := k.window.any fun w => decide (w.opened = x)
  let cold := (k.accops.filter fun a => decide (a.org.issue = x) && decide (a.cold ≠ 0)).length
  { k with window := if opened then none else k.window,
           ramps := k.ramps.filter (· ≠ x),
           tele := { k.tele with
             gears := k.tele.gears - (if opened then 1 else 0), cold := k.tele.cold - cold,
             ramps := k.tele.ramps - (k.ramps.filter (· = x)).length },
           latches := k.latches.filter fun l => l.org.issue ≠ x, copies := k.copies.filter fun c => c.org.issue ≠ x,
           accops := k.accops.filter fun a => a.org.issue ≠ x, sends := k.sends.filter fun y => y.org.issue ≠ x,
           recvs := k.recvs.filter fun y => y.org.issue ≠ x }

/-- Drop what the present beat's words left when a fault was found on it. -/
def State.dropIssued (s : State) (p : Nat) : State :=
  let q := s.partAt p
  match q.fault with
  | some f =>
    if f.beat = q.topo ∧ q.step.outcome = .faulted then
      q.coreIds.foldl (fun s (r, c) => (s.undoColls p r c q.topo).onCore r c fun k => k.dropIssued q.topo) s
    else s
  | none => s

/-- PITCH_REPLAY: during the hold before beat Y + 1 the pitch runs again up to Y, or the replay escalates
to the data-error fault on Y, for each of the beat's errors that it escalates for; no word of Y has issued then (R67, R340,
R341). -/
def execPitchReplay (r c : Nat) (s : State) : Out :=
  let p := s.partOf r
  let k := s.coreAt r c
  match k.replay with
  | (y, _) :: _ =>
    let (k', again) := k.replayed y
    let why := k.replay.filterMap fun (_, o, a) => (k.escalates o again).map fun n => (o, a, n)
    if why.isEmpty then .next (s.setCoreAt r c { k' with replay := [] })
    else
      let x := (s.partAt p).topo
      let s := ((s.onCore r c fun k => { k with replay := [] }).closeHold p).onPart p fun q => { q with topo := y }
      let s := (why.foldl (fun s (o, a, n) => s.raiseAt p .dataError o a (4 + 256 * n)) s).dropIssued p
      .next (s.onPart p fun q => { q with topo := x })
  | [] => .next s

end Sys2Proof.Machine
end

