-- ==== Sys2Proof/Machine/Streams.lean ====
section
/-!
DEFINITION. Contexts and streams in device memory: descriptors (R278), events (R284), stream-table entries
and publish words (R280, R29), channel entries and their CRC (R24), the view of a listening ring (R25,
R26, R244), and the random generator (R123).
-/

namespace Sys2Proof.Machine

/-! ## Descriptors and residents -/

/-- Write a field of context c's descriptor (R278). -/
def State.setDesc (s : State) (c off n v : Nat) : State := { s with mem := Mem.putNat s.mem (s.ctxDesc c + off) n v }

/-- The resident at an index of a partition (R276). -/
def Partition.res (q : Partition) (i : Nat) : Resident := SMap.get Resident.reset q.residents i

/-- Change a resident. -/
def State.onRes (s : State) (p i : Nat) (f : Resident → Resident) : State :=
  s.onPart p fun q => { q with residents := SMap.modify Resident.reset q.residents i f }

/-- Where a context is resident: partition and index. -/
def State.resOf (s : State) (c : Nat) : Option (Nat × Nat) :=
  (range 0 s.nparts).findSome? fun p =>
    ((s.partAt p).residents.find? fun e => e.2.ctx = c).map fun e => (p, e.1)

/-- STATE codes (R278). -/
def CtxState.code : CtxState → Nat
  | .inactive => 0
  | .active => 1
  | .parked => 2
  | .faulted => 3

/-- The state of a code. -/
def ctxStateOf (x : Nat) : CtxState :=
  match x with
  | 1 => .active
  | 2 => .parked
  | 3 => .faulted
  | _ => .inactive

/-- A resident context changes state, in the mapper's copy and in its descriptor. -/
def State.setState (s : State) (p i : Nat) (x : CtxState) : State :=
  let c := ((s.partAt p).res i).ctx
  (s.onRes p i fun r => { r with state := x }).setDesc c 0 1 x.code

/-- A resident context's lag changes (R22, R278). -/
def State.setLag (s : State) (p i n : Nat) : State :=
  let c := ((s.partAt p).res i).ctx
  (s.onRes p i fun r => { r with lag := n }).setDesc c 4 1 n

/-! ## Events (R284) -/

/-- Event codes (R284). -/
inductive Event where
  | active | parked | faulted | badCommand | badImage | cmdOverrun | listenOverrun | streamCancelled | streamEnded
  | forkDone | forkDropped | noStream | copyCut | xstepStale | eventsLost
deriving DecidableEq, Repr

/-- The code of an event. -/
def Event.code : Event → Nat
  | .active => 0x01
  | .parked => 0x02
  | .faulted => 0x03
  | .badCommand => 0x04
  | .badImage => 0x05
  | .cmdOverrun => 0x06
  | .listenOverrun => 0x10
  | .streamCancelled => 0x11
  | .streamEnded => 0x12
  | .forkDone => 0x13
  | .forkDropped => 0x14
  | .noStream => 0x15
  | .copyCut => 0x20
  | .xstepStale => 0x21
  | .eventsLost => 0x30

/-- No stream. -/
def noSid : Nat := 0xFFFF

/-- Room in a context's event ring. -/
def State.eventRoom (s : State) (c : Nat) : Bool :=
  decide ((s.desc c 60 4 + 2 ^ 32 - s.desc c 64 4) % 2 ^ 32 ≠ 2 ^ s.desc c 56 1)

/-- Write one event record. A Position or Detail that the spec gives no meaning for the event is a free
value.
(DESIGN CHOICE, log entry 11). -/
def State.writeEvent (s : State) (p c : Nat) (e : Event) (sid : Nat) (pos detail : Option Nat) : State :=
  let pos := pos.getD (Config.openWord s.free).toNat
  let detail := detail.getD (Config.openWord (s.free + 1)).toNat
  let s := { s with free := s.free + 2 }
  let n := s.desc c 60 4
  let a := s.desc c 40 8 + 64 * (n % 2 ^ s.desc c 56 1)
  let bs := toLe 2 e.code ++ toLe 2 sid ++ toLe 4 (s.partAt p).frame ++ toLe 8 pos ++ toLe 8 detail
    ++ toLe 8 (s.wall / 1000000) ++ zeros 32
  { s.setDesc c 60 4 (n + 1) with
    out := s.out ++ [.event c a bs], evSent := s.evSent ++ [(c, (n + 1) % 2 ^ 32)] }

/-- Send an event of context c, resident in partition p; with the ring full it is only counted, and
EVENTS-LOST comes first when room returns.
(DESIGN CHOICE, log entry 41). -/
def State.event (s : State) (p c : Nat) (e : Event) (sid : Nat) (pos detail : Option Nat) : State :=
  let lost := SMap.get 0 s.evLost c
  let lose (s : State) : State := { s with evLost := SMap.set 0 s.evLost c (SMap.get 0 s.evLost c + 1) }
  if !s.eventRoom c then lose s
  else
    let s := if lost = 0 then s
      else { s.writeEvent p c .eventsLost noSid none (some lost) with evLost := SMap.set 0 s.evLost c 0 }
    if s.eventRoom c then s.writeEvent p c e sid pos detail else lose s

/-- EVENT_ACK: a context's oldest event write still open is acknowledged, and the produced count it made goes to EVCNT
(R284). -/
def execEventAck (c : Nat) (s : State) : Out :=
  match s.evSent.find? fun x => x.1 = c with
  | some (c', n) =>
    .next { s with evSent := s.evSent.erase (c', n), out := s.out ++ [.eventCount c (s.desc c 48 8) n] }
  | none => .next s

/-! ## The stream table (R280) -/

/-- Offsets and sizes of a stream-table entry's fields. -/
def stState : Nat × Nat := (0, 1)
def stLlog : Nat × Nat := (1, 1)
def stParent : Nat × Nat := (2, 2)
def stRoot : Nat × Nat := (4, 2)
def stN : Nat × Nat := (8, 8)
def stQ : Nat × Nat := (16, 8)
def stE : Nat × Nat := (24, 4)
def stG : Nat × Nat := (28, 4)
def stRp : Nat × Nat := (32, 4)
def stSnap : Nat × Nat := (36, 4)
def stLate : Nat × Nat := (40, 2)
def stStarved : Nat × Nat := (42, 2)
def stSpkdrop : Nat × Nat := (44, 2)
def stKey : Nat × Nat := (48, 8)
def stLring : Nat × Nat := (64, 8)
def stLwp : Nat × Nat := (72, 8)
def stSpk : Nat × Nat := (80, 8)
def stPlay : Nat × Nat := (88, 8)

/-- Read a field. -/
def State.st (s : State) (c sid : Nat) (f : Nat × Nat) : Nat := s.stream c sid f.1 f.2

/-- Write a field. -/
def State.setSt (s : State) (c sid : Nat) (f : Nat × Nat) (v : Nat) : State := s.setStream c sid f.1 f.2 v

/-- Raise a saturating 16-bit counter (R22). -/
def State.count (s : State) (c sid : Nat) (f : Nat × Nat) (n : Nat) : State :=
  s.setSt c sid f (min 0xFFFF (s.st c sid f + n))

/-- Stream ids. -/
def sids : List Nat := range 0 512

/-- The active streams of a context. -/
def State.actives (s : State) (c : Nat) : List Nat := sids.filter (s.active c)

/-- A change of E or of an entry: G rises and the publish word is written (R29, R30). -/
def State.publishWord (s : State) (c sid e : Nat) : State :=
  let g := (s.st c sid stG + 1) % 2 ^ 32
  let s := (s.setSt c sid stE e).setSt c sid stG g
  { s with mem := Mem.putNat s.mem (s.st c sid stSpk + 1024) 8 (g * 2 ^ 32 + e % 2 ^ 32) }

/-! ## Channel entries (R24) -/

/-- CRC of an entry: over bytes 0 to 11 and 16 to 63. -/
def entryCrc (bs : List Byte) : Nat := (crc32c (bs.take 12 ++ bs.drop 16)).toNat

/-- A numeric field of an entry. -/
def entryNat (bs : List Byte) (off n : Nat) : Nat := leNat ((bs.drop off).take n)

/-- Position, flags. -/
def entryPos (bs : List Byte) : Nat := entryNat bs 0 4
def entryFlags (bs : List Byte) : Nat := entryNat bs 4 2

/-- Flag bits. -/
def flBarge : Nat := 0
def flReset : Nat := 1
def flEnd : Nat := 2
def flFill : Nat := 3
def flMiss : Nat := 4
def flLookahead : Nat := 5
def flRetracted : Nat := 6
def flSkipped : Nat := 7
def flParked : Nat := 8

/-- An entry made by the device: its codes up to the count, the rest zero, and its CRC (R24). -/
def makeEntry (pos flags count lag frame : Nat) (codes : List Byte) : List Byte :=
  let n := min count 24
  let codes := (codes.take (2 * n) ++ zeros 48).take 48
  let head := toLe 4 pos ++ toLe 2 flags ++ toLe 1 n ++ toLe 1 lag ++ toLe 4 frame
  let crc := (crc32c (head ++ codes)).toNat
  head ++ toLe 4 crc ++ codes

/-- The same entry with its flags replaced and its CRC renewed. -/
def reflag (bs : List Byte) (flags : Nat) : List Byte :=
  makeEntry (entryPos bs) flags (entryNat bs 6 1) (entryNat bs 7 1) (entryNat bs 8 4) (bs.drop 16)

/-- A fill entry of context c (R29, R30, R278). -/
def State.fillEntry (s : State) (c pos flags lag frame : Nat) : List Byte :=
  makeEntry pos flags (min 24 (s.desc c 80 1)) lag frame (Mem.bytes s.mem (s.ctxDesc c + 88) 48)

/-- A listening entry as read, and whether its CRC fails or its line is poisoned (R24, R337). -/
def State.listenEntry (s : State) (c sid i : Nat) : List Byte × Bool :=
  let a := s.st c sid stLring + 64 * (i % 2 ^ s.st c sid stLlog)
  let bs := Mem.bytes s.mem a 64
  (bs, decide (entryCrc bs ≠ entryNat bs 12 4) || decide (eccOver s.memEcc 64 a 64 = 2))

/-- The sequence numbers from RP up to SNAP - 1 (R25). -/
def pendingSeq (rp snap : Nat) : List Nat := (range 0 ((snap + 2 ^ 32 - rp) % 2 ^ 32)).map fun i => (rp + i) % 2 ^ 32

/-- The leading run of entries below N, and what follows it (R26). -/
def splitRun (get : Nat → List Byte × Bool) (n : Nat) : List Nat → Nat × List Nat
  | [] => (0, [])
  | i :: is =>
    if serial32 (entryPos (get i).1) n < 0 then
      let (k, rest) := splitRun get n is
      (k + 1, rest)
    else (0, i :: is)

/-- The current entry of a stream: the first after the run, when its position is N (R26). -/
def currentEntry (get : Nat → List Byte × Bool) (n : Nat) (rest : List Nat) : Option (List Byte × Bool) :=
  match rest with
  | i :: _ => if entryPos (get i).1 = n % 2 ^ 32 then some (get i) else none
  | [] => none

/-- Entries placed from the end of the run, up to room of them or a good RESET (R26). -/
def placeEntries (get : Nat → List Byte × Bool) : Nat → List Nat → List (List Byte × Bool)
  | 0, _ => []
  | _ + 1, [] => []
  | room + 1, i :: is =>
    let e := get i
    if !e.2 ∧ (entryFlags e.1).testBit flReset then [e] else e :: placeEntries get room is

/-- A mask of the placed entries that a test names, from slot i on. -/
def slotMask (f : List Byte × Bool → Bool) : Nat → List (List Byte × Bool) → Nat
  | _, [] => 0
  | i, e :: es => (if f e then 2 ^ i else 0) + slotMask f (i + 1) es

/-- A placed entry: with a failed CRC its code count is 0, and a count above 24 is taken as 24 (R24). -/
def placedBytes (e : List Byte × Bool) : List Byte :=
  e.1.set 6 (BitVec.ofNat 8 (if e.2 then 0 else min 24 (entryNat e.1 6 1)))

/-- The block that LISTEN makes for one stream, of 1 + maxe/4 chunks (R243, R244). -/
def State.listenBlock (s : State) (c : Nat) (r : Resident) (sid maxe : Nat) : List Byte :=
  let total := 256 * (1 + maxe / 4)
  match r.atAnchor.find? fun a => a.sid = sid with
  | none => (zeros 2 ++ toLe 2 0x20 ++ zeros total).take total
  | some a =>
    let get := s.listenEntry c sid
    let (late, rest) := splitRun get a.n (pendingSeq a.rp a.snap)
    let placed := placeEntries get maxe rest
    let good (e : List Byte × Bool) (bit : Nat) : Bool := !e.2 && (entryFlags e.1).testBit bit
    let ends := match placed.getLast? with
      | some e => good e flReset
      | none => false
    let crcMask := slotMask (·.2) 0 placed
    let bargeMask := slotMask (good · flBarge) 0 placed
    let flag (b : Bool) (n : Nat) : Nat := if b then 2 ^ n else 0
    let flags := flag (currentEntry get a.n rest).isNone 0 + flag (crcMask ≠ 0) 1 + flag (bargeMask ≠ 0) 2 + flag ends 3
      + flag (!ends && decide (placed.length < rest.length)) 4 + flag (r.overrun.contains sid) 6
    let head := toLe 2 placed.length ++ toLe 2 flags ++ toLe 2 (if ends then placed.length - 1 else 0xFFFF)
      ++ toLe 2 (min 0xFFFF late) ++ toLe 8 a.n ++ toLe 8 a.q ++ toLe 4 a.rp ++ toLe 4 a.snap ++ toLe 8 crcMask
      ++ toLe 8 bargeMask ++ toLe 1 r.lagAtAnchor ++ zeros 15
    (head ++ zeros 192 ++ placed.flatMap placedBytes ++ zeros total).take total

/-! ## The random generator (R123) -/

/-- One round of Mix. -/
def mixRound (key : W64) (x : W64) (r : Nat) : W64 :=
  let x := x ^^^ key ^^^ BitVec.ofNat 64 r
  let x := x * 0xA3C59E712B64D08F#64
  let x := x ^^^ (x >>> 32)
  let x := x * 0x6D27F1B394E85A3D#64
  x ^^^ (x >>> 29)

/-- Mix(key, c). -/
def mix (key c : W64) : W64 := (range 0 8).foldl (mixRound key) c

end Sys2Proof.Machine
end

