-- ==== Sys2Proof/Machine/Vector.lean ====
section
/-!
DEFINITION. The V track's words (R185 to R210).
-/

namespace Sys2Proof.Machine

/-! ## Floating-point arithmetic (R185 to R189) -/

/-- Round an exact value to the word type, ties to even (R185). -/
def roundT (t : BitVec 6) (v : FVal) : Nat := (fmtOf t).round .rne false v

/-- The exact value of a lane. -/
def valT (t : BitVec 6) (x : Nat) : FVal := (fmtOf t).decode x

/-- The top bit of a lane. -/
def topBit (t : BitVec 6) : Nat := 2 ^ (laneBits t - 1)

def fAdd (t : BitVec 6) (a b : Nat) : Nat := roundT t (FVal.add (valT t a) (valT t b))
def fSub (t : BitVec 6) (a b : Nat) : Nat := roundT t (FVal.add (valT t a) (valT t b).neg)
def fMul (t : BitVec 6) (a b : Nat) : Nat := roundT t (FVal.mul (valT t a) (valT t b))
def fFma (t : BitVec 6) (a b c : Nat) : Nat := roundT t (FVal.add (FVal.mul (valT t a) (valT t b)) (valT t c))
def fFms (t : BitVec 6) (a b c : Nat) : Nat := roundT t (FVal.add (FVal.mul (valT t a) (valT t b)) (valT t c).neg)
def fFnma (t : BitVec 6) (a b c : Nat) : Nat := roundT t (FVal.add (valT t c) (FVal.mul (valT t a) (valT t b)).neg)

/-- The lesser of two lanes, a NaN giving way (R186). -/
def fMin (t : BitVec 6) (a b : Nat) : Nat :=
  if (valT t a).isNan then (if (valT t b).isNan then (fmtOf t).nan else b)
  else if (valT t b).isNan then a
  else if (valT t b).below (valT t a) then b else a

/-- The greater of two lanes, a NaN giving way (R186). -/
def fMax (t : BitVec 6) (a b : Nat) : Nat :=
  if (valT t a).isNan then (if (valT t b).isNan then (fmtOf t).nan else b)
  else if (valT t b).isNan then a
  else if (valT t a).below (valT t b) then b else a

/-- |a| with b's sign bit; a NaN in a gives the default NaN (R185). -/
def fCpysgn (t : BitVec 6) (a b : Nat) : Nat :=
  if (valT t a).isNan then (fmtOf t).nan else a % topBit t + (b / topBit t % 2) * topBit t

def execVadd (_g : BitVec 3) (p : BitVec 4) (z : BitVec 1) (d a b : BitVec 6) (s : State) : Out :=
  laneBinary isFloat 2 fAdd p z d a b s
def execVsub (_g : BitVec 3) (p : BitVec 4) (z : BitVec 1) (d a b : BitVec 6) (s : State) : Out :=
  laneBinary isFloat 2 fSub p z d a b s
def execVmul (_g : BitVec 3) (p : BitVec 4) (z : BitVec 1) (d a b : BitVec 6) (s : State) : Out :=
  laneBinary isFloat 4 fMul p z d a b s
def execVfma (_g : BitVec 3) (p : BitVec 4) (z : BitVec 1) (d a b : BitVec 6) (s : State) : Out :=
  laneTernary isFloat 4 fFma p z d a b s
def execVfms (_g : BitVec 3) (p : BitVec 4) (z : BitVec 1) (d a b : BitVec 6) (s : State) : Out :=
  laneTernary isFloat 4 fFms p z d a b s
def execVfnma (_g : BitVec 3) (p : BitVec 4) (z : BitVec 1) (d a b : BitVec 6) (s : State) : Out :=
  laneTernary isFloat 4 fFnma p z d a b s
def execVmin (_g : BitVec 3) (p : BitVec 4) (z : BitVec 1) (d a b : BitVec 6) (s : State) : Out :=
  laneBinary isFloat 2 fMin p z d a b s
def execVmax (_g : BitVec 3) (p : BitVec 4) (z : BitVec 1) (d a b : BitVec 6) (s : State) : Out :=
  laneBinary isFloat 2 fMax p z d a b s
def execVcpysgn (_g : BitVec 3) (p : BitVec 4) (z : BitVec 1) (d a b : BitVec 6) (s : State) : Out :=
  laneBinary isFloat 2 fCpysgn p z d a b s

/-- FP32 only. -/
def isFp32 (t : BitVec 6) : Bool := decide (t.toNat = 1)

/-- The error term of R121: +0 when the sum is exact, infinite or not a number. -/
def addcError (a b : Nat) : Nat :=
  let x := FVal.add (fp32.decode a) (fp32.decode b)
  match fp32.decode (fp32.round .rne false x) with
  | .fin n m e => fp32.round .rne false (FVal.add x (FVal.fin n m e).neg)
  | _ => 0

/-- VADDC writes the sum to vd's row and the error to the same row of the other window (R187). -/
def execVaddc (_g : BitVec 3) (p : BitVec 4) (z : BitVec 1) (d a b : BitVec 6) (s : State) : Out :=
  let k := s.core
  let x := k.place mapVd d
  let y := k.otherPlace d
  let t := k.destType x.bank
  if k.allocated x.bank && !isFp32 t then .next (s.raise .type t.toNat)
  else
    windowed (fun s =>
      let merges := decide (p ≠ 0) && decide (z = 0)
      let va := k.place mapVa a
      let vb := k.place mapVb b
      let (s, ok) := s.checkRows ([va, vb] ++ if merges then [x, y] else [])
      if ok then
        let la := k.rowLanes 4 va
        let lb := k.rowLanes 4 vb
        let m := k.selected p
        let sum := mergeLanes m (z == 1) 0 (k.rowLanes 4 x) (List.zipWith (fAdd 1) la lb)
        let err := mergeLanes m (z == 1) 0 (k.rowLanes 4 y) (List.zipWith addcError la lb)
        .next ((s.emitRow x (lanesToBytes 4 sum) 4).emitRow y (lanesToBytes 4 err) 4).retire
      else .next s) s

/-- Clear the sign; a NaN gives the default NaN (R188). -/
def fAbs (t : BitVec 6) (a : Nat) : Nat := if (valT t a).isNan then (fmtOf t).nan else a % topBit t

/-- Invert the sign; a NaN gives the default NaN (R188). -/
def fNeg (t : BitVec 6) (a : Nat) : Nat :=
  if (valT t a).isNan then (fmtOf t).nan else if a < topBit t then a + topBit t else a - topBit t

/-- The one-hot class of a lane (R188). -/
def fClass (t : BitVec 6) (a : Nat) : Nat :=
  let f := fmtOf t
  let bit :=
    match f.decode a with
    | .nan => if a.testBit (f.trail - 1) then 9 else 8
    | .inf n => if n then 0 else 7
    | .fin n m _ =>
      if m = 0 then (if n then 3 else 4)
      else if m < 2 ^ f.trail then (if n then 2 else 5)
      else if n then 1 else 6
  2 ^ bit

def execVabs (_g : BitVec 3) (p : BitVec 4) (z : BitVec 1) (d a : BitVec 6) (s : State) : Out :=
  laneUnary isFloat 2 fAbs p z d a s
def execVneg (_g : BitVec 3) (p : BitVec 4) (z : BitVec 1) (d a : BitVec 6) (s : State) : Out :=
  laneUnary isFloat 2 fNeg p z d a s
def execVclass (_g : BitVec 3) (p : BitVec 4) (z : BitVec 1) (d a : BitVec 6) (s : State) : Out :=
  laneUnary isFloat 2 fClass p z d a s

/-- A special function (R189): latency 12, correctly rounded. -/
def special (f : FVal → FVal) (p : BitVec 4) (z : BitVec 1) (d a : BitVec 6) (s : State) : Out :=
  laneUnary isFloat 12 (fun t x => roundT t (f (valT t x))) p z d a s

def execVrcp (_g : BitVec 3) (p : BitVec 4) (z : BitVec 1) (d a : BitVec 6) (s : State) : Out := special fRcp p z d a s
def execVrsq (_g : BitVec 3) (p : BitVec 4) (z : BitVec 1) (d a : BitVec 6) (s : State) : Out := special fRsq p z d a s
def execVsqrt (_g : BitVec 3) (p : BitVec 4) (z : BitVec 1) (d a : BitVec 6) (s : State) : Out := special fSqrt p z d a s
def execVexp2 (_g : BitVec 3) (p : BitVec 4) (z : BitVec 1) (d a : BitVec 6) (s : State) : Out := special fExp2 p z d a s
def execVlog2 (_g : BitVec 3) (p : BitVec 4) (z : BitVec 1) (d a : BitVec 6) (s : State) : Out := special fLog2 p z d a s
def execVsin (_g : BitVec 3) (p : BitVec 4) (z : BitVec 1) (d a : BitVec 6) (s : State) : Out := special fSin p z d a s
def execVcos (_g : BitVec 3) (p : BitVec 4) (z : BitVec 1) (d a : BitVec 6) (s : State) : Out := special fCos p z d a s
def execVtanh (_g : BitVec 3) (p : BitVec 4) (z : BitVec 1) (d a : BitVec 6) (s : State) : Out := special fTanh p z d a s
def execVsigm (_g : BitVec 3) (p : BitVec 4) (z : BitVec 1) (d a : BitVec 6) (s : State) : Out := special fSigm p z d a s

/-! ## Integer and bit words (R190, R191) -/

/-- A signed lane. -/
def sl (t : BitVec 6) (x : Nat) : Int := signedOf (laneBits t) x

/-- Wrap to a lane. -/
def wl (t : BitVec 6) (x : Int) : Nat := wrap (laneBits t) x

def iAdd (t : BitVec 6) (a b : Nat) : Nat := (a + b) % 2 ^ laneBits t
def iSub (t : BitVec 6) (a b : Nat) : Nat := wl t ((a : Int) - b)
def iMul (t : BitVec 6) (a b : Nat) : Nat := a * b % 2 ^ laneBits t
def iMulh (t : BitVec 6) (a b : Nat) : Nat := wl t (sl t a * sl t b / (2 ^ laneBits t : Nat))
def iMin (t : BitVec 6) (a b : Nat) : Nat := if sl t b < sl t a then b else a
def iMax (t : BitVec 6) (a b : Nat) : Nat := if sl t a < sl t b then b else a
def iShl (t : BitVec 6) (a b : Nat) : Nat := a * 2 ^ (b % laneBits t) % 2 ^ laneBits t
def iShr (t : BitVec 6) (a b : Nat) : Nat := a / 2 ^ (b % laneBits t)
def iSar (t : BitVec 6) (a b : Nat) : Nat := wl t (sl t a / (2 ^ (b % laneBits t) : Nat))

def execViadd (_g : BitVec 3) (p : BitVec 4) (z : BitVec 1) (d a b : BitVec 6) (s : State) : Out :=
  laneBinary isInt 2 iAdd p z d a b s
def execVisub (_g : BitVec 3) (p : BitVec 4) (z : BitVec 1) (d a b : BitVec 6) (s : State) : Out :=
  laneBinary isInt 2 iSub p z d a b s
def execVimul (_g : BitVec 3) (p : BitVec 4) (z : BitVec 1) (d a b : BitVec 6) (s : State) : Out :=
  laneBinary isInt 4 iMul p z d a b s
def execVimulh (_g : BitVec 3) (p : BitVec 4) (z : BitVec 1) (d a b : BitVec 6) (s : State) : Out :=
  laneBinary isInt 4 iMulh p z d a b s
def execVimin (_g : BitVec 3) (p : BitVec 4) (z : BitVec 1) (d a b : BitVec 6) (s : State) : Out :=
  laneBinary isInt 2 iMin p z d a b s
def execVimax (_g : BitVec 3) (p : BitVec 4) (z : BitVec 1) (d a b : BitVec 6) (s : State) : Out :=
  laneBinary isInt 2 iMax p z d a b s
def execVand (_g : BitVec 3) (p : BitVec 4) (z : BitVec 1) (d a b : BitVec 6) (s : State) : Out :=
  laneBinary anyType 2 (fun _ x y => x &&& y) p z d a b s
def execVor (_g : BitVec 3) (p : BitVec 4) (z : BitVec 1) (d a b : BitVec 6) (s : State) : Out :=
  laneBinary anyType 2 (fun _ x y => x ||| y) p z d a b s
def execVxor (_g : BitVec 3) (p : BitVec 4) (z : BitVec 1) (d a b : BitVec 6) (s : State) : Out :=
  laneBinary anyType 2 (fun _ x y => x ^^^ y) p z d a b s
def execVshl (_g : BitVec 3) (p : BitVec 4) (z : BitVec 1) (d a b : BitVec 6) (s : State) : Out :=
  laneBinary anyType 2 iShl p z d a b s
def execVshr (_g : BitVec 3) (p : BitVec 4) (z : BitVec 1) (d a b : BitVec 6) (s : State) : Out :=
  laneBinary anyType 2 iShr p z d a b s
def execVsar (_g : BitVec 3) (p : BitVec 4) (z : BitVec 1) (d a b : BitVec 6) (s : State) : Out :=
  laneBinary anyType 2 iSar p z d a b s

/-- Leading zeros of a lane. -/
def laneClz (t : BitVec 6) (x : Nat) : Nat := if x = 0 then laneBits t else laneBits t - 1 - Nat.log2 x

/-- Trailing zeros, from bit i on with f bits left. -/
def laneCtzFrom (x : Nat) : Nat → Nat → Nat
  | 0, i => i
  | f + 1, i => if x.testBit i then i else laneCtzFrom x f (i + 1)

/-- One bits among the low f bits. -/
def lanePop (x : Nat) : Nat → Nat
  | 0 => 0
  | f + 1 => (if x.testBit f then 1 else 0) + lanePop x f

/-- INT16, INT32 (R191). -/
def isNarrowable (t : BitVec 6) : Bool := decide (t.toNat = 5) || decide (t.toNat = 6)

/-- Signed saturation to half the width, left in the wide lane (R191). -/
def satnS (t : BitVec 6) (x : Nat) : Nat :=
  let h : Int := (2 ^ (laneBits t / 2 - 1) : Nat)
  wl t (max (-h) (min (sl t x) (h - 1)))

/-- Unsigned saturation of a signed value to half the width (R191). -/
def satnU (t : BitVec 6) (x : Nat) : Nat := wl t (max 0 (min (sl t x) ((2 ^ (laneBits t / 2) : Nat) - 1)))

def execVclz (_g : BitVec 3) (p : BitVec 4) (z : BitVec 1) (d a : BitVec 6) (s : State) : Out :=
  laneUnary anyType 2 laneClz p z d a s
def execVctz (_g : BitVec 3) (p : BitVec 4) (z : BitVec 1) (d a : BitVec 6) (s : State) : Out :=
  laneUnary anyType 2 (fun t x => laneCtzFrom x (laneBits t) 0) p z d a s
def execVpopc (_g : BitVec 3) (p : BitVec 4) (z : BitVec 1) (d a : BitVec 6) (s : State) : Out :=
  laneUnary anyType 2 (fun t x => lanePop x (laneBits t)) p z d a s
def execVsatnS (_g : BitVec 3) (p : BitVec 4) (z : BitVec 1) (d a : BitVec 6) (s : State) : Out :=
  laneUnary isNarrowable 2 satnS p z d a s
def execVsatnU (_g : BitVec 3) (p : BitVec 4) (z : BitVec 1) (d a : BitVec 6) (s : State) : Out :=
  laneUnary isNarrowable 2 satnU p z d a s
def execVidx (_g : BitVec 3) (p : BitVec 4) (z : BitVec 1) (d : BitVec 6) (s : State) : Out :=
  rowWord anyType 2 p z d false (fun _ => []) (fun _ t => (range 0 (laneCount t)).map (· % 2 ^ laneBits t)) s

/-! ## Compare, select, predicates (R192 to R194) -/

/-- The compare conditions (R192). -/
inductive Cond where
  | eq | ne | lt | le | un | ord
deriving DecidableEq, Repr

/-- A condition on two lanes of type t: signed integers, or floating-point values with a NaN unordered
(R111). -/
def Cond.holds (c : Cond) (t : BitVec 6) (x y : Nat) : Bool :=
  let o := FVal.cmp (valT t x) (valT t y)
  match c with
  | .eq => decide (o = some .eq)
  | .ne => decide (o ≠ some .eq)
  | .lt => decide (o = some .lt)
  | .le => decide (o = some .lt) || decide (o = some .eq)
  | .un => o.isNone
  | .ord => o.isSome

/-- The bits of a compare from lane i on: inactive lanes keep the old bit (R192). -/
def cmpBits (f : Nat → Nat → Bool) (m old : Mask) : Nat → List Nat → List Nat → Nat
  | _, [], _ => 0
  | _, _, [] => 0
  | i, x :: xs, y :: ys =>
    (if (if m.getLsbD i then f x y else old.getLsbD i) then 2 ^ i else 0) + cmpBits f m old (i + 1) xs ys

/-- Schedule a physical predicate. -/
def State.emitPred (s : State) (n : Nat) (v : Mask) (lat : Nat) : State := s.emit (s.now + s.core.lat lat) (.pred n v)

/-- VCMP writes pd, one of p0 to p63, usable on b+2 (R192). -/
def compare_ (c : Cond) (p : BitVec 4) (d a b : BitVec 6) (s : State) : Out :=
  windowed (fun s =>
    let k := s.core
    let va := k.place mapVa a
    let vb := k.place mapVb b
    let t := k.sourceType va.bank vb.bank
    let (s, ok) := s.checkRows [va, vb]
    if ok then
      let e := elemSize t
      let bits := cmpBits (c.holds t) (k.selected p) (k.predReg d.toNat) 0 (k.rowLanes e va) (k.rowLanes e vb)
      .next (s.emitPred d.toNat (BitVec.ofNat 256 bits) 2).retire
    else .next s) s

def execVcmpEq (_g : BitVec 3) (p : BitVec 4) (d a b : BitVec 6) (s : State) : Out := compare_ .eq p d a b s
def execVcmpNe (_g : BitVec 3) (p : BitVec 4) (d a b : BitVec 6) (s : State) : Out := compare_ .ne p d a b s
def execVcmpLt (_g : BitVec 3) (p : BitVec 4) (d a b : BitVec 6) (s : State) : Out := compare_ .lt p d a b s
def execVcmpLe (_g : BitVec 3) (p : BitVec 4) (d a b : BitVec 6) (s : State) : Out := compare_ .le p d a b s
def execVcmpUn (_g : BitVec 3) (p : BitVec 4) (d a b : BitVec 6) (s : State) : Out := compare_ .un p d a b s
def execVcmpOrd (_g : BitVec 3) (p : BitVec 4) (d a b : BitVec 6) (s : State) : Out := compare_ .ord p d a b s

/-- VSEL selects by the predicate instead of merging (R193). -/
def execVsel (_g : BitVec 3) (p : BitVec 4) (d a b : BitVec 6) (s : State) : Out :=
  rowWord anyType 2 0 0 d false (fun k => [k.place mapVa a, k.place mapVb b])
    (fun k t => mergeLanes (k.selected p) false 0 (k.rowLanes (elemSize t) (k.place mapVb b))
      (k.rowLanes (elemSize t) (k.place mapVa a))) s

/-- A predicate word: pd := f, names through the predicate base, latency 1 (R194). -/
def predWord (d : BitVec 7) (f : Core → Mask) (s : State) : Out :=
  windowed (fun s => .next (s.emitPred (s.core.physPred d.toNat) (f s.core) 1).retire) s

/-- The predicate a 7-bit field names. -/
def Core.predOf (k : Core) (n : BitVec 7) : Mask := k.predReg (k.physPred n.toNat)

/-- The lowest one bit of x from bit i on, with f bits left. -/
def firstOne (x : Mask) : Nat → Nat → Mask
  | 0, _ => 0
  | f + 1, i => if x.getLsbD i then BitVec.ofNat 256 (2 ^ i) else firstOne x f (i + 1)

/-- The highest one bit among the low f bits. -/
def lastOne (x : Mask) : Nat → Mask
  | 0 => 0
  | f + 1 => if x.getLsbD f then BitVec.ofNat 256 (2 ^ f) else lastOne x f

def execPand (_g : BitVec 3) (d a b : BitVec 7) (s : State) : Out := predWord d (fun k => k.predOf a &&& k.predOf b) s
def execPor (_g : BitVec 3) (d a b : BitVec 7) (s : State) : Out := predWord d (fun k => k.predOf a ||| k.predOf b) s
def execPxor (_g : BitVec 3) (d a b : BitVec 7) (s : State) : Out := predWord d (fun k => k.predOf a ^^^ k.predOf b) s
def execPandn (_g : BitVec 3) (d a b : BitVec 7) (s : State) : Out :=
  predWord d (fun k => k.predOf a &&& ~~~(k.predOf b)) s
def execPnot (_g : BitVec 3) (d a : BitVec 7) (s : State) : Out := predWord d (fun k => ~~~(k.predOf a)) s
def execPmov (_g : BitVec 3) (d a : BitVec 7) (s : State) : Out := predWord d (fun k => k.predOf a) s
def execPset (_g : BitVec 3) (d : BitVec 7) (s : State) : Out := predWord d (fun _ => BitVec.allOnes 256) s
def execPclr (_g : BitVec 3) (d : BitVec 7) (s : State) : Out := predWord d (fun _ => 0) s
def execPfirst (_g : BitVec 3) (d a : BitVec 7) (s : State) : Out := predWord d (fun k => firstOne (k.predOf a) 256 0) s
def execPlast (_g : BitVec 3) (d a : BitVec 7) (s : State) : Out := predWord d (fun k => lastOne (k.predOf a) 256) s
/-- PCNT writes a row on its usable beat b+1 minus 1 (R194). -/
def execPcnt (_g : BitVec 3) (d : BitVec 6) (a : BitVec 7) (s : State) : Out :=
  rowWord anyType 1 0 0 d false (fun _ => [])
    (fun k t => (lanePop (k.predOf a).toNat (laneCount t) % 2 ^ laneBits t) :: List.replicate (laneCount t - 1) 0) s

/-! ## Conversions and order keys (R195 to R197) -/

/-- Convert of R195 for one lane. With sat an infinity becomes the largest finite value (R113) in its own format too.
(DESIGN CHOICE, log entry 100). -/
def convert (ts td : BitVec 6) (mode : RMode) (sat : Bool) (x : Nat) : Nat :=
  match fmtOf ts, fmtOf td with
  | .int w, .int v => if sat then (fmtOf td).round mode true (FVal.ofInt (signedOf w x)) else wrap v (signedOf w x)
  | fs, fd => fd.round mode sat (fs.decode x)

/-- VCVT converts between the types of two banks; lanes past the shorter count are zero whatever the
predicate (R195). -/
def execVcvt (_g : BitVec 3) (p : BitVec 4) (z : BitVec 1) (d a : BitVec 6) (t : BitVec 1) (m : BitVec 3) (s : State) :
    Out :=
  windowed (fun s =>
    let k := s.core
    let x := k.place mapVd d
    let va := k.place mapVa a
    let td := k.destType x.bank
    let ts := k.sourceType va.bank x.bank
    let merges := decide (p ≠ 0) && decide (z = 0)
    let (s, ok) := s.checkRows ([va] ++ if merges then [x] else [])
    if ok then
      let n := min (laneCount ts) (laneCount td)
      let conv := ((k.rowLanes (elemSize ts) va).take n).map (convert ts td (rmodeOf m) (t == 1))
      let old := (k.rowLanes (elemSize td) x).take n
      let r := mergeLanes (k.selected p) (z == 1) 0 old conv ++ List.replicate (laneCount td - n) 0
      .next (s.emitRow x (lanesToBytes (elemSize td) r) 3).retire
    else .next s) s

/-- A lane move of two rows. -/
def moveBinary (f : List Nat → List Nat → List Nat) (p : BitVec 4) (z : BitVec 1) (d a b : BitVec 6) (s : State) : Out :=
  rowWord anyType 3 p z d false (fun k => [k.place mapVa a, k.place mapVb b])
    (fun k t => f (k.rowLanes (elemSize t) (k.place mapVa a)) (k.rowLanes (elemSize t) (k.place mapVb b))) s

/-- A lane move of one row. -/
def moveUnary (f : List Nat → List Nat) (p : BitVec 4) (z : BitVec 1) (d a : BitVec 6) (s : State) : Out :=
  rowWord anyType 3 p z d false (fun k => [k.place mapVa a]) (fun k t => f (k.rowLanes (elemSize t) (k.place mapVa a))) s

def execVpack (_g : BitVec 3) (p : BitVec 4) (z : BitVec 1) (d a b : BitVec 6) (s : State) : Out :=
  moveBinary (fun x y => x.take (x.length / 2) ++ y.take (y.length / 2)) p z d a b s
def execVunpk (_g : BitVec 3) (p : BitVec 4) (z : BitVec 1) (d a : BitVec 6) (s : State) : Out :=
  moveUnary (fun x => x.drop (x.length / 2) ++ List.replicate (x.length / 2) 0) p z d a s

/-- The order key of a value (R197). -/
def ordKey (t : BitVec 6) (x : Nat) : Nat :=
  let top := topBit t
  let flip := if x < top then x + top else 2 * top - 1 - x
  match fmtOf t with
  | .int _ => if x < top then x + top else x - top
  | .b8 _ true _ => x
  | f => if (f.decode x).isNan then 2 * top - 1 else if f.decode x = .fin true 0 (1 - (f.bias : Int) - f.trail) then top
         else flip

/-- The value of an order key (R197). The key 2^(w-1) - 1, which no value has where -0 shares the key of +0, gives -0.
(DEDUCED, log entry 22). -/
def keyOrd (t : BitVec 6) (x : Nat) : Nat :=
  let top := topBit t
  let back := if x < top then 2 * top - 1 - x else x - top
  match fmtOf t with
  | .int _ => if x < top then x + top else x - top
  | .b8 _ true _ => x
  | f => if (f.decode back).isNan then f.nan else back

/-- VORDKEY takes the value type from va's bank, VKEYORD from vd's; the element sizes must be equal
(R197). -/
def keyWord (toKey : Bool) (p : BitVec 4) (z : BitVec 1) (d a : BitVec 6) (s : State) : Out :=
  let k := s.core
  let x := k.place mapVd d
  let va := k.place mapVa a
  let ts := k.sourceType va.bank x.bank
  if k.allocated x.bank && decide (elemSize ts ≠ elemSize (k.destType x.bank)) then
    .next (s.raise .type (k.destType x.bank).toNat)
  else
    rowWord anyType 2 p z d false (fun _ => [va])
      (fun k t => (k.rowLanes (elemSize t) va).map (if toKey then ordKey ts else keyOrd t)) s

def execVordkey (_g : BitVec 3) (p : BitVec 4) (z : BitVec 1) (d a : BitVec 6) (s : State) : Out := keyWord true p z d a s
def execVkeyord (_g : BitVec 3) (p : BitVec 4) (z : BitVec 1) (d a : BitVec 6) (s : State) : Out := keyWord false p z d a s

/-! ## Reductions (R198) -/

/-- The participating lanes with their indices, from lane i on. -/
def taking (m : Mask) : Nat → List Nat → List (Nat × Nat)
  | _, [] => []
  | i, x :: xs => if m.getLsbD i then (i, x) :: taking m (i + 1) xs else taking m (i + 1) xs

/-- A reduction writes its whole row, with no merging (R198). -/
def reduce (f : BitVec 6 → List (Nat × Nat) → List Nat) (p : BitVec 4) (d a : BitVec 6) (s : State) : Out :=
  rowWord (fun t => isFloat t || isInt t) 10 0 0 d false (fun k => [k.place mapVa a])
    (fun k t =>
      let r := f t (taking (k.selected p) 0 (k.rowLanes (elemSize t) (k.place mapVa a)))
      r ++ List.replicate (laneCount t - r.length) 0) s

/-- The sum of the participating lanes: exact, rounded once; or wrapping. -/
def reduceSum (t : BitVec 6) (xs : List (Nat × Nat)) : List Nat :=
  if isFloat t then [roundT t (FVal.sum (xs.map fun x => valT t x.2))]
  else [(xs.foldl (fun n x => n + x.2) 0) % 2 ^ laneBits t]

/-- Lane y stands above lane x in the order of the reduction. -/
def beats (t : BitVec 6) (greater : Bool) (x y : Nat) : Bool :=
  if isFloat t then (if greater then (valT t x).below (valT t y) else (valT t y).below (valT t x))
  else if greater then decide (sl t x < sl t y) else decide (sl t y < sl t x)

/-- The value with no participating lane (R198). -/
def emptyMax (t : BitVec 6) (greater : Bool) : Nat :=
  if isFloat t then (fmtOf t).infCode greater else if greater then topBit t else topBit t - 1

/-- The greatest or least participating lane and its index; the lowest index wins (R198). -/
def best (t : BitVec 6) (greater : Bool) (xs : List (Nat × Nat)) : Nat × Nat :=
  match xs.filter (fun x => !(isFloat t && (valT t x.2).isNan)) with
  | [] =>
    match xs with
    | [] => (emptyMax t greater, 2 ^ laneBits t - 1)
    | x :: _ => ((fmtOf t).nan, x.1)
  | x :: rest =>
    let b := rest.foldl (fun b y => if beats t greater b.2 y.2 then y else b) x
    (b.2, b.1)

def execVrsum (_g : BitVec 3) (p : BitVec 4) (d a : BitVec 6) (s : State) : Out := reduce reduceSum p d a s
def execVrmax (_g : BitVec 3) (p : BitVec 4) (d a : BitVec 6) (s : State) : Out :=
  reduce (fun t xs => [(best t true xs).1]) p d a s
def execVrmin (_g : BitVec 3) (p : BitVec 4) (d a : BitVec 6) (s : State) : Out :=
  reduce (fun t xs => [(best t false xs).1]) p d a s
def execVrargmax (_g : BitVec 3) (p : BitVec 4) (d a : BitVec 6) (s : State) : Out :=
  reduce (fun t xs => [(best t true xs).1, (best t true xs).2 % 2 ^ laneBits t]) p d a s
def execVrargmin (_g : BitVec 3) (p : BitVec 4) (d a : BitVec 6) (s : State) : Out :=
  reduce (fun t xs => [(best t false xs).1, (best t false xs).2 % 2 ^ laneBits t]) p d a s

/-! ## Moving lanes (R199) -/

def execVbcast (_g : BitVec 3) (p : BitVec 4) (z : BitVec 1) (d : BitVec 6) (i : BitVec 1) (x : BitVec 5) (s : State) : Out :=
  rowWord anyType 3 p z d false (fun _ => [])
    (fun _ t => List.replicate (laneCount t) (s.vsOperand i x % 2 ^ laneBits t)) s
def execVrot (_g : BitVec 3) (p : BitVec 4) (z : BitVec 1) (d a : BitVec 6) (i : BitVec 1) (x : BitVec 5) (s : State) : Out :=
  indexed (vsRegs i x) (moveUnary (fun l => l.drop (s.vsOperand i x % l.length) ++ l.take (s.vsOperand i x % l.length)) p z d a) s
def execVslide (_g : BitVec 3) (p : BitVec 4) (z : BitVec 1) (d a : BitVec 6) (i : BitVec 1) (x : BitVec 5) (s : State) : Out :=
  indexed (vsRegs i x) (moveUnary (fun l => let n := min (s.vsOperand i x) l.length; l.drop n ++ List.replicate n 0) p z d a) s
def execVshuf (_g : BitVec 3) (p : BitVec 4) (z : BitVec 1) (d a b : BitVec 6) (s : State) : Out :=
  moveBinary (fun l ix => ix.map fun j => l.getD (j % l.length) 0) p z d a b s
def execVextr (_g : BitVec 3) (p : BitVec 4) (z : BitVec 1) (d a : BitVec 6) (i : BitVec 1) (x : BitVec 5) (s : State) : Out :=
  indexed (vsRegs i x) (moveUnary (fun l => l.getD (s.vsOperand i x % l.length) 0 :: List.replicate (l.length - 1) 0) p z d a) s
/-- VINSRT reads every lane from vd and replaces lane sk mod n (R199). -/
def execVinsrt (_g : BitVec 3) (p : BitVec 4) (z : BitVec 1) (d : BitVec 6) (k : BitVec 5) (i : BitVec 1) (x : BitVec 5)
    (s : State) : Out :=
  indexed [k] (rowWord anyType 3 p z d true (fun _ => [])
    (fun c t => (c.rowLanes (elemSize t) (c.place mapVd d)).set ((s.core.sreg k).toNat % laneCount t)
      (s.vsOperand i x % 2 ^ laneBits t))) s
def execVmov (_g : BitVec 3) (p : BitVec 4) (z : BitVec 1) (d a : BitVec 6) (s : State) : Out :=
  laneUnary anyType 2 (fun _ x => x) p z d a s
def execVzero (_g : BitVec 3) (p : BitVec 4) (z : BitVec 1) (d : BitVec 6) (s : State) : Out :=
  rowWord anyType 2 p z d false (fun _ => []) (fun _ t => List.replicate (laneCount t) 0) s

/-! ## Histograms, prefix sums, compaction (R200 to R202) -/

/-- Add 1 to bin j of the counts, modulo 2^w; a bin beyond them is counted nowhere. -/
def countBin (w : Nat) (cs : List Nat) (j : Nat) : List Nat := cs.set j ((cs.getD j 0 + 1) % 2 ^ w)

def execVhist (_g : BitVec 3) (p : BitVec 4) (d a b : BitVec 6) (s : State) : Out :=
  rowWord isInt 8 0 0 d false (fun k => [k.place mapVa a, k.place mapVb b])
    (fun k t => (taking (k.selected p) 0 (k.rowLanes (elemSize t) (k.place mapVa a))).foldl
      (fun cs x => countBin (laneBits t) cs x.2) (k.rowLanes (elemSize t) (k.place mapVb b))) s

/-- Running sums from lane i on, acc so far; an inactive lane adds nothing (R201). -/
def prefixSums (w : Nat) (exclusive : Bool) (m : Mask) : Nat → Nat → List Nat → List Nat
  | _, _, [] => []
  | i, acc, x :: xs =>
    let acc' := (acc + if m.getLsbD i then x else 0) % 2 ^ w
    (if exclusive then acc else acc') :: prefixSums w exclusive m (i + 1) acc' xs

/-- VPREFIX (R201). -/
def prefixWord (exclusive : Bool) (p : BitVec 4) (z : BitVec 1) (d a : BitVec 6) (s : State) : Out :=
  rowWord isInt 8 p z d false (fun k => [k.place mapVa a])
    (fun k t => prefixSums (laneBits t) exclusive (k.selected p) 0 0 (k.rowLanes (elemSize t) (k.place mapVa a))) s

def execVprefix (_g : BitVec 3) (p : BitVec 4) (z : BitVec 1) (d a : BitVec 6) (s : State) : Out := prefixWord false p z d a s
def execVprefixX (_g : BitVec 3) (p : BitVec 4) (z : BitVec 1) (d a : BitVec 6) (s : State) : Out := prefixWord true p z d a s

/-- VCOMPACT packs the active lanes low, zeros above (R202). -/
def execVcompact (_g : BitVec 3) (p : BitVec 4) (d a : BitVec 6) (s : State) : Out :=
  rowWord anyType 6 0 0 d false (fun k => [k.place mapVa a])
    (fun k t =>
      let r := (taking (k.selected p) 0 (k.rowLanes (elemSize t) (k.place mapVa a))).map (·.2)
      r ++ List.replicate (laneCount t - r.length) 0) s

/-! ## Scratchpad access (R203 to R206) -/

/-- The addresses of the active lanes with their lane numbers, or the lowest lane's address that breaks
R75, in whichever way that lane breaks it.
(DEDUCED, log entry 19). -/
def laneAddrs (e : Nat) (m : Mask) (addr : Nat → Nat) (n : Nat) : Except (FaultClass × Nat) (List (Nat × Nat)) :=
  let as := (range 0 n).filterMap fun i => if m.getLsbD i then some (i, addr i) else none
  match as.find? (fun x => (addrBad .spad x.2 e).isSome) with
  | some x => .error ((addrBad .spad x.2 e).getD .addressRange, x.2)
  | none => .ok as

/-- The address form of a VM or VG word: lane addresses for element size e, and the s registers and rows
that form them. whole: the word moves one aligned row. -/
structure LaneForm where
  regs : List (BitVec 5)
  rows : Core → List Place
  addr : Core → Nat → Nat → Nat
  whole : Option Nat

/-- The check of the lanes' addresses: a row word's base must meet R75 as a row (R75, R203). -/
def LaneForm.lanes (f : LaneForm) (k : Core) (e : Nat) (m : Mask) : Except (FaultClass × Nat) (List (Nat × Nat)) :=
  let n := 256 / e
  match f.whole with
  | some base =>
    if anyActive m n then
      match addrBad .spad base 256 with
      | some c => .error (c, base)
      | none => laneAddrs e m (f.addr k e) n
    else .ok []
  | none => laneAddrs e m (f.addr k e) n

/-- DETAIL of a residue mismatch of the address register: the word's base address (R342). -/
def LaneForm.detail (f : LaneForm) (k : Core) (e : Nat) : Nat := f.whole.getD (f.addr k e 0)

/-- A load of lanes into a row (R203 to R205): sampled at lat 3, the row written at its usable beat
minus 1. With no active lane the merged row is written and nothing is accessed; with some, the bytes of the active lanes
are read, and no others. On b the band, the early-read table and
the poison of its window rows are judged before its addresses.
(DEDUCED, log entry 19). -/
def lanesIn (f : LaneForm) (usable : Nat) (p : BitVec 4) (z : BitVec 1) (d : BitVec 6) (cls : BitVec 4) (s : State) : Out :=
  windowed (fun s =>
    let k := s.core
    let x := k.place mapVd d
    let e := elemSize (k.destType x.bank)
    let merges := decide (p ≠ 0) && decide (z = 0)
    let (s, ok) := s.checkRows (f.rows k ++ if merges then [x] else [])
    if !ok then .next s
    else
      let m := k.selected p
      match f.lanes k e m with
      | .error (c, a) => .next (s.raise c a (if f.whole.isSome then 256 else e))
      | .ok as =>
        let old := k.rowLanes e x
        let base := lanesToBytes e (mergeLanes m (z == 1) 0 old old)
        if as.isEmpty then .next (s.emitRow x base usable).retire
        else
          let fetch := as.flatMap fun (i, a) => (range 0 e).map fun j => (e * i + j, a + j)
          let write := s.now + k.lat usable - 1
          let s := s.onCur fun k => k.erRecord .acc x.addr (x.addr + 256) write s.org
          .next (s.emit (s.now + k.lat 3) (.loadRow x.bank x.row base fetch write cls.toNat) (k.baseBad f.regs (f.detail k e))).retire) s

/-- A store of a row's active lanes (R203 to R205), performing at lat perf. It takes an entry of the checker's table for
each run of bytes that it writes (DESIGN CHOICE, log entry 90). On b the band, the early-read table and the poison of
its window rows are judged before its addresses.
(DEDUCED, log entry 19). -/
def lanesOut (f : LaneForm) (perf : Nat) (p : BitVec 4) (d : BitVec 6) (cls : BitVec 4) (s : State) : Out :=
  windowed (fun s =>
    let k := s.core
    let x := k.place mapVd d
    let e := elemSize (k.destType x.bank)
    let (s, ok) := s.checkRows (x :: f.rows k)
    if !ok then .next s
    else
      match f.lanes k e (k.selected p) with
      | .error (c, a) => .next (s.raise c a (if f.whole.isSome then 256 else e))
      | .ok as =>
        if as.isEmpty then .next s.retire
        else
          match k.baseBad f.regs (f.detail k e) with
          | some y => .next (s.raise .residue y.1 y.2)
          | none =>
            let bs := k.rowBytes x
            let cells := as.flatMap fun (i, a) => cellsAt a ((bs.drop (e * i)).take e)
            let act := s.now + k.lat perf
            let s := (spansOf (cells.map (·.1))).foldl (fun s r => s.note .spad r.1 r.2 act) s
            .next (s.emit act (.store .spad cells cls.toNat [])).retire) s

/-- sb + 256·imm3, the row form of VLD and VST: a 64-bit sum, which wraps.
(DEDUCED, log entry 24). -/
def State.rowForm (s : State) (b : BitVec 5) (i : BitVec 3) : LaneForm :=
  let base := (s.core.sreg b + BitVec.ofNat 64 (256 * i.toNat)).toNat
  { regs := [b], rows := fun _ => [], addr := fun _ e l => base + e * l, whole := some base }

/-- sb + i·Size(T)·2^c, the strided form: an exact sum, so a lane past the end of the address space is out of range.
(DEDUCED, log entry 24). -/
def State.strideForm (s : State) (b : BitVec 5) (c : BitVec 3) : LaneForm :=
  { regs := [b], rows := fun _ => [], addr := fun _ e l => (s.core.sreg b).toNat + l * e * 2 ^ c.toNat, whole := none }

/-- va[i]·2^c, the gather form. -/
def gatherForm (a : BitVec 6) (c : BitVec 2) : LaneForm :=
  { regs := [], rows := fun k => [k.place mapVa a],
    addr := fun k e l => (k.rowLanes e (k.place mapVa a)).getD l 0 * 2 ^ c.toNat, whole := none }

def execVld (_g : BitVec 3) (p : BitVec 4) (z : BitVec 1) (d : BitVec 6) (b : BitVec 5) (c : BitVec 4) (i : BitVec 3)
    (s : State) : Out := lanesIn (s.rowForm b i) 6 p z d c s
def execVst (_g : BitVec 3) (p : BitVec 4) (d : BitVec 6) (b : BitVec 5) (c : BitVec 4) (i : BitVec 3) (s : State) : Out :=
  lanesOut (s.rowForm b i) 3 p d c s
def execVlds (_g : BitVec 3) (p : BitVec 4) (z : BitVec 1) (d : BitVec 6) (b : BitVec 5) (c : BitVec 4) (i : BitVec 3)
    (s : State) : Out := lanesIn (s.strideForm b i) 6 p z d c s
def execVsts (_g : BitVec 3) (p : BitVec 4) (d : BitVec 6) (b : BitVec 5) (c : BitVec 4) (i : BitVec 3) (s : State) : Out :=
  lanesOut (s.strideForm b i) 3 p d c s
def execVgath (_g : BitVec 3) (p : BitVec 4) (z : BitVec 1) (d a : BitVec 6) (c : BitVec 4) (i : BitVec 2) (s : State) : Out :=
  lanesIn (gatherForm a i) 14 p z d c s
def execVscat (_g : BitVec 3) (p : BitVec 4) (d a : BitVec 6) (c : BitVec 4) (i : BitVec 2) (s : State) : Out :=
  lanesOut (gatherForm a i) 12 p d c s

/-! ## Windows and rotation (R207, R210) -/

def execVbindV (_g : BitVec 3) (k : BitVec 6) (s : State) : Out :=
  windowed (fun s => .next (s.emit (s.now + s.core.lat 2) (.bindWin false k.toNat)).retire) s
def execVbindW (_g : BitVec 3) (k : BitVec 6) (s : State) : Out :=
  windowed (fun s => .next (s.emit (s.now + s.core.lat 2) (.bindWin true k.toNat)).retire) s
def execVbindMap (_g : BitVec 3) (m : BitVec 3) (s : State) : Out :=
  windowed (fun s => .next (s.emit (s.now + s.core.lat 2) (.omap m)).retire) s
/-- PROT moves the rotation bases from b+1; a running loop makes it a loop conflict (R210). One that issues on the beat of
the M track's MLOOP, before it, raises no fault, and moves the bases on b+1 all the same.
(DESIGN CHOICE, log entry 97). -/
def execProt (_g : BitVec 3) (m : BitVec 3) (s : State) : Out :=
  windowed (fun s =>
    if s.core.v.mloop.isSome || s.core.m.mloop.isSome then .next (s.raise .loopConflict)
    else .next (s.emit (s.now + 1) (.prot m)).retire) s

/-! ## Modulo loops (R62 to R65, R209) -/

/-- The other compute track. -/
def otherCompute : Family → Family
  | .v => .m
  | _ => .v

/-- The k registers of a compute track's loops: the run count and the pass (R63). -/
def loopRegs : Family → Nat × Nat
  | .v => (4, 5)
  | _ => (6, 7)

/-- An MLOOP of the running compute track: II, S, K, N (R62). Its gear window is judged first, then N, then the other
track's loop (DEDUCED, log entry 96). It clears the stage predicates and the bases as it issues, so that a word of the M
track on a V MLOOP's beat sees them cleared, and a word of the V track on an M MLOOP's beat sees them as they were, in the
order of R76 (DESIGN CHOICE, log entry 95). -/
def mloopWord (ii stages len n : Nat) (s : State) : Out :=
  placed true true (windowed fun s =>
    let f := s.cur.track
    let o := s.core.track (otherCompute f)
    let mate := match o.loopAt with
      | some (b, i, st, t) => if b = s.now then some (decide (i = ii ∧ st = stages ∧ t = n)) else none
      | none => none
    let conflict := match mate with
      | some same => !same
      | none => o.mloop.isSome
    if 65535 < n then .next s.illegal
    else if conflict then .next (s.raise .loopConflict)
    else
      let (run, pass) := loopRegs f
      .next (s.onCur fun k =>
        let k := { k with rb := 0, pb := 0, preds := SMap.clear k.preds 64 128 }
        let k := k.onTrack f (Track.issued s.now)
        let k := k.onTrack f fun t => { t with loopAt := some (s.now, ii, stages, n) }
        let k :=
          if n = 0 then
            ((k.putK pass 0).putK run (k.kreg run + 1)).onTrack f fun t => { t with pc := t.pc + 1 + len }
          else
            let k := k.onTrack f fun t =>
              { t with pc := t.pc + 1,
                       mloop := some { ii := ii, stages := stages, k := len, n := n, body := t.pc + 1, pass := 0,
                                       next := 0, opp := 0, joint := mate.isSome } }
            if mate.isSome then
              k.onTrack (otherCompute f) fun t => { t with mloop := t.mloop.map fun l => { l with joint := true } }
            else k
        k.onTrack f fun t => { t with wait := k.waitFor s.source f 0 })) s

def execMloop (_g : BitVec 3) (l : BitVec 5) (st : BitVec 6) (k : BitVec 5) (n : BitVec 6) (s : State) : Out :=
  mloopWord (l.toNat + 1) (st.toNat + 1) (k.toNat + 1) n.toNat s
/-- A register trip count above 65,535 is illegal on b (R209). -/
def execMloopReg (_g : BitVec 3) (l : BitVec 5) (st : BitVec 6) (k r : BitVec 5) (s : State) : Out :=
  mloopWord (l.toNat + 1) (st.toNat + 1) (k.toNat + 1) (s.core.sreg r).toNat s

end Sys2Proof.Machine
end

