-- ==== Sys2Proof/Machine/Transfer.lean ====
section
/-!
DEFINITION. Copies in flight (R87 to R94, R231 to R237, R243 to R247, R338), flits (R95, R238) and the
sampling and results of collectives (R102, R240, R241).
-/

namespace Sys2Proof.Machine

/-! ## Beats and places of a copy -/

/-- Samples of a copy: chunks, or the streams of a LISTEN. -/
def Copy.samples (c : Copy) : Nat := if c.kind = .listen then c.streams else c.chunks

/-- Performs of a copy: chunks, one record, or none. -/
def Copy.performs (c : Copy) : Nat :=
  match c.kind with
  | .cpysel => 1
  | .speak => 0
  | _ => c.chunks

/-- Beat of sample n (R92, R237, R245, R247). -/
def Copy.sampleBeat (c : Copy) (n : Nat) : Nat :=
  c.start + c.sample0 + n * (if c.kind = .listen then 1 + c.maxe / 4 else c.period)

/-- Beat of perform n (R92). -/
def Copy.performBeat (c : Copy) (n : Nat) : Nat := c.start + c.perform0 + n * c.period

/-- Source and destination addresses of chunk j (R92, R233). -/
def Copy.srcAt (c : Copy) (j : Nat) : Nat := c.src + 256 * (j / c.rowLen * c.sStride + j % c.rowLen)
def Copy.dstAt (c : Copy) (j : Nat) : Nat := c.dst + 256 * (j / c.rowLen * c.dStride + j % c.rowLen)

/-- The beat on which the copy's last chunk performs. -/
def Copy.lastBeat (c : Copy) : Nat := if c.kind = .speak then c.sampleBeat (c.chunks - 1) else c.performBeat (c.performs - 1)

/-- The destination range, from its lowest byte to its highest (R94, R233). -/
def Copy.range (c : Copy) : Nat × Nat :=
  if c.kind = .cpysel then (c.dst, c.dst + 256) else (c.dst, c.dstAt (c.chunks - 1) + 256)

/-- The overlap table of a destination (R94): kind and place. -/
def Copy.table (c : Copy) : Nat × Nat :=
  match c.dstSpace with
  | .spad => (0, 8 * c.org.rope + c.org.core)
  | .acc => (1, 8 * c.org.rope + c.org.core)
  | .dev => (2, c.column)

/-- Nothing of a copy is left. -/
def Copy.finished (c : Copy) : Bool := decide (c.samples ≤ c.nextSample) && decide (c.performs ≤ c.nextPerform)

/-- Replace a core's copy by the same copy further on, and drop it when it is finished and, for a SPEAK, has nothing left to
stage. -/
def Core.putCopy (k : Core) (c : Copy) : Core :=
  { k with copies := (k.copies.map fun x => if x.org = c.org then c else x).filter fun x =>
      !(x.started && x.finished && (decide (x.kind ≠ .speak) || x.buf.isEmpty)) }

/-- Drop a copy: no further chunk of it performs. -/
def Core.dropCopy (k : Core) (o : Origin) : Core := { k with copies := k.copies.filter fun x => x.org ≠ o }

/-- A later copy of the track has taken over byte a of the copy's destination (R94). -/
def Copy.lost (c : Copy) (a : Nat) : Bool := c.suppressed.any fun z => decide (z.1 ≤ a) && decide (a < z.2)

/-- The cells that a copy writes of bytes at address a: those it has not lost (R94). -/
def Copy.cells (c : Copy) (a : Nat) (bs : List Byte) : List Host.Cell := (cellsAt a bs).filter fun y => !c.lost y.1

/-- A fault of a copy (R80, R88, R93, R94), which then performs nothing more; its range stays in its table until its last
perform beat.
(DESIGN CHOICE, log entry 89). -/
def State.copyStop (s : State) (p r c : Nat) (x : Copy) (cls : FaultClass) (d d2 : Nat) : State :=
  (s.raiseAt p cls x.org d d2).onCore r c fun k => k.dropCopy x.org

/-! ## Start (R91, R94) -/

/-- Entries of an overlap table. -/
def overlapEntries : Nat := 32

/-- Two ranges meet. -/
def meets (a b c d : Nat) : Bool := decide (a < d) && decide (c < b)

/-- Record a copy's pending writes into its own core (R69). -/
def Core.recordCopy (k : Core) (c : Copy) : Core :=
  match c.dstSpace, c.kind with
  | .dev, _ => k
  | _, .speak => k
  | sp, .cpysel => k.erRecord sp c.dst (c.dst + 256) (c.performBeat 0) c.org
  | sp, _ => (range 0 c.chunks).foldl (fun k j => k.erRecord sp (c.dstAt j) (c.dstAt j + 256) (c.performBeat j) c.org) k

/-- A copy starts: it leaves the start buffer and its range enters the overlap table (R91, R94).
(DEDUCED, log entry 32). -/
def State.startCopy (s : State) (p r c : Nat) (x : Copy) : State :=
  let started (s : State) : State := s.onCore r c fun k => (k.putCopy { x with started := true }).recordCopy x
  if x.kind = .speak then started s
  else
    let (kind, place) := x.table
    let (lo, hi) := x.range
    let mine := (s.partAt p).overlaps.filter fun e => decide (e.kind = kind) && decide (e.place = place)
    let clash := mine.any fun e =>
      meets lo hi e.lo e.hi && (decide (e.rope ≠ r) || decide (e.core ≠ c) || decide (e.step ≠ x.step))
    if clash then s.copyStop p r c x .copyOverlap x.dstVa x.srcVa
    else if overlapEntries ≤ mine.length then s.copyStop p r c x .overlapTableFull x.dstVa x.srcVa
    else
      started (s.onPart p fun q => { q with
        overlaps := q.overlaps ++ [{ kind := kind, place := place, lo := lo, hi := hi, rope := r, core := c, step := x.step,
                                     leave := x.lastBeat }] })

/-- COPY_START: copy k of a core starts when its start beat has come (R91). -/
def execCopyStart (r c k : Nat) (s : State) : Out :=
  let p := s.partOf r
  match (s.coreAt r c).copies[k]? with
  | some x => if !x.started ∧ x.start ≤ (s.partAt p).topo then .next (s.startCopy p r c x) else .next s
  | none => .next s

/-! ## Column ports (R87, R88) -/

/-- A grant's column and port, in place (R87). -/
def grantPort (column port : Nat) : Nat := column * 2 ^ 17 + port * 2 ^ 16

/-- A grant covers a column, a port and beat t of the step anchored at a. -/
def grantCovers (g : W32) (column port a t : Nat) : Bool :=
  let x := g.toNat
  let pg := 2 ^ bits x 15 14
  decide (bits x 23 17 = column) && decide (bits x 16 16 = port) && decide (a ≤ t) && decide ((t - a) % pg = bits x 13 11)

/-- The port beat of a chunk with a device end; false after a column conflict of this copy. Of two copies that meet
on a port the one issued later is responsible, whichever of them came first to the port (R67, R88). -/
def State.takeColumn (s : State) (p r c : Nat) (x : Copy) : State × Bool :=
  let k := s.coreAt r c
  let t := (s.partAt p).topo
  let stop (s : State) : State × Bool := (s.copyStop p r c x .columnConflict (grantPort x.column x.port) t, false)
  if !(x.grants.any fun g => grantCovers g x.column x.port x.anchor t) then stop s
  else
    match k.colPorts.find? fun u => decide (u.1 = x.column) && decide (u.2.1 = x.port) with
    | some (_, _, o) =>
      if o.before x.org then stop s
      else ((s.raiseAt p .columnConflict o (grantPort x.column x.port) t).onCore r c fun k => k.dropCopy o, true)
    | none => (s.onCore r c fun k => { k with colPorts := (x.column, x.port, x.org) :: k.colPorts }, true)

/-! ## Samples -/

/-- The 64-B lines 0 to 3 of a chunk that hold poison (R338). -/
def poisonLines (marks : SMap Nat) (u a n : Nat) : List Nat :=
  (range 0 (n / 64)).filter fun i => decide (eccOver marks u (a + 64 * i) 64 = 2)

/-! ## The select record of CPYSEL (R236, R237) -/

/-- A field of a select record. -/
def recNat (rec_ : List Byte) (off n : Nat) : Nat := leNat ((rec_.drop off).take n)

/-- Replace bytes of a list at an offset. -/
def patch (bs : List Byte) (off : Nat) (new : List Byte) : List Byte := bs.take off ++ new ++ bs.drop (off + new.length)

/-- A record's candidates: index and FP32 value (R236). -/
def candidates (rec_ : List Byte) : List (Nat × Nat) :=
  (range 0 (min 16 (recNat rec_ 16 2))).map fun i => (recNat rec_ (32 + 4 * i) 4, recNat rec_ (96 + 4 * i) 4)

/-- Candidate x stands before y: greater value first, then lower index. -/
def ahead (x y : Nat × Nat) : Bool :=
  let a := fp32.decode x.2
  let b := fp32.decode y.2
  b.below a || (!a.below b && decide (x.1 < y.1))

/-- Insert a candidate in order. -/
def insertCandidate (x : Nat × Nat) : List (Nat × Nat) → List (Nat × Nat)
  | [] => [x]
  | y :: ys => if ahead x y then x :: y :: ys else y :: insertCandidate x ys

/-- 2^d as an exact value of two FP32 codes' difference. -/
def exp2Diff (x y : Nat) : FVal := fExp2 (FVal.add (fp32.decode x) (fp32.decode y).neg)

/-- FP32 of 1. -/
def one : FVal := .fin false 1 0

/-- MAX and SUM after a scaled logit y (R237). -/
def softStep (mx sum y : Nat) : Nat × Nat :=
  let round := fp32.round .rne false
  match FVal.cmp (fp32.decode y) (fp32.decode mx) with
  | some .gt => (y, round (FVal.add (FVal.mul (fp32.decode sum) (if mx = 0xFF800000 then .fin false 0 0 else exp2Diff mx y)) one))
  | some .eq => (mx, round (FVal.add (fp32.decode sum) one))
  | _ => if y = 0xFF800000 then (mx, sum) else (mx, round (FVal.add (fp32.decode sum) (exp2Diff y mx)))

/-- A record being folded: MAX, SUM and the candidates so far. -/
structure Fold where
  mx : Nat
  sum : Nat
  cands : List (Nat × Nat)

/-- One lane (R237). -/
def foldLane (scale : Nat) (f : Fold) (idx lane : Nat) : Fold :=
  let y := fp32.round .rne false (FVal.mul (fp32.decode lane) (fp32.decode scale))
  if (fp32.decode y).isNan then f
  else
    let (mx, sum) := softStep f.mx f.sum y
    { mx := mx, sum := sum, cands := (insertCandidate (idx, y) f.cands).take 16 }

/-- The lanes of one chunk, from index idx on. -/
def foldLanes (scale : Nat) : Fold → Nat → List Nat → Fold
  | f, _, [] => f
  | f, idx, l :: ls => foldLanes scale (foldLane scale f idx l) ((idx + 1) % 2 ^ 32) ls

/-- Write COUNT and the candidates into a record (R236, R237). -/
def putCandidates (rec_ : List Byte) (cs : List (Nat × Nat)) : List Byte :=
  let pad (f : Nat × Nat → Nat) (z : Nat) : List Byte := ((cs.map f ++ List.replicate 16 z).take 16).flatMap (toLe 4)
  patch (patch (patch rec_ 16 (toLe 2 cs.length)) 32 (pad (·.1) 0xFFFFFFFF)) 96 (pad (·.2) 0xFF800000)

/-- A record after chunk j. BASE stays until the end. -/
def foldChunk (rec_ : List Byte) (j : Nat) (bs : List Byte) : List Byte :=
  let f := foldLanes (recNat rec_ 0 4)
    { mx := recNat rec_ 4 4, sum := recNat rec_ 8 4, cands := (candidates rec_).foldl (fun l c => insertCandidate c l) [] }
    ((recNat rec_ 12 4 + 64 * j) % 2 ^ 32) (lanesOf 4 bs)
  putCandidates (patch (patch rec_ 4 (toLe 4 f.mx)) 8 (toLe 4 f.sum)) f.cands

/-- The fields of a record's CTRL word (R236). -/
def recordCtrl : Nat := 0x81FF00FF

/-- The record that a CPYSEL of n chunks writes: BASE moved on, RAND when DRAW asks for it, and zero in its reserved fields
(R4, R124, R236, R237). -/
def finishRecord (r : Resident) (rec_ : List Byte) (n : Nat) : List Byte :=
  let ctrl := recNat rec_ 20 4 &&& recordCtrl
  let base := (recNat rec_ 12 4 + 64 * n) % 2 ^ 32
  let rec_ := patch (patch (patch (patch rec_ 12 (toLe 4 base)) 18 (zeros 2)) 20 (toLe 4 ctrl)) 160 (zeros 96)
  if ctrl.testBit 31 then
    let rand := match r.atAnchor.find? fun a => a.sid = bits ctrl 24 16 with
      | some a => mix a.key (BitVec.ofNat 64 (a.n * 256 + bits ctrl 7 0))
      | none => 0
    patch rec_ 24 (toLe 8 rand.toNat)
  else rec_

/-- A read of n bytes of a row by an engine that counts as owner w: bytes and poisoned lines, or none after
a fault (R79, R80, R81). A read of an unallocated bank is a read all the same, on its port and under the early-read
check. -/
def State.engineRead (s : State) (p r c : Nat) (sp : Space) (a n owner : Nat) (o : Origin) : State × Option (List Byte × List Nat) :=
  let k := s.coreAt r c
  let bank := bankOf a
  let here := decide (sp = .acc)
  if here && k.allocated bank && decide ((k.bank bank).owner (rowOf a) ≠ owner) then
    (s.raiseAt p .band o bank (rowOf a), none)
  else
    let s := (s.earlyCheck p r c sp a (a + n) o).takeRead p r c sp a o
    if here && !k.allocated bank then (s.onCore r c fun k => k.sticky stUnallocRead, some (zeros n, []))
    else
      let (s, _) := s.eccRead r c sp a n
      let (marks, u) := s.eccOf r c sp
      (s, some (Mem.bytes (s.memOf r c sp) a n, poisonLines marks u a n))

/-- Owner codes of R136 for the readers of R80. -/
def readsAsC : Nat := 1
def readsAsX : Nat := 2

/-! ## Order among the copies of one track (R96 to R98) -/

/-- The 256-B writes of a copy that are still to perform, by address; with the bytes and the poisoned lines once they
are formed: as a chunk is sampled whole, as a CPYSEL's last chunk is, and only in the write itself for a CPYA (R232, R237). -/
def Copy.toCome (c : Copy) (r : Resident) : List (Nat × Option (List Byte × List Nat)) :=
  let left := Machine.range c.nextPerform (c.performs - c.nextPerform)
  match c.kind with
  | .speak => []
  | .cpysel =>
    left.map fun _ => (c.dst, if c.samples ≤ c.nextSample ∧ c.buf.isEmpty then
      some (finishRecord r c.record c.chunks, if c.poisoned then [0, 1, 2, 3] else []) else none)
  | .cpya => left.map fun n => (c.dstAt n, none)
  | _ => left.map fun n => (c.dstAt n, (c.buf.find? fun ch => decide (ch.idx = n) && ch.owed.isEmpty).map fun ch => (ch.bytes, ch.poison))

/-- The poisoned lines of n bytes read at address a, where the lines that a test takes come from a 256-B write at
address d with its own poisoned lines. -/
def reline (a n d : Nat) (takes : Nat → Bool) (theirs mine : List Nat) : List Nat :=
  (Machine.range 0 (n / 64)).filter fun i =>
    let x := a + 64 * i
    if d ≤ x ∧ x < d + 256 ∧ takes x then theirs.contains ((x - d) / 64) else mine.contains i

/-- A chunk read from address a, after an earlier write of word o at address d: its cells lie over the chunk, and what is
not formed yet is owed, and a free value until then. -/
def Chunk.under (ch : Chunk) (a d : Nat) (o : Origin) (formed : Bool) (cells : List Host.Cell) (lines : List Nat) : Chunk :=
  let has (x : Nat) : Bool := cells.any fun y => decide (y.1 = x)
  let mine := cells.filter fun x => decide (a ≤ x.1) && decide (x.1 < a + ch.bytes.length)
  { ch with
    bytes := overlay a ch.bytes mine
    poison := reline a ch.bytes.length d has lines ch.poison
    owed := (ch.owed.filter fun y => !has (a + y.1)) ++ if formed then [] else mine.map fun x => (x.1 - a, x.1, o.issue) }

/-- A chunk read from address a where writes of the core's copies stand that are not formed yet: it is owed what it read of
them. -/
def Core.underDebts (k : Core) (sp : Space) (a : Nat) (ch : Chunk) : Chunk :=
  k.debts.foldl (fun ch x =>
    if x.copy.dstSpace = sp then
      let mine := x.held.filter fun y =>
        decide (a ≤ y.1) && decide (y.1 < a + ch.bytes.length) && decide (ch.bytes.getD (y.1 - a) 0 = y.2)
      { ch with
        owed := (ch.owed.filter fun z => !mine.any fun y => decide (y.1 = a + z.1)) ++ mine.map fun y => (y.1 - a, y.1, x.copy.org.issue) }
    else ch) ch

/-- A chunk that word o of class cls reads from address a of its core's memory: over it lie the writes still to perform of
the copies issued earlier on the track, of its class (R96), and, for a SPEAK, the racing ones of other classes as the free
values say (R98). Two copies never race.
(DEDUCED, log entry 26). -/
def Core.copyForward (k : Core) (r : Resident) (speaks : Bool) (o : Origin) (cls : Nat) (sp : Space) (a free : Nat)
    (ch : Chunk) : Chunk :=
  k.copies.foldl (fun ch e =>
    if e.org.issue < o.issue ∧ e.dstSpace = sp ∧ (k.sameClass .c e.org.issue e.cls o.issue cls ∨ speaks) then
      (e.toCome r).foldl (fun ch (d, x) =>
        if meets a (a + ch.bytes.length) d (d + 256) then
          let cells := match x with
            | some (bs, _) => e.cells d bs
            | none => (freeCells free d 256).filter fun y => !e.lost y.1
          let lines := match x with
            | some (_, ps) => ps
            | none => []
          ch.under a d e.org x.isSome (k.seen o e.org cls e.cls free cells).2 lines
        else ch) ch
    else ch) ch

/-- A CPYSEL takes up what it has sampled, its record and then its chunks in order, as far as nothing of it is owed; all:
whatever is owed (R237). -/
def Copy.foldReady (all : Bool) (c : Copy) : Copy :=
  let ready := c.buf.takeWhile fun ch => all || ch.owed.isEmpty
  { c with
    buf := c.buf.drop ready.length
    record := ready.foldl (fun r ch => if ch.idx = c.chunks then ch.bytes else foldChunk r ch.idx ch.bytes) c.record
    poisoned := c.poisoned || ready.any fun ch => !ch.poison.isEmpty }

/-- A chunk takes the bytes owed to it that a write of word o at address d forms, with their poison (R96). -/
def Chunk.take (o : Origin) (d : Nat) (bs : List Byte) (lines : List Nat) (ch : Chunk) : Chunk :=
  let mine := ch.owed.filter fun y => decide (y.2.2 = o.issue) && decide (d ≤ y.2.1) && decide (y.2.1 < d + bs.length)
  if mine.isEmpty then ch
  else
    { ch with
      bytes := mine.foldl (fun b y => b.set y.1 (bs.getD (y.2.1 - d) 0)) ch.bytes
      poison := (Machine.range 0 4).filter fun i =>
        ch.poison.contains i || mine.any fun y => decide (y.1 / 64 = i) && lines.contains ((y.2.1 - d) / 64)
      owed := ch.owed.filter fun y => !mine.contains y }

/-- A write of word o at address d is formed: what it owes to sampled chunks, and to writes that stand for it, is paid. -/
def Core.pay (k : Core) (o : Origin) (d : Nat) (bs : List Byte) (lines : List Nat) : Core :=
  let paid (x : Copy) : Copy := { x with buf := x.buf.map (Chunk.take o d bs lines) }
  { k with
    copies := k.copies.map fun x => if x.kind = .cpysel then (paid x).foldReady false else paid x
    debts := k.debts.map fun x => { x with copy := paid x.copy, old := x.old.map (Chunk.take o d bs lines) } }

/-- The bytes that a debt's write still waits for, by the address and the issue beat of the writes that give them. -/
def Debt.owed (x : Debt) : List (Nat × Nat) :=
  ((x.copy.buf ++ x.old.toList).flatMap (·.owed)).map (·.2)

/-- A copy of the core waits for bytes that an earlier write owes. -/
def Core.owing (k : Core) : Bool := (k.copies.any fun c => c.buf.any fun ch => !ch.owed.isEmpty) || !k.debts.isEmpty

/-- The bytes that word o, a copy of class cls, reads at address a of its core, and their poisoned lines, after the
order of its track. -/
def State.ordered (s : State) (p r c : Nat) (x : Copy) (sp : Space) (a : Nat) (bs : List Byte) (ps : List Nat) : State × Chunk :=
  let k := s.coreAt r c
  let ch := k.underDebts sp a { idx := x.nextSample, bytes := bs, poison := ps }
  ({ s with free := s.free + 1 }, k.copyForward (s.partAt p).runner (decide (x.kind = .speak)) x.org x.cls sp a s.free ch)

/-- The source bytes of chunk j of a copy. A device end is no part of the track's order (R230). -/
def State.copySource (s : State) (p r c : Nat) (x : Copy) (j : Nat) : State × Option Chunk :=
  let a := x.srcAt j
  match x.srcSpace with
  | .dev =>
    match s.takeColumn p r c x with
    | (s, true) =>
      (s, some ((s.coreAt r c).underDebts .dev a { idx := j, bytes := Mem.bytes s.mem a 256, poison := poisonLines s.memEcc 64 a 256 }))
    | (s, false) => (s, none)
  | sp =>
    match s.engineRead p r c sp a 256 readsAsC x.org with
    | (s, some (bs, ps)) => let (s, ch) := s.ordered p r c x sp a bs ps; (s, some ch)
    | (s, none) => (s.onCore r c fun k => k.dropCopy x.org, none)

/-! ### SPEAK (R246, R247) -/

/-- Entries of the speak-stage buffer (R247). -/
def speakStage : Nat := 4096

/-- Stage one slot of a SPEAK chunk that was sampled on beat t. -/
def State.stageSpeak (s : State) (p r c : Nat) (x : Copy) (t slot : Nat) (bs : List Byte) (bad : Bool) : State :=
  let q := s.partAt p
  let ctx := q.runner.ctx
  let sid := entryNat bs 8 2
  if entryNat bs 6 1 = 0xFF ∧ !bad then s
  else if 511 < sid then s.event p ctx .noStream sid none none
  else if q.step.outcome = .committed ∨ q.rendezBeat + 16 ≤ t then
    if q.step.outcome = .committed ∨ q.step.outcome = .open_ then s.count ctx sid stSpkdrop 1 else s
  else if speakStage ≤ q.speak.length then s.copyStop p r c x .stageFull 1 0
  else s.onPart p fun q => { q with speak := q.speak ++ [{ org := x.org, slot := slot, bytes := bs, poison := bad }] }

/-- A sampled chunk leaves a SPEAK: its four entries are staged (R246, R337). -/
def State.stageChunk (s : State) (p r c : Nat) (x : Copy) (ch : Chunk) : State :=
  let s := s.onCore r c fun k =>
    match k.copies.find? fun y => y.org = x.org with
    | some y => k.putCopy { y with buf := y.buf.filter fun z => z.idx ≠ ch.idx }
    | none => k
  let s := (range 0 4).foldl (fun s i =>
    s.stageSpeak p r c x (x.sampleBeat ch.idx) (4 * ch.idx + i) ((ch.bytes.drop (64 * i)).take 64) (ch.poison.contains i)) s
  if ch.poison.isEmpty then s else s.onCore r c fun k => k.sticky stCopyPoisoned

/-- The sampled chunks of a core's SPEAKs are staged, but for those that a racing write of an earlier copy still owes bytes;
all: these too (R98, R247). -/
def State.stageReady (s : State) (p r c : Nat) (all : Bool) : State :=
  ((s.coreAt r c).copies.filter fun x => x.kind = .speak).foldl (fun s x =>
    (x.buf.filter fun ch => all || ch.owed.isEmpty).foldl (fun s ch => s.stageChunk p r c x ch) s) s

/-- Chunk j of a SPEAK: its entries are staged on the beat (R246). -/
def State.sampleSpeak (s : State) (p r c : Nat) (x : Copy) (j : Nat) : State :=
  match s.copySource p r c x j with
  | (s, some ch) =>
    (s.onCore r c fun k => k.putCopy { x with nextSample := j + 1, buf := x.buf ++ [ch] }).stageReady p r c false
  | (s, none) => s

/-! ### What was owed (R96) -/

/-- CPYA's sum of a row (R232). -/
def addRow (t : BitVec 6) (old src : List Byte) : List Byte :=
  let z := elemSize t
  let f (x y : Nat) : Nat := if isInt t then iAdd t x y else fAdd t x y
  lanesToBytes z (List.zipWith f (lanesOf z old) (lanesOf z src))

/-- The debts of a core whose writes can still come to be formed. -/
def Core.standingDebts (k : Core) : List Debt :=
  k.debts.filter fun x => x.owed.all fun y =>
    (k.copies.any fun e => decide (e.org.issue = y.2)) || k.debts.any fun e => decide (e.copy.org.issue = y.2)

/-- The bytes and poisoned lines of a debt's write, all of which is there now. -/
def Debt.value (r : Resident) (x : Debt) : List Byte × List Nat :=
  let lines (bad : Bool) : List Nat := if bad then [0, 1, 2, 3] else []
  match x.copy.kind, x.copy.buf, x.old with
  | .cpysel, _, _ =>
    let y := x.copy.foldReady false
    (finishRecord r y.record y.chunks, lines y.poisoned)
  | .cpya, ch :: _, some old => (addRow x.copy.type old.bytes ch.bytes, lines !(ch.poison.isEmpty && old.poison.isEmpty))
  | _, ch :: _, _ => (ch.bytes, ch.poison)
  | _, [], _ => ([], [])

/-- A debt's write is formed: it takes the place of the free values that still stand for it, and pays what it owes. -/
def State.settleDebt (s : State) (p r c : Nat) (x : Debt) : State :=
  let sp := x.copy.dstSpace
  let (bs, lines) := x.value (s.partAt p).runner
  let cells := (x.held.filter fun y => decide (Mem.byte (s.memOf r c sp) y.1 = y.2)).map fun y => (y.1, bs.getD (y.1 - x.addr) 0)
  let lines' := lines.filter fun i => cells.any fun y => decide ((y.1 - x.addr) / 64 = i)
  let s := s.onCore r c fun k => { k with debts := k.debts.erase x }
  let s := s.pokeCells r c sp cells
  let s := lines'.foldl (fun s i => s.poison r c sp (x.addr + 64 * i) 64) s
  s.onCore r c fun k => (if lines'.isEmpty then k else k.sticky stCopyPoisoned).pay x.copy.org x.addr bs lines

/-- Every write of a core that is formed pays what it owes: those to come, and those that stand as free values. -/
def State.payRound (s : State) (p r c : Nat) : State :=
  let formed := (s.coreAt r c).copies.flatMap fun e =>
    (e.toCome (s.partAt p).runner).filterMap fun (d, x) => x.map fun (bs, ps) => (e.org, d, bs, ps)
  let s := formed.foldl (fun s (o, d, bs, ps) => s.onCore r c fun k => k.pay o d bs ps) s
  ((s.coreAt r c).debts.filter fun x => x.owed.isEmpty).foldl (fun s x => s.settleDebt p r c x) s

/-- What is owed in a core is paid as far as it is formed, a write after the other; SPEAK chunks that were waiting are
staged. -/
def State.payOwed (s : State) (p r c : Nat) : State :=
  let k := s.coreAt r c
  if k.owing then ((range 0 (k.copies.length + k.debts.length)).foldl (fun s _ => s.payRound p r c) s).stageReady p r c false
  else s

/-- Chunks enter a copy's landing buffer, and what they owe later copies is paid. -/
def State.landChunks (s : State) (p r c : Nat) (x : Copy) (j : Nat) (chs : List Chunk) : State :=
  (s.onCore r c fun k => k.putCopy { x with nextSample := j + 1, buf := x.buf ++ chs }).payOwed p r c

/-- CPYSEL's sample of chunk j: the record with the first, and the fold (R237). -/
def State.sampleSelect (s : State) (p r c : Nat) (x : Copy) (j : Nat) : State :=
  let (s, first) :=
    if j = 0 then
      match s.engineRead p r c .spad x.dst 256 readsAsC x.org with
      | (s, some (bs, ps)) =>
        let (s, ch) := s.ordered p r c x .spad x.dst bs ps
        (s, [{ ch with idx := x.chunks }])
      | (s, none) => (s, [])
    else (s, [])
  match s.copySource p r c x j with
  | (s, some ch) =>
    (s.onCore r c fun k => k.putCopy (({ x with nextSample := j + 1, buf := x.buf ++ first ++ [ch] }).foldReady false)).payOwed p r c
  | (s, none) => s

/-- The sample of a copy that is due now. -/
def State.sampleCopy (s : State) (p r c : Nat) (x : Copy) : State :=
  let j := x.nextSample
  match x.kind with
  | .speak => s.sampleSpeak p r c x j
  | .listen =>
    let q := s.partAt p
    let block := s.listenBlock q.runner.ctx q.runner (x.first + j) x.maxe
    let per := 1 + x.maxe / 4
    let chunks := (range 0 per).map fun i => { idx := per * j + i, bytes := (block.drop (256 * i)).take 256, poison := [] : Chunk }
    s.landChunks p r c x j chunks
  | .cpysel => s.sampleSelect p r c x j
  | _ =>
    match s.copySource p r c x j with
    | (s, some ch) => s.landChunks p r c x j [ch]
    | (s, none) => s

/-! ## Performs -/

/-- The 256-B reads of its core's memory or of device memory that a copy has still to make: space, address and beat. A
CPYSEL also reads its record, and a CPYA the rows it adds to (R232, R237); a LISTEN reads by the grid controller's path. -/
def Copy.readsToCome (c : Copy) : List (Space × Nat × Nat) :=
  (if c.kind = .listen then []
   else (Machine.range c.nextSample (c.samples - c.nextSample)).map fun j => (c.srcSpace, c.srcAt j, c.sampleBeat j))
  ++ (if c.kind = .cpysel ∧ c.nextSample = 0 then [(.spad, c.dst, c.sampleBeat 0)] else [])
  ++ if c.kind = .cpya then
      (Machine.range c.nextPerform (c.performs - c.nextPerform)).map fun n => (c.dstSpace, c.dstAt n, c.performBeat n)
    else []

/-- A copy issued earlier on the track, of the class, has still to read bytes of the core's memories that this write would
replace (R97, R230). -/
def Core.copyOrderBad (k : Core) (b : Nat) (x : Copy) (a : Nat) : Option Nat :=
  if x.dstSpace = .dev then none else k.copies.findSome? fun e =>
    if e.org.issue < x.org.issue ∧ k.sameClass .c e.org.issue e.cls x.org.issue x.cls then
      e.readsToCome.findSome? fun (sp, y, t) =>
        if sp = x.dstSpace ∧ b < t ∧ meets a (a + 256) y (y + 256) then some (max a y) else none
    else none

/-- Bytes a ... a + 255 now belong to copy x: copies issued earlier on the track lose them (R94). -/
def Core.suppress (k : Core) (x : Copy) (a n : Nat) : Core :=
  { k with copies := k.copies.map fun e =>
      if e.org.issue < x.org.issue ∧ e.dstSpace = x.dstSpace then { e with suppressed := e.suppressed ++ [(a, a + n)] } else e }

/-- Write a chunk's bytes but for the suppressed ones, then the poison of the lines it still writes (R94, R338). -/
def State.putChunk (s : State) (r c : Nat) (x : Copy) (a : Nat) (bs : List Byte) (lines : List Nat) : State :=
  let cells := x.cells a bs
  let lines := lines.filter fun i => !x.lost (a + 64 * i)
  let s := s.pokeCells r c x.dstSpace cells
  let s := lines.foldl (fun s i => s.poison r c x.dstSpace (a + 64 * i) 64) s
  let s := if lines.isEmpty then s else s.onCore r c fun k => k.sticky stCopyPoisoned
  s.onCore r c fun k => (if x.dstSpace = .acc then k.touchBank (bankOf a) else k).suppress x a bs.length

/-- What a write of chunk ch at address a, over the old row of a CPYA, leaves to be paid: nothing where it is formed. x holds
what a CPYSEL has still to fold. -/
def Copy.debt (x : Copy) (a : Nat) (ch : Chunk) (old : Option Chunk) (bs : List Byte) : List Debt :=
  let y := if x.kind = .cpysel then x else { x with buf := [ch] }
  let d : Debt := { copy := y, addr := a, old := old, held := x.cells a bs }
  if d.owed.isEmpty then [] else [d]

/-- A write of copy x at address a, of bytes that its track's order may still owe: what is not formed stands as free values,
and what is pays what it owes (R94, R96). -/
def State.putOwing (s : State) (p r c : Nat) (x : Copy) (a : Nat) (ch : Chunk) (old : Option Chunk) (bs : List Byte)
    (lines : List Nat) : State :=
  let ds := x.debt a ch old bs
  let s := s.putChunk r c x a bs lines
  if ds.isEmpty then
    if (s.coreAt r c).owing then (s.onCore r c fun k => k.pay x.org a bs lines).payOwed p r c else s
  else s.onCore r c fun k => { k with debts := k.debts ++ ds }

/-- A chunk's bytes go to their destination on the present beat (R76, R79, R81, R88, R92). What they still owe to the order
of the track stands as free values until it is formed (R96).
(DEDUCED, log entry 26). -/
def State.writeChunk (s : State) (p r c : Nat) (x : Copy) (a : Nat) (ch : Chunk) : State × Bool :=
  let k := s.coreAt r c
  let put (s : State) : State := s.putOwing p r c x a ch none ch.bytes ch.poison
  match k.copyOrderBad (s.partAt p).topo x a with
  | some y => (s.copyStop p r c x .classOrder y x.cls, false)
  | none =>
    match x.dstSpace with
    | .dev =>
      match s.takeColumn p r c x with
      | (s, true) => (put s, true)
      | (s, false) => (s, false)
    | .spad => (put (s.takeWrite p r c .spad a x.org), true)
    | .acc =>
      if !k.allocated (bankOf a) ∨ (x.kind = .cpya ∧ x.type = 0) then
        (s.copyStop p r c x .unallocatedWrite (bankOf a) (rowOf a), false)
      else if x.kind = .cpya then
        match s.engineRead p r c .acc a 256 readsAsC x.org with
        | (s, some (bs, ps)) =>
          let (s, old) := s.ordered p r c x .acc a bs ps
          let all := if ch.poison.isEmpty ∧ old.poison.isEmpty then [] else [0, 1, 2, 3]
          ((s.takeWrite p r c .acc a x.org).putOwing p r c x a ch (some old) (addRow x.type old.bytes ch.bytes) all, true)
        | (s, none) => (s.onCore r c fun k => k.dropCopy x.org, false)
      else (put (s.takeWrite p r c .acc a x.org), true)

/-- The copy after perform n. -/
def State.advanceCopy (s : State) (r c : Nat) (x : Copy) (n : Nat) : State :=
  s.onCore r c fun k =>
    match k.copies.find? fun e => e.org = x.org with
    | some e => k.putCopy { e with nextPerform := n + 1, buf := e.buf.filter fun ch => ch.idx ≠ n }
    | none => k

/-- The FULL bit of a CPYQ's entry, as its first chunk sampled it (R84). -/
def State.entryFull (s : State) (p r c : Nat) (x : Copy) (n : Nat) : State × Bool :=
  match x.ring, x.found with
  | some (q, i, tag), some t =>
    if n = 0 ∧ t.full then
      (s.copyStop p r c x .schedule (q + 256 * tag.toNat + 65536 * t.tag.toNat + 2 ^ 24) i, true)
    else (s, false)
  | _, _ => (s, false)

/-- The samples of the tag states that first chunks performing on beat b need (R76, R84). -/
def Core.sampleTags (k : Core) (b : Nat) : Core :=
  { k with copies := k.copies.map fun x =>
      match x.ring with
      | some (q, i, _) => if x.started ∧ x.nextPerform = 0 ∧ x.performBeat 0 ≤ b then { x with found := some (k.tag q i) } else x
      | none => x }

/-- The tag and FULL of a CPYQ's entry, with its last chunk (R68). -/
def State.tagEntry (s : State) (r c : Nat) (x : Copy) (n : Nat) : State :=
  match x.ring with
  | some (q, i, tag) =>
    if n + 1 = x.chunks then s.onCore r c fun k => k.setTag q i { tag := tag, full := true } else s
  | none => s

/-- The perform of a copy that is due now. -/
def State.performCopy (s : State) (p r c : Nat) (x : Copy) : State :=
  let n := x.nextPerform
  match x.kind with
  | .cpysel =>
    let x := x.foldReady false
    let y := x.foldReady true
    let bs := finishRecord (s.partAt p).runner y.record y.chunks
    match s.writeChunk p r c x x.dst { idx := 0, bytes := bs, poison := if y.poisoned then [0, 1, 2, 3] else [] } with
    | (s, true) => s.advanceCopy r c x n
    | (s, false) => s
  | _ =>
    match s.entryFull p r c x n with
    | (s, true) => s
    | (s, false) =>
      match x.buf.find? fun ch => ch.idx = n with
      | some ch =>
        match s.writeChunk p r c x (x.dstAt n) ch with
        | (s, true) => (s.tagEntry r c x n).advanceCopy r c x n
        | (s, false) => s
      | none => s.advanceCopy r c x n

/-- The copy has a sample due on beat b. -/
def Copy.sampleDue (c : Copy) (b : Nat) : Bool :=
  c.started && decide (c.nextSample < c.samples) && decide (c.sampleBeat c.nextSample ≤ b)

/-- The copy has a perform due on beat b. -/
def Copy.performDue (c : Copy) (b : Nat) : Bool :=
  c.started && decide (c.nextPerform < c.performs) && decide (c.performBeat c.nextPerform ≤ b)

/-- COPY_CHUNK: copy k of a core samples a chunk, in the samples of a beat, or performs one, in its writes
(R92). -/
def execCopyChunk (r c k : Nat) (s : State) : Out :=
  let p := s.partOf r
  let q := s.partAt p
  match (s.coreAt r c).copies[k]? with
  | some x =>
    if q.mark ≤ 2 then (if x.sampleDue q.topo then .next (s.sampleCopy p r c x) else .next s)
    else if x.performDue q.topo then .next (s.performCopy p r c x)
    else .next s
  | none => .next s

/-! ## Flits (R95, R238) -/

/-- The core h steps away on the rope's ring (R9). -/
def ringCore (c h : Nat) (acw : Bool) : Nat := if acw then (c + 8 - h % 8) % 8 else (c + h) % 8

/-- The segment a flit crosses on beat t, by the core it leaves: none before and after its way (R95). -/
def Flit.segment (f : Flit) (t : Nat) : Option Nat :=
  let sampled := f.arrive - 1 - f.hops
  if sampled < t ∧ t ≤ sampled + f.hops then some (ringCore f.dst (f.hops - (t - sampled - 1)) (!f.acw)) else none

/-- Two flits cross one segment of one lane in one direction on beat t. -/
def Flit.collides (f g : Flit) (t : Nat) : Bool :=
  decide (f.rope = g.rope) && decide (f.lane = g.lane) && decide (f.acw = g.acw) && (f.segment t).isSome
    && decide (f.segment t = g.segment t)

/-- DETAIL of a rope timing fault (R293). -/
def laneDetail (lane : Nat) (acw : Bool) : Nat := lane + if acw then 8 else 0

/-- The crossings of the present beat (R71, R95). -/
def State.checkSegments (s : State) (p : Nat) : State :=
  let q := s.partAt p
  (q.flits.zip (range 0 q.flits.length)).foldl (fun s (f, i) =>
    (q.flits.drop (i + 1)).foldl (fun s g =>
      if f.collides g q.topo then s.raiseAt p .ropeTiming (laterOf f.org g.org) (laneDetail f.lane f.acw) q.topo else s) s) s

/-- The flit of a SEND that is sampled now (R95, R238). -/
def State.sampleFlit (s : State) (p r c : Nat) (x : SendOp) : State :=
  let t := (s.partAt p).topo
  let next := { x with next := x.next + 1 }
  let put (k : Core) : Core :=
    { k with sends := (k.sends.map fun y => if y.org = x.org then next else y).filter fun y => y.next < y.count }
  match s.engineRead p r c x.sp (x.addr + 64 * x.next) 64 readsAsX x.org with
  | (s, some (bs, ps)) =>
    let f : Flit := { org := x.org, lane := x.lane, acw := x.acw, hops := x.hops, rope := r,
                      dst := ringCore c x.hops x.acw, arrive := t + 1 + x.hops, bytes := bs, poison := !ps.isEmpty }
    (s.onCore r c put).onPart p fun q => { q with flits := q.flits ++ [f] }
  | (s, none) => s.onCore r c fun k => { k with sends := k.sends.filter fun y => y.org ≠ x.org }

/-- A RECV accepts a flit on beat t. -/
def RecvOp.accepts (x : RecvOp) (f : Flit) (t : Nat) : Bool :=
  decide (x.lane = f.lane) && decide (x.acw = f.acw) && decide (x.org.issue + x.next = t)

/-- The word whose issue orders a flit's write on beat t: the RECV that takes it, and the SEND where none does (R76). -/
def State.flitOrg (s : State) (f : Flit) (t : Nat) : Origin :=
  match (s.coreAt f.rope f.dst).recvs.find? fun x => x.accepts f t with
  | some x => x.org
  | none => f.org

/-- Flit f arrives at its core (R71, R95, R238). -/
def State.arrive (s : State) (p : Nat) (f : Flit) : State :=
  let t := (s.partAt p).topo
  let r := f.rope
  let c := f.dst
  match (s.coreAt r c).recvs.find? fun x => x.accepts f t with
  | some x =>
    let a := x.addr + 64 * x.next
    let next := { x with next := x.next + 1 }
    let s := s.onCore r c fun k =>
      { k with recvs := (k.recvs.map fun y => if y.org = x.org then next else y).filter fun y => y.next < y.count }
    if x.sp = .acc ∧ !(s.coreAt r c).allocated (bankOf a) then s.raiseAt p .unallocatedWrite x.org (bankOf a) (rowOf a)
    else
      let s := (s.takeWrite p r c x.sp a x.org).poke r c x.sp a f.bytes
      let s := if x.sp = .acc then s.onCore r c fun k => k.touchBank (bankOf a) else s
      if f.poison then
        (s.poison r c x.sp a 64).onCore f.org.rope f.org.core fun k => k.sticky stCopyPoisoned
      else s
  | none => s.raiseAt p .ropeTiming f.org (laneDetail f.lane f.acw) t

/-- ROPE_FLIT_ARRIVAL: flit k of a partition arrives when its beat has come (R95). -/
def execRopeFlitArrival (p k : Nat) (s : State) : Out :=
  let q := s.partAt p
  match q.flits[k]? with
  | some f =>
    if f.arrive ≤ q.topo then .next ((s.onPart p fun q => { q with flits := q.flits.eraseIdx k }).arrive p f) else .next s
  | none => .next s

/-- RECV flits placed for the present beat on which nothing arrived (R71). -/
def State.missedFlits (s : State) (p : Nat) : State :=
  let q := s.partAt p
  q.coreIds.foldl (fun s (r, c) =>
    ((s.coreAt r c).recvs.filter fun x => decide (x.org.issue + x.next ≤ q.topo)).foldl (fun s x =>
      (s.raiseAt p .ropeTiming x.org (laneDetail x.lane x.acw) q.topo).onCore r c fun k =>
        { k with recvs := k.recvs.filter fun y => y.org ≠ x.org }) s) s

/-! ## Collectives in a core (R102, R240, R241) -/

/-- The source chunk of a collective that is sampled now (R241, R338). One that its band refuses is not sampled, and
neither is any after it (R80, R344).
(DEDUCED, log entry 33). -/
def State.sampleColl (s : State) (p r c : Nat) (x : CollOp) : State :=
  let put (y : CollOp) (k : Core) : Core := { k with colls := k.colls.map fun z => if z.org = x.org then y else z }
  match s.engineRead p r c x.srcSpace (x.src + 256 * x.next) 256 readsAsC x.org with
  | (s, some (bs, ps)) =>
    s.onCore r c (put { x with next := x.next + 1, bytes := x.bytes ++ bs, poison := x.poison ++ ps.map (4 * x.next + ·) })
  | (s, none) => s.onCore r c (put { x with dropped := true })

/-- A collective's range enters the overlap table on b+1 (R94, R241).
(DEDUCED, log entry 33). -/
def State.enterColl (s : State) (p r c : Nat) (x : CollOp) : State :=
  let s := s.onCore r c fun k => { k with colls := k.colls.map fun z => if z.org = x.org then { x with entered := true } else z }
  s.onPart p fun q => { q with
    overlaps := q.overlaps ++ [{ kind := if x.dstSpace = .acc then 1 else 0, place := 8 * r + c, lo := x.dst,
                                 hi := x.dst + 256 * resultChunks x.shape.fn x.shape.chunks x.size,
                                 rope := r, core := c, step := q.step.serial, leave := x.due }] }

/-- The banks of a range, each once. -/
def banksOf (a n : Nat) : List Nat := if n = 0 then [] else range (a / 0x4000) ((a + n - 1) / 0x4000 - a / 0x4000 + 1)

/-- The result of a collective performs on D, or COLL-NULL is set (R102, R241). A result performs once. -/
def State.performColl (s : State) (p r c : Nat) (x : CollOp) : State :=
  let done (y : CollOp) (s : State) : State :=
    s.onCore r c fun k => { k with colls := k.colls.map fun z => if z.org = x.org then y else z }
  if x.status = 4 ∨ x.status = 5 then
    done { x with result := none, due := 0 } (s.onCore r c fun k => k.sticky stCollNull)
  else
    match x.result with
    | some (bs, ps) =>
      let banks := banksOf x.dst bs.length
      let k := s.coreAt r c
      let s := done { x with status := 3, result := none, due := 0 } s
      match (if x.dstSpace = .acc then banks.find? fun n => !k.allocated n else none) with
      | some n => s.raiseAt p .unallocatedWrite x.org n (if bankOf x.dst = n then rowOf x.dst else 0)
      | none =>
        let s := banks.foldl (fun s n => s.takeWrite p r c x.dstSpace (n * 0x4000) x.org) s
        let s := s.poke r c x.dstSpace x.dst bs
        let s := ps.foldl (fun s i => s.poison r c x.dstSpace (x.dst + 64 * i) 64) s
        let s := if ps.isEmpty then s else s.onCore r c fun k => k.sticky stCopyPoisoned
        if x.dstSpace = .acc then s.onCore r c fun k => banks.foldl Core.touchBank k else s
    | none => s

/-- COLL_RESULT_PERFORM: collective k of a core performs when D has come (R102). -/
def execCollResultPerform (r c k : Nat) (s : State) : Out :=
  let p := s.partOf r
  match (s.coreAt r c).colls[k]? with
  | some x => if x.due ≠ 0 ∧ x.due ≤ (s.partAt p).topo ∧ x.result.isSome then .next (s.performColl p r c x) else .next s
  | none => .next s

/-! ## The samples of a beat -/

/-- Loads and other samples of a core's latches, accumulating words, SENDs and collectives on beat b. -/
def State.sampleCore (s : State) (p r c b : Nat) : State :=
  let h : Home := { p := p, r := r, c := c, svc := false }
  let k := s.coreAt r c
  let ls := k.latches.filter fun l => decide (l.act ≤ b) && decide (l.eff.stage = 2)
  let s := s.onCore r c fun k => { k with latches := k.latches.filter fun l => !(decide (l.act ≤ b) && decide (l.eff.stage = 2)) }
  let s := ls.foldl (fun s l => s.performLatch h l) (s.onCore r c fun k => k.sampleTags b)
  let s := (k.accops.filter fun a => decide (a.next < 32) && decide (a.nextBeat ≤ b)).foldl (fun s a => s.sampleTile p r c a) s
  let s := (k.sends.filter fun x => decide (x.org.issue + 1 + x.next ≤ b)).foldl (fun s x => s.sampleFlit p r c x) s
  let s := (k.colls.filter fun x => !x.entered && decide (x.org.issue < b)).foldl (fun s x => s.enterColl p r c x) s
  ((s.coreAt r c).colls.filter fun x => !x.dropped && decide (x.next < x.shape.chunks) && decide (x.start + 1 + x.next ≤ b)).foldl
    (fun s x => s.sampleColl p r c x) s

/-- Every core's samples, and the rope crossings, of the present beat. -/
def State.sampleAll (s : State) (p : Nat) : State :=
  let q := s.partAt p
  (q.coreIds.foldl (fun s (r, c) => s.sampleCore p r c q.topo) s).checkSegments p

end Sys2Proof.Machine
end

