-- ==== Sys2Proof/Machine/Commit.lean ====
section
/-!
DEFINITION. What a step's commit does (R27): cancels, resets, forks, withdrawals, publications, pointer
moves, the flip and the extra-step request; with the sharing, release and reclamation of pages (R325 to
R330) that go with them.
-/

namespace Sys2Proof.Machine

/-! ## Pages of a stream (R317, R325, R328) -/

/-- Virtual base of a stream's KV window. -/
def kvBase (sid : Nat) : Nat := 2 ^ 40 + 2 ^ 31 * sid

/-- The 64-KiB table entries of a context's address range of one 2-MiB granule: none where no leaf table
stands. -/
def State.leafTable (s : State) (c va : Nat) : Option Nat :=
  if (s.ctxWord c 0).testBit 0 then
    let e1 := s.entryAt (entryPa (s.ctxWord c 0) + 8 * bits va 47 39)
    let e2 := s.entryAt (entryPa e1 + 8 * bits va 38 30)
    let e3 := s.entryAt (entryPa e2 + 8 * bits va 29 21)
    if entryV e1 && entryT e1 && entryV e2 && entryT e2 && entryV e3 && entryT e3 then some (entryPa e3) else none
  else none

/-- Address of the table entry of page k of a stream's KV window. -/
def State.kvEntry (s : State) (c sid k : Nat) : Option Nat :=
  let va := kvBase sid + 65536 * k
  (s.leafTable c va).map fun t => t + 8 * bits va 20 16

/-- A valid page of a KV window: its table entry's address and content. -/
def State.kvPage (s : State) (c sid k : Nat) : Option (Nat × Nat) :=
  match s.kvEntry c sid k with
  | some a =>
    let e := s.entryAt a
    if entryV e && !entryT e then some (a, e) else none
  | none => none

/-- Pages of a KV window. -/
def kvPages : Nat := 2 ^ 15

/-- Cached translations of one page of a context leave the partition's caches (R329).
(DEDUCED, log entry 44). -/
def State.uncachePage (s : State) (p i va : Nat) : State := s.uncache (s.partAt p).ropes fun e => e.covers i va

/-- Set or clear W of a page's table entry (R325). -/
def State.setW (s : State) (p i va a e : Nat) (w : Bool) : State :=
  let e' := setBits e 3 3 (if w then 1 else 0)
  { s with mem := Mem.putNat s.mem a 8 e' }.uncachePage p i va

/-- The entry that still maps physical page pa at page k of some window of a context gets W again. -/
def State.restoreW (s : State) (p i c k pa : Nat) : State :=
  match sids.find? fun sid =>
      match s.kvPage c sid k with
      | some (_, e) => decide (entryPa e = pa)
      | none => false with
  | some sid =>
    match s.kvPage c sid k with
    | some (a, e) => s.setW p i (kvBase sid + 65536 * k) a e true
    | none => s
  | none => s

/-- Release page k of a stream (R325, R329). -/
def State.releasePage (s : State) (p i c sid k : Nat) : State :=
  match s.kvPage c sid k with
  | some (a, e) =>
    let pa := entryPa e
    let n := s.pageCount pa - 1
    let s := ({ s with mem := Mem.putNat s.mem a 8 0 }.uncachePage p i (kvBase sid + 65536 * k)).setPageCount pa n
    if n = 0 then s.onPart p fun q => { q with reclaim := q.reclaim ++ [(c, sid, pa)] }
    else if n = 1 then s.restoreW p i c k pa
    else s
  | none => s

/-- Release every page of a stream to the reclaimer, and its state slices and penalty table to the next TURN (R329). -/
def State.releaseStream (s : State) (p i c sid : Nat) : State :=
  ((range 0 kvPages).foldl (fun s k => s.releasePage p i c sid k) s).onPart p fun q =>
    { q with reclaiming := q.reclaiming ++ [(c, sid)], zeroing := q.zeroing ++ [(c, sid)] }

/-! ## Entries of a stream -/

/-- E as a 64-bit position: E lies in Q to Q + 9 (R29). -/
def State.endPos (s : State) (c sid : Nat) : Nat := (nearest (s.st c sid stE) (s.st c sid stQ)).toNat

/-- Address of the speaking entry of a position (R29, R280). -/
def State.speakAt (s : State) (c sid pos : Nat) : Nat := s.st c sid stSpk + 64 * (pos % 16)

/-- Forget the retracted mark of a position. -/
def State.unretract (s : State) (c sid pos : Nat) : State :=
  { s with retracted := s.retracted.filter fun x => x ≠ (c, sid, pos) }

/-- Forget every retracted mark of a stream. -/
def State.unretractAll (s : State) (c sid : Nat) : State :=
  { s with retracted := s.retracted.filter fun x => !(decide (x.1 = c) && decide (x.2.1 = sid)) }

/-- The unreleased entries of a stream are cleared: E := Q, and the publish word where that changes E
(R29, R34, R38, R41).
(DEDUCED, log entry 45). -/
def State.clearEntries (s : State) (c sid : Nat) : State :=
  let s := s.unretractAll c sid
  if s.endPos c sid = s.st c sid stQ then s else s.publishWord c sid (s.st c sid stQ)

/-- The staged publications of a stream are dropped. -/
def Partition.dropSpeak (q : Partition) (sid : Nat) : Partition :=
  { q with speak := q.speak.filter fun e => entryNat e.bytes 8 2 ≠ sid }

/-! ## Cancels and resets (R38, R41, R175) -/

/-- The active streams whose ancestor is sid, nearest first. -/
def State.subtree (s : State) (c : Nat) : Nat → Nat → List Nat
  | 0, _ => []
  | fuel + 1, sid =>
    let kids := (s.actives c).filter fun x => s.st c x stParent = sid
    kids ++ kids.flatMap fun x => s.subtree c fuel x

/-- Remove one stream, with its event (R41). -/
def State.removeStream (s : State) (p i sid : Nat) (e : Event) : State :=
  let c := ((s.partAt p).res i).ctx
  let s := (s.clearEntries c sid).onPart p fun q => q.dropSpeak sid
  let s := (s.setSt c sid stState 2).event p c e sid (some ((s.st c sid stQ + 2 ^ 64 - 1) % 2 ^ 64)) none
  let s := s.onRes p i fun r => { r with resets := r.resets.filter (· ≠ sid) }
  s.releaseStream p i c sid

/-- Remove a stream and its subtree; only the named one has the event e. -/
def State.removeTree (s : State) (p i sid : Nat) (e : Event) : State :=
  let c := ((s.partAt p).res i).ctx
  (s.subtree c 512 sid).foldl (fun s x => s.removeStream p i x .streamCancelled) (s.removeStream p i sid e)

/-- SCANCEL at the commit (R41, R175).
(DEDUCED, log entry 39). -/
def State.cancelStream (s : State) (p i sid : Nat) (tree : Bool) : State :=
  let c := ((s.partAt p).res i).ctx
  let parent := s.st c sid stParent
  if tree ∨ parent = noSid then s.removeTree p i sid .streamCancelled
  else
    let s := (s.actives c).foldl (fun s x => if s.st c x stParent = sid then s.setSt c x stParent parent else s) s
    s.removeStream p i sid .streamCancelled

/-- Steps 1 to 3 of R38, and N := 0. The release side waits for the slot's end. -/
def State.resetStream (s : State) (p i sid : Nat) : State :=
  let c := ((s.partAt p).res i).ctx
  let kids := (s.actives c).filter fun x => s.st c x stParent = sid
  let s := kids.foldl (fun s x => s.removeTree p i x .streamCancelled) s
  let s := (s.clearEntries c sid).onPart p fun q => q.dropSpeak sid
  let s := (s.releaseStream p i c sid).setSt c sid stN 0
  s.onRes p i fun r => { r with resets := r.resets ++ [sid] }

/-! ## Forks (R40, R326) -/

/-- Page k of the parent is shared with the child (R325, R326).
(DEDUCED, log entry 44). -/
def State.sharePage (s : State) (p i c parent child k : Nat) : State :=
  match s.kvPage c parent k, s.kvEntry c child k with
  | some (a, e), some ca =>
    let pa := entryPa e
    let s := s.setW p i (kvBase parent + 65536 * k) a e false
    let s := { s with mem := Mem.putNat s.mem ca 8 (leafEntry pa false) }.uncachePage p i (kvBase child + 65536 * k)
    s.setPageCount pa (s.pageCount pa + 1)
  | _, _ => s

/-- The committed extent of a stream at position n (R326). -/
def State.extent (s : State) (c n : Nat) : Nat := n * s.kvb c * 64

/-- Physical address of a mapped page of a context, by virtual address. -/
def State.physOf (s : State) (c va : Nat) : Option Nat :=
  match s.walkTables c va with
  | .page big e => if pageOk big e then some (entryPa e + va % (if big then 2 ^ 21 else 2 ^ 16)) else none
  | _ => none

/-- Virtual address of page k of a stream's state slice in a physical half, as FLIP stands now (R317, R320). -/
def State.sliceVa (s : State) (c sid k : Nat) (half : Bool) : Nat :=
  let flip := decide (s.flipOf c = 1)
  0xFE0000000000 + (if half != flip then 2 ^ 38 else 0) + 65536 * (s.spg c * sid + k)

/-- Physical address of a stream's penalty table. -/
def State.penaltyAt (s : State) (c sid : Nat) : Nat := s.pen c + 4096 * sid

/-- A range of device memory as it stands, with its lines' marks. -/
def State.snapMem (s : State) (src n : Nat) : Snap :=
  { at_ := src, len := n
    cells := (s.mem.filter fun e => decide (src ≤ e.1) && decide (e.1 < src + n)).map fun e => (e.1 - src, e.2)
    marks := (s.memEcc.filter fun e => decide (src / 64 ≤ e.1) && decide (e.1 < (src + n) / 64)).map fun e => (e.1 - src / 64, e.2) }

/-- A range of device memory written from what was kept of another, with its poison. -/
def State.putSnap (s : State) (dst n : Nat) (x : Snap) : State :=
  let s := s.zeroMem dst n
  { s with mem := Mem.putCells s.mem (x.cells.map fun e => (dst + e.1, e.2))
           memEcc := x.marks.foldl (fun m e => SMap.set 0 m (dst / 64 + e.1) e.2) s.memEcc }

/-- What a child is to inherit at the next TURN, with its sources as they stand before the commit's own beat is written
(R326). -/
def State.forkSources (s : State) (c parent child ext : Nat) (half : Bool) : ForkTail :=
  { ctx := c, child := child, parent := parent, ext := ext, half := half,
    page := if ext % 65536 = 0 then none else (s.kvPage c parent (ext / 65536)).map fun x => s.snapMem (entryPa x.2) (ext % 65536),
    slices := (range 0 (s.spg c)).map fun i => (s.physOf c (s.sliceVa c parent i half)).map fun a => s.snapMem a 65536,
    pen := s.snapMem (s.penaltyAt c parent) 4096 }

/-- Create a child of a parent, with the key and channels of its id (R40, R124, R280). flip is the half that
was read during the step. -/
def State.createChild (s : State) (p i parent child : Nat) (flip : Bool) : State :=
  let c := ((s.partAt p).res i).ctx
  let r := (s.partAt p).res i
  let n := match r.atAnchor.find? fun a => a.sid = parent with
    | some a => a.n
    | none => s.st c parent stN
  let ext := s.extent c n
  let key := mix (BitVec.ofNat 64 (s.st c parent stKey)) (BitVec.ofNat 64 child)
  let src := s.forkSources c parent child ext flip
  let copy (s : State) (f : Nat × Nat) : State := s.setSt c child f (s.st c parent f)
  let s := (s.setSt c child stState 1).setSt c child stParent parent
  let s := [stRoot, stLlog, stLring, stLwp, stQ].foldl copy s
  let s := (s.setSt c child stKey key.toNat).setSt c child stE (s.st c parent stQ)
  let s := [stLate, stStarved, stSpkdrop].foldl (fun s f => s.setSt c child f 0) s
  let s := (range 0 (min kvPages (ext / 65536))).foldl (fun s k => s.sharePage p i c parent child k) s
  let s := { s with tails := s.tails ++ [src] }
  s.event p c .forkDone parent none (some child)

/-- The child's N, Q and RP once the pointers have moved, and its publish word (R40). -/
def State.settleChild (s : State) (c parent child : Nat) : State :=
  let copy (s : State) (f : Nat × Nat) : State := s.setSt c child f (s.st c parent f)
  ([stN, stQ, stRp, stSnap].foldl copy s).publishWord c child (s.st c parent stQ)

/-! ## Publication (R28, R29) -/

/-- A withdrawal from position x (R28). -/
def State.withdraw (s : State) (c sid x : Nat) : State :=
  let from_ := max x (s.st c sid stQ)
  let e := s.endPos c sid
  if from_ < e then
    { s.setSt c sid stE from_ with
      retracted := s.retracted ++ (range from_ (e - from_)).map fun n => (c, sid, n) }
  else s

/-- Write an entry at a position of a speaking ring, published by this step. -/
def State.putEntry (s : State) (p c sid pos : Nat) (bs : List Byte) : State :=
  let s := (s.putDev (s.speakAt c sid pos) bs).unretract c sid pos
  s.onPart p fun q => { q with step := { q.step with published := (sid, pos) :: q.step.published } }

/-- Publish one staged entry (R29). -/
def State.publish (s : State) (p c : Nat) (lag : Nat) (x : SpeakEntry) : State :=
  let sid := entryNat x.bytes 8 2
  let q := s.st c sid stQ
  let pos := nearest (entryPos x.bytes) q
  if x.poison ∨ pos < (q : Int) ∨ (q : Int) + 8 < pos then s.count c sid stSpkdrop 1
  else
    let pos := pos.toNat
    let frame := (s.partAt p).frame
    let e := s.endPos c sid
    let s := (range e (pos - e)).foldl (fun s n => s.putEntry p c sid n (s.fillEntry c n (2 ^ flFill) lag frame)) s
    let flags := if (entryFlags x.bytes).testBit flEnd then 2 ^ flEnd else 0
    let s := s.putEntry p c sid pos (makeEntry pos flags (entryNat x.bytes 6 1) lag frame (x.bytes.drop 16))
    if e ≤ pos then s.setSt c sid stE (pos + 1) else s

/-- A SPEAK slot stands before another in the order of R247. -/
def SpeakEntry.before (a b : SpeakEntry) : Bool := a.org.before b.org || (!b.org.before a.org && decide (a.slot < b.slot))

/-! ## The commit (R27) -/

/-- The streams that a commit removed, reset and created so far, with each child's parent. -/
structure CommitView where
  before : List Nat
  resets : List Nat
  born : List (Nat × Nat)

/-- A staged effect meets its stream: it acts, does nothing, or names no stream (R173). A child of this commit
is not yet active.
(DEDUCED, log entry 38). -/
def State.onStaged (s : State) (p i sid : Nat) (v : CommitView) (f : State → State) : State :=
  let c := ((s.partAt p).res i).ctx
  if s.active c sid && !(v.born.any fun b => b.1 = sid) then f s
  else if v.before.contains sid then s
  else s.event p c .noStream sid none none

/-- A stream's consumed entries at this commit: the skipped run, and the current entry if there is one (R26), from the
ring's bytes as they stand at the commit.
(DESIGN CHOICE, log entry 84). -/
def State.consumed (s : State) (c sid : Nat) (a : AnchorStream) : Nat × Option (List Byte × Bool) :=
  let (late, rest) := splitRun (s.listenEntry c sid) a.n (pendingSeq a.rp a.snap)
  (late, currentEntry (s.listenEntry c sid) a.n rest)

/-- Step 1: cancels in issue order. -/
def State.commitCancels (s : State) (p i : Nat) (v : CommitView) (ops : List Staged) : State :=
  ops.foldl (fun s x =>
    match x.op with
    | .cancel sid tree => s.onStaged p i sid v fun s => s.cancelStream p i sid tree
    | _ => s) s

/-- Step 2: resets of the surviving streams whose current entry carries a good RESET (R38). A stream that a STREAM_RESET
reset at this slot's TURN counts as reset by this commit.
(DEDUCED, log entry 85). -/
def State.commitResets (s : State) (p i : Nat) (v : CommitView) : State × CommitView :=
  let r := (s.partAt p).res i
  let c := r.ctx
  let v := { v with resets := v.before.filter r.resets.contains }
  r.atAnchor.foldl (fun (s, v) a =>
    if s.active c a.sid && !v.resets.contains a.sid then
      match s.consumed c a.sid a with
      | (late, some (bs, false)) =>
        if (entryFlags bs).testBit flReset then
          let s := s.resetStream p i a.sid
          ((s.count c a.sid stLate late).setSt c a.sid stRp (a.rp + late + 1), { v with resets := a.sid :: v.resets })
        else (s, v)
      | _ => (s, v)
    else (s, v)) (s, v)

/-- Step 3: forks in issue order (R40). -/
def State.commitForks (s : State) (p i : Nat) (v : CommitView) (ops : List Staged) : State × CommitView :=
  let c := ((s.partAt p).res i).ctx
  let flip := decide (s.flipOf c = 1)
  ops.foldl (fun (s, v) x =>
    match x.op with
    | .fork sid =>
      let gone := v.before.contains sid && !s.active c sid
      if gone || v.resets.contains sid then (s.event p c .forkDropped sid none none, v)
      else if s.active c sid && !(v.born.any fun b => b.1 = sid) then
        match sids.find? fun n => s.st c n stState = 3 with
        | some child => (s.createChild p i sid child flip, { v with born := v.born ++ [(child, sid)] })
        | none => (s.event p c .forkDropped sid none none, v)
      else (s.event p c .noStream sid none none, v)
    | _ => (s, v)) (s, v)

/-- Step 4: withdrawals in issue order. -/
def State.commitRetracts (s : State) (p i : Nat) (v : CommitView) (ops : List Staged) : State :=
  let c := ((s.partAt p).res i).ctx
  ops.foldl (fun s x =>
    match x.op with
    | .retract sid pos =>
      s.onStaged p i sid v fun s => if v.resets.contains sid then s else s.withdraw c sid pos
    | _ => s) s

/-- Step 5: the staged entries of each surviving stream, then its publish word, which also shows the
withdrawals (R27, R29). An entry for an id that names no active stream only sends NO-STREAM (R173, R247). e0 is E
before the commit. -/
def State.commitSpeaks (s : State) (p i : Nat) (v : CommitView) (e0 : Nat → Nat) : State :=
  let c := ((s.partAt p).res i).ctx
  let lag := ((s.partAt p).res i).lag
  let entries := sortBy SpeakEntry.before (s.partAt p).speak
  let sidOf (x : SpeakEntry) : Nat := entryNat x.bytes 8 2
  let s := (entries.filter fun x => !x.poison && !v.before.contains (sidOf x)).foldl (fun s x =>
    s.event p c .noStream (sidOf x) none none) s
  (v.before.filter fun sid => s.active c sid && !v.resets.contains sid).foldl (fun s sid =>
    let mine := entries.filter fun x => sidOf x = sid
    let n := (s.partAt p).step.published.length
    let s := mine.foldl (fun s x => s.publish p c lag x) s
    let e := s.st c sid stE
    if e ≠ e0 sid ∨ n < (s.partAt p).step.published.length then s.publishWord c sid e else s) s

/-- Step 6: pointer moves (R26, R27). -/
def State.commitPointers (s : State) (p i : Nat) (v : CommitView) : State :=
  let r := (s.partAt p).res i
  let c := r.ctx
  r.atAnchor.foldl (fun s a =>
    if s.active c a.sid && !v.resets.contains a.sid && !(v.born.any fun b => b.1 = a.sid) then
      let (late, cur) := s.consumed c a.sid a
      let s := (s.count c a.sid stLate late).setSt c a.sid stRp (a.rp + late + (if cur.isSome then 1 else 0))
      let s := if cur.isSome then s else s.count c a.sid stStarved 1
      s.setSt c a.sid stN (a.n + 1)
    else s) s

/-- The staged flip (R166, R324): FLIP inverts, and the context's state halves leave every cache. -/
def State.commitFlip (s : State) (p i : Nat) : State :=
  let c := ((s.partAt p).res i).ctx
  if (s.partAt p).flip then
    let w := s.ctxWord c 0
    (s.setCtxWord c 0 (setBits w 1 1 (1 - bits w 1 1))).uncache (s.partAt p).ropes fun e =>
      decide (e.idx = i) && inHalves e.va
  else s

/-- Queue an extra-step request of a context, or raise the one it has (R35). -/
def Partition.request (q : Partition) (c prio : Nat) : Partition :=
  if q.xqueue.any fun x => x.ctx = c then
    { q with xqueue := q.xqueue.map fun x => if x.ctx = c then { x with prio := max x.prio prio } else x }
  else { q with xqueue := q.xqueue ++ [{ ctx := c, prio := prio, frame := q.frame, seq := q.xseq }], xseq := q.xseq + 1 }

/-- Step 7: the request, and the lag of an extra or urgent step. -/
def State.commitEnd (s : State) (p i : Nat) : State :=
  let q := s.partAt p
  let s := match q.xstep with
    | some prio => s.onPart p fun q => q.request (q.res i).ctx prio
    | none => s
  if q.step.kind = .owned then s else s.setLag p i ((q.res i).lag - 1)

/-- The seven steps of R27. -/
def State.commit (s : State) (p i : Nat) : State :=
  let q := s.partAt p
  let c := (q.res i).ctx
  let ops := sortBy (fun (a b : Staged) => a.org.before b.org) q.stage
  let v : CommitView := { before := s.actives c, resets := [], born := [] }
  let e0 := fun sid => s.st c sid stE
  let s := s.commitCancels p i v ops
  let (s, v) := s.commitResets p i v
  let (s, v) := s.commitForks p i v ops
  let s := s.commitRetracts p i v ops
  let s := s.commitSpeaks p i v e0
  let s := s.commitPointers p i v
  let s := s.commitFlip p i
  let s := v.born.foldl (fun s b => s.settleChild c b.2 b.1) s
  s.commitEnd p i

/-- STEP_COMMIT: sixteen beats after the rendezvous an open step commits (R17, R27). -/
def execStepCommit (p : Nat) (s : State) : Out :=
  let q := s.partAt p
  if q.phase = .run ∧ q.step.outcome = .open_ ∧ q.rendezBeat + 16 ≤ q.topo then
    .next (((s.commit p q.step.resident).onPart p fun q =>
      { q with stage := [], speak := [], flip := false, xstep := none,
               step := { q.step with outcome := .committed, watching := false } }).countNull p)
  else .next s

end Sys2Proof.Machine
end

