-- ==== Sys2Proof/Machine/Image.lean ====
section
/-!
DEFINITION. Job images (R45, R283): the parse of the image in device memory, the checks that raise
BAD-IMAGE (R282), and the load into the code store (R276, R277).
-/

namespace Sys2Proof.Machine

/-- A field of an image at address a. -/
def State.img (s : State) (a off n : Nat) : Nat := Mem.nat s.mem (a + off) n

/-- A run of 32-bit words of device memory as a sparse map from index k on. -/
def wordsFrom (m : SMap Byte) (a : Nat) : Nat → SMap W32 → Nat → SMap W32
  | _, acc, 0 => acc
  | k, acc, n + 1 => wordsFrom m (a + 4) (k + 1) (SMap.set 0 acc k (BitVec.ofNat 32 (Mem.nat m a 4))) n

/-- A macro entry of a macro block at address a (R138, R283). -/
def State.macroAt (s : State) (a e : Nat) : MacroEntry :=
  { header := macroHeader (Mem.nat s.mem (a + 8 * e) 8), slots := wordsFrom s.mem (a + 512 + 128 * e) 0 [] 32 }

/-- The macro store that a block gives; offset 0 leaves every entry empty. -/
def State.macroBlock (s : State) (a off : Nat) : SMap MacroEntry :=
  if off = 0 then []
  else (range 0 64).foldl (fun m e => SMap.set { header := 0, slots := [] } m e (s.macroAt (a + off) e)) []

/-- The records of a preload list: address, bytes. -/
def State.preload (s : State) : Nat → Nat → List (Nat × List Byte)
  | 0, _ => []
  | fuel + 1, a =>
    let n := s.img a 4 4
    if n = 0 then [] else (s.img a 0 4, Mem.bytes s.mem (a + 8) n) :: s.preload fuel (a + 8 + n)

/-- The limit of a core's macro block and preload data, in bytes (R283). -/
def bindLimit : Nat := 24576

/-- A macro block's bytes. -/
def macroBytes : Nat := 8704

/-- One core record at address r of an image at a, and the bytes its macro block and preload count. A preload offset of 0 is
no preload, as a macro block offset of 0 is no macro block (R283).
(DESIGN CHOICE, log entry 108). -/
def State.coreJob (s : State) (a r : Nat) : CoreJob × Nat :=
  let flags := s.img r 2 1
  let words := s.img r 12 4
  let mac := s.img r 24 4
  let pre := s.img r 28 4
  let list := if pre = 0 then [] else s.preload (bindLimit + 1) (a + pre)
  ({ rope := s.img r 0 1, core := s.img r 1 1, gear0 := flags.testBit 0, erchk := flags.testBit 1,
     dom0 := BitVec.ofNat 12 (s.img r 4 2) &&& 0x707, code := wordsFrom s.mem (a + s.img r 8 4) 0 [] words, words := words,
     entryS := s.img r 16 2, entryV := s.img r 18 2, entryM := s.img r 20 2, entryC := s.img r 22 2,
     macros := s.macroBlock a mac, preload := list.flatMap fun x => cellsAt x.1 x.2 },
   (if mac = 0 then 0 else macroBytes) + (list.map (·.2.length)).sum)

/-- The magic of a job image. -/
def imageMagic : Nat := 0x44314A49

/-- The records cover the partition's cores exactly (R282). -/
def covers (ids : List (Nat × Nat)) (js : List CoreJob) : Bool :=
  decide (js.length = ids.length) && ids.all fun x => js.any fun j => decide (j.rope = x.1) && decide (j.core = x.2)

/-- The job image at address a, for partition p; none raises BAD-IMAGE.
(DEDUCED, log entry 48). -/
def State.parseImage (s : State) (p a : Nat) : Option JobImage :=
  let n := s.img a 8 4
  let ids := (s.partAt p).coreIds
  if s.img a 0 4 ≠ imageMagic ∨ n ≠ ids.length ∨ 1024 < s.img a 12 4 ∨ s.img a 4 4 = 0 then none
  else
    let js := (range 0 n).map fun i => s.coreJob a (a + s.img a 24 8 + 32 * i)
    if covers ids (js.map (·.1)) ∧ js.all (fun j => decide (j.2 ≤ bindLimit)) then
      some { rdz := s.img a 4 4,
             grants := (range 0 (s.img a 12 4)).map fun i => BitVec.ofNat 32 (s.img a (s.img a 16 8 + 4 * i) 4),
             cores := js.map (·.1) }
    else none

/-! ## Loading (R277) -/

/-- LOADED of a RESMAP register follows the resident. -/
def Partition.showLoaded (q : Partition) (i : Nat) : Partition :=
  let v := SMap.get 0 q.resmap i
  { q with resmap := SMap.set 0 q.resmap i (BitVec.ofNat 64 (setBits v.toNat 30 30 (if (q.res i).loaded then 1 else 0))) }

/-- A load of a resident's image starts; where it starts in the context's own TURN, the slot runs no step. -/
def State.startLoad (s : State) (p i : Nat) : State :=
  (s.onRes p i fun r => { r with loaded := false, loading := true }).onPart p fun q =>
    let q := q.showLoaded i
    if q.phase = .turn ∧ !q.step.bound ∧ q.plan.map (·.2) = some i then { q with step := { q.step with releases := false } } else q

/-- Write a core's code into the context's region (R276): as many of its words as the region has, and no others; region words
past the code keep what they held.
(DESIGN CHOICE, log entry 108). -/
def Core.loadCode (k : Core) (base len : Nat) (j : CoreJob) : Core :=
  let n := min len j.words
  { k with
    code := (range 0 n).foldl (fun m i => SMap.set 0 m (base + i) (SMap.get 0 j.code i)) k.code
    codeEcc := eccWrite k.codeEcc 8 (4 * base) (4 * n) }

/-- JOB_LOAD_COMPLETE: the image stands in its region and LOADED becomes 1 (R277). -/
def execJobLoadComplete (p i : Nat) (s : State) : Out :=
  let r := (s.partAt p).res i
  if r.loading then
    match s.parseImage p (s.desc r.ctx 8 8) with
    | some im =>
      let s := im.cores.foldl (fun s j => s.onCore j.rope j.core fun k => k.loadCode r.csbase r.cslen j) s
      .next ((s.onRes p i fun r => { r with loaded := true, loading := false, image := im }).onPart p fun q => q.showLoaded i)
    | none => .next s
  else .next s

end Sys2Proof.Machine
end

