-- ==== Sys2Proof/Machine/Grid.lean ====
section
/-!
DEFINITION. The slot grid (R15 to R20, R30 to R35): slot and frame starts, residency changes (R276, R277),
TURN and the anchor (R19, R43, R44), the mesh plan's check (R87), the deadline (R32), the release (R30) and
the watchdog (R296).
-/

namespace Sys2Proof.Machine

/-! ## Units -/

/-- Femtoseconds of a microsecond and of a nanosecond. -/
def fsUs : Nat := 1000000000
def fsNs : Nat := 1000000

/-- The first instant of a periodic event after the wall clock. -/
def nextDue (at_ period wall : Nat) : Nat := at_ + period * ((wall - at_) / period + 1)

/-- The deadline stands this long before the slot's end (R17). -/
def deadlineFs : Nat := 20 * fsUs

/-- Length of a frame in femtoseconds (R15). -/
def frameFs (rows : List SlotRow) : Nat := (rows.map fun r => r.us).sum * fsUs

/-! ## Residency (R276 to R278) -/

/-- Resident index i of a partition is valid. -/
def Partition.valid (q : Partition) (i : Nat) : Bool := mapValid (SMap.get 0 q.resmap i)

/-- Valid resident indexes. -/
def Partition.validIdx (q : Partition) : List Nat := mapIndexes.filter q.valid

/-- Write the queue mapper's copy of a resident's HEAD and TAIL, as one write (R278). -/
def State.writeHeadTail (s : State) (p i : Nat) : State :=
  let r := (s.partAt p).res i
  (s.setDesc r.ctx 32 4 r.tail).setDesc r.ctx 36 4 r.head

/-- The context at an index is switched out: its cache entries go, its walks are not completed, and an ACTIVATE whose
first step has not begun is kept for it (R277, R282, R321).
(DEDUCED, log entry 78). -/
def State.switchOut (s : State) (p i : Nat) : State :=
  let r := (s.partAt p).res i
  let s := ((s.writeHeadTail p i).setDesc r.ctx 4 1 r.lag).setDesc r.ctx 0 1 r.state.code
  let s := { s with walks := s.walks.filter fun w => !(decide (w.part = p) && decide (w.idx = i))
                    activated := if r.fresh then s.activated ++ [r.ctx] else s.activated }
  (s.uncache (s.partAt p).ropes fun e => e.idx = i).onPart p fun q => { q with residents := SMap.drop q.residents i }

/-- A context becomes resident at an index; its pending bit is cleared, and its image is loaded unless it is
INACTIVE (R277, R278). -/
def State.switchIn (s : State) (p i : Nat) (v : W64) : State :=
  let c := mapCtx v
  let r : Resident := { Resident.reset with
    ctx := c, csbase := mapBase v, cslen := mapLen v, state := ctxStateOf (s.desc c 0 1), lag := s.desc c 4 1,
    head := s.desc c 36 4, tail := s.desc c 32 4, fresh := s.activated.contains c }
  let s := { s with pend := SMap.set false s.pend c false, activated := s.activated.filter (· ≠ c) }
  let s := s.onPart p fun q => { q with residents := SMap.put q.residents i r }
  if r.state = .inactive then s else s.startLoad p i

/-- The RESMAP writes that waited for this frame start (R276). -/
def State.applyMap (s : State) (p : Nat) : State :=
  let new := (s.partAt p).resmapNew
  let changed := new.filter fun x => decide (x.2.toNat ≠ setBits (SMap.get 0 (s.partAt p).resmap x.1).toNat 30 30 0)
  let s := changed.foldl (fun s x => if (s.partAt p).valid x.1 then s.switchOut p x.1 else s) s
  let s := s.onPart p fun q =>
    { q with resmapNew := [], resmap := changed.foldl (fun m x => SMap.set 0 m x.1 x.2) q.resmap }
  changed.foldl (fun s x => if mapValid x.2 then s.switchIn p x.1 x.2 else s) s

/-! ## Extra-step requests (R35) -/

/-- Frames after which a queued request is stale. -/
def staleFrames : Nat := 64

/-- The more urgent request first, then the older. -/
def XReq.before (a b : XReq) : Bool := decide (b.prio < a.prio) || (decide (a.prio = b.prio) && decide (a.seq < b.seq))

/-- The resident whose request may be taken for a step: ACTIVE, LOADED and at lag 1 or more (R35, R297), with a step of an
owned slot since its last ACTIVATE, since an ACTIVATE's steps begin there (R282).
(DEDUCED, log entry 91). -/
def Partition.takes (q : Partition) (c : Nat) : Option Nat :=
  q.validIdx.find? fun i =>
    let r := q.res i
    decide (r.ctx = c) && decide (r.state = .active) && r.loaded && !r.fresh && decide (1 ≤ r.lag)

/-- Take the first request that may run; the ones before it are removed. -/
def Partition.takeRequest (q : Partition) : List XReq → Partition × Option Nat
  | [] => (q, none)
  | x :: xs =>
    let q := { q with xqueue := q.xqueue.filter fun y => y.ctx ≠ x.ctx }
    match q.takes x.ctx with
    | some i => (q, some i)
    | none => q.takeRequest xs

/-- A spare slot starts: stale requests go with their event, then a request is taken (R35). A request's age is counted
in the frame numbers of the grid that runs, also across a GRID_SET that numbers frames anew.
(DESIGN CHOICE, log entry 79). -/
def State.spareStart (s : State) (p : Nat) : State :=
  let q := s.partAt p
  let stale := q.xqueue.filter fun x => decide (x.frame + staleFrames ≤ q.frame)
  let s := stale.foldl (fun s x => s.event p x.ctx .xstepStale noSid none none) s
  s.onPart p fun q =>
    let q := { q with xqueue := q.xqueue.filter fun x => !decide (x.frame + staleFrames ≤ q.frame) }
    let (q, i) := q.takeRequest (sortBy XReq.before q.xqueue)
    { q with plan := i.map fun i => (StepKind.extra, i) }

/-! ## Step marks (R365, R366) -/

/-- A mark arrives within this time of the frame start, and is good within this offset; a correction moves a
frame start by at most this much (R366). -/
def markWindow : Nat := 10 * fsUs
def markOffset : Nat := 200 * fsNs
def markMove : Nat := 1 * fsUs

/-- Judge the frame's mark (R366). -/
def Partition.judge (q : Partition) (good : Bool) : Partition :=
  let bad := if good then 0 else q.badMarks + 1
  { q with marked := true, badMarks := bad, local_ := if good then false else q.local_ || decide (3 ≤ bad) }

/-- Own start of the present frame minus a mark's time in ns. -/
def Partition.offset (q : Partition) (time : Nat) : Int := (q.frameStart : Int) - (time * fsNs : Nat)

/-- Move the next frame start by an offset's negative, in the frame's last slot; once in a frame. -/
def Partition.correct (q : Partition) (e : Int) : Partition :=
  if q.measured then q
  else
    let d := max (-(markMove : Int)) (min (markMove : Int) (-e))
    if q.slots.length ≤ q.slot + 1 then { q with slotEnd := ((q.slotEnd : Int) + d).toNat, measured := true }
    else { q with shift := d, measured := true }

/-- The marks at a frame start: chip MARK takes the start itself; a mark that came before it is not good, but measures
the offset (R365, R366). mine: the frame starts are the partition's own marks. aligns: it waits for another chip's. -/
def Partition.frameMarks (q : Partition) (mine aligns : Bool) : Partition :=
  let q' := { q with marked := !aligns, measured := false, early := none }
  if mine then q'.judge true
  else
    match q.early with
    | some (n, t) => if aligns ∧ n = q.frame then (q'.correct (q'.offset t)).judge false else q'
    | none => q'

/-- The magic of a step mark, and its 64 bytes (R365). -/
def markMagic : Nat := 0x4B52414D
def markBytes (p gen frame time : Nat) : List Byte :=
  toLe 4 markMagic ++ toLe 1 p ++ toLe 1 gen ++ zeros 2 ++ toLe 8 frame ++ toLe 8 time ++ zeros 40

/-! ## Slot and frame starts (R15, R365) -/

/-- At a frame start of chip MARK, its step marks for the partition (R365). -/
def State.sendMarks (s : State) (p : Nat) : State :=
  if s.pod.mark = s.pod.chip then
    let q := s.partAt p
    (range 0 s.pod.podn).foldl (fun s d =>
      if d = s.pod.chip then s
      else { s with out := s.out ++ [.stepMark d (markBytes p s.fabric.gen q.frame (q.frameStart / fsNs))] }) s
  else s

/-- A partition waits for a mark of each frame when it aligns to another chip's (R366). -/
def State.aligns (s : State) (p : Nat) : Bool := s.pod.align.getLsbD p && decide (s.pod.mark ≠ s.pod.chip)

/-- A partition whose own frame starts are its marks. -/
def State.marksItself (s : State) (p : Nat) : Bool := s.pod.align.getLsbD p && decide (s.pod.mark = s.pod.chip)

/-- Slot k begins at the instant the slot before it ends. -/
def State.enterSlot (s : State) (p k : Nat) : State :=
  let q := s.partAt p
  let start := q.slotEnd
  let row := q.slots.getD k ⟨1000, none⟩
  let last := decide (q.slots.length ≤ k + 1)
  let end_ := ((start + row.us * fsUs : Nat) : Int) + if last then q.shift else 0
  let plan := match row.owner with
    | some i => if q.valid i then some (StepKind.owned, i) else none
    | none => none
  let q := { q with
    slot := k, slotStart := start, slotEnd := end_.toNat, phase := .lead, plan := plan, deadlined := false,
    released := false, skipped := false, shift := if last then 0 else q.shift }
  s.setPart p (if k = 0 then { q with frameStart := start }.frameMarks (s.marksItself p) (s.aligns p) else q)

/-- What the start of the present slot brings: a spare slot's request, the attestation's look, the step marks. -/
def State.slotDuties (s : State) (p : Nat) : State :=
  let q := s.partAt p
  let s := if (q.slots.getD q.slot ⟨1000, none⟩).owner.isNone then s.spareStart p else s
  let s := if q.slot = 0 ∧ p = 0 then { s with attestDue := true } else s
  if q.slot = 0 then s.sendMarks p else s

/-- Number of the first frame of a grid that starts at or after an instant (R15). -/
def firstFrame (epoch len at_ : Nat) : Nat := if at_ ≤ epoch then 0 else (at_ - epoch + len - 1) / len

/-- A frame starts: residency and grid changes take effect (R15, R276). The partition stands in its first slot, or in
the gap before a new grid's first frame. -/
def State.enterFrame (s : State) (p : Nat) : State :=
  let s := s.applyMap p
  let q := s.partAt p
  match q.newGrid with
  | some (epoch, rows) =>
    let len := frameFs rows
    let n := firstFrame (epoch * fsNs) len q.slotEnd
    let start := epoch * fsNs + n * len
    let q' := { q with epoch := epoch, slots := rows, frame := n, newGrid := none, slot := 0 }
    if start = q.slotEnd then (s.setPart p q').enterSlot p 0
    else s.setPart p { q' with phase := .gap, plan := none, slotStart := q.slotEnd, slotEnd := start }
  | none => (s.setPart p { q with frame := if q.phase = .gap then q.frame else q.frame + 1 }).enterSlot p 0

/-- The next slot of the grid, or the next frame, begins. -/
def State.enterNext (s : State) (p : Nat) : State :=
  let q := s.partAt p
  if q.phase = .gap ∨ q.slots.length ≤ q.slot + 1 then s.enterFrame p else s.enterSlot p (q.slot + 1)

/-- SLOT_START: the next slot, or the next frame, starts at the present slot's end (R15, R17). -/
def execSlotStart (p : Nat) (s : State) : Out :=
  let q := s.partAt p
  if q.running ∧ q.slotEnd ≤ s.wall then
    let s := s.enterNext p
    .next (if (s.partAt p).phase = .gap then s else s.slotDuties p)
  else .next s

/-! ## Abandonment (R32, R344) -/

/-- Keys numbered by others up to the abandoned slot's end that this member never issued: it withdraws them where they
do not run as null already, and counts them (R344, R368).
(DEDUCED, log entry 73). -/
def State.withdrawUnissued (s : State) (p : Nat) : State :=
  s.fabric.numbers.foldl (fun s e =>
    match s.group p e.key.group with
    | some g =>
      if g.members.head? = some (e.key.leaderChip, e.key.leaderPart)
          ∧ s.occurrence p e.key.group e.key.tag = e.key.occurrence then
        let s := s.countOccurrence p e.key.group e.key.tag
        if e.nullStatus = 0 then s.send s.fabric.seqChip (.withdrawal s.fabric.seqChip s.pod.chip e.key false) else s
      else s
    | none => s) s

/-- The step's collectives are withdrawn, with those numbered already and never issued here, and its staged effects
dropped. -/
def State.settle (s : State) (p : Nat) : State :=
  let q := s.partAt p
  let s := s.withdrawUnissued p
  let s := q.coreIds.foldl (fun s (r, c) =>
    ((s.coreAt r c).colls.filter fun x => x.due ≠ 0).foldl (fun s x =>
      let all := decide (x.shape.chunks ≤ x.next)
      let s := s.send s.fabric.seqChip (.withdrawal s.fabric.seqChip s.pod.chip x.key all)
      s.onCore r c fun k => { k with colls := k.colls.map fun y => if y.org = x.org then { y with dropped := !all, withdrawn := true } else y }) s) s
  s.onPart p fun q =>
    { q with stage := [], speak := [], flip := false, xstep := none, step := { q.step with settled := true } }

/-- A hold that an abandonment ends (R296, R307): a replay stops where it stands (R347), and what the held beat was
only to read is not read.
(DEDUCED, log entry 63). -/
def State.stopHold (s : State) (p : Nat) : State :=
  let q := s.partAt p
  if q.hold.isSome then
    let reads (l : Latch) : Bool :=
      match l.eff with
      | .load .dev .. => decide (l.act ≤ q.topo)
      | _ => false
    (q.coreIds.foldl (fun s (r, c) => s.onCore r c fun k =>
      { k with replay := [], latches := k.latches.filter fun l => !reads l }) s).closeHold p
  else s

/-- The running step is abandoned on the present instant. -/
def State.abandon (s : State) (p : Nat) : State :=
  let s := s.stopHold p
  (s.onPart p fun q => { q with step := { q.step with outcome := .abandoned, watching := false } }).settle p

/-- The slot's step has been bound and is open. -/
def Partition.stepOpen (q : Partition) : Bool :=
  decide (q.step.outcome = .open_) && (decide (q.phase = .run) || decide (q.phase = .turn) && q.step.bound)

/-- DEADLINE: twenty microseconds before the slot's end a step that has not begun its commit is abandoned, and
with an urgent step the step it pre-empted (R17, R32, R304, R307). -/
def execDeadline (p : Nat) (s : State) : Out :=
  let q := s.partAt p
  if q.running ∧ !q.deadlined ∧ q.slotEnd ≤ s.wall + deadlineFs then
    let s := s.setPart p { q with deadlined := true, frozen := q.frozen.map Frozen.abandon }
    .next (if q.stepOpen then s.abandon p else s.stopHold p)
  else .next s

/-! ## TURN (R19, R20) -/

/-- A copy as it goes over T: none when nothing of it may still perform.
(DEDUCED, log entry 46). -/
def Copy.overTurn (x : Copy) : Option Copy :=
  if x.started && decide (x.dstSpace = .dev) && decide (x.kind ≠ .speak) && !x.buf.isEmpty then
    some { x with nextSample := x.samples, cut := decide (x.nextSample < x.samples) }
  else none

/-- The copy loses a chunk at T. -/
def Copy.losesAtTurn (x : Copy) : Bool :=
  match x.overTurn with
  | some y => y.cut
  | none => !x.finished

/-- A collective whose result will not perform (R102). -/
def CollOp.lost (x : CollOp) : Bool := decide (x.due ≠ 0) && decide (x.status ≠ 4) && decide (x.status ≠ 5)

/-- A core at T: zeroed, but for its code store, its telemetry and the copies that go on (R19). What else was still to
perform, a scalar store or atomic to device memory among it, is dropped.
(DESIGN CHOICE, log entry 106). -/
def Core.turned (k : Core) (keep : Bool) : Core :=
  { Core.reset with code := k.code, codeEcc := k.codeEcc, tele := k.tele, low := k.low,
                    copies := if keep then k.copies.filterMap Copy.overTurn else [] }

/-- COPY-CUT n times for context c (R20). -/
def State.copyCuts (s : State) (p c n : Nat) : State :=
  (range 0 n).foldl (fun s _ => s.event p c .copyCut noSid none none) s

/-- The sources of a core's collectives not yet started, fully sampled, stay in the landing buffers, and what was withdrawn
of it before it was numbered stays known. -/
def State.holdColls (s : State) (p : Nat) (k : Core) : State :=
  let kept := k.colls.filter fun x => !x.started && (decide (x.shape.chunks ≤ x.next) || x.dropped)
  { s with fabric := { s.fabric with held := s.fabric.held ++ kept.map fun x => (p, x) } }

/-- Copies and collectives of one core are cut at T, with COPY-CUT once for each (R20, R102); the sources of
collectives not yet started stay in the landing buffers.
(DEDUCED, log entry 46). -/
def State.cutCore (s : State) (p c0 : Nat) (keep : Bool) (r c : Nat) : State :=
  let k := s.coreAt r c
  let n := if keep then (k.copies.filter Copy.losesAtTurn).length + (k.colls.filter CollOp.lost).length else 0
  ((s.copyCuts p c0 n).holdColls p k).setCoreAt r c (k.turned keep)

/-- The overlap-table ranges of the copies that go on over T. -/
def State.keptRanges (s : State) (p : Nat) : List OvEntry :=
  (s.partAt p).overlaps.filter fun e =>
    ((s.coreAt e.rope e.core).copies.any fun x => decide (x.table = (e.kind, e.place)) && decide (x.range = (e.lo, e.hi)))

/-- Residents whose commands the TURN of a slot applies: the step's own, and at slot 0 those that own no slot,
after it (R281).
(DEDUCED, log entry 42). -/
def Partition.turnTodo (q : Partition) : List Nat :=
  let own := match q.plan with
    | some (_, i) => [i]
    | none => []
  let others := q.validIdx.filter fun i => !own.contains i && !(q.slots.any fun r => r.owner = some i)
  if q.slot = 0 ∧ (q.plan.map fun x => decide (x.1 = .urgent)) ≠ some true then own ++ others else own

/-! ### Fork tails and the reclaimer (R326, R327, R329, R330) -/

/-- The child's inheritance in one TURN (R326); false when the page stack is empty. -/
def State.forkTail (s : State) (x : ForkTail) : State × Bool :=
  let k := x.ext / 65536
  let part := x.ext % 65536
  let s1 :=
    if part = 0 then some s
    else
      match s.popPage x.ctx with
      | none => none
      | some (pa, s) =>
        let s := match x.page with
          | some y => (s.zeroMem pa 65536).putSnap pa part y
          | none => s.zeroMem pa 65536
        match s.kvEntry x.ctx x.child k with
        | some a => some ({ s with mem := Mem.putNat s.mem a 8 (leafEntry pa true) }.setPageCount pa 1)
        | none => some s
  match s1 with
  | none => (s, false)
  | some s =>
    let now := decide (s.flipOf x.ctx = 1)
    let s := ((range 0 (s.spg x.ctx)).zip x.slices).foldl (fun s (i, y) =>
      match y, s.physOf x.ctx (s.sliceVa x.ctx x.child i now) with
      | some y, some b => s.putSnap b 65536 y
      | _, _ => s) s
    (s.putSnap (s.penaltyAt x.ctx x.child) 4096 x.pen, true)

/-- A context becomes FAULTED at its TURN, the page stack being empty (R327). Its trap record names the step that this
TURN would begin.
(DEDUCED, log entry 49). -/
def State.tailFault (s : State) (p i child ext : Nat) : State :=
  let q := s.partAt p
  let kind := match q.plan with
    | some (k, j) => if j = i then k else .owned
    | none => .owned
  let r0 := q.ropes.headD 0
  let f : FaultRec :=
    { cls := .translation, detail := BitVec.ofNat 64 (kvBase child + ext / 65536 * 65536), detail2 := 0, beat := q.topo,
      svc := false,
      org := { rope := r0, core := 0, track := .s, issue := q.topo, pc := 0xFFFFFFFF, mac := none, word := 0 } }
  let a := trapAddr (s.ctxbase.getD 0) p q.traps
  let s := s.onPart p fun q =>
    { q with traps := q.traps + 1,
             step := { q.step with kind := kind, resident := i, ctx := (q.res i).ctx, anchor := q.step.turnBeat + 2048 } }
  let s := (s.record p q.traps f).onPart p fun q' => { q' with step := q.step }
  (s.setState p i .faulted).event p ((s.partAt p).res i).ctx .faulted noSid none (some a)

/-- The fork tails of a resident, at its TURN. -/
def State.forkTails (s : State) (p i : Nat) : State :=
  let c := ((s.partAt p).res i).ctx
  let ts := s.tails.filter fun x => x.ctx = c
  let s := { s with tails := s.tails.filter fun x => x.ctx ≠ c }
  ts.foldl (fun s x =>
    if s.active c x.child then
      match s.forkTail x with
      | (s, true) => s
      | (s, false) => s.tailFault p i x.child x.ext
    else s) s

/-- Zero a released stream's state slices and penalty table (R329). -/
def State.zeroSlices (s : State) (c sid : Nat) : State :=
  let s := (range 0 (s.spg c)).foldl (fun s i =>
    [false, true].foldl (fun s h =>
      match s.physOf c (s.sliceVa c sid i h) with
      | some a => s.zeroMem a 65536
      | none => s) s) s
  s.zeroMem (s.penaltyAt c sid) 4096

/-- Zero one queued page and push it onto its context's stack (R329). -/
def State.reclaimPage (s : State) (c pa : Nat) : State :=
  let s := s.zeroMem pa 65536
  let n := s.depth c
  if n < 65536 then { s with mem := Mem.putNat s.mem (s.stackBase c + 8 * n) 8 pa }.setDepth c (n + 1)
  else s.setPageCount pa 0xFFFF

/-- The streams released before this TURN have their state slices and penalty tables zeroed (R329). -/
def State.zeroReleased (s : State) (p : Nat) : State :=
  ((s.partAt p).zeroing.foldl (fun s (c, sid) => s.zeroSlices c sid) s).onPart p fun q => { q with zeroing := [] }

/-- The reclaimer's work in a slot: every queued page; a removed stream is then free (R330, R280).
(DESIGN CHOICE, log entry 43). -/
def State.reclaimSlot (s : State) (p : Nat) : State :=
  let q := s.partAt p
  let s := q.reclaim.foldl (fun s (c, _, pa) => s.reclaimPage c pa) s
  let s := q.reclaiming.foldl (fun s (c, sid) =>
    if s.st c sid stState = 2 then s.setSt c sid stState (if s.st c sid stRoot = sid then 0 else 3) else s) s
  s.onPart p fun q => { q with reclaim := [], reclaiming := [] }

/-! ### The parts of TURN -/

/-- The first resident on the list meets its TURN.
(DESIGN CHOICE, log entry 43). -/
def State.startTodo (s : State) (p : Nat) : State :=
  match (s.partAt p).step.todo with
  | i :: _ => s.forkTails p i
  | [] => s

/-- Beat T: copies are cut and cores zeroed, when the slot runs a step or belongs to a context (R19). -/
def State.turnBegin (s : State) (p : Nat) : State :=
  let q := s.partAt p
  let keep := decide ((q.plan.map (·.1)) ≠ some StepKind.urgent)
  let s := if q.plan.isSome then
      let s := q.coreIds.foldl (fun s (r, c) => s.cutCore p q.step.ctx keep r c) s
      let ovs := if keep then s.keptRanges p else []
      s.onPart p fun q => { q with flits := [], overlaps := ovs, fault := none, stage := [], speak := [], flip := false, xstep := none }
    else s
  ((s.zeroReleased p).onPart p fun q =>
    { q with phase := .turn,
             step := { q.step with turnBeat := q.topo, todo := q.turnTodo, applied := 0, bound := false,
                                   releases := match q.plan with
                                     | some (_, i) => (q.res i).loaded
                                     | none => false } }).startTodo p

/-- The commands of the first resident on the list are applied: HEAD is written once (R281). -/
def State.turnNext (s : State) (p i : Nat) : State :=
  let s := if (s.partAt p).step.applied = 0 then s else s.writeHeadTail p i
  (s.onPart p fun q => { q with step := { q.step with todo := q.step.todo.drop 1, applied := 0 } }).startTodo p

/-- The listening write pointer of one stream goes to SNAP (R25). The addresses of a stream's rings and pointers are
physical, as the other addresses of the context's tables are.
(DESIGN CHOICE, log entry 81). -/
def State.snapStream (s : State) (p i sid : Nat) : State :=
  let c := ((s.partAt p).res i).ctx
  let snap := Mem.nat s.mem (s.st c sid stLwp) 4
  let size := 2 ^ s.st c sid stLlog
  let s := s.setSt c sid stSnap snap
  if size < (snap + 2 ^ 32 - s.st c sid stRp) % 2 ^ 32 then
    ((s.setSt c sid stRp ((snap + 2 ^ 32 - size) % 2 ^ 32)).onRes p i fun r => { r with overrun := r.overrun ++ [sid] }).event
      p c .listenOverrun sid none none
  else s

/-- SNAP of every active stream of a resident. -/
def State.snapAll (s : State) (p i : Nat) : State :=
  let c := ((s.partAt p).res i).ctx
  (s.actives c).foldl (fun s sid => s.snapStream p i sid) (s.onRes p i fun r => { r with overrun := [] })

/-- The listening entries below n, the N that an ACTIVATE gave, are consumed as LATE (R34): the run of them that stands
first, up to the first entry that does not lie below n.
(DESIGN CHOICE, log entry 80). -/
def State.catchUp (s : State) (c sid n : Nat) : State :=
  let (late, _) := splitRun (s.listenEntry c sid) n (pendingSeq (s.st c sid stRp) (s.st c sid stSnap))
  (s.count c sid stLate late).setSt c sid stRp (s.st c sid stRp + late)

/-- What an ACTIVATE leaves of R34 until SNAP is taken: the listening entries below the N that it gave, whatever the
commands after it did to N (R281).
(DEDUCED, log entry 45). -/
def State.restoreCtx (s : State) (p i : Nat) : State :=
  let r := (s.partAt p).res i
  (r.restore.foldl (fun s (sid, n) => if s.active r.ctx sid then s.catchUp r.ctx sid n else s) s).onRes p i fun r =>
    { r with restore := [] }

/-- A core with its job bound (R44, R283). -/
def Core.bindJob (k : Core) (j : CoreJob) : Core :=
  { k with low := j.gear0, tele := { k.tele with gears := k.tele.gears + if j.gear0 = k.low then 0 else 1 },
           dom := j.dom0.setWidth 64, erchk := j.erchk, macros := j.macros,
           spad := Mem.putCells k.spad (j.preload.filter fun x => x.1 < spadEnd),
           s := { k.s with pc := j.entryS }, v := { k.v with pc := j.entryV }, m := { k.m with pc := j.entryM },
           c := { k.c with pc := j.entryC } }

/-- The step of this TURN (R17, R19): its job bound. Its anchor is 2,048 beats after T. -/
def State.bindStep (s : State) (p i : Nat) (kind : StepKind) : State :=
  let q := s.partAt p
  let r := q.res i
  let s := r.image.cores.foldl (fun s j => s.onCore j.rope j.core fun k => k.bindJob j) s
  let s := if r.fresh ∧ kind = .owned then
      (s.event p r.ctx .active noSid none none).onRes p i fun r => { r with fresh := false }
    else s
  s.onPart p fun q =>
    { q with
      step := { q.step with
        serial := q.step.serial + 1, kind := kind, resident := i, ctx := r.ctx, prevCtx := q.step.ctx,
        anchor := q.step.turnBeat + 2048, rdz := r.image.rdz, outcome := if q.deadlined then .abandoned else .open_,
        watching := !q.deadlined, grants := r.image.grants, csbase := r.csbase, cslen := r.cslen, preempted := false,
        settled := q.deadlined, bound := true, published := [] } }

/-- TURN's last part: SNAP, R34, the binding of the job, the reclaimer (R19, R25, R330). -/
def State.turnBind (s : State) (p : Nat) : State :=
  let q := s.partAt p
  let restoring := q.validIdx.filter fun i => !(q.res i).restore.isEmpty && decide (q.plan.map (·.2) ≠ some i)
  let s : State := restoring.foldl (fun s i => (s.snapAll p i).restoreCtx p i) s
  let s : State := match q.plan with
    | some (kind, i) =>
      let s : State := (s.snapAll p i).restoreCtx p i
      let r := (s.partAt p).res i
      let s : State := s.onPart p fun q => { q with step := { q.step with releases := q.step.releases && decide (r.state ≠ .inactive) } }
      if q.step.releases ∧ r.state = .active then s.bindStep p i kind
      else s.onPart p fun q =>
        { q with phase := .over,
                 step := { q.step with kind := kind, resident := i, ctx := r.ctx, prevCtx := q.step.ctx, outcome := .none,
                                       bound := true, published := [] } }
    | none => s.onPart p fun q => { q with phase := .over, step := { q.step with bound := true } }
  s.reclaimSlot p

/-- TURN: on beat T the cut and the zeroing, then the commands, one resident after another, then the binding
(R19, R281). -/
def execTurn (p : Nat) (s : State) : Out :=
  let q := s.partAt p
  match q.phase with
  | .lead => if q.topo % 4 = 0 then .next (s.turnBegin p) else .next s
  | .turn =>
    if q.step.bound then .next s
    else
      match q.step.todo with
      | i :: _ => .next (s.turnNext p i)
      | [] => .next (s.turnBind p)
  | _ => .next s

/-! ## The anchor (R43, R44, R87, R289) -/

/-- A grant's fields (R87). -/
def grantColumn (g : W32) : Nat := bits g.toNat 23 17
def grantPortOf (g : W32) : Nat := bits g.toNat 16 16
def grantPeriod (g : W32) : Nat := 2 ^ bits g.toNat 15 14
def grantPhase (g : W32) : Nat := bits g.toNat 13 11
def grantRope (g : W32) : Nat := bits g.toNat 10 4
def grantCore (g : W32) : Nat := bits g.toNat 2 0

/-- Two grants of one column port overlap. -/
def grantsMeet (g h : W32) : Bool :=
  decide (grantColumn g = grantColumn h) && decide (grantPortOf g = grantPortOf h)
    && decide (grantPhase g % min (grantPeriod g) (grantPeriod h) = grantPhase h % min (grantPeriod g) (grantPeriod h))

/-- A grant is wrong by itself, in a partition with these ropes. -/
def grantBad (ropes : List Nat) (g : W32) : Bool :=
  decide (grantPeriod g ≤ grantPhase g) || !ropes.contains (grantColumn g) || !ropes.contains (grantRope g)
    || decide (bits g.toNat 31 24 ≠ 0) || decide (bits g.toNat 3 3 ≠ 0)

/-- The first offending grant of a plan.
(DEDUCED, log entry 34). -/
def firstBadGrant (ropes : List Nat) (gs : List W32) : Option W32 :=
  ((range 0 gs.length).find? fun i =>
    let g := gs.getD i 0
    grantBad ropes g || (range 0 gs.length).any fun j => decide (j ≠ i) && grantsMeet g (gs.getD j 0)).map fun i => gs.getD i 0

/-- The core that a plan's fault is attributed to.
(DEDUCED, log entry 34). -/
def planCore (ropes : List Nat) (g : W32) : Nat × Nat :=
  if ropes.contains (grantRope g) then (grantRope g, grantCore g)
  else if ropes.contains (grantColumn g) then (grantColumn g, 0)
  else (ropes.foldl min (ropes.headD 0), 0)

/-- The mesh plan is checked, on the anchor beat. -/
def State.checkPlan (s : State) (p : Nat) : State :=
  let q := s.partAt p
  match firstBadGrant q.ropes q.step.grants with
  | none => s
  | some g =>
    let (r, c) := planCore q.ropes g
    let pc := (s.coreAt r c).s.pc
    let o : Origin := { rope := r, core := c, track := .s, issue := q.topo, pc := pc, mac := none,
                        word := ((s.coreAt r c).source q pc).getD 0 }
    s.raiseAt p .columnConflict o (grantPort (grantColumn g) (grantPortOf g)) 0

/-- What is left of the previous step's copies is dropped at the end of TURN (R20). -/
def State.dropLeftovers (s : State) (p : Nat) : State :=
  let q := s.partAt p
  q.coreIds.foldl (fun s (r, c) =>
    let k := s.coreAt r c
    let s := s.copyCuts p q.step.prevCtx (k.copies.filter fun x => !x.cut).length
    s.onCore r c fun k => { k with copies := [] }) s

/-- A track at its first word. -/
def Track.start (t : Track) : Track := { t with wait := 0, live := true, fresh := false, done := false }

/-- The anchor beat begins: the step's tracks stand at their first words. -/
def State.anchor (s : State) (p : Nat) : State :=
  let s := s.dropLeftovers p
  let q := s.partAt p
  let i := q.step.resident
  let c := (q.res i).ctx
  let s := q.coreIds.foldl (fun s (r, c) =>
    s.onCore r c fun k => { k with status := 0, s := k.s.start, v := k.v.start, m := k.m.start, c := k.c.start }) s
  let at_ := (s.actives c).map fun sid =>
    { sid := sid, n := s.st c sid stN, q := s.st c sid stQ, rp := s.st c sid stRp, snap := s.st c sid stSnap,
      key := BitVec.ofNat 64 (s.st c sid stKey) : AnchorStream }
  let s := s.onRes p i fun r => { r with atAnchor := at_, lagAtAnchor := r.lag }
  let s := s.onPart p fun q => { q with phase := .run, overlaps := [], counts := .zero, strtFs := 0 }
  s.checkPlan p

/-! ## RELEASE (R30, R38, R294) -/

/-- The slot that a frozen step stood in has passed. -/
def Partition.slotGone (q : Partition) (f : Frozen) : Bool := decide (f.at_ ≠ (q.frame, q.slot))

/-- The step that the slot's release judges: the pre-empted one of this slot while an urgent step, or a halt, still
stands in its place. -/
def Partition.slotStep (q : Partition) : Step × Option (StepKind × Nat) :=
  match q.frozen.getLast? with
  | some f => if q.slotGone f then (q.step, q.plan) else (f.step, f.plan)
  | none => (q.step, q.plan)

/-- The step of the present slot has been bound at a TURN, or its slot was found to run none. -/
def Partition.slotBegun (q : Partition) : Bool :=
  decide (q.phase ≠ .lead) && q.slotStep.1.bound || q.frozen.any fun f => !q.slotGone f && f.step.bound

/-- The flags that R30 adds, and whether the valid entry at Q is taken. -/
def releaseFlags (state : CtxState) (committed valid published retracted : Bool) : Nat × Bool :=
  match state with
  | .parked => (2 ^ flFill + 2 ^ flParked, false)
  | .faulted => (2 ^ flFill, false)
  | _ =>
    let miss := if committed then 0 else 2 ^ flMiss
    if valid then ((if committed && published then 0 else 2 ^ flLookahead) + miss, true)
    else (2 ^ flFill + (if retracted then 2 ^ flRetracted else 0) + miss, false)

/-- Send a released entry and write it into the played record (R30, R36). -/
def State.play (s : State) (c sid q : Nat) (bs : List Byte) : State :=
  let s := s.putDev (s.st c sid stPlay + 64 * (q % 16)) bs
  { s with out := s.out ++ [.release c sid bs] }

/-- The SKIPPED flag of a stream's next release (R306). -/
def State.takeSkipped (s : State) (c sid : Nat) : State × Nat :=
  if s.skipped.contains (c, sid) then ({ s with skipped := s.skipped.filter (· ≠ (c, sid)) }, 2 ^ flSkipped) else (s, 0)

/-- Release one stream's entry at Q (R30). A stream that is reset releases FILL and RESET, and no other flag of its slot but
SKIPPED (R38, R306).
(DEDUCED, log entry 93). -/
def State.releaseOne (s : State) (p i sid : Nat) (committed : Bool) (st : Step) : State :=
  let r := (s.partAt p).res i
  let c := r.ctx
  let frame := (s.partAt p).frame
  let (s, skip) := s.takeSkipped c sid
  let q := s.st c sid stQ
  if r.resets.contains sid then
    s.play c sid q (s.fillEntry c q (2 ^ flFill + 2 ^ flReset + skip) r.lag frame)
  else
    let valid := decide (q < s.endPos c sid)
    let (add, take) := releaseFlags r.state committed valid (st.published.contains (sid, q)) (s.retracted.contains (c, sid, q))
    let bs :=
      if take then
        let e := Mem.bytes s.mem (s.speakAt c sid q) 64
        reflag e (entryFlags e ||| (add + skip))
      else s.fillEntry c q (add + skip) r.lag frame
    let s := ((s.play c sid q bs).setSt c sid stQ (q + 1)).unretract c sid q
    if valid then s else s.publishWord c sid (q + 1)

/-- The release side of a reset: Q := lag, E := lag, and the publish word (R38).
(DEDUCED, log entry 37; DEDUCED, log entry 47). -/
def State.finishResets (s : State) (p i : Nat) : State :=
  let r := (s.partAt p).res i
  let s := (r.resets.filter (s.active r.ctx)).foldl (fun s sid => (s.setSt r.ctx sid stQ r.lag).publishWord r.ctx sid r.lag) s
  s.onRes p i fun r => { r with resets := [] }

/-- A resident becomes FAULTED, with its event (R294). -/
def State.faultRes (s : State) (p i : Nat) : State :=
  let a := trapAddr (s.ctxbase.getD 0) p ((s.partAt p).traps - 1)
  (s.setState p i .faulted).event p ((s.partAt p).res i).ctx .faulted noSid none (some a)

/-- The lag of an abandoned owned step rises, and may park the context (R32, R34, R294). -/
def State.missed (s : State) (p i : Nat) (faulted : Bool) : State :=
  let n := ((s.partAt p).res i).lag + 1
  let s := s.setLag p i (min 8 n)
  if 8 ≤ n ∧ !faulted then (s.setState p i .parked).event p ((s.partAt p).res i).ctx .parked noSid none none else s

/-- An owned slot's releases and its context's lag (R30, R32, R34). A slot whose TURN never came, as the counter stood
from its start on, ran a step that was abandoned where its context is ACTIVE (R18, R32). -/
def State.releaseSlot (s : State) (p i : Nat) (st : Step) (begun svc : Bool) : State :=
  let r := (s.partAt p).res i
  let releases := if begun then st.releases else r.loaded && decide (r.state ≠ .inactive)
  if releases then
    let outcome := if begun then st.outcome else if r.state = .active then .abandoned else .none
    let committed := decide (outcome = .committed)
    let st := if begun then st else { st with published := [] }
    let s : State := (s.actives r.ctx).foldl (fun s sid => s.releaseOne p i sid committed st) s
    if outcome ≠ .none ∧ !committed then s.missed p i (decide (outcome = .faulted) || svc) else s
  else s

/-! ## The end of an urgent step (R294, R304, R307) -/

/-- The partition runs an urgent step that has committed or was abandoned, and whose end is still to come. -/
def Partition.urgentOver (q : Partition) : Bool :=
  match q.frozen with
  | f :: _ =>
    decide (f.cause = .urgent) && !q.slotGone f && decide (q.phase = .run ∨ q.phase = .turn) && q.step.bound
      && decide (q.step.outcome ≠ .open_)
  | [] => false

/-- A core's copies and collectives that may still perform: a copy that started, a collective whose due beat is to come. -/
def Core.carries (k : Core) : Bool :=
  k.copies.any (fun x => x.started && !x.finished) || k.colls.any fun x => decide (x.due ≠ 0)

/-- Engine writes that an urgent step started and that the counter still has to reach: registers, rows, memory, accumulators
and flits, and until the deadline copies and collectives.
(DESIGN CHOICE, log entry 104). -/
def State.urgentWaits (s : State) (p : Nat) : Bool :=
  let q := s.partAt p
  !q.flits.isEmpty || q.coreIds.any fun (r, c) =>
    let k := s.coreAt r c
    !k.latches.isEmpty || !k.accops.isEmpty || !k.sends.isEmpty || !k.recvs.isEmpty || !q.deadlined && k.carries

/-- An urgent step has committed with copies that have not performed. -/
def State.urgentCopies (s : State) (p : Nat) : Bool :=
  let q := s.partAt p
  decide (q.step.outcome = .committed) && q.coreIds.any fun (r, c) => !(s.coreAt r c).copies.isEmpty

/-- The copies of a core are dropped, with COPY-CUT once for each that has not finished (R304). -/
def State.cutCopies (s : State) (p r c : Nat) : State :=
  (s.copyCuts p (s.partAt p).step.ctx ((s.coreAt r c).copies.filter fun x => !x.finished).length).onCore r c fun k =>
    { k with copies := [] }

/-- After an urgent step's commit the chunks of its copies that have not performed are discarded (R304). -/
def State.urgentCut (s : State) (p : Nat) : State :=
  (s.partAt p).coreIds.foldl (fun s (r, c) => s.cutCopies p r c) s

/-- The end of an urgent step: what is left of its copies and collectives is cut, its context takes its fault
(R294, R304, R307).
(DESIGN CHOICE, log entry 104). -/
def State.urgentEnd (s : State) (p : Nat) : State :=
  let q := s.partAt p
  let i := q.step.resident
  let s := q.coreIds.foldl (fun s (r, c) =>
    let k := s.coreAt r c
    (((s.cutCopies p r c).copyCuts p q.step.ctx (k.colls.filter CollOp.lost).length).holdColls p k).onCore r c fun k =>
      { k with latches := [], accops := [], sends := [], recvs := [], colls := [] }) s
  let s := if q.step.outcome = .faulted ∧ !q.svcFault then s.faultRes p i else s
  let s := s.finishResets p i
  s.onPart p fun q => { q with phase := .over, flits := [], overlaps := [], fault := none }

/-- What a slot's faults leave at its end, where firmware entered for a fault is stopped, and no other (R290, R294). -/
def State.settleFaults (s : State) (p : Nat) : State :=
  let q := s.partAt p
  let (st, plan) := q.slotStep
  let s : State := match plan with
    | some (_, i) => if q.slotBegun ∧ st.outcome = .faulted ∧ !q.svcFault then s.faultRes p i else s
    | none => s
  let s : State := if q.svcFault then q.validIdx.foldl (fun s i => s.faultRes p i) s else s
  (s.quietFor p 2).onPart p fun q => { q with fault := none, svcFault := false }

/-- The slot's end: each active stream of the owner releases one entry and lag rises after a miss, unless the slot is
skipped; then what the slot's faults and resets leave is settled (R30, R32, R34, R38, R294, R306). -/
def State.release (s : State) (p : Nat) : State :=
  let s := if (s.partAt p).urgentOver then s.urgentEnd p else s
  let q := s.partAt p
  let (st, plan) := q.slotStep
  let s : State := s.onPart p fun q => { q with released := true }
  let s : State :=
    if q.skipped then s.settleFaults p
    else
      let s : State := match plan with
        | some (.owned, i) => s.releaseSlot p i st q.slotBegun q.svcFault
        | _ => s
      let s : State :=
        if q.slotBegun ∧ plan.isSome ∧ st.outcome ≠ .committed ∧ st.outcome ≠ .none then s.withdrawUnissued p else s
      let s : State := s.settleFaults p
      q.validIdx.foldl (fun s i => s.finishResets p i) s
  s.onPart p fun q => { q with phase := if q.phase = .lead then .lead else .over }

/-- RELEASE. -/
def execRelease (p : Nat) (s : State) : Out :=
  let q := s.partAt p
  if q.running ∧ q.slotEnd ≤ s.wall ∧ !q.released ∧ q.phase ≠ .gap then .next (s.release p) else .next s

/-! ## The watchdog (R295, R296) -/

/-- Topo beats since the anchor plus the beats held. -/
def State.watchCount (s : State) (p : Nat) : Nat :=
  let q := s.partAt p
  let held := match q.hold with
    | some h => periodsUp (s.wall - h.since)
    | none => 0
  q.topo - q.step.anchor + q.counts.holdt + held

/-- The watchdog's limit. -/
def Partition.watchLimit (q : Partition) : Nat := q.step.rdz + 16 + 2 ^ 24

/-- WATCHDOG: the count has reached its limit: the fault is raised for no word, and a hold ends (R296). -/
def execWatchdog (p : Nat) (s : State) : Out :=
  let q := s.partAt p
  if q.phase = .run ∧ q.step.watching ∧ q.step.outcome = .open_ ∧ q.watchLimit ≤ s.watchCount p then
    let f : FaultRec :=
      { cls := .watchdog, detail := BitVec.ofNat 64 (s.watchCount p), detail2 := 0, beat := q.topo, svc := false,
        org := { rope := q.ropes.foldl min (q.ropes.headD 0), core := 0, track := .s, issue := q.topo, pc := 0xFFFFFFFF, mac := none,
                 word := 0 } }
    .next ((s.stopHold p).abandonBy p q.traps f)
  else .next s

end Sys2Proof.Machine
end

