-- ==== Sys2Proof/Machine/Host.lean ====
section
/-!
DEFINITION. What a host does (R271, R273, R274, R276, R279, R281, R282): register-window and memory writes of
the peers that the host table names, and the commands of a context's ring, each applied at a TURN.
-/

namespace Sys2Proof.Machine

/-! ## Packets (R271, R273, R285) -/

/-- A packet of a delivery mode and an operation that the ports support (R285). -/
def carried (k : Packet) : Bool := (k.mode == .rod || k.mode == .rud) && k.aiBase

/-- The device takes a packet: it is of a supported mode and operation, and the host table names its peer (R271). -/
def State.takes (s : State) (k : Packet) : Bool := carried k && s.hosts.contains k.peer

/-- A packet that the device discards is counted in the receiving port's counter (R271, R285). -/
def State.discard (s : State) (k : Packet) : State :=
  { s with discards := SMap.set 0 s.discards k.port (SMap.get 0 s.discards k.port + 1) }

/-- A host access acts when the device takes its packet; else the packet is discarded and counted.
(DESIGN CHOICE, log entry 55). -/
def fromHost (k : Packet) (f : State → State) (s : State) : Out := .next (if s.takes k then f s else s.discard k)

/-- The EVCONS half of a notify (R279). -/
def State.notifyCons (s : State) (c v : Nat) : State :=
  if serial32 v (s.desc c 64 4) < 0 then s else s.setDesc c 64 4 v

/-- A TAIL that a notify may set (R279). -/
def tailOk (head tail clog v : Nat) : Bool :=
  decide (0 ≤ serial32 v tail) && decide ((v + 2 ^ 32 - head % 2 ^ 32) % 2 ^ 32 ≤ 2 ^ clog)

/-- The TAIL half of a notify, for a context resident or not. -/
def State.notifyTail (s : State) (c v : Nat) : State :=
  match s.resOf c with
  | some (p, i) =>
    let r := (s.partAt p).res i
    if tailOk r.head r.tail (s.desc c 24 1) v then (s.onRes p i fun r => { r with tail := v }).setDesc c 32 4 v
    else s.event p c .cmdOverrun noSid none none
  | none =>
    let s := { s with pend := SMap.set false s.pend c true }
    if tailOk (s.desc c 36 4) (s.desc c 32 4) (s.desc c 24 1) v then s.setDesc c 32 4 v
    else s.event 0 c .cmdOverrun noSid none none

/-- NOTIFY_WRITE: a write of context c's notify register (R279). -/
def execNotifyWrite (pkt : Packet) (c : Nat) (v : W64) (s : State) : Out :=
  fromHost pkt (fun s =>
    if c < contexts then (s.notifyCons c (bits v.toNat 63 32)).notifyTail c (bits v.toNat 31 0) else s) s

/-- SYSTEM_REGISTER_WRITE: a write of a system register through the window (R273, R274). -/
def execSystemRegisterWrite (pkt : Packet) (p n : Nat) (v : W64) (s : State) : Out :=
  fromHost pkt (fun s => if p < s.nparts then s.writeSys p n v else s) s

/-- RESMAP_WRITE: a write of RESMAPi through the window (R276). -/
def execResmapWrite (pkt : Packet) (p i : Nat) (v : W64) (s : State) : Out :=
  fromHost pkt (fun s => if p < s.nparts ∧ i < 32 then s.writeSys p (0x20 + i) v else s) s

/-- HOST_WRITE: a write into device memory by physical address (R101, R271); bytes past its end write
nothing (R317). Fields that are read only ignore it (R5, R318). -/
def execHostWrite (pkt : Packet) (addr : Nat) (bs : List Byte) (s : State) : Out :=
  fromHost pkt (fun s => s.putOutside addr (bs.take (physEnd - addr))) s

/-! ## The register window and reads (R271, R273, R274, R279) -/

/-- A register of the window. -/
inductive WinReg where
  | notify (c : Nat)
  | system (p n : Nat)
deriving DecidableEq, Repr

/-- The register that an access names: aligned, and 8 bytes (R273). -/
def winReg (off size : Nat) : Option WinReg :=
  if off % 8 ≠ 0 ∨ size ≠ 8 then none
  else if off < 8 * contexts then some (.notify (off / 8))
  else if 0x10000 ≤ off ∧ off < 0x14000 then some (.system ((off - 0x10000) / 0x800) ((off - 0x10000) % 0x800 / 8))
  else none

/-- The row of the opcode table that a window write is: none for an access that names no register. -/
noncomputable def windowRow (pkt : Packet) (off : Nat) (bs : List Byte) : Option Instr :=
  let v := BitVec.ofNat 64 (leNat bs)
  match winReg off bs.length with
  | some (.notify c) => some (.notifyWrite pkt c v)
  | some (.system p n) =>
    if 0x20 ≤ n ∧ n < 0x40 then some (.resmapWrite pkt p (n - 0x20) v) else some (.systemRegisterWrite pkt p n v)
  | none => none

/-- A notify register: TAIL and HEAD, read together (R279). -/
def State.notifyWord (s : State) (c : Nat) : Nat := s.desc c 32 4 + 2 ^ 32 * s.desc c 36 4

/-- What a read of the window returns: zero where it names no register of the device (R273). -/
def State.windowValue (s : State) (off size : Nat) : List Byte :=
  match winReg off size with
  | some (.notify c) => toLe 8 (s.notifyWord c)
  | some (.system p n) => if p < s.nparts then toLe 8 (s.sysReg p n).toNat else zeros 8
  | none => zeros size

/-- What a read of device memory returns: a byte of a poisoned line, or past the end of memory, is open.
(DESIGN CHOICE, log entry 83). -/
def State.memoryValue (s : State) (a n : Nat) : List Byte :=
  (range a n).map fun x =>
    if x < physEnd ∧ SMap.get 0 s.memEcc (x / 64) ≠ 2 then Mem.byte s.mem x else Config.freeByte s.free x

/-- A host's read is answered (R271, R279). -/
def State.answer (s : State) (k : Packet) (bs : List Byte) : State :=
  if s.takes k then { s with out := s.out ++ [.readData k bs], free := s.free + 1 } else s.discard k

/-! ## Commands (R281, R282) -/

/-- A command of context c's ring is consumed, and acts where the context is resident. -/
def command (c : Nat) (f : Nat → Nat → State → State) (s : State) : Out :=
  match s.resOf c with
  | some (p, i) =>
    let s := s.onRes p i fun r => { r with head := (r.head + 1) % 2 ^ 32 }
    .next (f p i (s.onPart p fun q => { q with step := { q.step with applied := q.step.applied + 1 } }))
  | none => .next s

/-- BAD-COMMAND (R282). -/
def State.badCommand (s : State) (p i : Nat) : State := s.event p ((s.partAt p).res i).ctx .badCommand noSid none none

/-- A command about an active stream; for another id there is nothing to act on.
(DEDUCED, log entry 38). -/
def onStream (c sid : Nat) (f : Nat → Nat → State → State) (s : State) : Out :=
  command c (fun p i s =>
    if 511 < sid then s.badCommand p i
    else if s.active c sid then f p i s
    else s.event p c .noStream sid none none) s

/-- The position of every active stream of a resident meets its release position, and the lag is 0 (R23, R34). -/
def State.meetRelease (s : State) (p i : Nat) : State :=
  let c := ((s.partAt p).res i).ctx
  ((s.actives c).foldl (fun s sid => s.setSt c sid stN (s.st c sid stQ)) s).setLag p i 0

/-- ACTIVATE (R282, R283), with the actions of R34 at once but for the listening entries, which wait for SNAP. A context
that was INACTIVE moves N to Q as well, so that R23 holds at lag 0.
(DEDUCED, log entry 45). -/
def execActivate (c image : Nat) (s : State) : Out :=
  command c (fun p i s =>
    let a := if image = 0 then s.desc c 8 8 else image
    match s.parseImage p a with
    | none => s.event p c .badImage noSid none none
    | some _ =>
      let s := s.setDesc c 8 8 a
      let s := match ((s.partAt p).res i).state with
        | .inactive => (s.setState p i .active).meetRelease p i
        | .active => s
        | _ =>
          let s := (s.setState p i .active).meetRelease p i
          ((s.actives c).foldl (fun (s : State) sid => s.clearEntries c sid) s).onRes p i fun r =>
            { r with restore := (s.actives c).map fun sid => (sid, s.st c sid stN) }
      (s.onRes p i fun r => { r with fresh := true }).startLoad p i) s

/-- DEACTIVATE (R282). -/
def execDeactivate (c : Nat) (s : State) : Out :=
  command c (fun p i s => (s.actives c).foldl (fun s sid => s.clearEntries c sid) (s.setState p i .inactive)) s

/-- The channels that STREAM_ADD records. -/
def State.setChannels (s : State) (c sid llog lring lwp spk play : Nat) : State :=
  [(stLlog, llog), (stLring, lring), (stLwp, lwp), (stSpk, spk), (stPlay, play)].foldl (fun s x => s.setSt c sid x.1 x.2) s

/-- STREAM_ADD (R282, R280). A stream starts with no key and its counters at zero.
(DEDUCED, log entry 39). -/
def execStreamAdd (c sid llog : Nat) (prep : Bool) (lring lwp spk play : Nat) (s : State) : Out :=
  command c (fun p i s =>
    if 511 < sid then s.badCommand p i
    else if s.st c sid stState = 1 ∨ s.st c sid stState = 2 then s.badCommand p i
    else
      let s := s.setChannels c sid llog lring lwp spk play
      if prep then s.setSt c sid stState 3
      else
        let lag := ((s.partAt p).res i).lag
        let s := [(stState, 1), (stParent, noSid), (stRoot, sid), (stN, 0), (stQ, lag), (stRp, 0), (stSnap, 0), (stLate, 0),
                  (stStarved, 0), (stSpkdrop, 0), (stKey, 0)].foldl (fun s x => s.setSt c sid x.1 x.2) s
        (s.publishWord c sid lag).onRes p i fun r => { r with restore := r.restore.filter fun x => x.1 ≠ sid }) s

/-- STREAM_RESET: R38 at this TURN. -/
def execStreamReset (c sid : Nat) (s : State) : Out := onStream c sid (fun p i s => s.resetStream p i sid) s

/-- STREAM_END removes a stream and its subtree (R41). -/
def execStreamEnd (c sid : Nat) (s : State) : Out := onStream c sid (fun p i s => s.removeTree p i sid .streamEnded) s

/-- GRIDOK of a context's FLAGS (R278). -/
def State.gridOk (s : State) (c : Nat) : Bool := (s.desc c 3 1).testBit 1

/-- A slot table entry (R282). -/
def slotRow (e : Nat) : SlotRow := { us := bits e 16 0, owner := if e.testBit 31 then none else some (bits e 28 24) }

/-- GRID_SET: a new epoch and slot table from the grid's next frame start on (R15). -/
def execGridSet (c epoch table count : Nat) (s : State) : Out :=
  command c (fun p i s =>
    let rows := (range 0 (min count 64)).map fun k => slotRow (Mem.nat s.mem (table + 4 * k) 4)
    if s.gridOk c ∧ 1 ≤ count ∧ count ≤ 64 ∧ rows.all (fun r => decide (50 ≤ r.us) && decide (r.us ≤ 100000)) then
      s.onPart p fun q => { q with newGrid := some (epoch, rows) }
    else s.badCommand p i) s

/-- FILL_SET (R282). -/
def execFillSet (c count : Nat) (codes : List Nat) (s : State) : Out :=
  command c (fun _ _ s =>
    let bs := ((codes.flatMap (toLe 2)) ++ zeros 48).take 48
    let s := s.setDesc c 80 1 (min 24 count)
    s.putDev (s.ctxDesc c + 88) bs) s

/-- KEY_SET (R124, R282). -/
def execKeySet (c sid : Nat) (key : W64) (s : State) : Out := onStream c sid (fun _ _ s => s.setSt c sid stKey key.toNat) s

/-! ## Reading the ring -/

/-- The 64 bytes of command k of a context. -/
def State.commandBytes (s : State) (c k : Nat) : List Byte :=
  Mem.bytes s.mem (s.desc c 16 8 + 64 * (k % 2 ^ s.desc c 24 1)) 64

/-- Bytes lo to hi - 1 of an entry are zero. -/
def blank (bs : List Byte) (lo hi : Nat) : Bool := ((bs.take hi).drop lo).all (· = 0)

/-- The command of a ring entry of context c: none where an opcode is unknown, a reserved byte is not zero, or
the stream id is above 511 (R282).
(DEDUCED, log entry 48). -/
noncomputable def decodeCommand (c : Nat) (bs : List Byte) : Option Instr :=
  let f (off n : Nat) : Nat := entryNat bs off n
  let sid := f 2 2
  if f 1 1 ≠ 0 ∨ !blank bs 4 8 ∨ 511 < sid then none
  else
    match f 0 1 with
    | 1 => if blank bs 16 64 then some (.activate c (f 8 8)) else none
    | 2 => if blank bs 8 64 then some (.deactivate c) else none
    | 3 =>
      if blank bs 10 16 ∧ blank bs 48 64 then
        some (.streamAdd c sid (f 8 1) ((f 9 1).testBit 0) (f 16 8) (f 24 8) (f 32 8) (f 40 8))
      else none
    | 4 => if blank bs 8 64 then some (.streamReset c sid) else none
    | 5 => if blank bs 8 64 then some (.streamEnd c sid) else none
    | 6 => if blank bs 25 64 then some (.gridSet c (f 8 8) (f 16 8) (f 24 1)) else none
    | 7 =>
      if blank bs 9 16 then some (.fillSet c (f 8 1) ((range 0 24).map fun i => f (16 + 2 * i) 2)) else none
    | 8 => if blank bs 16 64 then some (.keySet c sid (BitVec.ofNat 64 (f 8 8))) else none
    | _ => none

/-- The resident whose next command this beat applies: at most 64 in one TURN (R281). -/
def State.commandDue (s : State) (p : Nat) : Option Nat :=
  let q := s.partAt p
  match q.step.todo with
  | i :: _ =>
    let r := q.res i
    if q.phase = .turn ∧ !q.step.bound ∧ q.valid i ∧ q.step.applied < 64 ∧ r.head ≠ r.tail then some i else none
  | [] => none

/-- A command that the device rejects is consumed with BAD-COMMAND (R282). -/
def State.rejectCommand (s : State) (p i : Nat) : State :=
  let s := s.onRes p i fun r => { r with head := (r.head + 1) % 2 ^ 32 }
  (s.onPart p fun q => { q with step := { q.step with applied := q.step.applied + 1 } }).badCommand p i

end Sys2Proof.Machine
end

