-- ==== Sys2Proof/Machine/Bivouac.lean ====
section
/-!
DEFINITION. Bivouac frames (R298 to R303): a frozen core written to device memory byte by byte, the checks of
a frame, and the core that a frame gives back. What R298 and R300 leave without a layout (early-read entries, the order
within a payload, the effects that no subcode names) is written in a layout of the model's own.
-/

namespace Sys2Proof.Machine

/-! ## Places (R298) -/

/-- Base of set k of a rope's frames: set 0 for urgent pre-emptions, set 1 for debugger halts. -/
def State.frameSet (s : State) (r k : Nat) : Nat := s.ctxbase.getD 0 + 0x1000000 + 0x2000000 * r + 0x1000000 * k

/-- Size of a core's place in a set. -/
def frameSize : Nat := 0x200000

/-- Offset of the payloads. -/
def payloadBase : Nat := 0x160000

/-- Latch records of a frame. -/
def maxLatches : Nat := 512

/-- The magic of a frame. -/
def frameMagic : Nat := 0x4B564942

/-- A signed distance in n bytes. -/
def distance (n : Nat) (x f : Nat) : Nat := wrap (8 * n) ((x : Int) - f)

/-! ## Latch records (R300) -/

/-- One scheduled effect of a frozen core. -/
inductive FrameItem where
  | latch (l : Latch)
  | copy (c : Copy)
  | coll (c : CollOp)
  | acc (a : AccOp)
  | flit (f : Flit)
  | unsent (x : SendOp) (n : Nat)
deriving DecidableEq, Repr, Inhabited

/-- A latch's 32 bytes, its payload apart. -/
structure LatchRec where
  kind : Nat
  track : Family
  cls : Nat
  size : Nat
  remain : Nat
  remain2 : Nat
  aux : Nat
  dest : Nat
  /-- VALUE, where there is no payload. -/
  value : Nat
  payload : Option (List Byte)
  /-- A device address that the effect has still to access: address, write, read (R301). -/
  device : Option (Nat × Bool × Bool)
deriving DecidableEq, Repr, Inhabited

/-- Function codes of R129. -/
def AtomFn.code : AtomFn → Nat
  | .add => 0
  | .and_ => 1
  | .or_ => 2
  | .xor_ => 3
  | .swap => 4
  | .min_ => 5
  | .max_ => 6
  | .minu => 7
  | .maxu => 8

/-- A record with every field zero but its kind, track and beat. -/
def blankRec (kind : Nat) (o : Origin) (act f : Nat) : LatchRec :=
  { kind := kind, track := o.track, cls := 0, size := 0, remain := distance 4 act f, remain2 := 0, aux := 0, dest := 0,
    value := 0, payload := none, device := none }

/-- A control latch: subcode and index. -/
def controlRec (sub idx : Nat) (o : Origin) (act f value : Nat) : LatchRec :=
  { blankRec 11 o act f with dest := sub + 256 * idx, value := value }

/-- Access to device memory still to come. -/
def devAccess (sp : Space) (a : Nat) (w r : Bool) : Option (Nat × Bool × Bool) := if sp = .dev then some (a, w, r) else none

/-- A 256-byte row with cells in it, and its mask of written bytes. -/
def rowAndMask (row : Nat) (cells : List Host.Cell) : List Byte :=
  let mask := cells.foldl (fun m c => m + 2 ^ (c.1 % 256)) 0
  overlay row (zeros 256) cells ++ toLe 32 mask

/-- AUX word code of a row read: VLD, VLDS, VGATH, by major opcode. -/
def rowReadCode (w : W32) : Nat :=
  match bits w.toNat 28 23 with
  | 0x2F => 1
  | 0x31 => 2
  | _ => 3

/-- The record of a scheduled effect. None has one of its own: a BFREE's freeing, which its row zeroing stands for (R300),
and what stands only within one beat or in a service context. Subcodes 13 and 14 are the model's, for a STAT's clear
and an XPRE.
(DESIGN CHOICE, log entry 52). -/
def Latch.toRec (k : Core) (f : Nat) (l : Latch) : Option LatchRec :=
  let b := blankRec
  let o := l.org
  match l.eff with
  | .sreg n v _ => some { b 1 o l.act f with size := 8, dest := n, value := v.toNat }
  | .dreg n v => some { b 2 o l.act f with size := 8, dest := n, value := v.toNat }
  | .row bank row bs => some { b 3 o l.act f with dest := bank * 64 + row, payload := some bs }
  | .pred n v => some { b 4 o l.act f with dest := n, payload := some (toLe 32 v.toNat) }
  | .store sp cells cls raced =>
    let a := (cells.map (·.1)).headD 0
    if o.track = .s then
      some { b 5 o l.act f with cls := cls, size := cells.length, dest := sp.tagged a, value := leNat (cells.map (·.2)),
                                device := devAccess sp a true false }
    else
      let row := a / 256 * 256
      some { b 5 o l.act f with cls := cls, dest := sp.tagged row,
                                payload := some (rowAndMask row (cells.filter fun x => !raced.contains x.1)) }
  | .load sp a n sx_ dst usable cls =>
    some { b 6 o l.act f with cls := cls, size := n, remain2 := distance 4 usable f, dest := sp.tagged a,
                              value := dst + (if sx_ then 256 else 0),
                              device := devAccess sp a false true }
  | .loadElem a n sx_ dst usable =>
    some { b 6 o l.act f with size := n, remain2 := distance 4 usable f, dest := Space.acc.tagged a,
                              value := dst + if sx_ then 256 else 0 }
  | .loadRow bank row base fetch write cls =>
    let e := max 1 (elemSize (k.bank bank).type)
    let lanes := (fetch.filter fun x => x.1 % e = 0).map fun x => (x.1 / e, x.2)
    let mask := lanes.foldl (fun m x => m + 2 ^ x.1) 0
    let code := rowReadCode o.word
    let addrs := if code = 1 then [] else
      (range 0 256).flatMap fun i => toLe 4 ((lanes.find? fun x => x.1 = i).map (·.2) |>.getD 0)
    let a := (fetch.map (·.2)).headD 0
    some { b 6 o l.act f with cls := cls, remain2 := distance 4 (write + 1) f, dest := if code = 1 then a / 256 * 256 else a,
                              aux := bank * 64 + row + 65536 * code, payload := some (base ++ toLe 32 mask ++ toLe 1 (bits o.word.toNat 18 18) ++ addrs) }
  | .atomic sp a n fn x dst usable cls .. =>
    some { b 7 o l.act f with cls := cls, size := n, remain2 := distance 4 usable f, dest := sp.tagged a, value := x.toNat,
                              aux := fn.code + 16 * dst, device := devAccess sp a true true }
  | .bindWin w bank => some (controlRec (if w then 2 else 1) 0 o l.act f bank)
  | .omap m => some (controlRec 3 0 o l.act f m.toNat)
  | .alloc bank type owners => some (controlRec 4 bank o l.act f (type.toNat + 256 * owners.toNat))
  | .zeroRows bank next left period freeing =>
    let x := controlRec (if freeing then 5 else 12) bank o l.act f next
    some { x with remain2 := distance 4 (l.act + period * (if freeing then left else left - 1)) f }
  | .owners bank owners => some (controlRec 6 bank o l.act f owners.toNat)
  | .rmode m sat => some (controlRec 7 0 o l.act f (m.toNat + if sat then 8 else 0))
  | .ftab n v => some (controlRec 8 n o l.act f v.toNat)
  | .scaleLoad sb a use =>
    some { controlRec 9 (if sb then 1 else 0) o use f 0 with remain2 := distance 4 l.act f, payload := some (toLe 8 a) }
  | .scaleUse sb a at_ vals =>
    some { controlRec 9 (if sb then 1 else 0) o l.act f 0 with
             remain2 := distance 4 at_ f, aux := 1, payload := some (toLe 8 a ++ vals.flatMap fun v => toLe 2 v.toNat) }
  | .ringPop q n => some (controlRec 10 q o l.act f n)
  | .prot m => some (controlRec 11 0 o l.act f m.toNat)
  | .statClear m => some (controlRec 13 0 o l.act f m.toNat)
  | .xpre va big => some (controlRec 14 (if big then 1 else 0) o l.act f va)
  | .loadAfter .. | .free .. | .ringInit .. | .ringPush .. | .sysWrite .. | .xlatWrite .. | .xlatClear .. => none

/-- Major opcode of a copy word (R230), from its word. -/
def wordMajor (w : W32) : Nat := bits w.toNat 28 23

/-- The beat of a copy's next chunk, or of its start (R300). -/
def Copy.nextBeat (c : Copy) : Nat :=
  if c.started then
    let s := c.sampleBeat c.nextSample
    let d := c.performBeat c.nextPerform
    if c.nextSample < c.samples ∧ (c.performs ≤ c.nextPerform ∨ s ≤ d) then s else d
  else c.start

/-- The device-memory access that a copy has still to make (R301). -/
def Copy.access (c : Copy) : Option (Nat × Bool × Bool) :=
  if c.srcSpace = .dev ∧ c.nextSample < c.samples then some (c.srcVa, false, true)
  else if c.dstSpace = .dev ∧ c.kind ≠ .speak ∧ c.nextPerform < c.performs then some (c.dstVa, true, false)
  else none

/-- A copy's record (R300). -/
def Copy.toRec (f : Nat) (c : Copy) : LatchRec :=
  let d (i va : Nat) : List Byte := toLe 8 (setBits (c.raw.getD i 0).toNat 47 0 va)
  let source := if c.kind = .listen then toLe 8 (c.raw.getD 1 0).toNat else d 1 c.srcVa
  let ring := match c.ring with
    | some (q, t, _) => toLe 1 q ++ toLe 1 t
    | none => []
  { blankRec 8 c.org c.nextBeat f with
    cls := c.cls, remain2 := distance 4 c.lastBeat f, device := c.access, aux := wordMajor c.org.word + if c.started then 256 else 0,
    dest := if c.kind = .speak then 0 else c.dstSpace.tagged c.dstVa,
    payload := some (d 0 c.dstVa ++ source ++ toLe 8 (c.raw.getD 2 0).toNat
      ++ (if c.kind = .cpy2 then toLe 8 (c.raw.getD 3 0).toNat else []) ++ toLe 4 c.nextSample ++ ring
      ++ c.buf.flatMap (·.bytes)) }

/-- A collective's record. -/
def CollOp.toRec (f : Nat) (c : CollOp) : LatchRec :=
  let next := if c.next < c.shape.chunks then c.start + 1 + c.next else c.due
  { blankRec 8 c.org next f with
    remain2 := distance 4 c.due f, aux := wordMajor c.org.word + 256 + 512 * c.shape.fn, dest := c.dstSpace.tagged c.dst,
    payload := some ((range 0 2).flatMap (fun i => toLe 8 (c.raw.getD i 0).toNat) ++ toLe 4 c.next
      ++ (range 2 2).flatMap (fun i => toLe 8 (c.raw.getD i 0).toNat)
      ++ toLe 2 (c.number.getD 0) ++ toLe 1 c.gen ++ toLe 1 c.status) }

/-- An accumulating word's record. -/
def AccOp.toRec (f : Nat) (a : AccOp) : LatchRec :=
  { blankRec 9 a.org (if a.next < 32 then a.nextBeat else a.last) f with
    remain2 := distance 4 a.w f, dest := a.bank, aux := a.org.word.toNat,
    payload := some (toLe 4 a.aAddr ++ a.bTiles.flatMap (fun t => toLe 4 t.addr) ++ a.aBytes ++ a.bBytes.flatten
      ++ (a.sA ++ a.sB).flatMap (fun v => toLe 2 v.toNat) ++ toLe 1 a.mode.toNat ++ toLe 1 (if a.sat then 1 else 0)
      ++ toLe 2 (a.fmt.a.toNat + 64 * a.fmt.b.toNat) ++ toLe 8 a.cols.toNat ++ a.tableBytes ++ toLe 4 (distance 4 a.last f)) }

/-- A sampled flit, in the frame of the core it arrives at. -/
def Flit.toRec (f : Nat) (x : Flit) (dest : Nat) : LatchRec :=
  { blankRec 10 x.org x.arrive f with
    size := 64, dest := dest, aux := x.lane + if x.acw then 8 else 0, payload := some x.bytes }

/-- A flit that its sender has still to sample. -/
def SendOp.toRec (f : Nat) (x : SendOp) (n : Nat) : LatchRec :=
  { blankRec 10 x.org (x.org.issue + 1 + n) f with
    size := 64, dest := x.sp.tagged (x.addr + 64 * n), aux := x.lane + (if x.acw then 8 else 0) + 16 }

/-- Where a flit in flight lands in its receiving core. -/
def State.flitDest (s : State) (x : Flit) : Nat :=
  match (s.coreAt x.rope x.dst).recvs.find? fun y => decide (y.lane = x.lane) && decide (y.acw = x.acw) with
  | some y => y.sp.tagged (y.addr + 64 * (x.arrive - y.org.issue))
  | none => 0

/-- An item's record. -/
def State.recOf (s : State) (k : Core) (f : Nat) : FrameItem → Option LatchRec
  | .latch l => l.toRec k f
  | .copy x => some (x.toRec f)
  | .coll x => some (x.toRec f)
  | .acc x => some (x.toRec f)
  | .flit x => some (x.toRec f (s.flitDest x))
  | .unsent x n => some (x.toRec f n)

/-- Everything scheduled in core c of rope r at F, with its record, in the order of KIND. -/
def State.frameItems (s : State) (p r c f : Nat) : List (FrameItem × LatchRec) :=
  let k := s.coreAt r c
  let items : List FrameItem := k.latches.map FrameItem.latch ++ k.copies.map FrameItem.copy
    ++ (k.colls.filter fun x => x.due ≠ 0).map FrameItem.coll ++ k.accops.map FrameItem.acc
    ++ ((s.partAt p).flits.filter fun x => x.rope = r ∧ x.dst = c).map FrameItem.flit
    ++ k.sends.flatMap fun x => (range x.next (x.count - x.next)).map fun n => FrameItem.unsent x n
  let xs := items.filterMap fun it => (s.recOf k f it).map fun x => (it, x)
  (sortBy (fun (a b : FrameItem × LatchRec) => decide (a.2.kind < b.2.kind)) xs).take maxLatches

/-- The 32 bytes of a record whose payload stands at an offset; pend sets PENDING-XLAT. -/
def LatchRec.bytes (x : LatchRec) (off : Nat) (pend : Bool) : List Byte :=
  let flags := trackRank x.track + (if pend then 16 else 0) + if x.payload.isSome then 32 else 0
  toLe 1 x.kind ++ toLe 1 flags ++ toLe 1 x.cls ++ toLe 1 x.size ++ toLe 4 x.remain ++ toLe 4 x.remain2 ++ toLe 4 x.aux
    ++ toLe 8 x.dest ++ toLe 8 (if x.payload.isSome then off else x.value)

/-- The page of a record's device access is absent from the rope's cache (R301). -/
def State.pendsXlat (s : State) (p r : Nat) (x : LatchRec) : Bool :=
  match x.device with
  | some (a, w, rd) => decide (s.translate p r a w rd = .missing)
  | none => false

/-- Records and payloads of a frame. -/
def State.latchBlocks (s : State) (p r : Nat) : Nat → Nat → List (FrameItem × LatchRec) → List (Nat × List Byte)
  | _, _, [] => []
  | j, off, (_, x) :: xs =>
    let bs := x.payload.getD []
    (0x4000 + 32 * j, x.bytes off (s.pendsXlat p r x)) :: (payloadBase + off, bs)
      :: s.latchBlocks p r (j + 1) (off + bs.length) xs

/-! ## Track records (R299) -/

/-- WAIT of a track at F. -/
def Core.waitField (k : Core) (f : Family) (at_ : Nat) : Nat :=
  let t := k.track f
  let n := match t.resync with
    | some (_, x) => ((range at_ (x - at_)).filter fun b => k.opportunity f b).length
    | none => t.wait
  min n 0xFFFFFFFF

/-- The loop state of a track record.
(DEDUCED, log entry 68). -/
def Track.loopBytes (t : Track) : List Byte :=
  match t.mloop, t.cloop with
  | some l, _ =>
    let (pass, off) := if l.next = 0 then (l.pass, 0) else (l.pass - 1, l.ii - l.next)
    toLe 1 l.ii ++ toLe 1 l.stages ++ toLe 1 l.k ++ toLe 2 l.body ++ toLe 2 l.n ++ toLe 3 pass ++ toLe 1 off
  | none, some l => toLe 2 l.body ++ toLe 1 (l.len - 1) ++ toLe 3 l.trip ++ toLe 3 l.count
  | none, none =>
    t.kloops.reverse.flatMap fun l => toLe 2 l.body ++ toLe 1 (l.len - 1 + 64 * l.kreg) ++ toLe 3 l.trip ++ toLe 3 l.count ++ zeros 1

/-- Pad or cut to n bytes. -/
def fitBytes (n : Nat) (bs : List Byte) : List Byte := (bs ++ zeros n).take n

/-- A track record. -/
def Core.trackBytes (k : Core) (f : Family) (at_ : Nat) : List Byte :=
  let t := k.track f
  let b (x : Bool) (n : Nat) : Nat := if x then 2 ^ n else 0
  let flags := b t.done 0 + b t.mac.isSome 1 + b t.belay.isSome 2 + b t.join.isSome 3
    + b (t.mloop.isSome || t.cloop.isSome || !t.kloops.isEmpty) 4 + b t.held 5
    + b (match t.resync with
      | some (i, x) => decide (i < at_) && decide (at_ < x)
      | none => false) 6
  let pc := match t.mac with
    | some r => r.callPc
    | none => t.pc
  let m := (t.mac.map fun r => (r.entry, r.word)).getD (0, 0)
  let j := t.join.getD (0, at_)
  toLe 4 pc ++ toLe 4 (k.waitField f at_) ++ toLe 1 flags ++ toLe 1 m.1 ++ toLe 1 m.2 ++ zeros 1 ++ toLe 4 j.1
    ++ toLe 8 (distance 8 j.2 at_) ++ fitBytes 40 t.loopBytes

/-! ## The frame -/

/-- Registers 0 to n - 1, eight bytes each. -/
def regBytes (get : Nat → W64) (n : Nat) : List Byte := (range 0 n).flatMap fun i => toLe 8 (get i).toNat

/-- The header (R298). -/
def Core.headBytes (k : Core) (q : Partition) (r c cause n : Nat) : List Byte :=
  let f := q.topo
  let none_ := 0x8000000000000000
  let far (x : Option Nat) : Nat := match x with
    | some b => distance 8 b f
    | none => none_
  toLe 4 frameMagic ++ zeros 4 ++ toLe 8 f ++ toLe 8 q.step.anchor ++ toLe 4 q.step.rdz ++ toLe 2 n ++ toLe 1 r ++ toLe 1 c
    ++ toLe 1 cause ++ toLe 1 ((if k.low then 1 else 0) + if k.window.isSome then 2 else 0)
    ++ toLe 1 (match k.window with
      | some w => w.opened + 128 - f
      | none => 0)
    ++ zeros 5 ++ toLe 1 k.rb ++ toLe 1 k.pb ++ zeros 6 ++ toLe 8 (far k.busyTo) ++ toLe 8 (far k.ramps.head?)

/-- The control state (R298). -/
def Core.controlBytes (k : Core) : List Byte :=
  let loops := (if k.v.mloop.isSome then 1 else 0) + (if k.m.mloop.isSome then 2 else 0)
    + if k.v.mloop.isSome ∧ k.m.mloop.isSome then 4 else 0
  toLe 8 k.status.toNat ++ toLe 8 k.dom.toNat ++ toLe 1 (k.mmode.toNat + if k.msat then 8 else 0) ++ toLe 1 k.omap.toNat
    ++ toLe 1 k.vwin ++ toLe 1 k.wwin ++ toLe 1 loops ++ zeros 43

/-- A bank table entry (R298). -/
def Bank.bytes (b : Bank) (f : Nat) : List Byte :=
  toLe 1 b.type.toNat ++ toLe 1 b.owners.toNat ++ toLe 1 (if b.type = 0 then 0 else 1) ++ zeros 1
    ++ toLe 4 (if b.freeFrom ≤ f then 0 else distance 4 b.freeFrom f)

/-- An early-read entry, in the model's own layout of its sixteen bytes. -/
def ErEntry.bytes (e : ErEntry) (f : Nat) : List Byte :=
  toLe 4 e.lo ++ toLe 4 e.hi ++ toLe 4 (distance 4 e.perform f) ++ toLe 1 e.sp.code ++ zeros 2 ++ toLe 1 1

/-- A macro store (R298). -/
def macroStoreBytes (k : Core) : List Byte :=
  (range 0 64).flatMap (fun e => toLe 8 (k.macro_ e).header.toNat)
    ++ (range 0 64).flatMap fun e => (range 0 32).flatMap fun w => toLe 4 (SMap.get 0 (k.macro_ e).slots w).toNat

/-- Ring tags, two bytes an entry: the tag, and FULL in bit 0 of the second. -/
def tagBytes (k : Core) : List Byte :=
  (range 0 2048).flatMap fun i =>
    let t := SMap.get { tag := 0, full := false } k.tags i
    toLe 1 t.tag.toNat ++ toLe 1 (if t.full then 1 else 0)

/-- The fields of a core's frame that are not memories or latches: offset and bytes. -/
def Core.frameBlocks (k : Core) (q : Partition) (r c cause n : Nat) : List (Nat × List Byte) :=
  let f := q.topo
  [(0, k.headBytes q r c cause n),
   (0x100, k.trackBytes .s f ++ k.trackBytes .v f ++ k.trackBytes .m f ++ k.trackBytes .c f),
   (0x200, regBytes (SMap.get 0 k.sregs) 32), (0x300, regBytes k.kreg 8), (0x340, regBytes k.dreg 32),
   (0x440, regBytes k.qreg 8), (0x480, (range 0 16).flatMap fun i => toLe 4 (SMap.get 0 k.fregs i).toNat),
   (0x4C0, (range 0 64).flatMap (fun i => toLe 2 (SMap.get 0 k.sA i).toNat) ++ (range 0 64).flatMap fun i => toLe 2 (SMap.get 0 k.sB i).toNat),
   (0x5C0, k.controlBytes), (0x600, (range 0 64).flatMap fun i => (k.bank i).bytes f), (0x1000, tagBytes k),
   (0x2000, (range 0 128).flatMap fun i => toLe 32 (k.predReg i).toNat),
   (0x3000, k.ertab.flatMap fun e => e.bytes f), (0x8000, macroStoreBytes k)]

/-- Copy the listed bytes of a map, from lo to hi - 1, into device memory at a place. -/
def Mem.copyIn (m : SMap Byte) (src : SMap Byte) (lo hi place : Nat) : SMap Byte :=
  (src.filter fun e => decide (lo ≤ e.1) && decide (e.1 < hi)).foldr (fun e m => SMap.set 0 m (place + (e.1 - lo)) e.2)
    (SMap.clear m place (place + (hi - lo)))

/-- Rows a latch of row stores touches become latches of one row each (R300). -/
def Latch.splitRows (l : Latch) : List Latch :=
  match l.eff with
  | .store sp cells cls raced =>
    if l.org.track = .s then [l]
    else (rowsOfAddrs (cells.map (·.1))).map fun row =>
      { l with eff := .store sp (cells.filter fun x => x.1 / 256 = row) cls raced }
  | _ => [l]

/-- Write the frame of core c of rope r into set k (R298). -/
def State.writeFrame (s : State) (p r c cause set : Nat) : State :=
  let s := s.onCore r c fun k => { k with latches := k.latches.flatMap Latch.splitRows }.closePitch
  let k := s.coreAt r c
  let q := s.partAt p
  let fa := s.frameSet r set + frameSize * c
  let items := s.frameItems p r c q.topo
  let m := SMap.clear (SMap.clear s.mem fa (fa + 0x60000)) (fa + payloadBase) (fa + frameSize)
  let m := (k.frameBlocks q r c cause items.length ++ s.latchBlocks p r 0 0 items).foldl (fun m x => Mem.put m (fa + x.1) x.2) m
  let m := Mem.copyIn m k.spad 0 spadEnd (fa + 0x10000)
  let m := (range 0 64).foldl (fun m b =>
    if k.allocated b then Mem.copyIn m k.acc (0x4000 * b) (0x4000 * b + 0x4000) (fa + 0x60000 + 0x4000 * b) else m) m
  let marks := SMap.clear (SMap.clear s.memEcc (fa / 64) ((fa + 0x60000) / 64)) ((fa + payloadBase) / 64) ((fa + frameSize) / 64)
  let marks := (range 0 64).foldl (fun m b =>
    if k.allocated b then SMap.clear m ((fa + 0x60000 + 0x4000 * b) / 64) ((fa + 0x64000 + 0x4000 * b) / 64) else m) marks
  { s with mem := m, memEcc := marks }

/-! ## Checks (R303) -/

/-- The first of these offsets whose test fails. -/
def firstFail (xs : List (Nat × Bool)) : Option Nat := (xs.find? fun x => !x.2).map (·.1)

/-- Byte offset of the first bad field of the frame at fa, for core c and freeze beat f. An accumulating word frozen between
P and W has P - F as its REMAIN, which is negative (R300): only its W must not be.
(DEDUCED, log entry 101). -/
def State.frameBad (s : State) (fa c f : Nat) : Option Nat :=
  let g (off n : Nat) : Nat := Mem.nat s.mem (fa + off) n
  let z (off n : Nat) : List (Nat × Bool) := (range off n).map fun i => (i, decide (g i 1 = 0))
  let n := min (g 28 2) maxLatches
  firstFail
    ([(0, decide (g 0 4 = frameMagic)), (8, decide (g 8 8 = f)), (31, decide (g 31 1 = c))] ++ z 42 6
      ++ (range 0 4).flatMap (fun t => z (0x100 + 64 * t + 11) 1 ++ loopReserved t (0x100 + 64 * t + 24)) ++ z (0x5C0 + 21) 43
      ++ (range 0 64).flatMap (fun b => [(0x602 + 8 * b, decide (g (0x602 + 8 * b) 1 ≤ 1))] ++ z (0x603 + 8 * b) 1)
      ++ (range 0 n).flatMap fun j =>
        let a := 0x4000 + 32 * j
        [(a, decide (1 ≤ g a 1) && decide (g a 1 ≤ 11)),
         (a + 4, decide (g (a + 4) 4 < 2 ^ 31) || (decide (g a 1 = 9) && decide (g (a + 8) 4 < 2 ^ 31)))])
where
  /-- The reserved bytes of a loop state at off: the last byte of each KLOOP record, what follows an MLOOP or a CLOOP
  record (R299). -/
  loopReserved (t off : Nat) : List (Nat × Bool) :=
    let z (off n : Nat) : List (Nat × Bool) := (range off n).map fun i => (i, decide (Mem.nat s.mem (fa + i) 1 = 0))
    match t with
    | 0 => (range 0 4).flatMap fun i => z (off + 10 * i + 9) 1
    | 3 => z (off + 9) 31
    | _ => z (off + 11) 29

/-! ## Reading a frame back (R302) -/

/-- A register file read back, keeping zeros unlisted. -/
def readRegs (m : SMap Byte) (a n : Nat) : SMap W64 :=
  (range 0 n).foldl (fun r i => SMap.set 0 r i (BitVec.ofNat 64 (Mem.nat m (a + 8 * i) 8))) []

/-- The function of an AUX code. -/
def atomOf (x : Nat) : AtomFn :=
  match x with
  | 0 => .add
  | 1 => .and_
  | 2 => .or_
  | 3 => .xor_
  | 4 => .swap
  | 5 => .min_
  | 6 => .max_
  | 7 => .minu
  | _ => .maxu

/-- The space of a tagged address. -/
def spaceOf (x : Nat) : Space :=
  match bits x 63 62 with
  | 0 => .spad
  | 1 => .acc
  | _ => .dev

/-- A record and its payload, as a frame in memory m holds them: the record at a, the payloads at pa, the freeze beat f;
f0 is the beat that the frame was written for. -/
structure RecAt where
  m : SMap Byte
  a : Nat
  pa : Nat
  f : Nat
  f0 : Nat

/-- n bytes at an offset of the record, as a number. -/
def RecAt.num (x : RecAt) (off n : Nat) : Nat := Mem.nat x.m (x.a + off) n
/-- n bytes at an offset of the payload. -/
def RecAt.body (x : RecAt) (off n : Nat) : List Byte := Mem.bytes x.m (x.pa + x.num 24 8 + off) n
/-- The same as a number. -/
def RecAt.pay (x : RecAt) (off n : Nat) : Nat := leNat (x.body off n)
/-- The record's beats: REMAIN and REMAIN2 from the freeze beat. -/
def RecAt.act (x : RecAt) : Nat := x.f + x.num 4 4
def RecAt.act2 (x : RecAt) : Nat := x.f + x.num 8 4
/-- The beat at a signed distance from beat f, 0 at the earliest. -/
def signedBeat (f n : Nat) : Nat := ((f : Int) + signedOf 32 n).toNat
/-- A beat from the freeze beat on or before it: a signed distance at an offset of the record. -/
def RecAt.back (x : RecAt) (off : Nat) : Nat := signedBeat x.f (x.num off 4)
/-- DEST without its space. -/
def RecAt.addr (x : RecAt) : Nat := bits (x.num 16 8) 61 0

/-- 16-bit values of a payload. -/
def RecAt.halves (x : RecAt) (off n : Nat) : List W16 := (range 0 n).map fun i => BitVec.ofNat 16 (x.pay (off + 2 * i) 2)

/-- A row read from its record: each active lane's bytes, at its own address (R300). -/
def RecAt.rowRead (x : RecAt) (k : Core) : Effect :=
  let dest := bits (x.num 12 4) 13 0
  let e := max 1 (elemSize (k.bank (dest / 64)).type)
  let mask := x.pay 256 32
  let code := bits (x.num 12 4) 19 16
  let at_ (i : Nat) : Nat := if code = 1 then x.addr + e * i else x.pay (289 + 4 * i) 4
  let fetch := ((range 0 (256 / e)).filter mask.testBit).flatMap fun i => (range 0 e).map fun j => (e * i + j, at_ i + j)
  .loadRow (dest / 64) (dest % 64) (x.body 0 256) fetch (x.act2 - 1) (x.num 2 1)

/-- A control latch from its record; old is the effect it was written for. -/
def RecAt.control (x : RecAt) (old : Effect) : List Effect :=
  let v := BitVec.ofNat 64 (x.num 24 8)
  let idx := bits (x.num 16 8) 15 8
  let period := match old with
    | .zeroRows _ _ _ g _ => g
    | _ => 1
  match bits (x.num 16 8) 7 0 with
  | 1 => [.bindWin false (bits v.toNat 5 0)]
  | 2 => [.bindWin true (bits v.toNat 5 0)]
  | 3 => [.omap (BitVec.ofNat 3 v.toNat)]
  | 4 => [.alloc idx (BitVec.ofNat 6 v.toNat) (BitVec.ofNat 8 (bits v.toNat 15 8))]
  | 5 => (if v = 0 then [.free idx x.act2] else []) ++ [.zeroRows idx v.toNat (64 - v.toNat) period true]
  | 6 => [.owners idx (BitVec.ofNat 8 v.toNat)]
  | 7 => [.rmode (BitVec.ofNat 3 v.toNat) (v.toNat.testBit 3)]
  | 8 => [.ftab idx (entryFields (BitVec.ofNat 32 v.toNat))]
  | 9 => [if (x.num 12 4).testBit 0 then .scaleUse (idx = 1) (x.pay 0 8) (x.back 8) (x.halves 8 64) else .scaleLoad (idx = 1) (x.pay 0 8) x.act]
  | 10 => [.ringPop idx v.toNat]
  | 11 => [.prot (BitVec.ofNat 3 v.toNat)]
  | 12 => [.zeroRows idx v.toNat ((x.act2 - x.act) / period + 1) period false]
  | 13 => [.statClear v]
  | 14 => [.xpre v.toNat (idx = 1)]
  | _ => []

/-- The effects of a record of KIND 1 to 7 or 11. -/
def RecAt.effects (x : RecAt) (k : Core) (old : Effect) : List Effect :=
  let v := BitVec.ofNat 64 (x.num 24 8)
  let dest := x.num 16 8
  let sp := spaceOf dest
  match x.num 0 1 with
  | 1 => [.sreg (bits dest 4 0) v (residueOf v)]
  | 2 => [.dreg (bits dest 4 0) v]
  | 3 => [.row (bits dest 11 6) (bits dest 5 0) (x.body 0 256)]
  | 4 => [.pred (bits dest 6 0) (BitVec.ofNat 256 (x.pay 0 32))]
  | 5 =>
    if x.num 3 1 = 0 then
      let mask := x.pay 256 32
      [.store sp ((cellsAt x.addr (x.body 0 256)).filter fun y => mask.testBit (y.1 - x.addr)) (x.num 2 1) []]
    else [.store sp (cellsAt x.addr (toLe (x.num 3 1) v.toNat)) (x.num 2 1) []]
  | 6 =>
    if x.num 3 1 = 0 then [x.rowRead k]
    else if sp = .acc then [.loadElem x.addr (x.num 3 1) (v.toNat.testBit 8) (bits v.toNat 4 0) x.act2]
    else [.load sp x.addr (x.num 3 1) (v.toNat.testBit 8) (bits v.toNat 4 0) x.act2 (x.num 2 1)]
  | 7 => [.atomic sp x.addr (x.num 3 1) (atomOf (bits (x.num 12 4) 3 0)) v (bits (x.num 12 4) 8 4) x.act2 (x.num 2 1) [] [] []]
  | 11 => x.control old
  | _ => []

/-- The beat that the latch of a record acts on: a scale load's is its sample beat. -/
def RecAt.actOf (x : RecAt) : Effect → Nat
  | .scaleLoad .. => x.act2
  | _ => x.act

/-- The latches of a record; none for KINDs 8 to 10. -/
def RecAt.latches (x : RecAt) (k : Core) (o : Origin) (old : Effect) : List Latch :=
  (x.effects k old).map fun e => { org := o, act := x.actOf e, eff := e }

/-- A descriptor's end in a space: the address, physical in device memory, as far from the old one as the field has
moved. -/
def movedTo (old va new : Nat) : Nat := old + new - va

/-- The chunks of a copy's payload from an offset, for the chunks that were kept. -/
def RecAt.chunks (x : RecAt) (off : Nat) (cs : List Chunk) : List Chunk :=
  (cs.zip (range 0 cs.length)).map fun (ch, i) => { ch with bytes := x.body (off + 256 * i) 256 }

/-- A copy from its record: its descriptors, start, next chunk and the beat of it, tail entry and sampled chunks. -/
def RecAt.copy (x : RecAt) (c : Copy) : Copy :=
  let shape := if c.kind = .cpy2 then 8 else 0
  let raw := (range 0 (if c.kind = .cpy2 then 4 else 3)).map fun i => BitVec.ofNat 64 (x.pay (8 * i) 8)
  let len := raw.getD 2 0
  let dva := if c.kind = .speak then c.dstVa else if x.addr ≠ c.dstVa then x.addr else descAddr (raw.getD 0 0)
  let sel := (raw.getD 1 0).toNat
  let sva := if c.kind = .listen then c.srcVa else descAddr (raw.getD 1 0)
  let ring := c.ring.map fun (_, t, tag) =>
    let t' := x.pay (29 + shape) 1
    (x.pay (28 + shape) 1, t', if t' = t then tag else BitVec.ofNat 8 t')
  let started := (x.num 12 4).testBit 8
  let next := x.pay (24 + shape) 4
  { c with
    cls := x.num 2 1, started := started, raw := raw,
    start := if started then c.start + x.act - { c with started := true, nextSample := next }.nextBeat else x.act,
    chunks := lenChunks len, dstVa := dva, dst := movedTo c.dst c.dstVa dva, srcVa := sva, src := movedTo c.src c.srcVa sva,
    nextSample := next, ring := ring,
    first := if c.kind = .listen then bits sel 8 0 else c.first, streams := if c.kind = .listen then bits sel 25 16 else c.streams,
    maxe := if c.kind = .listen then bits sel 39 32 else c.maxe,
    buf := x.chunks (28 + shape + if c.ring.isSome then 2 else 0) c.buf }

/-- A collective from its record: its next chunk is sampled on REMAIN's beat; with every chunk sampled REMAIN and REMAIN2 both
name its due beat, and the one that was changed gives it. -/
def RecAt.coll (x : RecAt) (c : CollOp) : CollOp :=
  let next := x.pay 16 4
  let more := decide (next < c.shape.chunks)
  { c with
    dst := x.addr, due := if more ∨ x.num 8 4 ≠ distance 4 c.due x.f0 then x.act2 else x.act,
    start := if more then x.act - 1 - next else c.start, next := next, gen := x.pay 38 1, status := x.pay 39 1,
    number := if c.number.isNone ∧ x.pay 36 2 = 0 then none else some (x.pay 36 2),
    raw := [0, 8, 20, 28].map fun off => BitVec.ofNat 64 (x.pay off 8) }

/-- An accumulating word from its record: its next chunk is sampled on REMAIN's beat; with every chunk sampled REMAIN and
the payload's P - F both name its last chunk's beat, and the one that was changed gives it. -/
def RecAt.accop (x : RecAt) (a : AccOp) : AccOp :=
  let nb := a.bTiles.length
  let oA := 4 + 4 * nb
  let oB := oA + a.aBytes.length
  let oS := oB + (a.bBytes.map List.length).sum
  let nA := a.sA.length
  let oM := oS + 2 * (nA + a.sB.length)
  let cut := a.bBytes.foldl (fun (y : Nat × List (List Byte)) bs => (y.1 + bs.length, y.2 ++ [x.body y.1 bs.length])) (oB, [])
  let p := x.pay (oM + 12 + a.tableBytes.length) 4
  { a with
    start := if a.next < 32 then x.act - a.gear * (a.cold + a.next) else a.start,
    last := if a.next < 32 ∨ p ≠ distance 4 a.last x.f0 then signedBeat x.f p else x.back 4,
    w := x.act2, bank := bits (x.num 16 8) 5 0, org := { a.org with word := BitVec.ofNat 32 (x.num 12 4) },
    aAddr := x.pay 0 4, bTiles := (a.bTiles.zip (range 0 nb)).map fun (t, i) => { t with addr := x.pay (4 + 4 * i) 4 },
    aBytes := x.body oA a.aBytes.length, bBytes := cut.2, sA := x.halves oS nA, sB := x.halves (oS + 2 * nA) a.sB.length,
    mode := BitVec.ofNat 3 (x.pay oM 1), sat := decide (x.pay (oM + 1) 1 ≠ 0),
    fmt := { a.fmt with a := BitVec.ofNat 6 (x.pay (oM + 2) 2), b := BitVec.ofNat 6 (x.pay (oM + 2) 2 / 64) },
    cols := BitVec.ofNat 64 (x.pay (oM + 4) 8), tableBytes := x.body (oM + 12) a.tableBytes.length }

/-- A flit from its record. -/
def RecAt.flit (x : RecAt) (y : Flit) : Flit :=
  { y with arrive := x.act, lane := bits (x.num 12 4) 2 0, acw := (x.num 12 4).testBit 3, bytes := x.body 0 64 }

/-- A flit still to be sampled from its record, as a SEND of its own. -/
def RecAt.unsent (x : RecAt) (y : SendOp) (n : Nat) : SendOp :=
  { y with
    org := { y.org with issue := x.act - 1 - n }, lane := bits (x.num 12 4) 2 0, acw := (x.num 12 4).testBit 3,
    sp := spaceOf (x.num 16 8), addr := x.addr - 64 * n, next := n, count := n + 1 }

/-- What a record that was changed gives: the same kind of item with the record's fields, or the latches it names
(R302). -/
def RecAt.item (x : RecAt) (k : Core) (it : FrameItem) : List FrameItem :=
  let kind := x.num 0 1
  let fresh (o : Origin) (e : Effect) : List FrameItem := (x.latches k o e).map .latch
  match it with
  | .latch l => fresh l.org l.eff
  | .copy c => if kind = 8 then [.copy (x.copy c)] else fresh c.org default
  | .coll c => if kind = 8 then [.coll (x.coll c)] else fresh c.org default
  | .acc a => if kind = 9 then [.acc (x.accop a)] else fresh a.org default
  | .flit y => if kind = 10 then [.flit (x.flit y)] else fresh y.org default
  | .unsent y n => if kind = 10 then [.unsent (x.unsent y n) n] else fresh y.org default

/-- The items that a frame holds, each with its record's index: as it was kept where its record stands as it was
written, else as the record now reads; one beyond the latch count is gone. f0 is the beat that it was written for. -/
def readItems (m : SMap Byte) (k : Core) (fa f0 f : Nat) : Nat → Nat → List (FrameItem × LatchRec) → List (Nat × FrameItem)
  | _, _, [] => []
  | j, off, (it, x) :: xs =>
    let a := fa + 0x4000 + 32 * j
    let bs := x.payload.getD []
    let rest := readItems m k fa f0 f (j + 1) (off + bs.length) xs
    let mine := setBits (leNat ((x.bytes off false).take 2)) 12 12 0
    let same := decide (setBits (Mem.nat m a 2) 12 12 0 = mine) && decide (Mem.bytes m (a + 2) 30 = (x.bytes off false).drop 2)
      && decide (Mem.bytes m (fa + payloadBase + off) bs.length = bs) && decide (f = f0)
    if Mem.nat m (fa + 28) 2 ≤ j then []
    else (if same then [it] else RecAt.item { m := m, a := a, pa := fa + payloadBase, f := f, f0 := f0 } k it).map (fun y => (j, y)) ++ rest

/-! ## Records that were not written (R302, R303) -/

/-- The copy word of a major opcode (R230). -/
def copyFrom (major : Nat) : Option CopyKind :=
  match major with
  | 0x05 => some .cpy
  | 0x06 => some .cpya
  | 0x07 => some .cpy2
  | 0x08 => some .cpyq
  | 0x09 => some .cpysel
  | 0x0E => some .listen
  | 0x0F => some .speak
  | _ => none

/-- A copy that only its record knows, of word o: its ends as its descriptors give them, its start as its last chunk's beat
gives it, and its performs up to the freeze beat done. None where the page of its device end is not there. What the record
does not hold is a select record's folding, which is taken from the record's place.
(DESIGN CHOICE, log entry 99). -/
def State.newCopy (s : State) (p r c : Nat) (x : RecAt) (o : Origin) (kind : CopyKind) : Option Copy :=
  let q := s.partAt p
  let shape := if kind = .cpy2 then 8 else 0
  let raw := (range 0 (if kind = .cpy2 then 4 else 3)).map fun i => BitVec.ofNat 64 (x.pay (8 * i) 8)
  let dv := raw.getD 0 0
  let sv := raw.getD 1 0
  let len := raw.getD 2 0
  let sp := if kind = .listen ∨ kind = .speak then Space.spad else spaceOf sv.toNat
  let dp := if kind = .speak then Space.spad else spaceOf (x.num 16 8)
  let sva := if kind = .listen then 0 else descAddr sv
  let dva := if kind = .speak then 0 else x.addr
  let va := if sp = .dev then sva else dva
  let place := if sp = .dev ∨ dp = .dev then s.translate p r va (decide (dp = .dev)) (decide (sp = .dev)) else .hit 0
  match place with
  | .hit pa =>
    let column := columnOf pa
    let chunks := lenChunks len
    let (s0, p0) := copyBeats kind r sp dp column chunks
    let period := if sp = .dev then 2 ^ descLper sv else if dp = .dev then 2 ^ descLper dv else 1
    let two := (raw.getD 3 0).toNat
    let row := if kind = .cpy2 then max 1 (bits two 12 0) else if kind = .listen ∨ kind = .speak then 1 else max 1 chunks
    let started := (x.num 12 4).testBit 8
    let next := x.pay (24 + shape) 4
    let ring := if kind = .cpyq then
        some (x.pay 28 1, x.pay 29 1, BitVec.ofNat 8 (x.pay 29 1))
      else none
    let y : Copy :=
      { org := o, kind := kind, cls := x.num 2 1, start := x.act, started := started, sample0 := s0, perform0 := p0,
        period := period, chunks := chunks, srcSpace := sp, src := if sp = .dev then pa else sva, dstSpace := dp,
        dst := if dp = .dev then pa else dva, srcVa := sva, dstVa := dva, port := descPort (if sp = .dev then sv else dv),
        column := if sp = .dev ∨ dp = .dev then column else 0, rowLen := row,
        sStride := if kind = .cpy2 then bits two 63 48 else if kind = .speak then 1 else 0,
        dStride := if kind = .cpy2 then bits two 47 32 else if kind = .listen then 1 else 0,
        type := ((s.coreAt r c).bank (bankOf dva)).type, ring := ring, nextSample := next, nextPerform := 0, buf := [],
        suppressed := [], record := if next = 0 then [] else Mem.bytes (s.coreAt r c).spad dva 256, poisoned := false,
        first := bits sv.toNat 8 0, streams := bits sv.toNat 25 16, maxe := bits sv.toNat 39 32, step := q.step.serial,
        anchor := q.step.anchor, grants := grantsOf r c q.step.grants, cut := false, raw := raw }
    if started then
      let y := { y with start := x.act2 - (y.lastBeat - y.start) }
      let done := ((range 0 y.performs).filter fun n => y.performBeat n < x.f).length
      let first := 28 + shape + if ring.isSome then 2 else 0
      let kept := if kind = .cpysel ∨ kind = .speak then [] else range done (next - done)
      some { y with
        nextPerform := done
        buf := (kept.zip (range 0 kept.length)).map fun (n, i) => { idx := n, bytes := x.body (first + 256 * i) 256, poison := [] } }
    else some y
  | _ => none

/-- A collective that only its record knows, of word o; its sources sampled before are zeros, and its key is that of the next
of its tag. None where the partition has no such group. The frame holds neither.
(DESIGN CHOICE, log entry 99). -/
def State.newColl (s : State) (p : Nat) (x : RecAt) (o : Origin) : Option CollOp :=
  let raw := [0, 8, 20, 28].map fun off => BitVec.ofNat 64 (x.pay off 8)
  let f := collFields (raw.getD 2 0) (raw.getD 3 0)
  let fn := bits (x.num 12 4) 11 9
  (s.group p f.group).map fun g =>
    let (lc, lp) := g.members.getD 0 (0, 0)
    let next := x.pay 16 4
    { org := { o with issue := if next < f.chunks then x.act - 1 - next else x.f - 1 },
      shape := { fn := fn, type := f.type, chunks := f.chunks, root := f.root },
      key := { leaderChip := lc, leaderPart := lp, group := f.group, tag := f.tag, occurrence := s.occurrence p f.group f.tag },
      dstSpace := laneSpace (raw.getD 0 0), dst := x.addr, srcSpace := laneSpace (raw.getD 1 0), src := descAddr (raw.getD 1 0),
      due := x.act2, start := if next < f.chunks then x.act - 1 - next else x.f - 1, next := next, bytes := zeros (256 * next), poison := [],
      number := if x.pay 36 2 = 0 then none else some (x.pay 36 2), gen := x.pay 38 1, status := x.pay 39 1, rank := g.rank,
      size := 256 * resultChunks fn f.chunks g.members.length, started := false, result := none, entered := false,
      dropped := false, withdrawn := false, raw := raw }

/-- An MGRP's tiles in a payload with n chunks sampled: the groups, and how many of them have rows (R217). -/
def RecAt.groups (x : RecAt) (n : Nat) : Nat × Nat :=
  let table (g m : Nat) : List Byte := x.body (16 + 4 * g + 256 * min n 16 + 256 * (n - 16) * m) 16
  let ok (g m : Nat) : Bool :=
    groupsOk (table g m) && decide (((table g m).getD 8 0).toNat = g)
      && decide ((((table g m).take g).filter fun b => b ≠ 0).length = m)
  (((range 0 9).flatMap fun g => (range 0 (g + 1)).map fun m => (g, m)).find? fun y => ok y.1 y.2).getD (0, 0)

/-- An accumulating word that only its record knows, of word o: the chunks sampled are those before its next beat, and what
the record does not hold is as its word and the core's state give it.
(DESIGN CHOICE, log entry 99). -/
def RecAt.newAcc (x : RecAt) (k : Core) (o : Origin) : AccOp :=
  let w := x.num 12 4
  let major := bits w 28 23
  let g := k.gearFactor
  let left := (x.num 8 4 + 2 ^ 32 - x.num 4 4) % 2 ^ 32
  let n := if 25 * g ≤ left then 56 - left / g else 32
  let entry := (SMap.get 0 k.fregs ((k.kreg 6).toNat % 16)).toNat
  let scaled := decide (major ≤ 6) && w.testBit 4
  let side (bit : Nat) : List W16 := if (if major = 8 then entry.testBit bit else scaled) then List.replicate 64 0 else []
  let bank := bits (x.num 16 8) 5 0
  let type := (k.bank bank).type
  let rows := bits w 10 5 + 1
  let (gs, live) := if major = 9 then x.groups n else (1, 1)
  let table := x.body (16 + 4 * gs + 256 * min n 16 + 256 * (n - 16) * live) 16
  let cs := if major = 9 then ((table.take 8).map BitVec.toNat).take gs else [rows]
  let tiles := groupTiles 0 0 0 cs
  let y := x.accop
    { org := { o with track := .m, issue := x.act2 - 56 * g }, gear := g, cold := 0, start := x.act2 - 56 * g, last := 0, bank := bank, rows := cs.sum, cols := 0,
      fmt := sameFormat 0, acc := if type ≠ 0 then type else if major = 8 then accType (bits entry 17 16) else 1,
      mode := 0, sat := false, sA := side 18, sB := side 19, aAddr := 0, bTiles := tiles, next := n,
      aBytes := zeros (256 * min n 16),
      bBytes := tiles.map fun t => if t.count ≠ 0 then zeros (256 * (n - 16)) else [], w := x.act2, table := none,
      tableBytes := if major = 9 then zeros 16 else [], ringB := 0 }
  { y with fmt := { sameFormat y.fmt.a with b := y.fmt.b } }

/-- A flit that only its record knows: sampled already, or, with hops of its own choosing, still to be sampled; a record does
not hold the hops.
(DESIGN CHOICE, log entry 99). -/
def RecAt.newFlit (x : RecAt) (r c free : Nat) (o : Origin) : FrameItem :=
  let hops := bits (Config.openWord free).toNat 2 0
  if (x.num 12 4).testBit 4 then
    .unsent (x.unsent { org := o, lane := 0, acw := false, hops := hops, count := 1, sp := .spad, addr := 0, next := 0 } 0) 0
  else
    .flit (x.flit { org := o, lane := 0, acw := false, hops := 0, rope := r, dst := c, arrive := 0, bytes := [], poison := false })

/-- Records beyond those that were written, in core k, c of rope r: what they name, as issued before F in the records' order. -/
def State.readAdded (s : State) (p r c : Nat) (k : Core) (o : Origin) (fa f n : Nat) : List (Nat × FrameItem) :=
  (range n (min maxLatches (Mem.nat s.mem (fa + 28) 2) - n)).flatMap fun j =>
    let x : RecAt := { m := s.mem, a := fa + 0x4000 + 32 * j, pa := fa + payloadBase, f := f, f0 := f }
    let o := { o with track := trackOf (bits (x.num 1 1) 1 0), issue := f + j - (maxLatches + 1), word := BitVec.ofNat 32 (bits (x.num 12 4) 5 0 * 2 ^ 23) }
    (match x.num 0 1 with
      | 8 =>
        match copyFrom (bits (x.num 12 4) 5 0) with
        | some kind => ((s.newCopy p r c x o kind).map FrameItem.copy).toList
        | none => ((s.newColl p x o).map FrameItem.coll).toList
      | 9 => [.acc (x.newAcc k o)]
      | 10 => [x.newFlit r c s.free o]
      | _ => (x.latches k o default).map .latch).map fun it => (j, it)
where
  /-- The track of a rank. -/
  trackOf : Nat → Family
    | 0 => .s
    | 1 => .v
    | 2 => .m
    | _ => .c

/-- A modulo loop as its record at a reads, the track at word address pc; what the record does not hold is kept of old, or,
for a loop that was not running, is as if every word of the passes begun had issued unless the track stands inside the
kernel.
(DEDUCED, log entry 68). -/
def readModulo (m : SMap Byte) (a pc : Nat) (joint : Option MLoop → Bool) (old : Option MLoop) : MLoop :=
  let g (off n : Nat) : Nat := Mem.nat m (a + off) n
  let pass := if g 10 1 = 0 then g 7 3 else g 7 3 + 1
  let inside := decide (g 3 2 < pc) && decide (pc < g 3 2 + g 2 1)
  { ii := g 0 1, stages := g 1 1, k := g 2 1, n := g 5 2, body := g 3 2, pass := pass,
    next := if g 10 1 = 0 then 0 else g 0 1 - g 10 1,
    opp := match old with
      | some l => l.opp + pass - l.pass
      | none => if inside then pass - 1 else pass,
    joint := joint old, past := (old.map MLoop.past).getD 0 }

/-- The loops of a track from its record's loop state at a: as they were where it stands as it was written, else as
it reads. A KLOOP record with trip 0 holds no loop. -/
def readLoops (m : SMap Byte) (a pc : Nat) (joint : Option MLoop → Bool) (fam : Family) (t : Track) : Track :=
  let g (off n : Nat) : Nat := Mem.nat m (a + off) n
  if Mem.bytes m a 40 = fitBytes 40 t.loopBytes then { t with mloop := t.mloop.map fun l => { l with joint := joint (some l) } }
  else
    match fam with
    | .s =>
      { t with kloops := ((range 0 4).filterMap fun i =>
          if g (10 * i + 3) 3 = 0 then none
          else some { body := g (10 * i) 2, len := bits (g (10 * i + 2) 1) 4 0 + 1, kreg := bits (g (10 * i + 2) 1) 7 6,
                      trip := g (10 * i + 3) 3, count := g (10 * i + 6) 3 }).reverse }
    | .c => { t with cloop := some { body := g 0 2, len := g 2 1 + 1, trip := g 3 3, count := g 6 3 } }
    | _ => { t with mloop := some (readModulo m a pc joint t.mloop) }

/-- The beat of a track's (n+1)-th issue opportunity from beat f on. -/
def Core.nthOpportunity (k : Core) (t : Family) (f n : Nat) : Nat :=
  if k.opportunity t 1 then f + n else (f + 3) / 4 * 4 + 4 * n

/-- A macro run as a track record gives it: the parameters are those of the word at its program counter, which is the
MCALL's (R66, R139, R299). -/
def readMacro (old : Option MacroRun) (src : Nat → Option W32) (entry word pc : Nat) : MacroRun :=
  match old with
  | some r =>
    if r.callPc = pc then { r with entry := entry, word := word } else new
  | none => new
where
  /-- A run of the MCALL at pc. -/
  new : MacroRun :=
    let w := ((src pc).getD 0).toNat
    { entry := entry, word := word, p1 := bits w 16 11, p2 := bits w 10 5, p3 := bits w 4 0, callPc := pc }

/-- A track as its record at a gives it, for word o of its core; f0 is the beat that the record was written for. A
re-anchoring comes back with its beat as WAIT gives it; a BELAY that now waits has issued before F.
(DEDUCED, log entry 82). -/
def Core.readTrack (k : Core) (m : SMap Byte) (a f0 f : Nat) (joint : Option MLoop → Bool) (src : Nat → Option W32) (o : Origin) (fam : Family) :
    Track :=
  let g (off n : Nat) : Nat := Mem.nat m (a + off) n
  let old := k.track fam
  let fl := g 8 1
  let pc := g 0 4
  let t := readLoops m (a + 24) pc joint fam old
  let mac := if fl.testBit 1 then some (readMacro old.mac src (g 9 1) (g 10 1) pc) else none
  let after := match old.mac with
    | some r => if r.callPc = pc then old.pc else pc + 1
    | none => pc + 1
  let belay : Origin := { o with track := fam, pc := pc - 1, word := (src (pc - 1)).getD 0 }
  let kept := decide (Mem.bytes m (a + 4) 5 = ((k.trackBytes fam f0).drop 4).take 5) && decide (f = f0)
  { t with
    pc := if mac.isSome then after else pc, mac := mac,
    wait := if kept then old.wait else g 4 4, done := fl.testBit 0, live := !fl.testBit 0 && (t.live || t.done),
    belay := if fl.testBit 2 then some (t.belay.getD belay) else none,
    belays := t.belays + (if fl.testBit 2 ∧ t.belay.isNone then 1 else 0), held := fl.testBit 5,
    resync := if kept then old.resync else if fl.testBit 6 then some (f - 1, k.nthOpportunity fam f (g 4 4)) else none,
    join := if fl.testBit 3 then some (g 12 4, f + g 16 8) else none,
    mloop := if fl.testBit 4 then t.mloop else none, cloop := if fl.testBit 4 then t.cloop else none,
    kloops := if fl.testBit 4 then t.kloops else [] }

/-- Residues as RESUME generates them from the restored values (R332). -/
def restoredResidues (regs : SMap W64) : SMap (BitVec 4) :=
  (range 0 32).foldl (fun m i => SMap.set 0 m i (residueOf (SMap.get 0 regs i))) []

/-- A restored latch: its residue is generated anew, and a mismatch found before is not kept (R332).
(DEDUCED, log entry 82). -/
def Latch.restored (l : Latch) : Latch :=
  { l with
    bad := none
    eff := match l.eff with
      | .sreg n v _ => .sreg n v (residueOf v)
      | e => e }

/-- A byte memory read back from a range of device memory. -/
def Mem.copyOut (m : SMap Byte) (place lo n : Nat) : SMap Byte :=
  ((m.filter fun e => decide (place ≤ e.1) && decide (e.1 < place + n)).map fun e => (lo + (e.1 - place), e.2))

/-- A signed 8-byte distance from f; none where it says that there is nothing. -/
def readFar (m : SMap Byte) (a f : Nat) : Option Nat :=
  let x := Mem.nat m a 8
  if x = 2 ^ 63 then none else some ((f + x) % 2 ^ 64)

/-- The early-read table of a frame; its words are kept by place. -/
def readEarly (m : SMap Byte) (a f : Nat) (old : List ErEntry) : List ErEntry :=
  (range 0 64).filterMap fun i =>
    let g (off n : Nat) : Nat := Mem.nat m (a + 16 * i + off) n
    if g 15 1 = 0 then none
    else some { sp := if g 12 1 = 1 then .acc else .spad, lo := g 0 4, hi := g 4 4, perform := f + g 8 4,
                org := ((old[i]?).map ErEntry.org).getD default }

/-- The SENDs of a restored core: whole where all their flits stand as they were, else flit by flit; and flits of no SEND
that was frozen. -/
def keptSends (xs : List SendOp) (items : List FrameItem) : List SendOp :=
  let mine := items.filterMap fun it =>
    match it with
    | .unsent y n => some (y, n)
    | _ => none
  let same (x : SendOp) (y : SendOp × Nat) : Bool := decide (y.1.org.pc = x.org.pc) && decide (y.1.org.track = x.org.track)
  let alone (ys : List (SendOp × Nat)) : List SendOp := ys.map fun (y, n) => { y with next := n, count := n + 1 }
  (xs.flatMap fun x =>
    if (range x.next (x.count - x.next)).all fun n => mine.contains (x, n) then [x] else alone (mine.filter (same x)))
  ++ alone (mine.filter fun y => !xs.any fun x => same x y)

/-- The collectives of a restored core: those frozen (was), as they stand now, with what a debugger changed, and those that
it added; an urgent step froze none that had still to perform (R297). -/
def keptColls (now was : List CollOp) (items : List FrameItem) : List CollOp :=
  let mine := items.filterMap fun it =>
    match it with
    | .coll y => some y
    | _ => none
  (mine.filter fun z => !was.any fun w => w.org = z.org) ++ was.filterMap fun w =>
    let y := (now.find? fun z => z.org = w.org).getD w
    if y.due = 0 then some y
    else
      (mine.find? fun z => z.org = w.org).map fun z =>
        if z = w then y
        else { y with dst := z.dst, due := z.due, start := z.start, next := z.next, number := z.number, gen := z.gen, status := z.status, raw := z.raw }

/-- The core that a frame at fa gives back, from the core as it was frozen and as it stands now, and the frame's items
(R302); q is its partition and o a word of it. Code store and telemetry are no part of a frame, and a halted step's
collectives went on. A settle window that only the frame knows leads to the other gear.
(DEDUCED, log entry 82). -/
def State.readCore (s : State) (fa f0 f : Nat) (q : Partition) (k now : Core) (o : Origin) (items : List FrameItem) : Core :=
  let m := s.mem
  let g (off n : Nat) : Nat := Mem.nat m (fa + off) n
  let sregs := SMap.drop (readRegs m (fa + 0x200) 32) 0
  let freed := items.filterMap fun it =>
    match it with
    | .latch l => match l.eff with
      | .free b _ => some b
      | _ => none
    | _ => none
  let unnamed := k.latches.filter fun l =>
    match l.eff with
    | .free b _ => !freed.contains b
    | _ => (l.toRec k f0).isNone
  let bank (i : Nat) : Bank :=
    { type := if (g (0x602 + 8 * i) 1).testBit 0 then BitVec.ofNat 6 (g (0x600 + 8 * i) 1) else 0,
      owners := BitVec.ofNat 8 (g (0x601 + 8 * i) 1),
      freeFrom := if g (0x604 + 8 * i) 4 = 0 ∧ (k.bank i).freeFrom ≤ f0 then min (k.bank i).freeFrom f
        else signedBeat f (g (0x604 + 8 * i) 4) }
  let last := readFar m (fa + 56) f
  let bit := (g (0x5C0 + 20) 1).testBit 2
  let joint : Option MLoop → Bool
    | some l => if bit = (k.v.mloop.isSome && k.m.mloop.isSome) then l.joint else bit
    | none => bit
  let tracks (fam : Family) : Track :=
    k.readTrack m (fa + 0x100 + 64 * trackRank fam) f0 f joint (now.source q) o fam
  { k with
    sregs := sregs, sres := restoredResidues sregs, kregs := readRegs m (fa + 0x300) 8,
    dregs := readRegs m (fa + 0x340) 32,
    qregs := (range 0 8).foldl (fun r i => SMap.set 0 r i (ringFields (BitVec.ofNat 64 (g (0x440 + 8 * i) 8)))) [],
    fregs := (range 0 16).foldl (fun r i => SMap.set 0 r i (entryFields (BitVec.ofNat 32 (g (0x480 + 4 * i) 4)))) [],
    sA := (range 0 64).foldl (fun r i => SMap.set 0 r i (BitVec.ofNat 16 (g (0x4C0 + 2 * i) 2))) [],
    sB := (range 0 64).foldl (fun r i => SMap.set 0 r i (BitVec.ofNat 16 (g (0x540 + 2 * i) 2))) [],
    preds := (range 0 128).foldl (fun r i => SMap.set 0 r i (BitVec.ofNat 256 (g (0x2000 + 32 * i) 32))) [],
    rb := g 40 1, pb := g 41 1, vwin := g (0x5C0 + 18) 1, wwin := g (0x5C0 + 19) 1,
    omap := BitVec.ofNat 3 (g (0x5C0 + 17) 1), mmode := BitVec.ofNat 3 (g (0x5C0 + 16) 1),
    msat := (g (0x5C0 + 16) 1).testBit 3, status := BitVec.ofNat 64 (g 0x5C0 8) &&& 0x1F,
    dom := BitVec.ofNat 64 (g (0x5C0 + 8) 8) &&& 0x707, low := (g 33 1).testBit 0,
    window := if (g 33 1).testBit 1 then
        some { opened := f + g 34 1 - 128, low := (k.window.map Settle.low).getD (!(g 33 1).testBit 0) }
      else none,
    busyTo := readFar m (fa + 48) f,
    ramps := if last = k.ramps.head? then k.ramps else last.toList,
    ertab := readEarly m (fa + 0x3000) f k.ertab,
    banks := (range 0 64).foldl (fun b i => SMap.set { type := 0, owners := 0, freeFrom := 0 } b i (bank i)) [],
    tags := (range 0 2048).foldl (fun t i =>
      SMap.set { tag := 0, full := false } t i
        { tag := BitVec.ofNat 8 (g (0x1000 + 2 * i) 1), full := (g (0x1001 + 2 * i) 1).testBit 0 }) [],
    macros := (range 0 64).foldl (fun t e =>
      SMap.set { header := 0, slots := [] } t e
        { header := macroHeader (g (0x8000 + 8 * e) 8), slots := wordsFrom m (fa + 0x8200 + 128 * e) 0 [] 32 }) [],
    spad := Mem.copyOut m (fa + 0x10000) 0 spadEnd,
    acc := (range 0 64).flatMap fun b =>
      if (g (0x602 + 8 * b) 1).testBit 0 then Mem.copyOut m (fa + 0x60000 + 0x4000 * b) (0x4000 * b) 0x4000
      else k.acc.filter fun e => e.1 / 0x4000 = b,
    latches := (items.filterMap fun
      | .latch l => some l.restored
      | _ => none) ++ unnamed,
    copies := items.filterMap fun
      | .copy x => some x
      | _ => none,
    accops := items.filterMap fun
      | .acc x => some x
      | _ => none,
    sends := keptSends k.sends items, colls := keptColls now.colls k.colls items,
    code := now.code, codeEcc := now.codeEcc, tele := now.tele,
    s := tracks .s, v := tracks .v, m := tracks .m, c := tracks .c }

end Sys2Proof.Machine
end

