-- ==== Sys2Proof/Machine/Preempt.lean ====
section
/-!
DEFINITION. Pre-emption, the debugger's halt and the debug freeze (R171, R297 to R307): the freeze before a
beat, the urgent step, RESUME and the restart, HALT and RUN, FREEZE and THAW.
-/

namespace Sys2Proof.Machine

/-! ## The freeze (R297, R298) -/

/-- Set and cause code of a freeze (R298). -/
def FreezeCause.set : FreezeCause → Nat
  | .urgent => 0
  | .debugger => 1

/-- The partition is frozen before its present beat: every core writes its frame, the grid controller keeps
the step, and each rope's service context is entered (R297). -/
def State.freezeAt (s : State) (p : Nat) (cause : FreezeCause) : State :=
  let set := cause.set
  let s := (s.partAt p).coreIds.foldl (fun s (r, c) => s.writeFrame p r c (set + 1) set) s
  let q := s.partAt p
  let f : Frozen :=
    { cause := cause, beat := q.topo, since := s.wall, step := q.step, plan := q.plan, phase := q.phase, stage := q.stage,
      speak := q.speak, flip := q.flip, xstep := q.xstep, counts := q.counts, strtFs := q.strtFs, flits := q.flits, overlaps := q.overlaps,
      cores := q.coreIds.foldl (fun m (r, c) => SMap.set Core.reset m (8 * r + c) (s.coreAt r c)) [], ran := false,
      began := s.wall, at_ := (q.frame, q.slot) }
  (s.onPart p fun q => { q with frozen := f :: q.frozen }).enterAll p 3 fun r => s.frameSet r set

/-- The grid of a partition is paused by a debugger halt (R305). -/
def Partition.paused (q : Partition) : Bool := q.frozen.any fun f => decide (f.cause = .debugger) && !f.ran

/-- The urgent step on top of a frozen one is over, or cannot begin any more. -/
def Partition.urgentDone (q : Partition) (f : Frozen) : Bool :=
  q.slotGone f || (decide (q.phase = .over) && q.step.bound)

/-- The counter of a partition is stopped: by a hold, a halt, a pre-emption with no urgent step running, or the
wait of a RESUME (R287, R297, R302). -/
def Partition.stopped (q : Partition) : Bool :=
  q.hold.isSome || q.resumeWait.isSome ||
    match q.frozen with
    | [] => false
    | f :: _ =>
      match f.cause with
      | .debugger => true
      | .urgent => q.slotGone f || decide (q.phase = .over)

/-! ## BREAK and HALT (R171, R297) -/

/-- BRK of a context's FLAGS (R278). -/
def State.breaks (s : State) (c : Nat) : Bool := (s.desc c 3 1).testBit 0

/-- The trap record of a BREAK: its detail is the code; the spec gives it no class (R171, R292).
(DESIGN CHOICE, log entry 11). -/
def State.breakRecord (s : State) (p : Nat) (o : Origin) (code : Nat) : State :=
  let q := s.partAt p
  let f : FaultRec := { cls := .illegal, org := o, detail := BitVec.ofNat 64 code, detail2 := 0, beat := q.topo, svc := false }
  let bs := (trapRecord p q s.wall f).set 0 ((Config.openWord s.free).setWidth 8)
  let s := (s.onPart p fun q => { q with traps := q.traps + 1 }).putDev (trapAddr (s.ctxbase.getD 0) p q.traps) bs
  { s with free := s.free + 1 }

/-- BREAK enters a debugger halt at itself while the context's break enable is set; else it only spends its
opportunity (R171). A service context has no context. -/
def execBreak (_g : BitVec 3) (code : BitVec 8) (s : State) : Out :=
  if !s.cur.svc ∧ s.breaks s.part.runner.ctx then
    .next ((s.breakRecord s.cur.part s.org code.toNat).freezeAt s.cur.part .debugger)
  else .next s.retire

/-- HALT: the partition freezes before the first beat reached after the request (R297). -/
def execHalt (p : Nat) (s : State) : Out := .next (s.onPart p fun q => { q with haltAsked := true })

/-- A debugger halt that HALT asked for takes the partition. -/
def State.haltAt (s : State) (p : Nat) : State :=
  (s.onPart p fun q => { q with haltAsked := false }).freezeAt p .debugger

/-! ## Urgent steps (R297, R304) -/

/-- The present beat is one of the step's check beats (R297). -/
def Partition.checkBeat (q : Partition) : Bool :=
  decide (q.step.anchor + 1024 ≤ q.topo) && decide (q.topo ≤ q.rendezBeat) && decide ((q.topo - q.step.anchor) % 1024 = 0)

/-- A collective of the partition's step is issued and not yet performed. -/
def State.collPending (s : State) (p : Nat) : Bool :=
  (s.partAt p).coreIds.any fun (r, c) => (s.coreAt r c).colls.any fun x => decide (x.due ≠ 0)

/-- The oldest priority-3 request that may pre-empt the running step (R297). -/
def Partition.urgentRequest (q : Partition) : Option (XReq × Nat) :=
  (sortBy (fun (a b : XReq) => decide (a.seq < b.seq)) (q.xqueue.filter fun x => decide (x.prio = 3) && decide (x.ctx ≠ q.step.ctx))).findSome?
    fun x => (q.takes x.ctx).map fun i => (x, i)

/-- A rope flit of the partition is in flight: sampled, or still held by its SEND (R297, R300).
(DEDUCED, log entry 69). -/
def State.flitsPending (s : State) (p : Nat) : Bool :=
  let q := s.partAt p
  !q.flits.isEmpty || q.coreIds.any fun (r, c) => !(s.coreAt r c).sends.isEmpty

/-- The pre-emption that the present beat takes. -/
def State.urgentDue (s : State) (p : Nat) : Option (XReq × Nat) :=
  let q := s.partAt p
  if q.phase = .run ∧ q.step.kind = .owned ∧ q.step.outcome = .open_ ∧ !q.step.preempted ∧ q.mark = 0 ∧ q.hold.isNone
      ∧ q.fault.isNone ∧ q.checkBeat ∧ !s.flitsPending p ∧ !s.collPending p then
    q.urgentRequest
  else none

/-- URGENT_PREEMPTION: at a check beat with a request to serve, the partition freezes for an urgent step
(R297). -/
def execUrgentPreemption (p : Nat) (s : State) : Out :=
  match s.urgentDue p with
  | some (x, i) =>
    let s := (s.onPart p fun q => { q with step := { q.step with preempted := true } }).freezeAt p .urgent
    .next (s.onPart p fun q =>
      { q with plan := some (.urgent, i), phase := .over, xqueue := q.xqueue.filter fun y => y.ctx ≠ x.ctx,
               step := { q.step with outcome := .none, bound := false, todo := [], published := [] }, stage := [], speak := [],
               flip := false, xstep := none, flits := [], overlaps := [] })
  | none => .next s

/-- Every rope's firmware has done its part: it waits, or stands at RESUME. -/
def State.firmwareIdle (s : State) (p : Nat) : Bool :=
  (s.partAt p).ropes.all fun r => !(s.svcAt r).active || (s.svcAt r).resumeAt.isSome

/-- URGENT_STEP: the urgent step's TURN follows, unless the deadline has passed (R304). -/
def execUrgentStep (p : Nat) (s : State) : Out :=
  let q := s.partAt p
  match q.frozen, q.plan with
  | f :: _, some (.urgent, _) =>
    if f.cause = .urgent ∧ q.phase = .over ∧ !q.step.bound ∧ s.firmwareIdle p then
      .next (s.onPart p fun q =>
        if q.deadlined then { q with step := { q.step with bound := true } } else { q with phase := .lead })
    else .next s
  | _, _ => .next s

/-- Firmware is entered again where it has returned without RESUME: the partition's ropes run RESUME after
the urgent step (R304).
(DEDUCED, log entry 50). -/
def State.callResume (s : State) (p : Nat) : State :=
  (s.partAt p).ropes.foldl (fun s r =>
    if (s.svcAt r).active then s else s.enterService r 3 (s.frameSet r 0)) s

/-! ## RESUME (R302, R303) -/

/-- RESUME: the rope's service context waits until every rope of the partition has issued it. Where nothing is
frozen it has nothing to restore. Its register is an address, whose residue is judged on b (R333).
(DEDUCED, log entry 50). -/
def execResume (_g : BitVec 3) (a : BitVec 5) (s : State) : Out :=
  serviceOnly (fun s =>
    let set := (s.core.sreg a).toNat
    match s.core.baseBad [a] (Space.dev.tagged set) with
    | some x => .next (s.raise .residue x.1 x.2)
    | none =>
      let s := s.retire
      if s.part.frozen.isEmpty then .next s
      else .next (s.setSvc s.cur.rope { s.svcAt s.cur.rope with resumeAt := some set })) s

/-- The frozen step may be restored: every rope has issued RESUME, and the urgent step or the halt is over. -/
def State.resumeDue (s : State) (p : Nat) : Bool :=
  let q := s.partAt p
  match q.frozen with
  | f :: _ =>
    q.resumeWait.isNone && q.ropes.all (fun r => (s.svcAt r).resumeAt.isSome) &&
      match f.cause with
      | .debugger => f.ran
      | .urgent => q.urgentDone f
  | [] => false

/-- Address of a core's frame in the set its rope's RESUME names. -/
def State.resumeFrame (s : State) (r c : Nat) : Nat := (s.svcAt r).resumeAt.getD 0 + frameSize * c

/-- The first bad frame: rope, core and offset (R303). -/
def State.badFrame (s : State) (p : Nat) : Option (Nat × Nat × Nat) :=
  let ids := (s.partAt p).coreIds
  let f := match ids with
    | (r, c) :: _ => Mem.nat s.mem (s.resumeFrame r c + 8) 8
    | [] => 0
  ids.findSome? fun (r, c) => (s.frameBad (s.resumeFrame r c) c f).map fun off => (r, c, off)

/-- The frozen step takes its place again. -/
def Partition.unfreeze (q : Partition) (f : Frozen) (rest : List Frozen) : Partition :=
  let gone := q.slotGone f
  { q with
    mark := 0, phase := if gone then q.phase else f.phase, plan := if gone then q.plan else f.plan, step := f.step,
    stage := f.stage, speak := f.speak, flip := f.flip, xstep := f.xstep, counts := f.counts, strtFs := f.strtFs,
    flits := f.flits, overlaps := f.overlaps, frozen := rest }

/-- A restored item whose page is absent: PENDING-XLAT in record j of the frame at fa, and its walk starts (R301).
(DEDUCED, log entry 69). -/
def State.pendItem (s : State) (p r c fa j : Nat) (it : FrameItem) (x : LatchRec) : State :=
  match x.device with
  | some (va, w, rd) =>
    if s.translate p r va w rd = .missing then
      let a := fa + 0x4000 + 32 * j + 1
      let s : State := { s with mem := Mem.putNat s.mem a 1 (setBits (Mem.nat s.mem a 1) 4 4 1) }
      let s := match it with
        | .copy y => s.onCore r c fun k => { k with copies := k.copies.map fun z => if z = y then { z with pending := true } else z }
        | _ => s
      s.startWalk { part := p, rope := r, idx := (s.partAt p).step.resident, va := va, write := w, read := rd, prefetch := none }
    else s
  | none => s

/-- Beat periods of the gears' settling before the restart (R302). -/
def settlePeriods : Nat := 128

/-- Core c of rope r comes back from its frame; k is the core as it was frozen, now as it stands (R301, R302). -/
def State.restoreCore (s : State) (p r c fa f0 f : Nat) (k now : Core) : State :=
  let s := s.setCoreAt r c k
  let written := s.frameItems p r c f0
  let o : Origin := { rope := r, core := c, track := .s, issue := f - 1, pc := k.s.pc, mac := none, word := 0 }
  let items := readItems s.mem k fa f0 f 0 0 written ++ s.readAdded p r c k o fa f written.length
  let k := s.readCore fa f0 f (s.partAt p) k now o (items.map (·.2))
  items.foldl (fun s (j, it) =>
    match s.recOf k f it with
    | some x => s.pendItem p r c fa j it x
    | none => s) (s.setCoreAt r c k)

/-- The flits of a frame's items stand in the partition. -/
def State.restoreFlits (s : State) (p : Nat) (f : Frozen) (fa : Nat × Nat → Nat) (beat : Nat) : State :=
  let q := s.partAt p
  let mine := q.coreIds.flatMap fun (r, c) =>
    let k := s.coreAt r c
    let written := s.frameItems p r c f.beat
    let o : Origin := { rope := r, core := c, track := .c, issue := beat - 1, pc := k.c.pc, mac := none, word := 0 }
    (readItems s.mem k (fa (r, c)) f.beat beat 0 0 written
      ++ s.readAdded p r c k o (fa (r, c)) beat written.length).filterMap fun (_, it) =>
      match it with
      | .flit y => some y
      | _ => none
  s.onPart p fun q => { q with flits := mine }

/-- Every frame is checked and restored, and the frozen step takes its place; the restart follows after the restoring,
which takes a time of the device's own, and the settling of the gears (R302). A bad frame raises the bivouac fault, and
the abandoned step goes on from what was kept of it, and from its collectives as a halt left them (R294, R303, R305).
(DEDUCED, log entry 51). -/
def State.resumeAll (s : State) (p : Nat) : State :=
  let q := s.partAt p
  match q.frozen with
  | [] => s
  | f :: rest =>
    let kept (r c : Nat) : Core :=
      { SMap.get Core.reset f.cores (8 * r + c) with
        code := (s.coreAt r c).code, codeEcc := (s.coreAt r c).codeEcc, tele := (s.coreAt r c).tele }
    match s.badFrame p with
    | some (r, c, off) =>
      let fa := s.resumeFrame r c
      let k := (s.svcAt r).seq
      let o : Origin := { rope := r, core := 0, track := .s, issue := (s.svcAt r).period, pc := k.s.pc - 1, mac := none,
                          word := (s.firmwareAt (k.s.pc - 1)).getD 0 }
      let s := (s.quiet p).onPart p fun q => { q.unfreeze f rest with topo := f.beat }
      let came (now : List CollOp) (k : Core) : Core :=
        { k with colls := k.colls.map fun w => (now.find? fun z => z.org = w.org).getD w }
      let back (r c : Nat) : Core := if f.cause = .debugger then came (s.coreAt r c).colls (kept r c) else kept r c
      (q.coreIds.foldl (fun s (r, c) => s.setCoreAt r c (back r c)) s).raiseService p .bivouac o fa off
    | none =>
      let fa (x : Nat × Nat) : Nat := s.resumeFrame x.1 x.2
      let head (off n old : Nat) : Nat := match q.coreIds with
        | x :: _ => Mem.nat s.mem (fa x + off) n
        | [] => old
      let beat := head 8 8 f.beat
      let step := { f.step with anchor := head 16 8 f.step.anchor, rdz := head 24 4 f.step.rdz }
      let t := s.onPart p fun q => { q.unfreeze { f with step := step } rest with topo := beat }
      let t := (q.coreIds.foldl (fun t (r, c) => t.setCoreAt r c (kept r c)) t).restoreFlits p f fa beat
      let t := q.coreIds.foldl (fun t (r, c) =>
        t.restoreCore p r c (fa (r, c)) f.beat beat (kept r c) (if f.cause = .debugger then s.coreAt r c else kept r c)) t
      let wait := Config.restorePeriods t.free + settlePeriods
      { (t.quiet p).onPart p fun q => { q with resumeWait := some (t.wall + wait * 625000, f.since) } with free := t.free + 1 }

/-- The counter restarts at F; the event is counted (R289, R302). -/
def State.restart (s : State) (p : Nat) : State :=
  s.onPart p fun q =>
    match q.resumeWait with
    | some (_, since) =>
      { q with resumeWait := none,
               counts := { q.counts with preh := q.counts.preh + 1, pret := q.counts.pret + periodsUp (s.wall - since) } }
    | none => q

/-! ## RUN (R305) -/

/-- RUN: the halt ends, the epoch moves later by its duration, and firmware is entered to RESUME (R304, R305). -/
def execRun (p : Nat) (s : State) : Out :=
  let q := s.partAt p
  match q.frozen with
  | f :: rest =>
    if f.cause = .debugger ∧ !f.ran then
      let d := s.wall - f.began
      .next ((s.onPart p fun q =>
        { q with epoch := q.epoch + d / fsNs, slotStart := q.slotStart + d, slotEnd := q.slotEnd + d,
                 frameStart := q.frameStart + d, local_ := true, frozen := { f with ran := true } :: rest }).enterAll p 4
        fun r => s.frameSet r 1)
    else .next s
  | [] => .next s

/-! ## FREEZE and THAW (R306, R354) -/

/-- Every clock of the device is stopped: by FREEZE or by a thermal TRIP. -/
def State.halted (s : State) : Bool := s.frozen || decide (s.thermal = .trip)

/-- FREEZE stops every clock. -/
def execFreeze (s : State) : Out :=
  .next { s with frozen := true, frozenSince := if s.halted then s.frozenSince else s.wall }

/-- The present slot is skipped: its step is abandoned, nothing is released, and the first later release of
each of its streams carries SKIPPED (R42, R306). A step that had committed before the freeze keeps its commit: Q and lag do
not move all the same.
(DESIGN CHOICE, log entry 92). -/
def State.skipSlot (s : State) (p : Nat) : State :=
  let q := s.partAt p
  let s := match q.slotStep.2 with
    | some (.owned, i) =>
      let c := (q.res i).ctx
      { s with skipped := s.skipped ++ ((s.actives c).filter fun sid => !s.skipped.contains (c, sid)).map fun sid => (c, sid) }
    | _ => s
  let s := if q.stepOpen then s.abandon p else s.stopHold p
  s.onPart p fun q =>
    { q with deadlined := true, skipped := true, frozen := q.frozen.map Frozen.abandon,
             plan := if q.phase = .lead then none else q.plan, phase := if q.phase = .lead then .over else q.phase }

/-- A slot whose end has come settles what it leaves; slots whose start fell within the freeze are passed over one by
one, and the last of them idles to its end. -/
def State.passSlots (p : Nat) : Nat → State → State
  | 0, s => s
  | n + 1, s =>
    let q := s.partAt p
    if q.slotEnd ≤ s.wall then
      let s := if q.phase ≠ .gap ∧ !q.released then s.release p else s
      let s := s.enterNext p
      State.passSlots p n (if (s.partAt p).phase = .gap then s else s.skipSlot p)
    else s

/-- Waits that a freeze does not count move later by its duration (R289, R307), and so do the service contexts' clocks,
which it stopped. -/
def Partition.shiftWaits (q : Partition) (d : Nat) : Partition :=
  { q with hold := q.hold.map fun h => { h with since := h.since + d },
           resumeWait := q.resumeWait.map fun x => (x.1 + d, x.2 + d),
           frozen := q.frozen.map fun f => { f with since := f.since + d } }

/-- One partition's grid at the thaw (R306).
(DESIGN CHOICE, log entry 53). -/
def State.thawPart (s : State) (p d : Nat) : State :=
  let s := s.onPart p fun q => q.shiftWaits d
  let s := (s.partAt p).ropes.foldl (fun s r => s.setSvc r { s.svcAt r with clock := (s.svcAt r).clock + d / 625000 }) s
  let q := s.partAt p
  if !q.running ∨ q.paused then s
  else
    let s := if q.phase ≠ .gap ∧ !q.deadlined ∧ q.slotEnd ≤ s.wall + deadlineFs then s.skipSlot p else s
    s.passSlots p ((s.wall - q.slotEnd) / (50 * fsUs) + 2)

/-- The clocks restart. -/
def State.thawAll (s : State) : State :=
  let d := s.wall - s.frozenSince
  (range 0 s.nparts).foldl (fun s p => s.thawPart p d) s

/-- THAW: the clocks restart, unless a TRIP still stops them (R306, R354). -/
def execThaw (s : State) : Out :=
  if s.frozen then
    let s := { s with frozen := false }
    .next (if s.halted then s else s.thawAll)
  else .next s

end Sys2Proof.Machine
end

