-- ==== Sys2Proof/Machine/Fabric.lean ====
section
/-!
DEFINITION. The pod fabric (R344, R362, R365 to R375): 1588 messages and step marks, the sequencer with its
standby, start numbers, the start and the results of collectives, heartbeats and failover.
-/

namespace Sys2Proof.Machine

/-! ## 1588 time and step marks (R362, R366) -/

/-- PTP_MESSAGE: a message of the configured domain and the peer-to-peer mechanism steps the device's one
clock; any other is ignored (R362). -/
def execPtpMessage (domain : Nat) (peerToPeer : Bool) (stepNs : Int) (s : State) : Out :=
  if domain = s.domain ∧ peerToPeer then .next { s with wall := ((s.wall : Int) + stepNs * fsNs).toNat } else .next s

/-- STEP_MARK: the mark of the present frame measures its offset, and is judged where no judgement stands; a mark whose
frame has not started waits for it; any other tells nothing (R366).
(DEDUCED, log entry 54). -/
def execStepMark (p _gen frame time : Nat) (s : State) : Out :=
  let q := s.partAt p
  if s.aligns p ∧ q.running then
    if q.phase ≠ .gap ∧ frame = q.frame then
      let e := q.offset time
      let good := decide (s.wall ≤ q.frameStart + markWindow) && decide (e.natAbs ≤ markOffset)
      .next (s.setPart p (if q.marked then q.correct e else (q.correct e).judge good))
    else .next (s.onPart p fun q => { q with early := some (frame, time) })
  else .next s

/-- The mark that 64 bytes are (R365). -/
noncomputable def markOf (bs : List Byte) : Option Instr :=
  let f (off n : Nat) : Nat := leNat ((bs.drop off).take n)
  if bs.length = 64 ∧ f 0 4 = markMagic then some (.stepMark (f 4 1) (f 5 1) (f 8 8) (f 16 8)) else none

/-- STEP_MARK_TIMEOUT: no mark came within 10 µs of the frame start (R366). -/
def execStepMarkTimeout (p : Nat) (s : State) : Out :=
  let q := s.partAt p
  if s.aligns p ∧ q.running ∧ !q.marked ∧ q.frameStart + markWindow < s.wall then .next (s.onPart p fun q => q.judge false)
  else .next s

/-! ## Number order (R369) -/

/-- Number a precedes number b. -/
def precedes (a b : Nat) : Bool :=
  let d := (b + 65536 - a % 65536) % 65536
  decide (1 ≤ d) && decide (d ≤ 32767)

/-- A number's place in a message that carries none (R375). -/
def noNumber : Nat := 65536

/-- Null statuses (R242). -/
def stCancelled : Nat := 4
def stPeerAbandoned : Nat := 5

/-! ## The sequencer (R368, R369, R373) -/

/-- This chip is the sequencer. -/
def State.isSeq (s : State) : Bool := decide (s.fabric.seqChip = s.pod.chip)

/-- This chip is the standby. -/
def State.isStandby (s : State) : Bool := decide (s.pod.stby = s.pod.chip) && decide (s.pod.stby ≠ s.pod.seq)

/-- The sequencer has a standby to wait for. -/
def State.hasStandby (s : State) : Bool := decide (s.pod.stby ≠ s.pod.seq) && decide (s.fabric.seqChip = s.pod.seq)

/-- Change the fabric. -/
def State.onFabric (s : State) (f : Fabric → Fabric) : State := { s with fabric := f s.fabric }

/-- Send a collective's number to every member. -/
def State.sendNumber (s : State) (x : SeqColl) : State :=
  x.members.foldl (fun s d => s.send d (.number d x.number x.gen x.key x.nullStatus)) s

/-- Replace a collective of the sequencer. -/
def Fabric.put (f : Fabric) (x : SeqColl) : Fabric := { f with colls := f.colls.map fun y => if y.key = x.key then x else y }

/-- The sequencer knows a collective to be complete at every member. -/
def SeqColl.done (x : SeqColl) : Bool := x.members.all x.complete.contains

/-- The number that the sequencer would assign next, if the window has room (R368, R369). -/
def State.nextNumber (s : State) : Option Nat :=
  let n := match s.fabric.last with
    | some l => (l + 1) % 65536
    | none => s.pod.start
  let open_ := s.fabric.colls.filter fun x => !x.done
  if open_.all fun x => decide ((n + 65536 - x.number) % 65536 < 32768) then some n else none

/-- Assign a number to a key: it goes to the standby first, where there is one (R368). -/
def State.assign (s : State) (key : CollKey) (shape : CollShape) (chips : List Nat) (n : Nat) : State :=
  let x : SeqColl := { key := key, shape := shape, number := n, gen := s.fabric.gen, sent := !s.hasStandby,
                       members := chips, complete := [], nullStatus := 0 }
  let s := s.onFabric fun f => { f with last := some n, colls := f.colls ++ [x] }
  if s.hasStandby then s.send s.pod.stby (.toStandby s.pod.stby n x.gen key shape chips) else s.sendNumber x

/-- A numbered collective runs as null at every member (R344, R368, R373). -/
def State.nullify (s : State) (x : SeqColl) (status : Nat) : State :=
  if x.nullStatus ≠ 0 then s
  else
    let x := { x with nullStatus := status }
    let s := s.onFabric fun f => f.put x
    if x.sent then s.sendNumber x else s

/-- A key is removed unnumbered, and its requesters see CANCELLED (R375). -/
def State.refuseKey (s : State) (key : CollKey) (chips : List Nat) : State :=
  chips.foldl (fun s d => s.send d (.number d noNumber s.fabric.gen key stCancelled)) s

/-- SEQUENCER_REQUEST: a request is numbered, joins its collective, or waits for room (R368, R369, R373). A request
carries the member chips of its sender's group record.
(DESIGN CHOICE, log entry 53). -/
def execSequencerRequest (chip part : Nat) (key : CollKey) (ask : CollAsk) (s : State) : Out :=
  let shape := ask.shape
  let chips := ask.chips
  if !s.isSeq then .next s
  else
    match s.fabric.colls.find? fun x => x.key = key with
    | some x => .next (if x.shape = shape then s else s.nullify x stCancelled)
    | none =>
      match s.fabric.deferred.find? fun d => d.2.2.1 = key with
      | some _ => .next (s.onFabric fun f => { f with deferred := f.deferred ++ [(chip, part, key, shape, chips)] })
      | none =>
        if chips.any s.fabric.lost.contains then .next (s.refuseKey key chips)
        else
          match (if s.fabric.deferred.isEmpty then s.nextNumber else none) with
          | some n => .next (s.assign key shape chips n)
          | none => .next (s.onFabric fun f => { f with deferred := f.deferred ++ [(chip, part, key, shape, chips)] })

/-- STANDBY_ACK: the number goes to every member (R368). -/
def execStandbyAck (number : Nat) (s : State) : Out :=
  match s.fabric.colls.find? fun x => decide (x.number = number) && !x.sent with
  | some x =>
    let x := { x with sent := true }
    .next ((s.onFabric fun f => f.put x).sendNumber x)
  | none => .next s

/-- DEFERRED_NUMBERING: the oldest deferred request is numbered when the window has room; the others of its key
join it (R369). -/
def execDeferredNumbering (s : State) : Out :=
  match s.fabric.deferred, s.nextNumber with
  | (_, _, key, shape, chips) :: ds, some n =>
    let same := ds.filter fun d => d.2.2.1 = key
    let s := (s.onFabric fun f => { f with deferred := ds.filter fun d => d.2.2.1 ≠ key }).assign key shape chips n
    match s.fabric.colls.find? fun x => x.key = key with
    | some x => .next (if same.all fun d => d.2.2.2.1 = shape then s else s.nullify x stCancelled)
    | none => .next s
  | _, _ => .next s

/-- COLL_WITHDRAWAL: an unnumbered key is removed; a numbered one whose sources were not all sampled runs as null
(R344). -/
def execCollWithdrawal (_chip : Nat) (key : CollKey) (sampled : Bool) (s : State) : Out :=
  if !s.isSeq then .next s
  else
    match s.fabric.colls.find? fun x => x.key = key with
    | some x => .next (if sampled then s else s.nullify x stPeerAbandoned)
    | none => .next (s.onFabric fun f => { f with deferred := f.deferred.filter fun d => d.2.2.1 ≠ key })

/-! ## Results (R240, R371) -/

/-- Lanes of a TYPE. -/
def collLanes (type : Nat) (bs : List Byte) : List Nat :=
  let z := elemSize (BitVec.ofNat 6 type)
  (pieces z bs.length bs).map leNat

/-- The greater of two elements: R186 for floating point, signed order for INT32. -/
def collMax (t : BitVec 6) (a b : Nat) : Nat :=
  if isInt t then (if signedOf 32 a < signedOf 32 b then b else a) else fMax t a b

/-- One element of a rank-ordered reduction step. -/
def collStep (fn : Nat) (t : BitVec 6) (a b : Nat) : Nat :=
  if fn = 1 then collMax t a b else if isInt t then iAdd t a b else fAdd t a b

/-- A reduction over sources in rank order. -/
def reduceSources (fn : Nat) (type : Nat) : List (List Byte) → List Byte
  | [] => []
  | x :: xs =>
    let t := BitVec.ofNat 6 type
    let z := elemSize t
    let sum := xs.foldl (fun acc y => List.zipWith (collStep fn t) acc (collLanes type y)) (collLanes type x)
    sum.flatMap (toLe z)

/-- The XOR of sources. -/
def xorSources : List (List Byte) → List Byte
  | [] => []
  | x :: xs => xs.foldl (fun acc y => List.zipWith (· ^^^ ·) acc y) x

/-- Part r of n of a list. -/
def partOfList {α : Type} (n r : Nat) (xs : List α) : List α := (xs.drop (xs.length / n * r)).take (xs.length / n)

/-- Poisoned lines of part r of n, of sources of a number of lines. -/
def partLines (lines n r : Nat) (ps : List Nat) : List Nat :=
  let z := lines / n
  (ps.filter fun i => decide (z * r ≤ i) && decide (i < z * r + z)).map (· - z * r)

/-- The result at rank r from every rank's source and poisoned lines (R240, R338). -/
def collResult (sh : CollShape) (r : Nat) (xs : List (List Byte × List Nat)) : List Byte × List Nat :=
  let n := xs.length
  let srcs := xs.map (·.1)
  let bad := (xs.flatMap (·.2)).eraseDups
  let lines := 4 * sh.chunks
  match sh.fn with
  | 0 | 1 => (reduceSources sh.fn sh.type srcs, bad)
  | 2 => (partOfList n r (reduceSources 0 sh.type srcs), partLines lines n r bad)
  | 3 => (srcs.flatten, (xs.zip (range 0 n)).flatMap fun (x, i) => x.2.map (lines * i + ·))
  | 4 => xs.getD sh.root ([], [])
  | _ => (partOfList n r (xorSources srcs), partLines lines n r bad)

/-! ## The fabric engine (R370) -/

/-- Change every collective of this chip that a key names, in its cores and among the held ones, by its partition; a
held one that has started is no longer held. -/
def State.onKey (s : State) (key : CollKey) (f : Nat → CollOp → CollOp) : State :=
  let s := s.cores.foldl (fun s e => s.onCore (e.1 / 8) (e.1 % 8) fun k =>
    { k with colls := k.colls.map fun x => if x.key = key then f (s.partOf (e.1 / 8)) x else x }) s
  s.onFabric fun b =>
    { b with held := (b.held.map fun x => if x.2.key = key then (x.1, f x.1 x.2) else x).filter fun x => !x.2.started }

/-- The group records of this chip that a key names (R363). -/
def State.memberGroups (s : State) (key : CollKey) : List Group :=
  s.pod.groups.filter fun g => decide (g.group = key.group) && decide (g.members.head? = some (key.leaderChip, key.leaderPart))

/-- Partitions of this chip that stand in a key's group. -/
def State.memberParts (s : State) (key : CollKey) : List Nat := (s.memberGroups key).map (·.part)

/-- Change the entry of a key among the numbers received. -/
def State.onNumber (s : State) (key : CollKey) (f : Numbered → Numbered) : State :=
  s.onFabric fun b => { b with numbers := b.numbers.map fun e => if e.key = key then f e else e }

/-- The collectives of a key learn what its number's entry says. -/
def State.tellKey (s : State) (key : CollKey) : State :=
  match s.fabric.numbers.find? fun e => e.key = key with
  | some e => s.onKey key e.tell
  | none => s

/-- A chip's copy of a number: what it was assigned for (R368, R374). -/
def State.keepCopy (s : State) (number gen : Nat) (key : CollKey) (shape : CollShape) (chips : List Nat) : State :=
  let x : SeqColl := { key := key, shape := shape, number := number, gen := gen, sent := true, members := chips,
                       complete := [], nullStatus := 0 }
  s.onFabric fun f => { f with gen := gen, last := some number, colls := f.colls ++ [x] }

/-- This chip withdrew a collective of a key before every source chunk was sampled. -/
def State.gaveUp (s : State) (key : CollKey) : Bool :=
  let bad (x : CollOp) : Bool := decide (x.key = key) && x.withdrawn && x.dropped
  (s.cores.any fun e => e.2.colls.any bad) || s.fabric.held.any fun y => bad y.2

/-- A member takes part in a collective that is new to it: what it can never contribute to it withdraws, which the sequencer
of that number may not have met, and a partition whose step is abandoned withdraws it (R344). -/
def State.takeNumber (s : State) (e : Numbered) : State :=
  let s := (s.onFabric fun f => { f with numbers := f.numbers ++ [e] }).tellKey e.key
  let s := if e.nullStatus = 0 ∧ s.gaveUp e.key then
      s.send s.fabric.seqChip (.withdrawal s.fabric.seqChip s.pod.chip e.key false)
    else s
  (s.memberParts e.key).foldl (fun s p =>
    let q := s.partAt p
    if (q.phase = .run ∨ (q.phase = .turn ∧ q.step.bound)) ∧ q.step.settled then s.withdrawUnissued p else s) s

/-- Every collective that partition p takes part in and whose number precedes n has started there; one that runs as null
has been reached (R370). -/
def State.predecessorsStarted (s : State) (p n : Nat) : Bool :=
  s.fabric.numbers.all fun e =>
    e.done || !(precedes e.number n && (s.memberParts e.key).contains p) || e.started.contains p

/-- A contribution of a key in the landing buffers, by rank. -/
def State.landed (s : State) (key : CollKey) (r : Nat) : Option (List Byte × List Nat) :=
  (s.fabric.landing.find? fun y => decide (y.1 = key) && decide (y.2.1 = r)).map fun y => y.2.2

/-- A collective is complete at this chip: every rank's contribution is in, or every member of this chip has reached a
null one. -/
def State.numberDone (s : State) (e : Numbered) : Bool :=
  if e.nullStatus = 0 then
    match s.memberGroups e.key with
    | g :: _ => (range 0 g.members.length).all fun r => (s.landed e.key r).isSome
    | [] => false
  else (s.memberParts e.key).all e.started.contains

/-- The result of a collective of this chip. -/
def State.giveResult (s : State) (x : CollOp) : CollOp :=
  if x.status = 2 ∧ x.result.isNone ∧ x.due ≠ 0 then
    { x with result := some (collResult x.shape x.rank ((range 0 x.size).map fun r => (s.landed x.key r).getD ([], []))) }
  else x

/-- A key whose collective is now complete: its results wait for D, and its landing buffers are free (R102, R370). -/
def State.finishKey (s : State) (key : CollKey) : State :=
  match s.fabric.numbers.find? fun e => e.key = key with
  | some e =>
    if !e.done && s.numberDone e then
      let t := s.onKey key fun _ x => s.giveResult x
      (t.onNumber key fun e => { e with done := true }).onFabric fun f =>
        { f with landing := f.landing.filter fun y => y.1 ≠ key }
    else s
  | none => s

/-- A number that is already held is met again: only a null status tells more (R368, R373, R374). -/
def State.renewNumber (s : State) (e : Numbered) (null : Nat) : State :=
  if e.nullStatus = 0 ∧ null ≠ 0 then
    ((s.onNumber e.key fun e => { e with nullStatus := null }).tellKey e.key).finishKey e.key
  else s

/-- START_NUMBER: a number arrives at a member, or, with what it was assigned for, at the standby, which keeps and
acknowledges it (R368, R370, R374). Without a number a key is removed (R375).
(DEDUCED, log entry 56). -/
def execStartNumber (number gen : Nat) (key : CollKey) (note : NumberNote) (s : State) : Out :=
  match note with
  | .assigned ask =>
    .next ((s.keepCopy number gen key ask.shape ask.chips).send s.fabric.seqChip (.standbyAck s.fabric.seqChip number))
  | .null null =>
    if noNumber ≤ number then
      .next (s.onKey key fun _ x => if x.status = 1 then { x with gen := gen }.void stCancelled else x)
    else
      match s.fabric.numbers.find? fun e => e.key = key with
      | some e => .next (s.renewNumber e null)
      | none =>
        if (s.memberGroups key).isEmpty then .next s
        else .next (s.takeNumber { number := number, gen := gen, key := key, nullStatus := null, started := [], done := false })

/-- A contribution enters the landing buffers once, and not when its collective is over here.
(DEDUCED, log entry 56). -/
def State.land (s : State) (key : CollKey) (r : Nat) (bs : List Byte) (ps : List Nat) : State :=
  if (s.landed key r).isSome ∨ s.fabric.numbers.any fun e => decide (e.key = key) && e.done then s
  else (s.onFabric fun f => { f with landing := f.landing ++ [(key, r, bs, ps)] }).finishKey key

/-- A partition starts a key's collective, or reaches it where it runs as null, which counts where it was not issued (R368). -/
def State.startKey (s : State) (p : Nat) (key : CollKey) : State :=
  ((s.onNumber key fun e => { e with started := e.started ++ [p] }).tellKey key).countNull p

/-- A null collective that the engine reaches, and the partition (R370). -/
def State.nullReached (s : State) : Option (CollKey × Nat) :=
  s.fabric.numbers.findSome? fun e =>
    if e.nullStatus = 0 ∨ e.done then none
    else
      ((s.memberParts e.key).find? fun p => !e.started.contains p && s.predecessorsStarted p e.number).map fun p => (e.key, p)

/-- The collective may start now (R370). -/
def State.mayStart (s : State) (p : Nat) (x : CollOp) : Bool :=
  !x.started && !x.dropped && decide (x.status = 2) && decide (x.shape.chunks ≤ x.next) &&
    match s.fabric.numbers.find? fun e => e.key = x.key with
    | some e => decide (e.nullStatus = 0) && s.predecessorsStarted p e.number
    | none => false

/-- The member sends its contribution to every other member chip, and keeps its own. -/
def State.contribute (s : State) (p : Nat) (x : CollOp) : State :=
  let s := s.startKey p x.key
  let chips := (s.memberGroups x.key).head?.map Group.chips
  let s := ((chips.getD []).filter fun d => d ≠ s.pod.chip).foldl
    (fun s d => s.send d (.contribution d x.key x.rank x.bytes x.poison)) s
  s.land x.key x.rank x.bytes x.poison

/-- COLLECTIVE_START: collective k of a core, or the k-th one held after its step left its core (core number 8),
starts (R370). -/
def execCollectiveStart (r c k : Nat) (s : State) : Out :=
  if 8 ≤ c then
    match s.fabric.held[k]? with
    | some (p, x) =>
      if s.mayStart p x then .next ((s.onFabric fun f => { f with held := f.held.eraseIdx k }).contribute p x) else .next s
    | none => .next s
  else
    let p := s.partOf r
    match (s.coreAt r c).colls[k]? with
    | some x =>
      if s.mayStart p x then
        let s := s.onCore r c fun k => { k with colls := k.colls.map fun y => if y.org = x.org then { y with started := true } else y }
        .next (s.contribute p x)
      else .next s
    | none => .next s

/-- COLLECTIVE_DATA: a contribution arrives in the landing buffers. It names its collective by the key, which no other
collective has (R368).
(DESIGN CHOICE, log entry 53). -/
def execCollectiveData (key : CollKey) (rank : Nat) (bs : List Byte) (ps : List Nat) (s : State) : Out := .next (s.land key rank bs ps)

/-! ## Heartbeats and failover (R373, R374) -/

/-- The period of heartbeats. -/
def beatPeriod : Nat := 10 * fsUs

/-- Chips whose heartbeats this chip counts: the sequencer counts every other chip's, the standby the
sequencer's. -/
def State.watches (s : State) : List Nat :=
  if s.isSeq then (range 0 s.pod.podn).filter (· ≠ s.pod.chip)
  else if s.isStandby then [s.fabric.seqChip]
  else []

/-- The collective up to which every one that this chip takes part in has completed here, in number order, by its key: what its
heartbeat carries. A number would not say which use of it is meant, at a chip that has long taken part in none (R369). -/
def State.completeUpTo (s : State) : Option CollKey := ((s.fabric.numbers.takeWhile (·.done)).getLast?).map (·.key)

/-- A chip has completed a collective. -/
def SeqColl.completedBy (chip : Nat) (x : SeqColl) : SeqColl :=
  if x.complete.contains chip then x else { x with complete := chip :: x.complete }

/-- A chip has completed every collective of its own up to one, in number order, which is their order here (R369). -/
def Fabric.completes (f : Fabric) (chip : Nat) (done : Option CollKey) : Fabric :=
  match done.bind fun key => f.colls.findIdx? fun x => decide (x.key = key) with
  | some n => { f with colls := (f.colls.take (n + 1)).map (SeqColl.completedBy chip) ++ f.colls.drop (n + 1) }
  | none => f

/-- GEN of a heartbeat that carries no generation: the one that a chip in the sequencer's place sends as any other chip does. -/
def noGeneration : Nat := 256

/-- Send this chip's heartbeats, the sequencer's own to the standby among them (R373), count one more period of each chip it
watches, and take note of what this chip itself has completed.
(DESIGN CHOICE, log entry 53). -/
def State.beatOut (s : State) : State :=
  let dests := if s.isSeq then (range 0 s.pod.podn).filter (· ≠ s.pod.chip)
    else ([s.fabric.seqChip, s.pod.stby].eraseDups).filter (· ≠ s.pod.chip)
  let (last, done) := if s.isSeq then (s.fabric.last.getD noNumber, none) else (noNumber, s.completeUpTo)
  let own := if s.isSeq ∧ s.hasStandby then [OutMsg.heartbeat s.pod.stby s.pod.chip noGeneration noNumber s.completeUpTo] else []
  let s := { s with out := s.out ++ (dests.map fun d => OutMsg.heartbeat d s.pod.chip s.fabric.gen last done) ++ own,
                    beatAt := nextDue s.beatAt beatPeriod s.wall }
  let s := s.onFabric fun f => f.completes s.pod.chip s.completeUpTo
  s.watches.foldl (fun s d => s.onFabric fun f => { f with missed := SMap.set 0 f.missed d (SMap.get 0 f.missed d + 1) }) s

/-- HEARTBEAT: this chip's own is the period in which it sends; another chip's tells the sequencer and the standby that
it is there and what it has completed, the sequencer's, which goes to every chip, its generation (R373).
(DESIGN CHOICE, log entry 53). -/
def execHeartbeat (chip gen : Nat) (news : HeartbeatNews) (s : State) : Out :=
  if chip = s.pod.chip then .next s.beatOut
  else
    .next (s.onFabric fun f =>
      let f := { f with missed := SMap.set 0 f.missed chip 0, lost := f.lost.filter (· ≠ chip) }
      if !s.isSeq ∧ chip = f.seqChip ∧ gen < noGeneration then { f with gen := gen } else f.completes chip news.done)

/-- The standby takes over (R374). -/
def State.takeOver (s : State) : State :=
  let gen := (s.fabric.gen + 1) % 256
  let s := s.onFabric fun f => { f with seqChip := s.pod.chip }
  let s := (s.fabric.colls.filter fun x => !x.done).foldl (fun s x => s.sendNumber x) s
  let s := s.onFabric fun f => { f with gen := gen, missed := [] }
  (range 0 s.pod.podn).foldl (fun s d => s.send d (.announce d s.pod.chip gen)) s

/-- A chip is no member of the collectives numbered so far any more (R373). -/
def SeqColl.without (chip : Nat) (x : SeqColl) : SeqColl := { x with members := x.members.filter (· ≠ chip) }

/-- A member chip is lost: its collectives that are not complete at every other member run as null, its unnumbered requests
go, and the numbers assigned so far wait for it no more (R369, R373).
(DEDUCED, log entry 102). -/
def State.loseChip (s : State) (chip : Nat) : State :=
  let s := s.onFabric fun f => { f.completes s.pod.chip s.completeUpTo with lost := chip :: f.lost }
  let hit := s.fabric.colls.filter fun x => x.members.contains chip && !(x.without chip).done
  let s := hit.foldl (fun s x => s.nullify x stCancelled) s
  let s := s.onFabric fun f => { f with colls := f.colls.map (SeqColl.without chip) }
  let gone := s.fabric.deferred.filter fun d => d.2.2.2.2.contains chip
  let s := s.onFabric fun f => { f with deferred := f.deferred.filter fun d => !d.2.2.2.2.contains chip }
  (gone.map fun d => (d.2.2.1, d.2.2.2.2)).eraseDups.foldl (fun s (k, chips) => s.refuseKey k chips) s

/-- HEARTBEAT_TIMEOUT: three heartbeats of a watched chip are missing in a row (R373, R374). -/
def execHeartbeatTimeout (chip : Nat) (s : State) : Out :=
  if s.watches.contains chip ∧ 3 ≤ SMap.get 0 s.fabric.missed chip ∧ !s.fabric.lost.contains chip then
    .next (if s.isSeq then s.loseChip chip else s.takeOver)
  else .next s

/-- The request of a collective of partition p that has no number yet, and was not withdrawn, sent again (R374, R375). -/
def State.requestAgain (s : State) (chip p : Nat) (x : CollOp) : State :=
  if x.status = 1 ∧ x.due ≠ 0 ∧ !x.withdrawn then
    let chips := ((s.memberGroups x.key).head?.map Group.chips).getD []
    s.send chip (.request chip s.pod.chip p x.key x.shape chips)
  else s

/-- SEQUENCER_ANNOUNCE: the new sequencer is known, and requests still unnumbered go to it (R374). -/
def execSequencerAnnounce (chip gen : Nat) (s : State) : Out :=
  let s := s.onFabric fun f => { f with seqChip := chip, gen := gen }
  let s := s.cores.foldl (fun s e => e.2.colls.foldl (fun s x => s.requestAgain chip (s.partOf (e.1 / 8)) x) s) s
  .next (s.fabric.held.foldl (fun s x => s.requestAgain chip x.1 x.2) s)

end Sys2Proof.Machine
end

