-- ==== Sys2Proof/Machine/Hash.lean ====
section
/-!
DEFINITION. SHA-256, the verification of an HSS signature, and the identity key and its signatures, with the parameters of R356: two levels of
LMS_SHA256_M32_H10 over LMOTS_SHA256_N32_W8. The hash's constants and the layout inside a signature are those
of the standards that R356 names (PRESUMED, log entry 40). Big-endian fields belong to those standards.
-/

namespace Sys2Proof.Machine

/-! ## SHA-256 -/

/-- The low n bytes of x, most significant first. -/
def toBe (n x : Nat) : List Byte := (toLe n x).reverse

/-- A list of bytes as a number, most significant byte first. -/
def beNat (bs : List Byte) : Nat := leNat bs.reverse

/-- The round constants. -/
def shaK : List W32 :=
  [0x428a2f98#32, 0x71374491#32, 0xb5c0fbcf#32, 0xe9b5dba5#32, 0x3956c25b#32, 0x59f111f1#32, 0x923f82a4#32, 0xab1c5ed5#32,
   0xd807aa98#32, 0x12835b01#32, 0x243185be#32, 0x550c7dc3#32, 0x72be5d74#32, 0x80deb1fe#32, 0x9bdc06a7#32, 0xc19bf174#32,
   0xe49b69c1#32, 0xefbe4786#32, 0x0fc19dc6#32, 0x240ca1cc#32, 0x2de92c6f#32, 0x4a7484aa#32, 0x5cb0a9dc#32, 0x76f988da#32,
   0x983e5152#32, 0xa831c66d#32, 0xb00327c8#32, 0xbf597fc7#32, 0xc6e00bf3#32, 0xd5a79147#32, 0x06ca6351#32, 0x14292967#32]
  ++ [0x27b70a85#32, 0x2e1b2138#32, 0x4d2c6dfc#32, 0x53380d13#32, 0x650a7354#32, 0x766a0abb#32, 0x81c2c92e#32, 0x92722c85#32,
   0xa2bfe8a1#32, 0xa81a664b#32, 0xc24b8b70#32, 0xc76c51a3#32, 0xd192e819#32, 0xd6990624#32, 0xf40e3585#32, 0x106aa070#32,
   0x19a4c116#32, 0x1e376c08#32, 0x2748774c#32, 0x34b0bcb5#32, 0x391c0cb3#32, 0x4ed8aa4a#32, 0x5b9cca4f#32, 0x682e6ff3#32,
   0x748f82ee#32, 0x78a5636f#32, 0x84c87814#32, 0x8cc70208#32, 0x90befffa#32, 0xa4506ceb#32, 0xbef9a3f7#32, 0xc67178f2#32]

/-- The eight working words. -/
structure Sha where
  a : W32
  b : W32
  c : W32
  d : W32
  e : W32
  f : W32
  g : W32
  h : W32
deriving DecidableEq, Repr

/-- The initial hash value. -/
def Sha.init : Sha :=
  { a := 0x6a09e667#32, b := 0xbb67ae85#32, c := 0x3c6ef372#32, d := 0xa54ff53a#32, e := 0x510e527f#32, f := 0x9b05688c#32,
    g := 0x1f83d9ab#32, h := 0x5be0cd19#32 }

/-- One round. -/
def Sha.round (x : Sha) (k w : W32) : Sha :=
  let s1 := x.e.rotateRight 6 ^^^ x.e.rotateRight 11 ^^^ x.e.rotateRight 25
  let ch := (x.e &&& x.f) ^^^ (~~~x.e &&& x.g)
  let t1 := x.h + s1 + ch + k + w
  let s0 := x.a.rotateRight 2 ^^^ x.a.rotateRight 13 ^^^ x.a.rotateRight 22
  let maj := (x.a &&& x.b) ^^^ (x.a &&& x.c) ^^^ (x.b &&& x.c)
  { a := t1 + (s0 + maj), b := x.a, c := x.b, d := x.c, e := x.d + t1, f := x.e, g := x.f, h := x.g }

/-- The next word of the schedule, from the last sixteen, newest first. -/
def shaNext (ws : List W32) : W32 :=
  let w15 := ws.getD 14 0
  let w2 := ws.getD 1 0
  (w2.rotateRight 17 ^^^ w2.rotateRight 19 ^^^ (w2 >>> 10)) + ws.getD 6 0
    + (w15.rotateRight 7 ^^^ w15.rotateRight 18 ^^^ (w15 >>> 3)) + ws.getD 15 0

/-- The message schedule of a block, newest first. -/
def shaSchedule : Nat → List W32 → List W32
  | 0, ws => ws
  | n + 1, ws => shaSchedule n (shaNext ws :: ws)

/-- One 64-byte block. -/
def Sha.block (x : Sha) (bs : List Byte) : Sha :=
  let ws := (pieces 4 16 bs).map fun p => BitVec.ofNat 32 (beNat p)
  let y := (shaK.zip (shaSchedule 48 ws.reverse).reverse).foldl (fun x kw => x.round kw.1 kw.2) x
  { a := x.a + y.a, b := x.b + y.b, c := x.c + y.c, d := x.d + y.d, e := x.e + y.e, f := x.f + y.f, g := x.g + y.g,
    h := x.h + y.h }

/-- SHA-256 of a message: 32 bytes. -/
def sha256 (m : List Byte) : List Byte :=
  let n := m.length
  let padded := m ++ [0x80#8] ++ zeros ((119 - n % 64) % 64) ++ toBe 8 (8 * n)
  let x := (pieces 64 (padded.length / 64) padded).foldl Sha.block Sha.init
  [x.a, x.b, x.c, x.d, x.e, x.f, x.g, x.h].flatMap fun w => toBe 4 w.toNat

/-! ## One-time and tree signatures (R356) -/

/-- Bytes off to off + n - 1 of a list. -/
def slice (bs : List Byte) (off n : Nat) : List Byte := (bs.drop off).take n

/-- A big-endian field of a list. -/
def beField (bs : List Byte) (off n : Nat) : Nat := beNat (slice bs off n)

/-- Type codes of LMOTS_SHA256_N32_W8 and LMS_SHA256_M32_H10. -/
def otsType : Nat := 4
def lmsType : Nat := 6

/-- Lengths: chains of a one-time signature, tree height, a one-time signature, a tree signature, a key. -/
def otsChains : Nat := 34
def lmsHeight : Nat := 10
def otsBytes : Nat := 1124
def lmsBytes : Nat := 1452
def lmsKeyBytes : Nat := 56

/-- Advance a chain from step j, n times. -/
def otsChain (pre : List Byte) : Nat → Nat → List Byte → List Byte
  | _, 0, y => y
  | j, n + 1, y => otsChain pre (j + 1) n (sha256 (pre ++ toBe 1 j ++ y))

/-- The candidate one-time public key of a signature over a message, for key id and leaf. -/
def otsCandidate (id : List Byte) (leaf : Nat) (sig msg : List Byte) : List Byte :=
  let pre := id ++ toBe 4 leaf
  let q := sha256 (pre ++ toBe 2 0x8181 ++ slice sig 4 32 ++ msg)
  let digits := q ++ toBe 2 ((q.map fun b => 255 - b.toNat).sum)
  let zs := (range 0 otsChains).flatMap fun i =>
    let a := (digits.getD i 0).toNat
    otsChain (pre ++ toBe 2 i) a (255 - a) (slice sig (36 + 32 * i) 32)
  sha256 (pre ++ toBe 2 0x8080 ++ zs)

/-- The root that a path leads to from a node. -/
def treeRoot (id : List Byte) (path : List Byte) : Nat → Nat → List Byte → List Byte
  | 0, _, x => x
  | n + 1, node, x =>
    let p := slice path (32 * (lmsHeight - (n + 1))) 32
    let pair := if node % 2 = 1 then p ++ x else x ++ p
    treeRoot id path n (node / 2) (sha256 (id ++ toBe 4 (node / 2) ++ toBe 2 0x8383 ++ pair))

/-- A tree signature over a message verifies under a 56-byte key. -/
def lmsOk (key sig msg : List Byte) : Bool :=
  let id := slice key 8 16
  let leaf := beField sig 0 4
  let ots := slice sig 4 otsBytes
  let node := 2 ^ lmsHeight + leaf
  decide (key.length = lmsKeyBytes) && decide (sig.length = lmsBytes) && decide (beField key 0 4 = lmsType)
    && decide (beField key 4 4 = otsType) && decide (beField ots 0 4 = otsType)
    && decide (beField sig (4 + otsBytes) 4 = lmsType) && decide (leaf < 2 ^ lmsHeight)
    && decide (treeRoot id (sig.drop (8 + otsBytes)) lmsHeight node
        (sha256 (id ++ toBe 4 node ++ toBe 2 0x8282 ++ otsCandidate id leaf ots msg)) = slice key 24 32)

/-- Lengths of an HSS signature and of an HSS public key. -/
def hssBytes : Nat := 2964
def hssKeyBytes : Nat := 60

/-- An HSS signature over a message verifies under a 60-byte key. -/
def hssOk (key sig msg : List Byte) : Bool :=
  let mid := slice sig (4 + lmsBytes) lmsKeyBytes
  decide (key.length = hssKeyBytes) && decide (sig.length = hssBytes) && decide (beField key 0 4 = 2)
    && decide (beField sig 0 4 = 1) && lmsOk (key.drop 4) (slice sig 4 lmsBytes) mid
    && lmsOk mid (sig.drop (4 + lmsBytes + lmsKeyBytes)) msg

/-! ## The identity key (R359, R360) -/

/-- A list cut or padded with zeros to n bytes. -/
def fixed (n : Nat) (bs : List Byte) : List Byte := (bs ++ zeros n).take n

/-- A tree's identifier, and the start of a one-time chain of it. -/
def identityId (seed : List Byte) (tree : Nat) : List Byte := fixed 16 (Config.treeId seed tree)
def identityStart (seed : List Byte) (tree leaf i : Nat) : List Byte := fixed 32 (Config.chainStart seed tree leaf i)

/-- The one-time public key of a leaf. -/
def otsPublic (seed : List Byte) (tree leaf : Nat) : List Byte :=
  let pre := identityId seed tree ++ toBe 4 leaf
  sha256 (pre ++ toBe 2 0x8080 ++
    (range 0 otsChains).flatMap fun i => otsChain (pre ++ toBe 2 i) 0 255 (identityStart seed tree leaf i))

/-- A one-time signature of a leaf over a message. -/
def otsSign (seed : List Byte) (tree leaf : Nat) (msg : List Byte) : List Byte :=
  let pre := identityId seed tree ++ toBe 4 leaf
  let c := fixed 32 (Config.randomizer seed tree leaf)
  let q := sha256 (pre ++ toBe 2 0x8181 ++ c ++ msg)
  let digits := q ++ toBe 2 ((q.map fun b => 255 - b.toNat).sum)
  toBe 4 otsType ++ c ++
    (range 0 otsChains).flatMap fun i => otsChain (pre ++ toBe 2 i) 0 (digits.getD i 0).toNat (identityStart seed tree leaf i)

/-- A node of a tree, n levels above the leaves. -/
def treeNode (seed : List Byte) (tree : Nat) : Nat → Nat → List Byte
  | 0, node =>
    sha256 (identityId seed tree ++ toBe 4 node ++ toBe 2 0x8282 ++ otsPublic seed tree (node - 2 ^ lmsHeight))
  | n + 1, node =>
    sha256 (identityId seed tree ++ toBe 4 node ++ toBe 2 0x8383 ++ treeNode seed tree n (2 * node)
      ++ treeNode seed tree n (2 * node + 1))

/-- The public key of a tree: 56 bytes. -/
def lmsPublic (seed : List Byte) (tree : Nat) : List Byte :=
  toBe 4 lmsType ++ toBe 4 otsType ++ identityId seed tree ++ treeNode seed tree lmsHeight 1

/-- A tree's signature with a leaf over a message: 1,452 bytes. -/
def lmsSign (seed : List Byte) (tree leaf : Nat) (msg : List Byte) : List Byte :=
  toBe 4 leaf ++ otsSign seed tree leaf msg ++ toBe 4 lmsType ++
    (range 0 lmsHeight).flatMap fun i => treeNode seed tree i ((2 ^ lmsHeight + leaf) / 2 ^ i ^^^ 1)

/-- The identity public key of a seed: 60 bytes (R356, R359). -/
def hssPublic (seed : List Byte) : List Byte := toBe 4 2 ++ lmsPublic seed 0

/-- The identity key's signature with leaf q of 2^20 over a message: 2,964 bytes (R356, R360). -/
def hssSign (seed : List Byte) (q : Nat) (msg : List Byte) : List Byte :=
  let top := q / 2 ^ lmsHeight
  let mid := lmsPublic seed (1 + top)
  toBe 4 1 ++ lmsSign seed 0 top mid ++ mid ++ lmsSign seed (1 + top) (q % 2 ^ lmsHeight) msg

end Sys2Proof.Machine
end

