-- ==== Sys2Proof/Machine/Boot.lean ====
section
/-!
DEFINITION. Droop, telemetry, the thermal states, bring-up and attestation (R349 to R351, R354 to R361,
R363), with reset and the flash rewrite.
-/

namespace Sys2Proof.Machine

/-! ## Droop (R351) -/

/-- Limits of a beat period in a droop episode, and its longest length in periods. -/
def beatMin : Nat := 625000
def beatMax : Nat := 781250
def droopPeriods : Nat := 4096

/-- DROOP_EPISODE: the beat clock stretches, for at most 4,096 of its periods. -/
def execDroopEpisode (fs : Nat) (s : State) : Out :=
  if s.droop.isNone ∧ beatMin ≤ fs ∧ fs ≤ beatMax then
    .next { s with droop := some droopPeriods, droops := s.droops + 1, beatFs := fs }
  else .next s

/-- DROOP_END: the sag clears. -/
def execDroopEnd (s : State) : Out := .next { s with droop := none, beatFs := beatMin }

/-! ## Telemetry (R349, R350) -/

/-- The period of the records. -/
def telePeriod : Nat := 1000 * fsUs

/-- A core's record. -/
def Telemetry.record (t : Telemetry) : List Byte :=
  toLe 8 t.high ++ toLe 8 t.low ++ toLe 8 t.settle ++ toLe 4 t.gears ++ toLe 4 t.cold ++ toLe 4 t.ramps ++ zeros 28

/-- THERM (R350).
(DEDUCED, log entry 60). -/
def State.therm (s : State) : Nat :=
  (if s.warn then 1 else 0) + (if s.thermal = .trip then 2 else 0) + if s.tripped then 4 else 0

/-- The device record. -/
def State.deviceRecord (s : State) : List Byte :=
  ((range 0 5).flatMap fun i => toLe 2 (wrap 16 (s.temps.getD i 0))) ++ toLe 1 s.therm ++ zeros 1 ++ toLe 4 s.flash.boots
    ++ toLe 8 s.droops ++ toLe 8 (s.droopFs / beatMin) ++ toLe 4 ((s.image.map (·.svn)).getD 0) ++ zeros 28

/-- Cores of the device: eight on each of eighty ropes. -/
def coreCount : Nat := 640

/-- TELEMETRY_UPDATE: both kinds of record are written again, once CTXBASE has been written. -/
def execTelemetryUpdate (s : State) : Out :=
  let s := { s with teleAt := nextDue s.teleAt telePeriod s.wall }
  match s.ctxbase with
  | some b =>
    let s := (range 0 coreCount).foldl (fun (s : State) i =>
      s.putDev (b + 0xC0000 + 64 * i) (SMap.get Core.reset s.cores i).tele.record) s
    .next (s.putDev (b + 0xCA000) s.deviceRecord)
  | none => .next s

/-! ## Reset (R354, R355) -/

/-- The device in state RESET: only the flash, the fuses, the 1588 time and what is on its way outside last.
(DESIGN CHOICE, log entry 61). -/
def State.toReset (s : State) (thermal : Bool) : State :=
  { State.reset with wall := s.wall, flash := s.flash, fuse := s.fuse, thermalCause := thermal, inbox := s.inbox, out := s.out,
                     sensors := s.sensors, thermAt := s.thermAt, free := s.free }

/-- RESET_OR_POWER_LOSS: from any state into RESET. -/
def execResetOrPowerLoss (s : State) : Out := .next (s.toReset false)

/-! ## Thermal states (R354) -/

/-- Every die's reading, in 1/16 degree, compared with a temperature in whole degrees. -/
def anyAt (ts : List Int) (deg : Int) : Bool := ts.any fun t => decide (16 * deg ≤ t)
def allUpTo (ts : List Int) (deg : Int) : Bool := ts.all fun t => decide (t ≤ 16 * deg)
def allBelow (ts : List Int) (deg : Int) : Bool := ts.all fun t => decide (t < 16 * deg)

/-- The period of the readings. -/
def thermPeriod : Nat := 10 * fsUs

/-- THERMAL_READ: the junction temperatures are read and the thermal state moves. -/
def execThermalRead (die0 die1 die2 die3 io : Int) (s : State) : Out :=
  let ts := [die0, die1, die2, die3, io]
  let s := { s with temps := ts }
  match s.thermal with
  | .trip =>
    if anyAt ts 120 then .next (s.toReset true)
    else if allUpTo ts 95 then
      let s := { s with thermal := .warn, warn := true }
      .next (if s.halted then s else s.thawAll)
    else .next s
  | .normal =>
    if anyAt ts 110 then
      .next { s with thermal := .trip, tripped := true, tripSince := s.wall,
                     frozenSince := if s.halted then s.frozenSince else s.wall }
    else if anyAt ts 100 then .next { s with thermal := .warn, warn := true }
    else .next s
  | .warn =>
    if anyAt ts 110 then
      .next { s with thermal := .trip, tripped := true, tripSince := s.wall,
                     frozenSince := if s.halted then s.frozenSince else s.wall }
    else if allBelow ts 97 then .next { s with thermal := .normal, warn := false }
    else .next s

/-- Ten seconds. -/
def tripFs : Nat := 10 * 1000000 * fsUs

/-- TRIP_TIMEOUT: after ten seconds in TRIP the compute dies are powered off. -/
def execTripTimeout (s : State) : Out :=
  if s.thermal = .trip ∧ s.tripSince + tripFs ≤ s.wall then .next (s.toReset true) else .next s

/-! ## Images (R356 to R358, R363) -/

/-- A little-endian field of a list of bytes. -/
def leField (bs : List Byte) (off n : Nat) : Nat := leNat (slice bs off n)

/-- An image's magic. -/
def bootMagic : Nat := 0x47364946

/-- Offset of the signature: the length of the signed bytes. -/
def signedLen (img : List Byte) : Nat := leField img 12 4

/-- The sections of an image: type, offset, length. An entry of zeros is none.
(DESIGN CHOICE, log entry 57). -/
def sections (img : List Byte) : List (Nat × Nat × Nat) :=
  ((range 0 8).map fun i => (leField img (16 + 12 * i) 4, leField img (20 + 12 * i) 4, leField img (24 + 12 * i) 4)).filter
    fun x => x ≠ (0, 0, 0)

/-- The bytes of the section of a type. -/
def sectionOf (img : List Byte) (type : Nat) : List Byte :=
  match (sections img).find? fun x => x.1 = type with
  | some (_, off, n) => slice img off n
  | none => []

/-- Size of the service firmware. -/
def firmwareBytes : Nat := 16384

/-- A group record's length. -/
def groupLen (bs : List Byte) (off : Nat) : Nat := 6 + 4 * leField bs (off + 2) 2

/-- One group record. -/
def groupAt (bs : List Byte) (off : Nat) : Group :=
  { part := leField bs off 1, group := leField bs (off + 1) 1, rank := leField bs (off + 4) 2,
    members := (range 0 (leField bs (off + 2) 2)).map fun i =>
      let w := leField bs (off + 6 + 4 * i) 4
      (bits w 11 0, bits w 14 12) }

/-- The group records, one after another. -/
def groupsAt (bs : List Byte) : Nat → Nat → List Group
  | _, 0 => []
  | off, n + 1 => groupAt bs off :: groupsAt bs (off + groupLen bs off) n

/-- End of the group records. -/
def groupsEnd (bs : List Byte) : Nat → Nat → Nat
  | off, 0 => off
  | off, n + 1 => groupsEnd bs (off + groupLen bs off) n

/-- The pod configuration of a section of type 5 (R363). -/
def parsePod (bs : List Byte) : PodConfig :=
  { chip := leField bs 0 2, podn := leField bs 2 2, seq := leField bs 4 2, stby := leField bs 6 2, mark := leField bs 8 2,
    align := BitVec.ofNat 8 (leField bs 10 1), start := leField bs 12 2, lead := leField bs 14 2,
    groups := groupsAt bs (leField bs 16 4) (leField bs 20 2) }

/-- A group record of chip c that R363 accepts. -/
def Group.ok (c : Nat) (g : Group) : Bool :=
  decide (g.part < 8) && decide (1 ≤ g.members.length) && decide (g.members.length ≤ 4096) && decide (g.members.Nodup)
    && decide (g.members[g.rank]? = some (c, g.part))

/-- A pod configuration that R363 accepts.
(DEDUCED, log entry 58). -/
def podOk (bs : List Byte) : Bool :=
  let x := parsePod bs
  decide (22 ≤ bs.length) && decide (x.chip < 4096) && decide (1 ≤ x.podn) && decide (x.podn ≤ 4096) && decide (1024 ≤ x.lead)
    && decide (groupsEnd bs (leField bs 16 4) (leField bs 20 2) ≤ bs.length) && x.groups.all (Group.ok x.chip)
    && decide ((x.groups.map fun g => (g.part, g.group)).Nodup)

/-- The sections of an image pass R357 and R363. -/
def sectionsOk (img : List Byte) : Bool :=
  let xs := sections img
  xs.all (fun x => decide (1 ≤ x.1) && decide (x.1 ≤ 5) && decide (x.2.1 + x.2.2 ≤ signedLen img))
    && [1, 2, 3, 4, 5].all (fun t => xs.any fun x => x.1 = t) && decide ((sectionOf img 3).length = firmwareBytes)
    && podOk (sectionOf img 5)

/-- An image is verified against the vendor root hash and the fused version (R356 to R358).
(DESIGN CHOICE, log entry 8). -/
def imageOk (fuse : Nat) (img : List Byte) : Bool :=
  let n := signedLen img
  let sig := slice img n hssBytes
  let key := img.drop (n + hssBytes)
  decide (leField img 0 4 = bootMagic) && decide (leField img 4 4 ≤ 63) && decide (fuse ≤ leField img 4 4)
    && decide (leField img 8 4 = img.length) && decide (img.length = n + hssBytes + hssKeyBytes) && decide (112 ≤ n)
    && decide (sha256 key = Config.vendorRoot) && hssOk key sig (img.take n) && sectionsOk img

/-- The bytes of an image slot of the flash. -/
def Flash.slot (f : Flash) (b : Bool) : List Byte := if b then Mem.bytes f.slotB 0 f.lenB else Mem.bytes f.slotA 0 f.lenA

/-- The image slots by SVN, higher first, slot A first on equal SVN (R355). -/
def Flash.order (f : Flash) : List Bool :=
  if leField (f.slot false) 4 4 < leField (f.slot true) 4 4 then [true, false] else [false, true]

/-! ## Bring-up (R355, R361) -/

/-- The leaf limit that counts: the higher copy that passes its CRC. With neither, no leaf is left.
(DESIGN CHOICE, log entry 57). -/
def Flash.leafLimit (f : Flash) : Nat :=
  if f.ok0 ∧ f.ok1 then max f.limit0 f.limit1
  else if f.ok0 then f.limit0
  else if f.ok1 then f.limit1
  else 2 ^ 20

/-- POWER_GOOD: the mask-ROM loader runs; the PUF is read (R355, R359). -/
def execPowerGood (pufOk : Bool) (s : State) : Out :=
  if s.boot = .reset then
    .next { s with boot := .rom, puf := pufOk, leaf := s.flash.leafLimit, leafLimit := s.flash.leafLimit }
  else .next s

/-- IMAGE_SLOTS_READ: the first image that passes is taken, and BOOTS rises; else RECOVERY (R355). -/
def execImageSlotsRead (s : State) : Out :=
  if s.boot = .rom then
    match s.flash.order.find? fun b => imageOk s.fuse (s.flash.slot b) with
    | some b =>
      let img := s.flash.slot b
      .next { s with boot := .config, flash := { s.flash with boots := s.flash.boots + 1 },
                     image := some { slotB := b, svn := leField img 4 4, hash := sha256 (img.take (signedLen img)) } }
    | none => .next { s with boot := .recovery }
  else .next s

/-- Firmware words from a section. -/
def firmwareWords (bs : List Byte) : SMap W32 :=
  SMap.setAll 0 [] 0 ((pieces 4 4096 bs).map fun p => BitVec.ofNat 32 (leNat p))

/-- The ropes of the partitions so far, and one more partition: the ropes of the device that it names and none before
it has. -/
def addPartition (xs : List (List Nat)) (rs : List Nat) : List (List Nat) :=
  xs ++ [(range 0 80).filter fun r => rs.contains r && !xs.any (·.contains r)]

/-- The partitions that a partition map sets: one to eight, each of one rope to 80, in rising order, no rope in two (R9).
A map that names none sets one partition of every rope.
(DESIGN CHOICE, log entry 7). -/
def partitionRopes (bs : List Byte) : List (List Nat) :=
  match (((Config.partitionMap bs).take 8).foldl addPartition []).filter (· ≠ []) with
  | [] => [range 0 80]
  | xs => xs

/-- The partitions' state from their ropes. -/
def partitionsOf : Nat → List (List Nat) → SMap Partition
  | _, [] => []
  | p, rs :: xs => SMap.put (partitionsOf (p + 1) xs) p { Partition.reset with ropes := rs }

/-- CONFIG: the sections of the taken image are applied (R357). -/
def execConfig (s : State) : Out :=
  match s.boot, s.image with
  | .config, some i =>
    let img := s.flash.slot i.slotB
    let ropes := partitionRopes (sectionOf img 1)
    let pod := parsePod (sectionOf img 5)
    .next { s with
      boot := .train
      nparts := ropes.length
      parts := partitionsOf 0 ropes
      hosts := Config.hostTable (sectionOf img 2)
      firmware := firmwareWords (sectionOf img 3)
      domain := Config.timeDomain (sectionOf img 4)
      pod := pod
      fabric := { s.fabric with seqChip := pod.seq } }
  | _, _ => .next s

/-- A partition's reset grid starts: its first frame is the first that starts at or after the instant (R15,
R275).
(DEDUCED, log entry 59). -/
def Partition.begin (q : Partition) (wall : Nat) : Partition :=
  let len := frameFs q.slots
  let n := firstFrame (q.epoch * fsNs) len wall
  { q with running := true, phase := .gap, frame := n, slotStart := wall, slotEnd := q.epoch * fsNs + n * len }

/-- TRAIN_COMPLETE: the device is READY, its grids start, and fuses are blown up to the image's SVN (R355,
R358). -/
def execTrainComplete (s : State) : Out :=
  if s.boot = .train then
    let s : State := { s with boot := .ready, fuse := max s.fuse ((s.image.map (·.svn)).getD 0),
                              teleAt := s.wall + telePeriod, beatAt := s.wall + beatPeriod }
    .next ((range 0 s.nparts).foldl (fun s p => s.onPart p fun q => q.begin s.wall) s)
  else .next s

/-- TRAIN_FAIL: the device goes to RECOVERY (R355). -/
def execTrainFail (s : State) : Out := if s.boot = .train then .next { s with boot := .recovery } else .next s

/-- FLASH_REWRITE: in RECOVERY the test access port rewrites an image slot (R355). -/
def execFlashRewrite (slot : Nat) (bs : List Byte) (s : State) : Out :=
  if s.boot = .recovery then
    .next { s with flash :=
      if slot = 0 then { s.flash with slotA := Mem.put [] 0 bs, lenA := bs.length }
      else { s.flash with slotB := Mem.put [] 0 bs, lenB := bs.length } }
  else .next s

/-! ## Attestation (R359 to R361) -/

/-- Leaves of the identity key. -/
def leaves : Nat := 2 ^ 20

/-- The device raises its leaf limit in steps of this many. -/
def leafStep : Nat := 64

/-- Make the next leaf usable: a limit above it stands in the flash, or the write fails.
(DESIGN CHOICE, log entry 9). -/
def State.reserveLeaf (s : State) (flashOk : Bool) : State × Bool :=
  if s.leaf < s.leafLimit then (s, true)
  else if flashOk then
    let n := s.leafLimit + leafStep
    let f := s.flash
    let f := if f.limit0 ≤ f.limit1 then { f with limit0 := n, ok0 := true } else { f with limit1 := n, ok1 := true }
    ({ s with leafLimit := n, flash := f }, true)
  else (s, false)

/-- Bytes +0x1008 to +0x10FF of a response.
(DESIGN CHOICE, log entry 8). -/
def State.report (s : State) (status : Nat) (nonce : List Byte) : List Byte :=
  let key := if s.puf then hssPublic Config.pufSeed else fixed hssKeyBytes (Config.openIdentity s.free)
  toLe 8 status ++ zeros 16 ++ nonce ++ ((s.image.map (·.hash)).getD (zeros 32)) ++ sha256 key
    ++ toLe 4 ((s.image.map (·.svn)).getD 0) ++ toLe 4 s.fuse ++ toLe 8 s.leaf ++ key ++ zeros 52

/-- ATTESTATION_RESPONSE: at a frame start of partition 0 a new request is answered, the response count last
(R360). -/
def execAttestationResponse (flashOk : Bool) (s : State) : Out :=
  let s := { s with attestDue := false }
  match s.ctxbase with
  | some b =>
    let a := b + 0xB0000
    let want := Mem.bytes s.mem (a + 0x20) 8
    if want = Mem.bytes s.mem (a + 0x1000) 8 then .next s
    else
      let nonce := Mem.bytes s.mem a 32
      let answer (s : State) (status : Nat) : State :=
        let r := s.report status nonce
        let sig := if status = 0 then hssSign Config.pufSeed s.leaf r else zeros hssBytes
        let s := ((s.putDev (a + 0x1008) r).putDev (a + 0x1100) sig).putDev (a + 0x1000) want
        { s with free := s.free + 1 }
      if !s.puf then .next (answer s 2)
      else if leaves ≤ s.leaf then .next (answer s 3)
      else
        match s.reserveLeaf flashOk with
        | (s, true) => .next { answer s 0 with leaf := s.leaf + 1 }
        | (s, false) => .next (answer s 1)
  | none => .next s

end Sys2Proof.Machine
end

