-- ==== Sys2Proof/Machine/Memory.lean ====
section
/-!
DEFINITION. The S track's memory words (R153 to R157): each names its space, size, extension and address
form and shares the operations of Operands.lean.
-/

namespace Sys2Proof.Machine

def execLdsB (_g : BitVec 3) (d a : BitVec 5) (c : BitVec 4) (i : BitVec 9) (s : State) : Out :=
  loadWord .spad 1 true d [a] (s.eaImm a i 1) c s
def execLdsH (_g : BitVec 3) (d a : BitVec 5) (c : BitVec 4) (i : BitVec 9) (s : State) : Out :=
  loadWord .spad 2 true d [a] (s.eaImm a i 2) c s
def execLdsW (_g : BitVec 3) (d a : BitVec 5) (c : BitVec 4) (i : BitVec 9) (s : State) : Out :=
  loadWord .spad 4 true d [a] (s.eaImm a i 4) c s
def execLdsD (_g : BitVec 3) (d a : BitVec 5) (c : BitVec 4) (i : BitVec 9) (s : State) : Out :=
  loadWord .spad 8 true d [a] (s.eaImm a i 8) c s
def execStsB (_g : BitVec 3) (v a : BitVec 5) (c : BitVec 4) (i : BitVec 9) (s : State) : Out :=
  storeWord .spad 1 v [a] (s.eaImm a i 1) c s
def execStsH (_g : BitVec 3) (v a : BitVec 5) (c : BitVec 4) (i : BitVec 9) (s : State) : Out :=
  storeWord .spad 2 v [a] (s.eaImm a i 2) c s
def execStsW (_g : BitVec 3) (v a : BitVec 5) (c : BitVec 4) (i : BitVec 9) (s : State) : Out :=
  storeWord .spad 4 v [a] (s.eaImm a i 4) c s
def execStsD (_g : BitVec 3) (v a : BitVec 5) (c : BitVec 4) (i : BitVec 9) (s : State) : Out :=
  storeWord .spad 8 v [a] (s.eaImm a i 8) c s
def execLdsBIndexed (_g : BitVec 3) (d a b : BitVec 5) (c : BitVec 4) (s : State) : Out :=
  loadWord .spad 1 true d [a, b] (s.eaIdx a b) c s
def execLdsBuIndexed (_g : BitVec 3) (d a b : BitVec 5) (c : BitVec 4) (s : State) : Out :=
  loadWord .spad 1 false d [a, b] (s.eaIdx a b) c s
def execLdsHIndexed (_g : BitVec 3) (d a b : BitVec 5) (c : BitVec 4) (s : State) : Out :=
  loadWord .spad 2 true d [a, b] (s.eaIdx a b) c s
def execLdsHuIndexed (_g : BitVec 3) (d a b : BitVec 5) (c : BitVec 4) (s : State) : Out :=
  loadWord .spad 2 false d [a, b] (s.eaIdx a b) c s
def execLdsWIndexed (_g : BitVec 3) (d a b : BitVec 5) (c : BitVec 4) (s : State) : Out :=
  loadWord .spad 4 true d [a, b] (s.eaIdx a b) c s
def execLdsWuIndexed (_g : BitVec 3) (d a b : BitVec 5) (c : BitVec 4) (s : State) : Out :=
  loadWord .spad 4 false d [a, b] (s.eaIdx a b) c s
def execLdsDIndexed (_g : BitVec 3) (d a b : BitVec 5) (c : BitVec 4) (s : State) : Out :=
  loadWord .spad 8 true d [a, b] (s.eaIdx a b) c s
def execStsBIndexed (_g : BitVec 3) (v a b : BitVec 5) (c : BitVec 4) (s : State) : Out :=
  storeWord .spad 1 v [a, b] (s.eaIdx a b) c s
def execStsHIndexed (_g : BitVec 3) (v a b : BitVec 5) (c : BitVec 4) (s : State) : Out :=
  storeWord .spad 2 v [a, b] (s.eaIdx a b) c s
def execStsWIndexed (_g : BitVec 3) (v a b : BitVec 5) (c : BitVec 4) (s : State) : Out :=
  storeWord .spad 4 v [a, b] (s.eaIdx a b) c s
def execStsDIndexed (_g : BitVec 3) (v a b : BitVec 5) (c : BitVec 4) (s : State) : Out :=
  storeWord .spad 8 v [a, b] (s.eaIdx a b) c s
def execAmosAdd (_g : BitVec 3) (d a b : BitVec 5) (c : BitVec 4) (s : State) : Out :=
  atomicWord .spad 8 .add d a b c s
def execAmosAnd (_g : BitVec 3) (d a b : BitVec 5) (c : BitVec 4) (s : State) : Out :=
  atomicWord .spad 8 .and_ d a b c s
def execAmosOr (_g : BitVec 3) (d a b : BitVec 5) (c : BitVec 4) (s : State) : Out :=
  atomicWord .spad 8 .or_ d a b c s
def execAmosXor (_g : BitVec 3) (d a b : BitVec 5) (c : BitVec 4) (s : State) : Out :=
  atomicWord .spad 8 .xor_ d a b c s
def execAmosSwap (_g : BitVec 3) (d a b : BitVec 5) (c : BitVec 4) (s : State) : Out :=
  atomicWord .spad 8 .swap d a b c s
def execAmosMin (_g : BitVec 3) (d a b : BitVec 5) (c : BitVec 4) (s : State) : Out :=
  atomicWord .spad 8 .min_ d a b c s
def execAmosMax (_g : BitVec 3) (d a b : BitVec 5) (c : BitVec 4) (s : State) : Out :=
  atomicWord .spad 8 .max_ d a b c s
def execAmosMinu (_g : BitVec 3) (d a b : BitVec 5) (c : BitVec 4) (s : State) : Out :=
  atomicWord .spad 8 .minu d a b c s
def execAmosMaxu (_g : BitVec 3) (d a b : BitVec 5) (c : BitVec 4) (s : State) : Out :=
  atomicWord .spad 8 .maxu d a b c s
def execAmosWAdd (_g : BitVec 3) (d a b : BitVec 5) (c : BitVec 4) (s : State) : Out :=
  atomicWord .spad 4 .add d a b c s
def execAmosWAnd (_g : BitVec 3) (d a b : BitVec 5) (c : BitVec 4) (s : State) : Out :=
  atomicWord .spad 4 .and_ d a b c s
def execAmosWOr (_g : BitVec 3) (d a b : BitVec 5) (c : BitVec 4) (s : State) : Out :=
  atomicWord .spad 4 .or_ d a b c s
def execAmosWXor (_g : BitVec 3) (d a b : BitVec 5) (c : BitVec 4) (s : State) : Out :=
  atomicWord .spad 4 .xor_ d a b c s
def execAmosWSwap (_g : BitVec 3) (d a b : BitVec 5) (c : BitVec 4) (s : State) : Out :=
  atomicWord .spad 4 .swap d a b c s
def execAmosWMin (_g : BitVec 3) (d a b : BitVec 5) (c : BitVec 4) (s : State) : Out :=
  atomicWord .spad 4 .min_ d a b c s
def execAmosWMax (_g : BitVec 3) (d a b : BitVec 5) (c : BitVec 4) (s : State) : Out :=
  atomicWord .spad 4 .max_ d a b c s
def execAmosWMinu (_g : BitVec 3) (d a b : BitVec 5) (c : BitVec 4) (s : State) : Out :=
  atomicWord .spad 4 .minu d a b c s
def execAmosWMaxu (_g : BitVec 3) (d a b : BitVec 5) (c : BitVec 4) (s : State) : Out :=
  atomicWord .spad 4 .maxu d a b c s
def execLdmB (_g : BitVec 3) (d a : BitVec 5) (c : BitVec 4) (i : BitVec 9) (s : State) : Out :=
  loadWord .dev 1 true d [a] (s.eaImm a i 1) c s
def execLdmH (_g : BitVec 3) (d a : BitVec 5) (c : BitVec 4) (i : BitVec 9) (s : State) : Out :=
  loadWord .dev 2 true d [a] (s.eaImm a i 2) c s
def execLdmW (_g : BitVec 3) (d a : BitVec 5) (c : BitVec 4) (i : BitVec 9) (s : State) : Out :=
  loadWord .dev 4 true d [a] (s.eaImm a i 4) c s
def execLdmD (_g : BitVec 3) (d a : BitVec 5) (c : BitVec 4) (i : BitVec 9) (s : State) : Out :=
  loadWord .dev 8 true d [a] (s.eaImm a i 8) c s
def execStmB (_g : BitVec 3) (v a : BitVec 5) (c : BitVec 4) (i : BitVec 9) (s : State) : Out :=
  storeWord .dev 1 v [a] (s.eaImm a i 1) c s
def execStmH (_g : BitVec 3) (v a : BitVec 5) (c : BitVec 4) (i : BitVec 9) (s : State) : Out :=
  storeWord .dev 2 v [a] (s.eaImm a i 2) c s
def execStmW (_g : BitVec 3) (v a : BitVec 5) (c : BitVec 4) (i : BitVec 9) (s : State) : Out :=
  storeWord .dev 4 v [a] (s.eaImm a i 4) c s
def execStmD (_g : BitVec 3) (v a : BitVec 5) (c : BitVec 4) (i : BitVec 9) (s : State) : Out :=
  storeWord .dev 8 v [a] (s.eaImm a i 8) c s
def execLdmBIndexed (_g : BitVec 3) (d a b : BitVec 5) (c : BitVec 4) (s : State) : Out :=
  loadWord .dev 1 true d [a, b] (s.eaIdx a b) c s
def execLdmBuIndexed (_g : BitVec 3) (d a b : BitVec 5) (c : BitVec 4) (s : State) : Out :=
  loadWord .dev 1 false d [a, b] (s.eaIdx a b) c s
def execLdmHIndexed (_g : BitVec 3) (d a b : BitVec 5) (c : BitVec 4) (s : State) : Out :=
  loadWord .dev 2 true d [a, b] (s.eaIdx a b) c s
def execLdmHuIndexed (_g : BitVec 3) (d a b : BitVec 5) (c : BitVec 4) (s : State) : Out :=
  loadWord .dev 2 false d [a, b] (s.eaIdx a b) c s
def execLdmWIndexed (_g : BitVec 3) (d a b : BitVec 5) (c : BitVec 4) (s : State) : Out :=
  loadWord .dev 4 true d [a, b] (s.eaIdx a b) c s
def execLdmWuIndexed (_g : BitVec 3) (d a b : BitVec 5) (c : BitVec 4) (s : State) : Out :=
  loadWord .dev 4 false d [a, b] (s.eaIdx a b) c s
def execLdmDIndexed (_g : BitVec 3) (d a b : BitVec 5) (c : BitVec 4) (s : State) : Out :=
  loadWord .dev 8 true d [a, b] (s.eaIdx a b) c s
def execStmBIndexed (_g : BitVec 3) (v a b : BitVec 5) (c : BitVec 4) (s : State) : Out :=
  storeWord .dev 1 v [a, b] (s.eaIdx a b) c s
def execStmHIndexed (_g : BitVec 3) (v a b : BitVec 5) (c : BitVec 4) (s : State) : Out :=
  storeWord .dev 2 v [a, b] (s.eaIdx a b) c s
def execStmWIndexed (_g : BitVec 3) (v a b : BitVec 5) (c : BitVec 4) (s : State) : Out :=
  storeWord .dev 4 v [a, b] (s.eaIdx a b) c s
def execStmDIndexed (_g : BitVec 3) (v a b : BitVec 5) (c : BitVec 4) (s : State) : Out :=
  storeWord .dev 8 v [a, b] (s.eaIdx a b) c s
def execAmomAdd (_g : BitVec 3) (d a b : BitVec 5) (c : BitVec 4) (s : State) : Out :=
  atomicWord .dev 8 .add d a b c s
def execAmomAnd (_g : BitVec 3) (d a b : BitVec 5) (c : BitVec 4) (s : State) : Out :=
  atomicWord .dev 8 .and_ d a b c s
def execAmomOr (_g : BitVec 3) (d a b : BitVec 5) (c : BitVec 4) (s : State) : Out :=
  atomicWord .dev 8 .or_ d a b c s
def execAmomXor (_g : BitVec 3) (d a b : BitVec 5) (c : BitVec 4) (s : State) : Out :=
  atomicWord .dev 8 .xor_ d a b c s
def execAmomSwap (_g : BitVec 3) (d a b : BitVec 5) (c : BitVec 4) (s : State) : Out :=
  atomicWord .dev 8 .swap d a b c s
def execAmomMin (_g : BitVec 3) (d a b : BitVec 5) (c : BitVec 4) (s : State) : Out :=
  atomicWord .dev 8 .min_ d a b c s
def execAmomMax (_g : BitVec 3) (d a b : BitVec 5) (c : BitVec 4) (s : State) : Out :=
  atomicWord .dev 8 .max_ d a b c s
def execAmomMinu (_g : BitVec 3) (d a b : BitVec 5) (c : BitVec 4) (s : State) : Out :=
  atomicWord .dev 8 .minu d a b c s
def execAmomMaxu (_g : BitVec 3) (d a b : BitVec 5) (c : BitVec 4) (s : State) : Out :=
  atomicWord .dev 8 .maxu d a b c s
def execAmomWAdd (_g : BitVec 3) (d a b : BitVec 5) (c : BitVec 4) (s : State) : Out :=
  atomicWord .dev 4 .add d a b c s
def execAmomWAnd (_g : BitVec 3) (d a b : BitVec 5) (c : BitVec 4) (s : State) : Out :=
  atomicWord .dev 4 .and_ d a b c s
def execAmomWOr (_g : BitVec 3) (d a b : BitVec 5) (c : BitVec 4) (s : State) : Out :=
  atomicWord .dev 4 .or_ d a b c s
def execAmomWXor (_g : BitVec 3) (d a b : BitVec 5) (c : BitVec 4) (s : State) : Out :=
  atomicWord .dev 4 .xor_ d a b c s
def execAmomWSwap (_g : BitVec 3) (d a b : BitVec 5) (c : BitVec 4) (s : State) : Out :=
  atomicWord .dev 4 .swap d a b c s
def execAmomWMin (_g : BitVec 3) (d a b : BitVec 5) (c : BitVec 4) (s : State) : Out :=
  atomicWord .dev 4 .min_ d a b c s
def execAmomWMax (_g : BitVec 3) (d a b : BitVec 5) (c : BitVec 4) (s : State) : Out :=
  atomicWord .dev 4 .max_ d a b c s
def execAmomWMinu (_g : BitVec 3) (d a b : BitVec 5) (c : BitVec 4) (s : State) : Out :=
  atomicWord .dev 4 .minu d a b c s
def execAmomWMaxu (_g : BitVec 3) (d a b : BitVec 5) (c : BitVec 4) (s : State) : Out :=
  atomicWord .dev 4 .maxu d a b c s

/-- The element size and the extension that LDA takes from the bank that holds sa, on b (R155). -/
def Core.ldaRule (k : Core) (base : Nat) : Nat × Bool :=
  if base < accEnd ∧ k.allocated (bankOf base) then
    match fmtOf (k.bank (bankOf base)).type with
    | .int w => (w / 8, true)
    | f => (f.size, false)
  else (4, false)

/-- LDA: one element of accumulator memory (R155).
(DEDUCED, log entry 25). -/
def execLda (_g : BitVec 3) (d a : BitVec 5) (_c : BitVec 4) (i : BitVec 9) (s : State) : Out :=
  let (z, signed) := s.core.ldaRule (s.core.sreg a).toNat
  let ea := s.eaImm a i z
  match s.addrFault .acc ea z with
  | some t => .next t
  | none =>
    reach .acc (·.giveOpen d (loadUsable .acc)) (fun s =>
      .next (s.emit (s.now + s.core.lat (accessBeat .acc))
        (.loadElem ea z signed d.toNat (s.now + s.core.lat (loadUsable .acc)))
        (s.core.baseBad [a] (Space.acc.tagged ea))).retire) s

end Sys2Proof.Machine
end

