-- ==== Sys2Proof/Machine/Scalar.lean ====
section
/-!
DEFINITION. The S track's register words (R145 to R152): integer arithmetic, bit fields and constants.
Each samples its operands on b and writes sd on the beat of R50.
-/

namespace Sys2Proof.Machine

/-- sa, sampled on b. -/
def State.sv (s : State) (n : BitVec 5) : W64 := s.core.sreg n

/-- A word that writes sd with the residue of its value, and is followed by the next word. -/
def aluOut (d : BitVec 5) (v : W64) (lat : Nat) (s : State) : Out := .next ((s.giveS d v lat).retire)

/-- A word that writes sd with a predicted residue (R332). -/
def aluPred (d : BitVec 5) (v : W64) (res : BitVec 4) (lat : Nat) (s : State) : Out :=
  .next ((s.emitS d v res lat).retire)

/-- 1 or 0. -/
def boolW (b : Bool) : W64 := if b then 1 else 0

/-- Shift and rotate counts are taken modulo 64 (R103, R146). -/
def shamt (v : W64) : Nat := v.toNat % 64

def execAdd (_g : BitVec 3) (d a b : BitVec 5) (s : State) : Out :=
  aluPred d (s.sv a + s.sv b) (s.core.resAddSh a b 0) 1 s
def execSub (_g : BitVec 3) (d a b : BitVec 5) (s : State) : Out :=
  aluPred d (s.sv a - s.sv b) (s.core.resSub a b) 1 s
def execAnd (_g : BitVec 3) (d a b : BitVec 5) (s : State) : Out := aluOut d (s.sv a &&& s.sv b) 1 s
def execOr (_g : BitVec 3) (d a b : BitVec 5) (s : State) : Out := aluOut d (s.sv a ||| s.sv b) 1 s
def execXor (_g : BitVec 3) (d a b : BitVec 5) (s : State) : Out := aluOut d (s.sv a ^^^ s.sv b) 1 s
def execShl (_g : BitVec 3) (d a b : BitVec 5) (s : State) : Out := aluOut d (s.sv a <<< shamt (s.sv b)) 1 s
def execShr (_g : BitVec 3) (d a b : BitVec 5) (s : State) : Out := aluOut d (s.sv a >>> shamt (s.sv b)) 1 s
def execSar (_g : BitVec 3) (d a b : BitVec 5) (s : State) : Out :=
  aluOut d ((s.sv a).sshiftRight (shamt (s.sv b))) 1 s
def execRol (_g : BitVec 3) (d a b : BitVec 5) (s : State) : Out :=
  aluOut d ((s.sv a).rotateLeft (shamt (s.sv b))) 1 s
def execMin (_g : BitVec 3) (d a b : BitVec 5) (s : State) : Out :=
  aluOut d (if (s.sv a).slt (s.sv b) then s.sv a else s.sv b) 1 s
def execMax (_g : BitVec 3) (d a b : BitVec 5) (s : State) : Out :=
  aluOut d (if (s.sv a).slt (s.sv b) then s.sv b else s.sv a) 1 s
def execMinu (_g : BitVec 3) (d a b : BitVec 5) (s : State) : Out :=
  aluOut d (if (s.sv a).ult (s.sv b) then s.sv a else s.sv b) 1 s
def execMaxu (_g : BitVec 3) (d a b : BitVec 5) (s : State) : Out :=
  aluOut d (if (s.sv a).ult (s.sv b) then s.sv b else s.sv a) 1 s
def execSlt (_g : BitVec 3) (d a b : BitVec 5) (s : State) : Out := aluOut d (boolW ((s.sv a).slt (s.sv b))) 1 s
def execSltu (_g : BitVec 3) (d a b : BitVec 5) (s : State) : Out := aluOut d (boolW ((s.sv a).ult (s.sv b))) 1 s
def execSeq (_g : BitVec 3) (d a b : BitVec 5) (s : State) : Out := aluOut d (boolW (s.sv a == s.sv b)) 1 s

def execMul (_g : BitVec 3) (d a b : BitVec 5) (s : State) : Out :=
  aluPred d (s.sv a * s.sv b) (s.core.resMul a b) 3 s
def execMulh (_g : BitVec 3) (d a b : BitVec 5) (s : State) : Out :=
  aluOut d (BitVec.ofInt 64 ((s.sv a).toInt * (s.sv b).toInt / 2 ^ 64)) 3 s
def execMulhu (_g : BitVec 3) (d a b : BitVec 5) (s : State) : Out :=
  aluOut d (BitVec.ofNat 64 ((s.sv a).toNat * (s.sv b).toNat / 2 ^ 64)) 3 s

/-- Signed quotient toward zero; by zero all ones, and the overflowing quotient the dividend (R148). -/
def divS (x y : W64) : W64 := if y = 0 then BitVec.allOnes 64 else BitVec.ofInt 64 (x.toInt.tdiv y.toInt)

/-- Signed remainder with the dividend's sign; by zero the dividend (R148). -/
def remS (x y : W64) : W64 := if y = 0 then x else BitVec.ofInt 64 (x.toInt.tmod y.toInt)

/-- Unsigned quotient; by zero all ones (R148). -/
def divU (x y : W64) : W64 := if y = 0 then BitVec.allOnes 64 else BitVec.ofNat 64 (x.toNat / y.toNat)

/-- Unsigned remainder; by zero the dividend (R148). -/
def remU (x y : W64) : W64 := if y = 0 then x else BitVec.ofNat 64 (x.toNat % y.toNat)

def execDiv (_g : BitVec 3) (d a b : BitVec 5) (s : State) : Out := aluOut d (divS (s.sv a) (s.sv b)) 24 s
def execDivu (_g : BitVec 3) (d a b : BitVec 5) (s : State) : Out := aluOut d (divU (s.sv a) (s.sv b)) 24 s
def execRem (_g : BitVec 3) (d a b : BitVec 5) (s : State) : Out := aluOut d (remS (s.sv a) (s.sv b)) 24 s
def execRemu (_g : BitVec 3) (d a b : BitVec 5) (s : State) : Out := aluOut d (remU (s.sv a) (s.sv b)) 24 s

def execAddsh (_g : BitVec 3) (d a b : BitVec 5) (n : BitVec 4) (s : State) : Out :=
  aluPred d (s.sv a + (s.sv b <<< n.toNat)) (s.core.resAddSh a b n.toNat) 1 s
/-- SEL samples sa, sb and sd on b (R147). -/
def execSel (_g : BitVec 3) (d a b : BitVec 5) (s : State) : Out :=
  aluOut d (if s.sv a = 0 then s.sv d else s.sv b) 1 s

/-- Leading zero bits of a w-bit number (R103). -/
def clzN (w x : Nat) : Nat := if x = 0 then w else w - 1 - Nat.log2 x

/-- Trailing zero bits, counted from bit i on with f bits left. -/
def ctzFrom (x : Nat) : Nat → Nat → Nat
  | 0, i => i
  | f + 1, i => if x.testBit i then i else ctzFrom x f (i + 1)

/-- Trailing zero bits of a w-bit number (R103). -/
def ctzN (w x : Nat) : Nat := ctzFrom x w 0

/-- One bits among the low f bits of x. -/
def popcN (x : Nat) : Nat → Nat
  | 0 => 0
  | f + 1 => (if x.testBit f then 1 else 0) + popcN x f

def execClz (_g : BitVec 3) (d a : BitVec 5) (s : State) : Out :=
  aluOut d (BitVec.ofNat 64 (clzN 64 (s.sv a).toNat)) 1 s
def execCtz (_g : BitVec 3) (d a : BitVec 5) (s : State) : Out :=
  aluOut d (BitVec.ofNat 64 (ctzN 64 (s.sv a).toNat)) 1 s
def execPopc (_g : BitVec 3) (d a : BitVec 5) (s : State) : Out :=
  aluOut d (BitVec.ofNat 64 (popcN (s.sv a).toNat 64)) 1 s
def execBswap (_g : BitVec 3) (d a : BitVec 5) (s : State) : Out :=
  aluOut d (BitVec.ofNat 64 (leNat (toLe 8 (s.sv a).toNat).reverse)) 1 s

def execAddi (_g : BitVec 3) (d a : BitVec 5) (i : BitVec 13) (s : State) : Out :=
  aluPred d (s.sv a + i.signExtend 64) (s.core.resAddImm a (i.signExtend 64)) 1 s
def execAndi (_g : BitVec 3) (d a : BitVec 5) (i : BitVec 13) (s : State) : Out :=
  aluOut d (s.sv a &&& i.setWidth 64) 1 s
def execOri (_g : BitVec 3) (d a : BitVec 5) (i : BitVec 13) (s : State) : Out :=
  aluOut d (s.sv a ||| i.setWidth 64) 1 s
def execXori (_g : BitVec 3) (d a : BitVec 5) (i : BitVec 13) (s : State) : Out :=
  aluOut d (s.sv a ^^^ i.setWidth 64) 1 s
def execShli (_g : BitVec 3) (d a : BitVec 5) (n : BitVec 6) (s : State) : Out := aluOut d (s.sv a <<< n.toNat) 1 s
def execShri (_g : BitVec 3) (d a : BitVec 5) (n : BitVec 6) (s : State) : Out := aluOut d (s.sv a >>> n.toNat) 1 s
def execSari (_g : BitVec 3) (d a : BitVec 5) (n : BitVec 6) (s : State) : Out :=
  aluOut d ((s.sv a).sshiftRight n.toNat) 1 s
def execSlti (_g : BitVec 3) (d a : BitVec 5) (i : BitVec 13) (s : State) : Out :=
  aluOut d (boolW ((s.sv a).slt (i.signExtend 64))) 1 s

/-- The field of width w + 1 at bit q (R151). -/
def fieldOf (v : W64) (q w : BitVec 6) : Nat := bits v.toNat (q.toNat + w.toNat) q.toNat

def execExts (_g : BitVec 3) (d a : BitVec 5) (q w : BitVec 6) (s : State) : Out :=
  aluOut d (sx (w.toNat + 1) (fieldOf (s.sv a) q w)) 1 s
def execExtu (_g : BitVec 3) (d a : BitVec 5) (q w : BitVec 6) (s : State) : Out :=
  aluOut d (BitVec.ofNat 64 (fieldOf (s.sv a) q w)) 1 s
/-- INS keeps the other bits of sd, sampled on b (R151). -/
def execIns (_g : BitVec 3) (d a : BitVec 5) (q w : BitVec 6) (s : State) : Out :=
  aluOut d (BitVec.ofNat 64 (setBits (s.sv d).toNat (q.toNat + w.toNat) q.toNat (s.sv a).toNat)) 1 s

def execLi (_g : BitVec 3) (d : BitVec 5) (i : BitVec 18) (s : State) : Out :=
  aluPred d (i.signExtend 64) (residueOf (i.signExtend 64)) 1 s
def execLih (_g : BitVec 3) (d : BitVec 5) (i : BitVec 18) (s : State) : Out :=
  aluPred d ((s.sv d <<< 18) ||| i.setWidth 64) (s.core.resLih d i.toNat) 1 s

end Sys2Proof.Machine
end

