-- ==== Sys2Proof/Machine/Dispatch.lean ====
section
/-!
DEFINITION. The dispatch: one arm per constructor of Instr, each one direct call of its meaning.
-/

namespace Sys2Proof.Machine

/-- The meaning of an instruction in a state: words run for the unit State.cur names. -/
def exec (i : Instr) (s : State) : Host.Outcome State Fault Refusal :=
  match i with
  | .anchor => Sys2Proof.Machine.execAnchor s
  | .rendez g => Sys2Proof.Machine.execRendez g s
  | .idle g m => Sys2Proof.Machine.execIdle g m s
  | .mcall g e p q r => Sys2Proof.Machine.execMcall g e p q r s
  | .add g d a b => Sys2Proof.Machine.execAdd g d a b s
  | .sub g d a b => Sys2Proof.Machine.execSub g d a b s
  | .and_ g d a b => Sys2Proof.Machine.execAnd g d a b s
  | .or_ g d a b => Sys2Proof.Machine.execOr g d a b s
  | .xor_ g d a b => Sys2Proof.Machine.execXor g d a b s
  | .shl g d a b => Sys2Proof.Machine.execShl g d a b s
  | .shr g d a b => Sys2Proof.Machine.execShr g d a b s
  | .sar g d a b => Sys2Proof.Machine.execSar g d a b s
  | .rol g d a b => Sys2Proof.Machine.execRol g d a b s
  | .min_ g d a b => Sys2Proof.Machine.execMin g d a b s
  | .max_ g d a b => Sys2Proof.Machine.execMax g d a b s
  | .minu g d a b => Sys2Proof.Machine.execMinu g d a b s
  | .maxu g d a b => Sys2Proof.Machine.execMaxu g d a b s
  | .slt g d a b => Sys2Proof.Machine.execSlt g d a b s
  | .sltu g d a b => Sys2Proof.Machine.execSltu g d a b s
  | .seq g d a b => Sys2Proof.Machine.execSeq g d a b s
  | .mul g d a b => Sys2Proof.Machine.execMul g d a b s
  | .mulh g d a b => Sys2Proof.Machine.execMulh g d a b s
  | .mulhu g d a b => Sys2Proof.Machine.execMulhu g d a b s
  | .div g d a b => Sys2Proof.Machine.execDiv g d a b s
  | .divu g d a b => Sys2Proof.Machine.execDivu g d a b s
  | .rem g d a b => Sys2Proof.Machine.execRem g d a b s
  | .remu g d a b => Sys2Proof.Machine.execRemu g d a b s
  | .addsh g d a b n => Sys2Proof.Machine.execAddsh g d a b n s
  | .sel g d a b => Sys2Proof.Machine.execSel g d a b s
  | .clz g d a => Sys2Proof.Machine.execClz g d a s
  | .ctz g d a => Sys2Proof.Machine.execCtz g d a s
  | .popc g d a => Sys2Proof.Machine.execPopc g d a s
  | .bswap g d a => Sys2Proof.Machine.execBswap g d a s
  | .addi g d a imm => Sys2Proof.Machine.execAddi g d a imm s
  | .andi g d a imm => Sys2Proof.Machine.execAndi g d a imm s
  | .ori g d a imm => Sys2Proof.Machine.execOri g d a imm s
  | .xori g d a imm => Sys2Proof.Machine.execXori g d a imm s
  | .shli g d a n => Sys2Proof.Machine.execShli g d a n s
  | .shri g d a n => Sys2Proof.Machine.execShri g d a n s
  | .sari g d a n => Sys2Proof.Machine.execSari g d a n s
  | .slti g d a imm => Sys2Proof.Machine.execSlti g d a imm s
  | .exts g d a q w => Sys2Proof.Machine.execExts g d a q w s
  | .extu g d a q w => Sys2Proof.Machine.execExtu g d a q w s
  | .ins g d a q w => Sys2Proof.Machine.execIns g d a q w s
  | .li g d imm => Sys2Proof.Machine.execLi g d imm s
  | .lih g d imm => Sys2Proof.Machine.execLih g d imm s
  | .ldsB g d a c imm => Sys2Proof.Machine.execLdsB g d a c imm s
  | .ldsH g d a c imm => Sys2Proof.Machine.execLdsH g d a c imm s
  | .ldsW g d a c imm => Sys2Proof.Machine.execLdsW g d a c imm s
  | .ldsD g d a c imm => Sys2Proof.Machine.execLdsD g d a c imm s
  | .stsB g src a c imm => Sys2Proof.Machine.execStsB g src a c imm s
  | .stsH g src a c imm => Sys2Proof.Machine.execStsH g src a c imm s
  | .stsW g src a c imm => Sys2Proof.Machine.execStsW g src a c imm s
  | .stsD g src a c imm => Sys2Proof.Machine.execStsD g src a c imm s
  | .ldmB g d a c imm => Sys2Proof.Machine.execLdmB g d a c imm s
  | .ldmH g d a c imm => Sys2Proof.Machine.execLdmH g d a c imm s
  | .ldmW g d a c imm => Sys2Proof.Machine.execLdmW g d a c imm s
  | .ldmD g d a c imm => Sys2Proof.Machine.execLdmD g d a c imm s
  | .stmB g src a c imm => Sys2Proof.Machine.execStmB g src a c imm s
  | .stmH g src a c imm => Sys2Proof.Machine.execStmH g src a c imm s
  | .stmW g src a c imm => Sys2Proof.Machine.execStmW g src a c imm s
  | .stmD g src a c imm => Sys2Proof.Machine.execStmD g src a c imm s
  | .lda g d a c imm => Sys2Proof.Machine.execLda g d a c imm s
  | .ldsBIndexed g d a b c => Sys2Proof.Machine.execLdsBIndexed g d a b c s
  | .ldsHIndexed g d a b c => Sys2Proof.Machine.execLdsHIndexed g d a b c s
  | .ldsWIndexed g d a b c => Sys2Proof.Machine.execLdsWIndexed g d a b c s
  | .ldsDIndexed g d a b c => Sys2Proof.Machine.execLdsDIndexed g d a b c s
  | .ldsBuIndexed g d a b c => Sys2Proof.Machine.execLdsBuIndexed g d a b c s
  | .ldsHuIndexed g d a b c => Sys2Proof.Machine.execLdsHuIndexed g d a b c s
  | .ldsWuIndexed g d a b c => Sys2Proof.Machine.execLdsWuIndexed g d a b c s
  | .stsBIndexed g src a b c => Sys2Proof.Machine.execStsBIndexed g src a b c s
  | .stsHIndexed g src a b c => Sys2Proof.Machine.execStsHIndexed g src a b c s
  | .stsWIndexed g src a b c => Sys2Proof.Machine.execStsWIndexed g src a b c s
  | .stsDIndexed g src a b c => Sys2Proof.Machine.execStsDIndexed g src a b c s
  | .ldmBIndexed g d a b c => Sys2Proof.Machine.execLdmBIndexed g d a b c s
  | .ldmHIndexed g d a b c => Sys2Proof.Machine.execLdmHIndexed g d a b c s
  | .ldmWIndexed g d a b c => Sys2Proof.Machine.execLdmWIndexed g d a b c s
  | .ldmDIndexed g d a b c => Sys2Proof.Machine.execLdmDIndexed g d a b c s
  | .ldmBuIndexed g d a b c => Sys2Proof.Machine.execLdmBuIndexed g d a b c s
  | .ldmHuIndexed g d a b c => Sys2Proof.Machine.execLdmHuIndexed g d a b c s
  | .ldmWuIndexed g d a b c => Sys2Proof.Machine.execLdmWuIndexed g d a b c s
  | .stmBIndexed g src a b c => Sys2Proof.Machine.execStmBIndexed g src a b c s
  | .stmHIndexed g src a b c => Sys2Proof.Machine.execStmHIndexed g src a b c s
  | .stmWIndexed g src a b c => Sys2Proof.Machine.execStmWIndexed g src a b c s
  | .stmDIndexed g src a b c => Sys2Proof.Machine.execStmDIndexed g src a b c s
  | .amosAdd g d a b c => Sys2Proof.Machine.execAmosAdd g d a b c s
  | .amosAnd g d a b c => Sys2Proof.Machine.execAmosAnd g d a b c s
  | .amosOr g d a b c => Sys2Proof.Machine.execAmosOr g d a b c s
  | .amosXor g d a b c => Sys2Proof.Machine.execAmosXor g d a b c s
  | .amosSwap g d a b c => Sys2Proof.Machine.execAmosSwap g d a b c s
  | .amosMin g d a b c => Sys2Proof.Machine.execAmosMin g d a b c s
  | .amosMax g d a b c => Sys2Proof.Machine.execAmosMax g d a b c s
  | .amosMinu g d a b c => Sys2Proof.Machine.execAmosMinu g d a b c s
  | .amosMaxu g d a b c => Sys2Proof.Machine.execAmosMaxu g d a b c s
  | .amosWAdd g d a b c => Sys2Proof.Machine.execAmosWAdd g d a b c s
  | .amosWAnd g d a b c => Sys2Proof.Machine.execAmosWAnd g d a b c s
  | .amosWOr g d a b c => Sys2Proof.Machine.execAmosWOr g d a b c s
  | .amosWXor g d a b c => Sys2Proof.Machine.execAmosWXor g d a b c s
  | .amosWSwap g d a b c => Sys2Proof.Machine.execAmosWSwap g d a b c s
  | .amosWMin g d a b c => Sys2Proof.Machine.execAmosWMin g d a b c s
  | .amosWMax g d a b c => Sys2Proof.Machine.execAmosWMax g d a b c s
  | .amosWMinu g d a b c => Sys2Proof.Machine.execAmosWMinu g d a b c s
  | .amosWMaxu g d a b c => Sys2Proof.Machine.execAmosWMaxu g d a b c s
  | .amomAdd g d a b c => Sys2Proof.Machine.execAmomAdd g d a b c s
  | .amomAnd g d a b c => Sys2Proof.Machine.execAmomAnd g d a b c s
  | .amomOr g d a b c => Sys2Proof.Machine.execAmomOr g d a b c s
  | .amomXor g d a b c => Sys2Proof.Machine.execAmomXor g d a b c s
  | .amomSwap g d a b c => Sys2Proof.Machine.execAmomSwap g d a b c s
  | .amomMin g d a b c => Sys2Proof.Machine.execAmomMin g d a b c s
  | .amomMax g d a b c => Sys2Proof.Machine.execAmomMax g d a b c s
  | .amomMinu g d a b c => Sys2Proof.Machine.execAmomMinu g d a b c s
  | .amomMaxu g d a b c => Sys2Proof.Machine.execAmomMaxu g d a b c s
  | .amomWAdd g d a b c => Sys2Proof.Machine.execAmomWAdd g d a b c s
  | .amomWAnd g d a b c => Sys2Proof.Machine.execAmomWAnd g d a b c s
  | .amomWOr g d a b c => Sys2Proof.Machine.execAmomWOr g d a b c s
  | .amomWXor g d a b c => Sys2Proof.Machine.execAmomWXor g d a b c s
  | .amomWSwap g d a b c => Sys2Proof.Machine.execAmomWSwap g d a b c s
  | .amomWMin g d a b c => Sys2Proof.Machine.execAmomWMin g d a b c s
  | .amomWMax g d a b c => Sys2Proof.Machine.execAmomWMax g d a b c s
  | .amomWMinu g d a b c => Sys2Proof.Machine.execAmomWMinu g d a b c s
  | .amomWMaxu g d a b c => Sys2Proof.Machine.execAmomWMaxu g d a b c s
  | .beq g a b o => Sys2Proof.Machine.execBeq g a b o s
  | .bne g a b o => Sys2Proof.Machine.execBne g a b o s
  | .blt g a b o => Sys2Proof.Machine.execBlt g a b o s
  | .bge g a b o => Sys2Proof.Machine.execBge g a b o s
  | .bltu g a b o => Sys2Proof.Machine.execBltu g a b o s
  | .bgeu g a b o => Sys2Proof.Machine.execBgeu g a b o s
  | .jmp g imm => Sys2Proof.Machine.execJmp g imm s
  | .call g d imm => Sys2Proof.Machine.execCall g d imm s
  | .jr g a => Sys2Proof.Machine.execJr g a s
  | .brq g a b z j => Sys2Proof.Machine.execBrq g a b z j s
  | .kloop g k l n => Sys2Proof.Machine.execKloop g k l n s
  | .kloopReg g k l r => Sys2Proof.Machine.execKloopReg g k l r s
  | .cfence g src v c m => Sys2Proof.Machine.execCfence g src v c m s
  | .belay g => Sys2Proof.Machine.execBelay g s
  | .resync g a m => Sys2Proof.Machine.execResync g a m s
  | .gearH g => Sys2Proof.Machine.execGearH g s
  | .gearL g => Sys2Proof.Machine.execGearL g s
  | .commit g => Sys2Proof.Machine.execCommit g s
  | .rdctr g d src => Sys2Proof.Machine.execRdctr g d src s
  | .stat g d a => Sys2Proof.Machine.execStat g d a s
  | .break_ g c => Sys2Proof.Machine.execBreak g c s
  | .xpre g a z => Sys2Proof.Machine.execXpre g a z s
  | .sfork g a => Sys2Proof.Machine.execSfork g a s
  | .scancel g a => Sys2Proof.Machine.execScancel g a s
  | .scancelT g a => Sys2Proof.Machine.execScancelT g a s
  | .retract g x a => Sys2Proof.Machine.execRetract g x a s
  | .xstep g p => Sys2Proof.Machine.execXstep g p s
  | .posq g d a src => Sys2Proof.Machine.execPosq g d a src s
  | .rdsys g d n => Sys2Proof.Machine.execRdsys g d n s
  | .wrsys g a n => Sys2Proof.Machine.execWrsys g a n s
  | .xlatw g a imm => Sys2Proof.Machine.execXlatw g a imm s
  | .xlati g a l imm => Sys2Proof.Machine.execXlati g a l imm s
  | .resume g a => Sys2Proof.Machine.execResume g a s
  | .holdx g c => Sys2Proof.Machine.execHoldx g c s
  | .vadd g p z d a b => Sys2Proof.Machine.execVadd g p z d a b s
  | .vsub g p z d a b => Sys2Proof.Machine.execVsub g p z d a b s
  | .vmul g p z d a b => Sys2Proof.Machine.execVmul g p z d a b s
  | .vfma g p z d a b => Sys2Proof.Machine.execVfma g p z d a b s
  | .vfms g p z d a b => Sys2Proof.Machine.execVfms g p z d a b s
  | .vfnma g p z d a b => Sys2Proof.Machine.execVfnma g p z d a b s
  | .vmin g p z d a b => Sys2Proof.Machine.execVmin g p z d a b s
  | .vmax g p z d a b => Sys2Proof.Machine.execVmax g p z d a b s
  | .vaddc g p z d a b => Sys2Proof.Machine.execVaddc g p z d a b s
  | .vcpysgn g p z d a b => Sys2Proof.Machine.execVcpysgn g p z d a b s
  | .vabs g p z d a => Sys2Proof.Machine.execVabs g p z d a s
  | .vneg g p z d a => Sys2Proof.Machine.execVneg g p z d a s
  | .vrcp g p z d a => Sys2Proof.Machine.execVrcp g p z d a s
  | .vrsq g p z d a => Sys2Proof.Machine.execVrsq g p z d a s
  | .vsqrt g p z d a => Sys2Proof.Machine.execVsqrt g p z d a s
  | .vexp2 g p z d a => Sys2Proof.Machine.execVexp2 g p z d a s
  | .vlog2 g p z d a => Sys2Proof.Machine.execVlog2 g p z d a s
  | .vsin g p z d a => Sys2Proof.Machine.execVsin g p z d a s
  | .vcos g p z d a => Sys2Proof.Machine.execVcos g p z d a s
  | .vtanh g p z d a => Sys2Proof.Machine.execVtanh g p z d a s
  | .vsigm g p z d a => Sys2Proof.Machine.execVsigm g p z d a s
  | .vclass g p z d a => Sys2Proof.Machine.execVclass g p z d a s
  | .viadd g p z d a b => Sys2Proof.Machine.execViadd g p z d a b s
  | .visub g p z d a b => Sys2Proof.Machine.execVisub g p z d a b s
  | .vimul g p z d a b => Sys2Proof.Machine.execVimul g p z d a b s
  | .vimulh g p z d a b => Sys2Proof.Machine.execVimulh g p z d a b s
  | .vimin g p z d a b => Sys2Proof.Machine.execVimin g p z d a b s
  | .vimax g p z d a b => Sys2Proof.Machine.execVimax g p z d a b s
  | .vand g p z d a b => Sys2Proof.Machine.execVand g p z d a b s
  | .vor g p z d a b => Sys2Proof.Machine.execVor g p z d a b s
  | .vxor g p z d a b => Sys2Proof.Machine.execVxor g p z d a b s
  | .vshl g p z d a b => Sys2Proof.Machine.execVshl g p z d a b s
  | .vshr g p z d a b => Sys2Proof.Machine.execVshr g p z d a b s
  | .vsar g p z d a b => Sys2Proof.Machine.execVsar g p z d a b s
  | .vclz g p z d a => Sys2Proof.Machine.execVclz g p z d a s
  | .vctz g p z d a => Sys2Proof.Machine.execVctz g p z d a s
  | .vpopc g p z d a => Sys2Proof.Machine.execVpopc g p z d a s
  | .vsatnS g p z d a => Sys2Proof.Machine.execVsatnS g p z d a s
  | .vsatnU g p z d a => Sys2Proof.Machine.execVsatnU g p z d a s
  | .vidx g p z d => Sys2Proof.Machine.execVidx g p z d s
  | .vcmpEq g p d a b => Sys2Proof.Machine.execVcmpEq g p d a b s
  | .vcmpNe g p d a b => Sys2Proof.Machine.execVcmpNe g p d a b s
  | .vcmpLt g p d a b => Sys2Proof.Machine.execVcmpLt g p d a b s
  | .vcmpLe g p d a b => Sys2Proof.Machine.execVcmpLe g p d a b s
  | .vcmpUn g p d a b => Sys2Proof.Machine.execVcmpUn g p d a b s
  | .vcmpOrd g p d a b => Sys2Proof.Machine.execVcmpOrd g p d a b s
  | .vsel g p d a b => Sys2Proof.Machine.execVsel g p d a b s
  | .vcvt g p z d a t m => Sys2Proof.Machine.execVcvt g p z d a t m s
  | .vpack g p z d a b => Sys2Proof.Machine.execVpack g p z d a b s
  | .vunpk g p z d a => Sys2Proof.Machine.execVunpk g p z d a s
  | .vordkey g p z d a => Sys2Proof.Machine.execVordkey g p z d a s
  | .vkeyord g p z d a => Sys2Proof.Machine.execVkeyord g p z d a s
  | .vrsum g p d a => Sys2Proof.Machine.execVrsum g p d a s
  | .vrmax g p d a => Sys2Proof.Machine.execVrmax g p d a s
  | .vrmin g p d a => Sys2Proof.Machine.execVrmin g p d a s
  | .vrargmax g p d a => Sys2Proof.Machine.execVrargmax g p d a s
  | .vrargmin g p d a => Sys2Proof.Machine.execVrargmin g p d a s
  | .vbcast g p z d imm x => Sys2Proof.Machine.execVbcast g p z d imm x s
  | .vrot g p z d a imm x => Sys2Proof.Machine.execVrot g p z d a imm x s
  | .vslide g p z d a imm x => Sys2Proof.Machine.execVslide g p z d a imm x s
  | .vshuf g p z d a b => Sys2Proof.Machine.execVshuf g p z d a b s
  | .vextr g p z d a imm x => Sys2Proof.Machine.execVextr g p z d a imm x s
  | .vinsrt g p z d k imm x => Sys2Proof.Machine.execVinsrt g p z d k imm x s
  | .vhist g p d a b => Sys2Proof.Machine.execVhist g p d a b s
  | .vprefix g p z d a => Sys2Proof.Machine.execVprefix g p z d a s
  | .vprefixX g p z d a => Sys2Proof.Machine.execVprefixX g p z d a s
  | .vcompact g p d a => Sys2Proof.Machine.execVcompact g p d a s
  | .vld g p z d src c imm => Sys2Proof.Machine.execVld g p z d src c imm s
  | .vst g p d src c imm => Sys2Proof.Machine.execVst g p d src c imm s
  | .vlds g p z d src c imm => Sys2Proof.Machine.execVlds g p z d src c imm s
  | .vsts g p d src c imm => Sys2Proof.Machine.execVsts g p d src c imm s
  | .vgath g p z d a c src => Sys2Proof.Machine.execVgath g p z d a c src s
  | .vscat g p d a c src => Sys2Proof.Machine.execVscat g p d a c src s
  | .vmov g p z d a => Sys2Proof.Machine.execVmov g p z d a s
  | .vzero g p z d => Sys2Proof.Machine.execVzero g p z d s
  | .vbindV g k => Sys2Proof.Machine.execVbindV g k s
  | .vbindW g k => Sys2Proof.Machine.execVbindW g k s
  | .vbindMap g m => Sys2Proof.Machine.execVbindMap g m s
  | .prot g m => Sys2Proof.Machine.execProt g m s
  | .mloop g l src k n => Sys2Proof.Machine.execMloop g l src k n s
  | .mloopReg g l src k r => Sys2Proof.Machine.execMloopReg g l src k r s
  | .pand g d a b => Sys2Proof.Machine.execPand g d a b s
  | .por g d a b => Sys2Proof.Machine.execPor g d a b s
  | .pxor g d a b => Sys2Proof.Machine.execPxor g d a b s
  | .pandn g d a b => Sys2Proof.Machine.execPandn g d a b s
  | .pnot g d a => Sys2Proof.Machine.execPnot g d a s
  | .pmov g d a => Sys2Proof.Machine.execPmov g d a s
  | .pset g d => Sys2Proof.Machine.execPset g d s
  | .pclr g d => Sys2Proof.Machine.execPclr g d s
  | .pcnt g d a => Sys2Proof.Machine.execPcnt g d a s
  | .pfirst g d a => Sys2Proof.Machine.execPfirst g d a s
  | .plast g d a => Sys2Proof.Machine.execPlast g d a s
  | .mmaBf16 g a b k r src p => Sys2Proof.Machine.execMmaBf16 g a b k r src p s
  | .mmaFp16 g a b k r src p => Sys2Proof.Machine.execMmaFp16 g a b k r src p s
  | .mmaB8 g a b k r u x f => Sys2Proof.Machine.execMmaB8 g a b k r u x f s
  | .mmat g a b k r p => Sys2Proof.Machine.execMmat g a b k r p s
  | .mgrpBf16 g a b k src p => Sys2Proof.Machine.execMgrpBf16 g a b k src p s
  | .mgrpFp16 g a b k src p => Sys2Proof.Machine.execMgrpFp16 g a b k src p s
  | .mscaleA g src => Sys2Proof.Machine.execMscaleA g src s
  | .mscaleB g src => Sys2Proof.Machine.execMscaleB g src s
  | .balloc g k t o => Sys2Proof.Machine.execBalloc g k t o s
  | .bfree g k => Sys2Proof.Machine.execBfree g k s
  | .bband g k o => Sys2Proof.Machine.execBband g k o s
  | .qinit g q src => Sys2Proof.Machine.execQinit g q src s
  | .qskip g q => Sys2Proof.Machine.execQskip g q s
  | .rmode g src m => Sys2Proof.Machine.execRmode g src m s
  | .ftset g e src => Sys2Proof.Machine.execFtset g e src s
  | .ramp g => Sys2Proof.Machine.execRamp g s
  | .tstart g => Sys2Proof.Machine.execTstart g s
  | .mzero g k r => Sys2Proof.Machine.execMzero g k r s
  | .cpy g d src l t => Sys2Proof.Machine.execCpy g d src l t s
  | .cpya g d src l t => Sys2Proof.Machine.execCpya g d src l t s
  | .cpy2 g d src l h t => Sys2Proof.Machine.execCpy2 g d src l h t s
  | .cpyq g q src l t => Sys2Proof.Machine.execCpyq g q src l t s
  | .cpysel g d src l t => Sys2Proof.Machine.execCpysel g d src l t s
  | .send g l r h k x => Sys2Proof.Machine.execSend g l r h k x s
  | .recv g l r k x => Sys2Proof.Machine.execRecv g l r k x s
  | .collArsum g d src p => Sys2Proof.Machine.execCollArsum g d src p s
  | .collArmax g d src p => Sys2Proof.Machine.execCollArmax g d src p s
  | .collRs g d src p => Sys2Proof.Machine.execCollRs g d src p s
  | .collAg g d src p => Sys2Proof.Machine.execCollAg g d src p s
  | .collBc g d src p => Sys2Proof.Machine.execCollBc g d src p s
  | .collXp g d src p => Sys2Proof.Machine.execCollXp g d src p s
  | .collq g d p => Sys2Proof.Machine.execCollq g d p s
  | .listen g d src l t => Sys2Proof.Machine.execListen g d src l t s
  | .speak g src l t => Sys2Proof.Machine.execSpeak g src l t s
  | .dli g d n imm => Sys2Proof.Machine.execDli g d n imm s
  | .dset g d a => Sys2Proof.Machine.execDset g d a s
  | .dget g d src => Sys2Proof.Machine.execDget g d src s
  | .cloop g l n => Sys2Proof.Machine.execCloop g l n s
  | .cloopReg g l r => Sys2Proof.Machine.execCloopReg g l r s
  | .activate ctx image => Sys2Proof.Machine.execActivate ctx image s
  | .deactivate ctx => Sys2Proof.Machine.execDeactivate ctx s
  | .streamAdd ctx sid llog prep lring lwp spk play => Sys2Proof.Machine.execStreamAdd ctx sid llog prep lring lwp spk play s
  | .streamReset ctx sid => Sys2Proof.Machine.execStreamReset ctx sid s
  | .streamEnd ctx sid => Sys2Proof.Machine.execStreamEnd ctx sid s
  | .gridSet ctx epoch table count => Sys2Proof.Machine.execGridSet ctx epoch table count s
  | .fillSet ctx count codes => Sys2Proof.Machine.execFillSet ctx count codes s
  | .keySet ctx sid key => Sys2Proof.Machine.execKeySet ctx sid key s
  | .notifyWrite pkt ctx value => Sys2Proof.Machine.execNotifyWrite pkt ctx value s
  | .resmapWrite pkt part index value => Sys2Proof.Machine.execResmapWrite pkt part index value s
  | .systemRegisterWrite pkt part n value => Sys2Proof.Machine.execSystemRegisterWrite pkt part n value s
  | .hostWrite pkt addr bytes => Sys2Proof.Machine.execHostWrite pkt addr bytes s
  | .slotStart part => Sys2Proof.Machine.execSlotStart part s
  | .turn part => Sys2Proof.Machine.execTurn part s
  | .stepCommit part => Sys2Proof.Machine.execStepCommit part s
  | .deadline part => Sys2Proof.Machine.execDeadline part s
  | .release part => Sys2Proof.Machine.execRelease part s
  | .jobLoadComplete part index => Sys2Proof.Machine.execJobLoadComplete part index s
  | .eventAck ctx => Sys2Proof.Machine.execEventAck ctx s
  | .writePerform rope core k => Sys2Proof.Machine.execWritePerform rope core k s
  | .copyStart rope core k => Sys2Proof.Machine.execCopyStart rope core k s
  | .copyChunk rope core k => Sys2Proof.Machine.execCopyChunk rope core k s
  | .ropeFlitArrival part k => Sys2Proof.Machine.execRopeFlitArrival part k s
  | .mmaWriteback rope core k => Sys2Proof.Machine.execMmaWriteback rope core k s
  | .collResultPerform rope core k => Sys2Proof.Machine.execCollResultPerform rope core k s
  | .holdEnd part => Sys2Proof.Machine.execHoldEnd part s
  | .walkComplete k => Sys2Proof.Machine.execWalkComplete k s
  | .pitchReplay rope core => Sys2Proof.Machine.execPitchReplay rope core s
  | .watchdog part => Sys2Proof.Machine.execWatchdog part s
  | .urgentPreemption part => Sys2Proof.Machine.execUrgentPreemption part s
  | .urgentStep part => Sys2Proof.Machine.execUrgentStep part s
  | .halt part => Sys2Proof.Machine.execHalt part s
  | .run part => Sys2Proof.Machine.execRun part s
  | .freeze => Sys2Proof.Machine.execFreeze s
  | .thaw => Sys2Proof.Machine.execThaw s
  | .droopEpisode beatFs => Sys2Proof.Machine.execDroopEpisode beatFs s
  | .droopEnd => Sys2Proof.Machine.execDroopEnd s
  | .thermalRead die0 die1 die2 die3 io => Sys2Proof.Machine.execThermalRead die0 die1 die2 die3 io s
  | .tripTimeout => Sys2Proof.Machine.execTripTimeout s
  | .telemetryUpdate => Sys2Proof.Machine.execTelemetryUpdate s
  | .powerGood pufOk => Sys2Proof.Machine.execPowerGood pufOk s
  | .imageSlotsRead => Sys2Proof.Machine.execImageSlotsRead s
  | .config => Sys2Proof.Machine.execConfig s
  | .trainComplete => Sys2Proof.Machine.execTrainComplete s
  | .trainFail => Sys2Proof.Machine.execTrainFail s
  | .attestationResponse flashOk => Sys2Proof.Machine.execAttestationResponse flashOk s
  | .ptpMessage domain peerToPeer stepNs => Sys2Proof.Machine.execPtpMessage domain peerToPeer stepNs s
  | .stepMark part gen frame time => Sys2Proof.Machine.execStepMark part gen frame time s
  | .stepMarkTimeout part => Sys2Proof.Machine.execStepMarkTimeout part s
  | .sequencerRequest chip part key ask => Sys2Proof.Machine.execSequencerRequest chip part key ask s
  | .standbyAck number => Sys2Proof.Machine.execStandbyAck number s
  | .deferredNumbering => Sys2Proof.Machine.execDeferredNumbering s
  | .startNumber number gen key note => Sys2Proof.Machine.execStartNumber number gen key note s
  | .collectiveStart rope core k => Sys2Proof.Machine.execCollectiveStart rope core k s
  | .collectiveData key rank bytes poison => Sys2Proof.Machine.execCollectiveData key rank bytes poison s
  | .collWithdrawal chip key sampled => Sys2Proof.Machine.execCollWithdrawal chip key sampled s
  | .heartbeat chip gen news => Sys2Proof.Machine.execHeartbeat chip gen news s
  | .heartbeatTimeout chip => Sys2Proof.Machine.execHeartbeatTimeout chip s
  | .sequencerAnnounce chip gen => Sys2Proof.Machine.execSequencerAnnounce chip gen s
  | .resetOrPowerLoss => Sys2Proof.Machine.execResetOrPowerLoss s
  | .flashRewrite slot bytes => Sys2Proof.Machine.execFlashRewrite slot bytes s

end Sys2Proof.Machine
end

