-- ==== Sys2Proof/Machine/Due.lean ====
section
/-!
DEFINITION. What a step of the device is next: an event that has come due, the next word of a track, or a part of
a beat that no instruction of the table names. Beats run as R76 orders them: registers that become usable, words
by rope, core and track, samples, writes in the order of their words' issue, ring registers last.
-/

namespace Sys2Proof.Machine

/-- What happens next: an instruction in a state, or only a new state. -/
structure Due where
  st : State
  ins : Option Instr

/-- The next thing is an instruction. -/
def runs (i : Instr) (s : State) : Option Due := some { st := s, ins := some i }

/-- The next thing is a change of state. -/
def acts (s : State) : Option Due := some { st := s, ins := none }

/-- The first of some candidates. -/
def firstDue {α : Type} (xs : List α) (f : α → Option Due) : Option Due := xs.findSome? f

/-- Every entry of a list that a test names, by index. -/
def listed {α β : Type} (xs : List α) (ok : α → Bool) (f : Nat → α → β) : List β :=
  ((range 0 xs.length).zip xs).filterMap fun (i, x) => if ok x then some (f i x) else none

/-! ## What comes from outside -/

/-- Events that reach the device from outside, or whose time the spec leaves open; nothing else in the inbox has
an effect.
(DESIGN CHOICE, log entry 6). -/
def outside : Instr → Bool
  | .notifyWrite .. | .resmapWrite .. | .systemRegisterWrite .. | .hostWrite .. | .eventAck .. | .jobLoadComplete ..
  | .walkComplete .. | .halt .. | .run .. | .freeze | .thaw | .droopEpisode .. | .droopEnd
  | .powerGood .. | .imageSlotsRead | .config | .trainComplete | .trainFail | .ptpMessage ..
  | .sequencerRequest .. | .standbyAck .. | .startNumber .. | .collectiveData .. | .collWithdrawal .. | .heartbeat ..
  | .sequencerAnnounce .. | .resetOrPowerLoss | .flashRewrite .. => true
  | _ => false

/-- Events of bring-up: the only ones before READY (R355). -/
def atBoot : Instr → Bool
  | .powerGood .. | .imageSlotsRead | .config | .trainComplete | .trainFail | .resetOrPowerLoss
  | .flashRewrite .. => true
  | _ => false

/-- Events that act while every clock is stopped (R306, R351, R354). -/
def whileHalted : Instr → Bool
  | .freeze | .thaw | .droopEpisode .. | .droopEnd | .resetOrPowerLoss => true
  | _ => false

/-- The first arrival of a list whose instant has come and that a test lets in, and the others. -/
def takeFirst (wall : Nat) (ok : Arrival → Bool) : List (Nat × Arrival) → Option (Arrival × List (Nat × Arrival))
  | [] => none
  | (t, i) :: xs =>
    if t ≤ wall ∧ ok i then some (i, xs) else (takeFirst wall ok xs).map fun y => (y.1, (t, i) :: y.2)

/-- An arrival acts in the device's present state. -/
def State.admits (s : State) : Arrival → Bool
  | .event i => outside i && (decide (s.boot = .ready) || atBoot i)
  | .junctions .. => true
  | _ => decide (s.boot = .ready)

/-- What an arrival does: it runs as a row of the opcode table, or is a host access with no row (R273). -/
noncomputable def State.arrival (s : State) : Arrival → Option Due
  | .event i => runs i s
  | .windowWrite k off bs =>
    match windowRow k off bs with
    | some i => runs i s
    | none => acts (if s.takes k then s else s.discard k)
  | .windowRead k off n => acts (s.answer k (s.windowValue off n))
  | .memoryRead k a n => acts (s.answer k (s.memoryValue a n))
  | .junctions a b c d e => acts { s with sensors := [a, b, c, d, e] }
  | .mark bs =>
    match markOf bs with
    | some i => runs i s
    | none => acts s

/-- The next event from outside. Before READY only bring-up acts, and what else arrives is lost; while the clocks
stand still the rest waits.
(DESIGN CHOICE, log entry 62). -/
noncomputable def State.inboxDue (s : State) : Option Due :=
  let ok (a : Arrival) : Bool := !s.halted || match a with
    | .event i => whileHalted i
    | .junctions .. => true
    | _ => false
  match takeFirst s.wall ok s.inbox with
  | some (a, rest) =>
    let s := { s with inbox := rest }
    if s.admits a then s.arrival a else acts s
  | none => none

/-- A message that the chip sends to itself, as it meets it. -/
noncomputable def OutMsg.asInstr : OutMsg → Option Instr
  | .stepMark _ bs => markOf bs
  | .request _ chip p key shape chips => some (.sequencerRequest chip p key { shape := shape, chips := chips })
  | .withdrawal _ chip key sampled => some (.collWithdrawal chip key sampled)
  | .number _ n g key null => some (.startNumber n g key (.null null))
  | .toStandby _ n g key shape chips => some (.startNumber n g key (.assigned { shape := shape, chips := chips }))
  | .contribution _ key rank bytes poison => some (.collectiveData key rank bytes poison)
  | .heartbeat _ chip g last done => some (.heartbeat chip g { last := last, done := done })
  | .announce _ chip g => some (.sequencerAnnounce chip g)
  | .standbyAck _ n => some (.standbyAck n)
  | .release .. | .event .. | .eventCount .. | .readData .. => none

/-- The next message of the chip to itself. -/
noncomputable def State.ownDue (s : State) : Option Due :=
  match s.own with
  | m :: rest => some { st := { s with own := rest }, ins := m.asInstr }
  | [] => none

/-! ## What the wall clock brings (R17, R35, R290) -/

/-- The grid's events of a partition. -/
noncomputable def State.gridDue (s : State) (p : Nat) : Option Due :=
  let q := s.partAt p
  if !q.running || q.paused then none
  else if q.phase ≠ .gap ∧ !q.deadlined ∧ q.slotEnd ≤ s.wall + deadlineFs then runs (.deadline p) s
  else if q.slotEnd ≤ s.wall then
    if q.phase ≠ .gap ∧ !q.released then runs (.release p) s else runs (.slotStart p) s
  else none

/-- A step mark that did not come, and the watchdog. -/
noncomputable def State.watchDue (s : State) (p : Nat) : Option Due :=
  let q := s.partAt p
  if s.aligns p ∧ q.running ∧ !q.marked ∧ q.frameStart + markWindow < s.wall then runs (.stepMarkTimeout p) s
  else if q.phase = .run ∧ q.step.watching ∧ q.step.outcome = .open_ ∧ q.watchLimit ≤ s.watchCount p then runs (.watchdog p) s
  else none

/-- What the fabric engine does next, in number order: it reaches a null collective, or starts one, in a core or held (core
number 8). -/
noncomputable def State.collDue (s : State) : Option Due :=
  match s.nullReached with
  | some (key, p) => acts ((s.startKey p key).finishKey key)
  | none =>
    match listed s.fabric.held (fun y => s.mayStart y.1 y.2) (fun i _ => i) with
    | k :: _ => runs (.collectiveStart 0 8 k) s
    | [] =>
      firstDue s.cores fun e =>
        match listed e.2.colls (fun x => s.mayStart (s.partOf (e.1 / 8)) x) (fun i _ => i) with
        | k :: _ => runs (.collectiveStart (e.1 / 8) (e.1 % 8) k) s
        | [] => none

/-- A reading of the junctions that is due (R354). -/
noncomputable def State.thermDue (s : State) : Option Due :=
  let t (i : Nat) : Int := s.sensors.getD i 0
  if s.thermAt ≤ s.wall then
    runs (.thermalRead (t 0) (t 1) (t 2) (t 3) (t 4)) { s with thermAt := nextDue s.thermAt thermPeriod s.wall }
  else none

/-- The device's own periodic events, and the fabric engine's. -/
noncomputable def State.deviceDue (s : State) : Option Due :=
  if s.attestDue then runs (.attestationResponse (Config.flashWrites s.free)) { s with free := s.free + 1 }
  else if s.teleAt ≤ s.wall then runs .telemetryUpdate s
  else if s.beatAt ≤ s.wall then runs (.heartbeat s.pod.chip s.fabric.gen { last := noNumber, done := none }) s
  else
    match s.watches.find? fun d => 3 ≤ SMap.get 0 s.fabric.missed d && !s.fabric.lost.contains d with
    | some d => runs (.heartbeatTimeout d) s
    | none =>
      if s.isSeq ∧ !s.fabric.deferred.isEmpty ∧ s.nextNumber.isSome then runs .deferredNumbering s else s.collDue

/-- An abandoned or pre-empted step that is to be settled or restored, and holds (R288, R302 to R304). -/
noncomputable def State.stopDue (s : State) (p : Nat) : Option Due :=
  let q := s.partAt p
  if (q.step.outcome = .faulted ∨ q.step.outcome = .abandoned) ∧ !q.step.settled then acts (s.settle p)
  else
    match q.resumeWait with
    | some (t, _) => if t ≤ s.wall then acts (s.restart p) else none
    | none =>
      if s.resumeDue p then acts (s.resumeAll p)
      else if q.urgentOver && s.urgentCopies p then acts (s.urgentCut p)
      else if q.urgentOver && !s.urgentWaits p then acts (s.urgentEnd p)
      else
        match q.frozen, q.hold with
        | f :: _, none =>
          if f.cause ≠ .urgent ∨ !s.firmwareIdle p then none
          else if q.urgentDone f then
            (if q.ropes.any fun r => !(s.svcAt r).active then acts (s.callResume p) else none)
          else if q.phase = .over ∧ !q.step.bound then runs (.urgentStep p) s
          else none
        | _, some h =>
          if s.holdOver p h then runs (.holdEnd p) s
          else if h.causes.contains 3 then
            firstDue q.coreIds fun (r, c) => if !(s.coreAt r c).replay.isEmpty then runs (.pitchReplay r c) s else none
          else none
        | _, none => none

/-! ## Words -/

/-- The poison or corrected mark that a fetch meets, and the address in its store of the aligned 64-bit word that
holds it (R335, R337, R342). -/
def State.fetchMark (s : State) : Nat × Nat :=
  match s.track.mac with
  | some r =>
    let i := 64 + (32 * r.entry + r.word) / 2
    (SMap.get 0 s.core.macEcc i, 8 * i)
  | none =>
    match s.part.codeIndex s.track.pc with
    | some i => (SMap.get 0 s.core.codeEcc (i / 2), 8 * (i / 2))
    | none => (0, 0)

/-- The predicate selector of a word, where its format has one (R132, R136). -/
def selectorOf (f : Family) (w : W32) : Nat :=
  let m := (majorOf w).toNat
  match f with
  | .v => if 5 ≤ m ∧ m ≤ 0x35 then bits w.toNat 22 19 else 0
  | .m => if m = 5 ∨ m = 6 ∨ m = 8 ∨ m = 9 then bits w.toNat 3 0 else 0
  | _ => 0

/-- The running word is squashed (R64, R141). -/
def State.squashed (s : State) (w : W32) : Bool :=
  let n := selectorOf s.cur.track w
  s.inKernel && decide (8 ≤ n) && decide (s.core.predReg (s.core.physPred (64 + (n - 8))) = 0)

/-- The running kernel word is its pass's last and stands at offset II or beyond (R62).
(DEDUCED, log entry 64). -/
def State.latePass (s : State) : Bool :=
  match s.track.mloop with
  | some l => decide (s.track.pc + 1 = l.body + l.k) && decide (l.opp + 1 < l.pass)
  | none => false

/-- The beat by which the running pass's last word had to issue, at offset II - 1 (R62): DETAIL of its slip (R293).
(DEDUCED, log entry 64). -/
def State.passEnd (s : State) : Nat :=
  match s.track.mloop with
  | some l => s.now - s.core.gearFactor * ((l.pass - l.opp - 2) * l.ii + (if l.past = 0 then l.ii - l.next else l.past))
  | none => s.now

/-- The checker sequencer reads another word than the track does (R334). -/
def State.checkerDiffers (s : State) (w : W32) : Bool :=
  match s.track.checker with
  | some x => decide (x ≠ w)
  | none => false

/-- The unit has had its turn on this beat: at most one word issues (R46). -/
def State.spent (s : State) : State := s.onCur fun k => k.onTrack s.cur.track fun t => { t with fresh := true }

/-- The running word raises the illegal-instruction fault: it is malformed, which is judged before its own checks
(R140, R141). -/
noncomputable def State.malformed (s : State) (i : Instr) : Bool :=
  match exec i s with
  | .next t =>
    match (t.partAt s.cur.part).fault with
    | some f => decide (f.cls = .illegal) && decide (f.org = s.org) && decide ((s.partAt s.cur.part).fault ≠ some f)
    | none => false
  | _ => false

/-- The word of the unit named by State.cur issues on this beat: the checks of R337, R334 and R141 in order,
then its meaning. A corrected error of its own fetch stands in STATUS before the word reads it (DESIGN CHOICE, log entry 94).
(DEDUCED, log entry 64). -/
noncomputable def State.issue (s : State) : Due :=
  let s := s.spent
  match s.word with
  | none => { st := s.illegal, ins := none }
  | some w =>
    let (mark, at_) := if s.cur.svc then (0, 0) else s.fetchMark
    if mark = 2 then { st := s.raise .dataError at_ 3, ins := none }
    else
      let s := if mark = 1 then s.onCur fun k => k.sticky stEccCorr else s
      if s.checkerDiffers w then { st := s.raise .controlCheck w.toNat (s.track.checker.getD 0).toNat, ins := none }
      else if !majorAssigned s.cur.track w then { st := s.illegal, ins := none }
      else if s.squashed w then { st := s.retire, ins := none }
      else
        match decode s.cur.track w with
        | .error _ => { st := s.illegal, ins := none }
        | .ok i =>
          if s.latePass && !s.malformed i then { st := s.raise .slip s.passEnd s.now, ins := none }
          else { st := s, ins := some i }

/-- The tracks in the order of R76. -/
def families : List Family := [.s, .v, .m, .c]

/-- The units of a partition in the order of R76: rope, core, track. -/
def Partition.units (q : Partition) (p : Nat) : List UnitId :=
  q.coreIds.flatMap fun (r, c) => families.map fun f => { part := p, rope := r, core := c, track := f, svc := false }

/-- The next unit of a partition whose word issues on the present beat. -/
def State.nextUnit (s : State) (p : Nat) : Option UnitId :=
  let q := s.partAt p
  if q.issuing then (q.units p).find? fun u => (s.coreAt u.rope u.core).due u.track q.topo else none

/-! ## Service contexts (R290) -/

/-- A service context of a partition runs: it was entered, waits at no RESUME, and the partition's counter is stopped or
it was entered for a fault, whose slot has not ended (R290). -/
def Service.runs (v : Service) (q : Partition) : Bool :=
  v.active && v.resumeAt.isNone && (q.stopped || decide (v.cause = 2))

/-- Index of the first latch, by its word's order, that a test names. -/
def firstLatch (ls : List Latch) (ok : Latch → Bool) : Option Nat :=
  let best (acc : Option (Nat × Latch)) (x : Nat × Latch) : Option (Nat × Latch) :=
    if ok x.2 then
      match acc with
      | some y => if x.2.org.before y.2.org then some x else some y
      | none => some x
    else acc
  (((range 0 ls.length).zip ls).foldl best none).map (·.1)

/-- The end of a service context's period; it counts its opportunities only while it runs.
(DEDUCED, log entry 16). -/
def State.serviceTick (s : State) (r : Nat) (ran : Bool) : State :=
  let v := s.svcAt r
  let t := v.seq.s
  let w := if t.fresh || !ran then t.wait else t.wait - 1
  s.setSvc r { v with period := v.period + 1, clock := v.clock + 1, seq := { v.seq with s := { t with fresh := false, wait := w } } }

/-- A service context's equalised branch met its join too late (R60). -/
def Track.joinMissed (t : Track) (beat : Nat) : Bool :=
  match t.join with
  | some (_, jb) => decide (jb ≤ beat)
  | none => false

/-- The next thing of the service context of rope r of partition p. Latches of a context that runs no word still
come due. -/
noncomputable def State.serviceDue (s : State) (p r : Nat) : Option Due :=
  let v := s.svcAt r
  let ran := v.runs (s.partAt p)
  if (v.active || !v.seq.latches.isEmpty) && decide (v.clock < s.wall / 625000) then
    match firstLatch v.seq.latches fun l => decide (l.act ≤ v.period) with
    | some k => runs (.writePerform r 8 k) s
    | none =>
      let s := { s with cur := { part := p, rope := r, core := 0, track := .s, svc := true } }
      if ran && v.seq.due .s v.period then some s.issue
      else if ran && v.seq.s.joinMissed v.period then acts (s.raise .slip v.period 0)
      else acts (s.serviceTick r ran)
  else none

/-! ## The beat: before it (R56, R62, R287, R297) -/

/-- Page needs of a latch that acts on the present beat. -/
def Latch.needs (r : Nat) (l : Latch) : List PageNeed :=
  if l.bad.isSome then []
  else
    match l.eff with
    | .load .dev a .. => [{ rope := r, va := a, write := false, read := true, org := l.org }]
    | .store .dev ((a, _) :: _) .. => [{ rope := r, va := a, write := true, read := false, org := l.org }]
    | .atomic .dev a .. => [{ rope := r, va := a, write := true, read := true, org := l.org }]
    | _ => []

/-- A copy word writes device memory. -/
def State.writesDevice (s : State) : Instr → Bool
  | .cpy _ d _ _ _ => decide (descSpace (s.core.dreg d.toNat) = some .dev)
  | .cpy2 _ d _ _ _ _ => decide (descSpace (s.core.dreg d.toNat) = some .dev)
  | _ => false

/-- Words that translate an address as they issue (R85). -/
def isCopy : Instr → Bool
  | .cpy .. | .cpya .. | .cpy2 .. | .cpyq .. => true
  | _ => false

/-- The page that a C word issuing on the present beat needs and has not: found by trying the word on the core as
the beat's own latches leave it. A word that its fetch or the checker refuses issues on its beat without a page, and meets
its own fault there (R334, R337). -/
noncomputable def State.copyNeeds (s : State) (p r c : Nat) : List PageNeed :=
  let k := s.coreAt r c
  let x := (s.partAt p).topo
  if (s.partAt p).issuing && k.due .c x then
    let h : Home := { p := p, r := r, c := c, svc := false }
    let s := (k.latches.filter fun l => decide (l.act ≤ x) && decide (l.eff.stage = 1)).foldl (fun s l => s.performLatch h l)
      { s with cur := { part := p, rope := r, core := c, track := .c, svc := false } }
    match s.word with
    | some w =>
      match decode .c w with
      | .ok i =>
        if isCopy i ∧ s.fetchMark.1 ≠ 2 ∧ !s.checkerDiffers w then
          match exec i s with
          | .next t =>
            match (t.partAt p).fault with
            | some f =>
              if f.cls = .translation ∧ s.translate p r f.detail.toNat false false = .missing then
                [{ rope := r, va := f.detail.toNat, write := s.writesDevice i, read := !s.writesDevice i, org := s.org }]
              else []
            | none => []
          | _ => []
        else []
      | .error _ => []
    | none => []
  else []

/-- A copy starts, samples or performs on beat x. -/
def Copy.actsOn (c : Copy) (x : Nat) : Bool := (!c.started && decide (c.start ≤ x)) || c.sampleDue x || c.performDue x

/-- The page that a copy with PENDING-XLAT waits for on its first beat after RESUME (R301). -/
def Copy.pendingNeed (r x : Nat) (c : Copy) : List PageNeed :=
  if c.pending && c.actsOn x then
    match c.access with
    | some (va, w, rd) => [{ rope := r, va := va, write := w, read := rd, org := c.org }]
    | none => []
  else []

/-- The absent pages that the present beat needs, also for what an abandoned step had scheduled (R32, R287, R294). -/
noncomputable def State.needsOf (s : State) (p : Nat) : List PageNeed :=
  let q := s.partAt p
  q.coreIds.flatMap fun (r, c) =>
    let k := s.coreAt r c
    ((k.latches.filter fun l => decide (l.act ≤ q.topo)).flatMap (Latch.needs r) ++ k.copies.flatMap (Copy.pendingNeed r q.topo)).filter
      (fun n => s.translate p n.rope n.va n.write n.read = .missing)
      ++ s.copyNeeds p r c

/-- The causes of a hold before the present beat (R287). -/
noncomputable def State.holdCauses (s : State) (p : Nat) : List Nat :=
  let q := s.partAt p
  (if (s.needsOf p).isEmpty then [] else [1]) ++ (if s.resultMissing p q.topo then [2] else [])
    ++ (if s.replayDue p then [3] else [])

/-- The members of a domain instance meet on the present beat: every one waits, and the beat is an issue
opportunity for all of them and for the tracks they hold (R56). -/
def State.meets (s : State) (ids : List (Nat × Nat)) (x : Nat) : Bool :=
  ids.all fun (r, c) =>
    let k := s.coreAt r c
    (match k.s.belay with
     | some o => decide (o.issue < x)
     | none => false)
      && k.opportunity .s x && (!k.v.held || k.opportunity .v x) && (!k.m.held || k.opportunity .m x)

/-- A met BELAY lets its core's tracks go on. -/
def Core.meet (k : Core) : Core :=
  { k with s := { k.s with belay := none }, v := { k.v with held := false }, m := { k.m with held := false },
           c := { k.c with held := false } }

/-- Meetings that complete on the present beat. -/
def State.meetAll (s : State) (p : Nat) : State :=
  let q := s.partAt p
  q.coreIds.foldl (fun s (r, c) =>
    if (s.coreAt r c).s.belay.isSome then
      let ids := s.domainOf p r c
      if s.meets ids q.topo then ids.foldl (fun s (r, c) => s.onCore r c Core.meet) s else s
    else s) s

/-- The core whose BREAK halts the partition before the present beat (R171): one whose fetch is sound and on which the
checker agrees (R334, R337). Any other meets its fault as its word comes to issue.
(DEDUCED, log entry 65). -/
noncomputable def State.breakAt (s : State) (p : Nat) : Option Due :=
  let q := s.partAt p
  if q.issuing ∧ q.step.outcome = .open_ ∧ s.breaks q.runner.ctx then
    let met := s.meetAll p
    firstDue q.coreIds fun (r, c) =>
      let t := { s with cur := { part := p, rope := r, core := c, track := .s, svc := false } }
      if (met.coreAt r c).due .s q.topo then
        match t.word with
        | some w =>
          if t.fetchMark.1 = 2 ∨ t.checkerDiffers w then none
          else
            match decode .s w with
            | .ok (.break_ g code) => runs (.break_ g code) (if t.fetchMark.1 = 1 then t.onCur fun k => k.sticky stEccCorr else t)
            | _ => none
        | none => none
      else none
  else none

/-- A pass of a modulo loop begins on beat x (R63). The stage predicate's update applies to what a predicate word of the
pass before leaves usable on this beat (R194). -/
def Core.beginPass (k : Core) (f : Family) (x : Nat) (l : MLoop) : Core :=
  let k := k.onTrack f fun t => { t with mloop := some { l with pass := l.pass + 1, next := l.ii - 1 } }
  let k := k.putK (loopRegs f).2 (BitVec.ofNat 64 l.pass)
  if l.joint ∧ f = .m then k
  else
    let k := if l.pass = 0 then k else { k with rb := (k.rb + 31) % 32, pb := (k.pb + 63) % 64 }
    let mask : Mask := if l.pass < l.n then BitVec.allOnes 256 else 0
    let stale (l : Latch) : Bool :=
      match l.eff with
      | .pred n _ => decide (n = k.physPred 64) && decide (l.act ≤ x)
      | _ => false
    { k with preds := SMap.set 0 k.preds (k.physPred 64) mask, latches := k.latches.filter fun l => !stale l }

/-- A modulo loop ends (R63). -/
def Core.endLoop (k : Core) (f : Family) (passes : Nat) : Core :=
  let (run, pass) := loopRegs f
  ({ (k.putK pass (BitVec.ofNat 64 passes)).putK run (k.kreg run + 1) with rb := 0, pb := 0 }).onTrack f fun t =>
    { t with mloop := none }

/-- An issue opportunity of a track's modulo loop passes: a pass begins, or the loop ends, or the count to the next
pass falls (R62). A word of the last pass still outstanding then stands beyond it. -/
def Core.turnLoop (k : Core) (f : Family) (x : Nat) : Core :=
  match (k.track f).mloop with
  | some l =>
    if !k.opportunity f x || k.blocked f then k
    else if l.next ≠ 0 then k.onTrack f fun t => { t with mloop := some { l with next := l.next - 1 } }
    else
      let passes := l.n + l.stages - 1
      if l.pass < passes then k.beginPass f x l
      else if passes ≤ l.opp then k.endLoop f passes
      else k.onTrack f fun t => { t with mloop := some { l with pass := passes + 1, past := l.past + 1 } }
  | none => k

/-- A PENDING-XLAT copy acts: it has what it waited for. -/
def Core.unpend (k : Core) (x : Nat) : Core :=
  { k with copies := k.copies.map fun c => if c.pending && c.actsOn x then { c with pending := false } else c }

/-- The present beat begins: meetings complete and passes begin. -/
def State.beginBeat (s : State) (p : Nat) : State :=
  let s := s.meetAll p
  let q := s.partAt p
  let s := q.coreIds.foldl (fun s (r, c) => s.onCore r c fun k => k.unpend q.topo) s
  let s := if q.issuing then
      q.coreIds.foldl (fun s (r, c) => s.onCore r c fun k => (k.turnLoop .v q.topo).turnLoop .m q.topo) s
    else s
  s.onPart p fun q => { q with mark := 1 }

/-- What happens before the present beat, and the parts of TURN and the anchor that fall on it. -/
noncomputable def State.beforeBeat (s : State) (p : Nat) : Due :=
  let q := s.partAt p
  let causes := s.holdCauses p
  if !causes.isEmpty then { st := s.beginHold p causes (s.needsOf p), ins := none }
  else if q.haltAsked then { st := s.haltAt p, ins := none }
  else
    match s.breakAt p with
    | some d => d
    | none =>
      if (s.urgentDue p).isSome then { st := s, ins := some (.urgentPreemption p) }
      else if q.phase = .lead ∧ q.topo % 4 = 0 then { st := s, ins := some (.turn p) }
      else if q.phase = .turn ∧ !q.step.bound then
        match s.commandDue p with
        | some i =>
          let r := q.res i
          match decodeCommand r.ctx (s.commandBytes r.ctx r.head) with
          | some c => { st := s, ins := some c }
          | none => { st := s.rejectCommand p i, ins := none }
        | none => { st := s, ins := some (.turn p) }
      else if q.phase = .turn ∧ q.topo = q.step.anchor then { st := s.anchor p, ins := none }
      else { st := s.beginBeat p, ins := none }

/-! ## The beat: its words (R76) -/

/-- The word that a track would issue next, for a fault that names it (R49); the waiting BELAY of an S track where a
member of its domain instance has issued RENDEZ (R58).
(DEDUCED, log entry 64). -/
def State.pendingOrg (s : State) (p r c : Nat) (f : Family) : Origin :=
  let next := { s with cur := { part := p, rope := r, core := c, track := f, svc := false } }.org
  match ((s.coreAt r c).track f).belay with
  | some o => if (s.domainOf p r c).any fun (r, c) => (s.coreAt r c).s.done then o else next
  | none => next

/-- Tracks that owe a RENDEZ on the present beat, or an S track its join (R49, R60). -/
def State.slips (s : State) (p : Nat) : State :=
  let q := s.partAt p
  if q.issuing then
    q.coreIds.foldl (fun s (r, c) =>
      let k := s.coreAt r c
      let s := if k.s.live && k.s.joinMissed q.topo then s.raiseAt p .slip (s.pendingOrg p r c .s) q.topo 0 else s
      if q.topo = q.rendezBeat then
        families.foldl (fun s f =>
          if (k.track f).live then s.raiseAt p .slip (s.pendingOrg p r c f) q.rendezBeat 0 else s) s
      else s) s
  else s

/-- The core and the latch of stage 1 that acts next. -/
def State.latchDue (s : State) (p : Nat) : Option (Nat × Nat × Nat) :=
  let q := s.partAt p
  q.coreIds.findSome? fun (r, c) =>
    (firstLatch (s.coreAt r c).latches fun l => decide (l.act ≤ q.topo) && decide (l.eff.stage = 1)).map fun k => (r, c, k)

/-- The words of the present beat, one after another; then its slips. -/
noncomputable def State.wordsDue (s : State) (p : Nat) : Due :=
  match s.latchDue p with
  | some (r, c, k) => { st := s, ins := some (.writePerform r c k) }
  | none =>
    match s.nextUnit p with
    | some u => { s with cur := u }.issue
    | none => { st := ((s.slips p).dropIssued p).onPart p fun q => { q with mark := 2 }, ins := none }

/-! ## The beat: its samples and writes (R76) -/

/-- What performs in the writes of a beat, for its place in the order. -/
inductive Performer where
  | latch (r c k : Nat)
  | copy (r c k : Nat)
  | acc (r c k : Nat)
  | coll (r c k : Nat)
  | flit (k : Nat)

/-- The performs of one core that the present beat has still to make. -/
def Core.performers (k : Core) (r c x : Nat) : List (Origin × Performer) :=
  listed k.latches (fun l => decide (l.act ≤ x) && decide (l.eff.stage = 3) && !l.eff.onRing) (fun i l => (l.org, .latch r c i))
    ++ listed k.copies (fun y => y.performDue x) (fun i y => (y.org, .copy r c i))
    ++ listed k.accops (fun a => decide (a.w ≤ x) && decide (a.next = 32)) (fun i a => (a.org, .acc r c i))
    ++ listed k.colls (fun y => decide (y.due ≠ 0) && decide (y.due ≤ x) && y.result.isSome) (fun i y => (y.org, .coll r c i))

/-- The first perform in the order of the words' issue (R76). -/
def firstPerform (xs : List (Origin × Performer)) : Option Performer :=
  (xs.foldl (fun (acc : Option (Origin × Performer)) x =>
    match acc with
    | some y => if x.1.before y.1 then some x else some y
    | none => some x) none).map (·.2)

/-- The next perform of the present beat. -/
def State.performDue (s : State) (p : Nat) : Option Performer :=
  let q := s.partAt p
  firstPerform ((q.coreIds.flatMap fun (r, c) => (s.coreAt r c).performers r c q.topo)
    ++ listed q.flits (fun f => decide (f.arrive ≤ q.topo)) (fun i f => (s.flitOrg f q.topo, Performer.flit i)))

/-- The instruction of a perform. -/
noncomputable def Performer.event (p : Nat) : Performer → Instr
  | .latch r c k => .writePerform r c k
  | .copy r c k => .copyChunk r c k
  | .acc r c k => .mmaWriteback r c k
  | .coll r c k => .collResultPerform r c k
  | .flit k => .ropeFlitArrival p k

/-- The first core of a partition with an entry of a list that a test names. -/
def State.findIn {α : Type} (s : State) (p : Nat) (get : Core → List α) (ok : α → Bool) : Option (Nat × Nat × Nat) :=
  (s.partAt p).coreIds.findSome? fun (r, c) =>
    match listed (get (s.coreAt r c)) ok (fun i _ => i) with
    | k :: _ => some (r, c, k)
    | [] => none

/-- Reads of the present beat, made as their words issued, that come too early for a write recorded later on it: by
a word of a later track, or by a copy that starts (R69).
(DEDUCED, log entry 70). -/
def State.lateEarly (s : State) (p : Nat) : State :=
  let q := s.partAt p
  q.coreIds.foldl (fun s (r, c) =>
    (s.coreAt r c).reads.foldl (fun s (o, sp, lo, hi) => s.earlyHitAt p r c sp lo hi o) s) s

/-- Copies of the step may start: it was not abandoned before the present beat (R32, R294). -/
def Partition.starting (q : Partition) : Bool :=
  match q.step.outcome with
  | .abandoned => false
  | .faulted => q.issuing
  | _ => true

/-- The copy that starts next on the present beat: in the order of the words' issue (R76, R91). -/
def State.startDue (s : State) (p : Nat) : Option (Nat × Nat × Nat) :=
  let q := s.partAt p
  let xs := if !q.starting then [] else q.coreIds.flatMap fun (r, c) =>
    listed (s.coreAt r c).copies (fun x => !x.started && decide (x.start ≤ q.topo)) fun i x => (x.org, r, c, i)
  (xs.foldl (fun (acc : Option (Origin × Nat × Nat × Nat)) x =>
    match acc with
    | some y => if x.1.before y.1 then some x else some y
    | none => some x) none).map (·.2)

/-- Starts and samples. -/
noncomputable def State.samplesDue (s : State) (p : Nat) : Due :=
  let q := s.partAt p
  match s.startDue p with
  | some (r, c, k) => { st := s, ins := some (.copyStart r c k) }
  | none =>
    match s.findIn p (·.copies) fun x => x.sampleDue q.topo with
    | some (r, c, k) => { st := s, ins := some (.copyChunk r c k) }
    | none => { st := (((s.lateEarly p).sampleAll p).dropIssued p).onPart p fun q => { q with mark := 3 }, ins := none }

/-- A collective whose due beat takes no hold and finds no result: COPY-CUT (R102). -/
def State.cutColls (s : State) (p : Nat) : State :=
  let q := s.partAt p
  q.coreIds.foldl (fun s (r, c) =>
    let late (y : CollOp) : Bool := decide (y.due ≠ 0) && decide (y.due ≤ q.topo) && y.result.isNone
    let n := ((s.coreAt r c).colls.filter late).length
    if n = 0 then s
    else
      (range 0 n).foldl (fun s _ => s.event p q.step.ctx .copyCut noSid none none)
        (s.onCore r c fun k => { k with colls := k.colls.map fun y => if late y then { y with due := 0 } else y })) s

/-- A SPEAK of the partition still holds a sampled chunk. -/
def State.speakWaits (s : State) (p : Nat) : Bool :=
  (s.partAt p).coreIds.any fun (r, c) => (s.coreAt r c).copies.any fun x => decide (x.kind = .speak) && !x.buf.isEmpty

/-- The commit, whose writes no sample of its beat sees (R17, R100), after the SPEAK chunks that were sampled for it (R247);
writes, then the ring registers (R84), then flits that did not come. -/
noncomputable def State.writesDue (s : State) (p : Nat) : Due :=
  let q := s.partAt p
  if q.phase = .run ∧ q.step.outcome = .open_ ∧ q.rendezBeat + 16 ≤ q.topo then
    if s.speakWaits p then { st := q.coreIds.foldl (fun s (r, c) => s.stageReady p r c true) s, ins := none }
    else { st := s, ins := some (.stepCommit p) }
  else
    match s.performDue p with
    | some x => { st := s, ins := some (x.event p) }
    | none =>
      match s.findIn p (·.latches) fun l => decide (l.act ≤ q.topo) && l.eff.onRing with
      | some (r, c, k) => { st := s, ins := some (.writePerform r c k) }
      | none => { st := ((s.missedFlits p).cutColls p).onPart p fun q => { q with mark := 4 }, ins := none }

/-- The next part of the present beat of partition p; none when the beat is finished or the counter stands. -/
noncomputable def State.beatDue (s : State) (p : Nat) : Option Due :=
  let q := s.partAt p
  if q.stopped ∨ 4 ≤ q.mark then none
  else
    some (match q.mark with
      | 0 => s.beforeBeat p
      | 1 => s.wordsDue p
      | 2 => s.samplesDue p
      | _ => s.writesDue p)

/-! ## The end of a beat -/

/-- A track after a beat: one issue opportunity less to wait. -/
def Core.waited (k : Core) (f : Family) (x : Nat) : Track :=
  let t := k.track f
  { t with fresh := false, wait := if t.fresh || k.blocked f || !k.opportunity f x then t.wait else t.wait - 1 }

/-- Beat x counts in a core's telemetry (R349). -/
def Core.countBeat (k : Core) (x : Nat) : Core :=
  let settling := match k.window with
    | some w => decide (w.opened < x)
    | none => false
  let t := k.tele
  { k with tele :=
      if settling then { t with settle := t.settle + 1 }
      else if k.low then { t with low := t.low + 1 }
      else { t with high := t.high + 1 } }

/-- A core after beat x (R46, R47, R54, R69). -/
def Core.endBeat (k : Core) (x : Nat) : Core :=
  let done := match k.window with
    | some w => decide (w.opened + 127 ≤ x)
    | none => false
  let low := match k.window with
    | some w => if done then w.low else k.low
    | none => k.low
  { k with s := k.waited .s x, v := k.waited .v x, m := k.waited .m x, c := k.waited .c x, low := low,
           window := if done then none else k.window, stuck := 0, ertab := k.ertab.filter fun e => x < e.perform, ports := [], colPorts := [],
           atomDone := [], reads := [],
           debts := k.standingDebts }

/-- A partition after a beat. An urgent step's beats, which pass while another step is frozen, add nothing to the telemetry
(R349). -/
def State.endBeat (s : State) (p : Nat) : State :=
  let s := s.dropIssued p
  let q := s.partAt p
  let s := q.coreIds.foldl (fun s (r, c) => s.onCore r c fun k =>
    (if q.frozen.isEmpty then k.countBeat q.topo else k).endBeat q.topo) s
  s.onPart p fun q =>
    { q with topo := q.topo + 1, mark := 0, overlaps := q.overlaps.filter fun e => q.topo < e.leave,
             strtFs := if q.phase = .run then q.strtFs + (s.beatFs - 625000) else q.strtFs }

/-- The droop's share of a period of the beat clock: a period on which no partition counts adds nothing (R350, R351). -/
def State.droopBeat (s : State) (counts : Bool) : State :=
  match s.droop with
  | some n =>
    let s := { s with droopFs := s.droopFs + if counts then s.beatFs - 625000 else 0 }
    if n ≤ 1 then { s with droop := none, beatFs := 625000 } else { s with droop := some (n - 1) }
  | none => s

/-- The end of a beat of every partition whose counter moves, and the wall clock's step: a period of the beat clock
(R12, R72, R351). -/
def State.tick (s : State) : State :=
  let moving := (range 0 s.nparts).filter fun p => !(s.partAt p).stopped
  { (moving.foldl (fun s p => s.endBeat p) s).droopBeat (!moving.isEmpty) with wall := s.wall + s.beatFs }

/-! ## What is next -/

/-- Every partition stands between two beats. -/
def State.between (s : State) : Bool :=
  (range 0 s.nparts).all fun p => decide ((s.partAt p).mark = 0) || (s.partAt p).stopped

/-- What comes between beats: the outside world, the wall clock, the service contexts. -/
noncomputable def State.betweenDue (s : State) : Option Due :=
  let ps := range 0 s.nparts
  s.inboxDue <|> s.thermDue <|> s.ownDue <|> firstDue ps s.gridDue <|> firstDue ps s.watchDue <|> s.deviceDue <|> firstDue ps s.stopDue
    <|> firstDue ps fun p => firstDue (s.partAt p).ropes fun r => s.serviceDue p r

/-- What the device does of itself in TRIP and in a debug freeze: its readings go on, and in TRIP its records (R350, R354). -/
noncomputable def State.tripDue (s : State) : Option Due :=
  if s.thermal = .trip ∧ s.tripSince + tripFs ≤ s.wall then runs .tripTimeout s
  else if s.boot = .ready ∧ s.thermal = .trip ∧ !s.frozen ∧ s.teleAt ≤ s.wall then runs .telemetryUpdate s
  else s.thermDue

/-- While the device is not READY, or its partitions stand still, only the outside world, the sensors and the time of day
move (R306, R354). -/
noncomputable def State.idleDue (s : State) : Due :=
  match s.inboxDue <|> s.tripDue with
  | some d => d
  | none => { st := { s with wall := s.wall + 625000 }, ins := none }

/-- What the device does next.
(DESIGN CHOICE, log entry 15). -/
noncomputable def due (s : State) : Due :=
  if s.boot ≠ .ready ∨ s.halted then s.idleDue
  else
    match (if s.between then s.betweenDue else none) with
    | some d => d
    | none =>
      match firstDue (range 0 s.nparts) s.beatDue with
      | some d => d
      | none => { st := s.tick, ins := none }

end Sys2Proof.Machine
end

