-- ==== Sys2Proof/Machine/Place.lean ====
section
/-!
DEFINITION. How one word is placed so that the next step of the device runs it: in the code store of core 0 of
rope 0, on the anchor beat of an open step of partition 0 (R43, R125), or, for a service-level word, in the
firmware store with rope 0's service context running (R290). This stands for the loading of a job by a host
(R283) or of firmware from the boot image (R357); log entry 1.
-/

namespace Sys2Proof.Machine

/-- The family whose map decodes a word, tried in the order S, V, M, C.
(DESIGN CHOICE, log entry 66). -/
noncomputable def familyOfWord (w : W32) : Family :=
  match (families.find? fun f => match decode f w with
    | .ok _ => true
    | .error _ => false) with
  | some f => f
  | none => .s

/-- A word that only a service context runs (R179). -/
def serviceLevel : Instr → Bool
  | .rdsys .. | .wrsys .. | .xlatw .. | .xlati .. | .holdx .. | .resume .. => true
  | _ => false

/-- A placed word is a service-level one. -/
noncomputable def serviceWord (w : W32) : Bool :=
  match decode .s w with
  | .ok i => serviceLevel i
  | .error _ => false

/-- The anchor beat that a placed word issues on. -/
def placedBeat : Nat := 2048

/-- Partition 0 in an open step, on its anchor beat, with its words issuing. -/
def Partition.placed (q : Partition) : Partition :=
  { q with
    ropes := [0], topo := placedBeat, mark := 1, phase := .run, hold := none, fault := none, frozen := [], resumeWait := none,
    haltAsked := false, running := false,
    step := { Step.none_ with kind := .owned, anchor := placedBeat, rdz := 2 ^ 32 - 1, outcome := .open_, cslen := 49152, bound := true } }

/-- A core with a word at the first place of its code store, and one track that stands there. -/
def Core.placed (k : Core) (f : Family) (w : W32) : Core :=
  { k with code := SMap.set 0 k.code 0 w, codeEcc := SMap.set 0 k.codeEcc 0 0, latches := [], window := none,
           s := .idle, v := .idle, m := .idle, c := .idle }.setTrack f { Track.idle with live := true }

/-- A service context that stands at the first firmware word, its first period due. -/
def Service.placed (v : Service) : Service :=
  { v with active := true, resumeAt := none, clock := 0, seq := { v.seq with latches := [], s := { Track.idle with live := true } } }

/-- The device with nothing else to do. -/
def State.quietDevice (s : State) : State :=
  { s with boot := .ready, thermal := .normal, frozen := false, inbox := [], own := [], nparts := 1, attestDue := false,
           wall := s.wall + 625000, teleAt := s.wall + 1000000, thermAt := s.wall + 1000000, beatAt := s.wall + 1000000 }

/-- A word placed on a track. -/
def State.placeWord (s : State) (f : Family) (w : W32) : State :=
  (s.quietDevice.onPart 0 Partition.placed).onCore 0 0 fun k => k.placed f w

/-- A word placed in the firmware store, in a hold that waits for its service. -/
def State.placeService (s : State) (w : W32) : State :=
  let s := s.quietDevice.onPart 0 fun q =>
    { q.placed with mark := 0, hold := some { causes := [1], serviced := [], since := s.wall, needs := [] } }
  ({ s with firmware := SMap.set 0 s.firmware 0 w }).setSvc 0 (s.svcAt 0).placed

/-- A table word placed where the next step fetches.
(DESIGN CHOICE, log entry 1). -/
noncomputable def State.placeTableWord (s : State) (w : W32) : State :=
  if serviceWord w then s.placeService w else s.placeWord (familyOfWord w) w

end Sys2Proof.Machine
end

