-- ==== Sys2Proof/Machine/Step.lean ====
section
/-!
DEFINITION. One step of the device, and the state in which the next step runs a given word.
-/

namespace Sys2Proof.Machine

/-- One step: what is due happens (R76, R287, R290). -/
noncomputable def step (s : State) : Host.Outcome State Fault Refusal :=
  match due s with
  | { st := t, ins := some i } => exec i t
  | { st := t, ins := none } => .next t

/-- The device with a table word where step fetches its next instruction. Every word is 32 bits long. -/
noncomputable def State.withFetchWord (s : State) (_nbits w : Nat) : State := s.placeTableWord (BitVec.ofNat 32 w)

end Sys2Proof.Machine
end

