-- ==== Sys2Proof/Safety.lean ====
section
/-!
DEFINITION. The vocabulary of the statements: what a safe step is, what an issued word may change and what it
must leave alone, and, word by word, the results that the spec gives (tables over Instr, written apart from the
meanings and in plain arithmetic where the spec's own is plain).
-/

namespace Sys2Proof.Machine

/-! ## Safety -/

/-- The device goes on: a step of it is neither a fault of the machine nor a refusal. -/
def State.Safe (s : State) : Prop := ∃ t, step s = .next t

/-- The canonical form of device memory: addresses rising, no zero byte listed. -/
def State.Canonical (s : State) : Prop := Mem.wf s.mem = true

/-! ## Frames -/

/-- Between s and t only the registers of the issuing unit differ: its core's, or its service context's own. -/
def State.OnlyUnit (s t : State) : Prop :=
  if s.cur.svc then
    t = { s with svcs := t.svcs } ∧ t.svcAt s.cur.rope = { s.svcAt s.cur.rope with seq := (t.svcAt s.cur.rope).seq } ∧
      ∀ r, r ≠ s.cur.rope → t.svcAt r = s.svcAt r
  else
    t = { s with cores := t.cores } ∧
      ∀ n, n ≠ 8 * s.cur.rope + s.cur.core → SMap.get Core.reset t.cores n = SMap.get Core.reset s.cores n

/-- A track whose word issued: its place, its loops and its waits may have moved; it takes part in the step as
before. -/
def Track.Moved (t t' : Track) : Prop :=
  t' = { t with pc := t'.pc, wait := t'.wait, fresh := true, mac := t'.mac, join := t'.join, resync := t'.resync,
                kloops := t'.kloops, mloop := t'.mloop, cloop := t'.cloop, checker := none }

/-- A word of track f issued and left the effects ls in flight; nothing else of the core changed but the track
itself and the k registers of running KLOOPs whose trip it ended. -/
def Core.Issued (k k' : Core) (f : Family) (ls : List Latch) : Prop :=
  k' = { k with latches := k.latches ++ ls, kregs := k'.kregs, s := k'.s, v := k'.v, m := k'.m, c := k'.c } ∧
    (k.track f).Moved (k'.track f) ∧ (∀ g, g ≠ f → k'.track g = k.track g) ∧
    ∀ n, k'.kreg n = k.kreg n ∨ (f = .s ∧ ∃ l ∈ k.s.kloops, l.kreg = n)

/-- GAP of the word at an address, 0 beyond the code. -/
def gapAt (src : Nat → Option W32) (pc : Nat) : Nat :=
  match src pc with
  | some w => w.toNat / 2 ^ 29
  | none => 0

/-- The join that a word leaves pending, if it sets none itself (R60). -/
def State.joinLeft (s : State) : Option (Nat × Nat) := if s.track.atJoin then none else s.track.join

/-- The word at pc is the one at the pending join j. -/
def atPlace (j : Option (Nat × Nat)) (pc : Nat) : Bool :=
  match j with
  | some (a, _) => decide (a = pc)
  | none => false

/-- The re-anchoring that a word leaves to its track: one set by a RESYNC before it ends with it (R61). -/
def State.resyncLeft (s : State) : Option (Nat × Nat) := s.track.resync.filter fun r => decide (s.now ≤ r.1)

/-- GAP that the word a track stands at adds to its wait: 0 beyond the code and at the address of a pending join (R47,
R139, R160). -/
def Core.gapHere (k : Core) (f : Family) (src : Nat → Option W32) : Nat :=
  let t := k.track f
  match t.mac with
  | some r => ((k.macro_ r.entry).word r).toNat / 2 ^ 29
  | none => if atPlace t.join t.pc then 0 else gapAt src t.pc

/-- From k to k' the S track falls through to word address n. Each KLOOP whose body ends there counts a trip in its k
register, innermost first: one with trips left goes back to its body, and one without is left (R161). -/
def Core.TripsEnd (k k' : Core) (n : Nat) : Prop :=
  let ends (l : KLoop) : Bool := decide (n = l.body + l.len)
  let out := k.s.kloops.takeWhile fun l => ends l && decide (l.trip ≤ l.count + 1)
  let rest := k.s.kloops.dropWhile fun l => ends l && decide (l.trip ≤ l.count + 1)
  let back := rest.head?.filter ends
  k'.s.pc = (back.map (·.body)).getD n ∧
    k'.s.kloops = (back.map fun l => { l with count := l.count + 1 }).toList ++ (if back.isSome then rest.tail else rest) ∧
    ∀ m, k'.kreg m = match (out ++ back.toList).reverse.find? fun l => decide (l.kreg = m) with
      | some l => .ofNat 64 (l.count + 1)
      | none => k.kreg m

/-- From k to k' track f falls through to word address n and stands there after d opportunities and the GAP of the word
there; where the body of a loop ends at n the loop turns, and after the last word of a pass of a modulo loop the
opportunities until the next pass stand in the place of d (R47, R62, R161, R235). -/
def Core.Falls (k k' : Core) (f : Family) (src : Nat → Option W32) (d n : Nat) : Prop :=
  let t := k.track f
  let t' := k'.track f
  let waits (d : Nat) : Prop := t'.wait = d + k'.gapHere f src
  let still : Prop := (∀ m, k'.kreg m = k.kreg m) ∧ t'.kloops = t.kloops
  t'.mac = none ∧ match f with
    | .s => k.TripsEnd k' n ∧ t'.mloop = t.mloop ∧ t'.cloop = t.cloop ∧ waits d
    | .c => still ∧ t'.mloop = t.mloop ∧ waits d ∧ match t.cloop with
      | some l =>
        if n = l.body + l.len then
          t'.pc = (if l.count + 1 < l.trip then l.body else n) ∧
            t'.cloop = if l.count + 1 < l.trip then some { l with count := l.count + 1 } else none
        else t'.pc = n ∧ t'.cloop = some l
      | none => t'.pc = n ∧ t'.cloop = none
    | _ => still ∧ t'.cloop = t.cloop ∧ match t.mloop with
      | some l =>
        if n = l.body + l.k then
          t'.pc = (if l.opp + 1 < l.n + l.stages - 1 then l.body else n) ∧ t'.mloop = some { l with opp := l.opp + 1 } ∧
            waits l.next
        else t'.pc = n ∧ t'.mloop = some l ∧ waits d
      | none => t'.pc = n ∧ t'.mloop = none ∧ waits d

/-- From k to k' the word of track f is followed by the next one, d dead opportunities and its GAP later: within a macro
entry by the entry's next word, after its last by the word behind the MCALL, else by the word after it (R47, R139). join
is the join that stands then. -/
def Core.Follows (k k' : Core) (f : Family) (src : Nat → Option W32) (d : Nat) (join : Option (Nat × Nat)) : Prop :=
  let t := k.track f
  let t' := k'.track f
  t'.join = join ∧ match t.mac with
    | some r =>
      if r.word + 1 < (k.macro_ r.entry).len then
        t'.mac = some { r with word := r.word + 1 } ∧ t'.pc = t.pc ∧ t'.kloops = t.kloops ∧ t'.mloop = t.mloop ∧
          t'.cloop = t.cloop ∧ (∀ m, k'.kreg m = k.kreg m) ∧ t'.wait = d + k'.gapHere f src
      else k.Falls k' f src d t.pc
    | none => k.Falls k' f src d (t.pc + 1)

/-- The running word, whose unit's registers are k once its checks are made, issues with the effects ls and
changes nothing else. -/
def State.Issues (s t : State) (k : Core) (ls : List Latch) : Prop :=
  s.OnlyUnit t ∧ k.Issued t.core s.cur.track ls ∧ (t.core.track s.cur.track).resync = s.resyncLeft

/-- The running word, which has d dead opportunities, is followed by the next one. -/
def State.Follows (s t : State) (d : Nat := 0) (join : Option (Nat × Nat) := s.joinLeft) : Prop :=
  s.core.Follows t.core s.cur.track s.source d join

/-- The running word issues with the effects ls, changes nothing else, and is followed by the next one (R47). -/
def State.Schedules (s t : State) (k : Core) (ls : List Latch) (d : Nat := 0) (join : Option (Nat × Nat) := s.joinLeft) : Prop :=
  s.Issues t k ls ∧ s.Follows t d join

/-- The latch of an effect of the running word. bad: the DETAIL and DETAIL2 of the residue fault that is raised on its
beat in its place (R333). -/
def State.latch (s : State) (act : Nat) (e : Effect) (bad : Option (Nat × Nat) := none) : Latch :=
  { org := s.org, act := act, eff := e, bad := bad }

/-- The running word stands at step level. -/
def State.OnCore (s : State) (f : Family) : Prop := s.cur.svc = false ∧ s.cur.track = f

/-- The settle window does not keep a V or M word from issuing (R54). -/
def State.Unwindowed (s : State) : Prop :=
  ∀ w, s.core.window = some w → (s.cur.track ≠ .v ∧ s.cur.track ≠ .m) ∨ s.now ≤ w.opened

/-- The running word stands in no macro entry and in no kernel (R65, R66). -/
def State.Plain (s : State) : Prop := s.inMacro = false ∧ s.inKernel = false

/-- The S track goes to word address pc: the loops that do not hold it end, and the next word waits (R47, R158,
R160, R162). -/
def State.GoesTo (s t : State) (k : Core) (pc dead : Nat) (join : Option (Nat × Nat)) : Prop :=
  s.OnlyUnit t ∧ t.core = { k with s := t.core.s } ∧
    t.core.s = { s.core.s with
      pc := pc, fresh := true, checker := none, join := join, resync := s.resyncLeft,
      kloops := s.core.s.kloops.dropWhile fun l => !(decide (l.body ≤ pc) && decide (pc < l.body + l.len)),
      wait := dead + if atPlace join pc then 0 else gapAt s.source pc }

/-! ## Integer words (R145 to R152) -/

/-- 1 or 0. -/
def flag (p : Bool) : W64 := if p then 1 else 0

/-- Bits q to q + w of a word. -/
def span (x : W64) (q w : BitVec 6) : BitVec (w.toNat + 1) := x.extractLsb' q.toNat (w.toNat + 1)

/-- The destination of an integer word, the value it writes, and its high-gear latency. -/
def aluResult (k : Core) : Instr → Option (BitVec 5 × W64 × Nat)
  | .add _ d a b => some (d, .ofNat 64 ((k.sreg a).toNat + (k.sreg b).toNat), 1)
  | .sub _ d a b => some (d, .ofInt 64 (((k.sreg a).toNat : Int) - (k.sreg b).toNat), 1)
  | .and_ _ d a b => some (d, k.sreg a &&& k.sreg b, 1)
  | .or_ _ d a b => some (d, k.sreg a ||| k.sreg b, 1)
  | .xor_ _ d a b => some (d, k.sreg a ^^^ k.sreg b, 1)
  | .shl _ d a b => some (d, .ofNat 64 ((k.sreg a).toNat * 2 ^ ((k.sreg b).toNat % 64)), 1)
  | .shr _ d a b => some (d, .ofNat 64 ((k.sreg a).toNat / 2 ^ ((k.sreg b).toNat % 64)), 1)
  | .sar _ d a b => some (d, .ofInt 64 ((k.sreg a).toInt / 2 ^ ((k.sreg b).toNat % 64)), 1)
  | .rol _ d a b =>
    let n := (k.sreg b).toNat % 64
    some (d, .ofNat 64 ((k.sreg a).toNat * 2 ^ n + (k.sreg a).toNat / 2 ^ (64 - n)), 1)
  | .min_ _ d a b => some (d, if (k.sreg a).toInt ≤ (k.sreg b).toInt then k.sreg a else k.sreg b, 1)
  | .max_ _ d a b => some (d, if (k.sreg a).toInt ≤ (k.sreg b).toInt then k.sreg b else k.sreg a, 1)
  | .minu _ d a b => some (d, if (k.sreg a).toNat ≤ (k.sreg b).toNat then k.sreg a else k.sreg b, 1)
  | .maxu _ d a b => some (d, if (k.sreg a).toNat ≤ (k.sreg b).toNat then k.sreg b else k.sreg a, 1)
  | .slt _ d a b => some (d, flag (decide ((k.sreg a).toInt < (k.sreg b).toInt)), 1)
  | .sltu _ d a b => some (d, flag (decide ((k.sreg a).toNat < (k.sreg b).toNat)), 1)
  | .seq _ d a b => some (d, flag (decide (k.sreg a = k.sreg b)), 1)
  | .mul _ d a b => some (d, .ofNat 64 ((k.sreg a).toNat * (k.sreg b).toNat), 3)
  | .mulh _ d a b => some (d, .ofInt 64 ((k.sreg a).toInt * (k.sreg b).toInt / 2 ^ 64), 3)
  | .mulhu _ d a b => some (d, .ofNat 64 ((k.sreg a).toNat * (k.sreg b).toNat / 2 ^ 64), 3)
  | .div _ d a b =>
    some (d, if k.sreg b = 0 then .allOnes 64 else .ofInt 64 ((k.sreg a).toInt.tdiv (k.sreg b).toInt), 24)
  | .divu _ d a b =>
    some (d, if k.sreg b = 0 then .allOnes 64 else .ofNat 64 ((k.sreg a).toNat / (k.sreg b).toNat), 24)
  | .rem _ d a b => some (d, if k.sreg b = 0 then k.sreg a else .ofInt 64 ((k.sreg a).toInt.tmod (k.sreg b).toInt), 24)
  | .remu _ d a b => some (d, if k.sreg b = 0 then k.sreg a else .ofNat 64 ((k.sreg a).toNat % (k.sreg b).toNat), 24)
  | .addsh _ d a b n => some (d, .ofNat 64 ((k.sreg a).toNat + (k.sreg b).toNat * 2 ^ n.toNat), 1)
  | .sel _ d a b => some (d, if k.sreg a ≠ 0 then k.sreg b else k.sreg d, 1)
  | .clz _ d a => some (d, .ofNat 64 (64 - (k.sreg a).toNat.size), 1)
  | .ctz _ d a => some (d, .ofNat 64 (((List.range 64).find? fun i => (k.sreg a).getLsbD i).getD 64), 1)
  | .popc _ d a => some (d, .ofNat 64 ((List.range 64).filter fun i => (k.sreg a).getLsbD i).length, 1)
  | .bswap _ d a =>
    some (d, .ofNat 64 ((List.range 8).map fun i => (k.sreg a).toNat / 256 ^ i % 256 * 256 ^ (7 - i)).sum, 1)
  | .addi _ d a i => some (d, .ofInt 64 ((k.sreg a).toNat + i.toInt), 1)
  | .andi _ d a i => some (d, k.sreg a &&& .ofNat 64 i.toNat, 1)
  | .ori _ d a i => some (d, k.sreg a ||| .ofNat 64 i.toNat, 1)
  | .xori _ d a i => some (d, k.sreg a ^^^ .ofNat 64 i.toNat, 1)
  | .shli _ d a n => some (d, .ofNat 64 ((k.sreg a).toNat * 2 ^ n.toNat), 1)
  | .shri _ d a n => some (d, .ofNat 64 ((k.sreg a).toNat / 2 ^ n.toNat), 1)
  | .sari _ d a n => some (d, .ofInt 64 ((k.sreg a).toInt / 2 ^ n.toNat), 1)
  | .slti _ d a i => some (d, flag (decide ((k.sreg a).toInt < i.toInt)), 1)
  | .exts _ d a q w => some (d, .ofInt 64 (span (k.sreg a) q w).toInt, 1)
  | .extu _ d a q w => some (d, .ofNat 64 (span (k.sreg a) q w).toNat, 1)
  | .ins _ d a q w =>
    let mask : W64 := .ofNat 64 ((2 ^ (w.toNat + 1) - 1) * 2 ^ q.toNat)
    some (d, (k.sreg d &&& ~~~mask) ||| ((k.sreg a <<< q.toNat) &&& mask), 1)
  | .li _ d i => some (d, .ofInt 64 i.toInt, 1)
  | .lih _ d i => some (d, .ofNat 64 ((k.sreg d).toNat * 2 ^ 18 + i.toNat), 1)
  | _ => none

/-! ## Memory words (R153 to R157) -/

/-- An access: its space, its bytes, the registers that form its address, and the address. -/
structure Access where
  space : Space
  size : Nat
  regs : List (BitVec 5)
  addr : Nat

/-- sa plus a signed immediate in units of the size, modulo 2^64 (R153). -/
def Core.immAt (k : Core) (a : BitVec 5) (i : BitVec 9) (z : Nat) : Nat :=
  ((((k.sreg a).toNat : Int) + i.toInt * z) % 2 ^ 64).toNat

/-- sa + sb, modulo 2^64. -/
def Core.idxAt (k : Core) (a b : BitVec 5) : Nat := ((k.sreg a).toNat + (k.sreg b).toNat) % 2 ^ 64

/-- A scalar load: its access, whether it sign-extends, its destination and class. -/
def loadOf (k : Core) : Instr → Option (Access × Bool × BitVec 5 × BitVec 4)
  | .ldsB _ d a c i => some ({ space := .spad, size := 1, regs := [a], addr := k.immAt a i 1 }, true, d, c)
  | .ldsH _ d a c i => some ({ space := .spad, size := 2, regs := [a], addr := k.immAt a i 2 }, true, d, c)
  | .ldsW _ d a c i => some ({ space := .spad, size := 4, regs := [a], addr := k.immAt a i 4 }, true, d, c)
  | .ldsD _ d a c i => some ({ space := .spad, size := 8, regs := [a], addr := k.immAt a i 8 }, true, d, c)
  | .ldsBIndexed _ d a b c => some ({ space := .spad, size := 1, regs := [a, b], addr := k.idxAt a b }, true, d, c)
  | .ldsBuIndexed _ d a b c => some ({ space := .spad, size := 1, regs := [a, b], addr := k.idxAt a b }, false, d, c)
  | .ldsHIndexed _ d a b c => some ({ space := .spad, size := 2, regs := [a, b], addr := k.idxAt a b }, true, d, c)
  | .ldsHuIndexed _ d a b c => some ({ space := .spad, size := 2, regs := [a, b], addr := k.idxAt a b }, false, d, c)
  | .ldsWIndexed _ d a b c => some ({ space := .spad, size := 4, regs := [a, b], addr := k.idxAt a b }, true, d, c)
  | .ldsWuIndexed _ d a b c => some ({ space := .spad, size := 4, regs := [a, b], addr := k.idxAt a b }, false, d, c)
  | .ldsDIndexed _ d a b c => some ({ space := .spad, size := 8, regs := [a, b], addr := k.idxAt a b }, true, d, c)
  | .ldmB _ d a c i => some ({ space := .dev, size := 1, regs := [a], addr := k.immAt a i 1 }, true, d, c)
  | .ldmH _ d a c i => some ({ space := .dev, size := 2, regs := [a], addr := k.immAt a i 2 }, true, d, c)
  | .ldmW _ d a c i => some ({ space := .dev, size := 4, regs := [a], addr := k.immAt a i 4 }, true, d, c)
  | .ldmD _ d a c i => some ({ space := .dev, size := 8, regs := [a], addr := k.immAt a i 8 }, true, d, c)
  | .ldmBIndexed _ d a b c => some ({ space := .dev, size := 1, regs := [a, b], addr := k.idxAt a b }, true, d, c)
  | .ldmBuIndexed _ d a b c => some ({ space := .dev, size := 1, regs := [a, b], addr := k.idxAt a b }, false, d, c)
  | .ldmHIndexed _ d a b c => some ({ space := .dev, size := 2, regs := [a, b], addr := k.idxAt a b }, true, d, c)
  | .ldmHuIndexed _ d a b c => some ({ space := .dev, size := 2, regs := [a, b], addr := k.idxAt a b }, false, d, c)
  | .ldmWIndexed _ d a b c => some ({ space := .dev, size := 4, regs := [a, b], addr := k.idxAt a b }, true, d, c)
  | .ldmWuIndexed _ d a b c => some ({ space := .dev, size := 4, regs := [a, b], addr := k.idxAt a b }, false, d, c)
  | .ldmDIndexed _ d a b c => some ({ space := .dev, size := 8, regs := [a, b], addr := k.idxAt a b }, true, d, c)
  | _ => none

/-- A scalar store: its access, the register stored, its class. -/
def storeOf (k : Core) : Instr → Option (Access × BitVec 5 × BitVec 4)
  | .stsB _ v a c i => some ({ space := .spad, size := 1, regs := [a], addr := k.immAt a i 1 }, v, c)
  | .stsH _ v a c i => some ({ space := .spad, size := 2, regs := [a], addr := k.immAt a i 2 }, v, c)
  | .stsW _ v a c i => some ({ space := .spad, size := 4, regs := [a], addr := k.immAt a i 4 }, v, c)
  | .stsD _ v a c i => some ({ space := .spad, size := 8, regs := [a], addr := k.immAt a i 8 }, v, c)
  | .stsBIndexed _ v a b c => some ({ space := .spad, size := 1, regs := [a, b], addr := k.idxAt a b }, v, c)
  | .stsHIndexed _ v a b c => some ({ space := .spad, size := 2, regs := [a, b], addr := k.idxAt a b }, v, c)
  | .stsWIndexed _ v a b c => some ({ space := .spad, size := 4, regs := [a, b], addr := k.idxAt a b }, v, c)
  | .stsDIndexed _ v a b c => some ({ space := .spad, size := 8, regs := [a, b], addr := k.idxAt a b }, v, c)
  | .stmB _ v a c i => some ({ space := .dev, size := 1, regs := [a], addr := k.immAt a i 1 }, v, c)
  | .stmH _ v a c i => some ({ space := .dev, size := 2, regs := [a], addr := k.immAt a i 2 }, v, c)
  | .stmW _ v a c i => some ({ space := .dev, size := 4, regs := [a], addr := k.immAt a i 4 }, v, c)
  | .stmD _ v a c i => some ({ space := .dev, size := 8, regs := [a], addr := k.immAt a i 8 }, v, c)
  | .stmBIndexed _ v a b c => some ({ space := .dev, size := 1, regs := [a, b], addr := k.idxAt a b }, v, c)
  | .stmHIndexed _ v a b c => some ({ space := .dev, size := 2, regs := [a, b], addr := k.idxAt a b }, v, c)
  | .stmWIndexed _ v a b c => some ({ space := .dev, size := 4, regs := [a, b], addr := k.idxAt a b }, v, c)
  | .stmDIndexed _ v a b c => some ({ space := .dev, size := 8, regs := [a, b], addr := k.idxAt a b }, v, c)
  | _ => none

/-- An atomic: its access, function, destination, operand register, class. -/
def atomicOf (k : Core) : Instr → Option (Access × AtomFn × BitVec 5 × BitVec 5 × BitVec 4)
  | .amosAdd _ d a b c => some ({ space := .spad, size := 8, regs := [a], addr := (k.sreg a).toNat }, .add, d, b, c)
  | .amosAnd _ d a b c => some ({ space := .spad, size := 8, regs := [a], addr := (k.sreg a).toNat }, .and_, d, b, c)
  | .amosOr _ d a b c => some ({ space := .spad, size := 8, regs := [a], addr := (k.sreg a).toNat }, .or_, d, b, c)
  | .amosXor _ d a b c => some ({ space := .spad, size := 8, regs := [a], addr := (k.sreg a).toNat }, .xor_, d, b, c)
  | .amosSwap _ d a b c => some ({ space := .spad, size := 8, regs := [a], addr := (k.sreg a).toNat }, .swap, d, b, c)
  | .amosMin _ d a b c => some ({ space := .spad, size := 8, regs := [a], addr := (k.sreg a).toNat }, .min_, d, b, c)
  | .amosMax _ d a b c => some ({ space := .spad, size := 8, regs := [a], addr := (k.sreg a).toNat }, .max_, d, b, c)
  | .amosMinu _ d a b c => some ({ space := .spad, size := 8, regs := [a], addr := (k.sreg a).toNat }, .minu, d, b, c)
  | .amosMaxu _ d a b c => some ({ space := .spad, size := 8, regs := [a], addr := (k.sreg a).toNat }, .maxu, d, b, c)
  | .amosWAdd _ d a b c => some ({ space := .spad, size := 4, regs := [a], addr := (k.sreg a).toNat }, .add, d, b, c)
  | .amosWAnd _ d a b c => some ({ space := .spad, size := 4, regs := [a], addr := (k.sreg a).toNat }, .and_, d, b, c)
  | .amosWOr _ d a b c => some ({ space := .spad, size := 4, regs := [a], addr := (k.sreg a).toNat }, .or_, d, b, c)
  | .amosWXor _ d a b c => some ({ space := .spad, size := 4, regs := [a], addr := (k.sreg a).toNat }, .xor_, d, b, c)
  | .amosWSwap _ d a b c => some ({ space := .spad, size := 4, regs := [a], addr := (k.sreg a).toNat }, .swap, d, b, c)
  | .amosWMin _ d a b c => some ({ space := .spad, size := 4, regs := [a], addr := (k.sreg a).toNat }, .min_, d, b, c)
  | .amosWMax _ d a b c => some ({ space := .spad, size := 4, regs := [a], addr := (k.sreg a).toNat }, .max_, d, b, c)
  | .amosWMinu _ d a b c => some ({ space := .spad, size := 4, regs := [a], addr := (k.sreg a).toNat }, .minu, d, b, c)
  | .amosWMaxu _ d a b c => some ({ space := .spad, size := 4, regs := [a], addr := (k.sreg a).toNat }, .maxu, d, b, c)
  | .amomAdd _ d a b c => some ({ space := .dev, size := 8, regs := [a], addr := (k.sreg a).toNat }, .add, d, b, c)
  | .amomAnd _ d a b c => some ({ space := .dev, size := 8, regs := [a], addr := (k.sreg a).toNat }, .and_, d, b, c)
  | .amomOr _ d a b c => some ({ space := .dev, size := 8, regs := [a], addr := (k.sreg a).toNat }, .or_, d, b, c)
  | .amomXor _ d a b c => some ({ space := .dev, size := 8, regs := [a], addr := (k.sreg a).toNat }, .xor_, d, b, c)
  | .amomSwap _ d a b c => some ({ space := .dev, size := 8, regs := [a], addr := (k.sreg a).toNat }, .swap, d, b, c)
  | .amomMin _ d a b c => some ({ space := .dev, size := 8, regs := [a], addr := (k.sreg a).toNat }, .min_, d, b, c)
  | .amomMax _ d a b c => some ({ space := .dev, size := 8, regs := [a], addr := (k.sreg a).toNat }, .max_, d, b, c)
  | .amomMinu _ d a b c => some ({ space := .dev, size := 8, regs := [a], addr := (k.sreg a).toNat }, .minu, d, b, c)
  | .amomMaxu _ d a b c => some ({ space := .dev, size := 8, regs := [a], addr := (k.sreg a).toNat }, .maxu, d, b, c)
  | .amomWAdd _ d a b c => some ({ space := .dev, size := 4, regs := [a], addr := (k.sreg a).toNat }, .add, d, b, c)
  | .amomWAnd _ d a b c => some ({ space := .dev, size := 4, regs := [a], addr := (k.sreg a).toNat }, .and_, d, b, c)
  | .amomWOr _ d a b c => some ({ space := .dev, size := 4, regs := [a], addr := (k.sreg a).toNat }, .or_, d, b, c)
  | .amomWXor _ d a b c => some ({ space := .dev, size := 4, regs := [a], addr := (k.sreg a).toNat }, .xor_, d, b, c)
  | .amomWSwap _ d a b c => some ({ space := .dev, size := 4, regs := [a], addr := (k.sreg a).toNat }, .swap, d, b, c)
  | .amomWMin _ d a b c => some ({ space := .dev, size := 4, regs := [a], addr := (k.sreg a).toNat }, .min_, d, b, c)
  | .amomWMax _ d a b c => some ({ space := .dev, size := 4, regs := [a], addr := (k.sreg a).toNat }, .max_, d, b, c)
  | .amomWMinu _ d a b c => some ({ space := .dev, size := 4, regs := [a], addr := (k.sreg a).toNat }, .minu, d, b, c)
  | .amomWMaxu _ d a b c => some ({ space := .dev, size := 4, regs := [a], addr := (k.sreg a).toNat }, .maxu, d, b, c)
  | _ => none

/-- The access lies outside its space: device memory ends at virtual address 2^48, judged by the first byte (R75,
R153). -/
def Access.outside (x : Access) : Bool :=
  match x.space with
  | .spad => decide (327680 < x.addr + x.size)
  | .acc => decide (1048576 < x.addr + x.size)
  | .dev => decide (2 ^ 48 ≤ x.addr)

/-- The access lies inside its space and is aligned. -/
def Access.placed (x : Access) : Bool := !x.outside && decide (x.addr % x.size = 0)

/-- The access passes its address checks where the word stands: a core for its own memories, inside its space, aligned,
and for a service context inside device memory (R75, R153, R271, R317). -/
def State.MayAccess (s : State) (x : Access) : Prop :=
  (x.space ≠ .dev → s.cur.svc = false) ∧ x.placed = true ∧ (s.cur.svc = true → x.addr < 80 * 2 ^ 30)

/-- The first address register of an access that carries a wrong residue: DETAIL is the address with its space,
DETAIL2 names the register and the two residues (R333, R342). -/
def Core.baseMismatch (k : Core) (x : Access) : Option (Nat × Nat) :=
  match x.regs.find? k.residueBad with
  | some r => some (x.space.code * 2 ^ 62 + x.addr, k.residueDetail r)
  | none => none

/-- A stored or operand register that carries a wrong residue: DETAIL is 0 (R333, R342). -/
def Core.dataMismatch (k : Core) (r : BitVec 5) : Option (Nat × Nat) :=
  if k.residueBad r then some (0, k.residueDetail r) else none

/-- Beats to the access and to the usable register, in high gear (R77). -/
def accessTimes : Space → Nat × Nat
  | .spad => (2, 4)
  | .acc => (3, 5)
  | .dev => (120, 160)

/-- Beats to the access and to the usable register of an atomic (R77). -/
def atomTimes : Space → Nat × Nat
  | .spad => (2, 6)
  | .acc => (3, 6)
  | .dev => (120, 170)

/-- The low z bytes of a value, least significant at the lowest address. -/
def storedCells (a z : Nat) (v : W64) : List Host.Cell := (List.range z).map fun j => (a + j, v.extractLsb' (8 * j) 8)

/-- The unit's registers once a pending write of the running word is on the early-read table (R69). -/
def State.recorded (s : State) (sp : Space) (lo hi perform : Nat) : Core :=
  if sp = .dev then s.core else s.core.erRecord sp lo hi perform s.org

/-! ## Transfers (R158, R159) -/

/-- A conditional branch: whether it is taken, and its offset. -/
def branchOf (k : Core) : Instr → Option (Bool × BitVec 13)
  | .beq _ a b o => some (decide (k.sreg a = k.sreg b), o)
  | .bne _ a b o => some (decide (k.sreg a ≠ k.sreg b), o)
  | .blt _ a b o => some (decide ((k.sreg a).toInt < (k.sreg b).toInt), o)
  | .bge _ a b o => some (decide ((k.sreg b).toInt ≤ (k.sreg a).toInt), o)
  | .bltu _ a b o => some (decide ((k.sreg a).toNat < (k.sreg b).toNat), o)
  | .bgeu _ a b o => some (decide ((k.sreg b).toNat ≤ (k.sreg a).toNat), o)
  | _ => none

/-- The word's own address plus a signed offset, modulo 2^64. -/
def State.target (s : State) (o : Int) : Nat := (((s.track.pc : Int) + o) % 2 ^ 64).toNat

/-- The word of the track is followed by the one after it: no macro entry, no join, no loop ends there. -/
def Track.StraightOn (t : Track) : Prop :=
  t.mac = none ∧ t.join = none ∧ (∀ l ∈ t.kloops.head?, t.pc + 1 ≠ l.body + l.len) ∧
    (∀ l, t.mloop = some l → t.pc + 1 ≠ l.body + l.k) ∧ ∀ l, t.cloop = some l → t.pc + 1 ≠ l.body + l.len

/-- The access of a scalar load, store or atomic. -/
def accessOf (k : Core) (i : Instr) : Option Access :=
  (loadOf k i).map (·.1) <|> (storeOf k i).map (·.1) <|> (atomicOf k i).map (·.1)

/-- What a word that acts on a core or on the running step leaves in a service context, which has neither: the s
register that takes an open value, and the latency; or nothing (log entry 12). -/
inductive CoreLeft where
  | open_ (d : BitVec 5) (lat : Nat)
  | nothing

/-- LDA's element size and whether it extends the sign, as the bank that sa's own address lies in has them on b: the
type's element, INT8, INT16 and INT32 signed; 4 bytes where there is no such bank or it is unallocated (R155). -/
def Core.ldaElement (k : Core) (base : Nat) : Nat × Bool :=
  let t := if base < 1048576 then (k.bank (base / 16384)).type else 0
  if t = 0 then (4, false) else (elemSize t, decide (4 ≤ t.toNat) && decide (t.toNat ≤ 6))

/-- LDA's access. -/
def Core.ldaAccess (k : Core) (a : BitVec 5) (i : BitVec 9) : Access :=
  let z := (k.ldaElement (k.sreg a).toNat).1
  { space := .acc, size := z, regs := [a], addr := k.immAt a i z }

/-- The words that act on a core's own memories, on its gears or on the running step, with what a service context is
left with; none for the forms that fault there. -/
def State.coreWord (s : State) (i : Instr) : Option CoreLeft :=
  let k := s.core
  let gear := if s.track.mac.isNone && s.track.join.isNone then some CoreLeft.nothing else none
  let stream (a : BitVec 5) : Option CoreLeft := if (k.sreg a).toNat ≤ 511 then some .nothing else none
  match i with
  | .gearH .. => gear
  | .gearL .. => gear
  | .commit .. => some .nothing
  | .xstep .. => some .nothing
  | .sfork _ a => stream a
  | .scancel _ a => stream a
  | .scancelT _ a => stream a
  | .retract _ _ a => stream a
  | .stat _ d _ => some (.open_ d 1)
  | .posq _ d _ _ => some (.open_ d 1)
  | .rdctr _ d sel => if 3 ≤ sel.toNat ∧ sel.toNat < 16 then some (.open_ d 1) else none
  | .lda _ d a _ i => if (k.ldaAccess a i).placed then some (.open_ d 5) else none
  | i =>
    match loadOf k i, storeOf k i, atomicOf k i with
    | some (x, _, d, _), _, _ => if x.space = .spad ∧ x.placed then some (.open_ d 4) else none
    | _, some (x, _, _), _ =>
      if x.space = .spad ∧ x.placed ∧ k.baseMismatch x = none then some .nothing else none
    | _, _, some (x, _, d, _, _) => if x.space = .spad ∧ x.placed then some (.open_ d 6) else none
    | _, _, _ => none

/-! ## Words that write a row (R180 to R202) -/

/-- Lane j of a row, as a word of type t reads it; a row of an unallocated bank reads as zero (R79, R180). -/
def Core.lane (k : Core) (x : Place) (t : BitVec 6) (j : Nat) : Nat :=
  if k.allocated x.bank then Mem.nat k.acc (x.addr + elemSize t * j) (elemSize t) else 0

/-- A word that writes row vd: the types it takes, its latency, its predicate and Z, the rows it reads besides those
that merging asks for, the result of each lane for the word's type, and the s registers that are lane indices. -/
structure RowWord where
  types : BitVec 6 → Bool
  lat : Nat
  p : BitVec 4
  z : BitVec 1
  d : BitVec 6
  reads : List Place
  lane : BitVec 6 → Nat → Nat
  regs : List (BitVec 5) := []

/-- A signed lane. -/
def slane (t : BitVec 6) (x : Nat) : Int := (BitVec.ofNat (laneBits t) x).toInt

/-- An integer as a lane. -/
def ulane (t : BitVec 6) (x : Int) : Nat := (x % 2 ^ laneBits t).toNat

/-- The participating lanes of a reduction with their numbers (R198). -/
def Core.parts (k : Core) (p : BitVec 4) (x : Place) (t : BitVec 6) : List (Nat × Nat) :=
  ((List.range (laneCount t)).filter fun j => (k.selected p).getLsbD j).map fun j => (j, k.lane x t j)

/-- The row words of one, two and three sources, lane by lane. -/
def lanewise1 (k : Core) (types : BitVec 6 → Bool) (lat : Nat) (p : BitVec 4) (z : BitVec 1) (d a : BitVec 6)
    (f : BitVec 6 → Nat → Nat) : RowWord :=
  let x := k.place mapVa a
  { types := types, lat := lat, p := p, z := z, d := d, reads := [x], lane := fun t j => f t (k.lane x t j) }

def lanewise2 (k : Core) (types : BitVec 6 → Bool) (lat : Nat) (p : BitVec 4) (z : BitVec 1) (d a b : BitVec 6)
    (f : BitVec 6 → Nat → Nat → Nat) : RowWord :=
  let x := k.place mapVa a
  let y := k.place mapVb b
  { types := types, lat := lat, p := p, z := z, d := d, reads := [x, y],
    lane := fun t j => f t (k.lane x t j) (k.lane y t j) }

def lanewise3 (k : Core) (p : BitVec 4) (z : BitVec 1) (d a b : BitVec 6)
    (f : BitVec 6 → Nat → Nat → Nat → Nat) : RowWord :=
  let x := k.place mapVa a
  let y := k.place mapVb b
  let w := k.place mapVd d
  { types := isFloat, lat := 4, p := p, z := z, d := d, reads := [x, y, w],
    lane := fun t j => f t (k.lane x t j) (k.lane y t j) (k.lane w t j) }

/-- A special function: the exact function of the lane's value, rounded once (R189). -/
def specialOf (k : Core) (p : BitVec 4) (z : BitVec 1) (d a : BitVec 6) (f : FVal → FVal) : RowWord :=
  lanewise1 k isFloat 12 p z d a fun t x => roundT t (f (valT t x))

/-- A word that makes its row of the participating lanes and merges nothing. -/
def reduction (k : Core) (lat : Nat) (types : BitVec 6 → Bool) (p : BitVec 4) (d a : BitVec 6)
    (f : BitVec 6 → List (Nat × Nat) → List Nat) : RowWord :=
  let x := k.place mapVa a
  { types := types, lat := lat, p := 0, z := 0, d := d, reads := [x], lane := fun t j => (f t (k.parts p x t)).getD j 0 }

/-- A word that makes each lane of its row from whole rows. -/
def moved (lat : Nat) (p : BitVec 4) (z : BitVec 1) (d : BitVec 6) (reads : List Place)
    (lane : BitVec 6 → Nat → Nat) (regs : List (BitVec 5) := []) : RowWord :=
  { types := anyType, lat := lat, p := p, z := z, d := d, reads := reads, lane := lane, regs := regs }

/-- The register that the operand of a lane-moving word names, unless it is an immediate (R199). -/
def indexReg (i : BitVec 1) (x : BitVec 5) : List (BitVec 5) := if i = 0 then [x] else []

/-- FP or integer. -/
def isNumber (t : BitVec 6) : Bool := isFloat t || isInt t

/-- Every row word that writes one row of one type, VADDC and VCVT apart. -/
def rowWordOf (s : State) : Instr → Option RowWord
  | .vadd _ p z d a b => some (lanewise2 s.core isFloat 2 p z d a b fAdd)
  | .vsub _ p z d a b => some (lanewise2 s.core isFloat 2 p z d a b fSub)
  | .vmul _ p z d a b => some (lanewise2 s.core isFloat 4 p z d a b fMul)
  | .vfma _ p z d a b => some (lanewise3 s.core p z d a b fFma)
  | .vfms _ p z d a b => some (lanewise3 s.core p z d a b fFms)
  | .vfnma _ p z d a b => some (lanewise3 s.core p z d a b fFnma)
  | .vmin _ p z d a b => some (lanewise2 s.core isFloat 2 p z d a b fMin)
  | .vmax _ p z d a b => some (lanewise2 s.core isFloat 2 p z d a b fMax)
  | .vcpysgn _ p z d a b => some (lanewise2 s.core isFloat 2 p z d a b fCpysgn)
  | .vabs _ p z d a => some (lanewise1 s.core isFloat 2 p z d a fAbs)
  | .vneg _ p z d a => some (lanewise1 s.core isFloat 2 p z d a fNeg)
  | .vclass _ p z d a => some (lanewise1 s.core isFloat 2 p z d a fClass)
  | .vrcp _ p z d a => some (specialOf s.core p z d a fRcp)
  | .vrsq _ p z d a => some (specialOf s.core p z d a fRsq)
  | .vsqrt _ p z d a => some (specialOf s.core p z d a fSqrt)
  | .vexp2 _ p z d a => some (specialOf s.core p z d a fExp2)
  | .vlog2 _ p z d a => some (specialOf s.core p z d a fLog2)
  | .vsin _ p z d a => some (specialOf s.core p z d a fSin)
  | .vcos _ p z d a => some (specialOf s.core p z d a fCos)
  | .vtanh _ p z d a => some (specialOf s.core p z d a fTanh)
  | .vsigm _ p z d a => some (specialOf s.core p z d a fSigm)
  | .viadd _ p z d a b => some (lanewise2 s.core isInt 2 p z d a b fun t x y => (x + y) % 2 ^ laneBits t)
  | .visub _ p z d a b => some (lanewise2 s.core isInt 2 p z d a b fun t x y => ulane t ((x : Int) - y))
  | .vimul _ p z d a b => some (lanewise2 s.core isInt 4 p z d a b fun t x y => x * y % 2 ^ laneBits t)
  | .vimulh _ p z d a b =>
    some (lanewise2 s.core isInt 4 p z d a b fun t x y => ulane t (slane t x * slane t y / 2 ^ laneBits t))
  | .vimin _ p z d a b => some (lanewise2 s.core isInt 2 p z d a b fun t x y => if slane t x ≤ slane t y then x else y)
  | .vimax _ p z d a b => some (lanewise2 s.core isInt 2 p z d a b fun t x y => if slane t y ≤ slane t x then x else y)
  | .vand _ p z d a b => some (lanewise2 s.core anyType 2 p z d a b fun _ x y => x &&& y)
  | .vor _ p z d a b => some (lanewise2 s.core anyType 2 p z d a b fun _ x y => x ||| y)
  | .vxor _ p z d a b => some (lanewise2 s.core anyType 2 p z d a b fun _ x y => x ^^^ y)
  | .vshl _ p z d a b =>
    some (lanewise2 s.core anyType 2 p z d a b fun t x y => x * 2 ^ (y % laneBits t) % 2 ^ laneBits t)
  | .vshr _ p z d a b => some (lanewise2 s.core anyType 2 p z d a b fun t x y => x / 2 ^ (y % laneBits t))
  | .vsar _ p z d a b =>
    some (lanewise2 s.core anyType 2 p z d a b fun t x y => ulane t (slane t x / 2 ^ (y % laneBits t)))
  | .vclz _ p z d a => some (lanewise1 s.core anyType 2 p z d a fun t x => laneBits t - x.size)
  | .vctz _ p z d a =>
    some (lanewise1 s.core anyType 2 p z d a fun t x => ((List.range (laneBits t)).find? x.testBit).getD (laneBits t))
  | .vpopc _ p z d a =>
    some (lanewise1 s.core anyType 2 p z d a fun t x => ((List.range (laneBits t)).filter x.testBit).length)
  | .vsatnS _ p z d a =>
    some (lanewise1 s.core isNarrowable 2 p z d a fun t x =>
      let h : Int := 2 ^ (laneBits t / 2 - 1)
      ulane t (if slane t x < -h then -h else if h ≤ slane t x then h - 1 else slane t x))
  | .vsatnU _ p z d a =>
    some (lanewise1 s.core isNarrowable 2 p z d a fun t x =>
      let h : Int := 2 ^ (laneBits t / 2)
      ulane t (if slane t x < 0 then 0 else if h ≤ slane t x then h - 1 else slane t x))
  | .vidx _ p z d => some (moved 2 p z d [] fun t j => j % 2 ^ laneBits t)
  | .vsel _ p d a b =>
    let k := s.core
    let x := k.place mapVa a
    let y := k.place mapVb b
    some (moved 2 0 0 d [x, y] fun t j => if (k.selected p).getLsbD j then k.lane x t j else k.lane y t j)
  | .vpack _ p z d a b =>
    let k := s.core
    let x := k.place mapVa a
    let y := k.place mapVb b
    some (moved 3 p z d [x, y] fun t j =>
      if j < laneCount t / 2 then k.lane x t j else k.lane y t (j - laneCount t / 2))
  | .vunpk _ p z d a =>
    let k := s.core
    let x := k.place mapVa a
    some (moved 3 p z d [x] fun t j => if j < laneCount t / 2 then k.lane x t (j + laneCount t / 2) else 0)
  | .vordkey _ p z d a =>
    let k := s.core
    let ts := k.sourceType (k.place mapVa a).bank (k.place mapVd d).bank
    some (lanewise1 k (fun t => decide (elemSize ts = elemSize t)) 2 p z d a fun _ x => ordKey ts x)
  | .vkeyord _ p z d a =>
    let k := s.core
    let ts := k.sourceType (k.place mapVa a).bank (k.place mapVd d).bank
    some (lanewise1 k (fun t => decide (elemSize ts = elemSize t)) 2 p z d a keyOrd)
  | .vrsum _ p d a => some (reduction s.core 10 isNumber p d a reduceSum)
  | .vrmax _ p d a => some (reduction s.core 10 isNumber p d a fun t xs => [(best t true xs).1])
  | .vrmin _ p d a => some (reduction s.core 10 isNumber p d a fun t xs => [(best t false xs).1])
  | .vrargmax _ p d a =>
    some (reduction s.core 10 isNumber p d a fun t xs => [(best t true xs).1, (best t true xs).2 % 2 ^ laneBits t])
  | .vrargmin _ p d a =>
    some (reduction s.core 10 isNumber p d a fun t xs => [(best t false xs).1, (best t false xs).2 % 2 ^ laneBits t])
  | .vbcast _ p z d i x => some (moved 3 p z d [] fun t _ => s.vsOperand i x % 2 ^ laneBits t)
  | .vrot _ p z d a i x =>
    let y := s.core.place mapVa a
    some (moved 3 p z d [y] (fun t j => s.core.lane y t ((j + s.vsOperand i x) % laneCount t)) (indexReg i x))
  | .vslide _ p z d a i x =>
    let y := s.core.place mapVa a
    some (moved 3 p z d [y] (fun t j =>
      if j + s.vsOperand i x < laneCount t then s.core.lane y t (j + s.vsOperand i x) else 0) (indexReg i x))
  | .vshuf _ p z d a b =>
    let x := s.core.place mapVa a
    let y := s.core.place mapVb b
    some (moved 3 p z d [x, y] fun t j => s.core.lane x t (s.core.lane y t j % laneCount t))
  | .vextr _ p z d a i x =>
    let y := s.core.place mapVa a
    some (moved 3 p z d [y] (fun t j => if j = 0 then s.core.lane y t (s.vsOperand i x % laneCount t) else 0)
      (indexReg i x))
  | .vinsrt _ p z d n i x =>
    let y := s.core.place mapVd d
    some (moved 3 p z d [y] (fun t j =>
      if j = (s.core.sreg n).toNat % laneCount t then s.vsOperand i x % 2 ^ laneBits t else s.core.lane y t j) [n])
  | .vmov _ p z d a => some (lanewise1 s.core anyType 2 p z d a fun _ x => x)
  | .vzero _ p z d => some (moved 2 p z d [] fun _ _ => 0)
  | .vhist _ p d a b =>
    let x := s.core.place mapVa a
    let y := s.core.place mapVb b
    some { types := isInt, lat := 8, p := 0, z := 0, d := d, reads := [x, y], lane := fun t j =>
      (s.core.lane y t j + ((s.core.parts p x t).filter fun e => e.2 = j).length) % 2 ^ laneBits t }
  | .vprefix _ p z d a =>
    let x := s.core.place mapVa a
    some { types := isInt, lat := 8, p := p, z := z, d := d, reads := [x], lane := fun t j =>
      (((s.core.parts p x t).filter fun e => e.1 ≤ j).map (·.2)).sum % 2 ^ laneBits t }
  | .vprefixX _ p z d a =>
    let x := s.core.place mapVa a
    some { types := isInt, lat := 8, p := p, z := z, d := d, reads := [x], lane := fun t j =>
      (((s.core.parts p x t).filter fun e => e.1 < j).map (·.2)).sum % 2 ^ laneBits t }
  | .vcompact _ p d a => some (reduction s.core 6 anyType p d a fun _ xs => xs.map (·.2))
  | .pcnt _ d a =>
    some (moved 1 0 0 d [] fun t j =>
      if j = 0 then ((List.range (laneCount t)).filter fun i => (s.core.predOf a).getLsbD i).length % 2 ^ laneBits t else 0)
  | _ => none

/-- The rows that a row word reads, with its destination where it merges (R184). -/
def RowWord.sources (w : RowWord) (k : Core) : List Place :=
  w.reads ++ if w.p ≠ 0 ∧ w.z = 0 then [k.place mapVd w.d] else []

/-- Lane j of the result, merged under the predicate (R183). -/
def RowWord.merged (w : RowWord) (k : Core) (t : BitVec 6) (j : Nat) : Nat :=
  if (k.selected w.p).getLsbD j then w.lane t j else if w.z = 1 then 0 else k.lane (k.place mapVd w.d) t j

/-- A row may be read: no recorded write of it is still to come, its band belongs to V, and none of its words is
poisoned. A row of an unallocated bank has no band and no contents (R69, R79, R80, R184, R337). -/
def State.RowReadable (s : State) (x : Place) : Prop :=
  s.core.earlyHit .acc x.addr (x.addr + 256) s.now .v = none ∧
    (s.core.allocated x.bank = true → (s.core.bank x.bank).owner x.row = 0 ∧ eccOver s.core.accEcc 8 x.addr 256 ≠ 2)

/-- The bytes of a row hold these lanes. -/
def holdsLanes (bs : List Byte) (z n : Nat) (lane : Nat → Nat) : Prop :=
  bs.length = z * n ∧ ∀ j, j < n → (bs.drop (z * j)).take z = toLe z (lane j)

/-! ## Predicate words (R194) -/

/-- A predicate word: its destination and each bit of what it writes. -/
def predicateOf (k : Core) : Instr → Option (BitVec 7 × (Nat → Bool))
  | .pand _ d a b => some (d, fun j => (k.predOf a).getLsbD j && (k.predOf b).getLsbD j)
  | .por _ d a b => some (d, fun j => (k.predOf a).getLsbD j || (k.predOf b).getLsbD j)
  | .pxor _ d a b => some (d, fun j => (k.predOf a).getLsbD j != (k.predOf b).getLsbD j)
  | .pandn _ d a b => some (d, fun j => (k.predOf a).getLsbD j && !(k.predOf b).getLsbD j)
  | .pnot _ d a => some (d, fun j => !(k.predOf a).getLsbD j)
  | .pmov _ d a => some (d, fun j => (k.predOf a).getLsbD j)
  | .pset _ d => some (d, fun _ => true)
  | .pclr _ d => some (d, fun _ => false)
  | .pfirst _ d a =>
    some (d, fun j => (k.predOf a).getLsbD j && (List.range j).all fun i => !(k.predOf a).getLsbD i)
  | .plast _ d a =>
    some (d, fun j => (k.predOf a).getLsbD j && (List.range 256).all fun i => decide (i ≤ j) || !(k.predOf a).getLsbD i)
  | _ => none

/-- A lane compare: its condition, predicate selector, destination, sources. -/
def compareOf : Instr → Option (Cond × BitVec 4 × BitVec 6 × BitVec 6 × BitVec 6)
  | .vcmpEq _ p d a b => some (.eq, p, d, a, b)
  | .vcmpNe _ p d a b => some (.ne, p, d, a, b)
  | .vcmpLt _ p d a b => some (.lt, p, d, a, b)
  | .vcmpLe _ p d a b => some (.le, p, d, a, b)
  | .vcmpUn _ p d a b => some (.un, p, d, a, b)
  | .vcmpOrd _ p d a b => some (.ord, p, d, a, b)
  | _ => none

/-! ## Rows and the scratchpad (R203 to R206) -/

/-- The address forms: the s register that forms the addresses, the rows that hold them, lane i's address for
element size e, and the base of a form that moves one whole aligned row. -/
structure LaneAccess where
  p : BitVec 4
  z : BitVec 1
  d : BitVec 6
  cls : BitVec 4
  regs : List (BitVec 5)
  rows : List Place
  addr : Nat → Nat → Nat
  whole : Option Nat
  beats : Nat

/-- sb + 256·imm3. -/
def Core.rowBase (k : Core) (b : BitVec 5) (i : BitVec 3) : Nat := ((k.sreg b).toNat + 256 * i.toNat) % 2 ^ 64

/-- Lane i's index in row va, times 2^c. -/
def Core.gatherAt (k : Core) (a : BitVec 6) (c : BitVec 2) (e i : Nat) : Nat :=
  (if k.allocated (k.place mapVa a).bank then Mem.nat k.acc ((k.place mapVa a).addr + e * i) e else 0) * 2 ^ c.toNat

/-- Loads of lanes into a row; beats is the usable latency of the row. -/
def laneLoadOf (k : Core) : Instr → Option LaneAccess
  | .vld _ p z d b c i => some {
      p := p, z := z, d := d, cls := c, regs := [b], rows := [],
      addr := fun e j => k.rowBase b i + e * j, whole := some (k.rowBase b i), beats := 6 }
  | .vlds _ p z d b c i => some {
      p := p, z := z, d := d, cls := c, regs := [b], rows := [],
      addr := fun e j => (k.sreg b).toNat + j * e * 2 ^ i.toNat, whole := none, beats := 6 }
  | .vgath _ p z d a c i => some {
      p := p, z := z, d := d, cls := c, regs := [], rows := [k.place mapVa a],
      addr := k.gatherAt a i, whole := none, beats := 14 }
  | _ => none

/-- Stores of a row's lanes; beats is the latency of the perform. -/
def laneStoreOf (k : Core) : Instr → Option LaneAccess
  | .vst _ p d b c i => some {
      p := p, z := 0, d := d, cls := c, regs := [b], rows := [],
      addr := fun e j => k.rowBase b i + e * j, whole := some (k.rowBase b i), beats := 3 }
  | .vsts _ p d b c i => some {
      p := p, z := 0, d := d, cls := c, regs := [b], rows := [],
      addr := fun e j => (k.sreg b).toNat + j * e * 2 ^ i.toNat, whole := none, beats := 3 }
  | .vscat _ p d a c i => some {
      p := p, z := 0, d := d, cls := c, regs := [], rows := [k.place mapVa a],
      addr := k.gatherAt a i, whole := none, beats := 12 }
  | _ => none

/-- The active lanes among n. -/
def Core.actives (k : Core) (p : BitVec 4) (n : Nat) : List Nat := (List.range n).filter fun j => (k.selected p).getLsbD j

/-- The base register that carries a wrong residue: DETAIL is the address of the row, or of lane 0 (R333, R342). -/
def LaneAccess.mismatch (x : LaneAccess) (k : Core) (e : Nat) : Option (Nat × Nat) :=
  match x.regs.find? k.residueBad with
  | some r => some (x.whole.getD (x.addr e 0), k.residueDetail r)
  | none => none

/-- The addresses of the active lanes pass R75. -/
def LaneAccess.Ok (x : LaneAccess) (k : Core) (e : Nat) : Prop :=
    (∀ j ∈ k.actives x.p (256 / e), x.addr e j + e ≤ spadEnd ∧ x.addr e j % e = 0) ∧
    ∀ b ∈ x.whole, k.actives x.p (256 / e) ≠ [] → b + 256 ≤ spadEnd ∧ b % 256 = 0


/-! ## Array words (R212 to R217) -/

/-- Bits lo to lo + w - 1 of a register. -/
def field (q : W64) (lo w : Nat) : Nat := q.toNat / 2 ^ lo % 2 ^ w

/-- Address of the entry u places behind the head of a ring (R83, R84). -/
def headAddr (q : W64) (u : Nat) : Nat :=
  256 * (field q 8 11 + (field q 56 8 + u) % 2 ^ field q 44 4 * field q 32 8)

/-- The entry u places behind the head of ring n is FULL with the tag that its pop expects (R68). -/
def Core.headFull (k : Core) (n u : Nat) : Prop :=
  let q := k.qreg n
  k.tag n ((field q 56 8 + u) % 2 ^ field q 44 4) = { tag := .ofNat 8 (field q 56 8 + u), full := true }

/-- An array word: its rings, bank, column selector, operand formats and products, scales, the accumulator types
it takes, what it computes an unallocated bank's rows for, and its writeback mode. -/
structure ArrayWord where
  a : Nat
  b : Nat
  bank : Nat
  sel : BitVec 4
  fmt : TileFormat
  scaleA : Bool
  scaleB : Bool
  takes : BitVec 6 → Prop
  free : BitVec 6
  mode : BitVec 3
  sat : Bool

/-- A word whose operands are both of one format, in the M track's writeback mode. -/
def uniform (k : Core) (code : BitVec 6) (products : Nat) (scaled : Bool) (p : BitVec 4) (a b : BitVec 3) (n : BitVec 6) :
    ArrayWord :=
  { a := a.toNat, b := b.toNat, bank := n.toNat, sel := p, fmt := { a := code, b := code, k := products }, scaleA := scaled,
    scaleB := scaled, takes := fun t => t = 0 ∨ isFloat t = true, free := 1, mode := k.mmode, sat := k.msat }

/-- The tile words, with the rows they write; MMAT takes the rest from the format-table entry that k6 names
(R115, R214). -/
def tileOf (k : Core) : Instr → Option (ArrayWord × Nat)
  | .mmaBf16 _ a b n r sc p => some (uniform k 2 32 (decide (sc = 1)) p a b n, r.toNat + 1)
  | .mmaFp16 _ a b n r sc p => some (uniform k 3 32 (decide (sc = 1)) p a b n, r.toNat + 1)
  | .mmaB8 _ a b n r u x f => some (uniform k (1#1 ++ u ++ x ++ f : BitVec 6) 64 false 0 a b n, r.toNat + 1)
  | .mmat _ a b n r p =>
    let f := SMap.get 0 k.fregs ((k.kreg 6).toNat % 16)
    let type : BitVec 6 := .ofNat 6 ((f.extractLsb' 16 2).toNat + 1)
    some ({ a := a.toNat, b := b.toNat, bank := n.toNat, sel := p,
            fmt := { a := f.extractLsb' 26 6, b := f.extractLsb' 20 6, k := if 32 ≤ (f.extractLsb' 26 6).toNat then 64 else 32 },
            scaleA := f.getLsbD 18, scaleB := f.getLsbD 19, takes := fun t => f ≠ 0 ∧ (t = 0 ∨ t = type), free := type,
            mode := f.extractLsb' 13 3, sat := f.getLsbD 12 }, r.toNat + 1)
  | _ => none

/-- The grouped words, with the register of their group table. -/
def groupOf (k : Core) : Instr → Option (ArrayWord × BitVec 5)
  | .mgrpBf16 _ a b n g p => some (uniform k 2 32 false p a b n, g)
  | .mgrpFp16 _ a b n g p => some (uniform k 3 32 false p a b n, g)
  | _ => none

/-- Beats of a gear's period. -/
def Core.gear (k : Core) : Nat := if k.low then 4 else 1

/-- Beats of its period that an array word waits for a cold array (R213). -/
def Core.coldStart (k : Core) (b : Nat) : Nat := if k.warm b then 0 else 96

/-- An array word may start: its rings' SIZE is 16 or more, its bank's type is one it takes, the array is free,
the head of ring A is FULL and so are the first n of ring B. -/
def ArrayWord.Ready (w : ArrayWord) (k : Core) (b n : Nat) : Prop :=
  16 ≤ field (k.qreg w.a) 32 8 ∧ 16 ≤ field (k.qreg w.b) 32 8 ∧ w.takes (k.bank w.bank).type ∧
    (∀ x, k.busyTo = some x → x < b) ∧ k.headFull w.a 0 ∧ ∀ u, u < n → k.headFull w.b u

/-- The columns it writes (R215). -/
def ArrayWord.columns (w : ArrayWord) (s : State) : BitVec 64 :=
  if w.sel = 0 ∨ (8 ≤ w.sel.toNat ∧ s.inKernel = true) then .allOnes 64 else (s.core.selected w.sel).setWidth 64

/-- Last beat on which an array word that starts now occupies the array: P, and its pop beat (R213). -/
def State.arrayEnd (s : State) : Nat := s.now + s.core.gear * (s.core.coldStart s.now + 32) - 1

/-- What an array word fixes as it starts (R213). -/
def ArrayWord.op (w : ArrayWord) (s : State) (tiles : List BTile) (rows : Nat) (table : Option Nat) : AccOp :=
  let k := s.core
  let scales (on : Bool) (m : SMap W16) : List W16 := if on then (List.range 64).map (SMap.get 0 m) else []
  { org := s.org, gear := k.gear, cold := k.coldStart s.now, start := s.now, last := s.arrayEnd, bank := w.bank,
    rows := rows, cols := w.columns s, fmt := w.fmt, mode := w.mode, sat := w.sat,
    acc := if (k.bank w.bank).type = 0 then w.free else (k.bank w.bank).type,
    sA := scales w.scaleA k.sA, sB := scales w.scaleB k.sB, aAddr := headAddr (k.qreg w.a) 0, bTiles := tiles, next := 0,
    aBytes := [], bBytes := tiles.map fun _ => [], w := s.now + k.gear * (k.coldStart s.now + 56), table := table,
    tableBytes := (table.map fun ea => Mem.bytes k.spad ea 16).getD []
    ringB := k.qreg w.b }

/-- The core k once an array word has started: the word is in flight, the array is taken, and only the open pitch,
the counts and the early-read table learn of it besides. -/
def State.Started (s : State) (k k1 : Core) (a : AccOp) : Prop :=
  k1 = { k with accops := k.accops ++ [a], busyTo := some s.arrayEnd, pitch := k1.pitch, tele := k1.tele, ertab := k1.ertab,
                status := k1.status, stuck := k1.stuck, latches := k1.latches } ∧
    (k.erchk = false → k1.ertab = k.ertab ∧ k1.status = k.status ∧ k1.latches = k.latches)

/-! ## Other M words (R218 to R228) -/

/-- An M word without an array: when it runs, the effects it schedules, the residue fault that takes their place, and
whether it counts as a RAMP. -/
structure MatrixWord where
  ok : Prop
  effects : List (Nat × Effect)
  bad : Option (Nat × Nat) := none
  ramp : Bool

/-- The access of an MSCALE. -/
def Core.scaleAccess (k : Core) (a : BitVec 5) : Access :=
  { space := .spad, size := 128, regs := [a], addr := (k.sreg a).toNat }

/-- The address of a group of scales keeps R75 and its register's residue is right. -/
def Core.tableOk (k : Core) (a : BitVec 5) (z : Nat) : Prop :=
  k.residueBad a = false ∧ (k.sreg a).toNat + z ≤ 0x50000 ∧ (k.sreg a).toNat % z = 0

/-- A format-table value that R116 allows. -/
def ftabOk (v : W64) : Prop :=
  let a := field v 26 6
  let b := field v 20 6
  (a = 2 ∧ b = 2 ∨ a = 3 ∧ b = 3 ∨ 32 ≤ a ∧ a % 8 ≠ 0 ∧ 32 ≤ b ∧ b % 8 ≠ 0) ∧ field v 16 2 ≠ 3 ∧ field v 13 3 ≤ 4 ∧
    field v 0 12 = 0

/-- A ring value that QINIT takes (R84, R227). -/
def ringOk (v : W64) : Prop :=
  field v 48 16 = 0 ∧ field v 40 4 = 0 ∧ field v 19 13 = 0 ∧ field v 0 8 = 0 ∧ field v 32 8 ≠ 0 ∧ field v 44 4 ≤ 8 ∧
    256 * field v 8 11 + 2 ^ field v 44 4 * field v 32 8 * 256 ≤ 0x50000

/-- The M words that hold no array. -/
def matrixWordOf (s : State) : Instr → Option MatrixWord
  | .ramp _ => some { ok := True, effects := [], ramp := true }
  | .mscaleA _ a =>
    some { ok := (s.core.scaleAccess a).placed = true, ramp := false, bad := s.core.baseMismatch (s.core.scaleAccess a),
           effects := [(s.now + s.core.gear, .scaleLoad false (s.core.sreg a).toNat (s.now + 2 * s.core.gear))] }
  | .mscaleB _ a =>
    some { ok := (s.core.scaleAccess a).placed = true, ramp := false, bad := s.core.baseMismatch (s.core.scaleAccess a),
           effects := [(s.now + s.core.gear, .scaleLoad true (s.core.sreg a).toNat (s.now + 2 * s.core.gear))] }
  | .ftset _ e a =>
    some { ok := s.core.residueBad a = false ∧ ftabOk (s.core.sreg a), ramp := false,
           effects := [(s.now + s.core.gear, .ftab e.toNat ((s.core.sreg a).setWidth 32))] }
  | .rmode _ sat m => some { ok := True, ramp := false, effects := [(s.now + s.core.gear, .rmode m (decide (sat = 1)))] }
  | .balloc _ n t o =>
    some { ok := (s.core.bank n.toNat).type = 0 ∧ (s.core.bank n.toNat).freeFrom ≤ s.now, ramp := false,
           effects := [(s.now + s.core.gear, .alloc n.toNat t o)] }
  | .bfree _ n =>
    some { ok := True, ramp := false, effects :=
      if (s.core.bank n.toNat).type = 0 then []
      else [(s.now + s.core.gear, .free n.toNat (s.now + 65 * s.core.gear)),
            (s.now + s.core.gear, .zeroRows n.toNat 0 64 s.core.gear true)] }
  | .bband _ n o =>
    some { ok := (s.core.bank n.toNat).type ≠ 0, ramp := false, effects := [(s.now + s.core.gear, .owners n.toNat o)] }
  | .mzero _ n r =>
    some { ok := True, ramp := false,
           effects := [(s.now + s.core.gear, .zeroRows n.toNat 0 (r.toNat + 1) s.core.gear false)] }
  | .qinit _ q a =>
    some { ok := s.core.residueBad a = false ∧ ringOk (s.core.sreg a), ramp := false,
           effects := [(s.now, .ringInit q.toNat (s.core.sreg a))] }
  | .qskip _ q =>
    some { ok := field (s.core.qreg q.toNat) 32 8 ≠ 0, ramp := false, effects := [(s.now, .ringPop q.toNat 1)] }
  | _ => none

/-! ## Copies (R89 to R93, R231 to R236, R243, R246) -/

/-- An end of a copy: its space code, address, LPER, port and the bytes it covers; its descriptor's reserved bits
are zero. -/
structure CopyEnd where
  space : Nat
  addr : Nat
  lper : Nat
  port : Nat
  bytes : Nat
  clear : Prop

/-- A copy word: its ends (a LISTEN has no source in memory, a SPEAK no destination), its length descriptor, its
start delay T, its row geometry in chunks, and what the word itself asks for. -/
structure CopyCall where
  kind : CopyKind
  src : Option CopyEnd
  dst : Option CopyEnd
  len : W64
  delay : Nat
  rowLen : Nat
  srcRow : Nat
  dstRow : Nat
  own : Prop

/-- An end that a descriptor names, moved by the present CLOOP trip (R235). -/
def State.endOf (s : State) (v : W64) (perTrip bytes : Nat) : CopyEnd :=
  { space := field v 62 2, addr := (field v 0 48 + s.trip * perTrip) % 2 ^ 48, lper := field v 60 2, port := field v 59 1,
    bytes := bytes, clear := field v 48 11 = 0 }

/-- A one-row copy of the whole length, its two ends from descriptors. -/
def State.rowCopy (s : State) (kind : CopyKind) (d a l : BitVec 5) (t : Nat) (own : Prop) : CopyCall :=
  let v := s.core.dreg l.toNat
  let n := 256 * field v 0 17
  { kind := kind, src := some (s.endOf (s.core.dreg a.toNat) n n), dst := some (s.endOf (s.core.dreg d.toNat) n n), len := v,
    delay := t, rowLen := field v 0 17, srcRow := 0, dstRow := 0, own := own }

/-- The type of the bank that an end's first byte lies in. -/
def State.endType (s : State) (e : Option CopyEnd) : BitVec 6 := (s.core.bank ((e.map (·.addr)).getD 0 / 0x4000)).type

/-- The copy words. -/
def copyOf (s : State) : Instr → Option CopyCall
  | .cpy _ d a l t => some (s.rowCopy .cpy d a l t.toNat True)
  | .cpya _ d a l t =>
    let x := s.rowCopy .cpya d a l t.toNat True
    let type := s.endType x.dst
    some { x with own := field (s.core.dreg d.toNat) 62 2 = 1 ∧ (type = 0 ∨ isFloat type = true ∨ isInt type = true) }
  | .cpy2 _ d a l h t =>
    let v := s.core.dreg l.toNat
    let g := s.core.dreg h.toNat
    let sr := field g 48 16
    let dr := field g 32 16
    let rows := field g 16 13
    let n := field g 0 13
    some {
      kind := .cpy2, len := v, delay := t.toNat, rowLen := n, srcRow := sr, dstRow := dr,
      src := some (s.endOf (s.core.dreg a.toNat) (256 * rows * sr) (256 * ((rows - 1) * sr + n))),
      dst := some (s.endOf (s.core.dreg d.toNat) (256 * rows * dr) (256 * ((rows - 1) * dr + n))),
      own := field g 29 3 = 0 ∧ field g 13 3 = 0 ∧ 1 ≤ rows ∧ rows ≤ 4096 ∧ 1 ≤ n ∧ n ≤ 4096 ∧ field v 0 17 = rows * n }
  | .cpyq _ q a l t =>
    let x := s.rowCopy .cpyq 0 a l t.toNat True
    let r := s.core.qreg q.toNat
    let tail := field r 48 8 % 2 ^ field r 44 4
    some { x with
      dst := some { space := 0, addr := 256 * (field r 8 11 + tail * field r 32 8), lper := 0, port := 0,
                    bytes := 256 * x.rowLen, clear := True }
      own := field r 32 8 ≠ 0 ∧ x.rowLen ≤ field r 32 8 }
  | .cpysel _ d a l t =>
    let x := s.rowCopy .cpysel d a l t.toNat True
    let type := s.endType x.src
    some { x with
      dst := some (s.endOf (s.core.dreg d.toNat) 256 256)
      own := field (s.core.dreg a.toNat) 62 2 = 1 ∧ field (s.core.dreg d.toNat) 62 2 = 0 ∧ (type = 0 ∨ type = 1) }
  | .listen _ d a l t =>
    let v := s.core.dreg a.toNat
    let x := s.rowCopy .listen d a l t.toNat True
    let m := field v 32 8
    let n := field v 16 10
    some { x with
      src := none, dst := some (s.endOf (s.core.dreg d.toNat) 0 (256 * x.rowLen)), rowLen := 1, dstRow := 1
      own := field (s.core.dreg d.toNat) 62 2 = 0 ∧ field v 40 24 = 0 ∧ field v 26 6 = 0 ∧ field v 9 7 = 0 ∧ 4 ≤ m ∧ m ≤ 64 ∧
        m % 4 = 0 ∧ 1 ≤ n ∧ n ≤ 512 ∧ field v 0 9 + n ≤ 512 ∧ x.rowLen = n * (1 + m / 4) }
  | .speak _ a l t =>
    let x := s.rowCopy .speak 0 a l t.toNat True
    some { x with
      src := some (s.endOf (s.core.dreg a.toNat) 0 (256 * x.rowLen)), dst := none, rowLen := 1, srcRow := 1
      own := field (s.core.dreg a.toNat) 62 2 = 0 }
  | _ => none

/-- An end keeps R75 and R89: no reserved space or bit, LPER 0 outside device memory, aligned, inside its space. -/
def CopyEnd.Ok (e : CopyEnd) : Prop :=
  e.clear ∧ match e.space with
    | 0 => e.lper = 0 ∧ e.addr % 256 = 0 ∧ e.addr + e.bytes ≤ 0x50000
    | 1 => e.lper = 0 ∧ e.addr % 256 = 0 ∧ e.addr + e.bytes ≤ 0x100000
    | 2 => e.addr % 64 = 0 ∧ e.addr + e.bytes ≤ 2 ^ 48
    | _ => False

/-- Beat on which a copy starts (R91). -/
def CopyCall.startBeat (x : CopyCall) (b anchor : Nat) : Nat :=
  if field x.len 59 1 = 1 then anchor + field x.len 24 32 else b + 16 * x.delay

/-- The checks of R93 but for the page of a device end. -/
def CopyCall.Ok (x : CopyCall) (s : State) : Prop :=
  let anchor := s.part.step.anchor
  x.own ∧ field x.len 56 3 = 0 ∧ field x.len 17 7 = 0 ∧ 1 ≤ field x.len 0 17 ∧ field x.len 0 17 ≤ 65536 ∧
    (field x.len 59 1 = 1 → x.delay = 0 ∧ s.now ≤ x.startBeat s.now anchor) ∧
    (∀ e ∈ x.src, e.Ok) ∧ (∀ e ∈ x.dst, e.Ok) ∧ (∀ e ∈ x.src, ∀ f ∈ x.dst, ¬(e.space = 2 ∧ f.space = 2)) ∧
    (s.now < x.startBeat s.now anchor →
      (s.core.copies.filter fun c => decide (c.org.issue < c.start) && decide (s.now ≤ c.start)).length < 32)

/-- The space that a descriptor's code names, the reserved code apart. -/
def localSpace : Nat → Space
  | 1 => .acc
  | 2 => .dev
  | _ => .spad

/-- The copy that the word leaves in flight, as far as its word fixes it: pa is where its device end lies. -/
def CopyCall.Left (x : CopyCall) (s : State) (c : Copy) (pa : Nat) : Prop :=
  c.org = s.org ∧ c.kind = x.kind ∧ c.cls = field x.len 60 4 ∧ c.chunks = field x.len 0 17 ∧
    c.start = x.startBeat s.now s.part.step.anchor ∧ c.started = false ∧ c.nextSample = 0 ∧ c.nextPerform = 0 ∧ c.buf = [] ∧
    c.rowLen = x.rowLen ∧ c.sStride = x.srcRow ∧ c.dStride = x.dstRow ∧
    (∀ e ∈ x.src, c.srcSpace = localSpace e.space ∧ c.src = if e.space = 2 then pa else e.addr) ∧
    (∀ e ∈ x.dst, c.dstSpace = localSpace e.space ∧ c.dst = if e.space = 2 then pa else e.addr) ∧
    (∀ e ∈ x.src, e.space = 2 → c.port = e.port ∧ c.period = 2 ^ e.lper) ∧
    (∀ e ∈ x.dst, e.space = 2 → c.port = e.port ∧ c.period = 2 ^ e.lper)

/-- The device end of a copy, with whether the copy writes there. -/
def CopyCall.device (x : CopyCall) : Option (CopyEnd × Bool) :=
  match x.src.filter (fun e => decide (e.space = 2)), x.dst.filter (fun e => decide (e.space = 2)) with
  | some e, _ => some (e, false)
  | none, some e => some (e, true)
  | none, none => none

/-! ## Lanes and collectives (R238 to R242) -/

/-- A lane descriptor for n flits (R238). -/
def laneDesc (v : W64) (n : Nat) : Prop :=
  field v 62 2 < 2 ∧ field v 48 14 = 0 ∧ field v 0 48 % 64 = 0 ∧
    field v 0 48 + 64 * n ≤ if field v 62 2 = 0 then 0x50000 else 0x100000

/-- The collectives: function code, destination, source and parameter pair (R137). -/
def collOf : Instr → Option (Nat × BitVec 5 × BitVec 5 × BitVec 5)
  | .collArsum _ d a p => some (0, d, a, p)
  | .collArmax _ d a p => some (1, d, a, p)
  | .collRs _ d a p => some (2, d, a, p)
  | .collAg _ d a p => some (3, d, a, p)
  | .collBc _ d a p => some (4, d, a, p)
  | .collXp _ d a p => some (5, d, a, p)
  | _ => none

/-- Chunks of the result of n members (R240). -/
def resultOf (fn chunks n : Nat) : Nat :=
  if fn = 2 ∨ fn = 5 then chunks / n else if fn = 3 then chunks * n else chunks

/-- A collective's end in the core's own memories. -/
def collEnd (v : W64) (chunks : Nat) : Prop :=
  field v 48 11 = 0 ∧ field v 62 2 < 2 ∧ field v 0 48 % 256 = 0 ∧
    field v 0 48 + 256 * chunks ≤ if field v 62 2 = 0 then 0x50000 else 0x100000

/-- R241's checks of a collective of n members. -/
def collFits (s : State) (fn n : Nat) (d a p q : W64) : Prop :=
  let chunks := field q 0 17
  let due := s.part.step.anchor + field p 32 32
  field p 6 2 = 0 ∧ field q 44 20 = 0 ∧ field q 17 15 = 0 ∧
    (if fn ≤ 2 then field p 0 6 ∈ [1, 2, 3, 6] else field p 0 6 = 0) ∧ 1 ≤ chunks ∧ chunks ≤ 4096 ∧
    (fn = 2 ∨ fn = 5 → chunks % n = 0) ∧ resultOf fn chunks n ≤ 65536 ∧
    (if fn = 4 then field q 32 12 < n else field q 32 12 = 0) ∧ s.now + chunks < due ∧ s.now + chunks + s.pod.lead ≤ due ∧
    collEnd d (resultOf fn chunks n) ∧ collEnd a chunks

/-! ## Events and commands -/

/-- Of two memories, the later holds these bytes from an address on and is the earlier everywhere else. -/
def Holds (m m' : SMap Byte) (a : Nat) (bs : List Byte) : Prop :=
  (∀ j, j < bs.length → Mem.byte m' (a + j) = bs.getD j 0) ∧
    ∀ x, (x < a ∨ a + bs.length ≤ x) → Mem.byte m' x = Mem.byte m x

/-- A context's stream table of 64 KiB lies apart from its descriptor, and both apart from n bytes at a. -/
def State.Apart (s : State) (c a n : Nat) : Prop :=
  let base := s.desc c 72 8
  (base + 2 ^ 16 ≤ s.ctxDesc c ∨ s.ctxDesc c + 256 ≤ base) ∧ (a + n ≤ base ∨ base + 2 ^ 16 ≤ a) ∧
    (a + n ≤ s.ctxDesc c ∨ s.ctxDesc c + 256 ≤ a)

/-- Every rope of a partition runs its service firmware, entered with a cause in s1. -/
def State.Serving (t : State) (p cause : Nat) : Prop :=
  ∀ r ∈ (t.partAt p).ropes, (t.svcAt r).active = true ∧ SMap.get 0 (t.svcAt r).seq.sregs 1 = .ofNat 64 cause ∧
    (t.svcAt r).seq.s.pc = 0 ∧ (t.svcAt r).seq.s.live = true

/-- A message stands among those on their way, to another chip or to the chip itself. -/
def State.Sent (t : State) (m : OutMsg) : Prop := m ∈ t.out ∨ m ∈ t.own

/-! ## Streams at the commit and at RELEASE (R24 to R30) -/

/-- Two runs of bytes, each a base and a length, have no byte in common. -/
def apart (x y : Nat × Nat) : Prop := x.1 + x.2 ≤ y.1 ∨ y.1 + y.2 ≤ x.1

/-- A context's stream table, descriptor and translation entry, and the speaking ring with its publish word and the
played record of every id that is active or prepared. -/
def State.regions (s : State) (c : Nat) : List (Nat × Nat) :=
  (s.desc c 72 8, 65536) :: (s.ctxDesc c, 256) :: (s.ctxWordAt c 0, 64) ::
    ((List.range 512).filter fun sid => decide (s.st c sid stState = 1 ∨ s.st c sid stState = 3)).flatMap fun sid =>
      [(s.st c sid stSpk, 1032), (s.st c sid stPlay, 1024)]

/-- The regions of a context lie apart from each other and from its listening rings, and its rings lie on lines. -/
def State.Laid (s : State) (c : Nat) : Prop :=
  (s.regions c).Pairwise apart ∧ ∀ sid, sid < 512 →
    (s.st c sid stState = 1 ∨ s.st c sid stState = 3 → s.st c sid stSpk % 64 = 0 ∧ s.st c sid stPlay % 64 = 0) ∧
    (s.active c sid = true → s.st c sid stLring % 64 = 0 ∧
      ∀ y ∈ s.regions c, apart (s.st c sid stLring, 64 * 2 ^ s.st c sid stLlog) y)

/-- From a stream's read pointer k pending entries stand below its position, the longest such run; cur says whether the
next one is the current entry (R26). -/
def State.Run (s : State) (c : Nat) (a : AnchorStream) (k : Nat) (cur : Bool) : Prop :=
  let m := (a.snap + 2 ^ 32 - a.rp) % 2 ^ 32
  let pos (j : Nat) : Nat := leField (s.listenEntry c a.sid ((a.rp + j) % 2 ^ 32)).1 0 4
  let below (j : Nat) : Prop := serial32 (pos j) a.n < 0
  k ≤ m ∧ (∀ j, j < k → below j) ∧ (k = m ∨ ¬ below k) ∧ (cur = true ↔ k < m ∧ pos k = a.n % 2 ^ 32)

/-- The stream's current entry carries RESET and its CRC matches (R38). -/
def State.Resets (s : State) (c : Nat) (a : AnchorStream) : Prop :=
  ∃ k, s.Run c a k true ∧
    let e := s.listenEntry c a.sid ((a.rp + k) % 2 ^ 32)
    e.2 = false ∧ (leField e.1 4 2).testBit 1 = true

/-- From s to t a stream's run and current entry are consumed and its position moves on (R26, R27). -/
def State.Moved (s t : State) (c : Nat) (a : AnchorStream) : Prop :=
  ∀ k cur, s.Run c a k cur →
    t.st c a.sid stN = (a.n + 1) % 2 ^ 64 ∧ t.st c a.sid stRp = (a.rp + k + if cur then 1 else 0) % 2 ^ 32 ∧
    t.st c a.sid stLate = min 0xFFFF (s.st c a.sid stLate + k) ∧
    t.st c a.sid stStarved = if cur then s.st c a.sid stStarved else min 0xFFFF (s.st c a.sid stStarved + 1)

/-- From s to t a stream's releases stand as they were: Q, E, G, its publish word and its speaking ring. -/
def State.Quiet (s t : State) (c sid : Nat) : Prop :=
  t.st c sid stQ = s.st c sid stQ ∧ t.st c sid stE = s.st c sid stE ∧ t.st c sid stG = s.st c sid stG ∧
    Mem.bytes t.mem (s.st c sid stSpk) 1032 = Mem.bytes s.mem (s.st c sid stSpk) 1032

/-- From s to t a stream's E becomes e and its publish word says so, G raised by one (R29). -/
def State.Shown (s t : State) (c sid e : Nat) : Prop :=
  t.st c sid stE = e % 2 ^ 32 ∧ t.st c sid stG = (s.st c sid stG + 1) % 2 ^ 32 ∧
    Mem.nat t.mem (s.st c sid stSpk + 1024) 8 = (s.st c sid stG + 1) % 2 ^ 32 * 2 ^ 32 + e % 2 ^ 32

/-- A stream's E stands for position e of its unreleased range (R29). -/
def State.EndIs (s : State) (c sid e : Nat) : Prop :=
  s.st c sid stE = e % 2 ^ 32 ∧ s.st c sid stQ ≤ e ∧ e ≤ s.st c sid stQ + 9

/-- A channel entry of the device (R24). -/
def EntryIs (bs : List Byte) (pos flags count lag frame : Nat) (codes : List Byte) : Prop :=
  bs.length = 64 ∧ leField bs 0 4 = pos % 2 ^ 32 ∧ leField bs 4 2 = flags ∧ leField bs 6 1 = min count 24 ∧
    leField bs 7 1 = lag % 256 ∧ leField bs 8 4 = frame % 2 ^ 32 ∧
    leField bs 12 4 = (crc32c (bs.take 12 ++ bs.drop 16)).toNat ∧
    ∀ j, j < 48 → bs.getD (16 + j) 0 = if j < 2 * min count 24 then codes.getD j 0 else 0

/-- A fill entry of a context (R29, R30). -/
def State.FillIs (s : State) (c : Nat) (bs : List Byte) (pos flags lag frame : Nat) : Prop :=
  EntryIs bs pos flags (s.desc c 80 1) lag frame (Mem.bytes s.mem (s.ctxDesc c + 88) 48)

/-- An event of a context goes out when its ring has room and none was lost before (R284). -/
def State.Tells (s t : State) (c code sid : Nat) (P : List Byte → Prop) : Prop :=
  s.eventRoom c = true → SMap.get 0 s.evLost c = 0 →
    ∃ a bs, OutMsg.event c a bs ∈ t.out ∧ leField bs 0 2 = code ∧ leField bs 2 2 = sid ∧ P bs

/-! ## Latches (R50): number 8 of a rope is its service context -/

/-- The registers of core c of rope r, or of the rope's service context. -/
def State.unit (s : State) (r c : Nat) : Core := if c < 8 then s.coreAt r c else (s.svcAt r).seq

/-- The beat that a unit counts: its partition's topo, or the service context's own period. -/
def State.unitNow (s : State) (r c : Nat) : Nat := if c < 8 then (s.partAt (s.partOf r)).topo else (s.svcAt r).period

/-- Between s and t only the registers of one unit differ. -/
def State.OnlyAt (s t : State) (r c : Nat) : Prop :=
  if c < 8 then
    t = { s with cores := t.cores } ∧ ∀ n, n ≠ 8 * r + c → SMap.get Core.reset t.cores n = SMap.get Core.reset s.cores n
  else
    t = { s with svcs := t.svcs } ∧ t.svcAt r = { s.svcAt r with seq := (t.svcAt r).seq } ∧
      ∀ x, x ≠ r → t.svcAt x = s.svcAt x

/-- s with one latch of a unit gone. -/
def State.unlatched (s : State) (r c k : Nat) : State :=
  if c < 8 then s.setCoreAt r c { s.coreAt r c with latches := (s.coreAt r c).latches.eraseIdx k }
  else s.setSvc r { s.svcAt r with seq := { (s.svcAt r).seq with latches := (s.svcAt r).seq.latches.eraseIdx k } }

/-- The memory that a unit reaches in a space, byte by byte: a service context reaches device memory alone (R271). -/
def State.unitMem (s : State) (r c : Nat) (sp : Space) : SMap Byte := if c < 8 then s.memOf r c sp else s.mem

/-- Where an access of a unit goes: a service context's addresses are physical (R271). -/
def State.unitPlace (s : State) (r c : Nat) (sp : Space) (a : Nat) (w rd : Bool) : Xlate :=
  if c < 8 then s.place (s.partOf r) r sp a w rd else .hit a

/-- No aligned unit of the bytes from a on holds a corrected error or poison. -/
def State.unitClean (s : State) (r c : Nat) (sp : Space) (a n : Nat) : Prop :=
  (if c < 8 then eccOver (s.eccOf r c sp).1 (s.eccOf r c sp).2 a n else eccOver s.memEcc 64 a n) = 0

/-- The value that cells give an address, the last of one address deciding. -/
def cellAt (cells : List Host.Cell) (a : Nat) (old : Byte) : Byte :=
  match cells.reverse.find? fun y => decide (y.1 = a) with
  | some y => y.2
  | none => old

/-- What an atomic leaves of an old value and its operand (R156). -/
def atomicResult {n : Nat} (fn : AtomFn) (o x : BitVec n) : BitVec n :=
  match fn with
  | .add => o + x
  | .and_ => o &&& x
  | .or_ => o ||| x
  | .xor_ => o ^^^ x
  | .swap => x
  | .min_ => if x.toInt < o.toInt then x else o
  | .max_ => if o.toInt < x.toInt then x else o
  | .minu => if x.toNat < o.toNat then x else o
  | .maxu => if o.toNat < x.toNat then x else o

/-- The tag state of an entry, by ring and index, with FULL clear where the entry is on a list. -/
def Core.ClearsFull (k k' : Core) (es : List Nat) : Prop :=
  ∀ e, SMap.get { tag := 0, full := false : Tag } k'.tags e =
    let x := SMap.get { tag := 0, full := false : Tag } k.tags e
    if e ∈ es then { x with full := false } else x

/-- What an effect on registers alone does to them: k before, k' after; nothing for the other effects. -/
def Effect.sets (k k' : Core) : Effect → Option Prop
  | .sreg n v res => some (k' = { k with sregs := k'.sregs, sres := k'.sres } ∧
      (∀ m, m ≠ 0 → SMap.get 0 k'.sregs m = if m = n then v else SMap.get 0 k.sregs m) ∧
      ∀ m, m ≠ 0 → SMap.get 0 k'.sres m = if m = n then res else SMap.get 0 k.sres m)
  | .dreg n v => some (k' = { k with dregs := k'.dregs } ∧ ∀ m, k'.dreg m = if m = n then v else k.dreg m)
  | .pred n v => some (k' = { k with preds := k'.preds } ∧ ∀ m, k'.predReg m = if m = n then v else k.predReg m)
  | .ftab n v => some (k' = { k with fregs := k'.fregs } ∧
      ∀ m, SMap.get 0 k'.fregs m = if m = n then v else SMap.get 0 k.fregs m)
  | .bindWin w bank => some (k' = if w then { k with wwin := bank } else { k with vwin := bank })
  | .omap m => some (k' = { k with omap := m })
  | .rmode m sat => some (k' = { k with mmode := m, msat := sat })
  | .alloc bank type ows => some (k' = { k with banks := k'.banks } ∧
      ∀ m, k'.bank m = if m = bank then { type := type, owners := ows, freeFrom := 0 } else k.bank m)
  | .free bank at_ => some (k' = { k with banks := k'.banks } ∧
      ∀ m, k'.bank m = if m = bank then { type := 0, owners := 0, freeFrom := at_ } else k.bank m)
  | .owners bank ows => some (k' = { k with banks := k'.banks } ∧
      ∀ m, k'.bank m = if m = bank then { k.bank bank with owners := ows } else k.bank m)
  | .scaleUse b _ _ vals => some (k' = (if b then { k with sB := k'.sB } else { k with sA := k'.sA }) ∧
      ∀ i, SMap.get 0 (if b then k'.sB else k'.sA) i =
        if i < vals.length then vals.getD i 0 else SMap.get 0 (if b then k.sB else k.sA) i)
  | .prot m => some (k' = if m = 4 then { k with rb := 0, pb := 0 } else { k with
      rb := if m.getLsbD 0 then (k.rb + 31) % 32 else k.rb
      pb := if m.getLsbD 1 then (k.pb + 63) % 64 else k.pb })
  | .statClear mask => some (k' = { k with status := k.status &&& ~~~mask })
  | .ringPop q n =>
    let x := (k.qreg q).toNat
    let pop := x / 2 ^ 56
    some (k' = { k with qregs := k'.qregs, tags := k'.tags } ∧ (∀ m, m ≠ q → k'.qreg m = k.qreg m) ∧
      (k'.qreg q).toNat = (pop + n) % 256 * 2 ^ 56 + x % 2 ^ 56 ∧
      k.ClearsFull k' ((List.range n).map fun i => 256 * q + (pop + i) % 256 % 2 ^ (x / 2 ^ 44 % 16)))
  | .ringPush q =>
    let x := (k.qreg q).toNat
    some (k' = { k with qregs := k'.qregs } ∧ (∀ m, m ≠ q → k'.qreg m = k.qreg m) ∧
      (k'.qreg q).toNat = x / 2 ^ 56 * 2 ^ 56 + (x / 2 ^ 48 + 1) % 256 * 2 ^ 48 + x % 2 ^ 48)
  | .ringInit q v => some (k' = { k with qregs := k'.qregs, tags := k'.tags } ∧ (∀ m, m ≠ q → k'.qreg m = k.qreg m) ∧
      (k'.qreg q).toNat = v.toNat % 2 ^ 48 ∧ k.ClearsFull k' ((List.range 256).map fun i => 256 * q + i))
  | _ => none

/-! ## Copies on their beats (R91 to R94) -/

/-- The 64-B lines of 256 bytes that hold poison. -/
def badLines (marks : SMap Nat) (u a : Nat) : List Nat :=
  (List.range 4).filter fun i => decide (eccOver marks u (a + 64 * i) 64 = 2)

/-- s once copy x of core c of rope r has taken a fault: nothing more of it performs. -/
def State.copyFaults (s : State) (r c : Nat) (x : Copy) (cls : FaultClass) (d d2 : Nat) : State :=
  (s.raiseAt (s.partOf r) cls x.org d d2).onCore r c fun k => { k with copies := k.copies.filter fun y => decide (y.org ≠ x.org) }

/-- A grant of copy x covers the present beat of its column port, and nothing else uses the port on it (R87, R88). -/
def State.PortFree (s : State) (r c : Nat) (x : Copy) : Prop :=
  let t := (s.partAt (s.partOf r)).topo
  (∃ g ∈ x.grants, g.toNat / 2 ^ 17 % 128 = x.column ∧ g.toNat / 2 ^ 16 % 2 = x.port ∧ x.anchor ≤ t ∧
    (t - x.anchor) % 2 ^ (g.toNat / 2 ^ 14 % 4) = g.toNat / 2 ^ 11 % 8) ∧
    ∀ u ∈ (s.coreAt r c).colPorts, ¬(u.1 = x.column ∧ u.2.1 = x.port)

/-- Copy x of core c of rope r finds bytes bs, with poisoned lines ps, at address a of its source (R79, R80, R88). -/
def State.Finds (s : State) (r c : Nat) (x : Copy) (a : Nat) (bs : List Byte) (ps : List Nat) : Prop :=
  let k := s.coreAt r c
  let bank := a / 0x4000
  match x.srcSpace with
  | .spad => bs = Mem.bytes k.spad a 256 ∧ ps = badLines k.spadEcc 8 a
  | .acc =>
    (k.allocated bank = true ∧ (k.bank bank).owner (a / 0x100 % 64) = 1 ∧ bs = Mem.bytes k.acc a 256 ∧ ps = badLines k.accEcc 8 a) ∨
      (k.allocated bank = false ∧ bs = List.replicate 256 0 ∧ ps = [])
  | .dev => s.PortFree r c x ∧ bs = Mem.bytes s.mem a 256 ∧ ps = badLines s.memEcc 64 a

/-- The destination takes a chunk of copy x at address a. -/
def State.Lands (s : State) (r c : Nat) (x : Copy) (a : Nat) : Prop :=
  match x.dstSpace with
  | .spad => True
  | .acc => (s.coreAt r c).allocated (a / 0x4000) = true
  | .dev => s.PortFree r c x

/-- Software may set bit i of the byte at a physical address: of a context's translation entry it may set the fields alone
that R318 marks RW (R5). -/
def State.writable (s : State) (x i : Nat) : Bool :=
  match s.ctxbase with
  | some b =>
    let n := (x - b) % 64 * 8 + i
    !(decide (b + 0x80000 ≤ x) && decide (x < b + 0x90000)) ||
      [(0, 0), (12, 36), (64 + 32, 64 + 41), (64 + 48, 64 + 55), (128 + 21, 128 + 36), (192, 192 + 16), (192 + 19, 192 + 36)].any
        fun f => decide (f.1 ≤ n) && decide (n ≤ f.2)
  | none => true

/-- A write of byte b at address x of a space makes m' of memory m there: bits that are read only stay (R5, R318). -/
def State.Sets (s : State) (sp : Space) (m m' : SMap Byte) (x : Nat) (b : Byte) : Prop :=
  ∀ i, i < 8 → (Mem.byte m' x).getLsbD i =
    if sp = .dev ∧ s.writable x i = false then (Mem.byte m x).getLsbD i else b.getLsbD i

/-- Of two memories, the later takes the write of bytes from an address on, but for those a later copy has taken over from
x, and is the earlier everywhere else (R94). -/
def State.Puts (s : State) (x : Copy) (m m' : SMap Byte) (a : Nat) (bs : List Byte) : Prop :=
  ∀ y, if a ≤ y ∧ y < a + bs.length ∧ ∀ z ∈ x.suppressed, y < z.1 ∨ z.2 ≤ y then s.Sets x.dstSpace m m' y (bs.getD (y - a) 0)
    else Mem.byte m' y = Mem.byte m y

/-! ## Encodings of the integer words and transfers (R132, R146 to R152, R158, R159) -/

/-- A word of the SR format. -/
def srWord (g : BitVec 3) (major : BitVec 6) (d a b : BitVec 5) (cx fn : BitVec 4) : W32 := g ++ major ++ d ++ a ++ b ++ cx ++ fn

/-- A word of the SI and SB formats: two register fields and 13 bits. -/
def siWord (g : BitVec 3) (major : BitVec 6) (d a : BitVec 5) (i : BitVec 13) : W32 := g ++ major ++ d ++ a ++ i

/-- The 13 bits of a shift by a constant. -/
def shiftField (n : BitVec 6) : BitVec 13 := 0#7 ++ n

/-- The 13 bits of a bit-field word. -/
def bitField (q w : BitVec 6) : BitVec 13 := 0#1 ++ q ++ w

/-- Each integer word's encoding. -/
def aluEncoding : Instr → Option W32
  | .add g d a b => some (srWord g 5 d a b 0 0)
  | .sub g d a b => some (srWord g 5 d a b 0 1)
  | .and_ g d a b => some (srWord g 5 d a b 0 2)
  | .or_ g d a b => some (srWord g 5 d a b 0 3)
  | .xor_ g d a b => some (srWord g 5 d a b 0 4)
  | .shl g d a b => some (srWord g 5 d a b 0 5)
  | .shr g d a b => some (srWord g 5 d a b 0 6)
  | .sar g d a b => some (srWord g 5 d a b 0 7)
  | .rol g d a b => some (srWord g 5 d a b 0 8)
  | .min_ g d a b => some (srWord g 5 d a b 0 9)
  | .max_ g d a b => some (srWord g 5 d a b 0 10)
  | .minu g d a b => some (srWord g 5 d a b 0 11)
  | .maxu g d a b => some (srWord g 5 d a b 0 12)
  | .slt g d a b => some (srWord g 5 d a b 0 13)
  | .sltu g d a b => some (srWord g 5 d a b 0 14)
  | .seq g d a b => some (srWord g 5 d a b 0 15)
  | .mul g d a b => some (srWord g 6 d a b 0 0)
  | .mulh g d a b => some (srWord g 6 d a b 0 1)
  | .mulhu g d a b => some (srWord g 6 d a b 0 2)
  | .div g d a b => some (srWord g 6 d a b 0 3)
  | .divu g d a b => some (srWord g 6 d a b 0 4)
  | .rem g d a b => some (srWord g 6 d a b 0 5)
  | .remu g d a b => some (srWord g 6 d a b 0 6)
  | .addsh g d a b n => some (srWord g 6 d a b n 7)
  | .sel g d a b => some (srWord g 6 d a b 0 8)
  | .clz g d a => some (srWord g 7 d a 0 0 0)
  | .ctz g d a => some (srWord g 7 d a 0 0 1)
  | .popc g d a => some (srWord g 7 d a 0 0 2)
  | .bswap g d a => some (srWord g 7 d a 0 0 3)
  | .addi g d a i => some (siWord g 0x08 d a i)
  | .andi g d a i => some (siWord g 0x09 d a i)
  | .ori g d a i => some (siWord g 0x0A d a i)
  | .xori g d a i => some (siWord g 0x0B d a i)
  | .shli g d a n => some (siWord g 0x0C d a (shiftField n))
  | .shri g d a n => some (siWord g 0x0D d a (shiftField n))
  | .sari g d a n => some (siWord g 0x0E d a (shiftField n))
  | .slti g d a i => some (siWord g 0x0F d a i)
  | .exts g d a q w => some (siWord g 0x10 d a (bitField q w))
  | .extu g d a q w => some (siWord g 0x11 d a (bitField q w))
  | .ins g d a q w => some (siWord g 0x12 d a (bitField q w))
  | .li g d i => some (g ++ 0x13#6 ++ d ++ i)
  | .lih g d i => some (g ++ 0x14#6 ++ d ++ i)
  | _ => none

/-- A bit-field word's position plus its width, one more than its field says, is at most 64. -/
def fieldFits : Instr → Prop
  | .exts _ _ _ q w => q.toNat + (w.toNat + 1) ≤ 64
  | .extu _ _ _ q w => q.toNat + (w.toNat + 1) ≤ 64
  | .ins _ _ _ q w => q.toNat + (w.toNat + 1) ≤ 64
  | _ => True

/-- The encoding of each branch and transfer. -/
def branchEncoding : Instr → Option W32
  | .beq g a b o => some (siWord g 0x2E a b o)
  | .bne g a b o => some (siWord g 0x2F a b o)
  | .blt g a b o => some (siWord g 0x30 a b o)
  | .bge g a b o => some (siWord g 0x31 a b o)
  | .bltu g a b o => some (siWord g 0x32 a b o)
  | .bgeu g a b o => some (siWord g 0x33 a b o)
  | .jmp g i => some (g ++ 0x34#6 ++ 0#5 ++ i)
  | .call g d i => some (g ++ 0x35#6 ++ d ++ i)
  | .jr g a => some (srWord g 0x36 0 a 0 0 0)
  | _ => none

/-! ## Faults (R67, R292) -/

/-- Word o comes later than word g in the order of R67: by issue beat, then rope, core and track. -/
def Origin.later (o g : Origin) : Prop :=
  g.issue < o.issue ∨ g.issue = o.issue ∧ (g.rope < o.rope ∨ g.rope = o.rope ∧ (g.core < o.core ∨ g.core = o.core ∧
    trackRank g.track < trackRank o.track))

/-- Partition q once fault f has abandoned its step, with n records written. -/
def Partition.faulted (q : Partition) (n : Nat) (f : FaultRec) : Partition :=
  { q with fault := some f, traps := n, step := { q.step with outcome := .faulted, watching := false } }

/-- Record n of partition p's trap ring in memory m says what R292 gives a record of f at state s, in every field, its class where cls says so. -/
def State.TrapIs (s : State) (m : SMap Byte) (p n : Nat) (cls : Bool) (f : FaultRec) : Prop :=
  let q := s.partAt p
  let o := f.org
  let a := s.ctxbase.getD 0 + 0x40000 + 0x1000 * p + 64 * (n % 64)
  let at_ (off size v : Nat) : Prop := Mem.nat m (a + off) size = v % 2 ^ (8 * size)
  (cls = true → at_ 0 1 f.cls.code) ∧
    at_ 1 1 ((if f.svc then 1 else 0) + (if o.mac.isSome then 2 else 0) + (if q.step.kind = .urgent then 4 else 0) +
      (if q.step.kind = .extra then 8 else 0)) ∧
    at_ 2 1 p ∧ at_ 3 1 o.rope ∧ at_ 4 1 (o.core + 16 * trackRank o.track) ∧
    (∀ e w, o.mac = some (e, w) → at_ 5 1 e ∧ at_ 6 1 w) ∧ at_ 7 1 q.slot ∧ at_ 8 4 o.pc ∧ at_ 12 2 q.runner.ctx ∧
    at_ 16 8 f.beat ∧ at_ 24 8 q.step.anchor ∧ at_ 32 8 q.frame ∧ at_ 40 8 f.detail.toNat ∧ at_ 48 8 f.detail2.toNat ∧
    at_ 56 8 (s.wall / 10 ^ 6)

/-- t is s once fault f is recorded and partition p has become q': record n of the partition's trap ring holds the record of
R292, the service context of the faulting rope is entered with the cause 2 and the record's address, and nothing else
changes. -/
def State.Recorded (s t : State) (p n : Nat) (f : FaultRec) (q' : Partition) : Prop :=
  let o := f.org
  let a := s.ctxbase.getD 0 + 0x40000 + 0x1000 * p + 64 * (n % 64)
  t = { s with parts := t.parts, mem := t.mem, memEcc := t.memEcc, svcs := t.svcs } ∧
    (∀ m, m ≠ p → t.partAt m = s.partAt m) ∧ t.partAt p = q' ∧ s.TrapIs t.mem p n true f ∧
    (∀ x, (x < a ∨ a + 64 ≤ x) → Mem.byte t.mem x = Mem.byte s.mem x) ∧
    (let v := t.svcAt o.rope
     v.active = true ∧ v.seq.s.live = true ∧ v.seq.s.pc = 0 ∧ SMap.get 0 v.seq.sregs 1 = 2 ∧
       SMap.get 0 v.seq.sregs 2 = .ofNat 64 a) ∧
    ∀ r, r ≠ o.rope → t.svcAt r = s.svcAt r


/-! ## The beginning and the end of a beat (R54, R56, R62, R287) -/

/-- Nothing comes from outside, and the next thing is part m of partition p's beat: 0 before it, 1 its words, 2 its samples,
3 its writes. -/
def State.AtPart (s : State) (p m : Nat) : Prop :=
  s.boot = .ready ∧ s.halted = false ∧ p < s.nparts ∧ (s.partAt p).stopped = false ∧ (s.partAt p).mark = m ∧
    (∀ i, i < p → s.beatDue i = none) ∧ (s.between = true → s.betweenDue = none)

/-- The next thing is the beginning of partition p's beat: no hold, no halt, no pre-emption, and no part of TURN. -/
def State.Begins (s : State) (p : Nat) : Prop :=
  let q := s.partAt p
  s.AtPart p 0 ∧ s.holdCauses p = [] ∧ q.haltAsked = false ∧ s.breakAt p = none ∧ s.urgentDue p = none ∧
    ¬(q.phase = .lead ∧ q.topo % 4 = 0) ∧ ¬(q.phase = .turn ∧ (q.step.bound = false ∨ q.topo = q.step.anchor))

/-- Every partition whose counter moves has finished its beat, and nothing comes from outside: the beat ends. -/
def State.Ends (s : State) : Prop :=
  s.boot = .ready ∧ s.halted = false ∧ (∀ i, i < s.nparts → s.beatDue i = none) ∧ (s.between = true → s.betweenDue = none)

/-- Nothing comes from outside, no copy starts or samples, and the next thing is what the other samples of partition p's beat
are, in a step without a fault. -/
def State.Samples (s : State) (p : Nat) : Prop :=
  let q := s.partAt p
  s.AtPart p 2 ∧ s.startDue p = none ∧ (∀ m ∈ q.coreIds, ∀ y ∈ (s.coreAt m.1 m.2).copies, y.sampleDue q.topo = false) ∧
    q.fault = none ∧ q.step.outcome = .open_

/-- An engine that counts as owner w finds n bytes bs at address a of core c of rope r, with the poisoned ones of their 64-byte
lines; or nothing where its band keeps it out (R79, R80). -/
def State.Meets (s : State) (r c : Nat) (sp : Space) (a n w : Nat) (found : Option (List Byte × List Nat)) : Prop :=
  let k := s.coreAt r c
  let bank := a / 0x4000
  let bad (marks : SMap Nat) : List Nat := (List.range (n / 64)).filter fun i => decide (eccOver marks 8 (a + 64 * i) 64 = 2)
  match sp with
  | .spad => found = some (Mem.bytes k.spad a n, bad k.spadEcc)
  | .acc => found =
      if k.allocated bank = false then some (List.replicate n 0, [])
      else if (k.bank bank).owner (a / 0x100 % 64) = w then some (Mem.bytes k.acc a n, bad k.accEcc)
      else none
  | .dev => False

/-- A core is a member of the domain instance that core k of rope r belongs to, j being that core, of rope n (R56, R367). -/
def inDomain (k j : Core) (r n : Nat) : Prop :=
  j.domEn = true ∧ j.domLevel = k.domLevel ∧ match k.domLevel with
    | 0 => n = r
    | 1 => n / 20 = r / 20
    | _ => True

/-- On beat x the modulo loop of track f takes core k to k': on each of the track's issue opportunities a pass begins, with
its rotation, its pass register and its stage predicate, or the count to the next pass falls; after the last pass the loop
ends (R62, R63, R65). -/
def Core.LoopTurns (k k' : Core) (f : Family) (x : Nat) : Prop :=
  match (k.track f).mloop with
  | none => k' = k
  | some l =>
    let passes := l.n + l.stages - 1
    let regs := loopRegs f
    let goes (l' : Option MLoop) (rb pb : Nat) : Prop :=
      k' = { k with s := k'.s, v := k'.v, m := k'.m, c := k'.c, kregs := k'.kregs, preds := k'.preds, latches := k'.latches, rb := rb, pb := pb } ∧
        k'.track f = { k.track f with mloop := l' } ∧ ∀ g, g ≠ f → k'.track g = k.track g
    let still : Prop := k'.preds = k.preds ∧ k'.latches = k.latches
    if k.opportunity f x = false ∨ k.blocked f = true then k' = k
    else if l.next ≠ 0 then goes (some { l with next := l.next - 1 }) k.rb k.pb ∧ k'.kregs = k.kregs ∧ still
    else if l.pass < passes then
      let shared : Prop := l.joint = true ∧ f = .m
      goes (some { l with pass := l.pass + 1, next := l.ii - 1 }) (if l.pass = 0 ∨ l.joint = true ∧ f = .m then k.rb else (k.rb + 31) % 32)
          (if l.pass = 0 ∨ l.joint = true ∧ f = .m then k.pb else (k.pb + 63) % 64) ∧
        (∀ n, k'.kreg n = if n = regs.2 then .ofNat 64 l.pass else k.kreg n) ∧ (shared → still) ∧
        (¬ shared →
          (∀ n, k'.predReg n = if n = 64 + k'.pb % 64 then (if l.pass < l.n then .allOnes 256 else 0) else k.predReg n) ∧
          k'.latches = k.latches.filter fun y => match y.eff with
            | .pred n _ => !(decide (n = 64 + k'.pb % 64) && decide (y.act ≤ x))
            | _ => true)
    else if passes ≤ l.opp then
      goes none 0 0 ∧ still ∧
        ∀ n, k'.kreg n = if n = regs.1 then k.kreg n + 1 else if n = regs.2 then .ofNat 64 passes else k.kreg n
    else goes (some { l with pass := passes + 1, past := l.past + 1 }) k.rb k.pb ∧ k'.kregs = k.kregs ∧ still

/-- The predicate selector of a word, in the words that have one (R132, R136). -/
def selector (f : Family) (w : W32) : Nat :=
  let m := (w.extractLsb' 23 6).toNat
  if f = .v ∧ 5 ≤ m ∧ m ≤ 0x35 then (w.extractLsb' 19 4).toNat
  else if f = .m ∧ m ∈ [5, 6, 8, 9] then (w.extractLsb' 0 4).toNat
  else 0

/-- The word names a stage predicate that is all false (R64). -/
def State.StageFalse (s : State) (w : W32) : Prop :=
  8 ≤ selector s.cur.track w ∧ s.core.predReg (64 + (selector s.cur.track w - 8 + s.core.pb) % 64) = 0

/-- The page of device memory that an effect needs on its beat, for a write, for a read (R153, R287). -/
def Effect.page : Effect → Option (Nat × Bool × Bool)
  | .load .dev a .. => some (a, false, true)
  | .store .dev ((a, _) :: _) .. => some (a, true, false)
  | .atomic .dev a .. => some (a, true, true)
  | _ => none

/-! ## Bivouac frames (R298 to R303) -/

/-- Address of core c's frame in set n of rope r (R298). -/
def State.frameAt (s : State) (r c n : Nat) : Nat := s.ctxbase.getD 0 + 0x1000000 + 0x2000000 * r + 0x1000000 * n + 0x200000 * c

/-- A number at an offset of the frame at fa. -/
def State.inFrame (t : State) (fa off n : Nat) : Nat := Mem.nat t.mem (fa + off) n

/-- A beat as a frame holds it: less f, signed, in n bytes. -/
def lessF (f n x : Nat) : Nat := (((x : Int) - f) % 2 ^ (8 * n)).toNat

/-- The record of a latch: its numbers, each with offset and size, and its payload; for the kinds of one register, one row,
one predicate, and one access of a scalar word (R300). -/
def Latch.record (f : Nat) (l : Latch) : Option (List (Nat × Nat × Nat) × List Byte) :=
  let head (kind cls size : Nat) : List (Nat × Nat × Nat) := [(0, 1, kind), (2, 1, cls), (3, 1, size), (4, 4, lessF f 4 l.act)]
  let tail (remain2 aux dest : Nat) : List (Nat × Nat × Nat) := [(8, 4, remain2), (12, 4, aux), (16, 8, dest)]
  let at_ (sp : Space) (a : Nat) : Nat := sp.code * 2 ^ 62 + a
  match l.eff with
  | .sreg n v _ => some (head 1 0 8 ++ tail 0 0 n ++ [(24, 8, v.toNat)], [])
  | .dreg n v => some (head 2 0 8 ++ tail 0 0 n ++ [(24, 8, v.toNat)], [])
  | .row bank row bs => if bs.length = 256 then some (head 3 0 0 ++ tail 0 0 (64 * bank + row), bs) else none
  | .pred n v => some (head 4 0 0 ++ tail 0 0 n, (List.range 32).map fun i => v.extractLsb' (8 * i) 8)
  | .store sp ((a, b) :: cells) cls _ =>
    if l.org.track = .s then
      some (head 5 cls (cells.length + 1) ++ tail 0 0 (at_ sp a) ++ [(24, 8, leNat (b :: cells.map (·.2)))], [])
    else none
  | .load sp a z sx_ dst usable cls =>
    some (head 6 cls z ++ tail (lessF f 4 usable) 0 (at_ sp a) ++ [(24, 8, dst + if sx_ then 256 else 0)], [])
  | .loadElem a z sx_ dst usable =>
    some (head 6 0 z ++ tail (lessF f 4 usable) 0 (at_ .acc a) ++ [(24, 8, dst + if sx_ then 256 else 0)], [])
  | .atomic sp a z fn x dst usable cls .. =>
    some (head 7 cls z ++ tail (lessF f 4 usable) (fn.code + 16 * dst) (at_ sp a) ++ [(24, 8, x.toNat)], [])
  | _ => none

/-- The flags of a track record (R299). -/
def Track.flagByte (w : Track) (f : Nat) : Nat :=
  let bit (p : Bool) (n : Nat) : Nat := if p then 2 ^ n else 0
  bit w.done 0 + bit w.mac.isSome 1 + bit w.belay.isSome 2 + bit w.join.isSome 3 +
    bit (w.mloop.isSome || w.cloop.isSome || !w.kloops.isEmpty) 4 + bit w.held 5 +
    bit (w.resync.any fun r => decide (r.1 < f) && decide (f < r.2)) 6

/-- t is s once core c of rope r of partition p has written its frame into set n (R298 to R300). Its pitch is closed, and a
latch of several rows is one latch a row from then on; the fields, the memories, and, where every latch is of a kind that
Latch.record gives, the latches stand in the frame, and nothing below the frame changes. -/
def State.Frames (s t : State) (p r c cause n : Nat) : Prop :=
  let q := s.partAt p
  let k := s.coreAt r c
  let f := q.topo
  let fa := s.frameAt r c n
  let has (off z v : Nat) : Prop := t.inFrame fa off z = v % 2 ^ (8 * z)
  let bit (b : Bool) (i : Nat) : Nat := if b then 2 ^ i else 0
  let far (x : Option Nat) : Nat := (x.map (lessF f 8)).getD (2 ^ 63)
  t = { s with mem := t.mem, memEcc := t.memEcc, cores := t.cores } ∧
    t.coreAt r c = { k with latches := (t.coreAt r c).latches, pitch := Pitch.empty } ∧
    (∀ x, x < fa → Mem.byte t.mem x = Mem.byte s.mem x) ∧
    -- the header and the control state
    has 0 4 0x4B564942 ∧ has 4 4 0 ∧ has 8 8 f ∧ has 16 8 q.step.anchor ∧ has 24 4 q.step.rdz ∧ has 30 1 r ∧ has 31 1 c ∧
    has 32 1 cause ∧ has 33 1 (bit k.low 0 + bit k.window.isSome 1) ∧ has 34 1 ((k.window.map fun w => w.opened + 128 - f).getD 0) ∧
    has 40 1 k.rb ∧ has 41 1 k.pb ∧ has 42 6 0 ∧ has 48 8 (far k.busyTo) ∧ has 56 8 (far k.ramps.head?) ∧
    has 0x5C0 8 k.status.toNat ∧ has 0x5C8 8 k.dom.toNat ∧ has 0x5D0 1 (k.mmode.toNat + bit k.msat 3) ∧ has 0x5D1 1 k.omap.toNat ∧
    has 0x5D2 1 k.vwin ∧ has 0x5D3 1 k.wwin ∧
    has 0x5D4 1 (bit k.v.mloop.isSome 0 + bit k.m.mloop.isSome 1 + bit (k.v.mloop.isSome && k.m.mloop.isSome) 2) ∧
    -- the tracks
    (∀ g, let w := k.track g
      let a := 0x100 + 64 * trackRank g
      has a 4 ((w.mac.map (·.callPc)).getD w.pc) ∧ has (a + 8) 1 (w.flagByte f) ∧
      (w.resync = none → has (a + 4) 4 (min w.wait 0xFFFFFFFF)) ∧
      (∀ b x, w.resync = some (b, x) → f ≤ x → x - f < 2 ^ 32 →
        has (a + 4) 4 ((List.range (x - f)).filter fun i => k.opportunity g (f + i)).length) ∧
      (∀ m, w.mac = some m → has (a + 9) 1 m.entry ∧ has (a + 10) 1 m.word) ∧
      (∀ j b, w.join = some (j, b) → has (a + 12) 4 j ∧ has (a + 16) 8 (lessF f 8 b))) ∧
    (∀ i l, i < 4 → k.s.mloop = none → k.s.cloop = none → k.s.kloops.reverse[i]? = some l → let a := 0x118 + 10 * i
      has a 2 l.body ∧ has (a + 2) 1 (l.len - 1 + 64 * l.kreg) ∧ has (a + 3) 3 l.trip ∧ has (a + 6) 3 l.count) ∧
    (∀ g l, (k.track g).mloop = some l → let a := 0x118 + 64 * trackRank g
      has a 1 l.ii ∧ has (a + 1) 1 l.stages ∧ has (a + 2) 1 l.k ∧ has (a + 3) 2 l.body ∧ has (a + 5) 2 l.n ∧
      has (a + 7) 3 (if l.next = 0 then l.pass else l.pass - 1) ∧ has (a + 10) 1 (if l.next = 0 then 0 else l.ii - l.next)) ∧
    (∀ l, k.c.mloop = none → k.c.cloop = some l → let a := 0x118 + 64 * 3
      has a 2 l.body ∧ has (a + 2) 1 (l.len - 1) ∧ has (a + 3) 3 l.trip ∧ has (a + 6) 3 l.count) ∧
    -- the registers and tables
    (∀ i, i < 32 → (i ≠ 0 → has (0x200 + 8 * i) 8 (SMap.get 0 k.sregs i).toNat) ∧ has (0x340 + 8 * i) 8 (k.dreg i).toNat) ∧
    (∀ i, i < 8 → has (0x300 + 8 * i) 8 (k.kreg i).toNat ∧ has (0x440 + 8 * i) 8 (k.qreg i).toNat) ∧
    (∀ i, i < 16 → has (0x480 + 4 * i) 4 (SMap.get 0 k.fregs i).toNat) ∧
    (∀ i, i < 64 → has (0x4C0 + 2 * i) 2 (SMap.get 0 k.sA i).toNat ∧ has (0x540 + 2 * i) 2 (SMap.get 0 k.sB i).toNat) ∧
    (∀ i, i < 64 → let b := k.bank i
      has (0x600 + 8 * i) 1 b.type.toNat ∧ has (0x601 + 8 * i) 1 b.owners.toNat ∧ has (0x602 + 8 * i) 1 (bit (decide (b.type ≠ 0)) 0) ∧
      has (0x604 + 8 * i) 4 (if b.freeFrom ≤ f then 0 else lessF f 4 b.freeFrom)) ∧
    (∀ i, i < 2048 → let x := SMap.get { tag := 0, full := false : Tag } k.tags i
      has (0x1000 + 2 * i) 1 x.tag.toNat ∧ has (0x1001 + 2 * i) 1 (bit x.full 0)) ∧
    (∀ i, i < 128 → has (0x2000 + 32 * i) 32 (k.predReg i).toNat) ∧
    (∀ e, e < 64 → has (0x8000 + 8 * e) 8 (k.macro_ e).header.toNat ∧
      ∀ w, w < 32 → has (0x8200 + 128 * e + 4 * w) 4 (SMap.get 0 (k.macro_ e).slots w).toNat) ∧
    -- the memories
    (∀ x, x < 0x50000 → Mem.byte t.mem (fa + 0x10000 + x) = Mem.byte k.spad x) ∧
    (∀ i x, i < 64 → (k.bank i).type ≠ 0 → x < 0x4000 → Mem.byte t.mem (fa + 0x60000 + 0x4000 * i + x) = Mem.byte k.acc (0x4000 * i + x)) ∧
    -- the latches
    ((∀ l ∈ k.latches, (l.record f).isSome = true) → k.latches.length ≤ 512 → k.copies = [] → k.colls = [] → k.accops = [] → k.sends = [] →
      (∀ y ∈ q.flits, ¬(y.rope = r ∧ y.dst = c)) →
      has 28 2 k.latches.length ∧ (t.coreAt r c).latches = k.latches ∧
      (k.ertab.length ≤ 64 → ∀ x, fa + 0x200000 ≤ x → Mem.byte t.mem x = Mem.byte s.mem x) ∧
      ∀ l ∈ k.latches, ∀ fs body, l.record f = some (fs, body) → ∃ j, j < k.latches.length ∧ let a := 0x4000 + 32 * j
        (∀ x ∈ fs, has (a + x.1) x.2.1 x.2.2) ∧ t.inFrame fa (a + 1) 1 % 16 = trackRank l.org.track ∧
        (t.inFrame fa (a + 1) 1 / 32 = if body = [] then 0 else 1) ∧
        (body ≠ [] → Mem.bytes t.mem (fa + 0x160000 + t.inFrame fa (a + 24) 8) body.length = body))

/-- A field of the frame at fa, of core c, that R303 refuses; f is the freeze beat that the frames are to name. -/
def State.FrameBad (s : State) (fa c f : Nat) : Prop :=
  s.inFrame fa 0 4 ≠ 0x4B564942 ∨ s.inFrame fa 8 8 ≠ f ∨ s.inFrame fa 31 1 ≠ c ∨ s.inFrame fa 42 6 ≠ 0 ∨
    (∃ i, i < 4 ∧ s.inFrame fa (0x10B + 64 * i) 1 ≠ 0) ∨ s.inFrame fa 0x5D5 43 ≠ 0 ∨ (∃ i, i < 64 ∧ s.inFrame fa (0x603 + 8 * i) 1 ≠ 0) ∨
    ∃ j, j < 512 ∧ j < s.inFrame fa 28 2 ∧ let a := 0x4000 + 32 * j
      s.inFrame fa a 1 = 0 ∨ 11 < s.inFrame fa a 1 ∨ (s.inFrame fa a 1 ≠ 9 ∧ 2 ^ 31 ≤ s.inFrame fa (a + 4) 4)

/-- From s to t core c of rope r comes back as the frame at fa has it, the counter at beat f; old is the core as it was frozen
(R302). Bits that are reserved read as zero. -/
def State.Restores (s t : State) (r c fa f : Nat) (old : Core) : Prop :=
  let k := t.coreAt r c
  let num (off z : Nat) : Nat := s.inFrame fa off z
  (∀ i, i ≠ 0 → i < 32 → SMap.get 0 k.sregs i = .ofNat 64 (num (0x200 + 8 * i) 8) ∧ SMap.get 0 k.sres i = residueOf (SMap.get 0 k.sregs i)) ∧
    (∀ i, i < 32 → k.dreg i = .ofNat 64 (num (0x340 + 8 * i) 8)) ∧
    (∀ i, i < 8 → k.kreg i = .ofNat 64 (num (0x300 + 8 * i) 8) ∧
      k.qreg i = .ofNat 64 (num (0x440 + 8 * i) 8) &&& 0xFFFFF0FF0007FF00#64) ∧
    (∀ i, i < 16 → SMap.get 0 k.fregs i = .ofNat 32 (num (0x480 + 4 * i) 4) &&& 0xFFFFF000#32) ∧
    (∀ i, i < 64 → SMap.get 0 k.sA i = .ofNat 16 (num (0x4C0 + 2 * i) 2) ∧ SMap.get 0 k.sB i = .ofNat 16 (num (0x540 + 2 * i) 2)) ∧
    (∀ i, i < 128 → k.predReg i = .ofNat 256 (num (0x2000 + 32 * i) 32)) ∧
    k.rb = num 40 1 ∧ k.pb = num 41 1 ∧ k.vwin = num 0x5D2 1 ∧ k.wwin = num 0x5D3 1 ∧ k.omap = .ofNat 3 (num 0x5D1 1) ∧
    k.mmode = .ofNat 3 (num 0x5D0 1) ∧ k.msat = (num 0x5D0 1).testBit 3 ∧ k.status = .ofNat 64 (num 0x5C0 8) &&& 0x1F ∧
    k.dom = .ofNat 64 (num 0x5C8 8) &&& 0x707 ∧ k.low = (num 33 1).testBit 0 ∧
    ((num 33 1).testBit 1 = false → k.window = none) ∧
    ((num 33 1).testBit 1 = true → ∃ w, k.window = some w ∧ w.opened = f + num 34 1 - 128) ∧
    (∀ i, i < 64 → (k.bank i).type = (if (num (0x602 + 8 * i) 1).testBit 0 then .ofNat 6 (num (0x600 + 8 * i) 1) else 0) ∧
      (k.bank i).owners = .ofNat 8 (num (0x601 + 8 * i) 1) ∧
      (num (0x604 + 8 * i) 4 ≠ 0 → num (0x604 + 8 * i) 4 < 2 ^ 31 → (k.bank i).freeFrom = f + num (0x604 + 8 * i) 4)) ∧
    (∀ i, i < 2048 → let x := SMap.get { tag := 0, full := false : Tag } k.tags i
      x.tag = .ofNat 8 (num (0x1000 + 2 * i) 1) ∧ x.full = (num (0x1001 + 2 * i) 1).testBit 0) ∧
    (∀ x, x < 0x50000 → Mem.byte k.spad x = Mem.byte s.mem (fa + 0x10000 + x)) ∧
    (∀ i x, i < 64 → x < 0x4000 → Mem.byte k.acc (0x4000 * i + x) =
      if (num (0x602 + 8 * i) 1).testBit 0 then Mem.byte s.mem (fa + 0x60000 + 0x4000 * i + x) else Mem.byte old.acc (0x4000 * i + x)) ∧
    ∀ g, let w := k.track g
      let a := 0x100 + 64 * trackRank g
      let flag (i : Nat) : Bool := (num (a + 8) 1).testBit i
      w.done = flag 0 ∧ w.mac.isSome = flag 1 ∧ w.belay.isSome = flag 2 ∧ w.held = flag 5 ∧
        w.join = (if flag 3 then some (num (a + 12) 4, f + num (a + 16) 8) else none) ∧ (flag 1 = false → w.pc = num a 4) ∧
        ((old.track g).resync = none → flag 6 = false → num (a + 4) 4 < 0xFFFFFFFF → w.wait = num (a + 4) 4)
end Sys2Proof.Machine
end

