-- ==== Sys2Proof/Certificates/Slice0/Obligations.lean ====
section
/-!
DEFINITION. The statements for the provers.
-/

open Sys2Proof Sys2Proof.Machine

/-! ## The S track -/

/-- R146 to R152 (with R47, R50, R51, R145, R332): every integer word writes its destination, one latency after it issues,
with the value that the spec's formula gives for the operands as sampled on its issue beat, and changes nothing else;
where every register carries the residue of its value, so does the result; the next word follows it with no dead opportunity. A word of the majors 0x05 to 0x14 is legal
just where it is an encoding that the rules give. One LI and three LIH make any constant. -/
def Obligations.IntegerWordsWriteTheirResult : Prop :=
  (∀ (i : Instr) (s : State) (d : BitVec 5) (v : W64) (n : Nat), aluResult s.core i = some (d, v, n) →
    ∃ (t : State) (r : BitVec 4), exec i s = .next t ∧
      s.Schedules t s.core [s.latch (s.now + s.core.lat n) (.sreg d.toNat v r)] ∧
      ((∀ m, s.core.residueBad m = false) → r = residueOf v)) ∧
  (∀ (w : W32) (i : Instr), 5 ≤ (w.extractLsb' 23 6).toNat → (w.extractLsb' 23 6).toNat ≤ 0x14 →
    (decode .s w = .ok i ↔ aluEncoding i = some w ∧ fieldFits i)) ∧
  ∀ (k : Core) (g : BitVec 3) (d : BitVec 5) (c : W64), d ≠ 0 →
    let after (k : Core) (i : Instr) : Core :=
      match aluResult k i with
      | some (d, v, _) => k.putS d.toNat v (residueOf v)
      | none => k
    let lih (k : Core) (n : Nat) : Core := after k (.lih g d (c.extractLsb' n 18))
    (lih (lih (lih (after k (.li g d ((c.extractLsb' 54 10).setWidth 18))) 36) 18) 0).sreg d = c

/-- R77, R153, R154, R333: a scalar load whose access passes its address checks schedules the sample of its bytes, or
where an address register carries a wrong residue that fault on the sample's beat, and nothing else. -/
def Obligations.LoadsSample : Prop :=
  ∀ (i : Instr) (s : State) (x : Access) (sx_ : Bool) (d : BitVec 5) (c : BitVec 4),
    loadOf s.core i = some (x, sx_, d, c) → s.MayAccess x →
    ∃ t, exec i s = .next t ∧
      s.Schedules t s.core [s.latch (s.now + s.core.lat (accessTimes x.space).1)
        (.load x.space x.addr x.size sx_ d.toNat (s.now + s.core.lat (accessTimes x.space).2) c.toNat)
        (s.core.baseMismatch x)]

/-- R77, R153, R154, R333: a scalar store whose access passes its checks schedules the write of the low bytes of its
register at the address its form gives, or where that register carries a wrong residue that fault on the write's beat,
and nothing else; the early-read table alone learns of it. -/
def Obligations.StoresSchedule : Prop :=
  ∀ (i : Instr) (s : State) (x : Access) (v : BitVec 5) (c : BitVec 4),
    storeOf s.core i = some (x, v, c) → s.MayAccess x → s.core.baseMismatch x = none →
    let act := s.now + s.core.lat (accessTimes x.space).1
    ∃ t, exec i s = .next t ∧
      s.Schedules t (s.recorded x.space x.addr (x.addr + x.size) act) [s.latch act
        (.store x.space (storedCells x.addr x.size (s.core.sreg v)) c.toNat []) (s.core.dataMismatch v)]

/-- R77, R156, R333: an atomic whose access passes its address checks schedules its one access, or where its address or
operand register carries a wrong residue that fault on its beat, and nothing else. That the address register is judged
before the operand register is the model's choice (log entry 19). -/
def Obligations.AtomicsSchedule : Prop :=
  ∀ (i : Instr) (s : State) (x : Access) (fn : AtomFn) (d b : BitVec 5) (c : BitVec 4),
    atomicOf s.core i = some (x, fn, d, b, c) → s.MayAccess x →
    let act := s.now + s.core.lat (atomTimes x.space).1
    ∃ t, exec i s = .next t ∧
      s.Schedules t (s.recorded x.space x.addr (x.addr + x.size) act) [s.latch act
        (.atomic x.space x.addr x.size fn (s.core.sreg b) d.toNat (s.now + s.core.lat (atomTimes x.space).2) c.toNat
          [] [] []) (s.core.baseMismatch x <|> s.core.dataMismatch b)]

/-- R155, R333: LDA takes its element size and extension from the bank that sa's own address lies in, and schedules the
sample of one element, or sa's residue fault on the sample's beat. -/
def Obligations.LdaSamples : Prop :=
  ∀ (g : BitVec 3) (d a : BitVec 5) (c : BitVec 4) (i : BitVec 9) (s : State),
    let x := s.core.ldaAccess a i
    s.MayAccess x →
    ∃ t, exec (.lda g d a c i) s = .next t ∧
      s.Schedules t s.core [s.latch (s.now + s.core.lat 3)
        (.loadElem x.addr x.size (s.core.ldaElement (s.core.sreg a).toNat).2 d.toNat (s.now + s.core.lat 5))
        (s.core.baseMismatch x)]

/-- R75, R153, R293, R317, R333: a scalar access outside its space takes the address-range fault on its issue beat; one
inside it and misaligned the alignment fault; a store that passes both and whose address register carries a wrong residue
takes the residue fault there. A service context's access at or above 80 GiB of physical device memory, which does not
exist, stops the machine. That the residue comes last, and a store's on its issue beat, is the model's choice (log
entry 19), and so is that stop (log entry 13). -/
def Obligations.AccessChecksInOrder : Prop :=
  ∀ (i : Instr) (s : State) (x : Access), accessOf s.core i = some x →
    (x.outside = true → exec i s = .next (s.raise .addressRange x.addr x.size)) ∧
    (x.outside = false → x.addr % x.size ≠ 0 → exec i s = .next (s.raise .alignment x.addr x.size)) ∧
    (∀ v c r, storeOf s.core i = some (x, v, c) → x.placed = true → x.regs.find? s.core.residueBad = some r →
      exec i s = .next (s.raise .residue (x.space.code * 2 ^ 62 + x.addr) (s.core.residueDetail r))) ∧
    (s.cur.svc = true → x.space = .dev → x.placed = true → 80 * 2 ^ 30 ≤ x.addr →
      (storeOf s.core i = none ∨ s.core.baseMismatch x = none) → exec i s = .fault (.noSuchDeviceAddress x.addr))

/-- R158, R159 (with R47, R162): a conditional branch goes to its target with one dead opportunity when its comparison
holds, and otherwise steps to the next word with none: to its own address plus 1, where no join stands and no loop ends
there, after that word's GAP; JMP, JR and CALL always go, and CALL leaves its own address plus 1 in sd. A
word of the majors 0x2E to 0x36 is legal just where it is an encoding that the rules give. Inside the context's region
whatever word stands there is fetched; none stands above address 49,151, and the illegal-instruction fault is raised on
the beat on which it would issue. -/
def Obligations.BranchesGo : Prop :=
  (∀ (i : Instr) (s : State) (taken : Bool) (o : BitVec 13), branchOf s.core i = some (taken, o) →
    s.cur.track = .s → s.track.mac = none →
    ∃ t, exec i s = .next t ∧
      if taken then s.GoesTo t s.core (s.target o.toInt) 1 s.joinLeft else
        s.Schedules t s.core [] ∧ (s.track.StraightOn →
          t.track.pc = s.track.pc + 1 ∧ t.track.wait = gapAt s.source (s.track.pc + 1))) ∧
  (∀ (g : BitVec 3) (d a : BitVec 5) (o : BitVec 18) (s : State), s.cur.track = .s → s.track.mac = none →
    (∃ t, exec (.jmp g o) s = .next t ∧ s.GoesTo t s.core (s.target o.toInt) 1 s.joinLeft) ∧
    (∃ t, exec (.jr g a) s = .next t ∧ s.GoesTo t s.core (s.core.sreg a).toNat 1 s.joinLeft) ∧
    (let v := BitVec.ofNat 64 (s.track.pc + 1)
     let l := s.latch (s.now + s.core.lat 1) (.sreg d.toNat v (residueOf v))
     ∃ t, exec (.call g d o) s = .next t ∧
      s.GoesTo t { s.core with latches := s.core.latches ++ [l] } (s.target o.toInt) 1 s.joinLeft)) ∧
  (∀ (w : W32) (i : Instr), 0x2E ≤ (w.extractLsb' 23 6).toNat → (w.extractLsb' 23 6).toNat ≤ 0x36 →
    (decode .s w = .ok i ↔ branchEncoding i = some w)) ∧
  ∀ (s : State), s.track.mac = none →
    (s.cur.svc = false → s.track.pc < s.part.step.cslen → s.part.step.csbase + s.track.pc ≤ 49151 →
      s.word = some (SMap.get 0 s.core.code (s.part.step.csbase + s.track.pc))) ∧
    (s.cur.svc = false → 49151 < s.track.pc → s.word = none) ∧
    (s.word = none → s.issue = { st := s.spent.illegal, ins := none })

/-- R47, R60, R160: BRQ with both addresses inside the code and no join pending goes with one dead opportunity, or falls
through with none, to its own address plus 1 where no loop ends there; the join stands J beats after b (four times that in
low gear), and a word at it counts no GAP. -/
def Obligations.BrqSetsItsJoin : Prop :=
  ∀ (g : BitVec 3) (a b : BitVec 5) (z : BitVec 1) (j : BitVec 12) (s : State),
    let x := s.core.sreg b
    let tgt := (x.extractLsb' 0 18).toNat
    let join := (x.extractLsb' 18 18).toNat
    let at_ := some (join, s.now + s.core.lat j.toNat)
    s.cur.track = .s → s.track.mac = none → tgt ≤ 49151 → join ≤ 49151 → s.track.join = none →
    ∃ t, exec (.brq g a b z j) s = .next t ∧
      if (z = 0 ↔ s.core.sreg a ≠ 0) then s.GoesTo t s.core tgt 1 at_ else
        s.Schedules t s.core [] 0 at_ ∧ t.track.join = at_ ∧ (s.track.StraightOn →
          t.track.pc = s.track.pc + 1 ∧
            t.track.wait = if join = s.track.pc + 1 then 0 else gapAt s.source (s.track.pc + 1))

/-- R47, R161, R162: KLOOP and KLOOP.R, outside macro entries, inside every running loop's body and with a k register of
their own, clear that register and, for a count above 0, run the body as the innermost loop; a count of 0 skips it, and
loops that end with its body turn. The word that follows waits its GAP. How a trip ends is Core.TripsEnd, which every word
of a body brings about as it falls through (Schedules). -/
def Obligations.KloopsBegin : Prop :=
  ∀ (g : BitVec 3) (k : BitVec 2) (l r : BitVec 5) (n : BitVec 13) (s : State),
    s.cur.track = .s → s.Plain →
    (∀ x ∈ s.track.kloops, x.kreg ≠ k.toNat ∧ x.body ≤ s.track.pc + 1 ∧ s.track.pc + 1 + (l.toNat + 1) ≤ x.body + x.len) →
    let body := s.track.pc + 1
    let begun (trip : Nat) (t : State) : Prop :=
      s.OnlyUnit t ∧ t.core = { s.core with s := t.core.s, kregs := t.core.kregs } ∧ s.track.Moved t.track ∧
      t.track.join = s.joinLeft ∧ t.track.resync = s.resyncLeft ∧
      (trip ≠ 0 →
        t.core.kreg k.toNat = 0 ∧ (∀ m, m ≠ k.toNat → t.core.kreg m = s.core.kreg m) ∧ t.track.pc = body ∧
        t.track.kloops = { body := body, len := l.toNat + 1, kreg := k.toNat, count := 0, trip := trip } :: s.track.kloops ∧
        t.track.wait = t.core.gapHere .s s.source) ∧
      (trip = 0 → (s.core.putK k.toNat 0).Falls t.core .s s.source 0 (body + (l.toNat + 1)) ∧
        ((∀ x ∈ s.track.kloops.head?, body + (l.toNat + 1) ≠ x.body + x.len) →
          t.core.kreg k.toNat = 0 ∧ (∀ m, m ≠ k.toNat → t.core.kreg m = s.core.kreg m) ∧
          t.track.pc = body + (l.toNat + 1) ∧ t.track.kloops = s.track.kloops))
    (∃ t, exec (.kloop g k l n) s = .next t ∧ begun n.toNat t) ∧
    ((s.core.sreg r).toNat ≤ 16777215 → ∃ t, exec (.kloopReg g k l r) s = .next t ∧ begun (s.core.sreg r).toNat t)

/-- R48, on every track: IDLE m changes nothing but its track's place and waits; where the word after it simply
follows, the program counter steps to it, and it waits m issue opportunities besides its own GAP (R47). -/
def Obligations.IdleOnlyWaits : Prop :=
  ∀ (g : BitVec 3) (m : BitVec 18) (s : State), ∃ t, exec (.idle g m) s = .next t ∧ s.Schedules t s.core [] m.toNat ∧
    (s.track.StraightOn → t.core.kregs = s.core.kregs ∧ t.track = { s.track with
      pc := s.track.pc + 1, wait := m.toNat + gapAt s.source (s.track.pc + 1), fresh := true, checker := none
      resync := s.resyncLeft })

/-- R43, R49, R58, R65, R66: ANCHOR, where it may stand, only steps to the next word. RENDEZ on the declared rendezvous
beat, with no join pending and no BELAY of its domain instance waiting, ends its track's part in the step. In a service
context it returns the context to waiting (R290). -/
def Obligations.AnchorAndRendezBoundATrack : Prop :=
  ∀ (g : BitVec 3) (s : State), s.Plain → s.Unwindowed →
    (∃ t, exec .anchor s = .next t ∧ s.Schedules t s.core []) ∧
    (s.cur.svc = false → s.now = s.part.rendezBeat → s.track.join = none →
      (s.cur.track = .s → s.core.domEn = true → s.waitingBelay = none) →
      ∃ t, exec (.rendez g) s = .next t ∧ s.OnlyUnit t ∧ t.track.live = false ∧ t.track.done = true ∧
        t.core = { s.core with kregs := t.core.kregs, s := t.core.s, v := t.core.v, m := t.core.m, c := t.core.c } ∧
        ∀ f, f ≠ s.cur.track → t.core.track f = s.core.track f) ∧
    (s.cur.svc = true → exec (.rendez g) s = .next (s.setSvc s.cur.rope { s.svcAt s.cur.rope with active := false }))

/-- R66, R138, R139, R335, R337: MCALL of an entry of the track's family whose tags its parameters fit runs the entry from
word 0 with them, and the word after the MCALL follows the entry; a corrected error of the entry's header shows in STATUS.
An uncorrectable header raises the data-error fault. -/
def Obligations.McallRunsItsEntry : Prop :=
  ∀ (g : BitVec 3) (e p q : BitVec 6) (r : BitVec 5) (s : State), s.Plain → s.Unwindowed →
    let m := s.core.macro_ e.toNat
    let mark := SMap.get 0 s.core.macEcc e.toNat
    (mark = 2 → exec (.mcall g e p q r) s = .next (s.raise .dataError (8 * e.toNat) 3)) ∧
    (mark ≠ 2 → m.family = famCode s.cur.track → 1 ≤ m.len → m.len ≤ 32 → tagOk m.len (m.tag 1) p.toNat = true →
      tagOk m.len (m.tag 2) q.toNat = true → tagOk m.len (m.tag 3) r.toNat = true →
      ∃ t, exec (.mcall g e p q r) s = .next t ∧
        s.Issues t (if mark = 1 then s.core.sticky stEccCorr else s.core) [] ∧ t.track.pc = s.track.pc + 1 ∧
        t.track.mac = some { entry := e.toNat, word := 0, p1 := p.toNat, p2 := q.toNat, p3 := r.toNat, callPc := s.track.pc } ∧
        t.track.wait = t.core.gapHere s.cur.track s.source ∧ t.track.join = s.joinLeft ∧ t.core.kregs = s.core.kregs ∧
        t.track.kloops = s.track.kloops ∧ t.track.mloop = s.track.mloop ∧ t.track.cloop = s.track.cloop)

/-- R99, R167, R166: CFENCE adds its fence, unless it names no class or no track; COMMIT stages the flip. Neither
changes anything else. -/
def Obligations.FencesAndCommitStand : Prop :=
  ∀ (g : BitVec 3) (fs fv fc : BitVec 1) (m : BitVec 16) (s : State),
    (∃ t, exec (.cfence g fs fv fc m) s = .next t ∧
      s.Schedules t (if m = 0 ∨ (fs = 0 ∧ fv = 0 ∧ fc = 0) then s.core else
        { s.core with fences := s.core.fences ++
          [{ beat := s.now, classes := m, s := decide (fs = 1), v := decide (fv = 1), c := decide (fc = 1) }] }) []) ∧
    (s.cur.svc = false →
      ∃ t, exec (.commit g) s = .next t ∧ (s.onPart s.cur.part fun q => { q with flip := true }).Schedules t s.core [])

/-- R47, R56, R57, R367: BELAY of a core that is no domain member only steps on; a member's waits, and the tracks that DOM
names are held. As a beat begins on which every member of its domain instance waits, and which is an issue opportunity of
all of them and of the tracks they hold, they wait no longer; on any other they wait and hold on. -/
def Obligations.BelayWaits : Prop :=
  (∀ (g : BitVec 3) (s : State), s.cur.track = .s → s.track.mac = none →
    ∃ t, exec (.belay g) s = .next t ∧ s.OnlyUnit t ∧ s.Follows t ∧
      (s.core.domEn = false → s.Schedules t s.core []) ∧
      (s.core.domEn = true →
        t.core = { s.core with kregs := t.core.kregs, s := t.core.s, v := t.core.v, m := t.core.m, c := t.core.c } ∧
        t.core.s.belay = some s.org ∧
        t.core.v = { s.core.v with held := s.core.v.held || s.core.dom.getLsbD 8 } ∧
        t.core.m = { s.core.m with held := s.core.m.held || s.core.dom.getLsbD 9 } ∧
        t.core.c = { s.core.c with held := s.core.c.held || s.core.dom.getLsbD 10 })) ∧
  ∀ (p r c : Nat) (s : State), s.Begins p →
    let q := s.partAt p
    let k := s.coreAt r c
    (r, c) ∈ q.coreIds → k.domEn = true → k.s.belay.isSome = true →
    let meets : Prop := ∀ m ∈ q.coreIds, let j := s.coreAt m.1 m.2
      inDomain k j r m.1 → (∃ o, j.s.belay = some o ∧ o.issue < q.topo) ∧ (j.low = true → q.topo % 4 = 0)
    ∃ t, step s = .next t ∧ (t.partAt p).topo = q.topo ∧
      let k' := t.coreAt r c
      (meets → k'.s = { k.s with belay := none } ∧ k'.v.held = false ∧ k'.m.held = false ∧ k'.c = { k.c with held := false }) ∧
      (¬ meets → k'.s = k.s ∧ k'.v.held = k.v.held ∧ k'.m.held = k.m.held ∧ k'.c = k.c)

/-- R47, R61, R164: RESYNC to a later beat that is an issue opportunity of every live track it names, none of them in a
macro entry or a modulo loop, re-anchors exactly those and steps to the next word. -/
def Obligations.ResyncReanchors : Prop :=
  ∀ (g : BitVec 3) (a : BitVec 5) (m : BitVec 4) (s : State), s.cur.track = .s → s.track.mac = none →
    let x := (s.core.sreg a).toNat
    let named (f : Family) : Bool := m.getLsbD (3 - trackRank f) && (s.core.track f).live
    s.track.join = none → s.now < x →
    (∀ f, named f = true → s.core.opportunity f x = true ∧ (s.core.track f).mac = none ∧ (s.core.track f).mloop = none) →
    ∃ t, exec (.resync g a m) s = .next t ∧ s.OnlyUnit t ∧ s.Follows t ∧
      t.core = { s.core with kregs := t.core.kregs, s := t.core.s, v := t.core.v, m := t.core.m, c := t.core.c } ∧
      (named .s = false → t.track.resync = s.resyncLeft) ∧
      (∀ f, named f = true → (t.core.track f).resync = some (s.now, x)) ∧
      (∀ f, f ≠ .s → named f = false → t.core.track f = s.core.track f)

/-- R54, R165: GEAR opens a settle window on b and counts a gear change; nothing else changes. The window stays, and the
old gear with it, up to the end of beat b + 127; with that beat it closes, and the new gear holds from b + 128 on. -/
def Obligations.GearOpensAWindow : Prop :=
  (∀ (g : BitVec 3) (s : State), s.cur.svc = false → s.track.mac = none → s.track.join = none →
    let opened (low : Bool) : Core := { s.core with
      window := some { opened := s.now, low := low }, tele := { s.core.tele with gears := s.core.tele.gears + 1 } }
    (∃ t, exec (.gearH g) s = .next t ∧ s.Schedules t (opened false) []) ∧
    ∃ t, exec (.gearL g) s = .next t ∧ s.Schedules t (opened true) []) ∧
  ∀ (p r c : Nat) (s : State), s.Ends →
    let q := s.partAt p
    let k := s.coreAt r c
    p < s.nparts → q.stopped = false → q.fault = none → (r, c) ∈ q.coreIds →
    (∀ i, i < s.nparts → i ≠ p → r ∉ (s.partAt i).ropes) →
    ∃ t, step s = .next t ∧ t.wall = s.wall + s.beatFs ∧ (t.partAt p).topo = q.topo + 1 ∧ (t.partAt p).mark = 0 ∧
      let k' := t.coreAt r c
      (k.window = none → k'.window = none ∧ k'.low = k.low) ∧
      ∀ w, k.window = some w →
        (q.topo < w.opened + 127 → k'.window = some w ∧ k'.low = k.low) ∧
        (w.opened + 127 ≤ q.topo → k'.window = none ∧ k'.low = w.low)

/-- R21, R53, R83, R130, R168, R169, R178, R289: RDCTR writes the counter it selects: the topo count, SLOT and FRAME,
GEARST, STATUS, DOM, the ring registers, the k registers and the eight hold counters. POSQ writes N, Q or E of an active
stream, all ones for an id that names none, or the context's lag. Which counters a service context's RDCTR reads, and that
they are the running step's of its partition, is the model's choice (log entry 23). -/
def Obligations.CountersAndPositionsAreRead : Prop :=
  ∀ (g : BitVec 3) (d a : BitVec 5) (sel : BitVec 8) (n : BitVec 2) (s : State),
    let q := s.part
    let counts := q.counts
    let gives (v : W64) : Latch := s.latch (s.now + s.core.lat 1) (.sreg d.toNat v (residueOf v))
    ((s.cur.svc = true → sel.toNat < 3 ∨ 16 ≤ sel.toNat) →
      ∃ (t : State) (v : W64), exec (.rdctr g d sel) s = .next t ∧ s.Schedules t s.core [gives v] ∧
        (sel = 0 → v = .ofNat 64 q.topo) ∧
        (sel = 1 → if q.phase = .run ∧ q.step.outcome = .open_ then
            let us := (q.slots.getD q.slot ⟨0, none⟩).us
            us < 2 ^ 17 → q.runner.ctx < 2 ^ 10 → q.step.resident < 2 ^ 5 → q.slot < 2 ^ 6 →
              v = 0#15 ++ BitVec.ofNat 17 us ++ 0#6 ++ BitVec.ofNat 10 q.runner.ctx ++ 0#3 ++
                BitVec.ofNat 5 q.step.resident ++ BitVec.ofBool (decide (q.step.kind = .urgent)) ++
                BitVec.ofBool (decide (q.step.kind ≠ .owned)) ++ BitVec.ofNat 6 q.slot
          else v = 0) ∧
        (sel = 2 → v = if q.phase = .run ∧ q.step.outcome = .open_ then .ofNat 64 q.frame else 0) ∧
        (sel = 3 → s.core.window = none → v = if s.core.low then 5 else 0) ∧
        (sel = 4 → v = s.core.status) ∧ (sel = 5 → v = s.core.dom) ∧
        (8 ≤ sel.toNat → sel.toNat < 16 → v = s.core.qreg (sel.toNat - 8)) ∧
        (16 ≤ sel.toNat → sel.toNat < 24 → v = s.core.kreg (sel.toNat - 16)) ∧
        (sel = 0x18 → v = .ofNat 64 counts.holds) ∧ (sel = 0x19 → v = .ofNat 64 counts.holdt) ∧
        (sel = 0x1A → v = .ofNat 64 counts.xlath) ∧ (sel = 0x1B → v = .ofNat 64 counts.collh) ∧
        (sel = 0x1C → v = .ofNat 64 counts.replh) ∧ (sel = 0x1D → v = .ofNat 64 counts.preh) ∧
        (sel = 0x1E → v = .ofNat 64 counts.pret) ∧ (sel = 0x1F → v = .ofNat 64 (q.strtFs / 625000))) ∧
    (s.cur.svc = false →
      let c := q.runner.ctx
      let sid := (s.core.sreg a).toNat
      ∃ (t : State) (v : W64), exec (.posq g d a n) s = .next t ∧ s.Schedules t s.core [gives v] ∧
        (n = 3 → v = .ofNat 64 q.runner.lag) ∧
        (n ≠ 3 → (511 < sid ∨ s.active c sid = false) → v = .allOnes 64) ∧
        (sid ≤ 511 → s.active c sid = true → (n = 0 → v = .ofNat 64 (s.stream c sid 8 8)) ∧
          (n = 1 → v = .ofNat 64 (s.stream c sid 16 8)) ∧ (n = 2 → v = .ofNat 64 (s.stream c sid 24 4))))

/-- R170 (with R169): STAT writes STATUS as sampled on b with latency 1, and clears on b+1 the bits 4 to 0 that sa names;
a bit that an event sets on b or b+1 stays set. -/
def Obligations.StatReadsAndClears : Prop :=
  (∀ (g : BitVec 3) (d a : BitVec 5) (s : State), s.cur.svc = false →
    ∃ t, exec (.stat g d a) s = .next t ∧
      s.Schedules t s.core [s.latch (s.now + s.core.lat 1) (.sreg d.toNat s.core.status (residueOf s.core.status)),
        s.latch (s.now + 1) (.statClear (s.core.sreg a &&& 31 &&& ~~~s.core.stuck))]) ∧
  (∀ (r c k : Nat) (l : Latch) (m : W64) (s : State), c < 8 → (s.coreAt r c).latches[k]? = some l → l.eff = .statClear m →
    l.bad = none → l.act ≤ (s.partAt (s.partOf r)).topo → ∃ t, exec (.writePerform r c k) s = .next t ∧
      t.coreAt r c = { s.coreAt r c with
        latches := (s.coreAt r c).latches.eraseIdx k, status := (s.coreAt r c).status &&& ~~~m }) ∧
  ∀ (k : Core) (bit : Nat), bit < 64 → (k.sticky bit).status.getLsbD bit = true ∧ (k.sticky bit).stuck.getLsbD bit = true ∧
    ∀ l ∈ (k.sticky bit).latches, ∀ m, l.eff = .statClear m → m.getLsbD bit = false

/-- R172: XPRE never faults; its page is looked up, and only where the cache has none does anything follow. That the
lookup is the running step's, also for a service context's XPRE, is the model's choice (log entry 23). -/
def Obligations.XpreOnlyPrefetches : Prop :=
  ∀ (g : BitVec 3) (a : BitVec 5) (z : BitVec 1) (s : State),
    let va := (s.core.sreg a).toNat
    ∃ t, exec (.xpre g a z) s = .next t ∧
      s.Schedules t s.core (if va < devEnd ∧ s.translate s.cur.part s.cur.rope va false false = .missing then
        [s.latch (s.now + 1) (.xpre va (decide (z = 1)))] else [])

/-- R173 to R177: SFORK, SCANCEL, SCANCEL_T and RETRACT of a stream id up to 511 stage one effect while the stage has
room; XSTEP stages the highest priority of the step. -/
def Obligations.StreamWordsStage : Prop :=
  ∀ (g : BitVec 3) (x a : BitVec 5) (p : BitVec 2) (s : State), s.cur.svc = false →
    let sid := (s.core.sreg a).toNat
    let staged (op : StageOp) : State := s.onPart s.cur.part fun q => { q with stage := q.stage ++ [{ org := s.org, op := op }] }
    (sid ≤ 511 → s.part.stage.length < 1024 →
      (∃ t, exec (.sfork g a) s = .next t ∧ (staged (.fork sid)).Schedules t s.core []) ∧
      (∃ t, exec (.scancel g a) s = .next t ∧ (staged (.cancel sid false)).Schedules t s.core []) ∧
      (∃ t, exec (.scancelT g a) s = .next t ∧ (staged (.cancel sid true)).Schedules t s.core []) ∧
      ∃ t, exec (.retract g x a) s = .next t ∧ (staged (.retract sid (s.core.sreg x).toNat)).Schedules t s.core []) ∧
    ∃ t, exec (.xstep g p) s = .next t ∧
      (s.onPart s.cur.part fun q => { q with xstep := some (match q.xstep with
        | some y => max p.toNat y
        | none => p.toNat) }).Schedules t s.core []

/-- R171, R290, R292, R297 to R300: BREAK without the context's break enable only steps on; with it the partition enters a
debugger halt at itself: its record on the trap ring names it, with the code in DETAIL and, as the spec gives a BREAK no
class, an open value in CLASS (log entry 11); every core writes its frame into set 1, and each rope's firmware is entered
with s1 = 3 and the frame set's address in s2. What a frame holds, which an urgent pre-emption writes too, is
State.Frames; that a loop record has the trip count as N and the present trip as its count is the model's reading (log entry
68). -/
def Obligations.BreakHalts : Prop :=
  ∀ (g : BitVec 3) (code : BitVec 8) (s : State), s.cur.svc = false →
    (s.breaks s.part.runner.ctx = false → ∃ t, exec (.break_ g code) s = .next t ∧ s.Schedules t s.core []) ∧
    (s.breaks s.part.runner.ctx = true → ∃ (t u : State), exec (.break_ g code) s = .next t ∧
      (t.partAt s.cur.part).traps = s.part.traps + 1 ∧
      (∃ f ∈ (t.partAt s.cur.part).frozen.head?, f.cause = .debugger ∧ f.step = s.part.step ∧ f.beat = s.part.topo) ∧
      (let f : FaultRec := { cls := .illegal, org := s.org, detail := code.setWidth 64, detail2 := 0, beat := s.part.topo, svc := false }
       let n := s.part.traps
       s.TrapIs u.mem s.cur.part n false f ∧ (s.cur.part < 8 → s.TrapIs t.mem s.cur.part n false f)) ∧
      t.Serving s.cur.part 3 ∧
      (∀ r ∈ s.part.ropes, SMap.get 0 (t.svcAt r).seq.sregs 2 = .ofNat 64 (s.frameAt r 0 1)) ∧
      u = { s with mem := u.mem, memEcc := u.memEcc, parts := u.parts, free := u.free } ∧
      (∀ m, u.partAt m = if m = s.cur.part then { s.part with traps := s.part.traps + 1 } else s.partAt m) ∧
      (let a := s.ctxbase.getD 0 + 0x40000 + 0x1000 * s.cur.part + 64 * (s.part.traps % 64)
       ∀ x, (x < a ∨ a + 64 ≤ x) → Mem.byte u.mem x = Mem.byte s.mem x) ∧
      t.mem = (s.part.coreIds.foldl (fun u x => u.writeFrame s.cur.part x.1 x.2 2 1) u).mem ∧
      (t.cores = (s.part.coreIds.foldl (fun u x => u.writeFrame s.cur.part x.1 x.2 2 1) u).cores)) ∧
    ∀ (p r c cause n : Nat), s.Frames (s.writeFrame p r c cause n) p r c cause n

/-! ## Service words -/

/-- R272, R323: RDSYS, WRSYS, XLATI and a well-laid-out XLATW of a service context schedule their one effect. That CTXBASE
reads 0 before it is written is the model's choice (log entry 14), and so is that a RESMAP register reads as it was until
the frame start that its write waits for (log entry 29). -/
def Obligations.ServiceWordsSchedule : Prop :=
  ∀ (g : BitVec 3) (d a i : BitVec 5) (n : BitVec 8) (l : BitVec 1) (s : State), s.cur.svc = true →
    let x := s.core.sreg a
    (∃ (t : State) (v : W64), exec (.rdsys g d n) s = .next t ∧
      s.Schedules t s.core [s.latch (s.now + s.core.lat 1) (.sreg d.toNat v (residueOf v))] ∧
      (n = 0 → v = .ofNat 64 (s.cur.part + s.nparts * 256)) ∧ (n = 3 → v = .ofNat 64 (s.ctxbase.getD 0)) ∧
      (n = 5 → v = .ofNat 64 (s.partAt s.cur.part).epoch) ∧
      (0x20 ≤ n.toNat → n.toNat < 0x40 → v = SMap.get 0 (s.partAt s.cur.part).resmap (n.toNat - 0x20))) ∧
    (∃ t, exec (.wrsys g a n) s = .next t ∧ s.Schedules t s.core [s.latch (s.now + 1) (.sysWrite n.toNat x)]) ∧
    (x.extractLsb' 0 8 = 0 → (x.getLsbD 10 = true → x.extractLsb' 32 5 = 0 ∧ x.extractLsb' 11 5 = 0) →
      ∃ t, exec (.xlatw g a i) s = .next t ∧ s.Schedules t s.core [s.latch (s.now + 1) (.xlatWrite x i.toNat)]) ∧
    ∃ t, exec (.xlati g a l i) s = .next t ∧
      s.Schedules t s.core [s.latch (s.now + 1) (.xlatClear x i.toNat (decide (l = 1)))]

/-- R291: HOLDX c marks cause c of the current hold as serviced, for any other cause it does nothing, at step level it
is malformed; its operand byte is 1, 2 or 3. -/
def Obligations.HoldxMarksACause : Prop :=
  ∀ (g : BitVec 3) (c : BitVec 2) (s : State),
    (s.cur.svc = true → ∃ (t : State) (u : Partition), exec (.holdx g c) s = .next t ∧
      (s.setPart s.cur.part u).Schedules t s.core [] ∧
      (∀ h, s.part.hold = some h → c.toNat ∈ h.causes → ∃ h', u = { s.part with hold := some h' } ∧
        h'.causes = h.causes ∧ (∀ x, x ∈ h'.serviced ↔ x ∈ h.serviced ∨ x = c.toNat)) ∧
      ((∀ h, s.part.hold = some h → c.toNat ∉ h.causes) → u = s.part)) ∧
    (s.cur.svc = false → exec (.holdx g c) s = .next s.illegal) ∧
    (∀ x : BitVec 8, decode .s (0x1F801D#24 ++ x) = .ok (.holdx 0 (x.setWidth 2)) ↔ x ≠ 0 ∧ x.toNat < 4)

/-- R289, R294, R299, R302, R303, R333: RESUME of a service context steps on and then waits, with sa naming its frame set, for
the partition's other ropes; where sa carries a wrong residue it raises that fault. Once all have issued it, and the halt or
the urgent step is over, every core comes back as its frame has it, TOPO and the step's A and RDZ with it, firmware waits, and
the counter restarts no sooner than 128 beat periods later, when the event is counted; a bad frame raises the bivouac fault,
the step abandoned as it was frozen. The frame sets named lie apart. The model's choices: that it only steps on where nothing is frozen, and that sa is an address
(log entry 50); when the frames are checked and how long the restart takes beyond the 128 periods (log entry 51); and that an
edited track record acts as it reads (log entry 82). -/
def Obligations.ResumeWaits : Prop :=
  (∀ (g : BitVec 3) (a : BitVec 5) (s : State), s.cur.svc = true →
    (s.core.residueBad a = true →
      exec (.resume g a) s = .next (s.raise .residue (2 * 2 ^ 62 + (s.core.sreg a).toNat) (s.core.residueDetail a))) ∧
    (s.core.residueBad a = false → ∃ (t u : State), exec (.resume g a) s = .next t ∧ s.Schedules u s.core [] ∧
      t = if s.part.frozen = [] then u else
        u.setSvc s.cur.rope { u.svcAt s.cur.rope with resumeAt := some (s.core.sreg a).toNat })) ∧
  ∀ (p : Nat) (s : State), s.boot = .ready → s.halted = false → s.between = true → s.betweenDue = s.stopDue p →
    let q := s.partAt p
    ¬((q.step.outcome = .faulted ∨ q.step.outcome = .abandoned) ∧ q.step.settled = false) →
    (∀ w since, q.resumeWait = some (w, since) → w ≤ s.wall → ∃ t, step s = .next t ∧ t = { s with parts := t.parts } ∧
      t.partAt p = { q with
        resumeWait := none
        counts := { q.counts with preh := q.counts.preh + 1, pret := q.counts.pret + (s.wall - since + 624999) / 625000 } }) ∧
    ∀ f rest, q.frozen = f :: rest → q.resumeWait = none → (∀ r ∈ q.ropes, (s.svcAt r).resumeAt.isSome = true) →
      (f.cause = .debugger → f.ran = true) → (f.cause = .urgent → q.urgentDone f = true) →
      let set (r : Nat) : Nat := (s.svcAt r).resumeAt.getD 0
      let fa (x : Nat × Nat) : Nat := set x.1 + 0x200000 * x.2
      ∀ x0 ∈ q.coreIds.head?,
        let beat := s.inFrame (fa x0) 8 8
        ((∃ x ∈ q.coreIds, s.FrameBad (fa x) x.2 beat) → ∃ t, step s = .next t ∧ (t.partAt p).svcFault = true ∧
          (t.partAt p).traps = q.traps + 1 ∧ (t.partAt p).frozen.length = rest.length ∧ (t.partAt p).topo = f.beat ∧
          (f.step.outcome = .open_ → (t.partAt p).step.outcome = .faulted)) ∧
        (s.badFrame p = none → (∀ r ∈ q.ropes, ∀ n ∈ q.ropes, r ≠ n → set r + 0x1000000 ≤ set n ∨ set n + 0x1000000 ≤ set r) →
          ∃ t, step s = .next t ∧ (t.partAt p).topo = beat ∧ (t.partAt p).frozen = rest ∧
            (t.partAt p).step = { f.step with anchor := s.inFrame (fa x0) 16 8, rdz := s.inFrame (fa x0) 24 4 } ∧
            (∃ w, (t.partAt p).resumeWait = some (w, f.since) ∧ s.wall + 128 * 625000 ≤ w) ∧
            (∀ r ∈ q.ropes, (t.svcAt r).active = false ∧ (t.svcAt r).resumeAt = none) ∧
            ∀ x ∈ q.coreIds, s.Restores t x.1 x.2 (fa x) beat (SMap.get Core.reset f.cores (8 * x.1 + x.2)))

/-- R140, R179, R271, R290: at step level a service-level word is malformed: the illegal-instruction fault, with the word
itself as DETAIL. In a service context, which has no core, no step and no stage, a word that acts on one of them only
steps on, and what it would read there is an open value: that is the model's choice (log entry 12). -/
def Obligations.WordsKeepTheirLevel : Prop :=
  (∀ (i : Instr) (s : State), serviceLevel i = true → s.cur.svc = false →
    exec i s = .next (s.raise .illegal s.org.word.toNat 0)) ∧
  ∀ (i : Instr) (s : State), s.cur.svc = true →
    (s.coreWord i = some .nothing → ∃ t, exec i s = .next t ∧ s.Schedules t s.core []) ∧
    ∀ d n, s.coreWord i = some (.open_ d n) → ∃ (t : State) (v : W64), exec i s = .next t ∧
      ({ s with free := s.free + 1 } : State).Schedules t s.core
        [s.latch (s.now + s.core.lat n) (.sreg d.toNat v (residueOf v))]

/-! ## The V track -/

/-- R79, R80, R184: where each row of a list may be read, a V word's reads of them pass, and leave the core as it was
but for STATUS and the checker's list of the beat's reads; a row of an unallocated bank sets UNALLOC-READ. -/
def Obligations.RowReadsPass : Prop :=
  ∀ (s : State) (xs : List Place), s.OnCore .v → (∀ x ∈ xs, s.RowReadable x) →
    let t := (s.checkRows xs).1
    (s.checkRows xs).2 = true ∧ s.OnlyUnit t ∧
      t.core = { s.core with status := t.core.status, stuck := t.core.stuck, reads := t.core.reads, latches := t.core.latches } ∧
      t.core.latches.length = s.core.latches.length ∧
      ((∃ x ∈ xs, s.core.allocated x.bank = false) → t.core.status.getLsbD 0 = true) ∧
      ((∀ x ∈ xs, s.core.allocated x.bank = true ∧ eccOver s.core.accEcc 8 x.addr 256 = 0) → s.core.erchk = false →
        t.core = s.core)

/-- R180 to R202, R333: every row word of one type, on a destination type it takes, rows that may be read and lane indices
that carry their residues, schedules one row for its usable beat minus 1, each lane as the spec's formula gives it where
active, zero with Z and the old lane without, and changes nothing else but what its reads do. On an allocated destination
of a type it does not take it raises the type fault, and on a lane index that carries a wrong residue that fault: before
its rows are judged, which is the model's choice (log entry 19). -/
def Obligations.RowWordsWriteLanes : Prop :=
  ∀ (i : Instr) (s : State) (w : RowWord), rowWordOf s i = some w → s.OnCore .v → s.Unwindowed →
    let k := s.core
    let x := k.place mapVd w.d
    let t := k.destType x.bank
    let act := s.now + k.lat w.lat - 1
    let s1 := (s.checkRows (w.sources k)).1
    (k.allocated x.bank = true → w.types t = false → exec i s = .next (s.raise .type t.toNat)) ∧
    (∀ r, w.regs.find? k.residueBad = some r → exec i s = .next (s.raise .residue 0 (k.residueDetail r))) ∧
    ((k.allocated x.bank = true → w.types t = true) → elemSize t ≠ 0 → (∀ r ∈ w.regs, k.residueBad r = false) →
      (∀ y ∈ w.sources k, s.RowReadable y) →
      ∃ (u : State) (bs : List Byte), exec i s = .next u ∧ holdsLanes bs (elemSize t) (laneCount t) (w.merged k t) ∧
        s1.Schedules u (s1.core.erRecord .acc x.addr (x.addr + 256) act s.org) [s.latch act (.row x.bank x.row bs)])

/-- R187, R121: VADDC schedules two rows, the sum in vd and the error term in the same row of the other window. -/
def Obligations.VaddcWritesTwoRows : Prop :=
  ∀ (g : BitVec 3) (p : BitVec 4) (z : BitVec 1) (d a b : BitVec 6) (s : State), s.OnCore .v → s.Unwindowed →
    let k := s.core
    let x := k.place mapVd d
    let y := k.otherPlace d
    let va := k.place mapVa a
    let vb := k.place mapVb b
    let act := s.now + k.lat 4 - 1
    let rows := [va, vb] ++ if p ≠ 0 ∧ z = 0 then [x, y] else []
    let s1 := (s.checkRows rows).1
    let old (w : Place) (j : Nat) : Nat := if z = 1 then 0 else k.lane w 1 j
    (k.allocated x.bank = true → (k.bank x.bank).type = 1) → (∀ r ∈ rows, s.RowReadable r) →
    ∃ (u : State) (bx bY : List Byte), exec (.vaddc g p z d a b) s = .next u ∧
      holdsLanes bx 4 64 (fun j => if (k.selected p).getLsbD j then fAdd 1 (k.lane va 1 j) (k.lane vb 1 j) else old x j) ∧
      holdsLanes bY 4 64 (fun j => if (k.selected p).getLsbD j then addcError (k.lane va 1 j) (k.lane vb 1 j) else old y j) ∧
      s1.Schedules u ((s1.core.erRecord .acc x.addr (x.addr + 256) act s.org).erRecord .acc y.addr (y.addr + 256) act s.org)
        [s.latch act (.row x.bank x.row bx), s.latch act (.row y.bank y.row bY)]

/-- R195: VCVT converts as many lanes as both types have, under the predicate, and the lanes above them are zero. -/
def Obligations.VcvtConverts : Prop :=
  ∀ (g : BitVec 3) (p : BitVec 4) (z : BitVec 1) (d a : BitVec 6) (t : BitVec 1) (m : BitVec 3) (s : State),
    s.OnCore .v → s.Unwindowed →
    let k := s.core
    let x := k.place mapVd d
    let va := k.place mapVa a
    let td := k.destType x.bank
    let ts := k.sourceType va.bank x.bank
    let act := s.now + k.lat 3 - 1
    let rows := [va] ++ if p ≠ 0 ∧ z = 0 then [x] else []
    let s1 := (s.checkRows rows).1
    elemSize td ≠ 0 → elemSize ts ≠ 0 → (∀ r ∈ rows, s.RowReadable r) →
    ∃ (u : State) (bs : List Byte), exec (.vcvt g p z d a t m) s = .next u ∧
      holdsLanes bs (elemSize td) (laneCount td) (fun j =>
        if laneCount ts ≤ j then 0
        else if (k.selected p).getLsbD j then convert ts td (rmodeOf m) (decide (t = 1)) (k.lane va ts j)
        else if z = 1 then 0 else k.lane x td j) ∧
      s1.Schedules u (s1.core.erRecord .acc x.addr (x.addr + 256) act s.org) [s.latch act (.row x.bank x.row bs)]

/-- R192: VCMP writes pd two latencies on: each active lane's bit tells whether the condition holds, an inactive lane
keeps its bit, and bits above the lanes are zero. -/
def Obligations.ComparesWritePredicates : Prop :=
  ∀ (i : Instr) (s : State) (c : Cond) (p : BitVec 4) (d a b : BitVec 6), compareOf i = some (c, p, d, a, b) →
    s.OnCore .v → s.Unwindowed →
    let k := s.core
    let va := k.place mapVa a
    let vb := k.place mapVb b
    let t := k.sourceType va.bank vb.bank
    let s1 := (s.checkRows [va, vb]).1
    elemSize t ≠ 0 → (∀ r ∈ [va, vb], s.RowReadable r) →
    ∃ (u : State) (v : Mask), exec i s = .next u ∧
      (∀ j, v.getLsbD j = (decide (j < laneCount t) &&
        if (k.selected p).getLsbD j then c.holds t (k.lane va t j) (k.lane vb t j) else (k.predReg d.toNat).getLsbD j)) ∧
      s1.Schedules u s1.core [s.latch (s.now + k.lat 2) (.pred d.toNat v)]

/-- R194: the predicate words write pd, renamed by the predicate base, one latency on, and read no row. -/
def Obligations.PredicateWordsWrite : Prop :=
  ∀ (i : Instr) (s : State) (d : BitVec 7) (f : Nat → Bool), predicateOf s.core i = some (d, f) → s.Unwindowed →
    ∃ (t : State) (v : Mask), exec i s = .next t ∧ (∀ j, j < 256 → v.getLsbD j = f j) ∧
      s.Schedules t s.core [s.latch (s.now + s.core.lat 1) (.pred (s.core.physPred d.toNat) v)]

/-- R203 to R205, R333: a load of lanes whose addresses are good and whose rows may be read schedules its one sample, of
exactly the active lanes' bytes, over the merged row, or its base register's residue fault on the sample's beat; with no
active lane the merged row alone is scheduled. -/
def Obligations.LaneLoadsSample : Prop :=
  ∀ (i : Instr) (s : State) (x : LaneAccess), laneLoadOf s.core i = some x → s.OnCore .v → s.Unwindowed →
    let k := s.core
    let r := k.place mapVd x.d
    let e := elemSize (k.destType r.bank)
    let rows := x.rows ++ if x.p ≠ 0 ∧ x.z = 0 then [r] else []
    let s1 := (s.checkRows rows).1
    let act := s.now + k.lat x.beats - 1
    let on := k.actives x.p (256 / e)
    e ≠ 0 → (∀ y ∈ rows, s.RowReadable y) → x.Ok k e →
    ∃ (u : State) (base : List Byte), exec i s = .next u ∧
      holdsLanes base e (256 / e) (fun j =>
        if (k.selected x.p).getLsbD j = false ∧ x.z = 1 then 0 else k.lane r (k.destType r.bank) j) ∧
      s1.Schedules u (s1.core.erRecord .acc r.addr (r.addr + 256) act s.org) [
        if on = [] then s.latch act (.row r.bank r.row base)
        else s.latch (s.now + k.lat 3) (.loadRow r.bank r.row base
          (on.flatMap fun j => (List.range e).map fun b => (e * j + b, x.addr e j + b)) act x.cls.toNat) (x.mismatch k e)]

/-- R203 to R206: a store of lanes whose addresses are good and whose rows may be read schedules one write, of exactly
the active lanes' bytes at their addresses; with no active lane it schedules nothing, whatever its base register
carries. -/
def Obligations.LaneStoresSchedule : Prop :=
  ∀ (i : Instr) (s : State) (x : LaneAccess), laneStoreOf s.core i = some x → s.OnCore .v → s.Unwindowed →
    let k := s.core
    let r := k.place mapVd x.d
    let e := elemSize (k.destType r.bank)
    let s1 := (s.checkRows (r :: x.rows)).1
    let act := s.now + k.lat x.beats
    let on := k.actives x.p (256 / e)
    let cells : List Host.Cell := on.flatMap fun j => (List.range e).map fun b =>
      (x.addr e j + b, if k.allocated r.bank then Mem.byte k.acc (r.addr + (e * j + b)) else 0)
    e ≠ 0 → (∀ y ∈ r :: x.rows, s.RowReadable y) → x.Ok k e → (on ≠ [] → x.mismatch k e = none) →
    ∃ (u : State) (k1 : Core), exec i s = .next u ∧
      k1 = { s1.core with status := k1.status, stuck := k1.stuck, ertab := k1.ertab, latches := k1.latches } ∧
      (s.core.erchk = false → k1 = s1.core) ∧
      s1.Schedules u k1 (if on = [] then [] else [s.latch act (.store .spad cells x.cls.toNat [])])

/-- R207, R210: VBIND names a window's bank or sets the operand map, for words that issue two latencies on. PROT moves the
rotation bases from b+1, and is a loop conflict while a modulo loop runs. -/
def Obligations.BindingsTakeEffectLater : Prop :=
  ∀ (g : BitVec 3) (k : BitVec 6) (m : BitVec 3) (s : State), s.Unwindowed →
    let act := s.now + s.core.lat 2
    (∃ t, exec (.vbindV g k) s = .next t ∧ s.Schedules t s.core [s.latch act (.bindWin false k.toNat)]) ∧
    (∃ t, exec (.vbindW g k) s = .next t ∧ s.Schedules t s.core [s.latch act (.bindWin true k.toNat)]) ∧
    (∃ t, exec (.vbindMap g m) s = .next t ∧ s.Schedules t s.core [s.latch act (.omap m)]) ∧
    (s.core.v.mloop = none → s.core.m.mloop = none →
      ∃ t, exec (.prot g m) s = .next t ∧ s.Schedules t s.core [s.latch (s.now + 1) (.prot m)]) ∧
    ((s.core.v.mloop.isSome ∨ s.core.m.mloop.isSome) → exec (.prot g m) s = .next (s.raise .loopConflict))

/-- R47, R62 to R65, R209: an MLOOP of a compute track beside which no other loop runs clears the rotation bases and p64 to
p127 and begins its loop at the next word, which waits its GAP; a count of 0 counts one run and skips the kernel. As a beat
of a running step begins, the loops of both compute tracks turn: passes begin, with their rotation, pass register and stage
predicate, and a loop whose passes are done ends (Core.LoopTurns); the track's own way round the kernel is Core.Falls, which
every word brings about as it falls through. -/
def Obligations.MloopBegins : Prop :=
  (∀ (g : BitVec 3) (l k r : BitVec 5) (st n : BitVec 6) (s : State), (s.cur.track = .v ∨ s.cur.track = .m) →
    s.cur.svc = false → s.Plain → s.Unwindowed →
    let o := s.core.track (otherCompute s.cur.track)
    o.mloop = none → (∀ x, o.loopAt = some x → x.1 ≠ s.now) →
    let begun (trip : Nat) (t : State) : Prop :=
      let regs := loopRegs s.cur.track
      s.OnlyUnit t ∧
      t.core = { s.core with rb := 0, pb := 0, preds := t.core.preds, kregs := t.core.kregs, v := t.core.v, m := t.core.m } ∧
      (∀ j, t.core.predReg j = if 64 ≤ j ∧ j < 128 then 0 else s.core.predReg j) ∧
      (∀ j, t.core.kreg j = if trip ≠ 0 then s.core.kreg j else if j = regs.1 then s.core.kreg j + 1 else if j = regs.2 then 0
        else s.core.kreg j) ∧
      (∀ f, f ≠ s.cur.track → t.core.track f = s.core.track f) ∧
      t.track = { s.track with
        pc := if trip = 0 then s.track.pc + 1 + (k.toNat + 1) else s.track.pc + 1
        mloop := if trip = 0 then s.track.mloop else some {
          ii := l.toNat + 1, stages := st.toNat + 1, k := k.toNat + 1, n := trip, body := s.track.pc + 1, pass := 0, next := 0,
          opp := 0, joint := false }
        loopAt := some (s.now, l.toNat + 1, st.toNat + 1, trip), fresh := true, checker := none, join := s.joinLeft
        resync := s.resyncLeft, wait := t.core.gapHere s.cur.track s.source }
    (∃ t, exec (.mloop g l st k n) s = .next t ∧ begun n.toNat t) ∧
    ((s.core.sreg r).toNat ≤ 65535 → ∃ t, exec (.mloopReg g l st k r) s = .next t ∧ begun (s.core.sreg r).toNat t)) ∧
  ∀ (p r c : Nat) (s : State), s.Begins p →
    let q := s.partAt p
    q.issuing = true → q.ropes.Nodup → (r, c) ∈ q.coreIds →
    ∃ (t : State) (k0 k1 : Core), step s = .next t ∧ (t.partAt p).topo = q.topo ∧
      (let k := s.coreAt r c
       let k' := t.coreAt r c
       k0 = { k with
         copies := k'.copies, s := { k.s with belay := k'.s.belay }, v := { k.v with held := k'.v.held },
         m := { k.m with held := k'.m.held }, c := { k.c with held := k'.c.held } }) ∧
      k0.LoopTurns k1 .v q.topo ∧ k1.LoopTurns (t.coreAt r c) .m q.topo

/-! ## The M track -/

/-- R212 to R215: a tile word whose rings, bank, array and heads are as its checks ask starts: it occupies the array,
fixes its addresses, formats and scales, leaves one pop of each ring, and changes nothing else. -/
def Obligations.TileWordsStart : Prop :=
  ∀ (i : Instr) (s : State) (w : ArrayWord) (rows : Nat), tileOf s.core i = some (w, rows) → s.Unwindowed →
    w.Ready s.core s.now 1 →
    ∃ (t : State) (k1 : Core), exec i s = .next t ∧
      s.Started s.core k1 (w.op s [{ addr := headAddr (s.core.qreg w.b) 0, first := 0, count := rows }] rows none) ∧
      s.Schedules t k1 [s.latch s.arrayEnd (.ringPop w.a 1), s.latch s.arrayEnd (.ringPop w.b 1)]

/-- R216, R217: MGRP with a legal group table of G groups starts over the first G entries of ring B and pops them all;
its table takes its scratchpad bank on b. An illegal table is the group-bounds fault, also where a check that R212 or R68
gives would fail besides: that order is the model's choice (log entry 31). -/
def Obligations.GroupWordsStart : Prop :=
  ∀ (i : Instr) (s : State) (w : ArrayWord) (a : BitVec 5), groupOf s.core i = some (w, a) → s.OnCore .m → s.Unwindowed →
    let k := s.core
    let ea := (k.sreg a).toNat
    let byte (j : Nat) : Nat := (Mem.byte k.spad (ea + j)).toNat
    let groups := byte 8
    let counts := (List.range groups).map byte
    let legal : Prop := groups ≤ 8 ∧ (∀ j, j < 8 → byte j ≤ 64) ∧ ((List.range 8).map byte).sum ≤ 64 ∧
      (∀ j, groups ≤ j → j < 8 → byte j = 0) ∧ ∀ j, 9 ≤ j → j < 16 → byte j = 0
    let kr : Core := { k with ports := k.ports ++ [{ kind := .spadBank, bank := ea / 0x4000, org := s.org }] }
    k.erchk = false → k.tableOk a 16 → eccOver k.spadEcc 8 ea 16 = 0 →
    (∀ u ∈ k.ports, u.kind = .spadBank → u.bank ≠ ea / 0x4000) → 16 ≤ field (k.qreg w.a) 32 8 → 16 ≤ field (k.qreg w.b) 32 8 →
    (¬ legal → ∃ u : State, s.OnlyUnit u ∧ u.core = kr ∧ exec i s = .next (u.raise .groupBounds ea)) ∧
    (legal → groups ≤ 2 ^ field (k.qreg w.b) 44 4 → w.Ready k s.now groups →
      ∃ (t : State) (k1 : Core) (tiles : List BTile), exec i s = .next t ∧
        tiles = (List.range groups).map (fun u =>
          { addr := headAddr (k.qreg w.b) u, first := (counts.take u).sum, count := byte u }) ∧
        s.Started kr k1 (w.op s tiles counts.sum (some ea)) ∧
        s.Schedules t k1 (s.latch s.arrayEnd (.ringPop w.a 1) ::
          if groups = 0 then [] else [s.latch s.arrayEnd (.ringPop w.b groups)]))

/-- R218 to R228: the other M words, where they run, schedule their effects and change nothing else but the open pitch,
which retains them, RAMP's own record, and the early-read table for the rows that MZERO and BFREE zero; an MSCALE whose
address register carries a wrong residue schedules that fault for its sample's beat. TSTART opens a new pitch. -/
def Obligations.MatrixControlsSchedule : Prop :=
  (∀ (i : Instr) (s : State) (w : MatrixWord), matrixWordOf s i = some w → s.Unwindowed → w.ok →
    ∃ (t : State) (k1 : Core), exec i s = .next t ∧
      k1 = { s.core with
        pitch := k1.pitch, ertab := k1.ertab, status := k1.status, stuck := k1.stuck, latches := k1.latches
        ramps := if w.ramp then s.now :: s.core.ramps else s.core.ramps
        tele := if w.ramp then { s.core.tele with ramps := s.core.tele.ramps + 1 } else s.core.tele } ∧
      (s.core.erchk = false → k1.ertab = s.core.ertab ∧ k1.status = s.core.status ∧ k1.latches = s.core.latches) ∧
      s.Schedules t k1 (w.effects.map fun e => s.latch e.1 e.2 w.bad)) ∧
  ∀ (g : BitVec 3) (s : State), s.Unwindowed →
    ∃ t, exec (.tstart g) s = .next t ∧ s.Schedules t { s.core with pitch := Pitch.empty } []

/-! ## The C track -/

/-- R230 to R237, R243, R246: a copy word whose descriptors, geometry and start buffer pass, and whose device end, if it
has one, lies in one page that the rope's cache holds, leaves its copy in flight and changes nothing else; CPYQ also
takes its ring's tail entry. -/
def Obligations.CopyWordsLaunch : Prop :=
  ∀ (i : Instr) (s : State) (x : CopyCall), copyOf s i = some x → x.Ok s →
    ∀ pa : Nat,
      (∀ d, x.device = some d →
        s.translate s.cur.part s.cur.rope d.1.addr d.2 (!d.2) = .hit pa ∧
        s.onePage s.cur.part s.cur.rope d.1.addr d.1.bytes = true) →
    ∃ (t : State) (c : Copy), exec i s = .next t ∧ x.Left s c pa ∧
      ({ s with caches := t.caches } : State).Schedules t
        { s.core with copies := s.core.copies ++ [c], pitch := t.core.pitch }
        (match i with
          | .cpyq _ q _ _ _ => [s.latch s.now (.ringPush q.toNat)]
          | _ => []) ∧
      (x.device = none → t.caches = s.caches)

/-- R238 (with R79, R80, R95): SEND and RECV whose descriptor passes open their lane operation and change nothing else but the
pitch that SEND closes and the early-read table that RECV's flits enter. Flit i of a SEND is sampled with the samples of beat
b + 1 + i: 64 bytes as they stand, zeros of an unallocated bank, and the flit is on its way to the core H steps on, where it
arrives H + 1 beats later; a band of another owner raises a fault, and the SEND is over. -/
def Obligations.LaneWordsOpen : Prop :=
  (∀ (g l h : BitVec 3) (r : BitVec 1) (k : BitVec 6) (x : BitVec 5) (s : State),
    let v := s.core.dreg x.toNat
    laneDesc v (k.toNat + 1) →
    (∃ t, exec (.send g l r h k x) s = .next t ∧
      s.Schedules t { s.core with
        pitch := Pitch.empty
        sends := s.core.sends ++ [{ org := s.org, lane := l.toNat, acw := decide (r = 1), hops := h.toNat, count := k.toNat + 1,
                                    sp := localSpace (field v 62 2), addr := field v 0 48, next := 0 }] } []) ∧
    ∃ (t : State) (k1 : Core), exec (.recv g l r k x) s = .next t ∧
      k1 = { s.core with
        ertab := k1.ertab, status := k1.status, stuck := k1.stuck, latches := k1.latches
        recvs := s.core.recvs ++ [{ org := s.org, lane := l.toNat, acw := decide (r = 1), count := k.toNat + 1,
                                    sp := localSpace (field v 62 2), addr := field v 0 48, next := 0 }] } ∧
      (s.core.erchk = false → k1.ertab = s.core.ertab ∧ k1.status = s.core.status ∧ k1.latches = s.core.latches) ∧
      s.Schedules t k1 []) ∧
  ∀ (p r c : Nat) (x : SendOp) (found : Option (List Byte × List Nat)) (s : State), s.Samples p →
    let topo := (s.partAt p).topo
    let a := x.addr + 64 * x.next
    (r, c) ∈ (s.partAt p).coreIds → x ∈ (s.coreAt r c).sends → (∀ y ∈ (s.coreAt r c).sends, y.org = x.org → y = x) →
    ∃ t, step s = .next t ∧ (t.partAt p).topo = topo ∧ (t.partAt p).mark = 3 ∧
      (topo < x.org.issue + 1 + x.next → (t.partAt p).fault = none → x ∈ (t.coreAt r c).sends) ∧
      (x.org.issue + 1 + x.next = topo → s.Meets r c x.sp a 64 2 found →
        (∀ bs ps, found = some (bs, ps) →
          { org := x.org, lane := x.lane, acw := x.acw, hops := x.hops, rope := r,
            dst := if x.acw = true then (c + 8 - x.hops % 8) % 8 else (c + x.hops) % 8,
            arrive := topo + 1 + x.hops, bytes := bs, poison := !ps.isEmpty : Flit } ∈ (t.partAt p).flits ∧
          (x.next + 1 < x.count → { x with next := x.next + 1 } ∈ (t.coreAt r c).sends) ∧
          (x.sp = .acc → (s.coreAt r c).allocated (a / 0x4000) = false → (t.coreAt r c).status.getLsbD 0 = true)) ∧
        (found = none → (t.partAt p).fault.isSome = true ∧ ∀ y ∈ (t.coreAt r c).sends, y.org ≠ x.org))

/-- R239 to R242, R368 (with R79, R80): a collective that its checks pass enters the core's list as PENDING (or with the
number that had come before it), counts one more occurrence of its tag and sends its request to the sequencer. Its source
chunk j is sampled with the samples of beat b + 1 + j: 256 bytes as they stand, zeros of an unallocated bank, and one in
a band of another owner's raises the fault and ends the sampling. The model's choices: that the request names the group's
chips (log entry 53), that a number that came before it is known at once (log entry 72), and that a refused chunk leaves the
collective dropped, as an abandonment does (log entry 33). -/
def Obligations.CollectivesEnter : Prop :=
  (∀ (i : Instr) (s : State) (fn : Nat) (d a p : BitVec 5) (gr : Group), collOf i = some (fn, d, a, p) →
    let dv := s.core.dreg d.toNat
    let sv := s.core.dreg a.toNat
    let x := s.core.dreg p.toNat
    let y := s.core.dreg (p.toNat + 1)
    let tag := field x 16 16
    s.pod.groups.find? (fun r => decide (r.part = s.cur.part) && decide (r.group = field x 8 8)) = some gr →
    collFits s fn gr.members.length dv sv x y → s.core.erchk = false →
    ∃ (t : State) (c : CollOp), exec i s = .next t ∧
      c.org = s.org ∧ c.shape = { fn := fn, type := field x 0 6, chunks := field y 0 17, root := field y 32 12 } ∧
      c.key.group = field x 8 8 ∧ c.key.tag = tag ∧ c.key.occurrence = s.occurrence s.cur.part (field x 8 8) tag ∧
      c.dst = field dv 0 48 ∧ c.src = field sv 0 48 ∧ c.dstSpace = localSpace (field dv 62 2) ∧
      c.srcSpace = localSpace (field sv 62 2) ∧ c.due = s.part.step.anchor + field x 32 32 ∧ c.next = 0 ∧ c.rank = gr.rank ∧
      c.size = gr.members.length ∧ c.entered = false ∧ c.start = s.now ∧ c.withdrawn = false ∧ c.dropped = false ∧ c.bytes = [] ∧
      c.poison = [] ∧ c.raw = [dv, sv, x, y] ∧
      (∀ n, s.fabric.numbers.find? (fun e => decide (e.key = c.key)) = some n → n.nullStatus = 0 →
        c.status = 2 ∧ c.number = some n.number ∧ c.gen = n.gen) ∧
      ((∀ n ∈ s.fabric.numbers, n.key ≠ c.key) → c.status = 1 ∧ c.number = none ∧ c.started = false ∧ c.result = none) ∧
      ({ s with fabric := t.fabric, out := t.out, own := t.own } : State).Schedules t
        { s.core with colls := s.core.colls ++ [c], pitch := Pitch.empty } [] ∧
      t.fabric = { s.fabric with occurrences := t.fabric.occurrences } ∧
      t.occurrence s.cur.part (field x 8 8) tag = s.occurrence s.cur.part (field x 8 8) tag + 1 ∧
      (let m := OutMsg.request s.fabric.seqChip s.pod.chip s.cur.part c.key c.shape gr.chips
       if s.fabric.seqChip = s.pod.chip then t.own = s.own ++ [m] ∧ t.out = s.out else t.own = s.own ∧ t.out = s.out ++ [m])) ∧
  ∀ (p r c : Nat) (x : CollOp) (found : Option (List Byte × List Nat)) (s : State), s.Samples p →
    let topo := (s.partAt p).topo
    (r, c) ∈ (s.partAt p).coreIds → x ∈ (s.coreAt r c).colls → (∀ y ∈ (s.coreAt r c).colls, y.org = x.org → y = x) →
    x.dropped = false → x.next < x.shape.chunks → x.org.issue < topo →
    ∃ t, step s = .next t ∧ (t.partAt p).topo = topo ∧ (t.partAt p).mark = 3 ∧
      let has (y : CollOp) : Prop := { y with entered := true } ∈ (t.coreAt r c).colls
      (topo < x.start + 1 + x.next → has x) ∧
      (x.start + 1 + x.next = topo → s.Meets r c x.srcSpace (x.src + 256 * x.next) 256 1 found →
        (∀ bs ps, found = some (bs, ps) →
          has { x with next := x.next + 1, bytes := x.bytes ++ bs, poison := x.poison ++ ps.map fun i => 4 * x.next + i }) ∧
        (found = none → (t.partAt p).fault.isSome = true ∧
          has { x with dropped := true }))

/-- R242, R248: COLLQ, DLI and DSET write their d register on b+1, DGET its s register, in either gear. -/
def Obligations.DescriptorWordsWrite : Prop :=
  ∀ (g : BitVec 3) (d a : BitVec 5) (n : BitVec 2) (i : BitVec 16) (s : State),
    (let named (c : CollOp) : Bool :=
        decide (c.key.group = field (s.core.dreg a.toNat) 8 8) && decide (c.key.tag = field (s.core.dreg a.toNat) 16 16)
     ∃ (t : State) (v : W64), exec (.collq g d a) s = .next t ∧ s.Schedules t s.core [s.latch (s.now + 1) (.dreg d.toNat v)] ∧
      (s.core.colls.filter named = [] → v = 0) ∧
      ∀ c, (s.core.colls.filter named).getLast? = some c → c.status < 256 → c.number.getD 0 < 65536 →
        v.extractLsb' 32 8 = .ofNat 8 c.gen ∧ v.extractLsb' 24 8 = .ofNat 8 c.status ∧
        v.extractLsb' 0 24 = if c.status ≤ 1 then 0 else .ofNat 24 (c.number.getD 0)) ∧
    (∃ (t : State) (v : W64), exec (.dli g d n i) s = .next t ∧ s.Schedules t s.core [s.latch (s.now + 1) (.dreg d.toNat v)] ∧
      ∀ j, j < 64 → v.getLsbD j = if j / 16 = n.toNat then i.getLsbD (j % 16) else (s.core.dreg d.toNat).getLsbD j) ∧
    (∃ t, exec (.dset g d a) s = .next t ∧ s.Schedules t s.core [s.latch (s.now + 1) (.dreg d.toNat (s.core.sreg a))
        (s.core.dataMismatch a)]) ∧
    ∃ t, exec (.dget g d a) s = .next t ∧
      s.Schedules t s.core [s.latch (s.now + 1) (.sreg d.toNat (s.core.dreg a.toNat) (residueOf (s.core.dreg a.toNat)))]

/-- R47, R235: CLOOP and CLOOP.R, outside macro entries and loops, over a body without an MCALL, begin its count trips at the
next word, which waits its GAP; a count of 0 skips it. How a trip ends, back at the body or beyond it, is Core.Falls, which
every word of the body brings about as it falls through (Schedules, IdleOnlyWaits). -/
def Obligations.CloopsBegin : Prop :=
  ∀ (g : BitVec 3) (l r : BitVec 5) (n : BitVec 17) (s : State), s.cur.track = .c → s.Plain → s.track.cloop = none →
    let body := s.track.pc + 1
    let len := l.toNat + 1
    let begun (trip : Nat) (t : State) : Prop :=
      s.OnlyUnit t ∧ t.core = { s.core with c := t.core.c } ∧ t.track = { s.track with
        pc := if trip = 0 then body + len else body
        cloop := if trip = 0 then none else some { body := body, len := len, count := 0, trip := trip }
        fresh := true, checker := none, join := s.joinLeft, resync := s.resyncLeft, wait := t.core.gapHere .c s.source }
    (∀ j, body ≤ j → j < body + len → ∀ w, s.source j = some w → w.extractLsb' 23 6 ≠ 4) →
    (∃ t, exec (.cloop g l n) s = .next t ∧ begun n.toNat t) ∧
    ((s.core.sreg r).toNat ≤ 16777215 → ∃ t, exec (.cloopReg g l r) s = .next t ∧ begun (s.core.sreg r).toNat t)

/-! ## Commands, hosts and loads -/

/-- R23, R34, R281, R282, R329: a command of a resident context's ring is consumed, changes no core and no service
context, and acts as its description says at once. ACTIVATE from another state moves every stream's N to Q at lag 0 (from
INACTIVE that is the model's reading, log entry 45), and from PARKED or FAULTED notes the N that the listening entries are
judged by. -/
def Obligations.CommandsAct : Prop :=
  ∀ (c p i : Nat) (s : State), s.resOf c = some (p, i) → ((s.partAt p).res i).ctx = c →
    let r := (s.partAt p).res i
    let taken (t : State) : Prop :=
      ((t.partAt p).res i).head = (r.head + 1) % 2 ^ 32 ∧ ((t.partAt p).res i).tail = r.tail ∧
        (t.partAt p).step.applied = (s.partAt p).step.applied + 1 ∧ t.cores = s.cores ∧ t.svcs = s.svcs
    (∀ (image : Nat) (im : JobImage), s.parseImage p (if image = 0 then s.desc c 8 8 else image) = some im →
      ∃ t, exec (.activate c image) s = .next t ∧ taken t ∧ ((t.partAt p).res i).state = .active ∧
        ((t.partAt p).res i).fresh = true ∧ ((t.partAt p).res i).loading = true ∧ ((t.partAt p).res i).loaded = false ∧
        (r.state = .parked ∨ r.state = .faulted → (∀ sid, sid ≤ 511 → s.active c sid = true → s.Apart c (s.stream c sid 80 8 + 1024) 8) →
          s.Apart c (s.ctxDesc c + 256) 0 →
          ((t.partAt p).res i).restore = (s.actives c).map fun sid => (sid, s.stream c sid 16 8)) ∧
        (r.state = .active → ((t.partAt p).res i).lag = r.lag ∧ ∀ sid f n, t.stream c sid f n = s.stream c sid f n) ∧
        (r.state ≠ .active → ((t.partAt p).res i).lag = 0 ∧
          ((∀ sid, sid ≤ 511 → s.active c sid = true → s.Apart c (s.stream c sid 80 8 + 1024) 8) →
            ∀ sid, sid ≤ 511 → s.active c sid = true →
              t.stream c sid 8 8 = s.stream c sid 16 8 ∧ t.stream c sid 16 8 = s.stream c sid 16 8))) ∧
    (∃ t, exec (.deactivate c) s = .next t ∧ taken t ∧ ((t.partAt p).res i).state = .inactive) ∧
    (∀ (sid llog lring lwp spk play : Nat), sid ≤ 511 → s.stream c sid 0 1 ≠ 1 → s.stream c sid 0 1 ≠ 2 →
      s.Apart c (spk % 2 ^ 64 + 1024) 8 →
      (∃ t, exec (.streamAdd c sid llog true lring lwp spk play) s = .next t ∧ taken t ∧ t.stream c sid 0 1 = 3 ∧
        t.stream c sid 1 1 = llog % 2 ^ 8 ∧ t.stream c sid 64 8 = lring % 2 ^ 64 ∧ t.stream c sid 72 8 = lwp % 2 ^ 64 ∧
        t.stream c sid 80 8 = spk % 2 ^ 64 ∧ t.stream c sid 88 8 = play % 2 ^ 64) ∧
      ∃ t, exec (.streamAdd c sid llog false lring lwp spk play) s = .next t ∧ taken t ∧ t.active c sid = true ∧
        t.stream c sid 2 2 = 0xFFFF ∧ t.stream c sid 4 2 = sid ∧ t.stream c sid 8 8 = 0 ∧
        t.stream c sid 16 8 = r.lag % 2 ^ 64 ∧ t.stream c sid 24 4 = r.lag % 2 ^ 32 ∧ t.stream c sid 80 8 = spk % 2 ^ 64) ∧
    (∀ sid : Nat, sid ≤ 511 → s.active c sid = true →
      (∃ t, exec (.streamReset c sid) s = .next t ∧ taken t ∧ sid ∈ ((t.partAt p).res i).resets ∧
        (c, sid) ∈ (t.partAt p).reclaiming ∧ (c, sid) ∈ (t.partAt p).zeroing) ∧
      (∃ t, exec (.streamEnd c sid) s = .next t ∧ taken t ∧ (c, sid) ∈ (t.partAt p).reclaiming ∧
        (c, sid) ∈ (t.partAt p).zeroing ∧ sid ∉ ((t.partAt p).res i).resets) ∧
      ∀ key : W64, ∃ t, exec (.keySet c sid key) s = .next t ∧ taken t ∧
        Holds s.mem t.mem (s.desc c 72 8 + 128 * sid + 48) ((List.range 8).map fun j => key.extractLsb' (8 * j) 8)) ∧
    (∀ (epoch table count : Nat),
      let rows := (List.range count).map fun k =>
        let e := Mem.nat s.mem (table + 4 * k) 4
        { us := e % 2 ^ 17, owner := if e / 2 ^ 31 = 1 then none else some (e / 2 ^ 24 % 2 ^ 5) : SlotRow }
      s.gridOk c = true → 1 ≤ count → count ≤ 64 → (∀ x ∈ rows, 50 ≤ x.us ∧ x.us ≤ 100000) →
      ∃ t, exec (.gridSet c epoch table count) s = .next t ∧ taken t ∧ (t.partAt p).newGrid = some (epoch, rows) ∧
        t.mem = s.mem) ∧
    ∀ (count : Nat) (codes : List Nat), codes.length = 24 →
      ∃ t, exec (.fillSet c count codes) s = .next t ∧ taken t ∧
        Mem.nat t.mem (s.ctxDesc c + 80) 1 = min 24 count ∧
        (∀ k, k < 24 → Mem.nat t.mem (s.ctxDesc c + 88 + 2 * k) 2 = codes.getD k 0 % 2 ^ 16) ∧
        ∀ a, a ≠ s.ctxDesc c + 80 → (a < s.ctxDesc c + 88 ∨ s.ctxDesc c + 136 ≤ a) → Mem.byte t.mem a = Mem.byte s.mem a

/-- R271, R273, R274, R276, R279, R285: a packet is taken when it is of ROD or RUD and of AI Base and the host table
names its peer (its device and port, log entry 55); another is discarded and counted at its port. Of a packet that is
taken, a memory write stores exactly its bytes below 80 GiB (log entry 13), but for the bits of translation entries that
are read only (R5, R318; log entry 103); a CTXBASE
write sets CTXBASE with its low 8 bits zero (log entry 14); a RESMAP write that is not ignored waits for the frame start
(which are ignored: log entry 29), and an ignored one, and a write of any other system register, changes nothing; an
accepted notify sets TAIL and EVCONS, an ignored TAIL changes no partition, and of a context that is not resident a notify
sets its pending bit; a read of a notify register returns TAIL and HEAD, of a system register its value, and of any other
place or size zero. A window write acts as its register's row. -/
def Obligations.HostAccessesAct : Prop :=
  ∀ (k : Packet) (p c n i addr off size : Nat) (v : W64) (bs : List Byte) (s : State),
    let taken : Prop := (k.mode = .rod ∨ k.mode = .rud) ∧ k.aiBase = true ∧ s.hosts.contains k.peer = true
    (¬ taken →
      let d : State := { s with discards := SMap.set 0 s.discards k.port (SMap.get 0 s.discards k.port + 1) }
      exec (.notifyWrite k c v) s = .next d ∧ exec (.resmapWrite k p i v) s = .next d ∧
        exec (.systemRegisterWrite k p n v) s = .next d ∧ exec (.hostWrite k addr bs) s = .next d ∧
        s.arrival (.windowRead k off size) = some { st := d, ins := none } ∧
        s.arrival (.memoryRead k addr size) = some { st := d, ins := none }) ∧
    (taken →
      let reads (o z : Nat) (xs : List Byte) : Prop :=
        s.arrival (.windowRead k o z) = some { st := { s with out := s.out ++ [.readData k xs], free := s.free + 1 }, ins := none }
      (∃ t, exec (.hostWrite k addr bs) s = .next t ∧ t = { s with mem := t.mem, memEcc := t.memEcc, tails := t.tails } ∧
        (∀ j, j < bs.length → addr + j < 80 * 2 ^ 30 → s.Sets .dev s.mem t.mem (addr + j) (bs.getD j 0)) ∧
        ∀ x, (x < addr ∨ addr + bs.length ≤ x ∨ 80 * 2 ^ 30 ≤ x) → Mem.byte t.mem x = Mem.byte s.mem x) ∧
      (p < s.nparts →
        exec (.systemRegisterWrite k p 3 v) s = .next { s with ctxbase := some (v.toNat / 256 * 256) } ∧
          (n ≠ 3 → (n < 0x20 ∨ 0x40 ≤ n) → exec (.systemRegisterWrite k p n v) s = .next s)) ∧
      (s.nparts ≤ p → exec (.systemRegisterWrite k p n v) s = .next s) ∧
      (s.nparts ≤ p ∨ 32 ≤ i ∨ s.mapBad p i v = true → exec (.resmapWrite k p i v) s = .next s) ∧
      (1024 ≤ c → exec (.notifyWrite k c v) s = .next s) ∧
      (p < s.nparts → i < 32 → s.mapBad p i v = false →
        ∃ t, exec (.resmapWrite k p i v) s = .next t ∧ SMap.find (t.partAt p).resmapNew i = some (mapWritten v) ∧
          (t.partAt p).resmap = (s.partAt p).resmap ∧ t.mem = s.mem ∧ t.cores = s.cores) ∧
      (c < 1024 →
        reads (8 * c) 8 (toLe 8 (s.desc c 32 4 + 2 ^ 32 * s.desc c 36 4)) ∧
        (s.resOf c = none → ∃ t, exec (.notifyWrite k c v) s = .next t ∧ SMap.get false t.pend c = true ∧ t.cores = s.cores) ∧
        ∀ q j, s.resOf c = some (q, j) →
          let r := (s.partAt q).res j
          let tail := v.toNat % 2 ^ 32
          let fits : Prop := 0 ≤ serial32 tail r.tail ∧ (tail + 2 ^ 32 - r.head % 2 ^ 32) % 2 ^ 32 ≤ 2 ^ s.desc c 24 1
          (fits → ∃ t, exec (.notifyWrite k c v) s = .next t ∧ ((t.partAt q).res j).tail = tail ∧ t.desc c 32 4 = tail ∧
            t.cores = s.cores ∧
            (0 ≤ serial32 (v.toNat / 2 ^ 32) (s.desc c 64 4) → t.desc c 64 4 = v.toNat / 2 ^ 32)) ∧
          (¬ fits → ∃ t, exec (.notifyWrite k c v) s = .next t ∧ t.parts = s.parts ∧ t.cores = s.cores)) ∧
      (p < 8 → n < 256 → reads (0x10000 + 0x800 * p + 8 * n) 8
        (if p < s.nparts then toLe 8 (s.sysReg p n).toNat else List.replicate 8 0)) ∧
      (off % 8 ≠ 0 ∨ size ≠ 8 ∨ (0x2000 ≤ off ∧ off < 0x10000) ∨ 0x14000 ≤ off → reads off size (List.replicate size 0))) ∧
    (bs.length = 8 →
      (c < 1024 → s.arrival (.windowWrite k (8 * c) bs) = some { st := s, ins := some (.notifyWrite k c (.ofNat 64 (leNat bs))) }) ∧
      (p < 8 → n < 256 → s.arrival (.windowWrite k (0x10000 + 0x800 * p + 8 * n) bs) = some { st := s, ins := some (
        if 0x20 ≤ n ∧ n < 0x40 then .resmapWrite k p (n - 0x20) (.ofNat 64 (leNat bs))
        else .systemRegisterWrite k p n (.ofNat 64 (leNat bs))) }))

/-- R277, R284, R320, R322, R328: the acknowledge of a context's oldest open event write sends the count that the write
made to EVCNT, and nothing is sent where no write is open; a finished load marks its resident LOADED with its image and
changes no memory; a running walk that finds a page the access may use leaves and gives its rope's cache the entry; one
that finds none refuses the accesses that wait for it. -/
def Obligations.OutsideWorkEnds : Prop :=
  (∀ (c : Nat) (s : State),
    ((∀ x ∈ s.evSent, x.1 ≠ c) → exec (.eventAck c) s = .next s) ∧
    ∀ n l l', s.evSent = l ++ (c, n) :: l' → (∀ x ∈ l, x.1 ≠ c) →
      exec (.eventAck c) s = .next { s with evSent := l ++ l', out := s.out ++ [.eventCount c (s.desc c 48 8) n] }) ∧
  (∀ (p i : Nat) (im : JobImage) (s : State), ((s.partAt p).res i).loading = true →
    s.parseImage p (s.desc ((s.partAt p).res i).ctx 8 8) = some im →
    ∃ t, exec (.jobLoadComplete p i) s = .next t ∧ ((t.partAt p).res i).loaded = true ∧
      ((t.partAt p).res i).loading = false ∧ ((t.partAt p).res i).image = im ∧ t.mem = s.mem) ∧
  ∀ (k : Nat) (w : Walk) (s : State), s.walks[k]? = some w → s.walkRuns k = true →
    let c := (SMap.get Resident.reset (s.partAt w.part).residents w.idx).ctx
    (∀ (big : Bool) (e : Nat),
      let z := if big then 2 ^ 21 else 2 ^ 16
      s.walkTables c w.va = .page big e → pageOk big e = true → w.allowed big e = true →
      ∃ t, exec (.walkComplete k) s = .next t ∧
        { idx := w.idx, big := big, va := w.va / z * z, pa := e / 2 ^ 12 % 2 ^ 25 * 2 ^ 12, w := e.testBit 3, r := e.testBit 2 : XlatEntry }
          ∈ SMap.get [] t.caches w.rope ∧
        ((s.partAt w.part).hold = none → t.walks = s.walks.eraseIdx k ∧ t.cores = s.cores)) ∧
    ∀ h, s.walkTables c w.va = .refuse → w.prefetch = none → (s.partAt w.part).hold = some h →
      (s.partAt w.part).step.resident = w.idx →
      (s.walks.eraseIdx k).any (fun x => decide (x.part = w.part)) = true →
      let bad := h.needs.filter fun n => decide (n.rope = w.rope) && decide (n.va / 2 ^ 16 = w.va / 2 ^ 16)
      exec (.walkComplete k) s = .next (({ s with walks := s.walks.eraseIdx k } : State).onPart w.part fun q =>
        { q with hold := some { h with refused := h.refused ++ bad } })

/-! ## The grid -/

/-- R15, R17, R18, R19, R27, R30, R32, R34, R294, R296, R306, R307: what the slot grid does to a partition: a slot or a
frame starts, TURN zeroes the cores and binds the step, the step commits sixteen beats after its rendezvous, the deadline
and the watchdog end a hold and abandon an open step, and a slot's end releases one entry of each active stream, also
where the counter stood through the whole slot, but none in a skipped slot; a miss raises the lag and parks at 8, and a
fault leaves the step's context, or of a service-level word every resident one, FAULTED. What the commit does to the
streams and what a released entry holds: CommitsAndReleasesAct. -/
def Obligations.GridEventsAct : Prop :=
  ∀ (p : Nat) (s : State),
    let q := s.partAt p
    (q.running = true → q.slotEnd ≤ s.wall → q.phase ≠ .gap →
      (q.slot + 2 < q.slots.length → ∃ t, exec (.slotStart p) s = .next t ∧ (t.partAt p).slot = q.slot + 1 ∧
        (t.partAt p).slotStart = q.slotEnd ∧ (t.partAt p).phase = .lead ∧ (t.partAt p).frame = q.frame ∧
        (t.partAt p).slotEnd = q.slotEnd + (q.slots.getD (q.slot + 1) ⟨0, none⟩).us * 10 ^ 9 ∧ t.cores = s.cores) ∧
      (q.slot + 2 = q.slots.length → ∃ t, exec (.slotStart p) s = .next t ∧ (t.partAt p).slot = q.slot + 1 ∧
        (t.partAt p).slotStart = q.slotEnd ∧ (t.partAt p).phase = .lead ∧ (t.partAt p).frame = q.frame ∧ (t.partAt p).shift = 0 ∧
        (t.partAt p).slotEnd = ((q.slotEnd : Int) + (q.slots.getD (q.slot + 1) ⟨0, none⟩).us * 10 ^ 9 + q.shift).toNat ∧
        t.cores = s.cores) ∧
      (q.slots.length = q.slot + 1 → q.newGrid = none → ∃ t, exec (.slotStart p) s = .next t ∧ (t.partAt p).slot = 0 ∧
        (t.partAt p).frame = q.frame + 1 ∧ (t.partAt p).slotStart = q.slotEnd ∧ (t.partAt p).frameStart = q.slotEnd ∧
        (t.partAt p).resmapNew = [] ∧ (t.partAt p).phase = .lead ∧ t.cores = s.cores)) ∧
    (q.phase = .lead → q.topo % 4 = 0 → ∃ t, exec (.turn p) s = .next t ∧ (t.partAt p).phase = .turn ∧
      (t.partAt p).step.turnBeat = q.topo ∧ (t.partAt p).step.bound = false ∧
      (q.plan ≠ none → ∀ x ∈ q.coreIds, let k := t.coreAt x.1 x.2
        let k0 := s.coreAt x.1 x.2
        k = { Core.reset with code := k0.code, codeEcc := k0.codeEcc, tele := k0.tele, low := k0.low, copies := k.copies })) ∧
    (∀ kind i, q.phase = .turn → q.step.bound = false → q.step.todo = [] → q.plan = some (kind, i) → q.step.releases = true →
      (q.res i).state = .active → q.deadlined = false →
      ∃ t, exec (.turn p) s = .next t ∧ (t.partAt p).step.bound = true ∧ (t.partAt p).step.outcome = .open_ ∧
        (t.partAt p).step.anchor = q.step.turnBeat + 2048 ∧ (t.partAt p).step.rdz = (q.res i).image.rdz ∧
        (t.partAt p).step.ctx = (q.res i).ctx ∧ (t.partAt p).step.csbase = (q.res i).csbase ∧
        (t.partAt p).step.cslen = (q.res i).cslen) ∧
    (q.phase = .run → q.step.outcome = .open_ → q.step.anchor + q.step.rdz + 16 ≤ q.topo →
      ∃ t, exec (.stepCommit p) s = .next t ∧ (t.partAt p).step.outcome = .committed ∧ (t.partAt p).stage = [] ∧
        (t.partAt p).speak = [] ∧ (t.partAt p).flip = false ∧ (t.partAt p).xstep = none ∧ t.cores = s.cores) ∧
    (q.running = true → q.deadlined = false → q.slotEnd ≤ s.wall + 20 * 10 ^ 9 →
      ∃ t, exec (.deadline p) s = .next t ∧ (t.partAt p).deadlined = true ∧
        (t.partAt p).hold = none ∧
        (q.step.outcome = .open_ ∧ (q.phase = .run ∨ q.phase = .turn ∧ q.step.bound = true) →
          (t.partAt p).step.outcome = .abandoned ∧ (t.partAt p).stage = [] ∧ (t.partAt p).speak = []) ∧
        (q.step.outcome ≠ .open_ → (t.partAt p).step = q.step) ∧ ∀ f ∈ (t.partAt p).frozen, f.step.outcome ≠ .open_) ∧
    (q.running = true → q.slotEnd ≤ s.wall → q.released = false → q.phase ≠ .gap →
      ∃ t, exec (.release p) s = .next t ∧ (t.partAt p).released = true ∧ (t.partAt p).fault = none ∧
        (t.partAt p).svcFault = false ∧
        (q.skipped = true → ∀ c sid bs, OutMsg.release c sid bs ∈ t.out → OutMsg.release c sid bs ∈ s.out) ∧
        (q.svcFault = true → ∀ i ∈ q.validIdx, ((t.partAt p).res i).state = .faulted) ∧
        ∀ i, q.frozen = [] → q.plan = some (.owned, i) →
          let ran : Prop := q.phase ≠ .lead ∧ q.step.bound = true
          (q.svcFault = false → ran → q.step.outcome = .faulted → ((t.partAt p).res i).state = .faulted) ∧
          (q.skipped = true → ((t.partAt p).res i).lag = (q.res i).lag) ∧
          ∀ missed : Prop, q.skipped = false →
            (ran ∧ q.step.releases = true ∧ (missed ↔ q.step.outcome ≠ .none ∧ q.step.outcome ≠ .committed)) ∨
              (q.phase = .lead ∧ (q.res i).loaded = true ∧ (q.res i).state ≠ .inactive ∧ (missed ↔ (q.res i).state = .active)) →
            (∀ sid ∈ s.actives (q.res i).ctx, ∃ bs, OutMsg.release (q.res i).ctx sid bs ∈ t.out) ∧
              (missed → ((t.partAt p).res i).lag = min 8 ((q.res i).lag + 1) ∧
                (7 ≤ (q.res i).lag → q.step.outcome ≠ .faulted → q.svcFault = false → ((t.partAt p).res i).state = .parked)) ∧
              (¬ missed → ((t.partAt p).res i).lag = (q.res i).lag)) ∧
    (q.phase = .run → q.step.watching = true → q.step.outcome = .open_ → q.step.rdz + 16 + 2 ^ 24 ≤ s.watchCount p →
      ∃ t, exec (.watchdog p) s = .next t ∧ (t.partAt p).step.outcome = .faulted ∧ (t.partAt p).hold = none ∧
        (t.partAt p).traps = q.traps + 1 ∧ (∃ f ∈ (t.partAt p).fault, f.cls = .watchdog ∧ f.beat = q.topo) ∧
        (q.hold = none → t.cores = s.cores))

/-! ## What a beat performs -/

/-- R50, R51, R76, R79, R84, R96, R154, R155, R156, R170, R203, R220, R226, R323, R333: a latch that has come due
leaves its core, or the service context (number 8), and acts: the effects on registers and tables do exactly what
Effect.sets says; a row write writes its row and faults in an unallocated bank; a zeroing writes its row and goes on with
the next; a store that no earlier access of its track still waits before writes exactly its bytes; a load, an LDA, a load
of lanes and an MSCALE sample what stands there and schedule what they deliver; an atomic replaces the old value and
delivers it; XLATW, XLATI and XPRE change only the rope's cache or its walks; a system write acts as R274 says (CTXBASE
with its low 8 bits zero: log entry 14; which RESMAP writes are ignored: log entry 29). A latch with a wrong residue raises
its fault in the effect's place. An LDA whose band refuses it raises the band fault whatever else has taken the bank's read
port: that it takes no port itself is the model's reading (log entry 75); so is that the read-only bits of translation
entries stay under a track's write too (log entry 103). -/
def Obligations.LatchesPerform : Prop :=
  ∀ (r c k : Nat) (l : Latch) (s : State), (s.unit r c).latches[k]? = some l → l.act ≤ s.unitNow r c →
    let p := s.partOf r
    let k0 := s.unit r c
    let rest := k0.latches.eraseIdx k
    let first : Prop := ∀ y ∈ rest, ¬(y.org.track = l.org.track ∧ y.org.issue < l.org.issue)
    let e := l.eff
    let goes (f : State → Prop) : Prop := ∃ t, exec (.writePerform r c k) s = .next t ∧ f t
    let gives (act : Nat) (e : Effect) (t : State) : Prop := { org := l.org, act := act, eff := e : Latch } ∈ (t.unit r c).latches
    let value (act n : Nat) (v : W64) (t : State) : Prop := gives act (.sreg n v (residueOf v)) t
    let extended (z n : Nat) (sx_ : Bool) : W64 := if sx_ then (BitVec.ofNat (8 * z) n).signExtend 64 else .ofNat 64 n
    (∀ d d2, l.bad = some (d, d2) →
      exec (.writePerform r c k) s = .next (
        if c < 8 then (s.unlatched r c k).raiseAt p .residue l.org d d2 else (s.unlatched r c k).raiseService p .residue l.org d d2)) ∧
    (l.bad = none →
      ((Effect.sets k0 k0 e).isSome = true → goes fun t => s.OnlyAt t r c ∧
        ∀ P, Effect.sets { k0 with latches := rest } (t.unit r c) e = some P → P) ∧
      (c < 8 →
        (∀ bank row bs, e = .row bank row bs →
          (k0.allocated bank = true → goes fun t => Holds k0.acc (t.coreAt r c).acc (bank * 0x4000 + row * 0x100) bs ∧
            (t.coreAt r c).latches = rest ∧ (t.coreAt r c).spad = k0.spad) ∧
          (k0.allocated bank = false →
            exec (.writePerform r c k) s = .next ((s.unlatched r c k).raiseAt p .unallocatedWrite l.org bank row))) ∧
        (∀ bank next left period freeing, e = .zeroRows bank next left period freeing →
          (freeing = true ∨ k0.allocated bank = true → goes fun t =>
            Holds k0.acc (t.coreAt r c).acc (bank * 0x4000 + next * 0x100) (List.replicate 256 0) ∧
            (t.coreAt r c).latches = rest ++ (if left ≤ 1 then [] else
              [{ org := l.org, act := s.unitNow r c + period, eff := .zeroRows bank (next + 1) (left - 1) period freeing }])) ∧
          (freeing = false → k0.allocated bank = false →
            exec (.writePerform r c k) s = .next ((s.unlatched r c k).raiseAt p .unallocatedWrite l.org bank next))) ∧
        (∀ sp cells cls, e = .store sp cells cls [] → sp ≠ .dev → first → cells ≠ [] → goes fun t =>
          (∀ x, Mem.byte (t.memOf r c sp) x = cellAt cells x (Mem.byte (s.memOf r c sp) x)) ∧
          (t.coreAt r c).sregs = k0.sregs) ∧
        (∀ a z sx_ dst usable, e = .loadElem a z sx_ dst usable → 1 ≤ z → z ≤ 8 → first →
          let bank := a / 0x4000
          let band := a / 0x1000 % 4
          (k0.allocated bank = false → goes fun t => value usable dst 0 t ∧ (t.coreAt r c).status.getLsbD 0 = true) ∧
          (k0.allocated bank = true → (k0.bank bank).owners.toNat / 4 ^ band % 4 ≠ 0 →
            exec (.writePerform r c k) s = .next ((s.unlatched r c k).raiseAt p .band l.org bank (a / 0x100 % 64))) ∧
          (k0.allocated bank = true → (k0.bank bank).owners.toNat / 4 ^ band % 4 = 0 → s.unitClean r c .acc a z → goes fun t =>
            value usable dst (extended z (Mem.nat k0.acc a z) sx_) t ∧ (t.coreAt r c).acc = k0.acc)) ∧
        (∀ bank row base fetch write cls, e = .loadRow bank row base fetch write cls → first →
          (∀ y ∈ fetch, SMap.get 0 k0.spadEcc (y.2 / 8) = 0) → goes fun t => ∃ bs : List Byte,
            gives write (.row bank row bs) t ∧ bs.length = base.length ∧ (t.coreAt r c).spad = k0.spad ∧
            ∀ i, i < base.length → bs.getD i 0 =
              cellAt (fetch.map fun y => (y.1, Mem.byte k0.spad y.2)) i (base.getD i 0)) ∧
        (∀ b a use, e = .scaleLoad b a use → s.unitClean r c .spad a 128 → goes fun t => (t.coreAt r c).spad = k0.spad ∧
          gives use (.scaleUse b a (s.unitNow r c) ((List.range 64).map fun i => .ofNat 16 (Mem.nat k0.spad (a + 2 * i) 2))) t) ∧
        ∀ va big, e = .xpre va big → goes fun t => t.mem = s.mem ∧ (t.coreAt r c) = { k0 with latches := rest } ∧
          t.caches = s.caches ∧ (s.translate p r va false false ≠ .missing → t.walks = s.walks) ∧
          (t.walks = s.walks ∨ ∃ w, t.walks = s.walks ++ [w] ∧ w.va = va ∧ w.rope = r ∧ w.prefetch = some big)) ∧
      (∀ a z v cls pa, e = .store .dev (storedCells a z v) cls [] → 1 ≤ z → z ≤ 8 → first →
        s.unitPlace r c .dev a true false = .hit pa → goes fun t =>
          (∀ j, j < z → s.Sets .dev s.mem t.mem (pa + j) (v.extractLsb' (8 * j) 8)) ∧
          (∀ x, (x < pa ∨ pa + z ≤ x) → Mem.byte t.mem x = Mem.byte s.mem x) ∧ (t.unit r c).sregs = k0.sregs) ∧
      (∀ sp a z sx_ dst usable cls pa, e = .load sp a z sx_ dst usable cls → 1 ≤ z → z ≤ 8 → first →
        s.unitPlace r c sp a false true = .hit pa → s.unitClean r c sp pa z → goes fun t =>
          let v := extended z (Mem.nat (s.unitMem r c sp) pa z) sx_
          (t.unit r c).latches = rest ++ [{ org := l.org, act := usable, eff := .sreg dst v (residueOf v) }] ∧
            t.unitMem r c sp = s.unitMem r c sp ∧ (t.unit r c).sregs = k0.sregs) ∧
      (∀ sp a sx_ dst usable cls base eo cells, e = .loadAfter sp a sx_ dst usable cls base [] → 1 ≤ base.length → base.length ≤ 8 → first →
        (k0.atomDone = [] ∨ k0.atomDone = [(eo, cls, sp, cells)] ∧ eo.track = l.org.track ∧ eo.issue < l.org.issue) →
        goes fun t =>
          let bs := (List.range base.length).map fun j =>
            if k0.atomDone = [] then base.getD j 0 else cellAt cells (a + j) (base.getD j 0)
          value usable dst (extended base.length (leNat bs) sx_) t) ∧
      (∀ sp a z fn x dst usable cls pa, e = .atomic sp a z fn x dst usable cls [] [] [] → z = 4 ∨ z = 8 → first →
        s.unitPlace r c sp a true true = .hit pa → s.unitClean r c sp pa z → goes fun t =>
          let old := Mem.nat (s.unitMem r c sp) pa z
          let new := atomicResult fn (BitVec.ofNat (8 * z) old) (x.setWidth (8 * z))
          value usable dst (extended z old true) t ∧
          (∀ j, j < z → s.Sets sp (s.unitMem r c sp) (t.unitMem r c sp) (pa + j) (new.extractLsb' (8 * j) 8)) ∧
          ∀ y, (y < pa ∨ pa + z ≤ y) → Mem.byte (t.unitMem r c sp) y = Mem.byte (s.unitMem r c sp) y) ∧
      (∀ v i, e = .xlatWrite v i → goes fun t => t.mem = s.mem ∧ t.walks = s.walks ∧
        ({ idx := i, big := v.getLsbD 10, va := v.toNat / 2 ^ 32 * 2 ^ 16, pa := v.toNat / 2 ^ 11 % 2 ^ 21 * 2 ^ 16,
           w := v.getLsbD 9, r := v.getLsbD 8 } : XlatEntry) ∈ SMap.get [] t.caches r) ∧
      (∀ v i all, e = .xlatClear v i all → goes fun t => t.mem = s.mem ∧ t.walks = s.walks ∧ ∀ x : XlatEntry,
        x ∈ SMap.get [] t.caches r ↔ x ∈ SMap.get [] s.caches r ∧
          ¬(x.idx = i ∧ (all = true ∨ v.toNat / (if x.big then 2 ^ 21 else 2 ^ 16) = x.va / if x.big then 2 ^ 21 else 2 ^ 16))) ∧
      ∀ n v, e = .sysWrite n v → goes fun t => t.mem = s.mem ∧
        t.ctxbase = (if n = 3 then some (v.toNat / 256 * 256) else s.ctxbase) ∧
        (t.partAt p).resmap = (s.partAt p).resmap ∧
        ∀ i, SMap.find (t.partAt p).resmapNew i = if n = 0x20 + i ∧ i < 32 ∧ s.mapBad p i v = false then some (mapWritten v)
          else SMap.find (s.partAt p).resmapNew i)

/-- R88, R91, R92, R94, R102, R213, R237, R238, R247, R287, R288, R290, R340, R341: a hold begins before the beat that a
missing page, a late result or a replay stops, and firmware is entered for each of its ropes; a copy starts, or finds a foreign range or a
full table and faults; it samples a chunk, a SPEAK stages its entries, a LISTEN takes its block and a CPYSEL folds a row;
it performs a chunk, but for what a later copy has taken over; a flit arrives; an array word writes back exactly its
elements, or asks for a replay; a collective's result performs; a hold ends and counts; and a replay restores the pitch's
banks and runs its commands again, or escalates. The model's choices: that nothing more of a copy performs after its fault
(log entry 89), that a foreign range is judged before a full table (log entry 32), what a replay does again and what
counts as uncorrectable again (log entry 36), that a chunk which its band refuses takes no port, so that nothing else on the
port changes its fault (log entry 75), and that the read-only bits of translation entries stay under a copy too (log entry
103). -/
def Obligations.BeatEventsAct : Prop :=
  (∀ (p : Nat) (s : State), s.AtPart p 0 →
    let q := s.partAt p
    let cause (n : Nat) : Prop :=
      (n = 1 ∧ s.needsOf p ≠ []) ∨
      (n = 2 ∧ q.step.outcome = .open_ ∧ q.topo ≤ q.rendezBeat + 16 ∧
        ∃ m ∈ q.coreIds, ∃ x ∈ (s.coreAt m.1 m.2).colls, x.due = q.topo ∧ x.result = none) ∨
      (n = 3 ∧ ∃ m ∈ q.coreIds, (s.coreAt m.1 m.2).replay ≠ [])
    ((∃ n, cause n) → ∃ t h, step s = .next t ∧ t.partAt p = { q with hold := some h } ∧ (∀ n, n ∈ h.causes ↔ cause n) ∧
      h.serviced = [] ∧ h.since = s.wall ∧ h.refused = [] ∧ t.Serving p 1 ∧ t.cores = s.cores ∧ t.mem = s.mem) ∧
    ∀ m ∈ q.coreIds, ∀ l ∈ (s.coreAt m.1 m.2).latches, l.act ≤ q.topo → l.bad = none →
      ∀ a w rd, l.eff.page = some (a, w, rd) → s.translate p m.1 a w rd = .missing → cause 1) ∧
  ∀ (r c k : Nat) (s : State), c < 8 →
    let p := s.partOf r
    let q := s.partAt p
    let k0 := s.coreAt r c
    let first (x : Copy) : Prop := ∀ y ∈ k0.copies, ¬ y.org.issue < x.org.issue
    let settled : Prop := (∀ y ∈ k0.copies, ∀ ch ∈ y.buf, ch.owed = []) ∧ k0.debts = []
    (∀ x, k0.copies[k]? = some x → x.started = false → x.start ≤ q.topo → x.finished = false →
      let mine := q.overlaps.filter fun e => decide (e.kind = x.table.1) && decide (e.place = x.table.2)
      let clash : Prop := ∃ e ∈ mine, x.range.1 < e.hi ∧ e.lo < x.range.2 ∧ (e.rope ≠ r ∨ e.core ≠ c ∨ e.step ≠ x.step)
      let starts (ovs : List OvEntry) : Prop := ∃ t, exec (.copyStart r c k) s = .next t ∧
        { x with started := true } ∈ (t.coreAt r c).copies ∧ (t.partAt p).overlaps = ovs ∧ t.mem = s.mem ∧
        (t.coreAt r c).spad = k0.spad ∧ (t.coreAt r c).acc = k0.acc
      (x.kind = .speak → starts q.overlaps) ∧
      (x.kind ≠ .speak → clash → exec (.copyStart r c k) s = .next (s.copyFaults r c x .copyOverlap x.dstVa x.srcVa)) ∧
      (x.kind ≠ .speak → ¬ clash → 32 ≤ mine.length →
        exec (.copyStart r c k) s = .next (s.copyFaults r c x .overlapTableFull x.dstVa x.srcVa)) ∧
      (x.kind ≠ .speak → ¬ clash → mine.length < 32 → starts (q.overlaps ++ [{
        kind := x.table.1, place := x.table.2, lo := x.range.1, hi := x.range.2, rope := r, core := c, step := x.step,
        leave := x.lastBeat }]))) ∧
    (∀ x, k0.copies[k]? = some x → q.mark ≤ 2 → x.sampleDue q.topo = true → first x →
      settled →
      let j := x.nextSample
      let a := x.srcAt j
      let goes (f : State → Prop) : Prop := ∃ t, exec (.copyChunk r c k) s = .next t ∧ (t.coreAt r c).spad = k0.spad ∧
        (t.coreAt r c).acc = k0.acc ∧ f t
      let keeps (y : Copy) (t : State) : Prop := y ∈ (t.coreAt r c).copies
      (∀ bs ps, x.kind = .cpy ∨ x.kind = .cpya ∨ x.kind = .cpy2 ∨ x.kind = .cpyq → x.nextPerform < x.chunks →
        s.Finds r c x a bs ps →
        goes (keeps { x with nextSample := j + 1, buf := x.buf ++ [{ idx := j, bytes := bs, poison := ps }] })) ∧
      (x.kind ≠ .listen → x.kind ≠ .cpysel → x.srcSpace = .dev →
        ¬ (∃ g ∈ x.grants, grantCovers g x.column x.port x.anchor q.topo = true) →
        exec (.copyChunk r c k) s = .next
          (s.copyFaults r c x .columnConflict (x.column * 2 ^ 17 + x.port * 2 ^ 16) q.topo)) ∧
      (x.kind ≠ .listen → x.kind ≠ .cpysel → x.srcSpace = .acc → k0.allocated (a / 0x4000) = true →
        (k0.bank (a / 0x4000)).owner (a / 0x100 % 64) ≠ 1 →
        exec (.copyChunk r c k) s = .next (s.copyFaults r c x .band (a / 0x4000) (a / 0x100 % 64))) ∧
      (x.kind = .listen → x.nextPerform < x.chunks →
        let per := 1 + x.maxe / 4
        let block := s.listenBlock q.runner.ctx q.runner (x.first + j) x.maxe
        goes (keeps { x with
          nextSample := j + 1
          buf := x.buf ++ (List.range per).map fun i =>
            { idx := per * j + i, bytes := (block.drop (256 * i)).take 256, poison := [] } })) ∧
      (∀ bs, x.kind = .speak → (k0.copies.map (·.org)).Nodup → (∀ y ∈ k0.copies, y.kind = .speak → y.buf = []) →
        s.Finds r c x a bs [] → q.step.outcome = .open_ →
        q.topo < q.step.anchor + q.step.rdz + 16 → q.speak.length + 4 ≤ 4096 →
        let entry (i : Nat) : List Byte := (bs.drop (64 * i)).take 64
        (∀ i, i < 4 → leNat ((entry i).drop 8 |>.take 2) ≤ 511) →
        goes fun t => (t.partAt p).speak = q.speak ++ (List.range 4).filterMap fun i =>
          if leNat ((entry i).drop 6 |>.take 1) = 0xFF then none
          else some { org := x.org, slot := 4 * j + i, bytes := entry i, poison := false }) ∧
      (∀ bs, x.kind = .cpysel → x.buf = [] → x.nextPerform = 0 → s.Finds r c x a bs [] → badLines k0.spadEcc 8 x.dst = [] →
        goes (keeps { x with
          nextSample := j + 1
          record := foldChunk (if j = 0 then Mem.bytes k0.spad x.dst 256 else x.record) j bs }))) ∧
    (∀ x, k0.copies[k]? = some x → q.mark = 3 → x.performDue q.topo = true → first x →
      let n := x.nextPerform
      let d := if x.kind = .cpysel then x.dst else x.dstAt n
      let full : Prop := ∃ ring i tag t, x.ring = some (ring, i, tag) ∧ x.found = some t ∧ t.full = true ∧ n = 0
      (∀ out ps, ¬ full → s.Lands r c x d → settled →
        (x.kind ≠ .cpysel ∧ x.kind ≠ .cpya ∧ (∃ ch, x.buf.find? (fun y => decide (y.idx = n)) = some ch ∧ out = ch.bytes ∧ ps = ch.poison)) ∨
          (x.kind = .cpysel ∧ x.buf = [] ∧ out = finishRecord q.runner x.record x.chunks ∧ ps = (if x.poisoned then [0, 1, 2, 3] else [])) ∨
          (x.kind = .cpya ∧ x.dstSpace = .acc ∧ x.type ≠ 0 ∧ (k0.bank (d / 0x4000)).owner (d / 0x100 % 64) = 1 ∧
            badLines k0.accEcc 8 d = [] ∧ ps = [] ∧ ∃ ch, x.buf.find? (fun y => decide (y.idx = n)) = some ch ∧ ch.poison = [] ∧
            out = addRow x.type (Mem.bytes k0.acc d 256) ch.bytes) →
        ∃ t, exec (.copyChunk r c k) s = .next t ∧ s.Puts x (s.memOf r c x.dstSpace) (t.memOf r c x.dstSpace) d out ∧
          (∀ y ∈ (t.coreAt r c).copies, y.org = x.org → y.nextPerform = n + 1) ∧
          ((∃ i ∈ ps, ∀ z ∈ x.suppressed, d + 64 * i < z.1 ∨ z.2 ≤ d + 64 * i) → (t.coreAt r c).status.getLsbD 2 = true) ∧
          ∀ ring i tag, x.kind ≠ .cpysel → x.ring = some (ring, i, tag) → n + 1 = x.chunks →
            (t.coreAt r c).tag ring i = { tag := tag, full := true }) ∧
      (∀ ring i tag t, x.kind ≠ .cpysel → x.ring = some (ring, i, tag) → x.found = some t → t.full = true → n = 0 →
        exec (.copyChunk r c k) s = .next
          (s.copyFaults r c x .schedule (ring + 256 * tag.toNat + 65536 * t.tag.toNat + 2 ^ 24) i)) ∧
      (¬ full → x.dstSpace = .acc → k0.allocated (d / 0x4000) = false →
        (x.kind = .cpysel ∨ (x.buf.find? fun y => decide (y.idx = n)).isSome = true) →
        exec (.copyChunk r c k) s = .next (s.copyFaults r c x .unallocatedWrite (d / 0x4000) (d / 0x100 % 64)))) ∧
    (∀ f, q.flits[k]? = some f → f.arrive ≤ q.topo →
      let k1 := s.coreAt f.rope f.dst
      let gone := s.setPart p { q with flits := q.flits.eraseIdx k }
      (∀ x, k1.recvs.find? (fun y => y.accepts f q.topo) = some x →
        let a := x.addr + 64 * x.next
        (x.sp = .spad ∨ x.sp = .acc ∧ k1.allocated (a / 0x4000) = true → ∃ t, exec (.ropeFlitArrival p k) s = .next t ∧
          (t.partAt p).flits = q.flits.eraseIdx k ∧ Holds (s.memOf f.rope f.dst x.sp) (t.memOf f.rope f.dst x.sp) a f.bytes)) ∧
      (k1.recvs.find? (fun y => y.accepts f q.topo) = none →
        exec (.ropeFlitArrival p k) s = .next (gone.raiseAt p .ropeTiming f.org (f.lane + if f.acw then 8 else 0) q.topo))) ∧
    (∀ a, k0.accops[k]? = some a → a.w ≤ q.topo → a.next = 32 → a.rows ≠ 0 → a.cols ≠ 0 →
      (k0.allocated a.bank = false → exec (.mmaWriteback r c k) s = .next (
        (s.setCoreAt r c { k0 with accops := k0.accops.filter fun y => decide (y.org ≠ a.org) }).raiseAt p .unallocatedWrite a.org
          a.bank 0)) ∧
      (k0.allocated a.bank = true → elemSize a.acc ≤ 4 → a.rows ≤ 64 →
        let z := elemSize a.acc
        let at_ (i j : Nat) : Nat := a.bank * 0x4000 + i * 0x100 + z * j
        ((∀ i j, i < a.rows → j < 64 → a.cols.getLsbD j = true → eccOver k0.accEcc 8 (at_ i j) z ≠ 2) →
          ∃ t, exec (.mmaWriteback r c k) s = .next t ∧ (∀ y ∈ (t.coreAt r c).accops, y.org ≠ a.org) ∧
            (∀ i j tile, i < a.rows → j < 64 → a.cols.getLsbD j = true → tileOfRow a.bTiles i = some tile →
              Mem.bytes (t.coreAt r c).acc (at_ i j) z =
                toLe z (a.element (a.bBytes.getD tile []) i j (Mem.nat k0.acc (at_ i j) z))) ∧
            ∀ x, (∀ i j, i < a.rows → j < 64 → a.cols.getLsbD j = true → x < at_ i j ∨ at_ i j + z ≤ x) →
              Mem.byte (t.coreAt r c).acc x = Mem.byte k0.acc x) ∧
        ((∃ i j, i < a.rows ∧ j < 64 ∧ a.cols.getLsbD j = true ∧ eccOver k0.accEcc 8 (at_ i j) z = 2) →
          ∃ t w, exec (.mmaWriteback r c k) s = .next t ∧ (t.coreAt r c).replay = k0.replay ++ [(q.topo, a.org, 2 ^ 62 + w)] ∧
            SMap.get 0 k0.accEcc (w / 8) = 2 ∧ (t.coreAt r c).acc = k0.acc))) ∧
    (∀ x bs, k0.colls[k]? = some x → x.due ≠ 0 → x.due ≤ q.topo → x.result = some (bs, []) →
      (x.status = 2 → x.dstSpace = .spad → ∃ t, exec (.collResultPerform r c k) s = .next t ∧
        Holds k0.spad (t.coreAt r c).spad x.dst bs ∧ ∀ y ∈ (t.coreAt r c).colls, y.org = x.org → y.status = 3) ∧
      (x.status = 4 ∨ x.status = 5 → ∃ t, exec (.collResultPerform r c k) s = .next t ∧
        (t.coreAt r c).spad = k0.spad ∧ (t.coreAt r c).acc = k0.acc ∧ (t.coreAt r c).status.getLsbD 3 = true)) ∧
    (∀ h, q.hold = some h → s.holdOver p h = true → ∃ t, exec (.holdEnd p) s = .next t ∧ (t.partAt p).hold = none ∧
      (t.partAt p).counts.holds = q.counts.holds + 1 ∧
      (t.partAt p).counts.holdt = q.counts.holdt + (s.wall - h.since + 624999) / 625000 ∧
      (∀ x ∈ q.ropes, t.svcAt x = if (s.svcAt x).cause = 1 then { s.svcAt x with active := false, resumeAt := none } else s.svcAt x) ∧
      (∀ x, x ∉ q.ropes → t.svcAt x = s.svcAt x) ∧ t.cores = s.cores) ∧
    ∀ y o a es, k0.replay = (y, o, a) :: es →
      let again := (k0.replayed y).2
      let holds (o : Origin) : Prop := ∃ cmd ∈ k0.pitch.commands, cmd.org = o
      let held : Prop := holds o
      let written : Prop := ∃ e ∈ k0.pitch.shadow, e.1 ∈ k0.pitch.touched
      (held → (∀ e ∈ es, holds e.2.1) → again = false → k0.pitch.pushed = false → ¬ written →
        exec (.pitchReplay r c) s = .next (s.setCoreAt r c { (k0.replayed y).1 with replay := [] }) ∧
          (∀ n image marks, k0.pitch.shadow = [(n, image, marks)] → Mem.wf image = true → (∀ e ∈ image, e.1 / 0x4000 = n) →
            ∀ x, Mem.byte k0.restoreShadow.acc x = Mem.byte (if x / 0x4000 = n then image else k0.acc) x) ∧
          ∀ (k1 : Core) (b : Bool),
            (∀ w, w.org.issue ≤ y → w.w ≤ y →
              let w' := (k1.rescale w).resample k1.spad (w.chunksBy y)
              ∀ x, Mem.byte (Core.rerun y (k1, b) (.acc w)).1.acc x = cellAt (w'.cells k1.acc) x (Mem.byte k1.acc x)) ∧
            (∀ w bank at_ rows period i, i < rows → at_ + period * i ≤ y → ∀ x, x < 256 →
              Mem.byte (Core.rerun y (k1, b) (.zero w bank at_ rows period)).1.acc (bank * 0x4000 + i * 0x100 + x) = 0) ∧
            ∀ w addr at_ use, at_ ≤ y → use ≤ y → ∀ i, i < 64 →
              SMap.get 0 (Core.rerun y (k1, b) (.scale w false addr at_ use)).1.sA i = .ofNat 16 (Mem.nat k1.spad (addr + 2 * i) 2)) ∧
      ∀ why : Nat,
        (¬ held ∧ why = 1) ∨ (held ∧ again = true ∧ why = 2) ∨ (held ∧ again = false ∧ k0.pitch.pushed = true ∧ why = 3) ∨
          (held ∧ again = false ∧ k0.pitch.pushed = false ∧ written ∧ why = 4) →
        es = [] → ∃ t, exec (.pitchReplay r c) s = .next t ∧ (t.coreAt r c).replay = [] ∧ (t.coreAt r c).acc = k0.acc ∧
          (t.partAt p).hold = none ∧ (t.partAt p).topo = q.topo ∧
          (q.fault = none → q.step.outcome = .open_ → ∃ f ∈ (t.partAt p).fault, f.cls = .dataError ∧ f.org = o ∧ f.beat = y ∧
            f.detail = .ofNat 64 a ∧ f.detail2 = .ofNat 64 (4 + 256 * why))

/-! ## Pre-emption, halts and clocks -/

/-- R297, R298, R304 to R306, R349 to R351, R354: an urgent request pre-empts the step at a check beat, its cores writing
their frames (what a frame holds: State.Frames in BreakHalts), and its step follows; HALT and RUN halt and resume a partition; FREEZE and THAW stop and start the clocks; a droop episode stretches the beat and its
end restores it; the readings of the five dies move the thermal state, into RESET at 120 degrees or after ten seconds in
TRIP (that a thermal reset leaves memory and cores as after any reset is the model's choice, log entry 61); and telemetry
writes the cores' and the device's records. -/
def Obligations.StopEventsAct : Prop :=
  ∀ (p : Nat) (s : State),
    let q := s.partAt p
    (∀ x i, s.urgentDue p = some (x, i) → ∃ t, exec (.urgentPreemption p) s = .next t ∧
      (∃ f ∈ (t.partAt p).frozen.head?, f.cause = .urgent ∧ f.beat = q.topo ∧ f.step.serial = q.step.serial) ∧
      (t.partAt p).plan = some (.urgent, i) ∧ (∀ y ∈ (t.partAt p).xqueue, y.ctx ≠ x.ctx) ∧ t.Serving p 3 ∧
      (∀ r ∈ q.ropes, SMap.get 0 (t.svcAt r).seq.sregs 2 = .ofNat 64 (s.frameAt r 0 0)) ∧
      t.mem = (q.coreIds.foldl (fun u x => u.writeFrame p x.1 x.2 1 0)
        (s.setPart p { q with step := { q.step with preempted := true } })).mem) ∧
    (s.AtPart p 0 → s.holdCauses p = [] → q.haltAsked = true → ∃ t, step s = .next t ∧ (t.partAt p).haltAsked = false ∧
      (∃ f ∈ (t.partAt p).frozen.head?, f.cause = .debugger ∧ f.beat = q.topo ∧ f.step = q.step) ∧ t.Serving p 3 ∧
      (t.partAt p).topo = q.topo) ∧
    (∀ f fs x, q.frozen = f :: fs → q.plan = some (.urgent, x) → f.cause = .urgent → q.phase = .over → q.step.bound = false →
      s.firmwareIdle p = true → q.deadlined = false →
      exec (.urgentStep p) s = .next (s.setPart p { q with phase := .lead })) ∧
    exec (.halt p) s = .next (s.setPart p { q with haltAsked := true }) ∧
    (∀ f fs, q.frozen = f :: fs → f.cause = .debugger → f.ran = false → ∃ t, exec (.run p) s = .next t ∧
      (t.partAt p).frozen = { f with ran := true } :: fs ∧ (t.partAt p).slotEnd = q.slotEnd + (s.wall - f.began) ∧
      (t.partAt p).local_ = true ∧ t.Serving p 4 ∧ t.cores = s.cores) ∧
    (s.halted = false → exec .freeze s = .next { s with frozen := true, frozenSince := s.wall }) ∧
    (s.frozen = true → s.thermal = .trip → exec .thaw s = .next { s with frozen := false }) ∧
    (s.frozen = true → ∃ t, exec .thaw s = .next t ∧ t.frozen = false ∧ t.wall = s.wall) ∧
    (∀ fs, s.droop = none → 625000 ≤ fs → fs ≤ 781250 →
      exec (.droopEpisode fs) s = .next { s with droop := some 4096, droops := s.droops + 1, beatFs := fs }) ∧
    exec .droopEnd s = .next { s with droop := none, beatFs := 625000 } ∧
    (∀ a b c d e : Int,
      let ts := [a, b, c, d, e]
      let hot : Prop := ∃ x ∈ ts, 16 * 110 ≤ x
      (s.thermal ≠ .trip → hot → ∃ t, exec (.thermalRead a b c d e) s = .next t ∧ t.thermal = .trip ∧ t.tripped = true ∧
        t.tripSince = s.wall ∧ t.temps = ts) ∧
      (s.thermal = .normal → ¬ hot →
        exec (.thermalRead a b c d e) s = .next (if ∃ x ∈ ts, 16 * 100 ≤ x then { s with temps := ts, thermal := .warn, warn := true }
          else { s with temps := ts })) ∧
      (s.thermal = .warn → ¬ hot →
        exec (.thermalRead a b c d e) s = .next (if ∀ x ∈ ts, x < 16 * 97 then { s with temps := ts, thermal := .normal, warn := false }
          else { s with temps := ts })) ∧
      (s.thermal = .trip → (∃ x ∈ ts, 16 * 120 ≤ x) → ∃ t, exec (.thermalRead a b c d e) s = .next t ∧ t.boot = .reset ∧
        t.thermalCause = true ∧ t.cores = [] ∧ t.mem = []) ∧
      (s.thermal = .trip → (∀ x ∈ ts, x ≤ 16 * 95) → ∃ t, exec (.thermalRead a b c d e) s = .next t ∧ t.thermal = .warn) ∧
      (s.thermal = .trip → (∀ x ∈ ts, x < 16 * 120) → (∃ x ∈ ts, 16 * 95 < x) →
        exec (.thermalRead a b c d e) s = .next { s with temps := ts })) ∧
    (s.thermal = .trip → s.tripSince + 10 ^ 16 ≤ s.wall → ∃ t, exec .tripTimeout s = .next t ∧ t.boot = .reset ∧
      t.thermalCause = true ∧ t.flash = s.flash ∧ t.cores = [] ∧ t.mem = []) ∧
    ∃ t, exec .telemetryUpdate s = .next t ∧ t = { s with teleAt := t.teleAt, mem := t.mem, memEcc := t.memEcc } ∧
      (s.teleAt ≤ s.wall → s.wall < t.teleAt ∧ t.teleAt ≤ s.wall + 10 ^ 12 ∧ (t.teleAt - s.teleAt) % 10 ^ 12 = 0) ∧
      (s.ctxbase = none → t.mem = s.mem) ∧
      ∀ b, s.ctxbase = some b →
        (∀ n, n < 640 → let tele := (SMap.get Core.reset s.cores n).tele
          Mem.nat t.mem (b + 0xC0000 + 64 * n) 8 = tele.high % 2 ^ 64 ∧ Mem.nat t.mem (b + 0xC0008 + 64 * n) 8 = tele.low % 2 ^ 64 ∧
          Mem.nat t.mem (b + 0xC0010 + 64 * n) 8 = tele.settle % 2 ^ 64 ∧ Mem.nat t.mem (b + 0xC0018 + 64 * n) 4 = tele.gears % 2 ^ 32 ∧
          Mem.nat t.mem (b + 0xC001C + 64 * n) 4 = tele.cold % 2 ^ 32 ∧ Mem.nat t.mem (b + 0xC0020 + 64 * n) 4 = tele.ramps % 2 ^ 32) ∧
        (∀ i, i < 5 → (Mem.nat t.mem (b + 0xCA000 + 2 * i) 2 : Int) = s.temps.getD i 0 % 2 ^ 16) ∧
        Mem.nat t.mem (b + 0xCA00A) 1 = (if s.warn then 1 else 0) + (if s.thermal = .trip then 2 else 0) + (if s.tripped then 4 else 0) ∧
        Mem.nat t.mem (b + 0xCA00C) 4 = s.flash.boots % 2 ^ 32 ∧ Mem.nat t.mem (b + 0xCA010) 8 = s.droops % 2 ^ 64 ∧
        ∀ a, (a < b + 0xC0000 ∨ b + 0xCA040 ≤ a) → Mem.byte t.mem a = Mem.byte s.mem a

/-! ## Bring-up and attestation -/

/-- R354 to R361: bring-up goes from RESET by the mask ROM's read of the image slots, CONFIG and link training to READY or
to RECOVERY; in RECOVERY a slot may be rewritten; reset and power loss lead back to RESET with only what lasts; an
attestation request is answered by its count, and its leaf is spent. The model's choices: how an image is checked and its
partition map read (log entries 8 and 7), what an unreadable leaf limit counts as (log entry 57), when the raised limit is
written to the flash (log entry 9), and which fields outlast a reset (log entry 61). -/
def Obligations.BootEventsAct : Prop :=
  ∀ (s : State),
    (∀ b : Bool, s.boot = .reset → ∃ t, exec (.powerGood b) s = .next t ∧
      t = { s with boot := .rom, puf := b, leaf := t.leaf, leafLimit := t.leaf } ∧
      (s.flash.ok0 = true → s.flash.ok1 = true → t.leaf = max s.flash.limit0 s.flash.limit1)) ∧
    (s.boot = .rom →
      (∀ b, (s.flash.order.find? fun b => imageOk s.fuse (s.flash.slot b)) = some b →
        ∃ t, exec .imageSlotsRead s = .next t ∧ t.boot = .config ∧ t.flash = { s.flash with boots := s.flash.boots + 1 } ∧
          ∃ i ∈ t.image, i.slotB = b ∧ i.svn = leField (s.flash.slot b) 4 4) ∧
      ((∀ b ∈ s.flash.order, imageOk s.fuse (s.flash.slot b) = false) →
        exec .imageSlotsRead s = .next { s with boot := .recovery })) ∧
    (∀ i, s.boot = .config → s.image = some i → ∃ t, exec .config s = .next t ∧ t.boot = .train ∧ 1 ≤ t.nparts ∧ t.nparts ≤ 8 ∧
      t.pod = parsePod (sectionOf (s.flash.slot i.slotB) 5) ∧ t.fabric.seqChip = t.pod.seq ∧ t.mem = s.mem ∧ t.cores = s.cores) ∧
    (s.boot = .train →
      (∃ t, exec .trainComplete s = .next t ∧ t.boot = .ready ∧ t.fuse = max s.fuse ((s.image.map (·.svn)).getD 0) ∧
        (∀ p, p < s.nparts → (t.partAt p).running = true) ∧ t.mem = s.mem ∧ t.cores = s.cores) ∧
      exec .trainFail s = .next { s with boot := .recovery }) ∧
    (∀ bs, s.boot = .recovery →
      (∃ t, exec (.flashRewrite 0 bs) s = .next t ∧ t.flash.slot false = bs ∧ t.flash.slot true = s.flash.slot true ∧
        t = { s with flash := t.flash }) ∧
      ∃ t, exec (.flashRewrite 1 bs) s = .next t ∧ t.flash.slot true = bs ∧ t.flash.slot false = s.flash.slot false ∧
        t = { s with flash := t.flash }) ∧
    exec .resetOrPowerLoss s = .next { State.reset with
      wall := s.wall, flash := s.flash, fuse := s.fuse, inbox := s.inbox, out := s.out, sensors := s.sensors,
      thermAt := s.thermAt, free := s.free } ∧
    ∀ (ok : Bool) (b : Nat), s.ctxbase = some b →
      let a := b + 0xB0000
      let want := Mem.bytes s.mem (a + 0x20) 8
      (want = Mem.bytes s.mem (a + 0x1000) 8 → exec (.attestationResponse ok) s = .next { s with attestDue := false }) ∧
      (want ≠ Mem.bytes s.mem (a + 0x1000) 8 → ∃ t, exec (.attestationResponse ok) s = .next t ∧
        Mem.bytes t.mem (a + 0x1000) 8 = want ∧
        (s.puf = false → Mem.nat t.mem (a + 0x1008) 8 = 2 ∧ t.leaf = s.leaf) ∧
        (s.puf = true → 2 ^ 20 ≤ s.leaf → Mem.nat t.mem (a + 0x1008) 8 = 3 ∧ t.leaf = s.leaf) ∧
        (s.puf = true → s.leaf < 2 ^ 20 → (s.leaf < s.leafLimit ∨ ok = true) →
          Mem.nat t.mem (a + 0x1008) 8 = 0 ∧ t.leaf = s.leaf + 1) ∧
        (s.puf = true → s.leaf < 2 ^ 20 → s.leafLimit ≤ s.leaf → ok = false →
          Mem.nat t.mem (a + 0x1008) 8 = 1 ∧ t.leaf = s.leaf))

/-! ## The pod fabric -/

/-- R344, R362, R365, R366, R368 to R371, R373 to R375: what the messages of the pod fabric and its timers do: a PTP
message steps the clock; a mark moves the next frame start and is judged, and chip MARK sends marks and is its own; the
sequencer numbers a request, joins it, defers it, or removes it where a member is lost, and requests that disagree, a
withdrawal and a lost member make the collective run as null; the standby's acknowledge sends the number out; a member
takes a number; collectives start in number order and complete with every rank's contribution; heartbeats count, and
after three missing ones a member is lost or the standby takes over, which the others then follow. What a request, a
contribution and a heartbeat carry, and the standby's copy, are the model's choices (log entries 53, 54 and 56); so are that
a lost chip leaves the members of what is numbered, and that what all the other members have completed is not run as null
(log entry 102), where R373 speaks of every incomplete collective of the lost chip; that a null status shows once the engine
has reached the number (log entry 72); and which keys a failover asks for anew (log entry 73). -/
def Obligations.FabricEventsAct : Prop :=
  ∀ (s : State),
    let me := s.pod.chip
    let f := s.fabric
    let seqIsMe : Prop := f.seqChip = me
    let withStandby : Prop := s.pod.stby ≠ s.pod.seq ∧ f.seqChip = s.pod.seq
    let complete (x : SeqColl) : Prop := ∀ m ∈ x.members, m ∈ x.complete
    let next := match f.last with
      | some l => (l + 1) % 65536
      | none => s.pod.start
    let room : Prop := ∀ x ∈ f.colls, complete x ∨ (next + 65536 - x.number) % 65536 < 32768
    let gives (i : Instr) (P : State → Prop) : Prop := ∃ t, exec i s = .next t ∧ P t
    let up := s.completeUpTo
    let mine := (f.completes me up).colls
    let tells (t : State) (x : SeqColl) (null : Nat) : Prop := ∀ d ∈ x.members, t.Sent (.number d x.number x.gen x.key null)
    let nulled (t : State) (x : SeqColl) (null : Nat) : Prop :=
      (∃ y ∈ t.fabric.colls, y = { x with nullStatus := null }) ∧ (x.sent = true → tells t x null)
    let numbered (t : State) (x : SeqColl) : Prop :=
      if withStandby then t.Sent (.toStandby s.pod.stby x.number x.gen x.key x.shape x.members) else tells t x 0
    -- 1588 time and step marks
    (∀ (dom : Nat) (p2p : Bool) (ns : Int), exec (.ptpMessage dom p2p ns) s =
      .next (if dom = s.domain ∧ p2p = true then { s with wall := ((s.wall : Int) + ns * 10 ^ 6).toNat } else s)) ∧
    (∀ (p gen frame time : Nat), let q := s.partAt p
      let e : Int := (q.frameStart : Int) - ((time * 10 ^ 6 : Nat) : Int)
      let move := max (-(10 ^ 9)) (min (10 ^ 9) (-e))
      let good : Prop := s.wall ≤ q.frameStart + 10 ^ 10 ∧ -(2 * 10 ^ 8) ≤ e ∧ e ≤ 2 * 10 ^ 8
      (s.pod.align.getLsbD p = false ∨ s.pod.mark = me → exec (.stepMark p gen frame time) s = .next s) ∧
      (s.pod.align.getLsbD p = true → s.pod.mark ≠ me → q.running = true →
        (q.phase ≠ .gap → frame = q.frame → gives (.stepMark p gen frame time) fun t =>
          let q' := t.partAt p
          t = { s with parts := t.parts } ∧ q'.measured = true ∧ q'.marked = true ∧
          (q.measured = true → q'.shift = q.shift ∧ q'.slotEnd = q.slotEnd) ∧
          (q.measured = false → q.slot + 1 < q.slots.length → q'.shift = move ∧ q'.slotEnd = q.slotEnd) ∧
          (q.measured = false → q.slots.length ≤ q.slot + 1 → q'.slotEnd = ((q.slotEnd : Int) + move).toNat) ∧
          (q.marked = true → q'.badMarks = q.badMarks ∧ q'.local_ = q.local_) ∧
          (q.marked = false → good → q'.badMarks = 0 ∧ q'.local_ = false) ∧
          (q.marked = false → ¬ good → q'.badMarks = q.badMarks + 1 ∧ q'.local_ = (q.local_ || decide (2 ≤ q.badMarks)))) ∧
        (q.phase = .gap ∨ frame ≠ q.frame →
          exec (.stepMark p gen frame time) s = .next (s.setPart p { q with early := some (frame, time) })) ∧
        (q.marked = false → q.frameStart + 10 ^ 10 < s.wall → exec (.stepMarkTimeout p) s = .next (s.setPart p { q with
          marked := true, badMarks := q.badMarks + 1, local_ := q.local_ || decide (2 ≤ q.badMarks) }))) ∧
      (q.running = true → q.slotEnd ≤ s.wall → q.phase ≠ .gap → q.slots.length = q.slot + 1 → q.newGrid = none →
        gives (.slotStart p) fun t =>
          let q' := t.partAt p
          (s.pod.align.getLsbD p = true → s.pod.mark = me → q'.marked = true ∧ q'.badMarks = 0 ∧ q'.local_ = false) ∧
          (s.pod.align.getLsbD p = true → s.pod.mark ≠ me → q.early = some (q.frame + 1, time) →
            q'.marked = true ∧ q'.measured = true ∧ q'.badMarks = q.badMarks + 1) ∧
          (s.pod.align.getLsbD p = true → s.pod.mark ≠ me → q.early = none → q'.marked = false ∧ q'.measured = false) ∧
          (s.pod.mark = me → ∀ d, d < s.pod.podn → d ≠ me → ∃ bs, OutMsg.stepMark d bs ∈ t.out ∧ bs.length = 64 ∧
            leField bs 0 4 = 0x4B52414D ∧ leField bs 4 1 = p % 256 ∧ leField bs 5 1 = f.gen % 256 ∧
            leField bs 8 8 = (q.frame + 1) % 2 ^ 64 ∧ leField bs 16 8 = q.slotEnd / 10 ^ 6 % 2 ^ 64))) ∧
    -- numbering
    (∀ (chip part : Nat) (key : CollKey) (shape : CollShape) (chips : List Nat),
      let req := Instr.sequencerRequest chip part key { shape := shape, chips := chips }
      let waits := exec req s = .next { s with fabric := { f with deferred := f.deferred ++ [(chip, part, key, shape, chips)] } }
      (¬ seqIsMe → exec req s = .next s) ∧
      (seqIsMe →
        (∀ x, (f.colls.find? fun x => decide (x.key = key)) = some x →
          (x.shape = shape ∨ x.nullStatus ≠ 0 → exec req s = .next s) ∧
          (x.shape ≠ shape → x.nullStatus = 0 → gives req fun t => nulled t x 4)) ∧
        ((∀ x ∈ f.colls, x.key ≠ key) →
          ((∃ d ∈ f.deferred, d.2.2.1 = key) → waits) ∧
          ((∀ d ∈ f.deferred, d.2.2.1 ≠ key) →
            ((∃ d ∈ chips, d ∈ f.lost) → gives req fun t => t.fabric = f ∧ t.cores = s.cores ∧
              ∀ d ∈ chips, t.Sent (.number d 65536 f.gen key 4)) ∧
            ((∀ d ∈ chips, d ∉ f.lost) →
              (f.deferred ≠ [] ∨ ¬ room → waits) ∧
              (f.deferred = [] → room → gives req fun t => ∃ x : SeqColl,
                t.fabric = { f with last := some next, colls := f.colls ++ [x] } ∧ x.key = key ∧ x.shape = shape ∧
                x.number = next ∧ x.gen = f.gen ∧ x.members = chips ∧ x.complete = [] ∧ x.nullStatus = 0 ∧
                (x.sent = true ↔ ¬ withStandby) ∧ numbered t x)))))) ∧
    (∀ (n : Nat) (x : SeqColl), (f.colls.find? fun x => decide (x.number = n) && !x.sent) = some x →
      gives (.standbyAck n) fun t => { x with sent := true } ∈ t.fabric.colls ∧ tells t x x.nullStatus) ∧
    (∀ chip part key shape chips ds, f.deferred = (chip, part, key, shape, chips) :: ds → (∀ x ∈ f.colls, x.key ≠ key) →
      (¬ room → exec .deferredNumbering s = .next s) ∧
      (room → gives .deferredNumbering fun t => (t.fabric.deferred = ds.filter fun d => decide (d.2.2.1 ≠ key)) ∧
        t.fabric.last = some next ∧ ∃ x ∈ t.fabric.colls, x.key = key ∧ x.number = next ∧ x.gen = f.gen ∧ x.shape = shape ∧
          x.members = chips ∧ numbered t x ∧
          x.nullStatus = if ∀ d ∈ ds, d.2.2.1 = key → d.2.2.2.1 = shape then 0 else 4)) ∧
    (∀ (chip : Nat) (key : CollKey),
      (¬ seqIsMe → ∀ b, exec (.collWithdrawal chip key b) s = .next s) ∧
      (seqIsMe →
        ((∀ x ∈ f.colls, x.key ≠ key) → ∀ b, exec (.collWithdrawal chip key b) s = .next { s with
          fabric := { f with deferred := f.deferred.filter fun d => decide (d.2.2.1 ≠ key) } }) ∧
        ∀ x, (f.colls.find? fun x => decide (x.key = key)) = some x →
          exec (.collWithdrawal chip key true) s = .next s ∧
          (x.nullStatus = 0 → gives (.collWithdrawal chip key false) fun t => nulled t x 5))) ∧
    -- members
    (∀ (n gen : Nat) (key : CollKey) (shape : CollShape) (chips : List Nat),
      gives (.startNumber n gen key (.assigned { shape := shape, chips := chips })) fun t => t.cores = s.cores ∧
        t.Sent (.standbyAck f.seqChip n) ∧ t.fabric = { f with gen := gen, last := some n, colls := f.colls ++ [{
          key := key, shape := shape, number := n, gen := gen, sent := true, members := chips, complete := [], nullStatus := 0 }] }) ∧
    (∀ (n gen : Nat) (key : CollKey) (null : Nat),
      let arrives := Instr.startNumber n gen key (.null null)
      (65536 ≤ n → gives arrives fun t => ∀ r c, c < 8 → (t.coreAt r c).colls = (s.coreAt r c).colls.map fun x =>
        if x.key = key ∧ x.status = 1 then { x with gen := gen, status := 4, result := some ([], []), started := true } else x) ∧
      (n < 65536 →
        ((∀ e ∈ f.numbers, e.key ≠ key) → s.memberGroups key = [] → exec arrives s = .next s) ∧
        ((∀ e ∈ f.numbers, e.key ≠ key) → s.memberGroups key ≠ [] → gives arrives fun t =>
          t.fabric.numbers = f.numbers ++ [{ number := n, gen := gen, key := key, nullStatus := null, started := [], done := false }] ∧
          (null = 0 → (∃ r c x, c < 8 ∧ x ∈ (s.coreAt r c).colls ∧ x.key = key ∧ x.withdrawn = true ∧ x.dropped = true) →
            t.Sent (.withdrawal f.seqChip me key false)) ∧
          ∀ r c, c < 8 → (t.coreAt r c).colls = (s.coreAt r c).colls.map fun x =>
            if x.key = key ∧ x.status = 1 then { x with number := some n, gen := gen, status := 2 } else x) ∧
        ∀ e, (f.numbers.find? fun e => decide (e.key = key)) = some e →
          (null = 0 ∨ e.nullStatus ≠ 0 → exec arrives s = .next s) ∧
          (null ≠ 0 → e.nullStatus = 0 → gives arrives fun t => ∀ y ∈ t.fabric.numbers, y.key = key → y.nullStatus = null))) ∧
    (∀ (r c k : Nat) (x : CollOp) (e : Numbered), c < 8 → (s.coreAt r c).colls[k]? = some x → x.started = false →
      x.dropped = false → x.status = 2 → x.shape.chunks ≤ x.next →
      (f.numbers.find? fun e => decide (e.key = x.key)) = some e → e.nullStatus = 0 →
      let p := s.partOf r
      let waitsFor (y : Numbered) : Prop := y.done = false ∧ 1 ≤ (e.number + 65536 - y.number % 65536) % 65536 ∧
        (e.number + 65536 - y.number % 65536) % 65536 ≤ 32767 ∧ p ∈ s.memberParts y.key ∧ p ∉ y.started
      ((∃ y ∈ f.numbers, waitsFor y) → exec (.collectiveStart r c k) s = .next s) ∧
      ((∀ y ∈ f.numbers, ¬ waitsFor y) → gives (.collectiveStart r c k) fun t =>
        (∀ y ∈ t.fabric.numbers, y.key = x.key → p ∈ y.started) ∧
        (∀ y ∈ (t.coreAt r c).colls, y.org = x.org → y.started = true) ∧
        ((∃ y ∈ t.fabric.landing, y.1 = x.key ∧ y.2.1 = x.rank) ∨ ∃ y ∈ t.fabric.numbers, y.key = x.key ∧ y.done = true) ∧
        ∀ g ∈ (s.memberGroups x.key).head?, ∀ m ∈ g.members, m.1 ≠ me →
          OutMsg.contribution m.1 x.key x.rank x.bytes x.poison ∈ t.out)) ∧
    (∀ (key : CollKey) (rank : Nat) (bs : List Byte) (ps : List Nat),
      let brings := Instr.collectiveData key rank bs ps
      let here (i : Nat) : Prop := ∃ y ∈ f.landing, y.1 = key ∧ y.2.1 = i
      let lands : Prop := exec brings s = .next { s with fabric := { f with landing := f.landing ++ [(key, rank, bs, ps)] } }
      (here rank → exec brings s = .next s) ∧
      (¬ here rank →
        ((∃ e ∈ f.numbers, e.key = key ∧ e.done = true) → exec brings s = .next s) ∧
        ((∀ e ∈ f.numbers, e.key ≠ key) → lands) ∧
        ∀ e g gs, e ∈ f.numbers → e.key = key → e.done = false → e.nullStatus = 0 →
          (∀ y ∈ f.numbers, y.key = key → y = e) → s.memberGroups key = g :: gs →
          ((∃ i, i < g.members.length ∧ i ≠ rank ∧ ¬ here i) → lands) ∧
          (rank < g.members.length → (∀ i, i < g.members.length → i ≠ rank → here i) → gives brings fun t =>
            (∀ y ∈ t.fabric.landing, y.1 ≠ key) ∧ (∀ y ∈ t.fabric.numbers, y.key = key → y.done = true) ∧
            ∀ r c, c < 8 → (t.coreAt r c).colls = (s.coreAt r c).colls.map fun x =>
              if x.key = key ∧ x.status = 2 ∧ x.result = none ∧ x.due ≠ 0 then
                { x with result := some (collResult x.shape x.rank ((List.range x.size).map fun i =>
                  if i = rank then (bs, ps) else (s.landed key i).getD ([], []))) }
              else x))) ∧
    -- heartbeats and failover
    (∀ (chip gen last : Nat) (done : Option CollKey),
      (chip = me → gives (.heartbeat chip gen { last := last, done := done }) fun t => t.cores = s.cores ∧ t.fabric.colls = mine ∧
        (s.beatAt ≤ s.wall → s.wall < t.beatAt ∧ t.beatAt ≤ s.wall + 10 ^ 10) ∧
        (seqIsMe → ∀ d, d < s.pod.podn → d ≠ me → OutMsg.heartbeat d me f.gen (f.last.getD 65536) none ∈ t.out ∧
          SMap.get 0 t.fabric.missed d = SMap.get 0 f.missed d + 1) ∧
        (seqIsMe → withStandby → OutMsg.heartbeat s.pod.stby me 256 65536 up ∈ t.out) ∧
        (¬ seqIsMe → (∀ d, (d = f.seqChip ∨ d = s.pod.stby) → d ≠ me → OutMsg.heartbeat d me f.gen 65536 up ∈ t.out) ∧
          (s.pod.stby = me → s.pod.stby ≠ s.pod.seq → SMap.get 0 t.fabric.missed f.seqChip = SMap.get 0 f.missed f.seqChip + 1))) ∧
      (chip ≠ me → gives (.heartbeat chip gen { last := last, done := done }) fun t => t = { s with fabric := t.fabric } ∧
        SMap.get 0 t.fabric.missed chip = 0 ∧ chip ∉ t.fabric.lost ∧ t.fabric.numbers = f.numbers ∧
        (¬ seqIsMe → chip = f.seqChip → gen < 256 → t.fabric.gen = gen ∧ t.fabric.colls = f.colls) ∧
        (seqIsMe ∨ chip ≠ f.seqChip ∨ 256 ≤ gen → t.fabric.gen = f.gen ∧
          (done = none → t.fabric.colls = f.colls) ∧
          ∀ key n, done = some key → (f.colls.findIdx? fun x => decide (x.key = key)) = some n →
            ∀ i x, i ≤ n → t.fabric.colls[i]? = some x → chip ∈ x.complete))) ∧
    (∀ chip : Nat, 3 ≤ SMap.get 0 f.missed chip → chip ∉ f.lost →
      let hits (d : Nat × Nat × CollKey × CollShape × List Nat) : Prop := chip ∈ d.2.2.2.2
      (seqIsMe → chip < s.pod.podn → chip ≠ me → gives (.heartbeatTimeout chip) fun t => chip ∈ t.fabric.lost ∧
        (∀ d, d ∈ t.fabric.deferred ↔ d ∈ f.deferred ∧ ¬ hits d) ∧
        (∀ d ∈ f.deferred, hits d → ∀ m ∈ d.2.2.2.2, t.Sent (.number m 65536 f.gen d.2.2.1 4)) ∧
        (let others (x : SeqColl) : List Nat := x.members.filter fun m => decide (m ≠ chip)
         let ends (x : SeqColl) : Prop := chip ∈ x.members ∧ (∃ m ∈ others x, m ∉ x.complete) ∧ x.nullStatus = 0
         (∀ x ∈ mine, ends x → (∃ y ∈ t.fabric.colls, y.key = x.key ∧ y.nullStatus = 4) ∧ (x.sent = true → tells t x 4)) ∧
         ((∀ x ∈ f.colls, ∀ y ∈ f.colls, x.key = y.key → x = y) → ∀ x ∈ mine,
           (ends x → { x with members := others x, nullStatus := 4 } ∈ t.fabric.colls) ∧
           (¬ ends x → { x with members := others x } ∈ t.fabric.colls)))) ∧
      (¬ seqIsMe → s.pod.stby = me → s.pod.stby ≠ s.pod.seq → chip = f.seqChip → gives (.heartbeatTimeout chip) fun t =>
        t.fabric = { f with seqChip := me, gen := (f.gen + 1) % 256, missed := [] } ∧
        (∀ x ∈ f.colls, ¬ complete x → tells t x x.nullStatus) ∧
        ∀ d, d < s.pod.podn → t.Sent (.announce d me ((f.gen + 1) % 256)))) ∧
    ∀ (chip gen : Nat), gives (.sequencerAnnounce chip gen) fun t =>
      t.fabric = { f with seqChip := chip, gen := gen } ∧ t.cores = s.cores ∧
      ∀ r c x, c < 8 → x ∈ (s.coreAt r c).colls → x.status = 1 → x.due ≠ 0 → x.withdrawn = false →
        t.Sent (.request chip me (s.partOf r) x.key x.shape (((s.memberGroups x.key).head?.map Group.chips).getD []))

/-! ## The machine as a whole -/

/-- R67, R292, R294: TAKING A FAULT. The first fault of an open step abandons the step, writes its record and enters the
faulting rope's service firmware; no word issues on a later beat. A second one on the same beat takes its place when its
word comes later in the order of R67, and otherwise nothing; a step that is not open takes none. A fault of a service
context's word is recorded likewise and marks the partition, and every open step of it, running or frozen, goes no
further: that it abandons them is the model's choice (log entry 77). CTXBASE stands: what is written before it does is the
model's choice (log entry 14). -/
def Obligations.FaultsAreTaken : Prop :=
  ∀ (cls : FaultClass) (d d2 : Nat) (s : State) (base : Nat), s.ctxbase = some base →
    let p := s.cur.part
    let q := s.part
    let f : FaultRec := { cls := cls, org := s.org, detail := .ofNat 64 d, detail2 := .ofNat 64 d2, beat := q.topo,
                          svc := s.cur.svc }
    let t := s.raise cls d d2
    (s.cur.svc = true →
      s.Recorded t p q.traps f { q with svcFault := true, traps := q.traps + 1, frozen := (t.partAt p).frozen, step := (t.partAt p).step } ∧
      (q.step.outcome = .open_ → (t.partAt p).step = { q.step with outcome := .faulted, watching := false }) ∧
      (q.step.outcome ≠ .open_ → (t.partAt p).step = q.step) ∧
      (t.partAt p).frozen.length = q.frozen.length ∧ ∀ g ∈ (t.partAt p).frozen, g.step.outcome ≠ .open_) ∧
    (s.cur.svc = false →
      (q.fault = none →
        (q.step.outcome = .open_ → s.Recorded t p q.traps f (q.faulted (q.traps + 1) f)) ∧
        (q.step.outcome ≠ .open_ → t = s)) ∧
      (∀ g, q.fault = some g →
        (g.beat = q.topo → s.org.later g.org →
          (s.setSvc g.org.rope { s.svcAt g.org.rope with active := false }).Recorded t p (q.traps - 1) f
            (q.faulted (q.traps - 1 + 1) f)) ∧
        (g.beat ≠ q.topo ∨ ¬ s.org.later g.org → t = s)) ∧
      ∀ x, x ≠ q.topo → ({ q.faulted q.traps f with topo := x } : Partition).issuing = false)

/-- R355, R275: what reset leaves: bring-up at RESET, no image, no CTXBASE, every partition's grid one spare
slot of 1,000 µs that does not run. That memories and registers read as zero is the model's choice (log entries 2 and 3). -/
def Obligations.ResetLeaves : Prop :=
  let s := State.reset
  s.boot = .reset ∧ s.image = none ∧ s.ctxbase = none ∧ s.thermal = .normal ∧ s.frozen = false ∧ s.Canonical ∧
    (∀ a, Mem.byte s.mem a = 0) ∧
    (∀ p, (s.partAt p).slots = [⟨1000, none⟩] ∧ (s.partAt p).running = false ∧ (s.partAt p).hold = none ∧
      (s.partAt p).fault = none ∧ (s.partAt p).step.outcome = .none) ∧
    (∀ r c, s.coreAt r c = Core.reset ∧ ∀ n, (s.coreAt r c).sreg n = 0) ∧ ∀ r, (s.svcAt r).active = false

/-- R74, R317: every step of the device keeps device memory in its canonical form, from any state, reached or not. -/
def Obligations.StepKeepsCanonical : Prop :=
  ∀ (s t : State), s.Canonical → step s = .next t → t.Canonical

/-- R355, R358: no step lowers the fused security version, and the device becomes READY only out of link training, its
fuses then raised to the version of the image that it runs. -/
def Obligations.SecurityVersionNeverFalls : Prop :=
  ∀ (s t : State), step s = .next t → s.fuse ≤ t.fuse ∧
    (s.boot ≠ .ready → t.boot = .ready → s.boot = .train ∧ t.fuse = max s.fuse ((s.image.map (·.svn)).getD 0))

/-- R126 to R137, R144: for every word of the table, decoding what the encoder makes of a well-formed instruction, on a
track that has it, gives that instruction back, with every operand. -/
def Obligations.DecodeInvertsEncode : Prop :=
  ∀ (f : Family) (i : Instr) (w : W32), f ∈ familiesOf i → i.wf = true → encode i = some w → decode f w = .ok i

/-- Words that the spec writes out decode to the instructions it writes beside them. -/
def Obligations.WordsDecode : Prop :=
  decode .s 0x44082002 = .ok (.addi 2 2 1 2) ∧ decode .v 0x02CB0861 = .ok (.vadd 0 9 0 48 33 33) ∧
    decode .s 0x1F801D01 = .ok (.holdx 0 1) ∧ decode .s 0x1F800300 = .ok (.commit 0) ∧
    decode .s 0x1F901820 = .ok (.rdsys 0 4 0x20) ∧ decode .c 0x080C0002 = .ok (.dli 0 3 0 2) ∧
    decode .c 0x05B00CE0 = .ok (.recv 0 3 0 3 7)

/-- R46, R62, R64, R76, R141, R287, R290, R337: A STEP RUNS THE DECODED WORD. Where the word at a unit's program counter is
fetched without poison, passes the checker, is not squashed, decodes to an instruction and is no kernel's last word that
comes late, the step that comes to the unit is exec of that instruction at that state, its turn of the beat taken and a
corrected error of the fetch noted in STATUS. A kernel word whose stage predicate is all false is squashed: it spends its
opportunity and does nothing else. That a late word which is malformed runs, to raise its own fault, is the
model's choice (log entry 64). -/
def Obligations.StepRunsDecodedWord : Prop :=
  ∀ (s : State) (u : UnitId) (w : W32) (i : Instr), s.boot = .ready → s.halted = false →
    let s0 := ({ s with cur := u } : State).spent
    let mark := if u.svc = true then 0 else s0.fetchMark.1
    let s1 := if mark = 1 then s0.onCur fun k => k.sticky stEccCorr else s0
    let due (p : Nat) : Prop := p < s.nparts ∧ (s.partAt p).stopped = false ∧ (s.partAt p).mark = 1 ∧
      (∀ m, m < p → s.beatDue m = none) ∧ s.latchDue p = none ∧ s.nextUnit p = some u
    s0.word = some w → mark ≠ 2 → s1.checkerDiffers w = false →
    (∀ p, due p → majorAssigned u.track w = true → s1.inKernel = true → s1.StageFalse w →
      ∃ t, step s = .next t ∧ s1.Schedules t s1.core []) ∧
    (s1.squashed w = false → decode u.track w = .ok i → (s1.latePass = false ∨ s1.malformed i = true) →
    (∀ p, due p → step s = exec i s1) ∧
    ∀ p r, s.between = true → s.betweenDue = s.serviceDue p r → u = { part := p, rope := r, core := 0, track := .s, svc := true } →
      (s.svcAt r).active = true → (s.svcAt r).resumeAt = none → ((s.partAt p).stopped = true ∨ (s.svcAt r).cause = 2) →
      (s.svcAt r).clock < s.wall / 625000 → (∀ l ∈ (s.svcAt r).seq.latches, (s.svcAt r).period < l.act) →
      (s.svcAt r).seq.due .s (s.svcAt r).period = true → step s = exec i s1)

/-! ## Streams -/

/-- R24, R26, R27, R28, R29, R30, R38, R40, R41, R306, R326, R329: what a commit does to the streams of its context, and a
slot's end after it. The commit moves each stream's pointers past the consumed entries, inverts a staged FLIP, queues a
staged request and lowers the lag of a step that is not the slot's own; alone with this, a RETRACT withdraws, a staged
entry is discarded, fills the gap before it or replaces, an SFORK makes the lowest prepared id a child or is dropped, an
SCANCEL removes a stream without children, and a good RESET resets one. RELEASE sends the entry that the table of R30
names, writes the played record and moves Q on, publishing where E falls behind, and finishes a reset. The premise is
that the context's areas of memory lie apart (Laid). That a commit reads the listening ring anew is the model's choice
(log entry 84), and so is that the rings and the pointers of a stream are addressed physically (log entry 81). -/
def Obligations.CommitsAndReleasesAct : Prop :=
  ∀ (p i : Nat) (s : State),
    let q := s.partAt p
    let r := q.res i
    let c := r.ctx
    s.Laid c → i ∈ q.validIdx →
    -- the commit
    (q.step.resident = i → q.phase = .run → q.step.outcome = .open_ → q.step.anchor + q.step.rdz + 16 ≤ q.topo →
      (∀ a ∈ r.atAnchor, a.sid < 512) → (r.atAnchor.map (·.sid)).Nodup → r.resets = [] →
      let steady (sid : Nat) : Prop := ∀ a ∈ r.atAnchor, a.sid ≠ sid → s.active c a.sid = true → ¬ s.Resets c a
      let commits (P : State → Prop) : Prop := ∃ t, exec (.stepCommit p) s = .next t ∧ P t ∧
        t.flipOf c = (if q.flip = true then 1 - s.flipOf c else s.flipOf c) ∧
        ((t.partAt p).res i).lag = (if q.step.kind = .owned then r.lag else r.lag - 1) ∧
        (q.xstep = none → (t.partAt p).xqueue = q.xqueue) ∧
        ∀ prio, q.xstep = some prio → ∃ x ∈ (t.partAt p).xqueue, x.ctx = c ∧ prio ≤ x.prio
      let alone (sid : Nat) (t : State) : Prop := ∀ a ∈ r.atAnchor, a.sid ≠ sid → s.active c a.sid = true →
        s.Moved t c a ∧ s.Quiet t c a.sid
      let moves (sid : Nat) (t : State) : Prop := ∀ a ∈ r.atAnchor, a.sid = sid → s.Moved t c a
      (q.stage = [] → q.speak = [] → steady 512 → commits fun t => alone 512 t ∧
        ∀ x, (∀ y ∈ (s.regions c).take 3, apart (x, 1) y) → Mem.byte t.mem x = Mem.byte s.mem x) ∧
      ∀ sid, sid < 512 → s.active c sid = true →
        let Q := s.st c sid stQ
        let spk (n : Nat) : Nat := s.st c sid stSpk + 64 * (n % 16)
        (∀ e org pos, s.EndIs c sid e → q.stage = [{ org := org, op := .retract sid pos }] → q.speak = [] → steady 512 →
          commits fun t => alone sid t ∧ moves sid t ∧ t.st c sid stQ = Q ∧
            (max pos Q < e → s.Shown t c sid (max pos Q) ∧ ∀ n, max pos Q ≤ n → n < e → (c, sid, n) ∈ t.retracted) ∧
            (e ≤ max pos Q → s.Quiet t c sid)) ∧
        (∀ e pos x, s.EndIs c sid e → q.stage = [] → q.speak = [x] → x.poison = false → x.bytes.length = 64 →
          leField x.bytes 8 2 = sid → leField x.bytes 0 4 = pos % 2 ^ 32 → pos < Q + 2 ^ 31 → Q < pos + 2 ^ 31 → steady 512 →
          commits fun t => alone sid t ∧ moves sid t ∧ t.st c sid stQ = Q ∧
            (pos < Q ∨ Q + 8 < pos → s.Quiet t c sid ∧ t.st c sid stSpkdrop = min 0xFFFF (s.st c sid stSpkdrop + 1)) ∧
            (Q ≤ pos → pos ≤ Q + 8 → s.Shown t c sid (max e (pos + 1)) ∧ (sid, pos) ∈ (t.partAt p).step.published ∧
              EntryIs (Mem.bytes t.mem (spk pos) 64) pos (if (leField x.bytes 4 2).testBit 2 then 4 else 0) (leField x.bytes 6 1)
                r.lag q.frame (x.bytes.drop 16) ∧
              (∀ n, e ≤ n → n < pos → s.FillIs c (Mem.bytes t.mem (spk n) 64) n 8 r.lag q.frame) ∧
              ∀ n, Q ≤ n → n < e → n ≠ pos → Mem.bytes t.mem (spk n) 64 = Mem.bytes s.mem (spk n) 64)) ∧
        (∀ org, q.stage = [{ org := org, op := .fork sid }] → q.speak = [] → steady 512 →
          ((∀ n, n < 512 → s.st c n stState ≠ 3) → commits fun t => alone 512 t ∧ s.Tells t c 0x14 sid fun _ => True) ∧
          ∀ a child, a ∈ r.atAnchor → a.sid = sid → a.n * s.kvb c * 64 < 65536 → child < 512 → s.st c child stState = 3 →
            (∀ n, n < child → s.st c n stState ≠ 3) → commits fun t => alone 512 t ∧
              t.st c child stState = 1 ∧ t.st c child stParent = sid ∧ t.st c child stRoot = s.st c sid stRoot ∧
              t.st c child stN = t.st c sid stN ∧ t.st c child stQ = t.st c sid stQ ∧ t.st c child stRp = t.st c sid stRp ∧
              t.st c child stKey = (mix (.ofNat 64 (s.st c sid stKey)) (.ofNat 64 child)).toNat ∧
              t.st c child stLate = 0 ∧ t.st c child stStarved = 0 ∧ t.st c child stSpkdrop = 0 ∧ s.Shown t c child Q ∧
              (∃ x ∈ t.tails, x.ctx = c ∧ x.child = child ∧ x.parent = sid ∧ x.ext = a.n * s.kvb c * 64 ∧
                x.half = decide (s.flipOf c = 1) ∧
                ∀ j, j < 4096 → Mem.byte x.pen.cells j = Mem.byte s.mem (s.penaltyAt c sid + j)) ∧
              s.Tells t c 0x13 sid fun bs => leField bs 16 8 = child) ∧
        (∀ org tree, q.stage = [{ org := org, op := .cancel sid tree }] → q.speak = [] →
          (∃ t, exec (.stepCommit p) s = .next t ∧ (c, sid) ∈ (t.partAt p).reclaiming) ∧
          ((s.ctxWord c 0).testBit 0 = false → (∀ x, x < 512 → s.active c x = true → s.st c x stParent ≠ sid) → steady sid →
            commits fun t => alone sid t ∧ t.st c sid stState = 2 ∧ t.st c sid stN = s.st c sid stN ∧
              (∀ n, (c, sid, n) ∉ t.retracted) ∧
              (∀ e, s.EndIs c sid e → t.st c sid stE = Q % 2 ^ 32 ∧ (Q < e → s.Shown t c sid Q)) ∧
              s.Tells t c 0x11 sid fun bs => leField bs 8 8 = (Q + 2 ^ 64 - 1) % 2 ^ 64)) ∧
        ∀ a k, a ∈ r.atAnchor → a.sid = sid → s.Run c a k true → s.Resets c a → q.stage = [] → q.speak = [] →
          (s.ctxWord c 0).testBit 0 = false → (∀ x, x < 512 → s.active c x = true → s.st c x stParent ≠ sid) → steady sid →
          commits fun t => alone sid t ∧ t.st c sid stState = 1 ∧ t.st c sid stN = 0 ∧
            t.st c sid stRp = (a.rp + k + 1) % 2 ^ 32 ∧ t.st c sid stLate = min 0xFFFF (s.st c sid stLate + k) ∧
            t.st c sid stQ = Q ∧ (∀ e, s.EndIs c sid e → t.st c sid stE = Q % 2 ^ 32) ∧ (t.partAt p).reclaiming = q.reclaiming ++ [(c, sid)] ∧
            (t.partAt p).zeroing = q.zeroing ++ [(c, sid)] ∧ ((t.partAt p).res i).resets = [sid]) ∧
    -- the slot's end
    (q.running = true → q.slotEnd ≤ s.wall → q.released = false → q.phase ≠ .gap → q.phase ≠ .lead → q.frozen = [] →
      q.plan = some (.owned, i) → q.skipped = false → q.svcFault = false → q.step.bound = true → q.step.releases = true →
      (∀ j ∈ q.validIdx, j ≠ i → (q.res j).resets = []) →
      ∃ t, exec (.release p) s = .next t ∧ ∀ sid, sid < 512 → s.active c sid = true →
        let Q := s.st c sid stQ
        let old := Mem.bytes s.mem (s.st c sid stSpk + 64 * (Q % 16)) 64
        let skipped := if (c, sid) ∈ s.skipped then 128 else 0
        let committed : Prop := q.step.outcome = .committed
        let miss := if q.step.outcome = .committed then 0 else 16
        let playsAt (bs : List Byte) : Prop := OutMsg.release c sid bs ∈ t.out ∧
          Mem.bytes t.mem (s.st c sid stPlay + 64 * (Q % 16)) 64 = bs ∧ (c, sid) ∉ t.skipped
        (∀ e, s.EndIs c sid e → r.resets = [] → t.st c sid stQ = (Q + 1) % 2 ^ 64 ∧ (c, sid, Q) ∉ t.retracted ∧
          (Q < e → t.st c sid stE = s.st c sid stE ∧ t.st c sid stG = s.st c sid stG) ∧
          (e = Q → s.Shown t c sid (Q + 1)) ∧
          (r.state = .parked → ∃ bs, s.FillIs c bs Q (8 + 256 + skipped) r.lag q.frame ∧ playsAt bs) ∧
          (r.state = .faulted → ∃ bs, s.FillIs c bs Q (8 + skipped) r.lag q.frame ∧ playsAt bs) ∧
          (r.state = .active → e = Q → ∃ bs, playsAt bs ∧
            s.FillIs c bs Q (8 + (if (c, sid, Q) ∈ s.retracted then 64 else 0) + miss + skipped) r.lag q.frame) ∧
          (r.state = .active → Q < e → ∃ bs, playsAt bs ∧ EntryIs bs (leField old 0 4)
            (leField old 4 2 ||| ((if committed ∧ (sid, Q) ∈ q.step.published then 0 else 32) + miss + skipped))
            (leField old 6 1) (leField old 7 1) (leField old 8 4) (old.drop 16))) ∧
        (r.resets = [sid] → committed → (∃ bs, s.FillIs c bs Q (8 + 2 + skipped) r.lag q.frame ∧ playsAt bs) ∧
          t.st c sid stQ = r.lag % 2 ^ 64 ∧ s.Shown t c sid r.lag ∧ ((t.partAt p).res i).resets = []))
end

