-- ==== Sys2Proof/Laws/Decode.lean ====
section
/-!
SUPPORT. Cutting a field out of a word put together of fields: with these three rules a decoded field of an encoded
word is the field itself.
-/

namespace Sys2Proof.Laws

/-- A field that lies in the upper part. -/
theorem cut_high {v w : Nat} (x : BitVec v) (y : BitVec w) (start len : Nat) (h : w ≤ start) :
    (x ++ y).extractLsb' start len = x.extractLsb' (start - w) len := by
  ext i hi
  simp only [BitVec.getElem_extractLsb', BitVec.getLsbD_append]
  have : ¬ start + i < w := by omega
  have e : start + i - w = start - w + i := by omega
  simp [this, e]

/-- A field that lies in the lower part. -/
theorem cut_low {v w : Nat} (x : BitVec v) (y : BitVec w) (start len : Nat) (h : start + len ≤ w) :
    (x ++ y).extractLsb' start len = y.extractLsb' start len := by
  ext i hi
  simp only [BitVec.getElem_extractLsb', BitVec.getLsbD_append]
  have : start + i < w := by omega
  simp [this]

/-- The whole of a field. -/
@[simp] theorem cut_all {w : Nat} (x : BitVec w) : x.extractLsb' 0 w = x := by
  ext i hi; simp

end Sys2Proof.Laws
end

