-- ==== Sys2Proof/Laws/SMap.lean ====
section
/-!
SUPPORT. The laws of sparse maps: read after write, and the canonical form that every operation keeps. The
same laws for byte memories follow.
-/

namespace Sys2Proof.Machine

variable {α : Type}

@[simp] theorem SMap.get_nil (d : α) (k : Nat) : SMap.get d [] k = d := rfl

@[simp] theorem SMap.get_put_same (d : α) (m : SMap α) (k : Nat) (v : α) : SMap.get d (SMap.put m k v) k = v := by
  induction m with
  | nil => simp [SMap.put, SMap.get]
  | cons e m ih =>
    obtain ⟨j, x⟩ := e
    unfold SMap.put
    split_ifs with h₁ h₂
    · simp [SMap.get]
    · simp [SMap.get]
    · simp [SMap.get, h₂, ih]

theorem SMap.get_put_ne (d : α) (m : SMap α) {k i : Nat} (v : α) (h : i ≠ k) :
    SMap.get d (SMap.put m k v) i = SMap.get d m i := by
  induction m with
  | nil => simp [SMap.put, SMap.get, Ne.symm h]
  | cons e m ih =>
    obtain ⟨j, x⟩ := e
    unfold SMap.put
    split_ifs with h₁ h₂
    · simp [SMap.get, Ne.symm h]
    · subst h₂; simp [SMap.get, Ne.symm h]
    · simp [SMap.get, ih]

@[simp] theorem SMap.get_drop_same (d : α) (m : SMap α) (k : Nat) : SMap.get d (SMap.drop m k) k = d := by
  induction m with
  | nil => rfl
  | cons e m ih =>
    obtain ⟨j, x⟩ := e
    unfold SMap.drop
    split_ifs with h
    · exact ih
    · simp [SMap.get, h, ih]

theorem SMap.get_drop_ne (d : α) (m : SMap α) {k i : Nat} (h : i ≠ k) : SMap.get d (SMap.drop m k) i = SMap.get d m i := by
  induction m with
  | nil => rfl
  | cons e m ih =>
    obtain ⟨j, x⟩ := e
    unfold SMap.drop
    split_ifs with h₁
    · subst h₁; simp [SMap.get, Ne.symm h, ih]
    · simp [SMap.get, ih]

variable [DecidableEq α]

/-- A read after a write to the same key gives what was written. -/
@[simp] theorem SMap.get_set_same (d : α) (m : SMap α) (k : Nat) (v : α) : SMap.get d (SMap.set d m k v) k = v := by
  unfold SMap.set
  split_ifs with h
  · simp [h]
  · simp

/-- A write leaves every other key alone. -/
theorem SMap.get_set_ne (d : α) (m : SMap α) {k i : Nat} (v : α) (h : i ≠ k) :
    SMap.get d (SMap.set d m k v) i = SMap.get d m i := by
  unfold SMap.set
  split_ifs
  · exact SMap.get_drop_ne d m h
  · exact SMap.get_put_ne d m v h

theorem SMap.get_set (d : α) (m : SMap α) (k i : Nat) (v : α) :
    SMap.get d (SMap.set d m k v) i = if i = k then v else SMap.get d m i := by
  split_ifs with h
  · subst h; simp
  · exact SMap.get_set_ne d m v h

theorem SMap.get_setAll (d : α) (m : SMap α) (a i : Nat) (vs : List α) :
    SMap.get d (SMap.setAll d m a vs) i = if a ≤ i ∧ i < a + vs.length then vs.getD (i - a) d else SMap.get d m i := by
  induction vs generalizing m a with
  | nil => simp only [SMap.setAll, List.length_nil]; rw [if_neg (by omega)]
  | cons v vs ih =>
    rw [SMap.setAll, ih, SMap.get_set]
    simp only [List.length_cons]
    by_cases h₁ : i = a
    · subst h₁
      rw [if_neg (by omega), if_pos rfl, if_pos (by omega)]
      simp
    · by_cases h₂ : a + 1 ≤ i ∧ i < a + 1 + vs.length
      · rw [if_pos h₂, if_pos (by omega)]
        obtain ⟨n, rfl⟩ : ∃ n, i = a + 1 + n := ⟨i - (a + 1), by omega⟩
        have e₁ : a + 1 + n - (a + 1) = n := by omega
        have e₂ : a + 1 + n - a = n + 1 := by omega
        simp [e₁, e₂]
      · rw [if_neg h₂, if_neg h₁, if_neg (by omega)]

/-! ## The canonical form -/

theorem SMap.wfFrom_mono {d : α} {m : SMap α} {b c : Nat} (h : b ≤ c) (w : SMap.wfFrom d c m = true) :
    SMap.wfFrom d b m = true := by
  cases m with
  | nil => rfl
  | cons e m =>
    obtain ⟨j, x⟩ := e
    simp only [SMap.wfFrom, Bool.and_eq_true, decide_eq_true_eq] at w ⊢
    exact ⟨⟨by omega, w.1.2⟩, w.2⟩

theorem SMap.wfFrom_drop {d : α} {m : SMap α} {b : Nat} (k : Nat) (w : SMap.wfFrom d b m = true) :
    SMap.wfFrom d b (SMap.drop m k) = true := by
  induction m generalizing b with
  | nil => rfl
  | cons e m ih =>
    obtain ⟨j, x⟩ := e
    simp only [SMap.wfFrom, Bool.and_eq_true, decide_eq_true_eq] at w
    unfold SMap.drop
    split_ifs
    · exact SMap.wfFrom_mono (by omega) (ih w.2)
    · simp only [SMap.wfFrom, Bool.and_eq_true, decide_eq_true_eq]
      exact ⟨w.1, ih w.2⟩

theorem SMap.wfFrom_put {d : α} {m : SMap α} {b k : Nat} {v : α} (hk : b ≤ k) (hv : v ≠ d)
    (w : SMap.wfFrom d b m = true) : SMap.wfFrom d b (SMap.put m k v) = true := by
  induction m generalizing b with
  | nil => simp [SMap.put, SMap.wfFrom, hk, hv]
  | cons e m ih =>
    obtain ⟨j, x⟩ := e
    simp only [SMap.wfFrom, Bool.and_eq_true, decide_eq_true_eq] at w
    unfold SMap.put
    split_ifs with h₁ h₂
    · simp only [SMap.wfFrom, Bool.and_eq_true, decide_eq_true_eq]
      exact ⟨⟨hk, hv⟩, ⟨by omega, w.1.2⟩, w.2⟩
    · subst h₂
      simp only [SMap.wfFrom, Bool.and_eq_true, decide_eq_true_eq]
      exact ⟨⟨hk, hv⟩, w.2⟩
    · simp only [SMap.wfFrom, Bool.and_eq_true, decide_eq_true_eq]
      exact ⟨w.1, ih (by omega) w.2⟩

/-- A write keeps the canonical form. -/
theorem SMap.wf_set {d : α} {m : SMap α} (k : Nat) (v : α) (w : SMap.wf d m = true) : SMap.wf d (SMap.set d m k v) = true := by
  unfold SMap.set
  split_ifs with h
  · exact SMap.wfFrom_drop k w
  · exact SMap.wfFrom_put (Nat.zero_le k) h w

/-- A run of writes keeps it. -/
theorem SMap.wf_setAll {d : α} {m : SMap α} (k : Nat) (vs : List α) (w : SMap.wf d m = true) :
    SMap.wf d (SMap.setAll d m k vs) = true := by
  induction vs generalizing m k with
  | nil => exact w
  | cons v vs ih => exact ih (k + 1) (SMap.wf_set k v w)

theorem SMap.wfFrom_filter {d : α} {m : SMap α} {b : Nat} (p : Nat × α → Bool) (w : SMap.wfFrom d b m = true) :
    SMap.wfFrom d b (m.filter p) = true := by
  induction m generalizing b with
  | nil => rfl
  | cons e m ih =>
    obtain ⟨j, x⟩ := e
    simp only [SMap.wfFrom, Bool.and_eq_true, decide_eq_true_eq] at w
    rw [List.filter_cons]
    split_ifs
    · simp only [SMap.wfFrom, Bool.and_eq_true, decide_eq_true_eq]
      exact ⟨w.1, ih w.2⟩
    · exact SMap.wfFrom_mono (by omega) (ih w.2)

/-- Dropping a range of keys keeps it. -/
theorem SMap.wf_clear {d : α} {m : SMap α} (lo hi : Nat) (w : SMap.wf d m = true) : SMap.wf d (SMap.clear m lo hi) = true :=
  SMap.wfFrom_filter _ w

theorem SMap.wf_modify {d : α} {m : SMap α} (k : Nat) (f : α → α) (w : SMap.wf d m = true) :
    SMap.wf d (SMap.modify d m k f) = true := SMap.wf_set k _ w

/-! ## Byte memories -/

/-- Reading one byte after a write of several. -/
theorem Mem.byte_put (m : SMap Byte) (a i : Nat) (bs : List Byte) :
    Mem.byte (Mem.put m a bs) i = if a ≤ i ∧ i < a + bs.length then bs.getD (i - a) 0 else Mem.byte m i :=
  SMap.get_setAll 0 m a i bs

/-- Every byte outside the written ones reads as before. -/
theorem Mem.byte_put_outside (m : SMap Byte) {a i : Nat} {bs : List Byte} (h : i < a ∨ a + bs.length ≤ i) :
    Mem.byte (Mem.put m a bs) i = Mem.byte m i := by rw [Mem.byte_put, if_neg (by omega)]

theorem Mem.wf_put {m : SMap Byte} (a : Nat) (bs : List Byte) (w : Mem.wf m = true) : Mem.wf (Mem.put m a bs) = true :=
  SMap.wf_setAll a bs w

theorem Mem.wf_putNat {m : SMap Byte} (a n x : Nat) (w : Mem.wf m = true) : Mem.wf (Mem.putNat m a n x) = true :=
  Mem.wf_put a _ w

theorem Mem.wf_putCells {m : SMap Byte} (cs : List (Nat × Byte)) (w : Mem.wf m = true) : Mem.wf (Mem.putCells m cs) = true := by
  induction cs generalizing m with
  | nil => exact w
  | cons c cs ih => exact ih (SMap.wf_set c.1 c.2 w)

theorem Mem.wf_clear {m : SMap Byte} (lo hi : Nat) (w : Mem.wf m = true) : Mem.wf (SMap.clear m lo hi) = true :=
  SMap.wf_clear lo hi w

end Sys2Proof.Machine
end

