-- ==== Sys2Proof/Laws/State.lean ====
section
/-!
SUPPORT. What each shared update of the state leaves alone, one fact at a time, and what an issued word
does: the lemmas that later proofs cite in place of unfolding the operations of Ops.lean.
-/

namespace Sys2Proof.Machine

/-! ## Fields under the updates -/

@[simp] theorem State.setCoreAt_cur (s : State) (r c : Nat) (k : Core) : (s.setCoreAt r c k).cur = s.cur := rfl
@[simp] theorem State.setCoreAt_svcs (s : State) (r c : Nat) (k : Core) : (s.setCoreAt r c k).svcs = s.svcs := rfl
@[simp] theorem State.setCoreAt_parts (s : State) (r c : Nat) (k : Core) : (s.setCoreAt r c k).parts = s.parts := rfl
@[simp] theorem State.setCoreAt_mem (s : State) (r c : Nat) (k : Core) : (s.setCoreAt r c k).mem = s.mem := rfl
@[simp] theorem State.setCoreAt_memEcc (s : State) (r c : Nat) (k : Core) : (s.setCoreAt r c k).memEcc = s.memEcc := rfl
@[simp] theorem State.setCoreAt_caches (s : State) (r c : Nat) (k : Core) : (s.setCoreAt r c k).caches = s.caches := rfl
@[simp] theorem State.setCoreAt_firmware (s : State) (r c : Nat) (k : Core) : (s.setCoreAt r c k).firmware = s.firmware := rfl
@[simp] theorem State.setCoreAt_wall (s : State) (r c : Nat) (k : Core) : (s.setCoreAt r c k).wall = s.wall := rfl
@[simp] theorem State.setSvc_cur (s : State) (r : Nat) (v : Service) : (s.setSvc r v).cur = s.cur := rfl
@[simp] theorem State.setSvc_cores (s : State) (r : Nat) (v : Service) : (s.setSvc r v).cores = s.cores := rfl
@[simp] theorem State.setSvc_parts (s : State) (r : Nat) (v : Service) : (s.setSvc r v).parts = s.parts := rfl
@[simp] theorem State.setSvc_mem (s : State) (r : Nat) (v : Service) : (s.setSvc r v).mem = s.mem := rfl
@[simp] theorem State.setSvc_memEcc (s : State) (r : Nat) (v : Service) : (s.setSvc r v).memEcc = s.memEcc := rfl
@[simp] theorem State.setSvc_firmware (s : State) (r : Nat) (v : Service) : (s.setSvc r v).firmware = s.firmware := rfl
@[simp] theorem State.setSvc_wall (s : State) (r : Nat) (v : Service) : (s.setSvc r v).wall = s.wall := rfl
@[simp] theorem State.setPart_cur (s : State) (p : Nat) (q : Partition) : (s.setPart p q).cur = s.cur := rfl
@[simp] theorem State.setPart_cores (s : State) (p : Nat) (q : Partition) : (s.setPart p q).cores = s.cores := rfl
@[simp] theorem State.setPart_svcs (s : State) (p : Nat) (q : Partition) : (s.setPart p q).svcs = s.svcs := rfl
@[simp] theorem State.setPart_mem (s : State) (p : Nat) (q : Partition) : (s.setPart p q).mem = s.mem := rfl
@[simp] theorem State.setPart_memEcc (s : State) (p : Nat) (q : Partition) : (s.setPart p q).memEcc = s.memEcc := rfl
@[simp] theorem State.setPart_firmware (s : State) (p : Nat) (q : Partition) : (s.setPart p q).firmware = s.firmware := rfl
@[simp] theorem State.setPart_wall (s : State) (p : Nat) (q : Partition) : (s.setPart p q).wall = s.wall := rfl
@[simp] theorem State.onPart_cur (s : State) (p : Nat) (f : Partition → Partition) : (s.onPart p f).cur = s.cur := rfl
@[simp] theorem State.onPart_cores (s : State) (p : Nat) (f : Partition → Partition) : (s.onPart p f).cores = s.cores := rfl
@[simp] theorem State.onPart_svcs (s : State) (p : Nat) (f : Partition → Partition) : (s.onPart p f).svcs = s.svcs := rfl
@[simp] theorem State.onPart_mem (s : State) (p : Nat) (f : Partition → Partition) : (s.onPart p f).mem = s.mem := rfl
@[simp] theorem State.onCore_mem (s : State) (r c : Nat) (f : Core → Core) : (s.onCore r c f).mem = s.mem := rfl
@[simp] theorem State.onCore_cur (s : State) (r c : Nat) (f : Core → Core) : (s.onCore r c f).cur = s.cur := rfl

@[simp] theorem State.setCoreAt_fabric (s : State) (r c : Nat) (k : Core) : (s.setCoreAt r c k).fabric = s.fabric := rfl
@[simp] theorem State.setCoreAt_walks (s : State) (r c : Nat) (k : Core) : (s.setCoreAt r c k).walks = s.walks := rfl
@[simp] theorem State.setCoreAt_out (s : State) (r c : Nat) (k : Core) : (s.setCoreAt r c k).out = s.out := rfl
@[simp] theorem State.setCoreAt_tails (s : State) (r c : Nat) (k : Core) : (s.setCoreAt r c k).tails = s.tails := rfl
@[simp] theorem State.setCoreAt_activated (s : State) (r c : Nat) (k : Core) : (s.setCoreAt r c k).activated = s.activated := rfl
@[simp] theorem State.setCoreAt_evSent (s : State) (r c : Nat) (k : Core) : (s.setCoreAt r c k).evSent = s.evSent := rfl
@[simp] theorem State.setSvc_fabric (s : State) (r : Nat) (v : Service) : (s.setSvc r v).fabric = s.fabric := rfl
@[simp] theorem State.setSvc_walks (s : State) (r : Nat) (v : Service) : (s.setSvc r v).walks = s.walks := rfl
@[simp] theorem State.setSvc_out (s : State) (r : Nat) (v : Service) : (s.setSvc r v).out = s.out := rfl
@[simp] theorem State.setSvc_tails (s : State) (r : Nat) (v : Service) : (s.setSvc r v).tails = s.tails := rfl
@[simp] theorem State.setSvc_activated (s : State) (r : Nat) (v : Service) : (s.setSvc r v).activated = s.activated := rfl
@[simp] theorem State.setSvc_evSent (s : State) (r : Nat) (v : Service) : (s.setSvc r v).evSent = s.evSent := rfl
@[simp] theorem State.setPart_fabric (s : State) (p : Nat) (q : Partition) : (s.setPart p q).fabric = s.fabric := rfl
@[simp] theorem State.setPart_walks (s : State) (p : Nat) (q : Partition) : (s.setPart p q).walks = s.walks := rfl
@[simp] theorem State.setPart_out (s : State) (p : Nat) (q : Partition) : (s.setPart p q).out = s.out := rfl
@[simp] theorem State.setPart_tails (s : State) (p : Nat) (q : Partition) : (s.setPart p q).tails = s.tails := rfl
@[simp] theorem State.setPart_activated (s : State) (p : Nat) (q : Partition) : (s.setPart p q).activated = s.activated := rfl
@[simp] theorem State.setPart_evSent (s : State) (p : Nat) (q : Partition) : (s.setPart p q).evSent = s.evSent := rfl
@[simp] theorem State.onPart_fabric (s : State) (p : Nat) (f : Partition → Partition) : (s.onPart p f).fabric = s.fabric := rfl
@[simp] theorem State.onPart_walks (s : State) (p : Nat) (f : Partition → Partition) : (s.onPart p f).walks = s.walks := rfl
@[simp] theorem State.onPart_out (s : State) (p : Nat) (f : Partition → Partition) : (s.onPart p f).out = s.out := rfl
@[simp] theorem State.onPart_tails (s : State) (p : Nat) (f : Partition → Partition) : (s.onPart p f).tails = s.tails := rfl
@[simp] theorem State.onPart_activated (s : State) (p : Nat) (f : Partition → Partition) : (s.onPart p f).activated = s.activated := rfl
@[simp] theorem State.onPart_evSent (s : State) (p : Nat) (f : Partition → Partition) : (s.onPart p f).evSent = s.evSent := rfl
@[simp] theorem State.onFabric_cores (s : State) (f : Fabric → Fabric) : (s.onFabric f).cores = s.cores := rfl
@[simp] theorem State.onFabric_svcs (s : State) (f : Fabric → Fabric) : (s.onFabric f).svcs = s.svcs := rfl
@[simp] theorem State.onFabric_parts (s : State) (f : Fabric → Fabric) : (s.onFabric f).parts = s.parts := rfl
@[simp] theorem State.onFabric_mem (s : State) (f : Fabric → Fabric) : (s.onFabric f).mem = s.mem := rfl
@[simp] theorem State.onFabric_walks (s : State) (f : Fabric → Fabric) : (s.onFabric f).walks = s.walks := rfl
@[simp] theorem State.onFabric_out (s : State) (f : Fabric → Fabric) : (s.onFabric f).out = s.out := rfl
@[simp] theorem State.onFabric_cur (s : State) (f : Fabric → Fabric) : (s.onFabric f).cur = s.cur := rfl
@[simp] theorem State.onFabric_wall (s : State) (f : Fabric → Fabric) : (s.onFabric f).wall = s.wall := rfl
@[simp] theorem State.onFabric_fabric (s : State) (f : Fabric → Fabric) : (s.onFabric f).fabric = f s.fabric := rfl

theorem State.coreAt_setCoreAt (s : State) (r c r' c' : Nat) (k : Core) :
    (s.setCoreAt r c k).coreAt r' c' = if 8 * r' + c' = 8 * r + c then k else s.coreAt r' c' := by
  simp [State.coreAt, State.setCoreAt, SMap.get_set, eq_comm]

@[simp] theorem State.coreAt_setCoreAt_same (s : State) (r c : Nat) (k : Core) : (s.setCoreAt r c k).coreAt r c = k := by
  simp [State.coreAt_setCoreAt]

theorem State.svcAt_setSvc (s : State) (r r' : Nat) (v : Service) :
    (s.setSvc r v).svcAt r' = if r' = r then v else s.svcAt r' := by
  simp [State.svcAt, State.setSvc, SMap.get_set, eq_comm]

@[simp] theorem State.svcAt_setSvc_same (s : State) (r : Nat) (v : Service) : (s.setSvc r v).svcAt r = v := by
  simp [State.svcAt_setSvc]

theorem State.partAt_setPart (s : State) (p p' : Nat) (q : Partition) :
    (s.setPart p q).partAt p' = if p' = p then q else s.partAt p' := by
  simp [State.partAt, State.setPart, SMap.get_set, eq_comm]

@[simp] theorem State.partAt_setPart_same (s : State) (p : Nat) (q : Partition) : (s.setPart p q).partAt p = q := by
  simp [State.partAt_setPart]

/-! ## The issuing unit -/

@[simp] theorem State.setCore_cur (s : State) (k : Core) : (s.setCore k).cur = s.cur := by
  unfold State.setCore; split <;> rfl

@[simp] theorem State.onCur_cur (s : State) (f : Core → Core) : (s.onCur f).cur = s.cur := State.setCore_cur ..

@[simp] theorem State.setCore_core (s : State) (k : Core) : (s.setCore k).core = k := by
  unfold State.core
  cases h : s.cur.svc <;> simp [State.setCore, h]

@[simp] theorem State.onCur_core (s : State) (f : Core → Core) : (s.onCur f).core = f s.core := State.setCore_core ..

@[simp] theorem State.onCur_now (s : State) (f : Core → Core) : (s.onCur f).now = s.now := by
  unfold State.now State.onCur State.setCore
  cases h : s.cur.svc <;> simp [h, State.part, State.partAt]

@[simp] theorem State.onCur_part (s : State) (f : Core → Core) : (s.onCur f).part = s.part := by
  unfold State.part State.partAt State.onCur State.setCore
  cases s.cur.svc <;> simp

@[simp] theorem State.onCur_mem (s : State) (f : Core → Core) : (s.onCur f).mem = s.mem := by
  unfold State.onCur State.setCore; split <;> rfl

@[simp] theorem State.onCur_firmware (s : State) (f : Core → Core) : (s.onCur f).firmware = s.firmware := by
  unfold State.onCur State.setCore; split <;> rfl

theorem State.onlyUnit_onCur (s : State) (f : Core → Core) : s.OnlyUnit (s.onCur f) := by
  unfold State.OnlyUnit State.onCur State.setCore
  cases h : s.cur.svc
  · simp only [Bool.false_eq_true, if_false]
    refine ⟨rfl, fun n hn => ?_⟩
    simp [State.setCoreAt, SMap.get_set, hn]
  · simp only [if_true]
    refine ⟨rfl, ?_, fun r hr => ?_⟩
    · simp
    · simp [State.svcAt_setSvc, hr]

theorem State.OnlyUnit.cur {s t : State} (h : s.OnlyUnit t) : t.cur = s.cur := by
  unfold State.OnlyUnit at h
  split at h <;> rw [h.1]

theorem State.OnlyUnit.trans {s t u : State} (h : s.OnlyUnit t) (h' : t.OnlyUnit u) : s.OnlyUnit u := by
  have hc := h.cur
  unfold State.OnlyUnit at *
  rw [hc] at h'
  cases hs : s.cur.svc
  · simp only [hs, Bool.false_eq_true, if_false] at *
    exact ⟨by rw [h'.1, h.1], fun n hn => (h'.2 n hn).trans (h.2 n hn)⟩
  · simp only [hs, if_true] at *
    refine ⟨by rw [h'.1, h.1], ?_, fun r hr => (h'.2.2 r hr).trans (h.2.2 r hr)⟩
    rw [h'.2.1, h.2.1]

/-! ## Tracks -/

@[simp] theorem Core.track_setTrack_same (k : Core) (f : Family) (t : Track) : (k.setTrack f t).track f = t := by
  cases f <;> rfl

theorem Core.track_setTrack_ne (k : Core) {f g : Family} (t : Track) (h : g ≠ f) : (k.setTrack f t).track g = k.track g := by
  cases f <;> cases g <;> first | rfl | exact absurd rfl h

@[simp] theorem Core.setTrack_kregs (k : Core) (f : Family) (t : Track) : (k.setTrack f t).kregs = k.kregs := by
  cases f <;> rfl

/-- A change of one track, which may write k registers too. -/
def Core.TrackOnly (k k' : Core) (f : Family) : Prop :=
  k' = { k with kregs := k'.kregs, s := k'.s, v := k'.v, m := k'.m, c := k'.c } ∧ (∀ g, g ≠ f → k'.track g = k.track g)

theorem Core.trackOnly_setTrack (k : Core) (f : Family) (t : Track) : k.TrackOnly (k.setTrack f t) f := by
  refine ⟨by cases f <;> rfl, fun g hg => Core.track_setTrack_ne k t hg⟩

theorem Core.TrackOnly.trans {k k' k'' : Core} {f : Family} (h : k.TrackOnly k' f) (h' : k'.TrackOnly k'' f) :
    k.TrackOnly k'' f := by
  refine ⟨by rw [h'.1, h.1], fun g hg => (h'.2 g hg).trans (h.2 g hg)⟩

theorem loopBack_kregs (ls : List KLoop) (pc : Nat) (ks : SMap W64) (n : Nat) :
    SMap.get 0 (loopBack ls pc ks).2.2 n = SMap.get 0 ks n ∨ ∃ l ∈ ls, l.kreg = n := by
  induction ls generalizing ks with
  | nil => exact .inl rfl
  | cons l ls ih =>
    unfold loopBack
    split
    · by_cases hk : l.kreg = n
      · exact .inr ⟨l, by simp, hk⟩
      · dsimp only
        split
        · simp [SMap.get_set, Ne.symm hk]
        · rcases ih (SMap.set 0 ks l.kreg (BitVec.ofNat 64 (l.count + 1))) with h | ⟨l', h, h'⟩
          · left; rw [h]; simp [SMap.get_set, Ne.symm hk]
          · exact .inr ⟨l', by simp [h], h'⟩
    · exact .inl rfl

/-- What falling through does to a core. -/
theorem Core.fall_spec (k : Core) (f : Family) (pc : Nat) :
    k.TrackOnly (k.fall f pc).1 f ∧
      ((k.fall f pc).1.track f = { k.track f with
        pc := ((k.fall f pc).1.track f).pc, kloops := ((k.fall f pc).1.track f).kloops,
        mloop := ((k.fall f pc).1.track f).mloop, cloop := ((k.fall f pc).1.track f).cloop }) ∧
      ∀ n, (k.fall f pc).1.kreg n = k.kreg n ∨ (f = .s ∧ ∃ l ∈ k.s.kloops, l.kreg = n) := by
  cases f
  · refine ⟨⟨rfl, fun g hg => by cases g <;> first | rfl | exact absurd rfl hg⟩, rfl, fun n => ?_⟩
    rcases loopBack_kregs k.s.kloops pc k.kregs n with h | h
    · exact .inl h
    · exact .inr ⟨rfl, h⟩
  · refine ⟨⟨rfl, fun g hg => by cases g <;> first | rfl | exact absurd rfl hg⟩, ?_, fun n => .inl rfl⟩
    show (fallLoop k.v pc).1 = _
    unfold Core.fall fallLoop
    cases k.v.mloop <;> dsimp only <;> (try split) <;> (try split) <;> rfl
  · refine ⟨⟨rfl, fun g hg => by cases g <;> first | rfl | exact absurd rfl hg⟩, ?_, fun n => .inl rfl⟩
    show (fallLoop k.m pc).1 = _
    unfold Core.fall fallLoop
    cases k.m.mloop <;> dsimp only <;> (try split) <;> (try split) <;> rfl
  · refine ⟨⟨rfl, fun g hg => by cases g <;> first | rfl | exact absurd rfl hg⟩, ?_, fun n => .inl rfl⟩
    show fallC k.c pc = _
    unfold Core.fall fallC
    cases k.c.cloop <;> dsimp only <;> (try split) <;> (try split) <;> rfl

/-! ## Issuing -/

theorem Core.TrackOnly.issued {k k' : Core} {f : Family} (h : k.TrackOnly k' f) (ht : (k.track f).Moved (k'.track f))
    (hk : ∀ n, k'.kreg n = k.kreg n ∨ (f = .s ∧ ∃ l ∈ k.s.kloops, l.kreg = n)) : k.Issued k' f [] := by
  refine ⟨?_, ht, h.2, hk⟩
  rw [List.append_nil]; exact h.1

/-- What the step to the next word does to a core (R47). -/
theorem Core.retire_issued (k : Core) (src : Nat → Option W32) (beat : Nat) (f : Family) (dead : Nat)
    (j : Option (Nat × Nat)) : k.Issued (k.retire src beat f dead j) f [] := by
  unfold Core.retire
  set k1 := k.onTrack f (Track.issued beat) with h1
  set k2 := k1.onTrack f (fun t => { t with join := j <|> t.join }) with h2
  have t1 : k.TrackOnly k2 f := (k.trackOnly_setTrack f _).trans (k1.trackOnly_setTrack f _)
  have e2 : k2.track f = { (Track.issued beat (k.track f)) with join := j <|> (Track.issued beat (k.track f)).join } := by
    simp [h1, h2, Core.onTrack]
  have s2 : k2.s.kloops = k.s.kloops := by
    cases f <;> rfl
  have n2 : ∀ n, k2.kreg n = k.kreg n := fun n => by
    simp [h1, h2, Core.kreg, Core.onTrack]
  -- the move itself
  have fw : k2.TrackOnly (k2.forward f).1 f ∧
      ((k2.forward f).1.track f = { k2.track f with
        pc := ((k2.forward f).1.track f).pc, kloops := ((k2.forward f).1.track f).kloops,
        mloop := ((k2.forward f).1.track f).mloop, cloop := ((k2.forward f).1.track f).cloop,
        mac := ((k2.forward f).1.track f).mac }) ∧
      ∀ n, (k2.forward f).1.kreg n = k2.kreg n ∨ (f = .s ∧ ∃ l ∈ k2.s.kloops, l.kreg = n) := by
    unfold Core.forward
    dsimp only
    split
    · split
      · exact ⟨k2.trackOnly_setTrack f _, by simp, fun n => .inl (by simp [Core.kreg])⟩
      · rename_i r _ _
        set k3 := k2.setTrack f { k2.track f with mac := none } with h3
        obtain ⟨a, b, c⟩ := k3.fall_spec f (k2.track f).pc
        refine ⟨(k2.trackOnly_setTrack f _).trans a, ?_, fun n => ?_⟩
        · have e3 : k3.track f = { k2.track f with mac := none } := by simp [h3]
          have m : ((k3.fall f (k2.track f).pc).1.track f).mac = none := by rw [b, e3]
          rw [m]
          exact b.trans (by rw [e3])
        · rcases c n with c | ⟨c, d⟩
          · left; rw [c]; simp [h3, Core.kreg]
          · right; refine ⟨c, ?_⟩
            subst c; exact d
    · rename_i hm
      obtain ⟨a, b, c⟩ := k2.fall_spec f ((k2.track f).pc + 1)
      have m : ((k2.fall f ((k2.track f).pc + 1)).1.track f).mac = (k2.track f).mac := by rw [b]
      refine ⟨a, ?_, c⟩
      rw [m]
      exact b
  obtain ⟨a, b, c⟩ := fw
  set k4 := (k2.forward f).1 with h4
  refine Core.TrackOnly.issued ((t1.trans a).trans (k4.trackOnly_setTrack f _)) ?_ fun n => ?_
  · change Track.Moved _ ((k4.setTrack f { k4.track f with wait := k4.waitFor src f ((k2.forward f).2.getD dead) }).track f)
    rw [Core.track_setTrack_same]
    generalize k4.waitFor src f ((k2.forward f).2.getD dead) = w
    rw [e2] at b
    generalize k4.track f = x at b ⊢
    cases x
    simp only [Track.issued, Track.mk.injEq, true_and] at b
    unfold Track.Moved
    simp only [Track.mk.injEq, true_and]
    clear_value k4 k2 k1
    clear a c t1 s2 n2 h1 h2 h4 e2
    obtain ⟨-, b1, b2, b3, b4, b5, b6, -, -, b7, b8⟩ := b
    simp [b1, b2, b3, b4, b5, b6, b7, b8]
  · have : (k4.onTrack f fun t => { t with wait := k4.waitFor src f ((k2.forward f).2.getD dead) }).kreg n = k4.kreg n := by
      simp [Core.kreg, Core.onTrack]
    rcases c n with c | ⟨c, d⟩
    · left; rw [this, c, n2]
    · right; exact ⟨c, by rwa [s2] at d⟩

/-! ## The word that follows (R47) -/

theorem Core.waitFor_eq (k : Core) (src : Nat → Option W32) (f : Family) (d : Nat) : k.waitFor src f d = d + k.gapHere f src := by
  unfold Core.waitFor Core.gapHere Track.atJoin Core.nextWord gapAt atPlace
  generalize k.track f = t
  obtain ⟨pc, wait, fresh, live, done, mac, belay, belays, held, resync, join, kloops, mloop, loopAt, cloop, checker⟩ := t
  dsimp only
  cases mac with
  | some r => cases join <;> simp [Nat.add_comm]
  | none =>
    cases join with
    | none => cases src pc <;> simp [Nat.add_comm]
    | some x =>
      by_cases h : x.1 = pc
      · simp [h]
      · have h' : pc ≠ x.1 := fun e => h e.symm
        cases src pc <;> simp [h, h', Nat.add_comm]

/-- Setting the wait of a track leaves the GAP that it is to wait. -/
theorem Core.gapHere_wait (k : Core) (src : Nat → Option W32) (f : Family) (w : Nat) :
    (k.onTrack f fun t => { t with wait := w }).gapHere f src = k.gapHere f src := by
  cases f <;> rfl

theorem Core.tripsEnd_loopBack (ls : List KLoop) (n : Nat) (ks : SMap W64) :
    let ends (l : KLoop) : Bool := decide (n = l.body + l.len)
    let out := ls.takeWhile fun l => ends l && decide (l.trip ≤ l.count + 1)
    let rest := ls.dropWhile fun l => ends l && decide (l.trip ≤ l.count + 1)
    let back := rest.head?.filter ends
    let x := loopBack ls n ks
    x.2.1 = (back.map (·.body)).getD n ∧
      x.1 = (back.map fun l => { l with count := l.count + 1 }).toList ++ (if back.isSome then rest.tail else rest) ∧
      ∀ m, SMap.get 0 x.2.2 m = match (out ++ back.toList).reverse.find? fun l => decide (l.kreg = m) with
        | some l => .ofNat 64 (l.count + 1)
        | none => SMap.get 0 ks m := by
  induction ls generalizing ks with
  | nil => exact ⟨rfl, rfl, fun m => rfl⟩
  | cons l ls ih =>
    unfold loopBack
    by_cases hn : n = l.body + l.len
    · by_cases ht : l.trip ≤ l.count + 1
      · have : ¬ l.count + 1 < l.trip := by omega
        obtain ⟨a, b, c⟩ := ih (SMap.set 0 ks l.kreg (BitVec.ofNat 64 (l.count + 1)))
        simp only [hn, ht, this, if_true, if_false, decide_true, Bool.true_and, List.takeWhile_cons, List.dropWhile_cons] at a b c ⊢
        refine ⟨a, b, fun m => ?_⟩
        rw [c m, List.cons_append, List.reverse_cons, List.find?_append]
        cases h : List.find? (fun l : KLoop => decide (l.kreg = m)) (List.reverse _) with
        | some y => rfl
        | none =>
          simp only [Option.none_or]
          by_cases hm : l.kreg = m
          · subst hm; simp
          · simp [hm, SMap.get_set, Ne.symm hm]
      · have : l.count + 1 < l.trip := by omega
        simp only [hn, ht, this, if_true, decide_true, decide_false, Bool.true_and, List.takeWhile_cons, List.dropWhile_cons,
          Bool.false_eq_true, if_false, List.head?_cons, Option.filter_some]
        refine ⟨rfl, rfl, fun m => ?_⟩
        by_cases hm : l.kreg = m
        · subst hm; simp
        · simp [hm, SMap.get_set, Ne.symm hm]
    · simp [hn, Option.filter_some]

/-- A track that falls through to n, once its wait is set, does what Core.Falls says. -/
theorem Core.fall_falls (k : Core) (f : Family) (src : Nat → Option W32) (d n : Nat) (hm : (k.track f).mac = none) :
    k.Falls ((k.fall f n).1.onTrack f fun t => { t with wait := (k.fall f n).1.waitFor src f ((k.fall f n).2.getD d) }) f src d n := by
  simp only [Core.Falls, Core.gapHere_wait, Core.waitFor_eq]
  cases f
  · have h := Core.tripsEnd_loopBack k.s.kloops n k.kregs
    exact ⟨hm, h, rfl, rfl, rfl⟩
  · refine ⟨?_, ⟨fun _ => rfl, ?_⟩, ?_, ?_⟩
    all_goals simp only [Core.track] at hm ⊢
    all_goals simp only [Core.fall, fallLoop, Core.onTrack, Core.setTrack, Core.track]
    all_goals (cases h : k.v.mloop <;> dsimp only <;> (try split) <;> (try split) <;> simp_all)
  · refine ⟨?_, ⟨fun _ => rfl, ?_⟩, ?_, ?_⟩
    all_goals simp only [Core.track] at hm ⊢
    all_goals simp only [Core.fall, fallLoop, Core.onTrack, Core.setTrack, Core.track]
    all_goals (cases h : k.m.mloop <;> dsimp only <;> (try split) <;> (try split) <;> simp_all)
  · refine ⟨?_, ⟨fun _ => rfl, ?_⟩, ?_, rfl, ?_⟩
    all_goals simp only [Core.track] at hm ⊢
    all_goals simp only [Core.fall, fallC, Core.onTrack, Core.setTrack, Core.track]
    all_goals (cases h : k.c.cloop <;> dsimp only <;> (try split) <;> (try split) <;> simp_all)

/-- What Core.Falls says of k depends on its loops and k registers alone. -/
theorem Core.Falls.of {k0 k k' : Core} {f : Family} {src : Nat → Option W32} {d n : Nat} (h : k.Falls k' f src d n)
    (hs : (k.track f).kloops = (k0.track f).kloops) (hm : (k.track f).mloop = (k0.track f).mloop)
    (hc : (k.track f).cloop = (k0.track f).cloop) (hk : ∀ m, k.kreg m = k0.kreg m) : k0.Falls k' f src d n := by
  unfold Core.Falls at h ⊢
  cases f
  · unfold Core.TripsEnd at h ⊢
    simp only [Core.track] at hs hm hc
    simpa only [Core.track, hs, hm, hc, hk] using h
  all_goals simpa only [hs, hm, hc, hk] using h

/-- The word after a word that retires (R47). -/
theorem Core.retire_follows (k : Core) (src : Nat → Option W32) (beat : Nat) (f : Family) (d : Nat) (j : Option (Nat × Nat)) :
    k.Follows (k.retire src beat f d j) f src d (j <|> if (k.track f).atJoin then none else (k.track f).join) := by
  set k2 := (k.onTrack f (Track.issued beat)).onTrack f (fun t => { t with join := j <|> t.join }) with h2
  have hr : k.retire src beat f d j = (k2.forward f).1.onTrack f fun t =>
      { t with wait := (k2.forward f).1.waitFor src f ((k2.forward f).2.getD d) } := rfl
  rw [hr]
  clear hr
  have e2 : k2.track f = { (Track.issued beat (k.track f)) with join := j <|> (Track.issued beat (k.track f)).join } := by
    simp [h2, Core.onTrack]
  have n2 : ∀ m, k2.kreg m = k.kreg m := fun m => by simp [h2, Core.kreg, Core.onTrack]
  have c2 : k2.macro_ = k.macro_ := by cases f <;> rfl
  have hj : (k2.track f).join = (j <|> if (k.track f).atJoin then none else (k.track f).join) := by rw [e2]; rfl
  have hm : (k2.track f).mac = (k.track f).mac := by rw [e2]; rfl
  have hp : (k2.track f).pc = (k.track f).pc := by rw [e2]; rfl
  have hl : (k2.track f).kloops = (k.track f).kloops ∧ (k2.track f).mloop = (k.track f).mloop ∧
      (k2.track f).cloop = (k.track f).cloop := by rw [e2]; exact ⟨rfl, rfl, rfl⟩
  have fallJoin : ∀ (q : Core) (n : Nat), ((q.fall f n).1.track f).join = (q.track f).join := fun q n => by
    rw [(q.fall_spec f n).2.1]
  clear h2 e2
  clear_value k2
  refine ⟨?_, ?_⟩
  · rw [← hj]
    unfold Core.forward
    dsimp only
    simp only [Core.onTrack, Core.track_setTrack_same]
    split
    · split
      · simp
      · rw [fallJoin]; simp
    · rw [fallJoin]
  · cases h : (k.track f).mac with
    | none =>
      have hf : k2.forward f = k2.fall f ((k.track f).pc + 1) := by
        unfold Core.forward; simp only [hm, h, hp]
      rw [hf]
      exact Core.Falls.of (Core.fall_falls _ _ _ _ _ (hm.trans h)) hl.1 hl.2.1 hl.2.2 n2
    | some r =>
      dsimp only
      split
      · rename_i hr
        have hf : k2.forward f = (k2.setTrack f { k2.track f with mac := some { r with word := r.word + 1 } }, none) := by
          unfold Core.forward; simp only [hm, h, c2, hr, if_true]
        rw [hf]
        refine ⟨?_, ?_, ?_, ?_, ?_, fun m => ?_, ?_⟩
        · simp [Core.onTrack]
        · simp [Core.onTrack, hp]
        · simp [Core.onTrack, hl.1]
        · simp [Core.onTrack, hl.2.1]
        · simp [Core.onTrack, hl.2.2]
        · rw [← n2]; simp [Core.onTrack, Core.kreg]
        · rw [Core.gapHere_wait, Core.waitFor_eq]; simp [Core.onTrack]
      · rename_i hr
        have hf : k2.forward f = (k2.setTrack f { k2.track f with mac := none }).fall f (k.track f).pc := by
          unfold Core.forward; simp only [hm, h, c2, hr, if_false, hp]
        rw [hf]
        refine Core.Falls.of (Core.fall_falls _ _ _ _ _ (by simp)) ?_ ?_ ?_ fun m => ?_
        · simp [hl.1]
        · simp [hl.2.1]
        · simp [hl.2.2]
        · rw [← n2]; simp [Core.kreg]

/-- What Core.Follows says of k depends on its track, its k registers and its macro entries alone. -/
theorem Core.Follows.of {k0 k k' : Core} {f : Family} {src : Nat → Option W32} {d : Nat} {j : Option (Nat × Nat)}
    (h : k.Follows k' f src d j) (ht : k.track f = k0.track f) (hk : k.kregs = k0.kregs) (hm : k.macros = k0.macros) :
    k0.Follows k' f src d j := by
  have hr : ∀ m, k.kreg m = k0.kreg m := fun m => by unfold Core.kreg; rw [hk]
  have hc : k.macro_ = k0.macro_ := by funext e; unfold Core.macro_; rw [hm]
  unfold Core.Follows at h ⊢
  rw [ht, hc] at h
  refine ⟨h.1, ?_⟩
  have h2 := h.2
  cases hx : (k0.track f).mac with
  | none => rw [hx] at h2; exact h2.of (by rw [ht]) (by rw [ht]) (by rw [ht]) hr
  | some r =>
    rw [hx] at h2
    dsimp only at h2 ⊢
    split
    · rename_i h3
      rw [if_pos h3] at h2
      simpa only [hr] using h2
    · rename_i h3
      rw [if_neg h3] at h2
      exact h2.of (by rw [ht]) (by rw [ht]) (by rw [ht]) hr

theorem Core.retire_resync (k : Core) (src : Nat → Option W32) (beat : Nat) (f : Family) (d : Nat) (j : Option (Nat × Nat)) :
    ((k.retire src beat f d j).track f).resync = (k.track f).resync.filter fun r => decide (beat ≤ r.1) := by
  have h : ∀ (q : Core), ((q.forward f).1.track f).resync = (q.track f).resync := fun q => by
    unfold Core.forward
    dsimp only
    split
    · split
      · simp
      · rw [(Core.fall_spec _ f _).2.1]; simp
    · rw [(Core.fall_spec _ f _).2.1]
  unfold Core.retire
  simp only [Core.onTrack, Core.track_setTrack_same, h, Track.issued]
  cases (k.track f).resync with
  | none => rfl
  | some r =>
    obtain ⟨a, b⟩ := r
    by_cases hb : a < beat
    · simp [hb, Option.filter_some, Nat.not_le.mpr hb]
    · simp [hb, Option.filter_some, Nat.le_of_not_lt hb]

theorem State.retire_onlyUnit (s : State) (dead : Nat) (j : Option (Nat × Nat)) : s.OnlyUnit (s.retire dead j) :=
  s.onlyUnit_onCur _

/-- A word that only steps to the next one leaves nothing in flight. -/
theorem State.retire_schedules (s : State) (dead : Nat) (j : Option (Nat × Nat)) :
    s.Schedules (s.retire dead j) s.core [] dead (j <|> s.joinLeft) := by
  refine ⟨⟨s.retire_onlyUnit dead j, ?_, ?_⟩, ?_⟩
  · unfold State.retire; rw [State.onCur_core]; exact Core.retire_issued ..
  · unfold State.retire; rw [State.onCur_core]; exact Core.retire_resync ..
  · unfold State.Follows State.retire; rw [State.onCur_core]; exact Core.retire_follows ..

theorem Core.Issued.withLatches {k k' : Core} {f : Family} {ls ms : List Latch}
    (h : Core.Issued { k with latches := k.latches ++ ls } k' f ms) : k.Issued k' f (ls ++ ms) := by
  obtain ⟨a, b, c, d⟩ := h
  refine ⟨?_, ?_, ?_, d⟩
  · rw [← List.append_assoc]; exact a
  · cases f <;> exact b
  · intro g hg; rw [c g hg]; cases g <;> rfl

/-- A change of a unit's registers that leaves the track in turn, its k registers, its macro entries and its code leaves
what follows the word. -/
theorem State.Follows.onCur {s t : State} {f : Core → Core} {d : Nat} {j : Option (Nat × Nat)} (h : (s.onCur f).Follows t d j)
    (ht : (f s.core).track s.cur.track = s.core.track s.cur.track) (hk : (f s.core).kregs = s.core.kregs)
    (hm : (f s.core).macros = s.core.macros) (hs : (s.onCur f).source = s.source) : s.Follows t d j := by
  unfold State.Follows at h ⊢
  rw [State.onCur_core, State.onCur_cur, hs] at h
  exact h.of ht hk hm

theorem State.onCur_source (s : State) (f : Core → Core) (h : (f s.core).code = s.core.code) : (s.onCur f).source = s.source := by
  unfold State.source
  rw [State.onCur_cur, State.onCur_part, State.onCur_core]
  cases s.cur.svc
  · simp only [Bool.false_eq_true, if_false]
    funext i; unfold Core.source; rw [h]
  · simp only [if_true]
    funext i; unfold State.firmwareAt; rw [State.onCur_firmware]

/-- A word that schedules one effect on the registers of its unit and steps to the next. -/
theorem State.emit_retire_schedules (s : State) (act : Nat) (e : Effect) (dead : Nat) (j : Option (Nat × Nat)) :
    s.Schedules ((s.emit act e).retire dead j) s.core [s.latch act e] dead (j <|> s.joinLeft) := by
  have h := (s.emit act e).retire_schedules dead j
  unfold State.emit at h ⊢
  have ht : ∀ f, ({ s.core with latches := s.core.latches ++ [{ org := s.org, act := act, eff := e, bad := none }] } : Core).track f =
      s.core.track f := fun f => by cases f <;> rfl
  have hj : (s.onCur fun k => { k with latches := k.latches ++ [{ org := s.org, act := act, eff := e, bad := none }] }).track = s.track := by
    unfold State.track
    rw [State.onCur_core, State.onCur_cur, ht]
  refine ⟨⟨(s.onlyUnit_onCur _).trans h.1.1, ?_, ?_⟩, ?_⟩
  · have h2 := h.1.2.1
    rw [State.onCur_core, State.onCur_cur] at h2
    exact Core.Issued.withLatches (ms := []) h2
  · have h3 := h.1.2.2
    unfold State.resyncLeft at h3 ⊢
    rw [hj, State.onCur_now] at h3
    rw [State.onCur_cur] at h3
    exact h3
  · have h4 := h.2
    unfold State.joinLeft at h4 ⊢
    rw [hj] at h4
    exact h4.onCur (ht _) rfl rfl (State.onCur_source s _ rfl)

/-- The same after a change of the unit's own registers, for the word of the state before it. -/
theorem State.onCur_emit_retire_schedules (s : State) (f : Core → Core) (act : Nat) (e : Effect) (dead : Nat)
    (j : Option (Nat × Nat)) (ho : (s.onCur f).org = s.org) (ht : (f s.core).track s.cur.track = s.core.track s.cur.track)
    (hk : (f s.core).kregs = s.core.kregs) (hm : (f s.core).macros = s.core.macros) (hc : (f s.core).code = s.core.code) :
    s.Schedules (((s.onCur f).emit act e).retire dead j) (f s.core) [s.latch act e] dead (j <|> s.joinLeft) := by
  have h := (s.onCur f).emit_retire_schedules act e dead j
  have hj : (s.onCur f).track = s.track := by
    unfold State.track
    rw [State.onCur_core, State.onCur_cur, ht]
  refine ⟨⟨(s.onlyUnit_onCur f).trans h.1.1, ?_, ?_⟩, ?_⟩
  · have h2 := h.1.2.1
    rw [State.onCur_core, State.onCur_cur] at h2
    have : (s.onCur f).latch act e = s.latch act e := by simp [State.latch, ho]
    rwa [this] at h2
  · have h3 := h.1.2.2
    unfold State.resyncLeft at h3 ⊢
    rwa [hj, State.onCur_now, State.onCur_cur] at h3
  · have h4 := h.2
    unfold State.joinLeft at h4 ⊢
    rw [hj] at h4
    exact h4.onCur ht hk hm (State.onCur_source s f hc)

end Sys2Proof.Machine
end

