-- ==== Sys2Proof/Laws/Ops.lean ====
section
/-!
SUPPORT. What taking a fault, the writes of memory and the shapes of a meaning can do, once each: later proofs cite
these in place of unfolding Ops.lean, Operands.lean and Engine.lean.
-/

namespace Sys2Proof.Machine

/-! ## Taking a fault (R67, R292) -/

/-- Only the partitions, device memory with its lines' marks and the service contexts differ. -/
def State.FaultOnly (s t : State) : Prop :=
  ∃ (ps : SMap Partition) (m : SMap Byte) (e : SMap Nat) (vs : SMap Service),
    t = { s with parts := ps, mem := m, memEcc := e, svcs := vs }

theorem State.FaultOnly.refl (s : State) : s.FaultOnly s := ⟨s.parts, s.mem, s.memEcc, s.svcs, rfl⟩

theorem State.FaultOnly.trans {s t u : State} (h : s.FaultOnly t) (h' : t.FaultOnly u) : s.FaultOnly u := by
  obtain ⟨_, _, _, _, rfl⟩ := h
  obtain ⟨_, _, _, _, rfl⟩ := h'
  exact ⟨_, _, _, _, rfl⟩

theorem State.enterService_faultOnly (s : State) (r cause a : Nat) : s.FaultOnly (s.enterService r cause a) := by
  unfold State.enterService State.setSvc
  exact ⟨s.parts, s.mem, s.memEcc, _, rfl⟩

theorem State.setSvc_faultOnly (s : State) (r : Nat) (v : Service) : s.FaultOnly (s.setSvc r v) :=
  ⟨s.parts, s.mem, s.memEcc, _, rfl⟩

theorem State.onPart_faultOnly (s : State) (p : Nat) (g : Partition → Partition) : s.FaultOnly (s.onPart p g) :=
  ⟨_, s.mem, s.memEcc, s.svcs, rfl⟩

theorem State.putDev_faultOnly (s : State) (a : Nat) (bs : List Byte) : s.FaultOnly (s.putDev a bs) :=
  ⟨s.parts, _, _, s.svcs, rfl⟩

theorem State.record_faultOnly (s : State) (p n : Nat) (f : FaultRec) : s.FaultOnly (s.record p n f) :=
  (s.putDev_faultOnly _ _).trans (State.enterService_faultOnly _ _ _ _)

theorem State.abandonBy_faultOnly (s : State) (p n : Nat) (f : FaultRec) : s.FaultOnly (s.abandonBy p n f) := by
  unfold State.abandonBy
  exact (s.onPart_faultOnly p _).trans (State.record_faultOnly _ _ _ _)

theorem State.raiseService_faultOnly (s : State) (p : Nat) (cls : FaultClass) (o : Origin) (d d2 : Nat) :
    s.FaultOnly (s.raiseService p cls o d d2) :=
  (s.onPart_faultOnly p _).trans (State.record_faultOnly _ _ _ _)

theorem State.raiseAt_faultOnly (s : State) (p : Nat) (cls : FaultClass) (o : Origin) (d d2 : Nat) (a : Bool) :
    s.FaultOnly (s.raiseAt p cls o d d2 a) := by
  unfold State.raiseAt
  dsimp only
  split
  · split
    · exact (s.setSvc_faultOnly _ _).trans (State.abandonBy_faultOnly _ _ _ _)
    · exact .refl s
  · split
    · exact s.abandonBy_faultOnly _ _ _
    · exact .refl s

theorem State.raise_faultOnly (s : State) (cls : FaultClass) (d d2 : Nat) : s.FaultOnly (s.raise cls d d2) := by
  unfold State.raise
  split
  · exact s.raiseService_faultOnly ..
  · exact s.raiseAt_faultOnly ..

theorem State.homeRaise_faultOnly (s : State) (h : Home) (cls : FaultClass) (o : Origin) (d d2 : Nat) :
    s.FaultOnly (s.homeRaise h cls o d d2) := by
  unfold State.homeRaise
  split
  · exact s.raiseService_faultOnly ..
  · exact s.raiseAt_faultOnly ..

@[simp] theorem State.enterService_mem (s : State) (r cause a : Nat) : (s.enterService r cause a).mem = s.mem := by
  unfold State.enterService
  rw [State.setSvc_mem]

@[simp] theorem State.putDev_mem (s : State) (a : Nat) (bs : List Byte) : (s.putDev a bs).mem = Mem.put s.mem a bs := rfl

theorem State.record_mem (s : State) (p n : Nat) (f : FaultRec) :
    (s.record p n f).mem = Mem.put s.mem (trapAddr (s.ctxbase.getD 0) p n) (trapRecord p (s.partAt p) s.wall f) := by
  unfold State.record
  dsimp only
  rw [State.enterService_mem, State.putDev_mem]

theorem State.abandonBy_canonical {s : State} (p n : Nat) (f : FaultRec) (h : s.Canonical) : (s.abandonBy p n f).Canonical := by
  unfold State.abandonBy State.Canonical
  rw [State.record_mem, State.onPart_mem]
  exact Mem.wf_put _ _ h

theorem State.raiseService_canonical {s : State} (p : Nat) (cls : FaultClass) (o : Origin) (d d2 : Nat) (h : s.Canonical) :
    (s.raiseService p cls o d d2).Canonical := by
  unfold State.raiseService State.Canonical
  dsimp only
  rw [State.record_mem, State.onPart_mem]
  exact Mem.wf_put _ _ h

theorem State.raiseAt_canonical {s : State} (p : Nat) (cls : FaultClass) (o : Origin) (d d2 : Nat) (a : Bool) (h : s.Canonical) :
    (s.raiseAt p cls o d d2 a).Canonical := by
  unfold State.raiseAt
  dsimp only
  split
  · split
    · exact State.abandonBy_canonical (s := s.setSvc _ _) _ _ _ h
    · exact h
  · split
    · exact State.abandonBy_canonical _ _ _ h
    · exact h

theorem State.raise_canonical {s : State} (cls : FaultClass) (d d2 : Nat) (h : s.Canonical) : (s.raise cls d d2).Canonical := by
  unfold State.raise
  split
  · exact State.raiseService_canonical _ _ _ _ _ h
  · exact State.raiseAt_canonical _ _ _ _ _ _ h

theorem State.illegal_canonical {s : State} (h : s.Canonical) : s.illegal.Canonical := State.raise_canonical _ _ _ h

theorem State.homeRaise_canonical {s : State} (x : Home) (cls : FaultClass) (o : Origin) (d d2 : Nat) (h : s.Canonical) :
    (s.homeRaise x cls o d d2).Canonical := by
  unfold State.homeRaise
  split
  · exact State.raiseService_canonical _ _ _ _ _ h
  · exact State.raiseAt_canonical _ _ _ _ _ _ h

/-! ## Writes of memory keep its canonical form (R74, R317) -/

theorem State.poke_canonical {s : State} (r c : Nat) (sp : Space) (a : Nat) (bs : List Byte) (h : s.Canonical) :
    (s.poke r c sp a bs).Canonical := by
  cases sp
  · exact h
  · exact h
  · exact Mem.wf_put _ _ h

theorem State.pokeCells_canonical {s : State} (r c : Nat) (sp : Space) (cells : List Host.Cell) (h : s.Canonical) :
    (s.pokeCells r c sp cells).Canonical := by
  unfold State.pokeCells
  generalize runsOf _ = rs
  induction rs generalizing s with
  | nil => exact h
  | cons x xs ih => exact ih (State.poke_canonical _ _ _ _ _ h)

theorem State.onHome_mem (s : State) (x : Home) (f : Core → Core) : (s.onHome x f).mem = s.mem := by
  unfold State.onHome; split <;> rfl

theorem State.putCells_canonical {s : State} (x : Home) (sp : Space) (pa a : Nat) (cells : List Host.Cell) (h : s.Canonical) :
    (s.putCells x sp pa a cells).Canonical := by
  unfold State.putCells
  dsimp only
  split
  · generalize runsOf _ = rs
    induction rs generalizing s with
    | nil => exact h
    | cons y ys ih => exact ih (Mem.wf_put _ _ h)
  · exact State.pokeCells_canonical _ _ _ _ h

theorem State.takePort_canonical {s : State} (p r c : Nat) (kind : PortKind) (n : Nat) (o : Origin) (h : s.Canonical) :
    (s.takePort p r c kind n o).Canonical := by
  unfold State.takePort
  dsimp only
  split
  · exact State.raiseAt_canonical _ _ _ _ _ _ h
  · exact h

theorem State.takeRead_canonical {s : State} (p r c : Nat) (sp : Space) (a : Nat) (o : Origin) (h : s.Canonical) :
    (s.takeRead p r c sp a o).Canonical := by
  cases sp
  · exact State.takePort_canonical _ _ _ _ _ _ h
  · exact State.takePort_canonical _ _ _ _ _ _ h
  · exact h

theorem State.takeWrite_canonical {s : State} (p r c : Nat) (sp : Space) (a : Nat) (o : Origin) (h : s.Canonical) :
    (s.takeWrite p r c sp a o).Canonical := by
  cases sp
  · exact State.takePort_canonical _ _ _ _ _ _ h
  · exact State.takePort_canonical _ _ _ _ _ _ h
  · exact h

theorem State.earlyCheck_canonical {s : State} (p r c : Nat) (sp : Space) (lo hi : Nat) (o : Origin) (h : s.Canonical) :
    (s.earlyCheck p r c sp lo hi o).Canonical := by
  unfold State.earlyCheck State.earlyHitAt
  split
  · exact State.raiseAt_canonical _ _ _ _ _ _ h
  · exact h

theorem State.touch_mem (s : State) (p r va : Nat) : (s.touch p r va).mem = s.mem := by
  unfold State.touch
  dsimp only
  split <;> rfl

theorem State.eccRead_mem (s : State) (r c : Nat) (sp : Space) (a n : Nat) : (s.eccRead r c sp a n).1.mem = s.mem := by
  unfold State.eccRead
  dsimp only
  split <;> rfl

/-! ## The shapes of a meaning -/

/-- A core word acts in a step, and only steps on in a service context, past what it leaves there. -/
theorem onCore_eq {f : State → State} {k : State → Out} {s : State} (h : s.cur.svc = false) : onCore f k s = k s := by
  simp [onCore, h]

theorem onCore_service {f : State → State} {k : State → Out} {s : State} (h : s.cur.svc = true) :
    onCore f k s = .next (f s).retire := by
  simp [onCore, h]

theorem reach_eq {sp : Space} {f : State → State} {k : State → Out} {s : State} (h : s.cur.svc = false) :
    reach sp f k s = k s := by
  unfold reach
  split
  · rfl
  · exact onCore_eq h

theorem reach_service {sp : Space} {f : State → State} {k : State → Out} {s : State} (h : s.cur.svc = true) (hs : sp ≠ .dev) :
    reach sp f k s = .next (f s).retire := by
  simp [reach, hs, onCore_service h]

theorem serviceOnly_step {k : State → Out} {s : State} (h : s.cur.svc = false) : serviceOnly k s = .next s.illegal := by
  simp [serviceOnly, h]

theorem serviceOnly_eq {k : State → Out} {s : State} (h : s.cur.svc = true) : serviceOnly k s = k s := by
  simp [serviceOnly, h]

theorem placed_eq {ker mac : Bool} {k : State → Out} {s : State} (h : s.Plain) : placed ker mac k s = k s := by
  simp [placed, h.1, h.2]

theorem placed_false_true_eq {k : State → Out} {s : State} (h : s.track.mac = none) : placed false true k s = k s := by
  simp [placed, State.inMacro, h]

theorem windowed_eq {k : State → Out} {s : State} (h : s.Unwindowed) : windowed k s = k s := by
  unfold windowed
  split
  · rename_i w hw
    rw [if_neg]
    rintro ⟨a, b⟩
    rcases h w hw with c | c
    · rcases a with a | a
      · exact c.1 a
      · exact c.2 a
    · omega
  · rfl

/-- The address check passes just where the address lies in its space and is aligned (R75, R153). -/
theorem addrBad_eq_none (sp : Space) (ea z : Nat) : addrBad sp ea z = none ↔ sp.outside ea z = false ∧ ea % z = 0 := by
  unfold addrBad
  cases h : sp.outside ea z
  · by_cases h2 : ea % z = 0 <;> simp [h2]
  · simp

/-- The residues of address registers pass just where each register carries its own (R333). -/
theorem Core.baseBad_eq_none (k : Core) (regs : List (BitVec 5)) (d : Nat) :
    k.baseBad regs d = none ↔ ∀ r ∈ regs, k.residueBad r = false := by
  simp [Core.baseBad, Core.firstBad]

/-- The checks of a scalar access on b pass just where its address is good and its registers carry their residues
(R75, R153, R333). -/
theorem State.memBad_eq_none (s : State) (sp : Space) (regs : List (BitVec 5)) (ea z : Nat) :
    s.memBad sp regs ea z = none ↔
      sp.outside ea z = false ∧ ea % z = 0 ∧ ∀ r ∈ regs, s.core.residueBad r = false := by
  unfold State.memBad State.addrFault
  rw [← and_assoc, ← addrBad_eq_none]
  cases h : addrBad sp ea z with
  | some c => simp
  | none => simp [← Core.baseBad_eq_none s.core regs (sp.tagged ea)]

end Sys2Proof.Machine
end

