-- ==== Sys2Proof/Tests/Slice0.lean ====
section
/-!
SUPPORT. Tests: the ill-formed words that WellFormed refuses, words that the spec writes out, single words whose result
the spec's own examples give, and for each statement states and operands that meet its hypotheses.
-/

namespace Sys2Proof.Tests

open Sys2Proof.Machine

/-! ## States -/

/-- Partition 0 in an open step on its anchor beat, the unit of a track of core 0 in turn, its word 0. -/
def demo (f : Family) : State :=
  { State.reset.placeWord f 0 with cur := { part := 0, rope := 0, core := 0, track := f, svc := false } }

/-- The same with a change of the core. -/
def demoCore (f : Family) (g : Core → Core) : State := (demo f).onCore 0 0 g

/-- The same with a change of the partition. -/
def demoPart (f : Family) (g : Partition → Partition) : State := (demo f).onPart 0 g

/-- The same with a value in s1. -/
def withS1 (f : Family) (v : W64) : State := demoCore f fun k => k.putS 1 v (residueOf v)

/-- Rope 0's service context in turn, in a hold for a translation. -/
def demoSvc : State :=
  { State.reset.placeService 0 with cur := { part := 0, rope := 0, core := 0, track := .s, svc := true } }

/-- The same with a value in s1. -/
def svcS1 (v : W64) : State := demoSvc.onCur fun k => k.putS 1 v (residueOf v)

/-- Beats and effects that a word leaves in flight. -/
def latchesOf : Out → List (Nat × Effect)
  | .next t => t.core.latches.map fun l => (l.act, l.eff)
  | _ => []

theorem demo_unwindowed (f : Family) : (demo f).Unwindowed := by
  intro w h; cases f <;> cases h

/-- A state whose core has no settle window. -/
theorem unwindowed_of {s : State} (h : s.core.window = none) : s.Unwindowed := by
  intro w hw; rw [h] at hw; cases hw

/-! ## Ill-formed words -/

theorem test_wf_exts : Instr.wf (.exts 0 1 2 63 1) = false ∧ Instr.wf (.exts 0 1 2 63 0) = true := by decide
theorem test_wf_extu : Instr.wf (.extu 0 1 2 32 32) = false ∧ Instr.wf (.extu 0 1 2 32 31) = true := by decide
theorem test_wf_ins : Instr.wf (.ins 0 1 2 1 63) = false ∧ Instr.wf (.ins 0 1 2 0 63) = true := by decide
theorem test_wf_brq : Instr.wf (.brq 0 1 2 0 1) = false ∧ Instr.wf (.brq 0 1 2 0 2) = true := by decide
theorem test_wf_resync : Instr.wf (.resync 0 1 0) = false ∧ Instr.wf (.resync 0 1 1) = true := by decide
theorem test_wf_rdctr : Instr.wf (.rdctr 0 1 6) = false ∧ Instr.wf (.rdctr 0 1 0x20) = false ∧ Instr.wf (.rdctr 0 1 0x1F) = true := by
  decide
theorem test_wf_rdsys : Instr.wf (.rdsys 0 1 6) = false ∧ Instr.wf (.rdsys 0 1 0x3F) = true := by decide
theorem test_wf_wrsys : Instr.wf (.wrsys 0 1 0x40) = false ∧ Instr.wf (.wrsys 0 1 0x10) = true := by decide
theorem test_wf_holdx : Instr.wf (.holdx 0 0) = false ∧ Instr.wf (.holdx 0 3) = true := by decide
theorem test_wf_vsel : Instr.wf (.vsel 0 0 1 2 3) = false ∧ Instr.wf (.vsel 0 1 1 2 3) = true := by decide
theorem test_wf_vcvt : Instr.wf (.vcvt 0 0 0 1 2 0 5) = false ∧ Instr.wf (.vcvt 0 0 0 1 2 0 4) = true := by decide
theorem test_wf_prot : Instr.wf (.prot 0 0) = false ∧ Instr.wf (.prot 0 5) = false ∧ Instr.wf (.prot 0 4) = true := by decide
theorem test_wf_mmaBf16 : Instr.wf (.mmaBf16 0 3 3 0 0 0 0) = false ∧ Instr.wf (.mmaBf16 0 3 4 0 0 0 0) = true := by decide
theorem test_wf_mmaFp16 : Instr.wf (.mmaFp16 0 3 3 0 0 0 0) = false := by decide
theorem test_wf_mmaB8 : Instr.wf (.mmaB8 0 0 1 0 0 0 0 0) = false ∧ Instr.wf (.mmaB8 0 0 1 0 0 0 0 1) = true := by decide
theorem test_wf_mmat : Instr.wf (.mmat 0 7 7 0 0 0) = false := by decide
theorem test_wf_mgrp : Instr.wf (.mgrpBf16 0 2 2 0 0 0) = false ∧ Instr.wf (.mgrpFp16 0 2 2 0 0 0) = false := by decide
theorem test_wf_balloc : Instr.wf (.balloc 0 0 0 0) = false ∧ Instr.wf (.balloc 0 0 7 0) = false ∧
    Instr.wf (.balloc 0 0 1 3) = false ∧ Instr.wf (.balloc 0 0 1 0) = true := by decide
theorem test_wf_bband : Instr.wf (.bband 0 0 0xC0) = false ∧ Instr.wf (.bband 0 0 0x80) = true := by decide
theorem test_wf_rmode : Instr.wf (.rmode 0 0 5) = false ∧ Instr.wf (.rmode 0 0 4) = true := by decide
theorem test_wf_send : Instr.wf (.send 0 0 0 0 0 0) = false ∧ Instr.wf (.send 0 0 0 1 0 0) = true := by decide
theorem test_wf_coll : Instr.wf (.collArsum 0 0 0 31) = false ∧ Instr.wf (.collArmax 0 0 0 31) = false ∧
    Instr.wf (.collRs 0 0 0 31) = false ∧ Instr.wf (.collAg 0 0 0 31) = false ∧ Instr.wf (.collBc 0 0 0 31) = false ∧
    Instr.wf (.collXp 0 0 0 31) = false ∧ Instr.wf (.collXp 0 0 0 30) = true := by decide

/-! ## Words that the spec writes out -/

/-- R126: ADDI s2, s1, 2 with GAP 2. -/
theorem test_decode_addi : decode .s 0x44082002 = .ok (.addi 2 2 1 2) := by decide
theorem test_decode_vadd : decode .v 0x02CB0861 = .ok (.vadd 0 9 0 48 33 33) := by decide
theorem test_decode_mloop : decode .v 0x1B8C10C3 = .ok (.mloop 0 3 1 1 3) := by decide
theorem test_decode_cpy : decode .c 0x02882300 = .ok (.cpy 0 2 1 3 0) := by decide
theorem test_decode_holdx : decode .s 0x1F801D01 = .ok (.holdx 0 1) := by decide
theorem test_decode_mma : decode .m 0x028247F1 = .ok (.mmaBf16 0 0 1 8 63 1 1) := by decide
theorem test_decode_mmat : decode .m 0x04264FE9 = .ok (.mmat 0 2 3 9 63 9) := by decide
theorem test_decode_vadd_p1 : decode .v 0x02888000 = .ok (.vadd 0 1 0 8 0 0) := by decide
theorem test_decode_vcmp : decode .v 0x0F001002 = .ok (.vcmpLt 0 0 1 0 2) := by decide
theorem test_decode_resume : decode .s 0x1F809C00 = .ok (.resume 0 4) := by decide
theorem test_decode_rdsys : decode .s 0x1F901820 = .ok (.rdsys 0 4 0x20) := by decide
theorem test_decode_wrsys : decode .s 0x1F80B920 = .ok (.wrsys 0 5 0x20) := by decide
theorem test_decode_commit : decode .s 0x1F800300 = .ok (.commit 0) := by decide
theorem test_decode_dli : decode .c 0x080C0002 = .ok (.dli 0 3 0 2) := by decide
theorem test_decode_cloop : decode .c 0x09860008 = .ok (.cloop 0 1 8) := by decide
theorem test_decode_send : decode .c 0x05330CC0 = .ok (.send 0 3 0 3 3 6) := by decide
theorem test_decode_recv : decode .c 0x05B00CE0 = .ok (.recv 0 3 0 3 7) := by decide
theorem test_decode_vgath : decode .v 0x1980724A = .ok (.vgath 0 0 0 7 9 2 2) := by decide
/-- R4, R140: a reserved bit, an unassigned function and an unassigned major. -/
theorem test_decode_refuses : decode .s 0x02800010 = .error .reservedNotZero ∧ decode .s 0x03000009 = .error .unassignedFunction ∧
    decode .s 0x00000000 = .error .unassignedMajor := by decide

/-! ## Single words (hand calculation from the tables of chapters 7 to 9) -/

theorem test_addi_wraps : latchesOf (exec (.addi 0 2 1 0x1FFF) (demo .s)) = [(2049, .sreg 2 (BitVec.allOnes 64) 0)] := by
  decide
/-- R152: the first LIH of the example makes 655 · 2^18 + 0x59E7. -/
theorem test_lih : latchesOf (exec (.lih 0 1 0x59E7) (withS1 .s 655)) = [(2049, .sreg 1 171727335 0)] := by decide +kernel
theorem test_div_by_zero : latchesOf (exec (.div 0 2 1 0) (withS1 .s 7)) = [(2072, .sreg 2 (BitVec.allOnes 64) 0)] := by decide
/-- R148: −2^63 / −1 is −2^63 and leaves 0. -/
theorem test_div_overflow :
    ((withS1 .s (BitVec.intMin 64)).onCur fun k => k.putS 2 (BitVec.allOnes 64) 0).core.sreg 2 = BitVec.allOnes 64 ∧
      latchesOf (exec (.div 0 3 1 2) ((withS1 .s (BitVec.intMin 64)).onCur fun k => k.putS 2 (BitVec.allOnes 64) 0)) =
        [(2072, .sreg 3 (BitVec.intMin 64) 8)] := by decide
theorem test_clz_zero : latchesOf (exec (.clz 0 2 0) (demo .s)) = [(2049, .sreg 2 64 4)] := by decide
theorem test_bswap : latchesOf (exec (.bswap 0 2 1) (withS1 .s 0x0102030405060708)) = [(2049, .sreg 2 0x0807060504030201 6)] := by
  decide
theorem test_sar_sign : latchesOf (exec (.sari 0 2 1 63) (withS1 .s (BitVec.intMin 64))) = [(2049, .sreg 2 (BitVec.allOnes 64) 0)] := by
  decide
theorem test_slti_signed : latchesOf (exec (.slti 0 2 1 0) (withS1 .s (BitVec.allOnes 64))) = [(2049, .sreg 2 1 1)] := by decide
/-- R153, R77: LDS.D samples two beats on and delivers four beats on. -/
theorem test_lds : latchesOf (exec (.ldsD 0 2 1 5 0x1FF) (withS1 .s 16)) = [(2050, .load .spad 8 8 true 2 2052 5)] := by decide
/-- R194: PSET writes all ones one beat on. -/
theorem test_pset : latchesOf (exec (.pset 0 9) (demo .v)) = [(2049, .pred 9 (BitVec.allOnes 256))] := by decide
/-- R248: DLI d3, 0, 2. -/
theorem test_dli : latchesOf (exec (.dli 0 3 0 2) (demo .c)) = [(2049, .dreg 3 2)] := by decide
/-- R218: RMODE takes effect on the next beat. -/
theorem test_rmode : latchesOf (exec (.rmode 0 1 3) (demo .m)) = [(2049, .rmode 3 true)] := by decide
/-- R158: a taken branch goes three words back from word 5, one opportunity lost. -/
theorem test_beq_taken :
    (match exec (.beq 0 0 0 0x1FFD) (demoCore .s fun k => { k with s := { k.s with pc := 5 } }) with
      | .next t => (t.track.pc, t.track.wait)
      | _ => (0, 0)) = (2, 1) := by decide
/-- R291: HOLDX 1 marks cause 1. -/
theorem test_holdx :
    (match exec (.holdx 0 1) demoSvc with
      | .next t => t.part.hold.map (·.serviced)
      | _ => none) = some [1] := by decide
/-- R140: HOLDX in a step raises the illegal-instruction fault. -/
theorem test_holdx_in_step :
    (match exec (.holdx 0 1) (demo .s) with
      | .next t => t.part.fault.map (·.cls)
      | _ => none) = some .illegal := by decide

/-! ## Hypotheses of the statements: the S track -/

theorem residues_right (f : Family) (m : BitVec 5) : (demo f).core.residueBad m = false := by
  have h : (demo f).core.sres = [] ∧ (demo f).core.sregs = [] := by cases f <;> exact ⟨rfl, rfl⟩
  by_cases hm : m = 0
  · simp [Core.residueBad, Core.sresidue, Core.sreg, hm, residueOf]
  · simp only [Core.residueBad, Core.sresidue, Core.sreg, h.1, h.2, if_neg hm]
    rfl

theorem witness_IntegerWords :
    aluResult (demo .s).core (.add 0 1 2 3) = some (1, 0, 1) ∧ (∀ m, (demo .s).core.residueBad m = false) :=
  ⟨by decide, residues_right .s⟩
theorem witness_IntegerWords_decode :
    decode .s (srWord 0 5 1 2 3 0 15) = .ok (.seq 0 1 2 3) ∧ decode .s (0#3 ++ 0x14#6 ++ 31#5 ++ 0#18) = .ok (.lih 0 31 0) := by
  decide
theorem witness_LoadsSample :
    loadOf (withS1 .s 0x4FFF8).core (.ldsD 0 2 1 0 0) =
      some ({ space := .spad, size := 8, regs := [1], addr := 0x4FFF8 }, true, 2, 0) ∧
    (withS1 .s 0x4FFF8).MayAccess { space := .spad, size := 8, regs := [1], addr := 0x4FFF8 } := by
  unfold State.MayAccess; exact ⟨rfl, by decide⟩
theorem witness_LoadsSample_service :
    loadOf (svcS1 0x13FFFFFFF8).core (.ldmDIndexed 0 2 1 0 0) =
      some ({ space := .dev, size := 8, regs := [1, 0], addr := 0x13FFFFFFF8 }, true, 2, 0) ∧
    (svcS1 0x13FFFFFFF8).MayAccess { space := .dev, size := 8, regs := [1, 0], addr := 0x13FFFFFFF8 } := by
  unfold State.MayAccess; exact ⟨rfl, by decide⟩
theorem witness_StoresSchedule :
    storeOf (withS1 .s 0x4FFFF).core (.stsB 0 2 1 15 0) = some ({ space := .spad, size := 1, regs := [1], addr := 0x4FFFF }, 2, 15) ∧
    (withS1 .s 0x4FFFF).MayAccess { space := .spad, size := 1, regs := [1], addr := 0x4FFFF } ∧
    (withS1 .s 0x4FFFF).core.baseMismatch { space := .spad, size := 1, regs := [1], addr := 0x4FFFF } = none := by
  unfold State.MayAccess; exact ⟨rfl, by decide, by decide⟩
theorem witness_AtomicsSchedule :
    atomicOf (withS1 .s 0xFFFFFFFFFFF8).core (.amomAdd 0 2 1 3 0) =
      some ({ space := .dev, size := 8, regs := [1], addr := 0xFFFFFFFFFFF8 }, .add, 2, 3, 0) ∧
    (withS1 .s 0xFFFFFFFFFFF8).MayAccess { space := .dev, size := 8, regs := [1], addr := 0xFFFFFFFFFFF8 } := by
  unfold State.MayAccess; exact ⟨rfl, by decide⟩
theorem witness_LdaSamples :
    let s := withS1 .s 0xFFFFC
    s.MayAccess (s.core.ldaAccess 1 0) ∧ (s.core.ldaAccess 1 0).addr = 0xFFFFC := by
  unfold State.MayAccess; decide

/-- s1 with a wrong residue. -/
def badS1 : State := demoCore .s fun k => k.putS 1 8 0

theorem witness_AccessChecks_residue :
    let x : Access := { space := .spad, size := 8, regs := [1], addr := 8 }
    accessOf badS1.core (.stsD 0 2 1 0 0) = some x ∧ storeOf badS1.core (.stsD 0 2 1 0 0) = some (x, 2, 0) ∧ x.placed = true ∧
      x.regs.find? badS1.core.residueBad = some 1 := ⟨rfl, rfl, by decide, by decide⟩
theorem witness_AccessChecks_range :
    let x : Access := { space := .spad, size := 8, regs := [1], addr := 0x4FFF9 }
    accessOf (withS1 .s 0x4FFF9).core (.stsD 0 2 1 0 0) = some x ∧ x.outside = true := ⟨rfl, by decide⟩
theorem witness_AccessChecks_alignment :
    let x : Access := { space := .spad, size := 8, regs := [1], addr := 0x4FFF4 }
    accessOf (withS1 .s 0x4FFF4).core (.amosAdd 0 2 1 3 0) = some x ∧ x.outside = false ∧ x.addr % x.size ≠ 0 :=
  ⟨rfl, by decide, by decide⟩
theorem witness_AccessChecks_end :
    let s := svcS1 0x1400000000
    let x : Access := { space := .dev, size := 1, regs := [1], addr := 0x1400000000 }
    accessOf s.core (.ldmB 0 2 1 0 0) = some x ∧ s.cur.svc = true ∧ x.placed = true ∧ 80 * 2 ^ 30 ≤ x.addr ∧
      storeOf s.core (.ldmB 0 2 1 0 0) = none := ⟨rfl, rfl, by decide, by decide, rfl⟩
theorem witness_AccessChecks_endStore :
    let s := svcS1 0x1400000000
    let x : Access := { space := .dev, size := 1, regs := [1], addr := 0x1400000000 }
    accessOf s.core (.stmB 0 2 1 0 0) = some x ∧ s.core.baseMismatch x = none := ⟨rfl, by decide⟩
theorem witness_BranchesGo :
    branchOf (demo .s).core (.beq 0 1 2 0x1FFF) = some (true, 0x1FFF) ∧ branchOf (demo .s).core (.blt 0 1 2 5) = some (false, 5) ∧
    (demo .s).cur.track = .s ∧ (demo .s).track.mac = none := by decide
theorem witness_BranchesGo_decode : decode .s (siWord 0 0x2E 1 2 5) = .ok (.beq 0 1 2 5) ∧
    decode .s (srWord 0 0x36 0 31 0 0 0) = .ok (.jr 0 31) := by decide
theorem witness_BranchesGo_words :
    let s := demoCore .s fun k => { k with s := { k.s with pc := 0 } }
    let t := demoCore .s fun k => { k with s := { k.s with pc := 49152 } }
    (s.track.mac = none ∧ s.cur.svc = false ∧ s.track.pc < s.part.step.cslen ∧ s.part.step.csbase + s.track.pc ≤ 49151) ∧
      t.track.mac = none ∧ t.cur.svc = false ∧ 49151 < t.track.pc ∧ t.word = none := by decide
theorem witness_BrqSetsItsJoin :
    let s := withS1 .s (.ofNat 64 (49151 + 49151 * 2 ^ 18))
    s.cur.track = .s ∧ s.track.mac = none ∧ ((s.core.sreg 1).extractLsb' 0 18).toNat ≤ 49151 ∧
      ((s.core.sreg 1).extractLsb' 18 18).toNat = 49151 ∧ s.track.join = none := by decide
theorem witness_KloopsBegin :
    let s := (withS1 .s 16777215).onCur fun k =>
      { k with s := { k.s with kloops := [{ body := 0, len := 33, kreg := 3, count := 0, trip := 2 }] } }
    s.cur.track = .s ∧ s.Plain ∧ (∀ x ∈ s.track.kloops, x.kreg ≠ 2 ∧ x.body ≤ s.track.pc + 1 ∧
      s.track.pc + 1 + (31 + 1) ≤ x.body + x.len) ∧ (s.core.sreg 1).toNat ≤ 16777215 := by
  unfold State.Plain; decide
theorem witness_KloopsBegin_skip :
    let s := demo .s
    s.cur.track = .s ∧ s.Plain ∧ s.track.kloops = [] := by unfold State.Plain; decide
theorem straight_demo (f : Family) : (demo f).track.StraightOn := by
  have h : (demo f).track = { Track.idle with live := true } := by cases f <;> rfl
  rw [h]
  refine ⟨rfl, rfl, ?_, ?_, ?_⟩ <;> intro l hl <;> cases hl
theorem witness_IdleOnlyWaits : (demo .v).track.StraightOn := straight_demo .v
theorem witness_AnchorAndRendez :
    let s := (demoPart .s fun q => { q with step := { q.step with rdz := 0 } })
    s.Plain ∧ s.cur.svc = false ∧ s.now = s.part.rendezBeat ∧ s.track.join = none ∧ s.core.domEn = false := by
  unfold State.Plain; decide
theorem witness_AnchorAndRendez_member :
    let s := (demoPart .s fun q => { q with step := { q.step with rdz := 0 } }).onCur fun k => { k with dom := 4 }
    s.Plain ∧ s.now = s.part.rendezBeat ∧ s.track.join = none ∧ s.core.domEn = true ∧ s.waitingBelay = none := by
  unfold State.Plain; decide
theorem witness_AnchorAndRendez_service : demoSvc.Plain ∧ demoSvc.Unwindowed ∧ demoSvc.cur.svc = true :=
  ⟨by unfold State.Plain; decide, unwindowed_of rfl, rfl⟩
theorem witness_McallRunsItsEntry :
    let s := demoCore .s fun k => { k with macros := [(63, { header := 32, slots := [] })] }
    let m := s.core.macro_ 63
    s.Plain ∧ s.Unwindowed ∧ m.family = famCode s.cur.track ∧ 1 ≤ m.len ∧ m.len ≤ 32 ∧ tagOk m.len (m.tag 1) 0 = true ∧
      tagOk m.len (m.tag 2) 0 = true ∧ tagOk m.len (m.tag 3) 0 = true ∧ SMap.get 0 s.core.macEcc 63 ≠ 2 ∧
      SMap.get 0 ({ s.core with macEcc := [(63, 2)] } : Core).macEcc 63 = 2 :=
  ⟨by unfold State.Plain; decide, unwindowed_of rfl, by decide⟩
theorem witness_FencesAndCommitStand : (demo .s).cur.svc = false := rfl
theorem witness_BelayWaits :
    let s := demoCore .s fun k => { k with dom := 4 }
    s.cur.svc = false ∧ s.cur.track = .s ∧ s.track.mac = none ∧ s.core.domEn = true ∧ (demo .s).core.domEn = false := by decide
theorem witness_ResyncReanchors :
    let s := withS1 .s 2049
    s.cur.svc = false ∧ s.cur.track = .s ∧ s.track.mac = none ∧ s.track.join = none ∧ s.now < (s.core.sreg 1).toNat ∧
      ∀ f ∈ [Family.s, .v, .m, .c], ((15 : BitVec 4).getLsbD (3 - trackRank f) && (s.core.track f).live) = true →
        s.core.opportunity f (s.core.sreg 1).toNat = true ∧ (s.core.track f).mac = none ∧ (s.core.track f).mloop = none := by
  decide
theorem witness_GearOpensAWindow : (demo .s).cur.svc = false ∧ (demo .s).track.mac = none ∧ (demo .s).track.join = none := by decide

/-- Bytes of an active stream 511 in context 0's table at 0, and its break enable. -/
def withStream (f : Family) (sid : Nat) : State := { demo f with mem := [(3, 1), (128 * sid, 1)] }

theorem witness_Counters :
    let s := withStream .s 511
    let t := s.onCur fun k => k.putS 1 511 (residueOf 511)
    t.cur.svc = false ∧ (t.core.sreg 1).toNat ≤ 511 ∧ t.active t.part.runner.ctx (t.core.sreg 1).toNat = true ∧
      (demo .s).active (demo .s).part.runner.ctx 511 = false := by decide
theorem witness_Counters_slot :
    let q := (demo .s).part
    (demo .s).cur.svc = false ∧ q.phase = .run ∧ q.step.outcome = .open_ ∧ (q.slots.getD q.slot ⟨0, none⟩).us < 2 ^ 17 ∧
      q.runner.ctx < 2 ^ 10 ∧ q.step.resident < 2 ^ 5 ∧ q.slot < 2 ^ 6 ∧ (demo .s).core.window = none := by decide
theorem witness_StatReadsAndClears :
    let l : Latch := { org := (demo .s).org, act := 2048, eff := .statClear 31 }
    let s := demoCore .s fun k => { k with latches := [l] }
    (demo .s).cur.svc = false ∧ (s.coreAt 0 0).latches[0]? = some l ∧ l.bad = none ∧ l.act ≤ (s.partAt (s.partOf 0)).topo := by
  decide
theorem witness_XpreOnlyPrefetches :
    let s := { withS1 .s 0xFFFFFFFF with mem := [(0x80000, 1)] }
    (s.core.sreg 1).toNat < devEnd ∧ s.translate s.cur.part s.cur.rope (s.core.sreg 1).toNat false false = .missing := by decide
theorem witness_StreamWordsStage :
    let s := withS1 .s 511
    s.cur.svc = false ∧ (s.core.sreg 1).toNat ≤ 511 ∧ s.part.stage.length < 1024 := by decide
theorem witness_BreakHalts : (withStream .s 1).cur.svc = false ∧ (withStream .s 1).breaks (withStream .s 1).part.runner.ctx = true ∧
    (demo .s).breaks (demo .s).part.runner.ctx = false := by decide
theorem witness_ServiceWordsSchedule :
    let s := svcS1 0x1F00000400
    s.cur.svc = true ∧ (s.core.sreg 0).extractLsb' 0 8 = 0 ∧ (s.core.sreg 0).getLsbD 10 = false := by decide
theorem witness_ServiceWordsSchedule_big :
    let x := (svcS1 0x20_0000_0400).core.sreg 1
    x.extractLsb' 0 8 = 0 ∧ x.getLsbD 10 = true ∧ x.extractLsb' 32 5 = 0 ∧ x.extractLsb' 11 5 = 0 := by decide
theorem witness_Holdx : demoSvc.cur.svc = true ∧ demoSvc.part.hold.map (·.causes) = some [1] ∧ (demo .s).cur.svc = false := by decide
theorem witness_ResumeWaits :
    let s := demoSvc.onCur fun k => { k with sres := [(31, 1)] }
    demoSvc.cur.svc = true ∧ demoSvc.part.frozen = [] ∧ demoSvc.core.residueBad 31 = false ∧ s.cur.svc = true ∧
      s.core.residueBad 31 = true := by decide
theorem witness_WordsKeepTheirLevel :
    serviceLevel (.resume 0 1) = true ∧ (demo .s).cur.svc = false ∧ demoSvc.cur.svc = true ∧
      demoSvc.coreWord (.sfork 0 0) = some .nothing ∧ demoSvc.coreWord (.gearL 0) = some .nothing := ⟨rfl, rfl, rfl, rfl, rfl⟩
theorem witness_WordsKeepTheirLevel_open :
    ∃ d n, demoSvc.coreWord (.stat 0 1 2) = some (.open_ d n) := ⟨_, _, rfl⟩

/-! ## Hypotheses of the statements: V, M and C tracks -/

/-- Bank 0 FP32, every band V's; it is both windows' rows that the V words below name. -/
def demoRows : State := demoCore .v fun k => { k with banks := [(0, { type := 1, owners := 0, freeFrom := 0 })] }

/-- Row 63 of bank 0. -/
def row63 : Place := { bank := 0, row := 63 }

theorem row_readable : demoRows.RowReadable row63 ∧ demoRows.RowReadable { bank := 5, row := 0 } := by
  unfold State.RowReadable; decide
theorem witness_RowReadsPass :
    demoRows.OnCore .v ∧ (∀ x ∈ [row63, { bank := 5, row := 0 }], demoRows.RowReadable x) ∧ demoRows.core.allocated 5 = false ∧
      demoRows.core.allocated 0 = true ∧ eccOver demoRows.core.accEcc 8 row63.addr 256 = 0 ∧ demoRows.core.erchk = false := by
  unfold State.RowReadable State.OnCore; decide
theorem witness_RowWordsWriteLanes :
    ∃ w, rowWordOf demoRows (.vadd 0 1 0 63 62 63) = some w ∧ demoRows.OnCore .v ∧ demoRows.Unwindowed ∧
      w.types (demoRows.core.destType (demoRows.core.place mapVd w.d).bank) = true ∧
      elemSize (demoRows.core.destType (demoRows.core.place mapVd w.d).bank) ≠ 0 ∧
      ∀ y ∈ w.sources demoRows.core, demoRows.RowReadable y :=
  ⟨_, rfl, by unfold State.OnCore; decide, unwindowed_of rfl, by decide, by decide, by unfold State.RowReadable; decide⟩
/-- Bank 0 INT32, which VFMA does not take. -/
def demoInts : State := demoCore .v fun k => { k with banks := [(0, { type := 6, owners := 0, freeFrom := 0 })] }

theorem witness_RowWordsWriteLanes_type :
    ∃ w, rowWordOf demoInts (.vfma 0 0 0 63 62 63) = some w ∧
      demoInts.core.allocated (demoInts.core.place mapVd w.d).bank = true ∧
      w.types (demoInts.core.destType (demoInts.core.place mapVd w.d).bank) = false := ⟨_, rfl, by decide, by decide⟩
theorem witness_VaddcWritesTwoRows :
    demoRows.OnCore .v ∧ demoRows.Unwindowed ∧ (demoRows.core.bank (demoRows.core.place mapVd 63).bank).type = 1 ∧
      ∀ r ∈ [demoRows.core.place mapVa 1, demoRows.core.place mapVb 2, demoRows.core.place mapVd 63, demoRows.core.otherPlace 63],
        demoRows.RowReadable r :=
  ⟨by unfold State.OnCore; decide, unwindowed_of rfl, by decide, by unfold State.RowReadable; decide⟩
theorem witness_VcvtConverts :
    let k := demoRows.core
    demoRows.OnCore .v ∧ demoRows.Unwindowed ∧ elemSize (k.destType (k.place mapVd 63).bank) ≠ 0 ∧
      elemSize (k.sourceType (k.place mapVa 0).bank (k.place mapVd 63).bank) ≠ 0 ∧
      ∀ r ∈ [k.place mapVa 0, k.place mapVd 63], demoRows.RowReadable r :=
  ⟨by unfold State.OnCore; decide, unwindowed_of rfl, by decide, by decide, by unfold State.RowReadable; decide⟩
theorem witness_ComparesWritePredicates :
    let k := demoRows.core
    compareOf (.vcmpOrd 0 15 63 0 63) = some (.ord, 15, 63, 0, 63) ∧ demoRows.OnCore .v ∧ demoRows.Unwindowed ∧
      elemSize (k.sourceType (k.place mapVa 0).bank (k.place mapVb 63).bank) ≠ 0 ∧
      ∀ r ∈ [k.place mapVa 0, k.place mapVb 63], demoRows.RowReadable r :=
  ⟨rfl, by unfold State.OnCore; decide, unwindowed_of rfl, by decide, by unfold State.RowReadable; decide⟩
theorem witness_PredicateWordsWrite :
    (∃ f, predicateOf (demo .v).core (.plast 0 127 64) = some (127, f)) ∧ (demo .v).Unwindowed := ⟨⟨_, rfl⟩, demo_unwindowed _⟩

/-- s1 holds the last row of the scratchpad. -/
def rowsS1 : State := demoRows.onCur fun k => k.putS 1 0x4FF00 (residueOf 0x4FF00)

theorem witness_LaneLoadsSample :
    ∃ x, laneLoadOf rowsS1.core (.vld 0 0 0 63 1 15 0) = some x ∧ rowsS1.OnCore .v ∧ rowsS1.Unwindowed ∧
      elemSize (rowsS1.core.destType (rowsS1.core.place mapVd x.d).bank) = 4 ∧ (∀ y ∈ x.rows, rowsS1.RowReadable y) ∧
      x.Ok rowsS1.core 4 :=
  ⟨_, rfl, by unfold State.OnCore; decide, unwindowed_of rfl, by decide, (by intro y hy; cases hy), by unfold LaneAccess.Ok; decide⟩
theorem witness_LaneStoresSchedule :
    ∃ x, laneStoreOf rowsS1.core (.vscat 0 0 63 62 15 2) = some x ∧ rowsS1.OnCore .v ∧ rowsS1.Unwindowed ∧
      elemSize (rowsS1.core.destType (rowsS1.core.place mapVd x.d).bank) = 4 ∧
      (∀ y ∈ rowsS1.core.place mapVd x.d :: x.rows, rowsS1.RowReadable y) ∧ x.Ok rowsS1.core 4 ∧ x.mismatch rowsS1.core 4 = none :=
  ⟨_, rfl, by unfold State.OnCore; decide, unwindowed_of rfl, by decide, by unfold State.RowReadable; decide,
    by unfold LaneAccess.Ok; decide, by decide⟩
theorem witness_BindingsTakeEffectLater :
    (demo .v).Unwindowed ∧ (demo .v).core.v.mloop = none ∧ (demo .v).core.m.mloop = none ∧
      (demoCore .v fun k => { k with m := { k.m with mloop := some {
        ii := 1, stages := 1, k := 1, n := 1, body := 1, pass := 0, next := 0, opp := 0, joint := false } } }).core.m.mloop.isSome = true :=
  ⟨demo_unwindowed _, by decide, by decide, by decide⟩
theorem witness_MloopBegins :
    let s := withS1 .m 65535
    s.cur.track = .m ∧ s.cur.svc = false ∧ s.Plain ∧ s.Unwindowed ∧ (s.core.track (otherCompute s.cur.track)).mloop = none ∧
      (s.core.track (otherCompute s.cur.track)).loopAt = none ∧ (s.core.sreg 1).toNat ≤ 65535 :=
  ⟨by decide, by decide, by unfold State.Plain; decide, unwindowed_of rfl, by decide, by decide, by decide⟩

/-- Rings 0 and 1 of SIZE 16 with both heads FULL. -/
def demoTiles : State := demoCore .m fun k => { k with
  qregs := [(0, 0x10_0000_0000), (1, 0x10_0000_0000)]
  tags := [(0, { tag := 0, full := true }), (256, { tag := 0, full := true })] }

theorem witness_TileWordsStart :
    ∃ w n, tileOf demoTiles.core (.mmaBf16 0 0 1 63 63 1 0) = some (w, n) ∧ demoTiles.Unwindowed ∧
      w.Ready demoTiles.core demoTiles.now 1 := by
  refine ⟨_, _, rfl, unwindowed_of rfl, ?_⟩
  refine ⟨by decide, by decide, Or.inl (by decide), ?_, ?_, ?_⟩
  · intro x hx; cases hx
  · unfold Core.headFull; decide
  · intro u hu
    obtain rfl : u = 0 := by omega
    unfold Core.headFull; decide
theorem witness_GroupWordsStart :
    ∃ w, groupOf demoTiles.core (.mgrpBf16 0 0 1 63 0 0) = some (w, 0) ∧ demoTiles.OnCore .m ∧ demoTiles.Unwindowed ∧
      demoTiles.core.erchk = false ∧ demoTiles.core.tableOk 0 16 ∧ eccOver demoTiles.core.spadEcc 8 0 16 = 0 ∧
      demoTiles.core.ports = [] ∧ 16 ≤ field (demoTiles.core.qreg w.a) 32 8 ∧ 16 ≤ field (demoTiles.core.qreg w.b) 32 8 ∧
      (∀ j ∈ List.range 16, Mem.byte demoTiles.core.spad j = 0) ∧ w.Ready demoTiles.core demoTiles.now 0 := by
  refine ⟨_, rfl, by unfold State.OnCore; decide, unwindowed_of rfl, by decide, by unfold Core.tableOk; decide, by decide, by decide,
    by decide, by decide, by decide, by decide, by decide, Or.inl (by decide), ?_, ?_, ?_⟩
  · intro x hx; cases hx
  · unfold Core.headFull; decide
  · intro u hu; omega
theorem witness_GroupWordsStart_illegal :
    (Mem.byte ({ demoTiles.core with spad := [(8, 9)] } : Core).spad 8).toNat = 9 := by decide
theorem witness_MatrixControls :
    ∃ w, matrixWordOf (demo .m) (.balloc 0 63 1 0) = some w ∧ (demo .m).Unwindowed ∧ w.ok :=
  ⟨_, rfl, demo_unwindowed _, by decide, by decide⟩
theorem witness_MatrixControls_scales :
    ∃ w, matrixWordOf (withS1 .m 0x4FF80) (.mscaleB 0 1) = some w ∧ w.ok :=
  ⟨_, rfl, by decide⟩
theorem witness_MatrixControls_table :
    ∃ w, matrixWordOf (withS1 .m 0x08200000) (.ftset 0 15 1) = some w ∧ w.ok :=
  ⟨_, rfl, by unfold ftabOk; decide⟩
theorem witness_MatrixControls_ring :
    ∃ w, matrixWordOf (withS1 .m 0x10_0000_0000) (.qinit 0 7 1) = some w ∧ w.ok :=
  ⟨_, rfl, by decide, by unfold ringOk; decide⟩

/-- d1 and d2 name two places of the scratchpad, d3 one chunk now, d4 the accumulator memory, d5 device memory. -/
def demoCopy : State := demoCore .c fun k => { k with
  dregs := [(2, 0x4FF00), (3, 1), (4, 0x4000_0000_0000_0000), (5, 0x8000_0000_0000_0000), (6, 2)] }

theorem witness_CopyWordsLaunch :
    ∃ x, copyOf demoCopy (.cpy 0 2 1 3 31) = some x ∧ x.device = none ∧ x.Ok demoCopy := by
  refine ⟨_, rfl, rfl, ?_⟩
  refine ⟨trivial, by decide, by decide, by decide, by decide, by decide, ?_, ?_, ?_, by decide⟩
  · intro e he; cases he; exact ⟨rfl, rfl, rfl, by decide⟩
  · intro e he; cases he; exact ⟨rfl, rfl, rfl, by decide⟩
  · intro e he f hf; cases he; cases hf; decide

/-- The rope's cache holds the first 64 KiB. -/
def demoCopyDev : State := { demoCopy with
  mem := [(0x80000, 1)], caches := [(0, [{ idx := 0, big := false, va := 0, pa := 0x10000, w := true, r := true }])] }

theorem witness_CopyWordsLaunch_device :
    ∃ x d, copyOf demoCopyDev (.cpy 0 5 1 3 0) = some x ∧ x.device = some d ∧
      demoCopyDev.translate 0 0 d.1.addr d.2 (!d.2) = .hit 0x10000 ∧ demoCopyDev.onePage 0 0 d.1.addr d.1.bytes = true ∧
      x.Ok demoCopyDev := by
  refine ⟨_, _, rfl, rfl, by decide, by decide, ?_⟩
  refine ⟨trivial, by decide, by decide, by decide, by decide, by decide, ?_, ?_, ?_, by decide⟩
  · intro e he; cases he; exact ⟨rfl, rfl, rfl, by decide⟩
  · intro e he; cases he; exact ⟨rfl, rfl, by decide⟩
  · intro e he f hf; cases he; cases hf; decide
theorem witness_LaneWordsOpen : laneDesc 0x4EFC0 65 ∧ laneDesc (demoCopy.core.dreg 4) 64 := by unfold laneDesc; decide

/-- Group 0 of two members, and a one-chunk sum of 2-byte floats due 4,096 beats after the anchor. -/
def demoColl : State :=
  let s := demoCore .c fun k => { k with dregs := [(2, 0x100), (3, 0x1000_0000_0002), (4, 1)] }
  { s with pod := { s.pod with podn := 2, groups := [{ part := 0, group := 0, rank := 0, members := [(0, 0), (1, 0)] }] } }

theorem witness_CollectivesEnter :
    collOf (.collArsum 0 2 3 3) = some (0, 2, 3, 3) ∧
    demoColl.pod.groups.find? (fun r => decide (r.part = demoColl.cur.part) && decide (r.group = field (demoColl.core.dreg 3) 8 8)) =
      some { part := 0, group := 0, rank := 0, members := [(0, 0), (1, 0)] } ∧
    collFits demoColl 0 2 (demoColl.core.dreg 2) (demoColl.core.dreg 5) (demoColl.core.dreg 3) (demoColl.core.dreg 4) ∧
    demoColl.core.erchk = false := by
  refine ⟨rfl, by decide, ?_, rfl⟩
  unfold collFits collEnd; decide
theorem witness_DescriptorWordsWrite :
    let c : CollOp := { (default : CollOp) with status := 255, number := some 65535 }
    let s := demoCore .c fun k => { k with colls := [c] }
    let named (k : Core) := k.colls.filter fun c =>
      decide (c.key.group = field (k.dreg 1) 8 8) && decide (c.key.tag = field (k.dreg 1) 16 16)
    named (demo .c).core = [] ∧ (named s.core).getLast? = some c ∧ c.status < 256 ∧ c.number.getD 0 < 65536 := by decide
theorem witness_CloopsBegin :
    let s := withS1 .c 16777215
    s.cur.track = .c ∧ s.Plain ∧ s.track.cloop = none ∧ (s.core.sreg 1).toNat ≤ 16777215 ∧
      ∀ j, 1 ≤ j → j < 1 + 1 → ∀ w, s.source j = some w → w.extractLsb' 23 6 ≠ 4 := by
  refine ⟨by decide, by unfold State.Plain; decide, by decide, by decide, fun j a b w hw => ?_⟩
  obtain rfl : j = 1 := by omega
  have h : (withS1 .c 16777215).source 1 = some 0 := by decide
  rw [h] at hw; cases hw; decide

/-! ## Hypotheses of the statements: events -/

/-- Context 5 is resident at index 1 of partition 0; its descriptor is at 0x500, its stream table at 0x10000, and at 0x1000
stands a job image for a partition without ropes. -/
def demoCtx : State :=
  let s := State.reset.onPart 0 fun q => { q with residents := [(1, { Resident.reset with ctx := 5 })] }
  { s with hosts := [0], mem := [(0x503, 2), (0x509, 0x10), (0x53C, 1), (0x54A, 1),
      (0x1000, 0x49), (0x1001, 0x4A), (0x1002, 0x31), (0x1003, 0x44), (0x1004, 1), (0x2000, 50), (0x1FF80, 1)] }

theorem witness_CommandsAct :
    demoCtx.resOf 5 = some (0, 1) ∧ ((demoCtx.partAt 0).res 1).ctx = 5 ∧ (demoCtx.parseImage 0 0x1000).isSome = true ∧
      demoCtx.desc 5 8 8 = 0x1000 := by decide
theorem witness_CommandsAct_streams :
    demoCtx.stream 5 510 0 1 ≠ 1 ∧ demoCtx.stream 5 510 0 1 ≠ 2 ∧ demoCtx.Apart 5 (0x100000 % 2 ^ 64 + 1024) 8 ∧
      demoCtx.active 5 511 = true ∧
      demoCtx.Apart 5 (demoCtx.stream 5 511 80 8 + 1024) 8 ∧ demoCtx.Apart 5 (demoCtx.ctxDesc 5 + 256) 0 := by
  unfold State.Apart; decide
theorem witness_CommandsAct_grid :
    demoCtx.gridOk 5 = true ∧ Mem.nat demoCtx.mem 0x2000 4 % 2 ^ 17 = 50 ∧ (List.replicate 24 0).length = 24 := by decide
/-- A packet of the host that demoCtx's table names. -/
def demoPacket : Packet := { peer := 0, port := 3, mode := .rud, aiBase := true }

theorem witness_HostAccessesAct :
    (demoPacket.mode = .rod ∨ demoPacket.mode = .rud) ∧ demoPacket.aiBase = true ∧ demoCtx.hosts.contains demoPacket.peer = true ∧
      demoCtx.hosts.contains ({ demoPacket with peer := 1 } : Packet).peer = false ∧ 0 < demoCtx.nparts ∧
      demoCtx.mapBad 0 31 (.ofNat 64 (49152 * 2 ^ 48 + 2 ^ 31 + 7)) = false ∧ demoCtx.resOf 1023 = none := by decide
theorem witness_HostAccessesAct_notify :
    let r := (demoCtx.partAt 0).res 1
    demoCtx.resOf 5 = some (0, 1) ∧ 0 ≤ serial32 1 r.tail ∧ (1 + 2 ^ 32 - r.head % 2 ^ 32) % 2 ^ 32 ≤ 2 ^ demoCtx.desc 5 24 1 ∧
      0 ≤ serial32 0 (demoCtx.desc 5 64 4) := by decide
theorem witness_HostAccessesAct_ignored :
    let r := (demoCtx.partAt 0).res 1
    ¬ (0 ≤ serial32 2 r.tail ∧ (2 + 2 ^ 32 - r.head % 2 ^ 32) % 2 ^ 32 ≤ 2 ^ demoCtx.desc 5 24 1) ∧
      demoCtx.mapBad 0 31 (.ofNat 64 (2 * 2 ^ 48 + 49151 * 2 ^ 32 + 2 ^ 31 + 7)) = true ∧ demoCtx.nparts ≤ 1 := by decide
theorem witness_OutsideWorkEnds :
    (∀ x ∈ demoCtx.evSent, x.1 ≠ 5) ∧ ({ demoCtx with evSent := [(4, 1), (5, 2), (5, 3)] } : State).evSent = [(4, 1)] ++ (5, 2) :: [(5, 3)] ∧
    (∀ x ∈ [(4, 1)], x.1 ≠ 5) ∧
    (let s := demoCtx.onRes 0 1 fun r => { r with loading := true }
     ((s.partAt 0).res 1).loading = true ∧ (s.parseImage 0 (s.desc ((s.partAt 0).res 1).ctx 8 8)).isSome = true) := by decide

/-- Context 0's tables map the first 2 MiB to 0x200000, readable and writable, and a walk for it is on its way. -/
def demoWalk : State := { State.reset with
  walks := [{ part := 0, rope := 0, idx := 0, va := 0x1FFFFF, write := true, read := true, prefetch := none }]
  mem := [(0x1000, 3), (0x1001, 0x20), (0x2000, 3), (0x2001, 0x30), (0x3000, 0x0D), (0x3002, 0x20), (0x80000, 1), (0x80001, 0x10)] }

theorem witness_OutsideWorkEnds_walk :
    ∃ w, demoWalk.walks[0]? = some w ∧ demoWalk.walkRuns 0 = true ∧ demoWalk.walkTables 0 w.va = .page true 0x20000D ∧
      pageOk true 0x20000D = true ∧ w.allowed true 0x20000D = true ∧ (demoWalk.partAt w.part).hold = none :=
  ⟨_, rfl, by decide, by decide +kernel, by decide +kernel, by decide, by decide⟩

/-- A walk that context 0's tables refuse, as another of its partition still runs, in a hold. -/
def demoRefused : State :=
  let w : Walk := { part := 0, rope := 0, idx := 0, va := 2 ^ 47, write := true, read := true, prefetch := none }
  { demoWalk.onPart 0 fun q => { q with hold := some { causes := [1], serviced := [], since := 0, needs := [] } } with walks := [w, w] }

theorem witness_OutsideWorkEnds_refused :
    ∃ w, demoRefused.walks[0]? = some w ∧ demoRefused.walkRuns 0 = true ∧ demoRefused.walkTables 0 w.va = .refuse ∧
      w.prefetch = none ∧ (demoRefused.partAt w.part).hold.isSome = true ∧ (demoRefused.partAt w.part).step.resident = w.idx ∧
      (demoRefused.walks.eraseIdx 0).any (fun x => decide (x.part = w.part)) = true :=
  ⟨_, rfl, by decide, by decide +kernel, by decide, by decide, by decide, by decide⟩

/-- A partition at a moment of its grid. -/
def demoGrid (g : Partition → Partition) : State := State.reset.onPart 0 g

theorem witness_GridEventsAct_slot :
    let q := (demoGrid fun q => { q with running := true, phase := .over, slots := [⟨50, none⟩, ⟨50, none⟩, ⟨50, none⟩] }).partAt 0
    q.running = true ∧ q.slotEnd ≤ 0 ∧ q.phase ≠ .gap ∧ q.slot + 2 < q.slots.length := by decide
theorem witness_GridEventsAct_frame :
    let q := (demoGrid fun q => { q with running := true, phase := .over }).partAt 0
    q.running = true ∧ q.slotEnd ≤ 0 ∧ q.phase ≠ .gap ∧ q.slots.length = q.slot + 1 ∧ q.newGrid = none := by decide
theorem witness_GridEventsAct_turn :
    let q := (demoGrid fun q => { q with phase := .lead, topo := 4, plan := some (.owned, 0), ropes := [0] }).partAt 0
    q.phase = .lead ∧ q.topo % 4 = 0 ∧ q.plan ≠ none := by decide
theorem witness_GridEventsAct_bind :
    let q := (demoGrid fun q => { q with
      phase := .turn, plan := some (.owned, 1), step := { Step.none_ with releases := true }
      residents := [(1, { Resident.reset with ctx := 5, state := .active })] }).partAt 0
    q.phase = .turn ∧ q.step.bound = false ∧ q.step.todo = [] ∧ q.plan = some (.owned, 1) ∧ q.step.releases = true ∧
      (q.res 1).state = .active ∧ q.deadlined = false := by decide
theorem witness_GridEventsAct_commit :
    let q := (demoPart .s fun q => { q with topo := 2064, step := { q.step with rdz := 0 } }).partAt 0
    q.phase = .run ∧ q.step.outcome = .open_ ∧ q.step.anchor + q.step.rdz + 16 ≤ q.topo := by decide
theorem witness_GridEventsAct_deadline :
    let q := (demoPart .s fun q => { q with running := true }).partAt 0
    q.running = true ∧ q.deadlined = false ∧ q.slotEnd ≤ 0 + 20 * 10 ^ 9 ∧ q.step.outcome = .open_ ∧ q.phase = .run := by decide
theorem witness_GridEventsAct_release :
    let q := (demoPart .s fun q => { q with
      running := true, phase := .over, plan := some (.owned, 0), step := { q.step with releases := true, outcome := .abandoned } }).partAt 0
    q.running = true ∧ q.slotEnd ≤ 0 ∧ q.released = false ∧ q.phase ≠ .gap ∧ q.frozen = [] ∧ q.plan = some (.owned, 0) ∧
      q.phase ≠ .lead ∧ q.step.bound = true ∧ q.step.releases = true ∧ q.step.outcome ≠ .none ∧ q.step.outcome ≠ .committed ∧
      q.skipped = false ∧ q.svcFault = false := by
  decide
theorem witness_GridEventsAct_lead :
    let q := (demoPart .s fun q => { q with
      running := true, phase := .lead, plan := some (.owned, 1)
      residents := [(1, { Resident.reset with ctx := 5, state := .active, loaded := true, lag := 7 })] }).partAt 0
    q.running = true ∧ q.slotEnd ≤ 0 ∧ q.released = false ∧ q.frozen = [] ∧ q.plan = some (.owned, 1) ∧ q.skipped = false ∧
      q.phase = .lead ∧ (q.res 1).loaded = true ∧ (q.res 1).state = .active ∧ 7 ≤ (q.res 1).lag ∧ q.step.outcome ≠ .faulted ∧
      q.svcFault = false := by decide
theorem witness_GridEventsAct_watchdog :
    let s := demoPart .s fun q => { q with topo := 2048 + 16 + 2 ^ 24, step := { q.step with rdz := 0, watching := true } }
    let q := s.partAt 0
    q.phase = .run ∧ q.step.watching = true ∧ q.step.outcome = .open_ ∧ q.step.rdz + 16 + 2 ^ 24 ≤ s.watchCount 0 := by decide

/-- A latch of the S track's word that issued on beat 2,000. -/
def due (e : Effect) : Latch :=
  { org := { rope := 0, core := 0, track := .s, issue := 2000, pc := 0, mac := none, word := 0 }, act := 2048, eff := e }

/-- Core 0 with one latch due. -/
def latched (e : Effect) : State := demoCore .s fun k => { k with latches := [due e] }

theorem witness_LatchesPerform (e : Effect) :
    ((latched e).unit 0 0).latches[0]? = some (due e) ∧ (due e).act ≤ (latched e).unitNow 0 0 ∧ (due e).bad = none ∧
      ((latched e).unit 0 0).latches.eraseIdx 0 = [] := ⟨rfl, Nat.le_refl _, rfl, rfl⟩
theorem witness_LatchesPerform_service :
    let l := { due (.sreg 31 7 7) with act := 0, bad := some (0, 5) }
    let s := demoSvc.onCur fun k => { k with latches := [l] }
    (s.unit 0 8).latches[0]? = some l ∧ l.act ≤ s.unitNow 0 8 ∧ l.bad = some (0, 5) := by decide
theorem witness_LatchesPerform_sets :
    (Effect.sets Core.reset Core.reset (.sreg 31 7 7)).isSome = true ∧ (Effect.sets Core.reset Core.reset (.prot 4)).isSome = true ∧
      (Effect.sets Core.reset Core.reset (.ringInit 7 0)).isSome = true := ⟨rfl, rfl, rfl⟩
theorem witness_LatchesPerform_banks :
    let k : Core := { Core.reset with banks := [(0, { type := 1, owners := 0x40, freeFrom := 0 })] }
    k.allocated 0 = true ∧ k.allocated 63 = false ∧ (k.bank 0).owners.toNat / 4 ^ (0x3FFF / 0x1000 % 4) % 4 ≠ 0 ∧
      (k.bank 0).owners.toNat / 4 ^ (0x0FFF / 0x1000 % 4) % 4 = 0 := by decide
theorem witness_LatchesPerform_store :
    let cells := storedCells 0x4FFF8 8 0x0102030405060708
    let s := latched (.store .spad cells 0 [])
    cells ≠ [] ∧ s.unitPlace 0 0 .spad 0x4FFF8 true true = .hit 0x4FFF8 ∧ s.unitClean 0 0 .spad 0x4FFF8 8 ∧
      s.unitPlace 0 8 .dev 0x13FFFFFFF8 true false = .hit 0x13FFFFFFF8 := by
  refine ⟨by decide, by decide, ?_, rfl⟩; unfold State.unitClean; decide
theorem witness_LatchesPerform_load :
    let s := latched (.load .acc 0xFFFFF 1 true 31 2049 15)
    s.unitPlace 0 0 .acc 0xFFFFF false true = .hit 0xFFFFF ∧ s.unitClean 0 0 .acc 0xFFFFF 1 := by
  refine ⟨by decide, ?_⟩; unfold State.unitClean; decide
theorem witness_LatchesPerform_after :
    let eo := { (due (.omap 0)).org with issue := 1999 }
    let s := (latched (.loadAfter .spad 8 true 31 2049 15 [1] [])).onCore 0 0 fun k => { k with atomDone := [(eo, 15, .spad, [(8, 2)])] }
    (s.unit 0 0).atomDone = [(eo, 15, .spad, [(8, 2)])] ∧ eo.track = (due (.omap 0)).org.track ∧ eo.issue < (due (.omap 0)).org.issue := by
  decide

/-- A started copy of one scratchpad row, 0x4FE00 to 0x4FF00. -/
def demoChunks : Copy :=
  { (default : Copy) with
    kind := .cpy, start := 2000, started := false, sample0 := 48, perform0 := 48, period := 1, chunks := 1, srcSpace := .spad
    src := 0x4FE00, dstSpace := .spad, dst := 0x4FF00, rowLen := 1, ring := none, nextSample := 0, nextPerform := 0, buf := []
    suppressed := [] }

/-- The table entry of a foreign range over demoChunks' destination. -/
def foreign : OvEntry := { kind := 0, place := 0, lo := 0x4FFFF, hi := 0x50000, rope := 0, core := 1, step := 0, leave := 9999 }

theorem witness_BeatEvents_start :
    let s := demoCore .c fun k => { k with copies := [demoChunks] }
    (s.coreAt 0 0).copies[0]? = some demoChunks ∧ demoChunks.started = false ∧ demoChunks.start ≤ (s.partAt 0).topo ∧
      demoChunks.finished = false ∧ (s.partAt 0).overlaps = [] ∧ demoChunks.kind ≠ .speak ∧
      ([foreign].filter fun e => decide (e.kind = demoChunks.table.1) && decide (e.place = demoChunks.table.2)) = [foreign] ∧
      demoChunks.range.1 < foreign.hi ∧ foreign.lo < demoChunks.range.2 ∧ foreign.core ≠ 0 ∧
      ¬ (demoChunks.range.1 < ({ foreign with lo := 0x50000 } : OvEntry).hi ∧
        ({ foreign with lo := 0x50000 } : OvEntry).lo < demoChunks.range.2) := by decide
theorem finds_something (s : State) (x : Copy) (a : Nat) (h : x.srcSpace = .spad) : ∃ bs ps, s.Finds 0 0 x a bs ps := by
  simp only [State.Finds, h]
  exact ⟨_, _, rfl, rfl⟩
theorem witness_BeatEvents_sample :
    let x := { demoChunks with started := true }
    let s := demoCore .c fun k => { k with copies := [x] }
    (s.partAt 0).mark ≤ 2 ∧ x.sampleDue (s.partAt 0).topo = true ∧ x.nextPerform < x.chunks ∧ (∀ y ∈ (s.coreAt 0 0).copies, ∀ ch ∈ y.buf, ch.owed = []) ∧
      (s.coreAt 0 0).debts = [] ∧ ((s.coreAt 0 0).copies.map (·.org)).Nodup ∧
      (∀ y ∈ (s.coreAt 0 0).copies, ¬ y.org.issue < x.org.issue) := by decide
theorem witness_BeatEvents_sample_finds : ∃ bs ps, (demo .c).Finds 0 0 demoChunks 0x4FE00 bs ps := finds_something _ _ _ rfl
theorem witness_BeatEvents_sample_band :
    let k : Core := { Core.reset with banks := [(63, { type := 1, owners := 0, freeFrom := 0 })] }
    k.allocated (0xFC000 / 0x4000) = true ∧ (k.bank (0xFC000 / 0x4000)).owner (0xFC000 / 0x100 % 64) ≠ 1 := by decide
theorem witness_BeatEvents_sample_kinds :
    let x := { demoChunks with kind := .speak, started := true }
    let q := (demo .c).partAt 0
    x.buf = [] ∧ q.step.outcome = .open_ ∧ q.topo < q.step.anchor + q.step.rdz + 16 ∧ q.speak.length + 4 ≤ 4096 ∧
      x.grants = [] ∧ x.nextPerform = 0 := by decide
theorem witness_BeatEvents_sample_clean : badLines [] 8 0x4FF00 = [] := by decide
theorem witness_BeatEvents_sample_entry :
    leNat ((((List.replicate 256 (0 : Byte)).drop (64 * 3)).take 64).drop 8 |>.take 2) ≤ 511 := by decide
theorem witness_BeatEvents_perform :
    let x := { demoChunks with started := true, nextSample := 1, buf := [{ idx := 0, bytes := zeros 256, poison := [] }] }
    let s := demoCore .c fun k => { k with copies := [x] }
    x.performDue 2048 = true ∧ x.ring = none ∧ s.Lands 0 0 x 0x4FF00 ∧
      (∃ ch, x.buf.find? (fun y => decide (y.idx = 0)) = some ch ∧ ch.bytes = zeros 256 ∧ ch.poison = []) :=
  ⟨by decide, rfl, trivial, _, rfl, rfl, rfl⟩
theorem witness_BeatEvents_perform_full :
    let x := { demoChunks with ring := some (7, 255, 1), found := some { tag := 2, full := true } }
    x.kind ≠ .cpysel ∧ x.found = some { tag := 2, full := true } ∧ x.nextPerform = 0 ∧
      Core.reset.allocated (0xFFF00 / 0x4000) = false := by decide
theorem witness_BeatEvents_flit :
    let f : Flit := { (default : Flit) with rope := 0, dst := 1, arrive := 2048, lane := 3, bytes := zeros 64 }
    let x : RecvOp := { org := { (due (.omap 0)).org with issue := 2048 }, lane := 3, acw := f.acw, count := 1, sp := .spad, addr := 0x4FFC0, next := 0 }
    let s := ((demo .c).onPart 0 fun q => { q with flits := [f] }).onCore 0 1 fun k => { k with recvs := [x] }
    (s.partAt 0).flits[0]? = some f ∧ f.arrive ≤ (s.partAt 0).topo ∧
      (s.coreAt f.rope f.dst).recvs.find? (fun y => y.accepts f (s.partAt 0).topo) = some x := by decide

/-- An array word whose writeback is due: one row of bank 0, column 0. -/
def demoAcc : AccOp :=
  { (default : AccOp) with
    bank := 0, rows := 1, cols := 1, acc := 1, next := 32, w := 2048, bTiles := [{ addr := 0, first := 0, count := 1 }]
    aBytes := [], bBytes := [[]] }

theorem witness_BeatEvents_writeback :
    let s := demoCore .m fun k => { k with accops := [demoAcc], banks := [(0, { type := 1, owners := 0, freeFrom := 0 })] }
    (s.coreAt 0 0).accops[0]? = some demoAcc ∧ demoAcc.w ≤ (s.partAt 0).topo ∧ demoAcc.next = 32 ∧ demoAcc.rows ≠ 0 ∧
      demoAcc.cols ≠ 0 ∧ (s.coreAt 0 0).allocated demoAcc.bank = true ∧ elemSize demoAcc.acc ≤ 4 ∧ demoAcc.rows ≤ 64 ∧
      (s.coreAt 0 0).accEcc = [] ∧ tileOfRow demoAcc.bTiles 0 = some 0 ∧ (demo .m).core.allocated demoAcc.bank = false := by decide
theorem witness_BeatEvents_writeback_bad :
    let k : Core := { Core.reset with accEcc := [(0, 2)] }
    demoAcc.cols.getLsbD 0 = true ∧ eccOver k.accEcc 8 0 (elemSize demoAcc.acc) = 2 ∧ k.replay = [] := by decide
theorem witness_BeatEvents_result :
    let x : CollOp := { (default : CollOp) with due := 2048, status := 2, result := some ([1], []), dstSpace := .spad, dst := 0x4FF00 }
    x.due ≠ 0 ∧ x.due ≤ (demo .c).part.topo ∧ x.status = 2 ∧ x.result = some ([1], []) ∧ x.dstSpace = .spad ∧
      ({ x with status := 5 } : CollOp).status = 5 := by decide

/-- A pitch of one array word whose bank is shadowed. -/
def demoPitch : Core := { Core.reset with
  pitch := { Pitch.empty with commands := [.acc demoAcc], banks := [0], shadow := [(0, [(5, 1)], [])] }, replay := [(2048, demoAcc.org, 2 ^ 62)] }

theorem witness_BeatEvents_replay :
    demoPitch.replay = (2048, demoAcc.org, 2 ^ 62) :: [] ∧ (∃ cmd ∈ demoPitch.pitch.commands, cmd.org = demoAcc.org) ∧
      demoPitch.pitch.pushed = false ∧ (¬ ∃ e ∈ demoPitch.pitch.shadow, e.1 ∈ demoPitch.pitch.touched) ∧
      demoPitch.pitch.shadow = [(0, [(5, 1)], [])] ∧ Mem.wf [(5, (1 : Byte))] = true ∧ (∀ e ∈ [(5, (1 : Byte))], e.1 / 0x4000 = 0) ∧
      (¬ ∃ cmd ∈ Pitch.empty.commands, cmd.org = demoAcc.org) := by decide
theorem witness_BeatEvents_hold :
    let s := demoPart .s fun q => { q with hold := some { causes := [1], serviced := [1], since := 0, needs := [] } }
    ∃ h, (s.partAt 0).hold = some h ∧ s.holdOver 0 h = true := ⟨_, rfl, by decide⟩

/-- Context 5's urgent request waits while context 0's step stands at its first check beat. -/
def demoUrgent : State := demoPart .s fun q => { q with
  topo := 2048 + 1024, mark := 0, resmap := [(1, .ofNat 64 (2 ^ 48 + 2 ^ 31 + 5))]
  residents := [(1, { Resident.reset with ctx := 5, state := .active, loaded := true, lag := 1 })]
  xqueue := [{ ctx := 5, prio := 3, frame := 0, seq := 0 }] }

theorem witness_StopEvents_urgent : (demoUrgent.urgentDue 0).isSome = true := by decide

/-- A debugger halt of partition 0. -/
def demoHalt : Frozen := { (default : Frozen) with cause := .debugger, ran := false }

theorem witness_StopEvents_run :
    let q := (demoPart .s fun q => { q with frozen := [demoHalt] }).partAt 0
    q.frozen = [demoHalt] ∧ demoHalt.cause = .debugger ∧ demoHalt.ran = false := by decide
theorem witness_StopEvents_urgentStep :
    let s := demoPart .s fun q => { q with
      frozen := [{ demoHalt with cause := .urgent }], plan := some (.urgent, 1), phase := .over, step := Step.none_ }
    let q := s.partAt 0
    q.plan = some (.urgent, 1) ∧ q.phase = .over ∧ q.step.bound = false ∧ s.firmwareIdle 0 = true ∧ q.deadlined = false := by decide
theorem witness_StopEvents_heat :
    State.reset.thermal ≠ .trip ∧ (∃ x ∈ [(16 * 110 : Int), 0, 0, 0, 0], 16 * 110 ≤ x) ∧
      (∃ x ∈ [(16 * 100 : Int), 0, 0, 0, 0], 16 * 100 ≤ x) ∧ ¬ (∃ x ∈ [(16 * 100 : Int), 0, 0, 0, 0], 16 * 110 ≤ x) ∧
      (∀ x ∈ [(16 * 97 - 1 : Int), 0, 0, 0, 0], x < 16 * 97) ∧ (∃ x ∈ [(16 * 120 : Int), 0, 0, 0, 0], 16 * 120 ≤ x) ∧
      (∀ x ∈ [(16 * 95 : Int), 0, 0, 0, 0], x ≤ 16 * 95) ∧ (∀ x ∈ [(16 * 95 + 1 : Int), 0, 0, 0, 0], x < 16 * 120) ∧
      ∃ x ∈ [(16 * 95 + 1 : Int), 0, 0, 0, 0], 16 * 95 < x := by decide
theorem witness_StopEvents_telemetry :
    let s : State := { State.reset with ctxbase := some 0 }
    s.ctxbase = some 0 ∧ s.teleAt ≤ s.wall := by decide
theorem witness_StopEvents_trip :
    let s : State := { State.reset with thermal := .trip, wall := 10 ^ 16, frozen := true }
    s.thermal = .trip ∧ s.tripSince + 10 ^ 16 ≤ s.wall ∧ s.frozen = true := by decide
theorem witness_StopEvents_freeze : State.reset.halted = false ∧ State.reset.droop = none := by decide
theorem witness_BootEvents :
    State.reset.boot = .reset ∧ State.reset.flash.ok0 = true ∧ State.reset.flash.ok1 = true ∧
      ∀ b ∈ State.reset.flash.order, imageOk State.reset.fuse (State.reset.flash.slot b) = false := by decide
theorem witness_BootEvents_config :
    let s : State := { State.reset with boot := .config, image := some { (default : Image) with slotB := false } }
    s.boot = .config ∧ s.image.isSome = true := by decide
theorem witness_BootEvents_attest :
    let s : State := { State.reset with ctxbase := some 0, puf := true, leaf := 2 ^ 20 - 1, leafLimit := 2 ^ 20, mem := [(0xB0020, 1)] }
    s.ctxbase = some 0 ∧ Mem.bytes s.mem (0xB0000 + 0x20) 8 ≠ Mem.bytes s.mem (0xB0000 + 0x1000) 8 ∧ s.puf = true ∧ s.leaf < 2 ^ 20 ∧
      s.leaf < s.leafLimit := by decide

/-- Chip 1 of a pod of two whose sequencer is chip 0 and whose marks come from chip 0, with one running partition. -/
def demoPod : State :=
  let s := State.reset.onPart 0 fun q => { q with
    running := true, phase := .over, frameStart := 10 ^ 12, slots := [⟨50, none⟩, ⟨50, none⟩] }
  { s with wall := 10 ^ 12, pod := { s.pod with
    chip := 1, podn := 2, align := 1, mark := 0, seq := 0, groups := [{ part := 0, group := 3, rank := 0, members := [(1, 0), (0, 0)] }] } }

/-- Group 3's first collective with tag 0. -/
def demoKey : CollKey := { (default : CollKey) with group := 3, tag := 0, leaderChip := 1, leaderPart := 0, occurrence := 0 }

/-- Its number at a member. -/
def demoNumber : Numbered := { number := 0, gen := 0, key := demoKey, nullStatus := 0, started := [], done := false }

/-- demoPod's fabric changed. -/
def podWith (f : Fabric → Fabric) : State := { demoPod with fabric := f { demoPod.fabric with seqChip := 0 } }

/-- Chip 0 as sequencer of two chips, its fabric changed. -/
def seqWith (f : Fabric → Fabric) : State := { State.reset with pod := { State.reset.pod with podn := 2 }, fabric := f State.reset.fabric }

theorem witness_Fabric_marks :
    let q := demoPod.partAt 0
    demoPod.pod.align.getLsbD 0 = true ∧ demoPod.pod.mark ≠ demoPod.pod.chip ∧ q.running = true ∧ q.phase ≠ .gap ∧ q.marked = false ∧
      q.measured = false ∧ demoPod.wall ≤ q.frameStart + 10 ^ 10 ∧ q.slot + 1 < q.slots.length ∧
      (q.frameStart : Int) - ((1000000 * 10 ^ 6 : Nat) : Int) = 0 ∧
      q.frameStart + 10 ^ 10 < { demoPod with wall := 2 * 10 ^ 12 : State }.wall := by decide
theorem witness_Fabric_frame :
    let s := demoPod.onPart 0 fun q => { q with slot := 1, early := some (q.frame + 1, 0) }
    let q := s.partAt 0
    let mine : State := { s with pod := { s.pod with mark := 1 } }
    q.running = true ∧ q.slotEnd ≤ s.wall ∧ q.phase ≠ .gap ∧ q.slots.length = q.slot + 1 ∧ q.newGrid = none ∧
      s.pod.align.getLsbD 0 = true ∧ q.early = some (q.frame + 1, 0) ∧ mine.pod.mark = mine.pod.chip ∧ (demoPod.partAt 0).early = none := by
  decide
theorem witness_Fabric_request :
    let s := seqWith id
    s.fabric.seqChip = s.pod.chip ∧ s.fabric.colls = [] ∧ s.fabric.deferred = [] ∧ (∀ d ∈ [0, 1], d ∉ s.fabric.lost) ∧
      s.fabric.last = none ∧ (∃ d ∈ [0, 1], d ∈ (seqWith fun f => { f with lost := [1] }).fabric.lost) := by decide
theorem witness_Fabric_known :
    let x : SeqColl := { (default : SeqColl) with key := demoKey, nullStatus := 0 }
    let s := seqWith fun f => { f with colls := [x] }
    (s.fabric.colls.find? fun x => decide (x.key = demoKey)) = some x ∧ x.shape ≠ { x.shape with root := 1 } ∧ x.nullStatus = 0 := by
  decide
/-- The oldest collective not complete, 2 ^ 15 numbers back. -/
theorem witness_Fabric_noRoom :
    let x : SeqColl := { (default : SeqColl) with number := 0, members := [1], complete := [] }
    ¬ ((∀ m ∈ x.members, m ∈ x.complete) ∨ ((32767 + 1) % 65536 + 65536 - x.number) % 65536 < 32768) := by decide
theorem witness_Fabric_ack :
    let x : SeqColl := { (default : SeqColl) with key := demoKey, number := 0, sent := false, nullStatus := 0 }
    let s := seqWith fun f => { f with colls := [x] }
    (s.fabric.colls.find? fun x => decide (x.number = 0) && !x.sent) = some x := by decide
theorem witness_Fabric_deferred :
    let s := seqWith fun f => { f with deferred := [(1, 0, demoKey, default, [0, 1])] }
    s.fabric.deferred = (1, 0, demoKey, default, [0, 1]) :: [] ∧ s.fabric.colls = [] := by decide
theorem witness_Fabric_members :
    (podWith id).fabric.numbers = [] ∧ (podWith id).memberGroups demoKey ≠ [] ∧ (podWith id).memberGroups { demoKey with group := 4 } = [] ∧
      ((podWith fun f => { f with numbers := [demoNumber] }).fabric.numbers.find? fun e => decide (e.key = demoKey)) = some demoNumber ∧
      demoNumber.nullStatus = 0 := by decide
theorem witness_Fabric_start :
    let x : CollOp := { (default : CollOp) with key := demoKey, status := 2, number := some 0, started := false, dropped := false }
    let s := (podWith fun f => { f with numbers := [demoNumber] }).onCore 0 0 fun k => { k with colls := [x] }
    (s.coreAt 0 0).colls[0]? = some x ∧ x.shape.chunks ≤ x.next ∧
      (s.fabric.numbers.find? fun e => decide (e.key = x.key)) = some demoNumber ∧
      ¬ (1 ≤ (demoNumber.number + 65536 - demoNumber.number % 65536) % 65536) := by decide
theorem witness_Fabric_waits :
    let y : Numbered := { demoNumber with number := 65535 }
    y.done = false ∧ 1 ≤ (0 + 65536 - y.number % 65536) % 65536 ∧ (0 + 65536 - y.number % 65536) % 65536 ≤ 32767 ∧
      0 ∈ demoPod.memberParts y.key ∧ 0 ∉ y.started := by decide
theorem witness_Fabric_data :
    let s := podWith fun f => { f with numbers := [demoNumber], landing := [(demoKey, 0, [1], [])] }
    demoNumber ∈ s.fabric.numbers ∧ demoNumber.done = false ∧ demoNumber.nullStatus = 0 ∧
      (∀ y ∈ s.fabric.numbers, y.key = demoNumber.key → y = demoNumber) ∧
      s.memberGroups demoNumber.key = { part := 0, group := 3, rank := 0, members := [(1, 0), (0, 0)] } :: [] ∧
      (¬ ∃ y ∈ s.fabric.landing, y.1 = demoKey ∧ y.2.1 = 1) ∧ (∃ y ∈ s.fabric.landing, y.1 = demoKey ∧ y.2.1 = 0) := by decide
theorem witness_Fabric_timeout :
    let s := seqWith fun f => { f with missed := [(1, 3)], deferred := [(1, 0, demoKey, default, [0, 1])] }
    3 ≤ SMap.get 0 s.fabric.missed 1 ∧ 1 ∉ s.fabric.lost ∧ s.fabric.seqChip = s.pod.chip ∧ 1 < s.pod.podn ∧ 1 ≠ s.pod.chip := by decide
/-- Chip 1 is lost while chip 0, the sequencer, stands out too: the collective ends; once it has completed it does not. -/
theorem witness_Fabric_lost :
    let x : SeqColl := { (default : SeqColl) with key := demoKey, members := [0, 1], complete := [], nullStatus := 0 }
    1 ∈ x.members ∧ (∃ m ∈ x.members.filter (fun m => decide (m ≠ 1)), m ∉ x.complete) ∧
      ¬ (∃ m ∈ x.members.filter (fun m => decide (m ≠ 1)), m ∉ ({ x with complete := [0] } : SeqColl).complete) := by decide
/-- A contribution of a collective that is over here, and one of another that has no number here. -/
theorem witness_Fabric_over :
    let e : Numbered := { demoNumber with done := true }
    let s := podWith fun f => { f with numbers := [e] }
    (∃ y ∈ s.fabric.numbers, y.key = demoKey ∧ y.done = true) ∧
      ∀ y ∈ s.fabric.numbers, y.key ≠ { demoKey with occurrence := 1 } := by decide
theorem witness_Fabric_standby :
    let s := podWith fun f => { f with missed := [(0, 3)] }
    let t : State := { s with pod := { s.pod with stby := 1 } }
    3 ≤ SMap.get 0 t.fabric.missed 0 ∧ 0 ∉ t.fabric.lost ∧ t.fabric.seqChip ≠ t.pod.chip ∧ t.pod.stby = t.pod.chip ∧
      t.pod.stby ≠ t.pod.seq ∧ t.fabric.seqChip = 0 ∧ t.beatAt ≤ t.wall := by decide
theorem witness_Fabric_announce :
    let x : CollOp := { (default : CollOp) with key := demoKey, status := 1, due := 1 }
    let s := demoPod.onCore 0 7 fun k => { k with colls := [x] }
    x ∈ (s.coreAt 0 7).colls ∧ x.status = 1 ∧ x.due ≠ 0 ∧ x.withdrawn = false := by decide

/-! ## Hypotheses of the statements: the machine as a whole -/

theorem witness_FaultsAreTaken :
    let s : State := { demo .s with ctxbase := some 0 }
    demoSvc.cur.svc = true ∧ ({ demoSvc with ctxbase := some 0 } : State).ctxbase = some 0 ∧ s.ctxbase = some 0 ∧
      s.cur.svc = false ∧ s.part.fault = none ∧ s.part.step.outcome = .open_ := by decide
theorem witness_FaultsAreTaken_second :
    let g : FaultRec := { (default : FaultRec) with beat := 2048, svc := false }
    let s : State := { demoPart .v fun q => { q with fault := some g, step := { q.step with outcome := .faulted } } with
      ctxbase := some 0 }
    s.ctxbase = some 0 ∧ s.part.fault = some g ∧ g.beat = s.part.topo ∧ s.org.later g.org := by
  refine ⟨rfl, rfl, rfl, ?_⟩
  unfold Origin.later; decide
theorem witness_StepKeepsCanonical : State.reset.Canonical ∧ demoCtx.Canonical := by unfold State.Canonical; decide
theorem witness_DecodeInvertsEncode :
    Family.v ∈ familiesOf (.vgath 7 15 1 63 63 15 3) ∧ Instr.wf (.vgath 7 15 1 63 63 15 3) = true ∧
      (encode (.vgath 7 15 1 63 63 15 3)).isSome = true := by decide

/-- ADDI s1, s0, 5 at the first place of the code, the S track in turn. -/
def demoStep : State := State.reset.placeWord .s 0x04040005

theorem witness_StepRunsDecodedWord :
    let u : UnitId := { part := 0, rope := 0, core := 0, track := .s, svc := false }
    let s1 := ({ demoStep with cur := u } : State).spent
    demoStep.boot = .ready ∧ demoStep.halted = false ∧ s1.word = some 0x04040005 ∧ s1.fetchMark.1 ≠ 1 ∧ s1.fetchMark.1 ≠ 2 ∧
      s1.checkerDiffers 0x04040005 = false ∧ s1.squashed 0x04040005 = false ∧ decode .s 0x04040005 = .ok (.addi 0 1 0 5) ∧
      s1.latePass = false ∧ 0 < demoStep.nparts ∧ (demoStep.partAt 0).stopped = false ∧ (demoStep.partAt 0).mark = 1 ∧
      demoStep.latchDue 0 = none ∧ demoStep.nextUnit 0 = some u := by decide

/-! ## Hypotheses of the statements: streams -/

/-- Context 0's step stands at its commit beat: its stream table is at 0x100000; stream 0 is active with a ring of one
entry, Q = E = 0, and id 511 is prepared. -/
def demoStreams : State :=
  let a : AnchorStream := { sid := 0, n := 5, q := 0, rp := 0, snap := 1, key := 0 }
  let s := demoPart .s fun q => { q with
    topo := 2064, step := { q.step with rdz := 0, resident := 0 }, resmap := [(0, .ofNat 64 (2 ^ 31))]
    residents := [(0, { Resident.reset with state := .active, atAnchor := [a] })] }
  { s with mem := [(74, 0x10), (0x100000, 1), (0x100042, 0x30), (0x100052, 0x20), (0x100059, 0x10), (0x10005A, 0x20),
      (0x10FF80, 3), (0x10FFD2, 0x21), (0x10FFD9, 0x10), (0x10FFDA, 0x21), (0x300000, 5)] }

theorem streams_laid : demoStreams.Laid 0 := by
  unfold State.Laid apart
  decide +kernel
theorem witness_Commits :
    let q := demoStreams.partAt 0
    let r := q.res 0
    r.ctx = 0 ∧ 0 ∈ q.validIdx ∧ q.step.resident = 0 ∧ q.phase = .run ∧ q.step.outcome = .open_ ∧
      q.step.anchor + q.step.rdz + 16 ≤ q.topo ∧ (∀ a ∈ r.atAnchor, a.sid < 512) ∧ (r.atAnchor.map (·.sid)).Nodup ∧ r.resets = [] ∧
      q.stage = [] ∧ q.speak = [] := by decide +kernel
theorem witness_Commits_streams :
    demoStreams.active 0 0 = true ∧ demoStreams.st 0 511 stState = 3 ∧ demoStreams.EndIs 0 0 0 ∧ 5 * demoStreams.kvb 0 * 64 < 65536 ∧
      (demoStreams.ctxWord 0 0).testBit 0 = false ∧ demoStreams.st 0 0 stParent = 0 ∧ demoStreams.active 0 1 = false := by
  unfold State.EndIs; decide +kernel
/-- The first id prepared, and stream 0 without a child once its own ancestor is none. -/
theorem witness_Commits_ids :
    (∀ n, n < 511 → demoStreams.st 0 n stState ≠ 3) ∧
      (let s := { demoStreams with mem := SMap.setAll 0 demoStreams.mem 0x100002 [0xFF, 0xFF] }
       ∀ x, x < 512 → s.active 0 x = true → s.st 0 x stParent ≠ 0) := by decide +kernel
/-- The pending entry is the current one; its CRC does not match, so it resets nothing. -/
theorem witness_Commits_run :
    let a : AnchorStream := { sid := 0, n := 5, q := 0, rp := 0, snap := 1, key := 0 }
    demoStreams.Run 0 a 0 true ∧ (demoStreams.listenEntry 0 0 0).2 = true := by
  unfold State.Run; decide +kernel
theorem witness_Commits_speak :
    let x : SpeakEntry := { (default : SpeakEntry) with bytes := List.replicate 64 0, poison := false }
    x.poison = false ∧ x.bytes.length = 64 ∧ leField x.bytes 8 2 = 0 ∧ leField x.bytes 0 4 = 0 % 2 ^ 32 ∧ 0 < 0 + 2 ^ 31 ∧
      demoStreams.st 0 0 stQ ≤ 0 ∧ 0 ≤ demoStreams.st 0 0 stQ + 8 := by decide +kernel
theorem witness_Releases :
    let q := (demoStreams.onPart 0 fun q => { q with
      running := true, plan := some (.owned, 0), step := { q.step with releases := true, outcome := .committed } }).partAt 0
    q.running = true ∧ q.slotEnd ≤ 0 ∧ q.released = false ∧ q.phase ≠ .gap ∧ q.phase ≠ .lead ∧ q.frozen = [] ∧
      q.plan = some (.owned, 0) ∧ q.skipped = false ∧ q.svcFault = false ∧ q.step.bound = true ∧ q.step.releases = true ∧
      (∀ j ∈ q.validIdx, j ≠ 0 → (q.res j).resets = []) ∧ (q.res 0).resets = [] ∧ (q.res 0).state = .active ∧
      q.step.outcome = .committed := by decide +kernel
theorem witness_Commits_steady : ∀ a ∈ ((demoStreams.partAt 0).res 0).atAnchor, ¬ demoStreams.Resets 0 a := by
  intro a ha
  obtain rfl : a = { sid := 0, n := 5, q := 0, rp := 0, snap := 1, key := 0 } := by
    have h : ((demoStreams.partAt 0).res 0).atAnchor = [{ sid := 0, n := 5, q := 0, rp := 0, snap := 1, key := 0 }] := by
      decide +kernel
    rw [h] at ha; exact List.mem_singleton.mp ha
  rintro ⟨k, ⟨-, -, -, hc⟩, he, -⟩
  have hk : k < (1 + 2 ^ 32 - 0) % 2 ^ 32 := (hc.mp rfl).1
  obtain rfl : k = 0 := by omega
  have h : (demoStreams.listenEntry 0 0 ((0 + 0) % 2 ^ 32)).2 = true := by decide +kernel
  rw [h] at he; cases he

/-- The same with RESET in the pending entry and its CRC, worked out by hand from the polynomial of R24. -/
def demoReset : State := { demoStreams with mem := demoStreams.mem ++ [(0x300004, 2), (0x30000C, 0xF6), (0x30000D, 0x8B),
  (0x30000E, 0xCB), (0x30000F, 0xC5)] }

theorem witness_Commits_reset : demoReset.Resets 0 { sid := 0, n := 5, q := 0, rp := 0, snap := 1, key := 0 } := by
  refine ⟨0, ?_, ?_⟩
  · unfold State.Run; decide +kernel
  · decide +kernel

/-! ## Hypotheses of the statements: beats, lanes, holds, frames -/

/-- Partition 0 before its beat 2,048, nothing else to do in the device. -/
def beatStart (g : Partition → Partition) (h : Core → Core) : State :=
  (demoPart .s fun q => g { q with mark := 0 }).onCore 0 0 h

theorem beatStart_at (g : Partition → Partition) (h : Core → Core) (hs : ((beatStart g h).partAt 0).stopped = false)
    (hm : ((beatStart g h).partAt 0).mark = 0) (hb : (beatStart g h).betweenDue = none) : (beatStart g h).AtPart 0 0 :=
  ⟨rfl, rfl, Nat.one_pos, hs, hm, fun i hi => absurd hi (Nat.not_lt_zero i), fun _ => hb⟩
/-- The cores of the demonstrations, whose rope is rope 0. -/
theorem demo_ids (s : State) (h : (s.partAt 0).coreIds = (List.range 8).map fun c => (0, c)) (m : Nat × Nat)
    (hm : m ∈ (s.partAt 0).coreIds) : ∃ c, c < 8 ∧ m = (0, c) := by
  rw [h] at hm
  obtain ⟨c, hc, rfl⟩ := List.mem_map.mp hm
  exact ⟨c, List.mem_range.mp hc, rfl⟩

/-- Core 0 alone in its domain instance, its BELAY waiting since a beat. -/
def waiting (b : Nat) : State := beatStart id fun k => { k with dom := 4, s := { k.s with belay := some { (default : Origin) with issue := b } } }

theorem witness_BelayWaits_begins : (waiting 2047).Begins 0 :=
  ⟨beatStart_at _ _ rfl rfl rfl, rfl, rfl, rfl, rfl, by decide, by decide⟩
theorem witness_BelayWaits_begins_not : (waiting 2048).Begins 0 :=
  ⟨beatStart_at _ _ rfl rfl rfl, rfl, rfl, rfl, rfl, by decide, by decide⟩
theorem witness_BelayWaits_member :
    let s := waiting 2047
    (0, 0) ∈ (s.partAt 0).coreIds ∧ (s.coreAt 0 0).domEn = true ∧ (s.coreAt 0 0).s.belay.isSome = true ∧
      ∀ m ∈ (s.partAt 0).coreIds, inDomain (s.coreAt 0 0) (s.coreAt m.1 m.2) 0 m.1 →
        (∃ o, (s.coreAt m.1 m.2).s.belay = some o ∧ o.issue < (s.partAt 0).topo) ∧
          ((s.coreAt m.1 m.2).low = true → (s.partAt 0).topo % 4 = 0) := by
  refine ⟨by decide, by decide, by decide, ?_⟩
  intro m hm hd
  obtain ⟨c, hc, rfl⟩ := demo_ids _ rfl m hm
  match c, hc, hd with
  | 0, _, _ => exact ⟨⟨_, rfl, by decide⟩, by decide⟩
  | n + 1, hc, hd =>
    have : ∀ n, n < 7 → ((waiting 2047).coreAt 0 (n + 1)).domEn = false := by decide
    exact absurd hd.1 (by rw [this n (by omega)]; decide)
theorem witness_BelayWaits_member_not :
    let s := waiting 2048
    (s.coreAt 0 0).domEn = true ∧ (s.coreAt 0 0).s.belay.isSome = true ∧ inDomain (s.coreAt 0 0) (s.coreAt 0 0) 0 0 ∧
      ¬ ∃ o, (s.coreAt 0 0).s.belay = some o ∧ o.issue < (s.partAt 0).topo := by
  refine ⟨by decide, by decide, ?_, ?_⟩
  · exact ⟨by decide, rfl, rfl⟩
  · rintro ⟨o, h, hi⟩; cases h; exact absurd hi (by decide)

/-- Core 0 in a settle window, the beat's parts done. -/
def settling (b : Nat) : State :=
  (demoPart .s fun q => { q with mark := 4 }).onCore 0 0 fun k => { k with window := some { opened := b, low := true } }

theorem settling_ends (b : Nat) : (settling b).Ends := by
  refine ⟨rfl, rfl, fun i hi => ?_, fun h => ?_⟩
  · obtain rfl : i = 0 := by have : (settling b).nparts = 1 := rfl; omega
    rfl
  · exact absurd h (by show ¬ (false = true); decide)
theorem witness_GearOpensAWindow_ends :
    let s := settling 1921
    0 < s.nparts ∧ (s.partAt 0).stopped = false ∧ (s.partAt 0).fault = none ∧ (0, 0) ∈ (s.partAt 0).coreIds ∧
      (∀ i, i < s.nparts → i ≠ 0 → 0 ∉ (s.partAt i).ropes) ∧ (s.coreAt 0 0).window = some { opened := 1921, low := true } ∧
      1921 + 127 ≤ (s.partAt 0).topo ∧ (s.partAt 0).topo < 1922 + 127 ∧ (s.coreAt 0 1).window = none := by
  refine ⟨by decide, by decide, by decide, by decide, fun i hi h => ?_, by decide, by decide, by decide, by decide⟩
  have : (settling 1921).nparts = 1 := rfl
  omega

/-- A latch that loads from device memory, whose page the rope's cache has not; a collective without its result; an error to
replay. -/
def holding : State :=
  { beatStart id (fun k => { k with
      latches := [due (.load .dev 0xFFF8 8 true 3 2050 0)]
      colls := [{ (default : CollOp) with due := 2048, result := none }]
      replay := [(2047, default, 0)] }) with mem := [(0x80000, 1)] }

theorem witness_BeatEvents_begins :
    holding.AtPart 0 0 ∧ holding.needsOf 0 ≠ [] ∧ (holding.coreAt 0 0).replay ≠ [] ∧ (holding.partAt 0).step.outcome = .open_ ∧
      (holding.partAt 0).topo ≤ (holding.partAt 0).rendezBeat + 16 ∧
      (∃ m ∈ (holding.partAt 0).coreIds, ∃ x ∈ (holding.coreAt m.1 m.2).colls, x.due = (holding.partAt 0).topo ∧ x.result = none) ∧
      ∃ l ∈ (holding.coreAt 0 0).latches, l.act ≤ (holding.partAt 0).topo ∧ l.bad = none ∧ l.eff.page = some (0xFFF8, false, true) ∧
        holding.translate 0 0 0xFFF8 false true = .missing := by
  refine ⟨⟨rfl, rfl, Nat.one_pos, rfl, rfl, fun i hi => absurd hi (Nat.not_lt_zero i), fun _ => rfl⟩, ?_, by decide, rfl, by decide, ?_, ?_⟩
  · have : (holding.needsOf 0).isEmpty = false := rfl
    intro h; rw [h] at this; cases this
  · exact ⟨(0, 0), by decide, _, List.mem_singleton.mpr rfl, rfl, rfl⟩
  · exact ⟨_, List.mem_singleton.mpr rfl, by decide, rfl, rfl, by decide⟩
theorem witness_BeatEvents_hold_over :
    let s := (demoPart .s fun q => { q with hold := some { causes := [1], serviced := [1], since := 0, needs := [] } }).setSvc 0
      { State.reset.svcAt 0 with active := true, cause := 1 }
    0 ∈ (s.partAt 0).ropes ∧ (s.svcAt 0).cause = 1 ∧ 1 ∉ (s.partAt 0).ropes := by decide
theorem witness_GridEventsAct_lastSlot :
    let q := (demoGrid fun q => { q with running := true, phase := .over, slots := [⟨50, none⟩, ⟨50, none⟩] }).partAt 0
    q.running = true ∧ q.slotEnd ≤ 0 ∧ q.phase ≠ .gap ∧ q.slot + 2 = q.slots.length := by decide

/-- Both compute tracks in modulo loops, the V track's at the beginning of a pass, the M track's done. -/
def looping : State := beatStart id fun k =>
  let l : MLoop := { ii := 1, stages := 1, k := 1, n := 65535, body := 1, pass := 0, next := 0, opp := 0, joint := true }
  { k with v := { k.v with mloop := some l }, m := { k.m with mloop := some { l with n := 1, pass := 1, opp := 1 } } }

theorem witness_MloopBegins_turns : looping.Begins 0 ∧ (looping.partAt 0).issuing = true ∧ (looping.partAt 0).ropes.Nodup ∧
    (0, 0) ∈ (looping.partAt 0).coreIds :=
  ⟨⟨beatStart_at _ _ rfl rfl rfl, rfl, rfl, rfl, rfl, by decide, by decide⟩, by decide, by decide, by decide⟩
theorem witness_MloopBegins_passes :
    let k := looping.coreAt 0 0
    k.opportunity .v 2048 = true ∧ k.blocked .v = false ∧ (∃ l ∈ k.v.mloop, l.next = 0 ∧ l.pass < l.n + l.stages - 1) ∧
      ∃ l ∈ k.m.mloop, l.next = 0 ∧ l.n + l.stages - 1 ≤ l.pass ∧ l.n + l.stages - 1 ≤ l.opp := by
  refine ⟨by decide, by decide, ⟨_, rfl, by decide, by decide⟩, ⟨_, rfl, by decide, by decide, by decide⟩⟩

/-- demoRows with a lane index in s1 that lacks its residue. -/
def badLane : State := demoRows.onCur fun k => k.putS 1 8 0

theorem witness_RowWordsWriteLanes_index :
    ∃ w, rowWordOf badLane (.vrot 0 0 0 63 62 0 1) = some w ∧ badLane.OnCore .v ∧ badLane.Unwindowed ∧
      w.regs.find? badLane.core.residueBad = some 1 :=
  ⟨_, rfl, by unfold State.OnCore; decide, unwindowed_of rfl, rfl⟩
theorem witness_RowWordsWriteLanes_indexed :
    ∃ w, rowWordOf rowsS1 (.vrot 0 0 0 63 62 0 1) = some w ∧ rowsS1.OnCore .v ∧ rowsS1.Unwindowed ∧
      (∀ r ∈ w.regs, rowsS1.core.residueBad r = false) ∧ ∀ y ∈ w.sources rowsS1.core, rowsS1.RowReadable y :=
  ⟨_, rfl, by unfold State.OnCore; decide, unwindowed_of rfl, by decide, by unfold State.RowReadable; decide⟩

/-- VADD under p8 at the first place of the code, the one word of the V track's kernel. -/
def squashing : State := (State.reset.placeWord .v 0x02C08000).onCore 0 0 fun k => { k with v := { k.v with mloop := some {
  ii := 1, stages := 1, k := 1, n := 1, body := 0, pass := 1, next := 0, opp := 0, joint := false } } }

theorem witness_StepRunsDecodedWord_squash :
    let u : UnitId := { part := 0, rope := 0, core := 0, track := .v, svc := false }
    let s1 := ({ squashing with cur := u } : State).spent
    s1.word = some 0x02C08000 ∧ s1.fetchMark.1 = 0 ∧ s1.checkerDiffers 0x02C08000 = false ∧ majorAssigned .v 0x02C08000 = true ∧
      s1.inKernel = true ∧ s1.StageFalse 0x02C08000 ∧ 0 < squashing.nparts ∧ (squashing.partAt 0).stopped = false ∧
      (squashing.partAt 0).mark = 1 ∧ squashing.latchDue 0 = none ∧ squashing.nextUnit 0 = some u := by
  refine ⟨by decide, by decide, by decide, by decide, by decide, ?_, by decide, by decide, by decide, by decide, by decide⟩
  unfold State.StageFalse; decide

/-- COMMIT at the first place of the firmware, the service context of rope 0 in turn. -/
def serving : State := State.reset.placeService 0x1F800300

theorem witness_StepRunsDecodedWord_service :
    let u : UnitId := { part := 0, rope := 0, core := 0, track := .s, svc := true }
    let s1 := ({ serving with cur := u } : State).spent
    serving.boot = .ready ∧ serving.halted = false ∧ serving.between = true ∧ serving.betweenDue = serving.serviceDue 0 0 ∧
      s1.word = some 0x1F800300 ∧ s1.checkerDiffers 0x1F800300 = false ∧ s1.squashed 0x1F800300 = false ∧
      decode .s 0x1F800300 = .ok (.commit 0) ∧ s1.latePass = false ∧ (serving.svcAt 0).active = true ∧
      (serving.svcAt 0).resumeAt = none ∧ (serving.partAt 0).stopped = true ∧ (serving.svcAt 0).clock < serving.wall / 625000 ∧
      (serving.svcAt 0).seq.latches = [] ∧ (serving.svcAt 0).seq.due .s (serving.svcAt 0).period = true :=
  ⟨rfl, rfl, rfl, rfl, by decide, by decide, by decide, by decide, by decide, by decide, by decide, by decide, by decide, by decide, by decide⟩

/-- Core 0 samples flits and chunks of the scratchpad's last bytes, and of a band that only V has. -/
def sampling : State := (demoPart .s fun q => { q with mark := 2 }).onCore 0 0 fun k =>
  let o : Origin := { (default : Origin) with track := .c, issue := 2047 }
  { k with
    banks := [(63, { type := 1, owners := 0, freeFrom := 0 })]
    sends := [{ org := o, lane := 7, acw := true, hops := 7, count := 2, sp := .spad, addr := 0x4FFC0, next := 0 },
      { org := { o with pc := 1 }, lane := 0, acw := false, hops := 0, count := 1, sp := .acc, addr := 0xFFFC0, next := 0 }]
    colls := [{ (default : CollOp) with org := { o with pc := 2 }, start := 2047, srcSpace := .spad, src := 0x4FF00, shape := { (default : CollShape) with chunks := 1 } },
      { (default : CollOp) with org := { o with pc := 3 }, start := 2047, srcSpace := .acc, src := 0xFFF00, shape := { (default : CollShape) with chunks := 1 } }] }

theorem sampling_samples : sampling.Samples 0 := by
  refine ⟨⟨rfl, rfl, Nat.one_pos, rfl, rfl, fun i hi => absurd hi (Nat.not_lt_zero i), fun h => ?_⟩, rfl, by decide, rfl, rfl⟩
  exact absurd h (by show ¬ (false = true); decide)
theorem witness_LaneWordsOpen_sample :
    (0, 0) ∈ (sampling.partAt 0).coreIds ∧ ∃ x ∈ (sampling.coreAt 0 0).sends, x.org.issue + 1 + x.next = (sampling.partAt 0).topo ∧
      (∀ y ∈ (sampling.coreAt 0 0).sends, y.org = x.org → y = x) ∧ x.next + 1 < x.count ∧
      sampling.Meets 0 0 x.sp (x.addr + 64 * x.next) 64 2 (some (List.replicate 64 0, [])) := by
  refine ⟨by decide, _, List.mem_cons_self, by decide, by decide, by decide, ?_⟩
  unfold State.Meets; decide +kernel
theorem witness_LaneWordsOpen_refused :
    ∃ x ∈ (sampling.coreAt 0 0).sends, x.org.issue + 1 + x.next = (sampling.partAt 0).topo ∧
      (∀ y ∈ (sampling.coreAt 0 0).sends, y.org = x.org → y = x) ∧ sampling.Meets 0 0 x.sp (x.addr + 64 * x.next) 64 2 none := by
  refine ⟨_, List.mem_cons_of_mem _ List.mem_cons_self, by decide, by decide, ?_⟩
  unfold State.Meets; decide
theorem witness_CollectivesEnter_sample :
    ∃ x ∈ (sampling.coreAt 0 0).colls, x.start + 1 + x.next = (sampling.partAt 0).topo ∧ x.dropped = false ∧
      x.next < x.shape.chunks ∧ x.org.issue < (sampling.partAt 0).topo ∧ (∀ y ∈ (sampling.coreAt 0 0).colls, y.org = x.org → y = x) ∧
      sampling.Meets 0 0 x.srcSpace (x.src + 256 * x.next) 256 1 (some (List.replicate 256 0, [])) := by
  refine ⟨_, List.mem_cons_self, by decide, by decide, by decide, by decide, by decide, ?_⟩
  unfold State.Meets; decide +kernel
theorem witness_CollectivesEnter_refused :
    ∃ x ∈ (sampling.coreAt 0 0).colls, x.start + 1 + x.next = (sampling.partAt 0).topo ∧ x.dropped = false ∧
      x.next < x.shape.chunks ∧ x.org.issue < (sampling.partAt 0).topo ∧ (∀ y ∈ (sampling.coreAt 0 0).colls, y.org = x.org → y = x) ∧
      sampling.Meets 0 0 x.srcSpace (x.src + 256 * x.next) 256 1 none := by
  refine ⟨_, List.mem_cons_of_mem _ List.mem_cons_self, by decide, by decide, by decide, by decide, by decide, ?_⟩
  unfold State.Meets; decide

/-- Latches of one register, row, predicate and access. -/
def framed : Core := { (demo .s).core with latches := [due (.sreg 31 7 7), due (.dreg 31 7), due (.row 63 63 (List.replicate 256 1)),
  due (.pred 127 1), due (.store .dev (storedCells 0 8 7) 15 []), due (.load .acc 0xFFFFF 1 true 31 2049 15),
  due (.loadElem 0 4 false 31 2050), due (.atomic .spad 0 8 .maxu 7 31 2051 15 [] [] [])] }

theorem witness_BreakHalts_latches :
    (∀ l ∈ framed.latches, (l.record 2048).isSome = true) ∧ framed.latches.length ≤ 512 ∧ framed.copies = [] ∧ framed.colls = [] ∧
      framed.accops = [] ∧ framed.sends = [] ∧ framed.ertab.length ≤ 64 := by decide +kernel
theorem witness_BreakHalts_loops :
    let l : KLoop := { body := 1, len := 32, kreg := 3, count := 0, trip := 2 }
    let k : Core := { framed with s := { framed.s with kloops := [l] } }
    k.s.mloop = none ∧ k.s.cloop = none ∧ k.s.kloops.reverse[0]? = some l ∧ looping.core.m.mloop.isSome = true ∧
      framed.c.mloop = none := by decide
theorem witness_StopEvents_halt : (beatStart (fun q => { q with haltAsked := true }) id).AtPart 0 0 ∧
    (beatStart (fun q => { q with haltAsked := true }) id).holdCauses 0 = [] := ⟨beatStart_at _ _ rfl rfl rfl, rfl⟩

/-- Partition 0 halted by the debugger, RUN given, its firmware at RESUME with a frame set at 16 MiB. -/
def halted (m : SMap Byte) : State :=
  let s := beatStart (fun q => { q with frozen := [{ (default : Frozen) with cause := .debugger, ran := true }] }) id
  { s.setSvc 0 { s.svcAt 0 with active := true, resumeAt := some 0x1000000 } with mem := m }

/-- Eight frames of beat 0 with nothing in them. -/
def emptyFrames : SMap Byte := (List.range 8).flatMap fun c =>
  let a := 0x1000000 + 0x200000 * c
  [(a, 0x42), (a + 1, 0x49), (a + 2, 0x56), (a + 3, 0x4B)] ++ if c = 0 then [] else [(a + 31, .ofNat 8 c)]

theorem witness_ResumeWaits_back :
    let s := halted emptyFrames
    s.boot = .ready ∧ s.halted = false ∧ s.between = true ∧ s.betweenDue = s.stopDue 0 ∧ (s.partAt 0).step.outcome = .open_ ∧
      (s.partAt 0).resumeWait = none ∧ (∀ r ∈ (s.partAt 0).ropes, (s.svcAt r).resumeAt.isSome = true) ∧
      (∀ f ∈ (s.partAt 0).frozen, f.cause = .debugger ∧ f.ran = true) ∧ (s.partAt 0).frozen.length = 1 ∧
      (0, 0) ∈ (s.partAt 0).coreIds.head? ∧ s.badFrame 0 = none ∧
      ∀ r ∈ (s.partAt 0).ropes, ∀ n ∈ (s.partAt 0).ropes, r = n :=
  ⟨rfl, rfl, rfl, rfl, rfl, rfl, by decide, by decide, rfl, by decide, by decide +kernel, by decide⟩
theorem witness_ResumeWaits_bad :
    let s := halted []
    s.between = true ∧ s.betweenDue = s.stopDue 0 ∧
      ∃ x ∈ (s.partAt 0).coreIds, s.FrameBad (0x1000000 + 0x200000 * x.2) x.2 (s.inFrame 0x1000000 8 8) :=
  ⟨rfl, rfl, (0, 7), by decide, Or.inl (by decide)⟩
theorem witness_ResumeWaits_restart :
    let s := beatStart (fun q => { q with resumeWait := some (625000, 0) }) id
    s.boot = .ready ∧ s.halted = false ∧ s.between = true ∧ s.betweenDue = s.stopDue 0 ∧ (s.partAt 0).step.outcome = .open_ ∧
      (s.partAt 0).resumeWait = some (625000, 0) ∧ 625000 ≤ s.wall := ⟨rfl, rfl, rfl, rfl, rfl, rfl, by decide⟩

end Sys2Proof.Tests
end

namespace Sys2Proof.Machine

/-! ## Counters and positions (R168, R178) -/

/-- A word that writes one s register does that and steps on. -/
theorem State.giveS_retire_schedules (s : State) (d : BitVec 5) (v : W64) :
    s.Schedules ((s.giveS d v).retire) s.core [s.latch (s.now + s.core.lat 1) (.sreg d.toNat v (residueOf v))] :=
  s.emit_retire_schedules _ _ 0 none

/-- Two fields side by side are one number. -/
theorem ofNat_append_ofNat {v w : Nat} (x : Nat) {y : Nat} (hy : y < 2 ^ w) :
    BitVec.ofNat v x ++ BitVec.ofNat w y = BitVec.ofNat (v + w) (x * 2 ^ w + y) := by
  apply BitVec.eq_of_toNat_eq
  rw [BitVec.toNat_append, BitVec.toNat_ofNat, BitVec.toNat_ofNat, BitVec.toNat_ofNat, Nat.mod_eq_of_lt hy,
    ← Nat.shiftLeft_add_eq_or_of_lt hy, Nat.shiftLeft_eq, Nat.pow_add, Nat.mul_comm (2 ^ v), Nat.mod_mul,
    Nat.mul_comm x, Nat.mul_add_mod, Nat.mod_eq_of_lt hy, Nat.mul_add_div (by positivity), Nat.div_eq_of_lt hy, Nat.add_zero]
  ring

/-- The number of a truth value, as a field of one bit. -/
theorem ofBool_eq_ofNat (b : Bool) : BitVec.ofBool b = BitVec.ofNat 1 b.toNat := by cases b <;> rfl

/-- SLOT as its fields stand side by side (R21). -/
theorem Partition.slotReg_fields (q : Partition) (h : q.inStep = true)
    (hu : (q.slots.getD q.slot ⟨0, none⟩).us < 2 ^ 17) (hc : q.runner.ctx < 2 ^ 10) (hr : q.step.resident < 2 ^ 5)
    (hs : q.slot < 2 ^ 6) :
    BitVec.ofNat 64 q.slotReg =
      0#15 ++ BitVec.ofNat 17 (q.slots.getD q.slot ⟨0, none⟩).us ++ 0#6 ++ BitVec.ofNat 10 q.runner.ctx ++ 0#3 ++
        BitVec.ofNat 5 q.step.resident ++ BitVec.ofBool (decide (q.step.kind = .urgent)) ++
        BitVec.ofBool (decide (q.step.kind ≠ .owned)) ++ BitVec.ofNat 6 q.slot := by
  rw [ofBool_eq_ofNat, ofBool_eq_ofNat, ofNat_append_ofNat _ hu, ofNat_append_ofNat _ (by decide), ofNat_append_ofNat _ hc,
    ofNat_append_ofNat _ (by decide), ofNat_append_ofNat _ hr, ofNat_append_ofNat _ (Bool.toNat_lt _),
    ofNat_append_ofNat _ (Bool.toNat_lt _), ofNat_append_ofNat _ hs]
  congr 1
  unfold Partition.slotReg
  rw [if_pos h]
  cases q.step.kind <;> simp <;> ring

/-- What POSQ reads of an id: all ones unless it names an active stream (R178). -/
theorem State.posq_stream (s : State) (sid sel : Nat) (h : sel ≠ 3) :
    s.posq sid sel = if sid ≤ 511 ∧ s.active s.part.runner.ctx sid = true then
      BitVec.ofNat 64 (if sel = 0 then s.stream s.part.runner.ctx sid 8 8
        else if sel = 1 then s.stream s.part.runner.ctx sid 16 8 else s.stream s.part.runner.ctx sid 24 4)
    else BitVec.allOnes 64 := by
  simp only [State.posq, if_neg h]

/-- RDCTR of a select that its unit has (R168). -/
theorem execRdctr_eq (g : BitVec 3) (d : BitVec 5) (sel : BitVec 8) (s : State)
    (h : s.cur.svc = true → sel.toNat < 3 ∨ 16 ≤ sel.toNat) :
    exec (.rdctr g d sel) s = .next ((s.giveS d (s.counter sel.toNat)).retire) := by
  show execRdctr g d sel s = _
  unfold execRdctr
  rw [if_neg]
  rintro ⟨hs, hc⟩
  have := h hs
  simp only [coreSelect, Bool.and_eq_true, decide_eq_true_eq] at hc
  omega

theorem Core.gearst_settled (k : Core) (b : Nat) (h : k.window = none) :
    BitVec.ofNat 64 (k.gearst b) = if k.low then 5 else 0 := by
  unfold Core.gearst
  rw [h]
  cases k.low <;> rfl

theorem Partition.inStep_iff (q : Partition) : q.inStep = true ↔ q.phase = .run ∧ q.step.outcome = .open_ := by
  simp [Partition.inStep]

/-- POSQ in a step (R178). -/
theorem execPosq_eq (g : BitVec 3) (d a : BitVec 5) (n : BitVec 2) (s : State) (h : s.cur.svc = false) :
    exec (.posq g d a n) s = .next ((s.giveS d (s.posq (s.core.sreg a).toNat n.toNat)).retire) := by
  show execPosq g d a n s = _
  unfold execPosq
  exact onCore_eq h

/-- Settles O17: RDCTR by the select, POSQ by the position that its operand names. -/
theorem countersAndPositionsAreRead : Obligations.CountersAndPositionsAreRead := by
  unfold Obligations.CountersAndPositionsAreRead
  intro g d a sel n s
  refine ⟨fun hsvc => ⟨_, _, execRdctr_eq g d sel s hsvc, s.giveS_retire_schedules d _, ?_⟩,
    fun hsvc => ⟨_, _, execPosq_eq g d a n s hsvc, s.giveS_retire_schedules d _, ?_⟩⟩
  · refine ⟨?_, ?_, ?_, ?_, ?_, ?_, fun h₁ h₂ => ?_, fun h₁ h₂ => ?_, ?_⟩
    · rintro rfl; rfl
    · rintro rfl
      split
      · rename_i h
        exact Partition.slotReg_fields _ ((Partition.inStep_iff _).mpr h)
      · rename_i h
        show BitVec.ofNat 64 s.part.slotReg = 0
        rw [Partition.slotReg, if_neg (mt (Partition.inStep_iff _).mp h)]
        rfl
    · rintro rfl
      show (if s.part.inStep = true then _ else _) = _
      simp only [Partition.inStep_iff]
    · rintro rfl h; exact Core.gearst_settled _ _ h
    · rintro rfl; rfl
    · rintro rfl; rfl
    · simp only [State.counter]
      rw [if_neg (by omega), if_neg (by omega), if_neg (by omega), if_neg (by omega), if_neg (by omega), if_neg (by omega),
        if_pos (by omega)]
    · simp only [State.counter]
      rw [if_neg (by omega), if_neg (by omega), if_neg (by omega), if_neg (by omega), if_neg (by omega), if_neg (by omega),
        if_neg (by omega), if_pos (by omega)]
    · refine ⟨?_, ?_, ?_, ?_, ?_, ?_, ?_, ?_⟩ <;> rintro rfl <;> rfl
  · refine ⟨?_, fun hn hs => ?_, fun hs ha => ⟨?_, ?_, ?_⟩⟩
    · rintro rfl; rfl
    · rw [State.posq_stream _ _ _ (by simpa [BitVec.toNat_eq] using hn), if_neg]
      rintro ⟨h₁, h₂⟩
      rcases hs with hs | hs
      · omega
      · rw [hs] at h₂; exact absurd h₂ (by decide)
    all_goals
      rintro rfl
      rw [State.posq_stream _ _ _ (by decide), if_pos ⟨hs, ha⟩]
      rfl
end Sys2Proof.Machine

namespace Sys2Proof.Machine

/-! ## ACTIVATE writes the image pointer of its context (R278, R282) -/

/-- Context 5 is ACTIVE at index 1 of partition 0, which has no ropes. Its stream table is at 0 and its descriptor at 0x500,
where entry 10 of the table lies; at 0x1000 stands a job image. -/
def activeOverlaid : State :=
  { State.reset.onPart 0 (fun q => { q with residents := [(1, { Resident.reset with ctx := 5, state := .active })] }) with
    mem := [(0x1000, 0x49), (0x1001, 0x4A), (0x1002, 0x31), (0x1003, 0x44), (0x1004, 1)] }

theorem activeOverlaid_image : (activeOverlaid.parseImage 0 0x1000).isSome = true := by decide

/-- Descriptor bytes 8 to 15, the image pointer, are N of stream 10 there. -/
theorem activeOverlaid_position_changes :
    activeOverlaid.stream 5 10 8 8 = 0 ∧
      ∃ t, exec (.activate 5 0x1000) activeOverlaid = .next t ∧ t.stream 5 10 8 8 = 0x1000 :=
  ⟨by decide, _, rfl, by decide⟩

/-- Refutes O44: of an ACTIVATE of an ACTIVE context it says that every field of every stream stands, and asks for no layout
there (Apart stands only in the clauses on the other states). ACTIVATE writes the image pointer into the descriptor, and
where a table entry lies over the descriptor a position changes with it. -/
theorem not_commandsAct : ¬ Obligations.CommandsAct := by
  unfold Obligations.CommandsAct
  intro h
  obtain ⟨im, him⟩ := Option.isSome_iff_exists.mp activeOverlaid_image
  obtain ⟨hact, -⟩ := h 5 0 1 activeOverlaid rfl rfl
  obtain ⟨t, ht, -, -, -, -, -, -, hactive, -⟩ := hact 0x1000 im him
  obtain ⟨-, hstands⟩ := hactive rfl
  obtain ⟨hbefore, u, hu, hafter⟩ := activeOverlaid_position_changes
  obtain rfl : u = t := by injection hu.symm.trans ht
  have hsame := hstands 10 8 8
  rw [hbefore, hafter] at hsame
  exact absurd hsame (by decide)

end Sys2Proof.Machine

namespace Sys2Proof.Machine

/-! ## Writes of the tables in device memory, and messages

Two relations between states say what the operations of the queue mapper leave alone. They are preorders, so that a fold of
such operations is one too (List.foldlRecOn). -/

/-- From s to t only device memory with its marks, the caches, what is noted of streams and the messages differ; no message
is taken back. -/
structure State.Stores (s t : State) : Prop where
  parts : t.parts = s.parts
  cores : t.cores = s.cores
  svcs : t.svcs = s.svcs
  ctxbase : t.ctxbase = s.ctxbase
  wall : t.wall = s.wall
  pod : t.pod = s.pod
  fabric : t.fabric = s.fabric
  out : s.out <+: t.out

/-- The same, and from s to t nothing is noted of a stream, no mark of a line changes and no entry is released. -/
structure State.Notes (s t : State) : Prop extends s.Stores t where
  memEcc : t.memEcc = s.memEcc
  retracted : t.retracted = s.retracted
  skipped : t.skipped = s.skipped
  tails : t.tails = s.tails
  releases : ∀ c sid bs, OutMsg.release c sid bs ∈ t.out → OutMsg.release c sid bs ∈ s.out

theorem State.Stores.refl (s : State) : s.Stores s := ⟨rfl, rfl, rfl, rfl, rfl, rfl, rfl, List.prefix_refl _⟩

theorem State.Stores.trans {s t u : State} (h : s.Stores t) (k : t.Stores u) : s.Stores u :=
  ⟨k.parts.trans h.parts, k.cores.trans h.cores, k.svcs.trans h.svcs, k.ctxbase.trans h.ctxbase, k.wall.trans h.wall,
    k.pod.trans h.pod, k.fabric.trans h.fabric, h.out.trans k.out⟩

theorem State.Notes.refl (s : State) : s.Notes s := ⟨.refl s, rfl, rfl, rfl, rfl, fun _ _ _ h => h⟩

theorem State.Notes.trans {s t u : State} (h : s.Notes t) (k : t.Notes u) : s.Notes u :=
  ⟨h.toStores.trans k.toStores, k.memEcc.trans h.memEcc, k.retracted.trans h.retracted, k.skipped.trans h.skipped,
    k.tails.trans h.tails, fun c sid bs hm => h.releases c sid bs (k.releases c sid bs hm)⟩

theorem State.Stores.partAt {s t : State} (h : s.Stores t) (p : Nat) : t.partAt p = s.partAt p := by
  unfold State.partAt; rw [h.parts]

theorem State.Stores.coreAt {s t : State} (h : s.Stores t) (r c : Nat) : t.coreAt r c = s.coreAt r c := by
  unfold State.coreAt; rw [h.cores]

/-- A fold of operations that each only write. -/
theorem State.Notes.foldl {α : Type} (l : List α) (f : State → α → State) (h : ∀ s : State, ∀ x ∈ l, s.Notes (f s x)) (s : State) :
    s.Notes (l.foldl f s) :=
  List.foldlRecOn l f (.refl s) fun t ht x hx => ht.trans (h t x hx)

theorem State.Stores.foldl {α : Type} (l : List α) (f : State → α → State) (h : ∀ s : State, ∀ x ∈ l, s.Stores (f s x)) (s : State) :
    s.Stores (l.foldl f s) :=
  List.foldlRecOn l f (.refl s) fun t ht x hx => ht.trans (h t x hx)

/-! ### The operations that only write -/

theorem State.withMem_notes (s : State) (m : SMap Byte) : s.Notes { s with mem := m } :=
  ⟨⟨rfl, rfl, rfl, rfl, rfl, rfl, rfl, List.prefix_refl _⟩, rfl, rfl, rfl, rfl, fun _ _ _ h => h⟩

theorem State.setSt_notes (s : State) (c sid : Nat) (f : Nat × Nat) (v : Nat) : s.Notes (s.setSt c sid f v) := s.withMem_notes _

theorem State.count_notes (s : State) (c sid : Nat) (f : Nat × Nat) (n : Nat) : s.Notes (s.count c sid f n) := s.withMem_notes _

theorem State.setDesc_notes (s : State) (c off n v : Nat) : s.Notes (s.setDesc c off n v) := s.withMem_notes _

theorem State.setCtxWord_notes (s : State) (c w v : Nat) : s.Notes (s.setCtxWord c w v) := s.withMem_notes _

theorem State.setPageCount_notes (s : State) (pa n : Nat) : s.Notes (s.setPageCount pa n) := s.withMem_notes _

theorem State.publishWord_notes (s : State) (c sid e : Nat) : s.Notes (s.publishWord c sid e) :=
  ((s.setSt_notes c sid stE e).trans (State.setSt_notes _ c sid stG _)).trans (State.withMem_notes _ _)

theorem State.uncache_notes (s : State) (rs : List Nat) (f : XlatEntry → Bool) : s.Notes (s.uncache rs f) :=
  State.Notes.foldl rs (fun s r => { s with caches := SMap.set [] s.caches r ((SMap.get [] s.caches r).filter fun e => !f e) })
    (fun _ _ _ => ⟨⟨rfl, rfl, rfl, rfl, rfl, rfl, rfl, List.prefix_refl _⟩, rfl, rfl, rfl, rfl, fun _ _ _ h => h⟩) s

theorem State.setW_notes (s : State) (p i va a e : Nat) (w : Bool) : s.Notes (s.setW p i va a e w) :=
  (s.withMem_notes _).trans (State.uncache_notes _ _ _)

theorem State.restoreW_notes (s : State) (p i c k pa : Nat) : s.Notes (s.restoreW p i c k pa) := by
  unfold State.restoreW
  split
  · split
    · exact s.setW_notes ..
    · exact .refl s
  · exact .refl s

theorem OutMsg.release_ne_event (c sid : Nat) (bs : List Byte) (c' a : Nat) (bs' : List Byte) :
    OutMsg.release c sid bs ≠ OutMsg.event c' a bs' := nofun

/-- The 64 bytes of an event (R284). -/
def State.eventRecord (s : State) (p : Nat) (e : Event) (sid : Nat) (pos detail : Option Nat) : List Byte :=
  toLe 2 e.code ++ toLe 2 sid ++ toLe 4 (s.partAt p).frame ++ toLe 8 (pos.getD (Config.openWord s.free).toNat) ++
    toLe 8 (detail.getD (Config.openWord (s.free + 1)).toNat) ++ toLe 8 (s.wall / 1000000) ++ zeros 32

theorem State.writeEvent_out (s : State) (p c : Nat) (e : Event) (sid : Nat) (pos detail : Option Nat) :
    (s.writeEvent p c e sid pos detail).out =
      s.out ++ [.event c (s.desc c 40 8 + 64 * (s.desc c 60 4 % 2 ^ s.desc c 56 1)) (s.eventRecord p e sid pos detail)] := rfl

theorem State.writeEvent_notes (s : State) (p c : Nat) (e : Event) (sid : Nat) (pos detail : Option Nat) :
    s.Notes (s.writeEvent p c e sid pos detail) := by
  refine ⟨⟨rfl, rfl, rfl, rfl, rfl, rfl, rfl, ?_⟩, rfl, rfl, rfl, rfl, fun c' sid' bs h => ?_⟩
  · rw [s.writeEvent_out]; exact List.prefix_append _ _
  · rw [s.writeEvent_out] at h
    rcases List.mem_append.mp h with h | h
    · exact h
    · exact absurd (List.mem_singleton.mp h) (OutMsg.release_ne_event _ _ _ _ _ _)

theorem State.withEvLost_notes (s : State) (m : SMap Nat) : s.Notes { s with evLost := m } :=
  ⟨⟨rfl, rfl, rfl, rfl, rfl, rfl, rfl, List.prefix_refl _⟩, rfl, rfl, rfl, rfl, fun _ _ _ h => h⟩

/-- EVENTS-LOST goes before an event when some were lost (R284). -/
def State.tellLost (s : State) (p c : Nat) : State :=
  if SMap.get 0 s.evLost c = 0 then s
  else { s.writeEvent p c .eventsLost noSid none (some (SMap.get 0 s.evLost c)) with evLost := SMap.set 0 s.evLost c 0 }

theorem State.event_of_room (s : State) (p c : Nat) (e : Event) (sid : Nat) (pos detail : Option Nat) (h : s.eventRoom c = true) :
    s.event p c e sid pos detail =
      if (s.tellLost p c).eventRoom c = true then (s.tellLost p c).writeEvent p c e sid pos detail
      else { s.tellLost p c with
        evLost := SMap.set 0 (s.tellLost p c).evLost c (SMap.get 0 (s.tellLost p c).evLost c + 1) } := by
  unfold State.event State.tellLost
  simp only [h, Bool.not_true, Bool.false_eq_true, if_false]

theorem State.event_of_no_room (s : State) (p c : Nat) (e : Event) (sid : Nat) (pos detail : Option Nat)
    (h : s.eventRoom c = false) :
    s.event p c e sid pos detail = { s with evLost := SMap.set 0 s.evLost c (SMap.get 0 s.evLost c + 1) } := by
  unfold State.event
  simp only [h, Bool.not_false, if_true]

theorem State.tellLost_notes (s : State) (p c : Nat) : s.Notes (s.tellLost p c) := by
  unfold State.tellLost
  split
  · exact .refl s
  · exact (s.writeEvent_notes p c _ _ _ _).trans (State.withEvLost_notes _ _)

theorem State.event_notes (s : State) (p c : Nat) (e : Event) (sid : Nat) (pos detail : Option Nat) :
    s.Notes (s.event p c e sid pos detail) := by
  cases h : s.eventRoom c
  · rw [s.event_of_no_room p c e sid pos detail h]
    exact s.withEvLost_notes _
  · rw [s.event_of_room p c e sid pos detail h]
    split
    · exact (s.tellLost_notes p c).trans (State.writeEvent_notes _ p c e sid pos detail)
    · exact (s.tellLost_notes p c).trans (State.withEvLost_notes _ _)

theorem State.copyCuts_notes (s : State) (p c n : Nat) : s.Notes (s.copyCuts p c n) :=
  State.Notes.foldl _ _ (fun s _ _ => s.event_notes ..) s

/-! ### The operations that note something of a stream, or mark lines, besides -/

theorem State.putDev_stores (s : State) (a : Nat) (bs : List Byte) : s.Stores (s.putDev a bs) :=
  ⟨rfl, rfl, rfl, rfl, rfl, rfl, rfl, List.prefix_refl _⟩

theorem State.zeroMem_stores (s : State) (a n : Nat) : s.Stores (s.zeroMem a n) :=
  ⟨rfl, rfl, rfl, rfl, rfl, rfl, rfl, List.prefix_refl _⟩

theorem State.putSnap_stores (s : State) (dst n : Nat) (x : Snap) : s.Stores (s.putSnap dst n x) :=
  ⟨rfl, rfl, rfl, rfl, rfl, rfl, rfl, List.prefix_refl _⟩

theorem State.unretract_stores (s : State) (c sid pos : Nat) : s.Stores (s.unretract c sid pos) :=
  ⟨rfl, rfl, rfl, rfl, rfl, rfl, rfl, List.prefix_refl _⟩

theorem State.clearEntries_stores (s : State) (c sid : Nat) : s.Stores (s.clearEntries c sid) := by
  have h : s.Stores (s.unretractAll c sid) := ⟨rfl, rfl, rfl, rfl, rfl, rfl, rfl, List.prefix_refl _⟩
  unfold State.clearEntries
  dsimp only
  split
  · exact h
  · exact h.trans (State.publishWord_notes _ _ _ _).toStores

theorem State.play_stores (s : State) (c sid q : Nat) (bs : List Byte) : s.Stores (s.play c sid q bs) :=
  ⟨rfl, rfl, rfl, rfl, rfl, rfl, rfl, List.prefix_append _ _⟩

theorem State.mem_out_play (s : State) (c sid q : Nat) (bs : List Byte) : OutMsg.release c sid bs ∈ (s.play c sid q bs).out :=
  List.mem_append_right _ (List.mem_singleton_self _)

theorem State.takeSkipped_stores (s : State) (c sid : Nat) : s.Stores (s.takeSkipped c sid).1 := by
  unfold State.takeSkipped
  split
  · exact ⟨rfl, rfl, rfl, rfl, rfl, rfl, rfl, List.prefix_refl _⟩
  · exact .refl s

end Sys2Proof.Machine

namespace Sys2Proof.Machine

/-! ## Partitions and residents under the operations of the grid and of the queue mapper -/

@[simp] theorem State.partAt_onPart_same (s : State) (p : Nat) (f : Partition → Partition) :
    (s.onPart p f).partAt p = f (s.partAt p) := State.partAt_setPart_same ..

@[simp] theorem State.onCore_parts (s : State) (r c : Nat) (f : Core → Core) : (s.onCore r c f).parts = s.parts := rfl

theorem State.partAt_of_parts {s t : State} (h : t.parts = s.parts) (p : Nat) : t.partAt p = s.partAt p := by
  unfold State.partAt; rw [h]

theorem State.partAt_onRes (s : State) (p i : Nat) (f : Resident → Resident) :
    (s.onRes p i f).partAt p =
      { s.partAt p with residents := SMap.modify Resident.reset (s.partAt p).residents i f } :=
  s.partAt_onPart_same p _

theorem State.res_onRes (s : State) (p i j : Nat) (f : Resident → Resident) :
    ((s.onRes p i f).partAt p).res j = if j = i then f ((s.partAt p).res i) else (s.partAt p).res j := by
  rw [s.partAt_onRes]
  exact SMap.get_set ..

/-- From s to t the queue mapper's copies of the residents of partition p may have changed, with what Stores names, and
nothing else of the partition. -/
structure State.Maps (p : Nat) (s t : State) : Prop where
  cores : t.cores = s.cores
  svcs : t.svcs = s.svcs
  ctxbase : t.ctxbase = s.ctxbase
  out : s.out <+: t.out
  part : t.partAt p = { s.partAt p with residents := (t.partAt p).residents }

theorem State.Maps.refl (p : Nat) (s : State) : s.Maps p s := ⟨rfl, rfl, rfl, List.prefix_refl _, rfl⟩

theorem State.Maps.trans {p : Nat} {s t u : State} (h : s.Maps p t) (k : t.Maps p u) : s.Maps p u :=
  ⟨k.cores.trans h.cores, k.svcs.trans h.svcs, k.ctxbase.trans h.ctxbase, h.out.trans k.out, by rw [k.part, h.part]⟩

theorem State.Stores.maps {s t : State} (h : s.Stores t) (p : Nat) : s.Maps p t :=
  ⟨h.cores, h.svcs, h.ctxbase, h.out, by rw [h.partAt p]⟩

theorem State.Notes.maps {s t : State} (h : s.Notes t) (p : Nat) : s.Maps p t := h.toStores.maps p

theorem State.onRes_maps (s : State) (p i : Nat) (f : Resident → Resident) : s.Maps p (s.onRes p i f) :=
  ⟨rfl, rfl, rfl, List.prefix_refl _, by rw [s.partAt_onRes]⟩

theorem State.Maps.foldl {α : Type} {p : Nat} (l : List α) (f : State → α → State) (h : ∀ s : State, ∀ x ∈ l, s.Maps p (f s x))
    (s : State) : s.Maps p (l.foldl f s) :=
  List.foldlRecOn l f (.refl p s) fun t ht x hx => ht.trans (h t x hx)

/-! ### State and lag of a resident -/

theorem State.setState_maps (s : State) (p i : Nat) (x : CtxState) : s.Maps p (s.setState p i x) :=
  (s.onRes_maps p i _).trans ((State.setDesc_notes _ _ _ _ _).maps p)

theorem State.res_setState (s : State) (p i j : Nat) (x : CtxState) :
    ((s.setState p i x).partAt p).res j = if j = i then { (s.partAt p).res i with state := x } else (s.partAt p).res j :=
  s.res_onRes p i j _

theorem State.setLag_maps (s : State) (p i n : Nat) : s.Maps p (s.setLag p i n) :=
  (s.onRes_maps p i _).trans ((State.setDesc_notes _ _ _ _ _).maps p)

theorem State.res_setLag (s : State) (p i j n : Nat) :
    ((s.setLag p i n).partAt p).res j = if j = i then { (s.partAt p).res i with lag := n } else (s.partAt p).res j :=
  s.res_onRes p i j _

theorem State.faultRes_maps (s : State) (p i : Nat) : s.Maps p (s.faultRes p i) :=
  (s.setState_maps p i _).trans ((State.event_notes ..).maps p)

theorem State.res_faultRes (s : State) (p i j : Nat) :
    ((s.faultRes p i).partAt p).res j = if j = i then { (s.partAt p).res i with state := .faulted } else (s.partAt p).res j := by
  unfold State.faultRes
  dsimp only
  rw [(State.event_notes ..).partAt, State.res_setState]

/-- A miss raises the lag, up to 8, and at 8 parks a context that no fault takes (R32, R34). -/
theorem State.missed_eq (s : State) (p i : Nat) (faulted : Bool) :
    s.missed p i faulted =
      if 8 ≤ ((s.partAt p).res i).lag + 1 ∧ faulted = false then
        let t := (s.setLag p i (min 8 (((s.partAt p).res i).lag + 1))).setState p i .parked
        t.event p ((t.partAt p).res i).ctx .parked noSid none none
      else s.setLag p i (min 8 (((s.partAt p).res i).lag + 1)) := by
  unfold State.missed
  simp only [Bool.not_eq_true']
  split
  · simp only [State.res_setState, if_true]
  · rfl

theorem State.missed_maps (s : State) (p i : Nat) (faulted : Bool) : s.Maps p (s.missed p i faulted) := by
  rw [s.missed_eq]
  split
  · exact ((s.setLag_maps p i _).trans (State.setState_maps ..)).trans ((State.event_notes ..).maps p)
  · exact s.setLag_maps p i _

theorem State.res_missed (s : State) (p i : Nat) (faulted : Bool) :
    ((s.missed p i faulted).partAt p).res i = { (s.partAt p).res i with
      lag := min 8 (((s.partAt p).res i).lag + 1)
      state := if 8 ≤ ((s.partAt p).res i).lag + 1 ∧ faulted = false then .parked else ((s.partAt p).res i).state } := by
  rw [s.missed_eq]
  split
  · dsimp only
    rw [(State.event_notes ..).partAt, State.res_setState, State.res_setLag, if_pos rfl, if_pos rfl]
  · rw [State.res_setLag, if_pos rfl]

/-! ### The releases of a slot -/

theorem State.releaseOne_stores (s : State) (p i sid : Nat) (committed : Bool) (st : Step) :
    s.Stores (s.releaseOne p i sid committed st) := by
  unfold State.releaseOne
  dsimp only
  generalize ((s.partAt p).res i).ctx = c
  refine (s.takeSkipped_stores c sid).trans ?_
  generalize (s.takeSkipped c sid).1 = t
  split
  · exact t.play_stores ..
  · have hplay := fun bs => ((t.play_stores c sid (t.st c sid stQ) bs).trans
      (State.setSt_notes _ c sid stQ (t.st c sid stQ + 1)).toStores).trans (State.unretract_stores _ c sid (t.st c sid stQ))
    split
    · exact hplay _
    · exact (hplay _).trans (State.publishWord_notes _ _ _ _).toStores

theorem State.mem_out_releaseOne (s : State) (p i sid : Nat) (committed : Bool) (st : Step) :
    ∃ bs, OutMsg.release ((s.partAt p).res i).ctx sid bs ∈ (s.releaseOne p i sid committed st).out := by
  unfold State.releaseOne
  dsimp only
  generalize ((s.partAt p).res i).ctx = c
  generalize (s.takeSkipped c sid).1 = t
  have hplay := fun bs => t.mem_out_play c sid (t.st c sid stQ) bs
  have hmoved := fun bs => ((t.play c sid (t.st c sid stQ) bs).setSt c sid stQ (t.st c sid stQ + 1)).unretract_stores
    c sid (t.st c sid stQ)
  split
  · exact ⟨_, hplay _⟩
  · split
    · exact ⟨_, (hmoved _).out.subset (hplay _)⟩
    · exact ⟨_, ((hmoved _).trans (State.publishWord_notes _ c sid _).toStores).out.subset (hplay _)⟩

/-- Every stream of a list releases one entry. -/
def State.releaseAll (s : State) (p i : Nat) (committed : Bool) (st : Step) (l : List Nat) : State :=
  l.foldl (fun s sid => s.releaseOne p i sid committed st) s

theorem State.releaseAll_stores (s : State) (p i : Nat) (committed : Bool) (st : Step) (l : List Nat) :
    s.Stores (s.releaseAll p i committed st l) :=
  State.Stores.foldl l _ (fun s _ _ => s.releaseOne_stores ..) s

theorem State.mem_out_releaseAll (s : State) (p i : Nat) (committed : Bool) (st : Step) (l : List Nat) (sid : Nat) (h : sid ∈ l) :
    ∃ bs, OutMsg.release ((s.partAt p).res i).ctx sid bs ∈ (s.releaseAll p i committed st l).out := by
  induction l generalizing s with
  | nil => cases h
  | cons x l ih =>
    have hx := s.releaseOne_stores p i x committed st
    rcases List.mem_cons.mp h with rfl | h
    · obtain ⟨bs, hbs⟩ := s.mem_out_releaseOne p i sid committed st
      exact ⟨bs, (State.releaseAll_stores _ p i committed st l).out.subset hbs⟩
    · obtain ⟨bs, hbs⟩ := ih _ h
      rw [hx.partAt] at hbs
      exact ⟨bs, hbs⟩

/-- How the step of a slot counts at its end: as it ended, and where its TURN never came as abandoned if its context is
ACTIVE (R18, R32). -/
def slotOutcome (st : Step) (begun : Bool) (r : Resident) : StepEnd :=
  if begun = true then st.outcome else if r.state = .active then .abandoned else .none

/-- A slot releases when its context was LOADED on T and is not INACTIVE (R277). -/
def slotReleases (st : Step) (begun : Bool) (r : Resident) : Bool :=
  if begun = true then st.releases else r.loaded && decide (r.state ≠ .inactive)

theorem State.releaseSlot_eq (s : State) (p i : Nat) (st : Step) (begun svc : Bool) :
    s.releaseSlot p i st begun svc =
      let r := (s.partAt p).res i
      let o := slotOutcome st begun r
      let t := s.releaseAll p i (decide (o = .committed)) (if begun = true then st else { st with published := [] }) (s.actives r.ctx)
      if slotReleases st begun r = true then
        if o ≠ .none ∧ o ≠ .committed then t.missed p i (decide (o = .faulted) || svc) else t
      else s := by
  unfold State.releaseSlot slotOutcome slotReleases State.releaseAll
  simp only [Bool.not_eq_true', decide_eq_false_iff_not]

theorem State.releaseSlot_maps (s : State) (p i : Nat) (st : Step) (begun svc : Bool) :
    s.Maps p (s.releaseSlot p i st begun svc) := by
  rw [s.releaseSlot_eq]
  dsimp only
  have h := fun committed st l => (s.releaseAll_stores p i committed st l).maps p
  split
  · split
    · exact (h _ _ _).trans (State.missed_maps ..)
    · exact h _ _ _
  · exact .refl p s

/-! ### What the slot's end settles -/

theorem State.finishResets_maps (s : State) (p i : Nat) : s.Maps p (s.finishResets p i) := by
  unfold State.finishResets
  dsimp only
  refine State.Maps.trans (State.Maps.foldl _ _ (fun s _ _ => ?_) s) (State.onRes_maps ..)
  exact ((s.setSt_notes ..).trans (State.publishWord_notes ..)).maps p

theorem State.res_finishResets (s : State) (p i j : Nat) :
    ((s.finishResets p i).partAt p).res j = if j = i then { (s.partAt p).res i with resets := [] } else (s.partAt p).res j := by
  unfold State.finishResets
  dsimp only
  have h := fun r : Resident => State.Notes.foldl (r.resets.filter (s.active r.ctx))
    (fun (s : State) sid => (s.setSt r.ctx sid stQ r.lag).publishWord r.ctx sid r.lag)
    (fun s _ _ => (s.setSt_notes ..).trans (State.publishWord_notes ..)) s
  rw [State.res_onRes, (h _).partAt]

theorem State.quietFor_eq (s : State) (p cause : Nat) : ∃ v, s.quietFor p cause = { s with svcs := v } := by
  unfold State.quietFor
  refine List.foldlRecOn (motive := fun t : State => ∃ v, t = { s with svcs := v }) _ _ ⟨s.svcs, rfl⟩ ?_
  rintro _ ⟨v, rfl⟩ r -
  split
  · exact ⟨_, rfl⟩
  · exact ⟨v, rfl⟩

theorem State.partAt_quietFor (s : State) (p cause p' : Nat) : (s.quietFor p cause).partAt p' = s.partAt p' := by
  obtain ⟨v, hv⟩ := s.quietFor_eq p cause
  rw [hv]; rfl

/-- Messages are added, and none of them releases an entry. -/
def State.Unreleased (s t : State) : Prop :=
  s.out <+: t.out ∧ ∀ c sid bs, OutMsg.release c sid bs ∈ t.out → OutMsg.release c sid bs ∈ s.out

theorem State.Unreleased.of_out {s t : State} (h : t.out = s.out) : s.Unreleased t :=
  ⟨by rw [h], fun _ _ _ hm => by rwa [h] at hm⟩

theorem State.Unreleased.trans {s t u : State} (h : s.Unreleased t) (k : t.Unreleased u) : s.Unreleased u :=
  ⟨h.1.trans k.1, fun c sid bs hm => h.2 c sid bs (k.2 c sid bs hm)⟩

theorem State.Notes.unreleased {s t : State} (h : s.Notes t) : s.Unreleased t := ⟨h.out, h.releases⟩

theorem State.Unreleased.foldl {α : Type} (l : List α) (f : State → α → State) (h : ∀ s : State, ∀ x ∈ l, s.Unreleased (f s x))
    (s : State) : s.Unreleased (l.foldl f s) :=
  List.foldlRecOn l f (.of_out rfl) fun t ht x hx => ht.trans (h t x hx)

theorem State.faultRes_unreleased (s : State) (p i : Nat) : s.Unreleased (s.faultRes p i) :=
  (State.Unreleased.of_out rfl : s.Unreleased (s.setState p i .faulted)).trans (State.event_notes ..).unreleased

theorem State.finishResets_unreleased (s : State) (p i : Nat) : s.Unreleased (s.finishResets p i) := by
  unfold State.finishResets
  dsimp only
  refine State.Unreleased.trans (State.Unreleased.foldl _ _ (fun s _ _ => ?_) s) (.of_out rfl)
  exact ((s.setSt_notes ..).trans (State.publishWord_notes ..)).unreleased

/-- The residents that a slot's faults leave FAULTED: every valid one after a fault of service level, else the step's own
after a fault of the step (R294). -/
def Partition.toFault (q : Partition) : List Nat :=
  if q.svcFault = true then q.validIdx
  else if q.slotBegun = true ∧ q.slotStep.1.outcome = .faulted then (q.slotStep.2.map (·.2)).toList
  else []

/-- Residents become FAULTED one after another. -/
def State.faultAll (s : State) (p : Nat) (l : List Nat) : State := l.foldl (fun s i => s.faultRes p i) s

theorem State.settleFaults_of_step (s : State) (p : Nat) {st : Step} {plan : Option (StepKind × Nat)}
    (hx : (s.partAt p).slotStep = (st, plan)) (hs : (s.partAt p).svcFault = false) :
    s.settleFaults p =
      ((s.faultAll p (if (s.partAt p).slotBegun = true ∧ st.outcome = StepEnd.faulted then (plan.map (·.2)).toList
        else [])).quietFor p 2).onPart p fun q => { q with fault := none, svcFault := false } := by
  unfold State.settleFaults State.faultAll
  cases plan with
  | none =>
    simp only [hx, hs, Bool.false_eq_true, if_false, Option.map_none, Option.toList_none, ite_self]
    rw [List.foldl_nil]
  | some y =>
    simp only [hx, hs, Bool.false_eq_true, if_false, Bool.not_false, and_true, Option.map_some, Option.toList_some]
    by_cases hb : (s.partAt p).slotBegun = true ∧ st.outcome = StepEnd.faulted
    · rw [if_pos hb, if_pos hb, List.foldl_cons, List.foldl_nil]
    · rw [if_neg hb, if_neg hb, List.foldl_nil]

theorem State.settleFaults_of_service (s : State) (p : Nat) (hs : (s.partAt p).svcFault = true) :
    s.settleFaults p =
      ((s.faultAll p (s.partAt p).validIdx).quietFor p 2).onPart p fun q => { q with fault := none, svcFault := false } := by
  rcases hx : (s.partAt p).slotStep with ⟨st, plan⟩
  unfold State.settleFaults State.faultAll
  cases plan <;> simp only [hx, hs, Bool.not_true, Bool.false_eq_true, and_false, if_false, if_true]

theorem State.settleFaults_eq (s : State) (p : Nat) :
    s.settleFaults p =
      ((s.faultAll p (s.partAt p).toFault).quietFor p 2).onPart p fun q => { q with fault := none, svcFault := false } := by
  cases hs : (s.partAt p).svcFault
  · rcases hx : (s.partAt p).slotStep with ⟨st, plan⟩
    rw [s.settleFaults_of_step p hx hs, Partition.toFault, hs, if_neg Bool.false_ne_true, hx]
  · rw [s.settleFaults_of_service p hs, Partition.toFault, if_pos hs]

theorem State.faultAll_maps (s : State) (p : Nat) (l : List Nat) : s.Maps p (s.faultAll p l) :=
  State.Maps.foldl l _ (fun s i _ => s.faultRes_maps p i) s

/-- A fault takes a resident's state, and nothing else of it. -/
theorem State.res_faultAll (s : State) (p : Nat) (l : List Nat) (j : Nat) :
    ((s.faultAll p l).partAt p).res j =
      { (s.partAt p).res j with state := if j ∈ l then .faulted else ((s.partAt p).res j).state } := by
  unfold State.faultAll
  induction l generalizing s with
  | nil => rfl
  | cons i l ih =>
    rw [List.foldl_cons, ih, s.res_faultRes]
    by_cases hj : j = i
    · subst hj; simp
    · simp [hj]

theorem State.settleFaults_part (s : State) (p : Nat) :
    (s.settleFaults p).partAt p =
      { s.partAt p with
        residents := ((s.faultAll p (s.partAt p).toFault).partAt p).residents, fault := none, svcFault := false } := by
  rw [s.settleFaults_eq, State.partAt_onPart_same, State.partAt_quietFor, (s.faultAll_maps p _).part]

theorem State.res_settleFaults (s : State) (p j : Nat) :
    ((s.settleFaults p).partAt p).res j = { (s.partAt p).res j with
      state := if j ∈ (s.partAt p).toFault then .faulted else ((s.partAt p).res j).state } := by
  rw [s.settleFaults_part, ← s.res_faultAll]
  rfl

theorem State.settleFaults_unreleased (s : State) (p : Nat) : s.Unreleased (s.settleFaults p) := by
  rw [s.settleFaults_eq]
  obtain ⟨v, hv⟩ := (s.faultAll p (s.partAt p).toFault).quietFor_eq p 2
  rw [hv]
  exact (State.Unreleased.foldl _ _ (fun s i _ => s.faultRes_unreleased p i) s).trans (.of_out rfl)

end Sys2Proof.Machine

namespace Sys2Proof.Machine

/-! ## Messages of the fabric, holds and abandonment (R32, R288, R296, R344) -/

/-- From s to t the chip only sends messages of the fabric and notes what it sent. -/
def State.Sends (s t : State) : Prop := t = { s with fabric := t.fabric, out := t.out, own := t.own } ∧ s.Unreleased t

theorem State.Sends.refl (s : State) : s.Sends s := ⟨rfl, .of_out rfl⟩

theorem State.Sends.trans {s t u : State} (h : s.Sends t) (k : t.Sends u) : s.Sends u :=
  ⟨by rw [k.1, h.1], h.2.trans k.2⟩

theorem State.Sends.parts {s t : State} (h : s.Sends t) : t.parts = s.parts := by rw [h.1]

theorem State.countOccurrence_sends (s : State) (p g t : Nat) : s.Sends (s.countOccurrence p g t) := ⟨rfl, .of_out rfl⟩

theorem State.send_withdrawal_sends (s : State) (dst chip : Nat) (key : CollKey) (all : Bool) :
    s.Sends (s.send dst (.withdrawal dst chip key all)) := by
  unfold State.send
  split
  · exact ⟨rfl, .of_out rfl⟩
  · refine ⟨rfl, List.prefix_append _ _, fun c sid bs h => ?_⟩
    rcases List.mem_append.mp h with h | h
    · exact h
    · exact absurd (List.mem_singleton.mp h) nofun

theorem State.withdrawUnissued_sends (s : State) (p : Nat) : s.Sends (s.withdrawUnissued p) := by
  unfold State.withdrawUnissued
  refine List.foldlRecOn (motive := fun t : State => s.Sends t) _ _ (.refl s) fun t ht e _ => ht.trans ?_
  split
  · split
    · dsimp only
      split
      · exact (t.countOccurrence_sends ..).trans (State.send_withdrawal_sends ..)
      · exact t.countOccurrence_sends ..
    · exact .refl t
  · exact .refl t

theorem State.countNull_sends (s : State) (p : Nat) : s.Sends (s.countNull p) := by
  unfold State.countNull
  split
  · exact .refl s
  · refine List.foldlRecOn (motive := fun t : State => s.Sends t) _ _ (.refl s) fun t ht e _ => ht.trans ?_
    split
    · split
      · exact t.countOccurrence_sends ..
      · exact .refl t
    · exact .refl t

theorem Partition.with_hold_none {q : Partition} (h : q.hold = none) : { q with hold := none } = q := by rw [← h]

theorem State.closeHold_part (s : State) (p : Nat) :
    (s.closeHold p).partAt p = { s.partAt p with hold := none, counts := ((s.closeHold p).partAt p).counts } := by
  unfold State.closeHold
  rw [State.partAt_onPart_same, State.partAt_quietFor]
  split
  · rfl
  · exact (Partition.with_hold_none ‹_›).symm

theorem State.stopHold_of_none (s : State) (p : Nat) (h : (s.partAt p).hold = none) : s.stopHold p = s := by
  unfold State.stopHold
  dsimp only
  rw [if_neg (by rw [h]; exact Bool.false_ne_true)]

/-- A hold that an abandonment ends leaves the partition without one, and nothing else of it but its counters. -/
theorem State.stopHold_part (s : State) (p : Nat) :
    (s.stopHold p).partAt p = { s.partAt p with hold := none, counts := ((s.stopHold p).partAt p).counts } := by
  cases h : (s.partAt p).hold with
  | none =>
    rw [s.stopHold_of_none p h]
    exact (Partition.with_hold_none h).symm
  | some x =>
    unfold State.stopHold
    dsimp only
    rw [if_pos (by rw [h]; rfl), State.closeHold_part]
    generalize hfold : List.foldl _ _ _ = t
    have ht : t.parts = s.parts := by
      rw [← hfold]
      exact List.foldlRecOn (motive := fun t : State => t.parts = s.parts) _ _ rfl fun t ht _ _ => ht
    rw [State.partAt_of_parts ht]

theorem State.settle_part (s : State) (p : Nat) :
    (s.settle p).partAt p = { s.partAt p with
      stage := [], speak := [], flip := false, xstep := none, step := { (s.partAt p).step with settled := true } } := by
  unfold State.settle
  dsimp only
  rw [State.partAt_onPart_same]
  generalize hfold : List.foldl _ _ _ = t
  have ht : t.parts = s.parts := by
    rw [← hfold]
    refine List.foldlRecOn (motive := fun t : State => t.parts = s.parts) _ _ (s.withdrawUnissued_sends p).parts fun t ht x _ => ?_
    refine List.foldlRecOn (motive := fun t : State => t.parts = s.parts) _ _ ht fun t ht y _ => ?_
    rw [State.onCore_parts, (State.send_withdrawal_sends ..).parts, ht]
  rw [State.partAt_of_parts ht]

/-- An abandonment closes the step, drops its staged effects and ends a hold (R32). -/
theorem State.abandon_part (s : State) (p : Nat) :
    ((s.abandon p).partAt p).hold = none ∧ ((s.abandon p).partAt p).step.outcome = .abandoned ∧
      ((s.abandon p).partAt p).stage = [] ∧ ((s.abandon p).partAt p).speak = [] ∧
      ((s.abandon p).partAt p).deadlined = (s.partAt p).deadlined ∧ ((s.abandon p).partAt p).frozen = (s.partAt p).frozen := by
  unfold State.abandon
  dsimp only
  rw [State.settle_part, State.partAt_onPart_same, State.stopHold_part]
  exact ⟨rfl, rfl, rfl, rfl, rfl, rfl⟩

theorem Frozen.abandon_not_open (f : Frozen) : f.abandon.step.outcome ≠ .open_ := by
  unfold Frozen.abandon
  split
  · exact StepEnd.noConfusion
  · assumption

theorem Partition.stepOpen_iff (q : Partition) :
    q.stepOpen = true ↔ q.step.outcome = .open_ ∧ (q.phase = .run ∨ q.phase = .turn ∧ q.step.bound = true) := by
  simp [Partition.stepOpen]

/-- DEADLINE takes the step from the slot (R32). -/
theorem execDeadline_acts (p : Nat) (s : State) (hr : (s.partAt p).running = true) (hd : (s.partAt p).deadlined = false)
    (hw : (s.partAt p).slotEnd ≤ s.wall + 20 * 10 ^ 9) :
    ∃ t, exec (.deadline p) s = .next t ∧ (t.partAt p).deadlined = true ∧ (t.partAt p).hold = none ∧
      ((s.partAt p).step.outcome = .open_ ∧ ((s.partAt p).phase = .run ∨ (s.partAt p).phase = .turn ∧ (s.partAt p).step.bound = true) →
        (t.partAt p).step.outcome = .abandoned ∧ (t.partAt p).stage = [] ∧ (t.partAt p).speak = []) ∧
      ((s.partAt p).step.outcome ≠ .open_ → (t.partAt p).step = (s.partAt p).step) ∧
      ∀ f ∈ (t.partAt p).frozen, f.step.outcome ≠ .open_ := by
  have hfrozen : ∀ f ∈ (s.partAt p).frozen.map Frozen.abandon, f.step.outcome ≠ .open_ := fun f hf => by
    obtain ⟨g, -, rfl⟩ := List.mem_map.mp hf
    exact g.abandon_not_open
  have hexec : exec (.deadline p) s = .next (
      let u := s.setPart p { s.partAt p with deadlined := true, frozen := (s.partAt p).frozen.map Frozen.abandon }
      if (s.partAt p).stepOpen = true then u.abandon p else u.stopHold p) := by
    show execDeadline p s = _
    unfold execDeadline
    dsimp only
    rw [if_pos ⟨hr, by rw [hd]; rfl, hw⟩]
  refine ⟨_, hexec, ?_⟩
  rw [← Partition.stepOpen_iff]
  have hu := s.partAt_setPart_same p { s.partAt p with deadlined := true, frozen := (s.partAt p).frozen.map Frozen.abandon }
  dsimp only
  generalize s.setPart p { s.partAt p with deadlined := true, frozen := (s.partAt p).frozen.map Frozen.abandon } = u at hu ⊢
  by_cases ho : (s.partAt p).stepOpen = true
  · rw [if_pos ho]
    obtain ⟨h1, h2, h3, h4, h5, h6⟩ := u.abandon_part p
    rw [hu] at h5 h6
    refine ⟨h5, h1, fun _ => ⟨h2, h3, h4⟩, fun hn => absurd ((Partition.stepOpen_iff _).mp ho).1 hn, ?_⟩
    rw [h6]; exact hfrozen
  · rw [if_neg ho, u.stopHold_part, hu]
    exact ⟨rfl, rfl, fun h => absurd h ho, fun _ => rfl, hfrozen⟩

/-! ## The watchdog (R296) -/

theorem State.enterService_parts (s : State) (r cause a : Nat) : (s.enterService r cause a).parts = s.parts := by
  unfold State.enterService
  rw [State.setSvc_parts]

theorem State.enterService_cores (s : State) (r cause a : Nat) : (s.enterService r cause a).cores = s.cores := by
  unfold State.enterService
  rw [State.setSvc_cores]

theorem State.record_parts (s : State) (p n : Nat) (f : FaultRec) : (s.record p n f).parts = s.parts := by
  unfold State.record
  dsimp only
  rw [State.enterService_parts, (State.putDev_stores ..).parts]

theorem State.record_cores (s : State) (p n : Nat) (f : FaultRec) : (s.record p n f).cores = s.cores := by
  unfold State.record
  dsimp only
  rw [State.enterService_cores, (State.putDev_stores ..).cores]

/-- WATCHDOG ends the hold and the step with its own fault (R296). -/
theorem execWatchdog_acts (p : Nat) (s : State) (hp : (s.partAt p).phase = .run) (hwt : (s.partAt p).step.watching = true)
    (ho : (s.partAt p).step.outcome = .open_) (hl : (s.partAt p).step.rdz + 16 + 2 ^ 24 ≤ s.watchCount p) :
    ∃ t, exec (.watchdog p) s = .next t ∧ (t.partAt p).step.outcome = .faulted ∧ (t.partAt p).hold = none ∧
      (t.partAt p).traps = (s.partAt p).traps + 1 ∧
      (∃ f ∈ (t.partAt p).fault, f.cls = .watchdog ∧ f.beat = (s.partAt p).topo) ∧
      ((s.partAt p).hold = none → t.cores = s.cores) := by
  have hexec : ∃ f : FaultRec, f.cls = .watchdog ∧ f.beat = (s.partAt p).topo ∧
      exec (.watchdog p) s = .next ((s.stopHold p).abandonBy p (s.partAt p).traps f) := by
    show ∃ f : FaultRec, _ ∧ _ ∧ execWatchdog p s = _
    unfold execWatchdog
    dsimp only
    rw [if_pos ⟨hp, hwt, ho, hl⟩]
    exact ⟨_, rfl, rfl, rfl⟩
  obtain ⟨f, hc, hb, hexec⟩ := hexec
  have hpart : ((s.stopHold p).abandonBy p (s.partAt p).traps f).partAt p = { (s.stopHold p).partAt p with
      fault := some f, traps := (s.partAt p).traps + 1
      step := { ((s.stopHold p).partAt p).step with outcome := .faulted, watching := false } } := by
    unfold State.abandonBy
    dsimp only
    rw [State.partAt_of_parts (State.record_parts ..), State.partAt_onPart_same]
  refine ⟨_, hexec, ?_⟩
  rw [hpart, State.stopHold_part]
  refine ⟨rfl, rfl, rfl, ⟨f, rfl, hc, hb⟩, fun hn => ?_⟩
  rw [s.stopHold_of_none p hn]
  unfold State.abandonBy
  dsimp only
  rw [State.record_cores, State.onPart_cores]

end Sys2Proof.Machine

namespace Sys2Proof.Machine

/-! ## Slot and frame starts (R15, R17, R276) -/

/-- From s to t residency has changed in partition p: its residents, its RESMAP registers, its trap count and whether its slot
releases; nothing else of it, and no core. -/
def State.Resides (p : Nat) (s t : State) : Prop :=
  t.cores = s.cores ∧ t.partAt p = { s.partAt p with
    residents := (t.partAt p).residents, resmap := (t.partAt p).resmap
    traps := (t.partAt p).traps, step := { (s.partAt p).step with releases := (t.partAt p).step.releases } }

theorem State.Resides.refl (p : Nat) (s : State) : s.Resides p s := ⟨rfl, rfl⟩

theorem State.Resides.trans {p : Nat} {s t u : State} (h : s.Resides p t) (k : t.Resides p u) : s.Resides p u :=
  ⟨k.1.trans h.1, by rw [k.2, h.2]⟩

theorem State.Maps.resides {p : Nat} {s t : State} (h : s.Maps p t) : s.Resides p t := ⟨h.cores, by rw [h.part]⟩

theorem State.Stores.resides {s t : State} (h : s.Stores t) (p : Nat) : s.Resides p t := (h.maps p).resides

theorem State.Resides.foldl {α : Type} {p : Nat} (l : List α) (f : State → α → State)
    (h : ∀ s : State, ∀ x ∈ l, s.Resides p (f s x)) (s : State) : s.Resides p (l.foldl f s) :=
  List.foldlRecOn l f (.refl p s) fun t ht x hx => ht.trans (h t x hx)

theorem State.switchOut_resides (s : State) (p i : Nat) : s.Resides p (s.switchOut p i) := by
  unfold State.switchOut State.writeHeadTail
  dsimp only
  generalize hu : State.setDesc _ _ _ _ _ = u
  have hs : s.Stores u := by
    rw [← hu]
    exact ((((s.setDesc_notes ..).trans (State.setDesc_notes ..)).trans (State.setDesc_notes ..)).trans
      (State.setDesc_notes ..)).toStores
  refine (hs.resides p).trans ?_
  generalize hv : State.uncache _ _ _ = v
  have hs' : v.parts = u.parts ∧ v.cores = u.cores := by
    rw [← hv]
    exact ⟨(State.uncache_notes ..).parts, (State.uncache_notes ..).cores⟩
  exact ⟨hs'.2, by rw [State.partAt_onPart_same, State.partAt_of_parts hs'.1]⟩

theorem Partition.showLoaded_eq (q : Partition) (i : Nat) :
    q.showLoaded i = { q with resmap := (q.showLoaded i).resmap } := rfl

theorem State.startLoad_resides (s : State) (p i : Nat) : s.Resides p (s.startLoad p i) := by
  unfold State.startLoad
  refine (s.onRes_maps p i fun r => { r with loaded := false, loading := true }).resides.trans ?_
  generalize s.onRes p i (fun r => { r with loaded := false, loading := true }) = u
  refine ⟨rfl, ?_⟩
  rw [State.partAt_onPart_same]
  dsimp only
  have hq := (u.partAt p).showLoaded_eq i
  generalize (u.partAt p).showLoaded i = q at hq ⊢
  split <;> rw [hq]

theorem State.switchIn_resides (s : State) (p i : Nat) (v : W64) : s.Resides p (s.switchIn p i v) := by
  unfold State.switchIn
  dsimp only
  generalize hu : State.onPart _ _ _ = u
  have hs : s.Resides p u := by
    rw [← hu]
    exact ⟨rfl, by rw [State.partAt_onPart_same]; rfl⟩
  split
  · exact hs
  · exact hs.trans (u.startLoad_resides p i)

/-- The RESMAP writes take effect, and none waits any more (R276). -/
theorem State.applyMap_resides (s : State) (p : Nat) :
    (s.onPart p fun q => { q with resmapNew := [] }).Resides p (s.applyMap p) := by
  unfold State.applyMap
  dsimp only
  generalize List.filter _ _ = changed
  refine State.Resides.trans ?_ (State.Resides.foldl _ _ (fun s x _ => ?_) _)
  · have hout := State.Resides.foldl (p := p) changed
      (fun s x => if (s.partAt p).valid x.1 = true then s.switchOut p x.1 else s) (fun s x _ => by
        split
        · exact s.switchOut_resides p x.1
        · exact .refl p s) s
    generalize List.foldl _ s changed = u at hout ⊢
    refine ⟨hout.1, ?_⟩
    rw [State.partAt_onPart_same, State.partAt_onPart_same]
    rw [hout.2]
  · split
    · exact s.switchIn_resides p x.1 x.2
    · exact .refl p s

/-- A correction moves ends of slots only. -/
theorem Partition.correct_eq (q : Partition) (e : Int) :
    q.correct e = { q with
      slotEnd := (q.correct e).slotEnd, measured := (q.correct e).measured, shift := (q.correct e).shift } := by
  unfold Partition.correct
  split
  · rfl
  · dsimp only
    split <;> rfl

/-- The marks at a frame start leave where the partition stands in its grid (R365, R366). -/
theorem Partition.frameMarks_eq (q : Partition) (mine aligns : Bool) :
    q.frameMarks mine aligns = { q with
      marked := (q.frameMarks mine aligns).marked, measured := (q.frameMarks mine aligns).measured
      early := (q.frameMarks mine aligns).early, badMarks := (q.frameMarks mine aligns).badMarks
      local_ := (q.frameMarks mine aligns).local_, slotEnd := (q.frameMarks mine aligns).slotEnd
      shift := (q.frameMarks mine aligns).shift } := by
  unfold Partition.frameMarks
  dsimp only
  split
  · rfl
  · split
    · split
      · unfold Partition.judge
        dsimp only
        rw [Partition.correct_eq]
      · rfl
    · rfl

/-- The partition once slot k has begun, before the marks of a frame start (R15, R17). -/
def Partition.inSlot (q : Partition) (k : Nat) : Partition :=
  let row := q.slots.getD k ⟨1000, none⟩
  let last := decide (q.slots.length ≤ k + 1)
  { q with
    slot := k, slotStart := q.slotEnd
    slotEnd := (((q.slotEnd + row.us * fsUs : Nat) : Int) + if last then q.shift else 0).toNat
    phase := .lead
    plan := match row.owner with
      | some i => if q.valid i then some (StepKind.owned, i) else none
      | none => none
    deadlined := false, released := false, skipped := false, shift := if last then 0 else q.shift }

theorem State.enterSlot_eq (s : State) (p k : Nat) :
    s.enterSlot p k = s.setPart p (if k = 0 then
      { (s.partAt p).inSlot k with frameStart := (s.partAt p).slotEnd }.frameMarks (s.marksItself p) (s.aligns p)
      else (s.partAt p).inSlot k) := rfl

theorem State.enterSlot_later_part (s : State) (p k : Nat) (hk : k ≠ 0) :
    (s.enterSlot p k).partAt p = (s.partAt p).inSlot k := by
  rw [s.enterSlot_eq, State.partAt_setPart_same, if_neg hk]

/-- The first slot of a frame begins with it. -/
theorem State.enterSlot_first_part (s : State) (p : Nat) :
    (s.enterSlot p 0).partAt p = { (s.partAt p).inSlot 0 with
      frameStart := (s.partAt p).slotEnd
      marked := ((s.enterSlot p 0).partAt p).marked, measured := ((s.enterSlot p 0).partAt p).measured
      early := ((s.enterSlot p 0).partAt p).early, badMarks := ((s.enterSlot p 0).partAt p).badMarks
      local_ := ((s.enterSlot p 0).partAt p).local_, slotEnd := ((s.enterSlot p 0).partAt p).slotEnd
      shift := ((s.enterSlot p 0).partAt p).shift } := by
  rw [s.enterSlot_eq, State.partAt_setPart_same, if_pos rfl]
  exact Partition.frameMarks_eq _ _ _

theorem Partition.takeRequest_eq (q : Partition) (l : List XReq) :
    (q.takeRequest l).1 = { q with xqueue := (q.takeRequest l).1.xqueue } := by
  induction l generalizing q with
  | nil => rfl
  | cons x l ih =>
    unfold Partition.takeRequest
    dsimp only
    split
    · rfl
    · rw [ih]

/-- What the start of a slot brings touches no core, and of its partition only requests and the slot's plan (R35). -/
theorem State.slotDuties_part (s : State) (p : Nat) :
    (s.slotDuties p).cores = s.cores ∧ (s.slotDuties p).partAt p = { s.partAt p with
      xqueue := ((s.slotDuties p).partAt p).xqueue, plan := ((s.slotDuties p).partAt p).plan } := by
  have hspare : (s.spareStart p).cores = s.cores ∧ (s.spareStart p).partAt p = { s.partAt p with
      xqueue := ((s.spareStart p).partAt p).xqueue, plan := ((s.spareStart p).partAt p).plan } := by
    unfold State.spareStart
    dsimp only
    generalize List.filter _ _ = stale
    have hn := State.Notes.foldl stale (fun s x => s.event p x.ctx .xstepStale noSid none none) (fun s x _ => s.event_notes ..) s
    generalize List.foldl _ s stale = u at hn ⊢
    rw [State.partAt_onPart_same, hn.partAt]
    refine ⟨hn.cores, ?_⟩
    rw [Partition.takeRequest_eq]
  have hmarks : ∀ u : State, (u.sendMarks p).parts = u.parts ∧ (u.sendMarks p).cores = u.cores := fun u => by
    unfold State.sendMarks
    split
    · refine List.foldlRecOn (motive := fun t : State => t.parts = u.parts ∧ t.cores = u.cores) _ _ ⟨rfl, rfl⟩ fun t ht d _ => ?_
      split
      · exact ht
      · exact ht
    · exact ⟨rfl, rfl⟩
  unfold State.slotDuties
  dsimp only
  generalize hu : (if ((s.partAt p).slots.getD (s.partAt p).slot ⟨1000, none⟩).owner.isNone = true then s.spareStart p else s) = u
  have hu' : u.cores = s.cores ∧ u.partAt p = { s.partAt p with xqueue := (u.partAt p).xqueue, plan := (u.partAt p).plan } := by
    rw [← hu]
    split
    · exact hspare
    · exact ⟨rfl, rfl⟩
  generalize hv : (if (s.partAt p).slot = 0 ∧ p = 0 then { u with attestDue := true } else u) = v
  have hv' : v.cores = u.cores ∧ v.partAt p = u.partAt p := by
    rw [← hv]
    split <;> exact ⟨rfl, rfl⟩
  split
  · rw [State.partAt_of_parts (hmarks v).1, hv'.2, (hmarks v).2, hv'.1]
    exact hu'
  · rw [hv'.2, hv'.1]
    exact hu'

/-- SLOT_START within a frame (R15, R17). -/
theorem execSlotStart_later (p : Nat) (s : State) (hr : (s.partAt p).running = true) (hw : (s.partAt p).slotEnd ≤ s.wall)
    (hg : (s.partAt p).phase ≠ .gap) (hk : (s.partAt p).slot + 1 < (s.partAt p).slots.length) :
    ∃ t, exec (.slotStart p) s = .next t ∧ t.cores = s.cores ∧ t.partAt p = { (s.partAt p).inSlot ((s.partAt p).slot + 1) with
      xqueue := (t.partAt p).xqueue, plan := (t.partAt p).plan } := by
  have henter : s.enterNext p = s.enterSlot p ((s.partAt p).slot + 1) := by
    unfold State.enterNext
    dsimp only
    rw [if_neg (by rintro (h | h); exacts [hg h, by omega])]
  have hpart := s.enterSlot_later_part p ((s.partAt p).slot + 1) (Nat.succ_ne_zero _)
  have hexec : exec (.slotStart p) s = .next ((s.enterSlot p ((s.partAt p).slot + 1)).slotDuties p) := by
    show execSlotStart p s = _
    unfold execSlotStart
    dsimp only
    rw [if_pos ⟨hr, hw⟩, henter, hpart, if_neg]
    exact Phase.noConfusion
  obtain ⟨hc, hp⟩ := (s.enterSlot p ((s.partAt p).slot + 1)).slotDuties_part p
  refine ⟨_, hexec, ?_, ?_⟩
  · rw [hc, s.enterSlot_eq, State.setPart_cores]
  · rw [hp, hpart]

/-- SLOT_START at the end of a frame, where no new grid waits (R15). -/
theorem execSlotStart_frame (p : Nat) (s : State) (hr : (s.partAt p).running = true) (hw : (s.partAt p).slotEnd ≤ s.wall)
    (hg : (s.partAt p).phase ≠ .gap) (hk : (s.partAt p).slots.length = (s.partAt p).slot + 1) (hn : (s.partAt p).newGrid = none) :
    ∃ t, exec (.slotStart p) s = .next t ∧ t.cores = s.cores ∧ (t.partAt p).slot = 0 ∧
      (t.partAt p).frame = (s.partAt p).frame + 1 ∧ (t.partAt p).slotStart = (s.partAt p).slotEnd ∧
      (t.partAt p).frameStart = (s.partAt p).slotEnd ∧ (t.partAt p).resmapNew = [] ∧ (t.partAt p).phase = .lead := by
  obtain ⟨hmc, hmp⟩ := s.applyMap_resides p
  rw [State.partAt_onPart_same] at hmp
  have hgrid : ((s.applyMap p).partAt p).newGrid = none := by rw [hmp]; exact hn
  have hphase : ((s.applyMap p).partAt p).phase ≠ .gap := by rw [hmp]; exact hg
  have henter : s.enterNext p = ((s.applyMap p).setPart p
      { (s.applyMap p).partAt p with frame := ((s.applyMap p).partAt p).frame + 1 }).enterSlot p 0 := by
    unfold State.enterNext
    dsimp only
    rw [if_pos (Or.inr (by omega))]
    unfold State.enterFrame
    dsimp only
    rw [hgrid, if_neg hphase]
  have hpart := ((s.applyMap p).setPart p
      { (s.applyMap p).partAt p with frame := ((s.applyMap p).partAt p).frame + 1 }).enterSlot_first_part p
  rw [← henter, State.partAt_setPart_same] at hpart
  have hexec : exec (.slotStart p) s = .next ((s.enterNext p).slotDuties p) := by
    show execSlotStart p s = _
    unfold execSlotStart
    dsimp only
    rw [if_pos ⟨hr, hw⟩, if_neg]
    rw [hpart]
    exact Phase.noConfusion
  obtain ⟨hc, hp⟩ := (s.enterNext p).slotDuties_part p
  refine ⟨_, hexec, ?_, ?_⟩
  · rw [hc, henter, State.enterSlot_eq, State.setPart_cores, State.setPart_cores, hmc, State.onPart_cores]
  · rw [hp, hpart, hmp]
    exact ⟨rfl, rfl, rfl, rfl, rfl, rfl⟩

end Sys2Proof.Machine

namespace Sys2Proof.Machine

/-! ## TURN begins (R19, R20, R326 to R330) -/

/-- What TURN leaves of a core: its code store, its telemetry, its gear and the copies that go on (R19). -/
def Core.TurnedFrom (k0 k : Core) : Prop :=
  k = { Core.reset with code := k0.code, codeEcc := k0.codeEcc, tele := k0.tele, low := k0.low, copies := k.copies }

theorem Core.turnedFrom_turned (k : Core) (keep : Bool) : k.TurnedFrom (k.turned keep) := rfl

theorem Core.TurnedFrom.turned {k0 k : Core} (h : k0.TurnedFrom k) (keep : Bool) : k0.TurnedFrom (k.turned keep) := by
  rw [h]; rfl

theorem State.coreAt_cutCore (s : State) (p c0 : Nat) (keep : Bool) (r c r' c' : Nat) :
    (s.cutCore p c0 keep r c).coreAt r' c' =
      if 8 * r' + c' = 8 * r + c then (s.coreAt r c).turned keep else s.coreAt r' c' := by
  unfold State.cutCore
  dsimp only
  rw [State.coreAt_setCoreAt]
  split
  · rfl
  · exact (State.copyCuts_notes ..).coreAt r' c'

theorem State.cutCore_parts (s : State) (p c0 : Nat) (keep : Bool) (r c : Nat) : (s.cutCore p c0 keep r c).parts = s.parts :=
  (State.copyCuts_notes ..).parts

/-- At T every core of the list is cut. -/
def State.cutCores (s : State) (p c0 : Nat) (keep : Bool) (ids : List (Nat × Nat)) : State :=
  ids.foldl (fun s (r, c) => s.cutCore p c0 keep r c) s

theorem State.cutCores_parts (s : State) (p c0 : Nat) (keep : Bool) (ids : List (Nat × Nat)) :
    (s.cutCores p c0 keep ids).parts = s.parts :=
  List.foldlRecOn (motive := fun t : State => t.parts = s.parts) _ _ rfl fun t ht _ _ => (t.cutCore_parts ..).trans ht

theorem State.cutCores_keep_turned (s : State) (p c0 : Nat) (keep : Bool) (ids : List (Nat × Nat)) (k0 : Core) (r c : Nat)
    (h : k0.TurnedFrom (s.coreAt r c)) : k0.TurnedFrom ((s.cutCores p c0 keep ids).coreAt r c) := by
  refine List.foldlRecOn (motive := fun t : State => k0.TurnedFrom (t.coreAt r c)) _ _ h fun t ht x _ => ?_
  rw [State.coreAt_cutCore]
  split
  · rename_i hx
    have : t.coreAt x.1 x.2 = t.coreAt r c := by unfold State.coreAt; rw [hx]
    rw [this]; exact ht.turned keep
  · exact ht

theorem State.cutCores_turned (s : State) (p c0 : Nat) (keep : Bool) (ids : List (Nat × Nat)) (r c : Nat) (h : (r, c) ∈ ids) :
    (s.coreAt r c).TurnedFrom ((s.cutCores p c0 keep ids).coreAt r c) := by
  induction ids generalizing s with
  | nil => cases h
  | cons x ids ih =>
    have hx := s.coreAt_cutCore p c0 keep x.1 x.2 r c
    have hcons : s.cutCores p c0 keep (x :: ids) = (s.cutCore p c0 keep x.1 x.2).cutCores p c0 keep ids := List.foldl_cons ..
    rw [hcons]
    by_cases hk : 8 * r + c = 8 * x.1 + x.2
    · rw [if_pos hk] at hx
      refine State.cutCores_keep_turned _ p c0 keep ids _ r c ?_
      have : s.coreAt x.1 x.2 = s.coreAt r c := by unfold State.coreAt; rw [hk]
      rw [hx, this]
      exact Core.turnedFrom_turned _ keep
    · rw [if_neg hk] at hx
      rcases List.mem_cons.mp h with rfl | h
      · exact absurd rfl hk
      · have := ih (s.cutCore p c0 keep x.1 x.2) h
        rwa [hx] at this

theorem State.popPage_notes {s t : State} {c pa : Nat} (h : s.popPage c = some (pa, t)) : s.Notes t := by
  unfold State.popPage at h
  dsimp only at h
  split at h
  · exact absurd h nofun
  · rw [← (Prod.mk.inj (Option.some.inj h)).2]
    exact s.setCtxWord_notes c 3 _

/-- What stands on a page that a child takes off the page stack (R326, R327). -/
theorem State.freshPage_stores (s : State) (pa part : Nat) (page : Option Snap) :
    s.Stores (match page with
      | some y => (s.zeroMem pa 65536).putSnap pa part y
      | none => s.zeroMem pa 65536) := by
  split
  · exact (s.zeroMem_stores ..).trans (State.putSnap_stores ..)
  · exact s.zeroMem_stores ..

theorem State.forkTail_stores (s : State) (x : ForkTail) : s.Stores (s.forkTail x).1 := by
  unfold State.forkTail
  dsimp only
  split
  · exact .refl s
  · rename_i t heq
    have ht : s.Stores t := by
      split at heq
      · rw [← Option.some.inj heq]; exact .refl s
      · split at heq
        · exact absurd heq nofun
        · rename_i pa u hpop
          have hu := (State.popPage_notes hpop).toStores.trans (u.freshPage_stores pa (x.ext % 65536) x.page)
          split at heq
          · rw [← Option.some.inj heq]
            exact (hu.trans (State.withMem_notes ..).toStores).trans (State.setPageCount_notes ..).toStores
          · rw [← Option.some.inj heq]
            exact hu
    refine ht.trans (State.Stores.trans (State.Stores.foldl _ _ (fun v y _ => ?_) t) (State.putSnap_stores ..))
    split
    · exact v.putSnap_stores ..
    · exact .refl v

/-- A context that becomes FAULTED at its TURN leaves the step of the TURN as it was (R327). -/
theorem State.tailFault_resides (s : State) (p i child ext : Nat) : s.Resides p (s.tailFault p i child ext) := by
  unfold State.tailFault
  dsimp only
  generalize hu : State.onPart _ p (fun q' => { q' with step := (s.partAt p).step }) = u
  have h : s.Resides p u := by
    rw [← hu]
    refine ⟨?_, ?_⟩
    · rw [State.onPart_cores, State.record_cores, State.onPart_cores]
    · rw [State.partAt_onPart_same, State.partAt_of_parts (State.record_parts ..), State.partAt_onPart_same]
  exact (h.trans (u.setState_maps p i .faulted).resides).trans ((State.event_notes ..).maps p).resides

theorem State.forkTails_resides (s : State) (p i : Nat) : s.Resides p (s.forkTails p i) := by
  unfold State.forkTails
  dsimp only
  refine State.Resides.trans (t := { s with tails := s.tails.filter fun x => x.ctx ≠ ((s.partAt p).res i).ctx }) ⟨rfl, rfl⟩ ?_
  refine State.Resides.foldl _ _ (fun u x _ => ?_) _
  split
  · have hx := u.forkTail_stores x
    rcases hf : u.forkTail x with ⟨v, b⟩
    rw [hf] at hx
    cases b
    · exact (hx.resides p).trans (v.tailFault_resides p i x.child x.ext)
    · exact hx.resides p
  · exact .refl p u

theorem State.startTodo_resides (s : State) (p : Nat) : s.Resides p (s.startTodo p) := by
  unfold State.startTodo
  split
  · exact s.forkTails_resides p _
  · exact .refl p s

theorem State.zeroSlices_stores (s : State) (c sid : Nat) : s.Stores (s.zeroSlices c sid) := by
  unfold State.zeroSlices
  refine State.Stores.trans (State.Stores.foldl _ _ (fun u i _ => ?_) s) (State.zeroMem_stores ..)
  refine State.Stores.foldl _ _ (fun v h _ => ?_) u
  split
  · exact v.zeroMem_stores ..
  · exact .refl v

theorem State.zeroReleased_part (s : State) (p : Nat) :
    (s.zeroReleased p).cores = s.cores ∧ (s.zeroReleased p).partAt p = { s.partAt p with zeroing := [] } := by
  unfold State.zeroReleased
  have h := State.Stores.foldl (s.partAt p).zeroing (fun s x => s.zeroSlices x.1 x.2) (fun u x _ => u.zeroSlices_stores x.1 x.2) s
  generalize List.foldl _ s _ = u at h ⊢
  rw [State.onPart_cores, State.partAt_onPart_same, h.partAt, h.cores]
  exact ⟨rfl, rfl⟩

/-- TURN begins on beat T: it cuts the cores of a slot with a step and takes up the commands (R19). -/
theorem execTurn_begins (p : Nat) (s : State) (hl : (s.partAt p).phase = .lead) (ht : (s.partAt p).topo % 4 = 0) :
    ∃ t, exec (.turn p) s = .next t ∧ (t.partAt p).phase = .turn ∧ (t.partAt p).step.turnBeat = (s.partAt p).topo ∧
      (t.partAt p).step.bound = false ∧
      ((s.partAt p).plan ≠ none → ∀ x ∈ (s.partAt p).coreIds, (s.coreAt x.1 x.2).TurnedFrom (t.coreAt x.1 x.2)) := by
  have hexec : exec (.turn p) s = .next (s.turnBegin p) := by
    show execTurn p s = _
    unfold execTurn
    dsimp only
    rw [hl]
    dsimp only
    rw [if_pos ht]
  refine ⟨_, hexec, ?_⟩
  unfold State.turnBegin
  dsimp only
  generalize hu : (if (s.partAt p).plan.isSome = true then _ else s) = u
  have hcut : ((s.partAt p).plan ≠ none → ∀ x ∈ (s.partAt p).coreIds, (s.coreAt x.1 x.2).TurnedFrom (u.coreAt x.1 x.2)) ∧
      (u.partAt p).topo = (s.partAt p).topo := by
    rw [← hu]
    cases hp : (s.partAt p).plan with
    | none => exact ⟨fun h => absurd rfl h, rfl⟩
    | some y =>
      rw [if_pos (show (some y).isSome = true from rfl)]
      have hparts := s.cutCores_parts p (s.partAt p).step.ctx (decide ((some y).map (·.1) ≠ some StepKind.urgent)) (s.partAt p).coreIds
      have hcores := s.cutCores_turned p (s.partAt p).step.ctx (decide ((some y).map (·.1) ≠ some StepKind.urgent)) (s.partAt p).coreIds
      unfold State.cutCores at hparts hcores
      generalize List.foldl _ s _ = v at hparts hcores ⊢
      refine ⟨fun _ x hx => hcores x.1 x.2 hx, ?_⟩
      rw [State.partAt_onPart_same, State.partAt_of_parts hparts]
  clear hu
  obtain ⟨hz1, hz2⟩ := u.zeroReleased_part p
  generalize hv : State.onPart _ p _ = v
  have hv' : v.cores = u.cores ∧ (v.partAt p).phase = .turn ∧ (v.partAt p).step.turnBeat = (u.partAt p).topo ∧
      (v.partAt p).step.bound = false := by
    rw [← hv, State.onPart_cores, State.partAt_onPart_same, hz1, hz2]
    exact ⟨rfl, rfl, rfl, rfl⟩
  obtain ⟨hvc, hphase, hbeat, hbound⟩ := hv'
  obtain ⟨hw1, hw2⟩ := v.startTodo_resides p
  refine ⟨?_, ?_, ?_, fun hp x hx => ?_⟩
  · rw [hw2]; exact hphase
  · rw [hw2]; exact hbeat.trans hcut.2
  · rw [hw2]; exact hbound
  · have : (v.startTodo p).coreAt x.1 x.2 = u.coreAt x.1 x.2 := by unfold State.coreAt; rw [hw1, hvc]
    rw [this]
    exact hcut.1 hp x hx

end Sys2Proof.Machine

namespace Sys2Proof.Machine

/-! ## The binding of a step's job (R17, R19, R25, R34) -/

/-- From s to t SNAP may have been taken for residents of partition p: what they note of it changes, and nothing else of
them or of the partition. -/
structure State.Snaps (p : Nat) (s t : State) : Prop extends s.Maps p t where
  res : ∀ j, (t.partAt p).res j = { (s.partAt p).res j with
    restore := ((t.partAt p).res j).restore, overrun := ((t.partAt p).res j).overrun }

theorem State.Snaps.refl (p : Nat) (s : State) : s.Snaps p s := ⟨.refl p s, fun _ => rfl⟩

theorem State.Snaps.trans {p : Nat} {s t u : State} (h : s.Snaps p t) (k : t.Snaps p u) : s.Snaps p u :=
  ⟨h.toMaps.trans k.toMaps, fun j => by rw [k.res j, h.res j]⟩

theorem State.Notes.snaps {s t : State} (h : s.Notes t) (p : Nat) : s.Snaps p t :=
  ⟨h.maps p, fun j => by rw [h.partAt]⟩

theorem State.Snaps.foldl {α : Type} {p : Nat} (l : List α) (f : State → α → State) (h : ∀ s : State, ∀ x ∈ l, s.Snaps p (f s x))
    (s : State) : s.Snaps p (l.foldl f s) :=
  List.foldlRecOn l f (.refl p s) fun t ht x hx => ht.trans (h t x hx)

theorem State.onRes_snaps (s : State) (p i : Nat) (f : Resident → Resident)
    (h : ∀ r, f r = { r with restore := (f r).restore, overrun := (f r).overrun }) : s.Snaps p (s.onRes p i f) := by
  refine ⟨s.onRes_maps p i f, fun j => ?_⟩
  rw [s.res_onRes]
  by_cases hj : j = i
  · rw [if_pos hj, hj]; exact h _
  · rw [if_neg hj]

theorem State.snapStream_snaps (s : State) (p i sid : Nat) : s.Snaps p (s.snapStream p i sid) := by
  unfold State.snapStream
  dsimp only
  generalize ((s.partAt p).res i).ctx = c
  generalize Mem.nat s.mem (s.st c sid stLwp) 4 = snap
  have h := (s.setSt_notes c sid stSnap snap).snaps p
  generalize s.setSt c sid stSnap snap = u at h ⊢
  split
  · generalize hr : (snap + 2 ^ 32 - 2 ^ s.st c sid stLlog) % 2 ^ 32 = rp
    have hrp := h.trans ((u.setSt_notes c sid stRp rp).snaps p)
    generalize u.setSt c sid stRp rp = v at hrp ⊢
    refine (hrp.trans (v.onRes_snaps p i (fun r => { r with overrun := r.overrun ++ [sid] }) fun _ => rfl)).trans ?_
    exact (State.event_notes ..).snaps p
  · exact h

theorem State.snapAll_snaps (s : State) (p i : Nat) : s.Snaps p (s.snapAll p i) := by
  unfold State.snapAll
  dsimp only
  have h := s.onRes_snaps p i (fun r => { r with overrun := [] }) fun _ => rfl
  generalize s.onRes p i _ = u at h ⊢
  exact h.trans (State.Snaps.foldl _ _ (fun u x _ => u.snapStream_snaps p i x) u)

theorem State.catchUp_notes (s : State) (c sid n : Nat) : s.Notes (s.catchUp c sid n) := by
  -- Unfolded under its binders: the kernel would evaluate the run of entries to compare the two sides.
  obtain ⟨f, hf⟩ : ∃ f, f = State.catchUp := ⟨_, rfl⟩
  rw [← hf]
  delta State.catchUp at hf
  rw [hf]
  beta_reduce
  generalize splitRun _ _ _ = x
  obtain ⟨late, rest⟩ := x
  dsimp only
  generalize s.st c sid stRp + late = rp
  have h := s.count_notes c sid stLate late
  generalize s.count c sid stLate late = u at h ⊢
  exact h.trans (u.setSt_notes ..)

theorem State.restoreCtx_snaps (s : State) (p i : Nat) : s.Snaps p (s.restoreCtx p i) := by
  unfold State.restoreCtx
  dsimp only
  have h := State.Snaps.foldl (p := p) ((s.partAt p).res i).restore
    (fun u x => if u.active ((s.partAt p).res i).ctx x.1 then u.catchUp ((s.partAt p).res i).ctx x.1 x.2 else u) (fun u x _ => by
      split
      · exact (u.catchUp_notes ..).snaps p
      · exact .refl p u) s
  generalize List.foldl _ s _ = v at h ⊢
  exact h.trans (v.onRes_snaps p i (fun r => { r with restore := [] }) fun _ => rfl)

theorem State.reclaimSlot_step (s : State) (p : Nat) : ((s.reclaimSlot p).partAt p).step = (s.partAt p).step := by
  unfold State.reclaimSlot
  dsimp only
  have hpages := State.Stores.foldl (s.partAt p).reclaim (fun s x => s.reclaimPage x.1 x.2.2) (fun u x _ => by
    unfold State.reclaimPage
    dsimp only
    split
    · exact ((u.zeroMem_stores ..).trans (State.withMem_notes ..).toStores).trans (State.setCtxWord_notes ..).toStores
    · exact (u.zeroMem_stores ..).trans (State.setPageCount_notes ..).toStores) s
  generalize List.foldl _ s _ = u at hpages ⊢
  have hstreams := State.Notes.foldl (s.partAt p).reclaiming (fun s x =>
    if s.st x.1 x.2 stState = 2 then s.setSt x.1 x.2 stState (if s.st x.1 x.2 stRoot = x.2 then 0 else 3) else s) (fun u x _ => by
      split
      · exact u.setSt_notes ..
      · exact .refl u) u
  generalize List.foldl _ u _ = v at hstreams ⊢
  rw [State.partAt_onPart_same, hstreams.partAt, hpages.partAt]

/-- The step that a TURN binds (R17, R19). -/
theorem State.bindStep_step (s : State) (p i : Nat) (kind : StepKind) :
    ∃ n, ((s.bindStep p i kind).partAt p).step = { (s.partAt p).step with
      serial := n, kind := kind, resident := i, ctx := ((s.partAt p).res i).ctx, prevCtx := (s.partAt p).step.ctx
      anchor := (s.partAt p).step.turnBeat + 2048, rdz := ((s.partAt p).res i).image.rdz
      outcome := if (s.partAt p).deadlined then .abandoned else .open_
      watching := !(s.partAt p).deadlined, grants := ((s.partAt p).res i).image.grants, csbase := ((s.partAt p).res i).csbase
      cslen := ((s.partAt p).res i).cslen, preempted := false, settled := (s.partAt p).deadlined, bound := true
      published := [] } := by
  unfold State.bindStep
  dsimp only
  have hcores : ∀ l : List CoreJob, (l.foldl (fun s j => s.onCore j.rope j.core fun k => k.bindJob j) s).parts = s.parts := fun l =>
    List.foldlRecOn (motive := fun t : State => t.parts = s.parts) _ _ rfl fun t ht _ _ => ht
  have hu := State.partAt_of_parts (hcores ((s.partAt p).res i).image.cores) p
  generalize List.foldl _ s _ = u at hu ⊢
  generalize hv : (if ((s.partAt p).res i).fresh = true ∧ kind = .owned then _ else u) = v
  have hv' : (v.partAt p).step = (u.partAt p).step ∧ (v.partAt p).deadlined = (u.partAt p).deadlined := by
    rw [← hv]
    split
    · rw [State.partAt_onRes, (State.event_notes ..).partAt]
      exact ⟨rfl, rfl⟩
    · exact ⟨rfl, rfl⟩
  rw [State.partAt_onPart_same]
  dsimp only
  rw [hv'.1, hv'.2, hu]
  exact ⟨_, rfl⟩

/-- The last part of TURN binds the step of a slot that runs one (R17, R19). -/
theorem execTurn_binds (p : Nat) (s : State) (kind : StepKind) (i : Nat) (hp : (s.partAt p).phase = .turn)
    (hb : (s.partAt p).step.bound = false) (ht : (s.partAt p).step.todo = []) (hplan : (s.partAt p).plan = some (kind, i))
    (hr : (s.partAt p).step.releases = true) (ha : ((s.partAt p).res i).state = .active) (hd : (s.partAt p).deadlined = false) :
    ∃ t, exec (.turn p) s = .next t ∧ (t.partAt p).step.bound = true ∧ (t.partAt p).step.outcome = .open_ ∧
      (t.partAt p).step.anchor = (s.partAt p).step.turnBeat + 2048 ∧ (t.partAt p).step.rdz = ((s.partAt p).res i).image.rdz ∧
      (t.partAt p).step.ctx = ((s.partAt p).res i).ctx ∧ (t.partAt p).step.csbase = ((s.partAt p).res i).csbase ∧
      (t.partAt p).step.cslen = ((s.partAt p).res i).cslen := by
  have hexec : exec (.turn p) s = .next (s.turnBind p) := by
    show execTurn p s = _
    unfold execTurn
    dsimp only
    rw [hp]
    dsimp only
    rw [if_neg (by rw [hb]; exact Bool.false_ne_true), ht]
  refine ⟨_, hexec, ?_⟩
  unfold State.turnBind
  dsimp only
  rw [State.reclaimSlot_step]
  have hrest := fun l : List Nat => State.Snaps.foldl (p := p) l (fun s i => (s.snapAll p i).restoreCtx p i)
    (fun u x _ => (u.snapAll_snaps p x).trans (State.restoreCtx_snaps _ p x)) s
  rw [hplan]
  dsimp only
  generalize List.filter _ _ = restoring
  specialize hrest restoring
  generalize List.foldl _ s restoring = u at hrest ⊢
  have hsnap := hrest.trans ((u.snapAll_snaps p i).trans (State.restoreCtx_snaps _ p i))
  generalize (u.snapAll p i).restoreCtx p i = v at hsnap ⊢
  have hstate : ((v.partAt p).res i).state = .active := by rw [hsnap.res i]; exact ha
  generalize hw : State.onPart v p _ = w
  have hw' : w.partAt p = { v.partAt p with step := { (v.partAt p).step with releases := true } } := by
    rw [← hw, State.partAt_onPart_same, hstate, hsnap.part]
    dsimp only
    rw [hr]
    rfl
  rw [if_pos ⟨hr, hstate⟩]
  obtain ⟨n, hn⟩ := w.bindStep_step p i kind
  have hres : (w.partAt p).res i = (v.partAt p).res i := by rw [hw']; rfl
  have hdead : (w.partAt p).deadlined = false := by rw [hw', hsnap.part]; exact hd
  have hbeat : (w.partAt p).step.turnBeat = (s.partAt p).step.turnBeat := by rw [hw', hsnap.part]
  rw [hn, hres, hdead, hbeat, hsnap.res i]
  exact ⟨rfl, rfl, rfl, rfl, rfl, rfl, rfl⟩

end Sys2Proof.Machine

namespace Sys2Proof.Machine

/-! ## What a commit can change (R27) -/

/-- From s to t a commit of partition p may have acted on streams: of the partition the staged publications, what its step
published and the lists of the reclaimer differ, and of its residents the resets that wait for the slot's end. -/
structure State.Commits (p : Nat) (s t : State) : Prop where
  cores : t.cores = s.cores
  svcs : t.svcs = s.svcs
  ctxbase : t.ctxbase = s.ctxbase
  out : s.out <+: t.out
  part : t.partAt p = { s.partAt p with
    residents := (t.partAt p).residents, speak := (t.partAt p).speak, reclaim := (t.partAt p).reclaim
    reclaiming := (t.partAt p).reclaiming, zeroing := (t.partAt p).zeroing
    step := { (s.partAt p).step with published := (t.partAt p).step.published } }
  res : ∀ j, (t.partAt p).res j = { (s.partAt p).res j with resets := ((t.partAt p).res j).resets }
  reclaiming : (s.partAt p).reclaiming <+: (t.partAt p).reclaiming

theorem State.Commits.refl (p : Nat) (s : State) : s.Commits p s :=
  ⟨rfl, rfl, rfl, List.prefix_refl _, rfl, fun _ => rfl, List.prefix_refl _⟩

theorem State.Commits.trans {p : Nat} {s t u : State} (h : s.Commits p t) (k : t.Commits p u) : s.Commits p u :=
  ⟨k.cores.trans h.cores, k.svcs.trans h.svcs, k.ctxbase.trans h.ctxbase, h.out.trans k.out, by rw [k.part, h.part],
    fun j => by rw [k.res j, h.res j], h.reclaiming.trans k.reclaiming⟩

theorem State.Commits.foldl {α : Type} {p : Nat} (l : List α) (f : State → α → State)
    (h : ∀ s : State, ∀ x ∈ l, s.Commits p (f s x)) (s : State) : s.Commits p (l.foldl f s) :=
  List.foldlRecOn l f (.refl p s) fun t ht x hx => ht.trans (h t x hx)

theorem State.Stores.commits {s t : State} (h : s.Stores t) (p : Nat) : s.Commits p t :=
  ⟨h.cores, h.svcs, h.ctxbase, h.out, by rw [h.partAt p], fun _ => by rw [h.partAt p], by rw [h.partAt p]⟩

theorem State.Notes.commits {s t : State} (h : s.Notes t) (p : Nat) : s.Commits p t := h.toStores.commits p

/-- A change of the partition that a commit may make, and that leaves the residents alone. -/
theorem State.onPart_commits (s : State) (p : Nat) (f : Partition → Partition)
    (h : f (s.partAt p) = { s.partAt p with
      speak := (f (s.partAt p)).speak, reclaim := (f (s.partAt p)).reclaim, reclaiming := (f (s.partAt p)).reclaiming
      zeroing := (f (s.partAt p)).zeroing
      step := { (s.partAt p).step with published := (f (s.partAt p)).step.published } })
    (hr : (s.partAt p).reclaiming <+: (f (s.partAt p)).reclaiming) : s.Commits p (s.onPart p f) := by
  have hpart := s.partAt_onPart_same p f
  refine ⟨rfl, rfl, rfl, List.prefix_refl _, ?_, fun j => ?_, ?_⟩
  · rw [hpart, h]
  · rw [hpart, h]; rfl
  · rw [hpart]; exact hr

/-- A change of a resident's resets. -/
theorem State.onRes_commits (s : State) (p i : Nat) (f : Resident → Resident)
    (h : ∀ r, f r = { r with resets := (f r).resets }) : s.Commits p (s.onRes p i f) := by
  have hpart := s.partAt_onRes p i f
  refine ⟨rfl, rfl, rfl, List.prefix_refl _, ?_, fun j => ?_, ?_⟩
  · rw [hpart]
  · rw [s.res_onRes]
    by_cases hj : j = i
    · rw [if_pos hj, hj]; exact h _
    · rw [if_neg hj]
  · rw [hpart]

/-! ### Cancels and resets -/

theorem State.dropSpeak_commits (s : State) (p sid : Nat) : s.Commits p (s.onPart p fun q => q.dropSpeak sid) :=
  s.onPart_commits p _ rfl (List.prefix_refl _)

theorem State.uncachePage_notes (s : State) (p i va : Nat) : s.Notes (s.uncachePage p i va) := s.uncache_notes ..

theorem State.releasePage_commits (s : State) (p i c sid k : Nat) : s.Commits p (s.releasePage p i c sid k) := by
  unfold State.releasePage
  split
  · next a e _ =>
    dsimp only
    generalize s.pageCount (entryPa e) - 1 = n
    have h := ((s.withMem_notes (Mem.putNat s.mem a 8 0)).trans
      (State.uncachePage_notes _ p i (kvBase sid + 65536 * k))).trans (State.setPageCount_notes _ (entryPa e) n)
    generalize State.setPageCount _ (entryPa e) n = t at h ⊢
    split
    · exact (h.commits p).trans (t.onPart_commits p (fun q => { q with reclaim := q.reclaim ++ [(c, sid, entryPa e)] }) rfl
        (List.prefix_refl _))
    · split
      · exact (h.trans (t.restoreW_notes ..)).commits p
      · exact h.commits p
  · exact .refl p s

/-- The pages of a stream are released one after another. -/
def State.releasePages (s : State) (p i c sid : Nat) : State :=
  (range 0 kvPages).foldl (fun s k => s.releasePage p i c sid k) s

theorem State.releasePages_commits (s : State) (p i c sid : Nat) : s.Commits p (s.releasePages p i c sid) :=
  State.Commits.foldl _ _ (fun s k _ => s.releasePage_commits p i c sid k) s

theorem State.releaseStream_eq (s : State) (p i c sid : Nat) :
    s.releaseStream p i c sid = (s.releasePages p i c sid).onPart p fun q =>
      { q with reclaiming := q.reclaiming ++ [(c, sid)], zeroing := q.zeroing ++ [(c, sid)] } := by
  delta State.releaseStream State.releasePages
  rfl

theorem State.toReclaimer_commits (s : State) (p c sid : Nat) : s.Commits p (s.onPart p fun q =>
      { q with reclaiming := q.reclaiming ++ [(c, sid)], zeroing := q.zeroing ++ [(c, sid)] }) :=
  s.onPart_commits p (fun q =>
    { q with reclaiming := q.reclaiming ++ [(c, sid)], zeroing := q.zeroing ++ [(c, sid)] }) rfl (List.prefix_append _ _)

theorem State.releaseStream_commits (s : State) (p i c sid : Nat) : s.Commits p (s.releaseStream p i c sid) := by
  have h := (s.releasePages_commits p i c sid).trans (State.toReclaimer_commits _ p c sid)
  rw [← s.releaseStream_eq p i c sid] at h
  exact h

/-- A released stream stands on the reclaimer's list. -/
theorem State.mem_reclaiming_releaseStream (s : State) (p i c sid : Nat) :
    (c, sid) ∈ ((s.releaseStream p i c sid).partAt p).reclaiming := by
  rw [s.releaseStream_eq, State.partAt_onPart_same]
  exact List.mem_append_right _ (List.mem_singleton_self _)

/-- What the removal of a stream does before its pages go. -/
def State.removal (s : State) (p i sid : Nat) (e : Event) : State :=
  let c := ((s.partAt p).res i).ctx
  let t := (s.clearEntries c sid).onPart p fun q => q.dropSpeak sid
  ((t.setSt c sid stState 2).event p c e sid (some ((t.st c sid stQ + 2 ^ 64 - 1) % 2 ^ 64)) none).onRes p i fun r =>
    { r with resets := r.resets.filter (· ≠ sid) }

theorem State.removeStream_eq (s : State) (p i sid : Nat) (e : Event) :
    s.removeStream p i sid e = (s.removal p i sid e).releaseStream p i ((s.partAt p).res i).ctx sid := by
  delta State.removeStream State.removal
  rfl

theorem State.removal_commits (s : State) (p i sid : Nat) (e : Event) : s.Commits p (s.removal p i sid e) := by
  unfold State.removal
  dsimp only
  generalize ((s.partAt p).res i).ctx = c
  have h := ((s.clearEntries_stores c sid).commits p).trans ((s.clearEntries c sid).dropSpeak_commits p sid)
  generalize (s.clearEntries c sid).onPart p _ = t at h ⊢
  have h' := h.trans ((t.setSt_notes c sid stState 2).commits p)
  generalize t.setSt c sid stState 2 = u at h' ⊢
  have h'' := h'.trans ((u.event_notes p c e sid (some ((t.st c sid stQ + 2 ^ 64 - 1) % 2 ^ 64)) none).commits p)
  generalize u.event p c e sid _ none = v at h'' ⊢
  exact h''.trans (v.onRes_commits p i (fun r => { r with resets := r.resets.filter (· ≠ sid) }) fun _ => rfl)

theorem State.removeStream_commits (s : State) (p i sid : Nat) (e : Event) : s.Commits p (s.removeStream p i sid e) := by
  rw [s.removeStream_eq]
  exact (s.removal_commits p i sid e).trans (State.releaseStream_commits ..)

theorem State.removeTree_commits (s : State) (p i sid : Nat) (e : Event) : s.Commits p (s.removeTree p i sid e) := by
  unfold State.removeTree
  dsimp only
  exact (s.removeStream_commits p i sid e).trans
    (State.Commits.foldl _ _ (fun s x _ => s.removeStream_commits p i x .streamCancelled) _)

theorem State.cancelStream_commits (s : State) (p i sid : Nat) (tree : Bool) : s.Commits p (s.cancelStream p i sid tree) := by
  unfold State.cancelStream
  dsimp only
  split
  · exact s.removeTree_commits ..
  · refine State.Commits.trans (State.Commits.foldl _ _ (fun t x _ => ?_) s) (State.removeStream_commits ..)
    split
    · exact (t.setSt_notes ..).commits p
    · exact .refl p t

theorem State.resetStream_commits (s : State) (p i sid : Nat) : s.Commits p (s.resetStream p i sid) := by
  unfold State.resetStream
  dsimp only
  generalize ((s.partAt p).res i).ctx = c
  have h := State.Commits.foldl (p := p) ((s.actives c).filter fun x => s.st c x stParent = sid)
    (fun s x => s.removeTree p i x .streamCancelled) (fun s x _ => s.removeTree_commits p i x .streamCancelled) s
  generalize List.foldl _ s _ = t at h ⊢
  have h' := (h.trans ((t.clearEntries_stores c sid).commits p)).trans (State.dropSpeak_commits _ p sid)
  generalize (t.clearEntries c sid).onPart p _ = u at h' ⊢
  have h'' := (h'.trans (u.releaseStream_commits p i c sid)).trans ((State.setSt_notes _ c sid stN 0).commits p)
  generalize (u.releaseStream p i c sid).setSt c sid stN 0 = v at h'' ⊢
  exact h''.trans (v.onRes_commits p i (fun r => { r with resets := r.resets ++ [sid] }) fun _ => rfl)

/-! ### Forks -/

theorem State.withTails_stores (s : State) (l : List ForkTail) : s.Stores { s with tails := l } :=
  ⟨rfl, rfl, rfl, rfl, rfl, rfl, rfl, List.prefix_refl _⟩

theorem State.sharePage_notes (s : State) (p i c parent child k : Nat) : s.Notes (s.sharePage p i c parent child k) := by
  unfold State.sharePage
  split
  · next a e ca _ _ =>
    dsimp only
    have h := s.setW_notes p i (kvBase parent + 65536 * k) a e false
    generalize s.setW p i (kvBase parent + 65536 * k) a e false = t at h ⊢
    exact ((h.trans (t.withMem_notes _)).trans (State.uncachePage_notes ..)).trans (State.setPageCount_notes ..)
  · exact .refl s

/-- Copies of fields of one stream into another. -/
theorem State.copyFields_notes (s : State) (c parent child : Nat) (l : List (Nat × Nat)) :
    s.Notes (l.foldl (fun s f => s.setSt c child f (s.st c parent f)) s) :=
  State.Notes.foldl l _ (fun s _ _ => s.setSt_notes ..) s

theorem State.createChild_stores (s : State) (p i parent child : Nat) (flip : Bool) :
    s.Stores (s.createChild p i parent child flip) := by
  unfold State.createChild
  dsimp only
  generalize ((s.partAt p).res i).ctx = c
  generalize State.forkSources s c parent child _ flip = src
  generalize s.extent c _ = ext
  have h := (s.setSt_notes c child stState 1).trans (State.setSt_notes _ c child stParent parent)
  generalize (s.setSt c child stState 1).setSt c child stParent parent = t at h ⊢
  have h2 := h.trans (t.copyFields_notes c parent child [stRoot, stLlog, stLring, stLwp, stQ])
  generalize List.foldl _ t _ = u at h2 ⊢
  have h3 := (h2.trans (u.setSt_notes c child stKey
    (mix (BitVec.ofNat 64 (s.st c parent stKey)) (BitVec.ofNat 64 child)).toNat)).trans
      (State.setSt_notes _ c child stE (u.st c parent stQ))
  generalize State.setSt _ c child stE (u.st c parent stQ) = v at h3 ⊢
  have h4 := h3.trans (State.Notes.foldl [stLate, stStarved, stSpkdrop] (fun s f => s.setSt c child f 0)
    (fun s _ _ => s.setSt_notes ..) v)
  generalize List.foldl _ v _ = w at h4 ⊢
  have h5 := h4.trans (State.Notes.foldl (range 0 (min kvPages (ext / 65536))) (fun s k => s.sharePage p i c parent child k)
    (fun s k _ => s.sharePage_notes ..) w)
  generalize List.foldl _ w _ = x at h5 ⊢
  have h6 := h5.toStores.trans (x.withTails_stores (x.tails ++ [src]))
  generalize ({ x with tails := x.tails ++ [src] } : State) = y at h6 ⊢
  exact h6.trans (y.event_notes ..).toStores

theorem State.settleChild_notes (s : State) (c parent child : Nat) : s.Notes (s.settleChild c parent child) := by
  unfold State.settleChild
  dsimp only
  have h := s.copyFields_notes c parent child [stN, stQ, stRp, stSnap]
  generalize List.foldl _ s _ = t at h ⊢
  exact h.trans (t.publishWord_notes ..)

/-! ### Publications -/

theorem State.withdraw_stores (s : State) (c sid x : Nat) : s.Stores (s.withdraw c sid x) := by
  unfold State.withdraw
  dsimp only
  split
  · have h := (s.setSt_notes c sid stE (max x (s.st c sid stQ))).toStores
    generalize s.setSt c sid stE (max x (s.st c sid stQ)) = t at h ⊢
    exact h.trans ⟨rfl, rfl, rfl, rfl, rfl, rfl, rfl, List.prefix_refl _⟩
  · exact .refl s

theorem State.putEntry_commits (s : State) (p c sid pos : Nat) (bs : List Byte) : s.Commits p (s.putEntry p c sid pos bs) := by
  unfold State.putEntry
  dsimp only
  have h := (s.putDev_stores (s.speakAt c sid pos) bs).trans (State.unretract_stores _ c sid pos)
  generalize State.unretract _ c sid pos = t at h ⊢
  exact (h.commits p).trans (t.onPart_commits p (fun q =>
    { q with step := { q.step with published := (sid, pos) :: q.step.published } }) rfl (List.prefix_refl _))

theorem State.publish_commits (s : State) (p c lag : Nat) (x : SpeakEntry) : s.Commits p (s.publish p c lag x) := by
  unfold State.publish
  dsimp only
  split
  · exact (s.count_notes ..).commits p
  · generalize (nearest (entryPos x.bytes) _).toNat = pos
    generalize s.endPos c _ = e
    have h := State.Commits.foldl (range e (pos - e)) (fun t n => t.putEntry p c (entryNat x.bytes 8 2) n
      (t.fillEntry c n (2 ^ flFill) lag (s.partAt p).frame)) (fun t n _ => t.putEntry_commits p c _ n _) s
    generalize List.foldl _ s _ = t at h ⊢
    have h2 := fun bs => h.trans (t.putEntry_commits p c (entryNat x.bytes 8 2) pos bs)
    split
    · exact (h2 _).trans ((State.setSt_notes ..).commits p)
    · exact h2 _

/-! ### The seven steps -/

theorem State.onStaged_commits (s : State) (p i sid : Nat) (v : CommitView) (f : State → State) (h : s.Commits p (f s)) :
    s.Commits p (s.onStaged p i sid v f) := by
  unfold State.onStaged
  dsimp only
  split
  · exact h
  · split
    · exact .refl p s
    · exact (s.event_notes ..).commits p

theorem State.commitCancels_commits (s : State) (p i : Nat) (v : CommitView) (ops : List Staged) :
    s.Commits p (s.commitCancels p i v ops) := by
  refine State.Commits.foldl _ _ (fun s x _ => ?_) s
  split
  · exact s.onStaged_commits p i _ v _ (s.cancelStream_commits ..)
  · exact .refl p s

theorem State.commitRetracts_commits (s : State) (p i : Nat) (v : CommitView) (ops : List Staged) :
    s.Commits p (s.commitRetracts p i v ops) := by
  refine State.Commits.foldl _ _ (fun s x _ => ?_) s
  split
  · refine s.onStaged_commits p i _ v _ ?_
    split
    · exact .refl p s
    · exact (s.withdraw_stores ..).commits p
  · exact .refl p s

theorem State.commitSpeaks_commits (s : State) (p i : Nat) (v : CommitView) (e0 : Nat → Nat) :
    s.Commits p (s.commitSpeaks p i v e0) := by
  unfold State.commitSpeaks
  dsimp only
  refine State.Commits.trans (State.Commits.foldl _ _ (fun t x _ => (t.event_notes ..).commits p) s)
    (State.Commits.foldl _ _ (fun t sid _ => ?_) _)
  have h := State.Commits.foldl (p := p) ((sortBy SpeakEntry.before (s.partAt p).speak).filter fun x => entryNat x.bytes 8 2 = sid)
    (fun t x => t.publish p ((s.partAt p).res i).ctx ((s.partAt p).res i).lag x) (fun t x _ => t.publish_commits ..) t
  generalize List.foldl _ t _ = u at h ⊢
  split
  · exact h.trans ((u.publishWord_notes ..).commits p)
  · exact h

theorem State.commitFlip_notes (s : State) (p i : Nat) : s.Notes (s.commitFlip p i) := by
  unfold State.commitFlip
  dsimp only
  split
  · exact (s.setCtxWord_notes ..).trans (State.uncache_notes ..)
  · exact .refl s

/-- A fold that also carries a view. -/
theorem State.Commits.foldl_view {α β : Type} {p : Nat} (l : List α) (f : State × β → α → State × β)
    (h : ∀ y x, State.Commits p y.1 (f y x).1) (y : State × β) : State.Commits p y.1 (l.foldl f y).1 :=
  List.foldlRecOn l f (motive := fun z => State.Commits p y.1 z.1) (.refl p y.1) fun z hz x _ => hz.trans (h z x)

/-- A consumed entry that resets its stream: the current one, without poison, with RESET (R38). -/
def goodReset : Option (List Byte × Bool) → Bool
  | some (bs, false) => (entryFlags bs).testBit flReset
  | _ => false

/-- The reset of a stream that a consumed entry asks for: its pointer moves past it (R38). -/
def State.takeReset (s : State) (p i c : Nat) (a : AnchorStream) (late : Nat) : State :=
  ((s.resetStream p i a.sid).count c a.sid stLate late).setSt c a.sid stRp (a.rp + late + 1)

theorem State.commitResets_eq (s : State) (p i : Nat) (v : CommitView) :
    s.commitResets p i v =
      let r := (s.partAt p).res i
      r.atAnchor.foldl (fun y a =>
        let x := y.1.consumed r.ctx a.sid a
        if y.1.active r.ctx a.sid && !y.2.resets.contains a.sid && goodReset x.2 then
          (y.1.takeReset p i r.ctx a x.1, { y.2 with resets := a.sid :: y.2.resets })
        else y) (s, { v with resets := v.before.filter r.resets.contains }) := by
  unfold State.commitResets State.takeReset
  generalize State.consumed = consumed
  generalize State.setSt = setSt
  generalize State.count = count
  extract_lets r c
  refine congrFun (congrFun (congrArg List.foldl ?_) _) r.atAnchor
  funext y a
  obtain ⟨s, v⟩ := y
  show (if _ then _ else _) = if _ then _ else _
  generalize consumed s _ a.sid a = x
  obtain ⟨late, cur⟩ := x
  unfold goodReset
  rcases cur with _ | ⟨bs, _ | _⟩
  · simp only [Bool.and_false, Bool.false_eq_true, if_false, ite_self]
  · simp only [Bool.and_eq_true, ite_and]
    rfl
  · simp only [Bool.and_false, Bool.false_eq_true, if_false, ite_self]

/-- A stream's pointers move past what it consumed, the skipped run and perhaps a current entry (R26). -/
def State.movePointers (s : State) (c : Nat) (a : AnchorStream) (late : Nat) (current : Bool) : State :=
  let s := (s.count c a.sid stLate late).setSt c a.sid stRp (a.rp + late + (if current = true then 1 else 0))
  let s := if current = true then s else s.count c a.sid stStarved 1
  s.setSt c a.sid stN (a.n + 1)

theorem State.commitPointers_eq (s : State) (p i : Nat) (v : CommitView) :
    s.commitPointers p i v =
      let r := (s.partAt p).res i
      r.atAnchor.foldl (fun s a =>
        if s.active r.ctx a.sid && !v.resets.contains a.sid && !(v.born.any fun b => b.1 = a.sid) then
          s.movePointers r.ctx a (s.consumed r.ctx a.sid a).1 (s.consumed r.ctx a.sid a).2.isSome
        else s) s := by
  unfold State.commitPointers State.movePointers
  generalize State.consumed = consumed
  generalize State.setSt = setSt
  generalize State.count = count
  extract_lets r c
  refine congrFun (congrFun (congrArg List.foldl ?_) s) r.atAnchor
  funext s a
  generalize consumed s _ a.sid a = x
  obtain ⟨late, cur⟩ := x
  rfl

theorem State.takeReset_commits (s : State) (p i c : Nat) (a : AnchorStream) (late : Nat) :
    s.Commits p (s.takeReset p i c a late) := by
  unfold State.takeReset
  have h := s.resetStream_commits p i a.sid
  generalize s.resetStream p i a.sid = t at h ⊢
  exact h.trans (((t.count_notes ..).trans (State.setSt_notes ..)).commits p)

theorem State.commitResets_commits (s : State) (p i : Nat) (v : CommitView) : s.Commits p (s.commitResets p i v).1 := by
  rw [s.commitResets_eq]
  refine State.Commits.foldl_view _ _ (fun y a => ?_) (s, _)
  dsimp only
  split
  · exact y.1.takeReset_commits ..
  · exact .refl p y.1

/-- A staged SFORK at the commit (R40). flip is the half that was read during the step. -/
def State.forkOne (s : State) (p i c : Nat) (flip : Bool) (v : CommitView) (sid : Nat) : State × CommitView :=
  if (v.before.contains sid && !s.active c sid) || v.resets.contains sid then (s.event p c .forkDropped sid none none, v)
  else if s.active c sid && !(v.born.any fun b => b.1 = sid) then
    match sids.find? fun n => s.st c n stState = 3 with
    | some child => (s.createChild p i sid child flip, { v with born := v.born ++ [(child, sid)] })
    | none => (s.event p c .forkDropped sid none none, v)
  else (s.event p c .noStream sid none none, v)

theorem State.forkOne_stores (s : State) (p i c : Nat) (flip : Bool) (v : CommitView) (sid : Nat) :
    s.Stores (s.forkOne p i c flip v sid).1 := by
  have hevent := fun e => (s.event_notes p c e sid none none).toStores
  unfold State.forkOne
  split
  · dsimp only
    exact hevent .forkDropped
  · split
    · split
      · next child _ =>
        dsimp only
        exact s.createChild_stores p i sid child flip
      · dsimp only
        exact hevent .forkDropped
    · dsimp only
      exact hevent .noStream

/-- The stream that a staged effect forks. -/
def StageOp.forked : StageOp → Option Nat
  | .fork sid => some sid
  | _ => none

theorem State.commitForks_eq (s : State) (p i : Nat) (v : CommitView) (ops : List Staged) :
    s.commitForks p i v ops =
      let c := ((s.partAt p).res i).ctx
      ops.foldl (fun y x => x.op.forked.elim y fun sid => y.1.forkOne p i c (decide (s.flipOf c = 1)) y.2 sid) (s, v) := by
  unfold State.commitForks State.forkOne
  generalize State.event = event
  generalize State.createChild = createChild
  extract_lets c flip
  refine congrFun (congrFun (congrArg List.foldl ?_) _) ops
  funext y x
  obtain ⟨s, v⟩ := y
  obtain ⟨org, op⟩ := x
  cases op <;> rfl

theorem State.commitForks_commits (s : State) (p i : Nat) (v : CommitView) (ops : List Staged) :
    s.Commits p (s.commitForks p i v ops).1 := by
  rw [s.commitForks_eq]
  refine State.Commits.foldl_view _ _ (fun y x => ?_) (s, v)
  cases x.op.forked with
  | none => exact .refl p y.1
  | some sid => exact (y.1.forkOne_stores ..).commits p

theorem State.movePointers_notes (s : State) (c : Nat) (a : AnchorStream) (late : Nat) (current : Bool) :
    s.Notes (s.movePointers c a late current) := by
  unfold State.movePointers
  dsimp only
  generalize a.rp + late + _ = rp
  have h := (s.count_notes c a.sid stLate late).trans (State.setSt_notes _ c a.sid stRp rp)
  generalize State.setSt _ c a.sid stRp rp = t at h ⊢
  split
  · exact h.trans (t.setSt_notes ..)
  · exact (h.trans (t.count_notes ..)).trans (State.setSt_notes ..)

theorem State.commitPointers_notes (s : State) (p i : Nat) (v : CommitView) : s.Notes (s.commitPointers p i v) := by
  rw [s.commitPointers_eq]
  refine State.Notes.foldl _ _ (fun t a _ => ?_) s
  split
  · exact t.movePointers_notes ..
  · exact .refl t

/-- The commit without its last step. -/
def State.commitStreams (s : State) (p i : Nat) : State :=
  let q := s.partAt p
  let ops := sortBy (fun (a b : Staged) => a.org.before b.org) q.stage
  let v : CommitView := { before := s.actives (q.res i).ctx, resets := [], born := [] }
  let a := (s.commitCancels p i v ops).commitResets p i v
  let b := a.1.commitForks p i a.2 ops
  let t := (b.1.commitRetracts p i b.2 ops).commitSpeaks p i b.2 fun sid => s.st (q.res i).ctx sid stE
  let u := (t.commitPointers p i b.2).commitFlip p i
  b.2.born.foldl (fun s x => s.settleChild (q.res i).ctx x.2 x.1) u

theorem State.commit_eq (s : State) (p i : Nat) : s.commit p i = (s.commitStreams p i).commitEnd p i := by
  unfold State.commit State.commitStreams
  generalize State.commitResets = resets
  generalize State.commitForks = forks
  dsimp only

theorem State.commitStreams_commits (s : State) (p i : Nat) : s.Commits p (s.commitStreams p i) := by
  unfold State.commitStreams
  extract_lets q ops v a b t u
  have ha : s.Commits p a.1 := (s.commitCancels_commits p i v ops).trans (State.commitResets_commits ..)
  have hb : s.Commits p b.1 := ha.trans (State.commitForks_commits ..)
  have ht : s.Commits p t := (hb.trans (State.commitRetracts_commits ..)).trans (State.commitSpeaks_commits ..)
  have hu : s.Commits p u := ht.trans (((t.commitPointers_notes ..).trans (State.commitFlip_notes ..)).commits p)
  exact hu.trans (State.Commits.foldl _ _ (fun s x _ => (s.settleChild_notes ..).commits p) u)

/-- The last step of a commit queues the staged request, and lowers the lag of a step that is not the slot's own. -/
theorem State.commitEnd_eq (s : State) (p i : Nat) :
    s.commitEnd p i =
      let q := s.partAt p
      let t := q.xstep.elim s fun prio => s.onPart p fun q => q.request (q.res i).ctx prio
      if q.step.kind = .owned then t else t.setLag p i ((q.res i).lag - 1) := by
  unfold State.commitEnd
  dsimp only
  cases (s.partAt p).xstep with
  | none => rfl
  | some prio => rfl

theorem State.commitEnd_cores (s : State) (p i : Nat) : (s.commitEnd p i).cores = s.cores := by
  rw [s.commitEnd_eq]
  dsimp only
  have h : ((s.partAt p).xstep.elim s fun prio => s.onPart p fun q => q.request (q.res i).ctx prio).cores = s.cores := by
    cases (s.partAt p).xstep with
    | none => rfl
    | some prio => rfl
  split
  · exact h
  · rw [(State.setLag_maps ..).cores, h]

/-- A partition whose step has committed. -/
def Partition.closed (q : Partition) : Partition :=
  { q with stage := [], speak := [], flip := false, xstep := none,
           step := { q.step with outcome := .committed, watching := false } }

theorem execStepCommit_eq (p : Nat) (s : State) (hp : (s.partAt p).phase = .run) (ho : (s.partAt p).step.outcome = .open_)
    (hb : (s.partAt p).step.anchor + (s.partAt p).step.rdz + 16 ≤ (s.partAt p).topo) :
    exec (.stepCommit p) s =
      .next (((s.commit p (s.partAt p).step.resident).onPart p Partition.closed).countNull p) :=
  if_pos ⟨hp, ho, hb⟩

/-- A commit ends its step (R17, R27). -/
theorem execStepCommit_ends (p : Nat) (s : State) (hp : (s.partAt p).phase = .run) (ho : (s.partAt p).step.outcome = .open_)
    (hb : (s.partAt p).step.anchor + (s.partAt p).step.rdz + 16 ≤ (s.partAt p).topo) :
    ∃ t, exec (.stepCommit p) s = .next t ∧ (t.partAt p).step.outcome = .committed ∧ (t.partAt p).stage = [] ∧
      (t.partAt p).speak = [] ∧ (t.partAt p).flip = false ∧ (t.partAt p).xstep = none ∧ t.cores = s.cores := by
  refine ⟨_, execStepCommit_eq p s hp ho hb, ?_⟩
  generalize (s.partAt p).step.resident = i
  have hcores : (s.commit p i).cores = s.cores := by
    rw [s.commit_eq, State.commitEnd_cores, (s.commitStreams_commits p i).cores]
  generalize s.commit p i = t at hcores ⊢
  have hsends := (t.onPart p Partition.closed).countNull_sends p
  generalize (t.onPart p Partition.closed).countNull p = u at hsends ⊢
  rw [State.partAt_of_parts hsends.parts, State.partAt_onPart_same]
  exact ⟨rfl, rfl, rfl, rfl, rfl, by rw [hsends.1]; exact hcores⟩

end Sys2Proof.Machine

namespace Sys2Proof.Machine

/-! ## The end of a slot (R30, R32, R34, R294, R306) -/

/-! ### The end of an urgent step -/

/-- From s to t residents, cores and service contexts may have changed, no entry was released, and nothing else of the
partition is different. -/
structure State.Closes (p : Nat) (s t : State) : Prop where
  part : t.partAt p = { s.partAt p with residents := (t.partAt p).residents }
  out : s.Unreleased t

theorem State.Closes.refl (p : Nat) (s : State) : s.Closes p s := ⟨rfl, .of_out rfl⟩

theorem State.Closes.trans {p : Nat} {s t u : State} (h : s.Closes p t) (k : t.Closes p u) : s.Closes p u :=
  ⟨by rw [k.part, h.part], h.out.trans k.out⟩

theorem State.Closes.of_parts {s t : State} (p : Nat) (h : t.parts = s.parts) (k : s.Unreleased t) : s.Closes p t :=
  ⟨by rw [State.partAt_of_parts h], k⟩

theorem State.Notes.closes {s t : State} (h : s.Notes t) (p : Nat) : s.Closes p t := .of_parts p h.parts h.unreleased

theorem State.Closes.foldl {α : Type} {p : Nat} (l : List α) (f : State → α → State) (h : ∀ s : State, ∀ x ∈ l, s.Closes p (f s x))
    (s : State) : s.Closes p (l.foldl f s) :=
  List.foldlRecOn l f (.refl p s) fun t ht x hx => ht.trans (h t x hx)

theorem State.onCore_closes (s : State) (p r c : Nat) (f : Core → Core) : s.Closes p (s.onCore r c f) :=
  .of_parts p (s.onCore_parts r c f) (.of_out rfl)

theorem State.cutCopies_closes (s : State) (p r c : Nat) : s.Closes p (s.cutCopies p r c) := by
  unfold State.cutCopies
  exact ((s.copyCuts_notes ..).closes p).trans (State.onCore_closes ..)

theorem State.holdColls_closes (s : State) (p : Nat) (k : Core) : s.Closes p (s.holdColls p k) := .of_parts p rfl (.of_out rfl)

theorem State.urgentEnd_part (s : State) (p : Nat) :
    (s.urgentEnd p).partAt p =
      { s.partAt p with
        residents := ((s.urgentEnd p).partAt p).residents, phase := .over, flits := [], overlaps := [], fault := none } ∧
      s.Unreleased (s.urgentEnd p) := by
  unfold State.urgentEnd
  extract_lets q i t u v
  have hcores : s.Closes p t := State.Closes.foldl _ _ (fun s x _ =>
    (((s.cutCopies_closes ..).trans ((State.copyCuts_notes ..).closes p)).trans (State.holdColls_closes ..)).trans
      (State.onCore_closes ..)) s
  have hfault : s.Closes p u := by
    show s.Closes p (if _ then _ else _)
    split
    · exact hcores.trans ⟨(t.faultRes_maps p i).part, t.faultRes_unreleased p i⟩
    · exact hcores
  have hresets : s.Closes p v := hfault.trans ⟨(u.finishResets_maps p i).part, u.finishResets_unreleased p i⟩
  rw [State.partAt_onPart_same, hresets.part]
  exact ⟨rfl, hresets.out.trans (.of_out rfl)⟩

/-! ### The slot's own end -/

/-- The phase of a partition after the end of its slot. -/
def State.endPhase (s : State) (p : Nat) : State :=
  s.onPart p fun q => { q with phase := if q.phase = .lead then .lead else .over }

theorem State.endPhase_part (s : State) (p : Nat) :
    (s.endPhase p).partAt p = { s.partAt p with phase := if (s.partAt p).phase = .lead then .lead else .over } :=
  s.partAt_onPart_same p _

theorem State.res_endPhase (s : State) (p j : Nat) : ((s.endPhase p).partAt p).res j = (s.partAt p).res j := by
  rw [s.endPhase_part]; rfl

/-- The slot's end but for the end of an urgent step. -/
def State.slotEnds (s : State) (p : Nat) : State :=
  let q := s.partAt p
  let s : State := s.onPart p fun q => { q with released := true }
  let s : State :=
    if q.skipped then s.settleFaults p
    else
      let s : State := match q.slotStep.2 with
        | some (.owned, i) => s.releaseSlot p i q.slotStep.1 q.slotBegun q.svcFault
        | _ => s
      let s : State :=
        if q.slotBegun ∧ q.slotStep.2.isSome ∧ q.slotStep.1.outcome ≠ .committed ∧ q.slotStep.1.outcome ≠ .none then
          s.withdrawUnissued p
        else s
      let s : State := s.settleFaults p
      q.validIdx.foldl (fun s i => s.finishResets p i) s
  s.endPhase p

theorem State.release_eq (s : State) (p : Nat) :
    s.release p = (if (s.partAt p).urgentOver then s.urgentEnd p else s).slotEnds p := by
  unfold State.release State.slotEnds
  generalize State.settleFaults = settleFaults
  generalize State.withdrawUnissued = withdrawUnissued
  generalize State.releaseSlot = releaseSlot
  generalize State.finishResets = finishResets
  generalize (if (s.partAt p).urgentOver then s.urgentEnd p else s) = u
  dsimp only
  rfl

/-- Resets finish one resident after another. -/
def State.finishAll (s : State) (p : Nat) (l : List Nat) : State := l.foldl (fun s i => s.finishResets p i) s

theorem State.finishAll_maps (s : State) (p : Nat) (l : List Nat) : s.Maps p (s.finishAll p l) :=
  State.Maps.foldl l _ (fun s i _ => s.finishResets_maps p i) s

theorem State.res_finishAll (s : State) (p : Nat) (l : List Nat) (j : Nat) :
    ((s.finishAll p l).partAt p).res j =
      { (s.partAt p).res j with resets := if j ∈ l then [] else ((s.partAt p).res j).resets } := by
  unfold State.finishAll
  induction l generalizing s with
  | nil => rfl
  | cons i l ih =>
    rw [List.foldl_cons, ih, s.res_finishResets]
    by_cases hj : j = i
    · subst hj; simp
    · simp [hj]

theorem State.finishAll_unreleased (s : State) (p : Nat) (l : List Nat) : s.Unreleased (s.finishAll p l) :=
  State.Unreleased.foldl l _ (fun s i _ => s.finishResets_unreleased p i) s

/-- What the owner's slot releases, with the step and the plan that the slot's end judges. -/
def State.ownerReleases (s : State) (p : Nat) (q : Partition) : State :=
  match q.slotStep.2 with
  | some (.owned, i) => s.releaseSlot p i q.slotStep.1 q.slotBegun q.svcFault
  | _ => s

/-- The collectives of a step that did not commit are withdrawn. -/
def State.withdraws (s : State) (p : Nat) (q : Partition) : State :=
  if q.slotBegun ∧ q.slotStep.2.isSome ∧ q.slotStep.1.outcome ≠ .committed ∧ q.slotStep.1.outcome ≠ .none then
    s.withdrawUnissued p
  else s

theorem State.slotEnds_of_skipped (s : State) (p : Nat) (h : (s.partAt p).skipped = true) :
    s.slotEnds p = ((s.onPart p fun q => { q with released := true }).settleFaults p).endPhase p := by
  unfold State.slotEnds
  dsimp only
  rw [if_pos h]

theorem State.slotEnds_of_not_skipped (s : State) (p : Nat) (h : (s.partAt p).skipped = false) :
    s.slotEnds p =
      (((((s.onPart p fun q => { q with released := true }).ownerReleases p (s.partAt p)).withdraws p (s.partAt p)).settleFaults
        p).finishAll p (s.partAt p).validIdx).endPhase p := by
  unfold State.slotEnds
  dsimp only
  rw [if_neg (by rw [h]; exact Bool.false_ne_true)]
  rfl

theorem State.ownerReleases_maps (s : State) (p : Nat) (q : Partition) : s.Maps p (s.ownerReleases p q) := by
  unfold State.ownerReleases
  split
  · exact s.releaseSlot_maps ..
  · exact .refl p s

theorem State.withdraws_sends (s : State) (p : Nat) (q : Partition) : s.Sends (s.withdraws p q) := by
  unfold State.withdraws
  split
  · exact s.withdrawUnissued_sends p
  · exact .refl s

theorem Partition.toFault_with (q : Partition) (b : Bool) (rs : SMap Resident) :
    ({ q with released := b, residents := rs } : Partition).toFault = q.toFault := rfl

/-- The end of a slot that is not skipped, up to what its faults leave. -/
def State.released (s : State) (p : Nat) : State :=
  ((s.onPart p fun q => { q with released := true }).ownerReleases p (s.partAt p)).withdraws p (s.partAt p)

theorem State.released_part (s : State) (p : Nat) :
    (s.released p).partAt p = { s.partAt p with released := true, residents := ((s.released p).partAt p).residents } := by
  unfold State.released
  rw [State.partAt_of_parts (State.withdraws_sends ..).parts, (State.ownerReleases_maps ..).part, State.partAt_onPart_same]

theorem State.slotEnds_part (s : State) (p : Nat) :
    (s.slotEnds p).partAt p =
      { s.partAt p with
        residents := ((s.slotEnds p).partAt p).residents, released := true, fault := none, svcFault := false
        phase := if (s.partAt p).phase = .lead then .lead else .over } := by
  cases h : (s.partAt p).skipped
  · rw [s.slotEnds_of_not_skipped p h, ← State.released, State.endPhase_part, (State.finishAll_maps ..).part,
      State.settleFaults_part, State.released_part]
  · rw [s.slotEnds_of_skipped p h, State.endPhase_part, State.settleFaults_part, State.partAt_onPart_same]

/-- The residents after a slot's end: faults take states, resets are finished where the slot is not skipped. -/
theorem State.res_slotEnds (s : State) (p j : Nat) (h : (s.partAt p).skipped = false) :
    ((s.slotEnds p).partAt p).res j = { ((s.released p).partAt p).res j with
      state := if j ∈ (s.partAt p).toFault then .faulted else (((s.released p).partAt p).res j).state
      resets := if j ∈ (s.partAt p).validIdx then [] else (((s.released p).partAt p).res j).resets } := by
  have hfault : ((s.released p).partAt p).toFault = (s.partAt p).toFault := by
    rw [s.released_part]; exact Partition.toFault_with ..
  have hend := s.slotEnds_of_not_skipped p h
  rw [← State.released] at hend
  rw [hend, State.res_endPhase, State.res_finishAll, State.res_settleFaults, hfault]

theorem State.res_slotEnds_of_skipped (s : State) (p j : Nat) (h : (s.partAt p).skipped = true) :
    ((s.slotEnds p).partAt p).res j = { (s.partAt p).res j with
      state := if j ∈ (s.partAt p).toFault then .faulted else ((s.partAt p).res j).state } := by
  have hpart := s.partAt_onPart_same p fun q => { q with released := true }
  rw [s.slotEnds_of_skipped p h, State.res_endPhase, State.res_settleFaults, hpart]
  rfl

theorem State.slotEnds_of_skipped_unreleased (s : State) (p : Nat) (h : (s.partAt p).skipped = true) :
    s.Unreleased (s.slotEnds p) := by
  rw [s.slotEnds_of_skipped p h]
  have hmark : s.Unreleased (s.onPart p fun q => { q with released := true }) := .of_out rfl
  generalize s.onPart p _ = t at hmark ⊢
  have hfaults := hmark.trans (t.settleFaults_unreleased p)
  generalize t.settleFaults p = u at hfaults ⊢
  exact hfaults.trans (.of_out rfl)

theorem State.released_out_slotEnds (s : State) (p : Nat) (h : (s.partAt p).skipped = false) :
    (s.released p).out <+: (s.slotEnds p).out := by
  rw [s.slotEnds_of_not_skipped p h, ← State.released]
  exact ((State.settleFaults_unreleased ..).trans (State.finishAll_unreleased ..)).1

end Sys2Proof.Machine

namespace Sys2Proof.Machine

/-! ## What a slot's end leaves of its partition -/

/-- The partition at the end of a slot whose owner is resident i, with no step frozen. -/
structure Partition.Owned (q : Partition) (i : Nat) : Prop where
  frozen : q.frozen = []
  plan : q.plan = some (.owned, i)

theorem Partition.Owned.slotStep {q : Partition} {i : Nat} (h : q.Owned i) : q.slotStep = (q.step, some (.owned, i)) := by
  unfold Partition.slotStep
  rw [h.frozen, h.plan]
  rfl

theorem Partition.Owned.slotBegun {q : Partition} {i : Nat} (h : q.Owned i) :
    q.slotBegun = true ↔ q.phase ≠ .lead ∧ q.step.bound = true := by
  unfold Partition.slotBegun
  rw [h.slotStep, h.frozen]
  simp

theorem Partition.Owned.urgentOver {q : Partition} {i : Nat} (h : q.Owned i) : q.urgentOver = false := by
  unfold Partition.urgentOver
  rw [h.frozen]

theorem Partition.Owned.toFault {q : Partition} {i : Nat} (h : q.Owned i) (hs : q.svcFault = false) :
    q.toFault = if q.slotBegun = true ∧ q.step.outcome = .faulted then [i] else [] := by
  unfold Partition.toFault
  rw [h.slotStep, hs, if_neg Bool.false_ne_true]
  rfl

/-- The partition's slot is marked released, and its memory and residents are as they were. -/
def State.marked (s : State) (p : Nat) : State := s.onPart p fun q => { q with released := true }

theorem State.marked_part (s : State) (p : Nat) : (s.marked p).partAt p = { s.partAt p with released := true } :=
  s.partAt_onPart_same p _

theorem State.res_marked (s : State) (p j : Nat) : ((s.marked p).partAt p).res j = (s.partAt p).res j := by
  rw [s.marked_part]; rfl

theorem State.marked_actives (s : State) (p c : Nat) : (s.marked p).actives c = s.actives c := rfl

/-- How the owner's step counts at its slot's end. -/
def Partition.ended (q : Partition) (i : Nat) : StepEnd := slotOutcome q.step q.slotBegun (q.res i)

/-- The step as its releases see it: nothing is published where it never began. -/
def Partition.judged (q : Partition) : Step := if q.slotBegun = true then q.step else { q.step with published := [] }

/-- The state after the owner's releases. -/
def State.ownerPlayed (s : State) (p i : Nat) : State :=
  let q := s.partAt p
  (s.marked p).releaseAll p i (decide (q.ended i = .committed)) q.judged (s.actives (q.res i).ctx)

theorem State.ownerPlayed_part (s : State) (p i : Nat) : (s.ownerPlayed p i).partAt p = { s.partAt p with released := true } := by
  unfold State.ownerPlayed
  dsimp only
  rw [(State.releaseAll_stores ..).partAt, s.marked_part]

theorem State.res_ownerPlayed (s : State) (p i j : Nat) : ((s.ownerPlayed p i).partAt p).res j = (s.partAt p).res j := by
  rw [s.ownerPlayed_part]; rfl

/-- Where the slot releases, the lag rises after a miss. -/
theorem State.released_of_owner (s : State) (p i : Nat) (h : (s.partAt p).Owned i)
    (hr : slotReleases (s.partAt p).step (s.partAt p).slotBegun ((s.partAt p).res i) = true) :
    s.released p =
      (if (s.partAt p).ended i ≠ .none ∧ (s.partAt p).ended i ≠ .committed then
        (s.ownerPlayed p i).missed p i (decide ((s.partAt p).ended i = .faulted) || (s.partAt p).svcFault)
      else s.ownerPlayed p i).withdraws p (s.partAt p) := by
  have howner : (s.marked p).ownerReleases p (s.partAt p) =
      (s.marked p).releaseSlot p i (s.partAt p).step (s.partAt p).slotBegun (s.partAt p).svcFault := by
    unfold State.ownerReleases
    rw [h.slotStep]
  unfold State.released
  rw [← State.marked, howner, State.releaseSlot_eq]
  dsimp only
  rw [s.res_marked, if_pos hr, s.marked_actives]
  rfl

/-- Every active stream of the owner releases an entry. -/
theorem State.mem_out_slotEnds (s : State) (p i : Nat) (h : (s.partAt p).Owned i) (hk : (s.partAt p).skipped = false)
    (hr : slotReleases (s.partAt p).step (s.partAt p).slotBegun ((s.partAt p).res i) = true) (sid : Nat)
    (hsid : sid ∈ s.actives ((s.partAt p).res i).ctx) :
    ∃ bs, OutMsg.release ((s.partAt p).res i).ctx sid bs ∈ (s.slotEnds p).out := by
  obtain ⟨bs, hbs⟩ := (s.marked p).mem_out_releaseAll p i (decide ((s.partAt p).ended i = .committed)) (s.partAt p).judged _ sid hsid
  rw [s.res_marked] at hbs
  refine ⟨bs, (s.released_out_slotEnds p hk).subset ?_⟩
  rw [s.released_of_owner p i h hr]
  refine (State.withdraws_sends ..).2.1.subset ?_
  split
  · exact (State.missed_maps ..).out.subset hbs
  · exact hbs

theorem State.res_released_of_missed (s : State) (p i : Nat) (h : (s.partAt p).Owned i)
    (hr : slotReleases (s.partAt p).step (s.partAt p).slotBegun ((s.partAt p).res i) = true)
    (hm : (s.partAt p).ended i ≠ .none ∧ (s.partAt p).ended i ≠ .committed) :
    ((s.released p).partAt p).res i = { (s.partAt p).res i with
      lag := min 8 (((s.partAt p).res i).lag + 1)
      state := if 8 ≤ ((s.partAt p).res i).lag + 1 ∧
          (decide ((s.partAt p).ended i = .faulted) || (s.partAt p).svcFault) = false then .parked
        else ((s.partAt p).res i).state } := by
  rw [s.released_of_owner p i h hr, State.partAt_of_parts (State.withdraws_sends ..).parts, if_pos hm, State.res_missed,
    s.res_ownerPlayed]

theorem State.res_released_of_not_missed (s : State) (p i : Nat) (h : (s.partAt p).Owned i)
    (hr : slotReleases (s.partAt p).step (s.partAt p).slotBegun ((s.partAt p).res i) = true)
    (hm : ¬((s.partAt p).ended i ≠ .none ∧ (s.partAt p).ended i ≠ .committed)) :
    ((s.released p).partAt p).res i = (s.partAt p).res i := by
  rw [s.released_of_owner p i h hr, State.partAt_of_parts (State.withdraws_sends ..).parts, if_neg hm, s.res_ownerPlayed]

/-! ### RELEASE -/

theorem execRelease_eq (p : Nat) (s : State) (hr : (s.partAt p).running = true) (hw : (s.partAt p).slotEnd ≤ s.wall)
    (hn : (s.partAt p).released = false) (hp : (s.partAt p).phase ≠ .gap) :
    exec (.release p) s = .next ((if (s.partAt p).urgentOver then s.urgentEnd p else s).slotEnds p) := by
  rw [← s.release_eq]
  exact if_pos ⟨hr, hw, by rw [hn]; rfl, hp⟩

/-- What the end of a slot finds: an urgent step that is over has ended. -/
def State.settled (s : State) (p : Nat) : State := if (s.partAt p).urgentOver then s.urgentEnd p else s

theorem State.settled_keeps (s : State) (p : Nat) :
    ((s.settled p).partAt p).skipped = (s.partAt p).skipped ∧ ((s.settled p).partAt p).svcFault = (s.partAt p).svcFault ∧
      ((s.settled p).partAt p).validIdx = (s.partAt p).validIdx ∧ s.Unreleased (s.settled p) := by
  unfold State.settled
  split
  · obtain ⟨hpart, hout⟩ := s.urgentEnd_part p
    rw [hpart]
    exact ⟨rfl, rfl, rfl, hout⟩
  · exact ⟨rfl, rfl, rfl, .of_out rfl⟩

theorem State.settled_of_owned (s : State) (p i : Nat) (h : (s.partAt p).Owned i) : s.settled p = s := by
  unfold State.settled
  rw [h.urgentOver]
  rfl

theorem State.state_slotEnds_of_toFault (s : State) (p i : Nat) (h : i ∈ (s.partAt p).toFault) :
    (((s.slotEnds p).partAt p).res i).state = .faulted := by
  cases hk : (s.partAt p).skipped
  · rw [s.res_slotEnds p i hk]
    exact if_pos h
  · rw [s.res_slotEnds_of_skipped p i hk]
    exact if_pos h

/-- The end of an owned slot (R30, R32, R34, R294). -/
theorem State.slotEnds_of_owned (s : State) (p i : Nat) (h : (s.partAt p).Owned i) :
    let q := s.partAt p
    let t := s.slotEnds p
    let ran : Prop := q.phase ≠ .lead ∧ q.step.bound = true
    (q.svcFault = false → ran → q.step.outcome = .faulted → ((t.partAt p).res i).state = .faulted) ∧
    (q.skipped = true → ((t.partAt p).res i).lag = (q.res i).lag) ∧
    ∀ missed : Prop, q.skipped = false →
      (ran ∧ q.step.releases = true ∧ (missed ↔ q.step.outcome ≠ .none ∧ q.step.outcome ≠ .committed)) ∨
        (q.phase = .lead ∧ (q.res i).loaded = true ∧ (q.res i).state ≠ .inactive ∧ (missed ↔ (q.res i).state = .active)) →
      (∀ sid ∈ s.actives (q.res i).ctx, ∃ bs, OutMsg.release (q.res i).ctx sid bs ∈ t.out) ∧
        (missed → ((t.partAt p).res i).lag = min 8 ((q.res i).lag + 1) ∧
          (7 ≤ (q.res i).lag → q.step.outcome ≠ .faulted → q.svcFault = false → ((t.partAt p).res i).state = .parked)) ∧
        (¬ missed → ((t.partAt p).res i).lag = (q.res i).lag) := by
  intro q t ran
  have hbegun := h.slotBegun
  refine ⟨fun hs hran ho => s.state_slotEnds_of_toFault p i ?_, fun hk => ?_, fun missed hk hcase => ?_⟩
  · rw [h.toFault hs, if_pos ⟨hbegun.mpr hran, ho⟩]
    exact List.mem_singleton_self i
  · show ((((s.slotEnds p).partAt p).res i)).lag = _
    rw [s.res_slotEnds_of_skipped p i hk]
  · have hcount : slotReleases q.step q.slotBegun (q.res i) = true ∧
        (missed ↔ q.ended i ≠ .none ∧ q.ended i ≠ .committed) ∧ (q.step.outcome ≠ .faulted → q.ended i ≠ .faulted) := by
      unfold slotReleases Partition.ended slotOutcome
      rcases hcase with ⟨hran, hrel, hm⟩ | ⟨hlead, hload, hstate, hm⟩
      · rw [if_pos (hbegun.mpr hran), if_pos (hbegun.mpr hran)]
        exact ⟨hrel, hm, id⟩
      · have hnot : ¬q.slotBegun = true := fun hb => (hbegun.mp hb).1 hlead
        rw [if_neg hnot, if_neg hnot]
        refine ⟨by rw [hload, decide_eq_true hstate]; rfl, hm.trans ?_, fun _ => ?_⟩
        · split <;> simp_all
        · split <;> exact nofun
    obtain ⟨hrel, hmiss, hfaulted⟩ := hcount
    have hres := s.res_slotEnds p i hk
    refine ⟨fun sid hsid => s.mem_out_slotEnds p i h hk hrel sid hsid, fun hm => ⟨?_, fun hlag ho hs => ?_⟩, fun hm => ?_⟩
    · show ((((s.slotEnds p).partAt p).res i)).lag = _
      rw [hres, s.res_released_of_missed p i h hrel (hmiss.mp hm)]
    · show ((((s.slotEnds p).partAt p).res i)).state = _
      rw [hres, s.res_released_of_missed p i h hrel (hmiss.mp hm), h.toFault hs, if_neg (show ¬(_ ∧ _) from fun x => ho x.2)]
      dsimp only
      rw [if_neg List.not_mem_nil, if_pos ⟨Nat.succ_le_succ hlag, by rw [hs, Bool.or_false]; exact decide_eq_false (hfaulted ho)⟩]
    · show ((((s.slotEnds p).partAt p).res i)).lag = _
      rw [hres, s.res_released_of_not_missed p i h hrel fun x => hm (hmiss.mpr x)]

end Sys2Proof.Machine

namespace Sys2Proof.Machine

/-! ## What the slot grid does to a partition -/

/-- A row of the grid is the same whatever a missing one would be. -/
theorem Partition.row_eq (q : Partition) {k : Nat} (h : k < q.slots.length) (x y : SlotRow) : q.slots.getD k x = q.slots.getD k y := by
  rw [List.getD_eq_getElem _ _ h, List.getD_eq_getElem _ _ h]

/-- A slot before the frame's last ends its row's length after its start (R15). -/
theorem Partition.slotEnd_inSlot_of_lt (q : Partition) {k : Nat} (h : k + 1 < q.slots.length) :
    (q.inSlot k).slotEnd = q.slotEnd + (q.slots.getD k ⟨0, none⟩).us * 10 ^ 9 := by
  unfold Partition.inSlot
  dsimp only
  rw [q.row_eq (Nat.lt_of_succ_lt h) ⟨1000, none⟩ ⟨0, none⟩, decide_eq_false (Nat.not_le.mpr h), if_neg Bool.false_ne_true,
    Int.add_zero, Int.toNat_natCast]
  rfl

/-- The frame's last slot takes the correction of the frame's start (R366). -/
theorem Partition.inSlot_last (q : Partition) {k : Nat} (h : q.slots.length = k + 1) :
    (q.inSlot k).shift = 0 ∧
      (q.inSlot k).slotEnd = ((q.slotEnd : Int) + (q.slots.getD k ⟨0, none⟩).us * 10 ^ 9 + q.shift).toNat := by
  unfold Partition.inSlot
  dsimp only
  rw [q.row_eq (h ▸ Nat.lt_succ_self k) ⟨1000, none⟩ ⟨0, none⟩, decide_eq_true h.le, if_pos rfl, if_pos rfl]
  exact ⟨rfl, by push_cast; rfl⟩

/-- RELEASE at a slot's end (R30, R32, R34, R294, R306). -/
theorem execRelease_acts (p : Nat) (s : State) (hr : (s.partAt p).running = true) (hw : (s.partAt p).slotEnd ≤ s.wall)
    (hn : (s.partAt p).released = false) (hp : (s.partAt p).phase ≠ .gap) :
    ∃ t, exec (.release p) s = .next t ∧ (t.partAt p).released = true ∧ (t.partAt p).fault = none ∧
      (t.partAt p).svcFault = false ∧
      ((s.partAt p).skipped = true → ∀ c sid bs, OutMsg.release c sid bs ∈ t.out → OutMsg.release c sid bs ∈ s.out) ∧
      ((s.partAt p).svcFault = true → ∀ i ∈ (s.partAt p).validIdx, ((t.partAt p).res i).state = .faulted) ∧
      ∀ i, (s.partAt p).Owned i → t = s.slotEnds p := by
  obtain ⟨hskip, hsvc, hvalid, hout⟩ := s.settled_keeps p
  refine ⟨(s.settled p).slotEnds p, execRelease_eq p s hr hw hn hp, ?_, ?_, ?_, fun hk c sid bs hm => ?_, fun hs i hi => ?_,
    fun i hi => by rw [s.settled_of_owned p i hi]⟩
  · rw [State.slotEnds_part]
  · rw [State.slotEnds_part]
  · rw [State.slotEnds_part]
  · exact (hout.trans ((s.settled p).slotEnds_of_skipped_unreleased p (hskip.trans hk))).2 c sid bs hm
  · refine (s.settled p).state_slotEnds_of_toFault p i ?_
    unfold Partition.toFault
    rw [hsvc, if_pos hs, hvalid]
    exact hi

/-- Settles O47: each event of the grid acts on its partition as its own lemma says. -/
theorem gridEventsAct : Obligations.GridEventsAct := by
  intro p s q
  refine ⟨fun hr hw hg => ⟨fun hk => ?_, fun hk => ?_, fun hk hn => ?_⟩, fun hl ht => ?_, fun kind i hp hb ht hplan hr ha hd => ?_,
    fun hp ho hb => ?_, fun hr hd hw => ?_, fun hr hw hn hp => ?_, fun hp hwt ho hl => ?_⟩
  · obtain ⟨t, hexec, hcores, hpart⟩ := execSlotStart_later p s hr hw hg (Nat.lt_of_succ_lt hk)
    refine ⟨t, hexec, ?_⟩
    rw [hpart]
    exact ⟨rfl, rfl, rfl, rfl, q.slotEnd_inSlot_of_lt hk, hcores⟩
  · obtain ⟨t, hexec, hcores, hpart⟩ := execSlotStart_later p s hr hw hg (by rw [← hk]; exact Nat.lt_succ_self _)
    refine ⟨t, hexec, ?_⟩
    rw [hpart]
    exact ⟨rfl, rfl, rfl, rfl, (q.inSlot_last hk.symm).1, (q.inSlot_last hk.symm).2, hcores⟩
  · obtain ⟨t, hexec, hcores, hslot, hframe, hstart, hfstart, hmap, hphase⟩ := execSlotStart_frame p s hr hw hg hk hn
    exact ⟨t, hexec, hslot, hframe, hstart, hfstart, hmap, hphase, hcores⟩
  · exact execTurn_begins p s hl ht
  · exact execTurn_binds p s kind i hp hb ht hplan hr ha hd
  · exact execStepCommit_ends p s hp ho hb
  · exact execDeadline_acts p s hr hd hw
  · obtain ⟨t, hexec, hrel, hfault, hsvc, hskip, hstates, howned⟩ := execRelease_acts p s hr hw hn hp
    refine ⟨t, hexec, hrel, hfault, hsvc, hskip, hstates, fun i hz hplan => ?_⟩
    rw [howned i ⟨hz, hplan⟩]
    exact s.slotEnds_of_owned p i ⟨hz, hplan⟩
  · exact execWatchdog_acts p s hp hwt ho hl

end Sys2Proof.Machine

namespace Sys2Proof.Machine

/-! ## Bytes and numbers (R3) -/

@[simp] theorem length_toLe (n x : Nat) : (toLe n x).length = n := by
  induction n generalizing x with
  | zero => rfl
  | succ n ih => rw [toLe, List.length_cons, ih]

theorem leNat_toLe (n x : Nat) : leNat (toLe n x) = x % 256 ^ n := by
  induction n generalizing x with
  | zero => rw [toLe, leNat, pow_zero, Nat.mod_one]
  | succ n ih =>
    rw [toLe, leNat, ih, BitVec.toNat_ofNat, pow_succ' 256, Nat.mod_mul (a := 256)]

theorem leNat_lt (bs : List Byte) : leNat bs < 256 ^ bs.length := by
  induction bs with
  | nil => exact Nat.one_pos
  | cons b bs ih =>
    rw [leNat, List.length_cons, pow_succ']
    have := b.isLt
    omega

theorem mem_range {a n x : Nat} : x ∈ range a n ↔ a ≤ x ∧ x < a + n := by
  induction n generalizing a with
  | zero => simp [range]
  | succ n ih =>
    rw [range, List.mem_cons, ih]
    omega

theorem range_nodup (a n : Nat) : (range a n).Nodup := by
  induction n generalizing a with
  | zero => exact List.nodup_nil
  | succ n ih =>
    rw [range, List.nodup_cons]
    exact ⟨fun h => absurd (mem_range.mp h).1 (by omega), ih _⟩

/-! ## Runs of bytes of a memory -/

@[simp] theorem Mem.length_bytes (m : SMap Byte) (a n : Nat) : (Mem.bytes m a n).length = n := by
  unfold Mem.bytes
  induction n generalizing a with
  | zero => rfl
  | succ n ih => rw [SMap.getAll, List.length_cons, ih]

theorem Mem.getElem_bytes (m : SMap Byte) (a n j : Nat) (h : j < (Mem.bytes m a n).length) :
    (Mem.bytes m a n)[j] = Mem.byte m (a + j) := by
  unfold Mem.bytes at h ⊢
  induction n generalizing a j with
  | zero => exact absurd h (Nat.not_lt_zero j)
  | succ n ih =>
    cases j with
    | zero => rfl
    | succ j =>
      simp only [SMap.getAll, List.getElem_cons_succ]
      rw [ih, Nat.add_assoc, Nat.add_comm 1 j]

/-- Two memories hold the same bytes in a run. -/
def Mem.Same (m m' : SMap Byte) (a n : Nat) : Prop := ∀ x, a ≤ x → x < a + n → Mem.byte m' x = Mem.byte m x

theorem Mem.Same.bytes_eq {m m' : SMap Byte} {a n : Nat} (h : Mem.Same m m' a n) : Mem.bytes m' a n = Mem.bytes m a n := by
  refine List.ext_getElem (by rw [Mem.length_bytes, Mem.length_bytes]) fun j hj _ => ?_
  rw [Mem.getElem_bytes, Mem.getElem_bytes]
  rw [Mem.length_bytes] at hj
  exact h _ (Nat.le_add_right a j) (Nat.add_lt_add_left hj a)

theorem Mem.Same.nat_eq {m m' : SMap Byte} {a n : Nat} (h : Mem.Same m m' a n) : Mem.nat m' a n = Mem.nat m a n := by
  unfold Mem.nat; rw [h.bytes_eq]

theorem Mem.Same.mono {m m' : SMap Byte} {a n b k : Nat} (h : Mem.Same m m' a n) (hl : a ≤ b) (hr : b + k ≤ a + n) :
    Mem.Same m m' b k := fun x hx hx' => h x (hl.trans hx) (lt_of_lt_of_le hx' hr)

theorem Mem.Same.trans {m m' m'' : SMap Byte} {a n : Nat} (h : Mem.Same m m' a n) (k : Mem.Same m' m'' a n) :
    Mem.Same m m'' a n := fun x hx hx' => (k x hx hx').trans (h x hx hx')

theorem Mem.put_same {m : SMap Byte} {a b n : Nat} {bs : List Byte} (h : a + bs.length ≤ b ∨ b + n ≤ a) :
    Mem.Same m (Mem.put m a bs) b n := fun x hx hx' => Mem.byte_put_outside m (by omega)

theorem Mem.putNat_same {m : SMap Byte} {a k b n v : Nat} (h : a + k ≤ b ∨ b + n ≤ a) : Mem.Same m (Mem.putNat m a k v) b n :=
  Mem.put_same (by rw [length_toLe]; exact h)

/-- What is read back of a run just written. -/
theorem Mem.bytes_put_same (m : SMap Byte) (a : Nat) (bs : List Byte) : Mem.bytes (Mem.put m a bs) a bs.length = bs := by
  refine List.ext_getElem (Mem.length_bytes ..) fun j hj hj' => ?_
  rw [Mem.getElem_bytes, Mem.byte_put, if_pos ⟨Nat.le_add_right a j, Nat.add_lt_add_left hj' a⟩, Nat.add_sub_cancel_left,
    List.getD_eq_getElem _ _ hj']

theorem Mem.nat_putNat_same (m : SMap Byte) (a n v : Nat) : Mem.nat (Mem.putNat m a n v) a n = v % 256 ^ n := by
  have h := Mem.bytes_put_same m a (toLe n v)
  rw [length_toLe] at h
  unfold Mem.nat Mem.putNat
  rw [h, leNat_toLe]

theorem Mem.nat_lt (m : SMap Byte) (a n : Nat) : Mem.nat m a n < 256 ^ n := by
  have h := leNat_lt (Mem.bytes m a n)
  rwa [Mem.length_bytes] at h

theorem Mem.byte_putNat_outside {m : SMap Byte} {a n v x : Nat} (h : x < a ∨ a + n ≤ x) :
    Mem.byte (Mem.putNat m a n v) x = Mem.byte m x :=
  Mem.byte_put_outside m (by rw [length_toLe]; exact h)

end Sys2Proof.Machine

namespace Sys2Proof.Machine

/-! ## Where a context's tables and rings stand

The operations of a commit and of a slot's end write the stream table, two places of the descriptor, word 0 of the translation
entry and the speaking rings and played records. With these areas apart (State.Laid), each field keeps its address. -/

/-- Address x lies in a run, a base and a length. -/
def In (y : Nat × Nat) (x : Nat) : Prop := y.1 ≤ x ∧ x < y.1 + y.2

theorem apart.not_in {y z : Nat × Nat} (h : apart y z) {x : Nat} (hx : In y x) : ¬In z x := fun hz => by
  obtain ⟨h1, h2⟩ := hx
  obtain ⟨h3, h4⟩ := hz
  rcases h with h | h <;> omega

theorem apart.symm {y z : Nat × Nat} (h : apart y z) : apart z y := Or.symm h

/-- The id is active or prepared, so that it has a speaking ring and a played record. -/
def State.Live (s : State) (c sid : Nat) : Prop := s.st c sid stState = 1 ∨ s.st c sid stState = 3

/-- The speaking ring with its publish word, and the played record, of an id. -/
def State.ringOf (s : State) (c sid : Nat) : Nat × Nat := (s.st c sid stSpk, 1032)
def State.playOf (s : State) (c sid : Nat) : Nat × Nat := (s.st c sid stPlay, 1024)

/-- The context's stream table, descriptor and translation entry. -/
def State.tableOf (s : State) (c : Nat) : Nat × Nat := (s.desc c 72 8, 65536)
def State.descOf (s : State) (c : Nat) : Nat × Nat := (s.ctxDesc c, 256)
def State.wordOf (s : State) (c : Nat) : Nat × Nat := (s.ctxWordAt c 0, 64)

/-- A stream's listening ring. -/
def State.listenOf (s : State) (c sid : Nat) : Nat × Nat := (s.st c sid stLring, 64 * 2 ^ s.st c sid stLlog)

theorem State.active_iff (s : State) (c sid : Nat) : s.active c sid = true ↔ s.st c sid stState = 1 := by
  show decide (s.st c sid stState = 1) = true ↔ _
  exact decide_eq_true_iff

theorem State.live_of_active {s : State} {c sid : Nat} (h : s.active c sid = true) : s.Live c sid := .inl ((s.active_iff c sid).mp h)

theorem State.regions_eq (s : State) (c : Nat) :
    s.regions c = s.tableOf c :: s.descOf c :: s.wordOf c ::
      ((List.range 512).filter fun sid => decide (s.st c sid stState = 1 ∨ s.st c sid stState = 3)).flatMap fun sid =>
        [s.ringOf c sid, s.playOf c sid] := rfl

theorem State.mem_regions_ring {s : State} {c sid : Nat} (hs : sid < 512) (hl : s.Live c sid) :
    s.ringOf c sid ∈ s.regions c ∧ s.playOf c sid ∈ s.regions c := by
  rw [s.regions_eq]
  have h : ∀ y ∈ [s.ringOf c sid, s.playOf c sid], y ∈ s.tableOf c :: s.descOf c :: s.wordOf c ::
      ((List.range 512).filter fun sid => decide (s.st c sid stState = 1 ∨ s.st c sid stState = 3)).flatMap fun sid =>
        [s.ringOf c sid, s.playOf c sid] := fun y hy =>
    List.mem_cons_of_mem _ (List.mem_cons_of_mem _ (List.mem_cons_of_mem _ (List.mem_flatMap.mpr
      ⟨sid, List.mem_filter.mpr ⟨List.mem_range.mpr hs, decide_eq_true hl⟩, hy⟩)))
  exact ⟨h _ List.mem_cons_self, h _ (List.mem_cons_of_mem _ List.mem_cons_self)⟩

/-- The table, the descriptor and the translation entry lie apart from each other and from every ring. -/
theorem State.Laid.tables {s : State} {c : Nat} (h : s.Laid c) :
    apart (s.tableOf c) (s.descOf c) ∧ apart (s.tableOf c) (s.wordOf c) ∧ apart (s.descOf c) (s.wordOf c) ∧
      ∀ sid, sid < 512 → s.Live c sid → ∀ y, y = s.ringOf c sid ∨ y = s.playOf c sid →
        apart (s.tableOf c) y ∧ apart (s.descOf c) y ∧ apart (s.wordOf c) y := by
  have hp := h.1
  rw [s.regions_eq, List.pairwise_cons, List.pairwise_cons, List.pairwise_cons] at hp
  obtain ⟨htable, hdesc, hword, -⟩ := hp
  have hring : ∀ sid, sid < 512 → s.Live c sid → ∀ y, y = s.ringOf c sid ∨ y = s.playOf c sid →
      y ∈ ((List.range 512).filter fun sid => decide (s.st c sid stState = 1 ∨ s.st c sid stState = 3)).flatMap fun sid =>
        [s.ringOf c sid, s.playOf c sid] := fun sid hs hl y hy =>
    List.mem_flatMap.mpr ⟨sid, List.mem_filter.mpr ⟨List.mem_range.mpr hs, decide_eq_true hl⟩, by
      rcases hy with rfl | rfl
      · exact List.mem_cons_self
      · exact List.mem_cons_of_mem _ List.mem_cons_self⟩
  refine ⟨htable _ List.mem_cons_self, htable _ (List.mem_cons_of_mem _ List.mem_cons_self), hdesc _ List.mem_cons_self,
    fun sid hs hl y hy => ⟨htable _ ?_, hdesc _ ?_, hword _ ?_⟩⟩
  · exact List.mem_cons_of_mem _ (List.mem_cons_of_mem _ (hring sid hs hl y hy))
  · exact List.mem_cons_of_mem _ (hring sid hs hl y hy)
  · exact hring sid hs hl y hy

/-- A ring lies apart from its played record. -/
theorem State.Laid.ring_play {s : State} {c sid : Nat} (h : s.Laid c) (hs : sid < 512) (hl : s.Live c sid) :
    apart (s.ringOf c sid) (s.playOf c sid) := by
  have hp := h.1
  rw [s.regions_eq, List.pairwise_cons, List.pairwise_cons, List.pairwise_cons] at hp
  obtain ⟨-, -, -, hp⟩ := hp
  have h := (List.pairwise_flatMap.mp hp).1 sid (List.mem_filter.mpr ⟨List.mem_range.mpr hs, decide_eq_true hl⟩)
  exact (List.pairwise_cons.mp h).1 _ List.mem_cons_self

/-- The rings and played records of two ids lie apart. -/
theorem State.Laid.rings {s : State} {c a b : Nat} (h : s.Laid c) (ha : a < 512) (hb : b < 512) (hla : s.Live c a)
    (hlb : s.Live c b) (hab : a ≠ b) : ∀ y, y = s.ringOf c a ∨ y = s.playOf c a → ∀ z, z = s.ringOf c b ∨ z = s.playOf c b → apart y z := by
  have hp := h.1
  rw [s.regions_eq, List.pairwise_cons, List.pairwise_cons, List.pairwise_cons] at hp
  obtain ⟨-, -, -, hp⟩ := hp
  have hall := (List.pairwise_flatMap.mp hp).2
  have : Std.Symm fun x y => ∀ u ∈ [s.ringOf c x, s.playOf c x], ∀ v ∈ [s.ringOf c y, s.playOf c y], apart u v :=
    ⟨fun x y hxy u hu v hv => (hxy v hv u hu).symm⟩
  intro y hy z hz
  refine hall.forall (List.mem_filter.mpr ⟨List.mem_range.mpr ha, decide_eq_true hla⟩)
    (List.mem_filter.mpr ⟨List.mem_range.mpr hb, decide_eq_true hlb⟩) hab y ?_ z ?_
  · simpa using hy
  · simpa using hz

/-- An active stream's listening ring lies apart from every region. -/
theorem State.Laid.listen {s : State} {c sid : Nat} (h : s.Laid c) (hs : sid < 512) (ha : s.active c sid = true) :
    apart (s.listenOf c sid) (s.tableOf c) ∧ apart (s.listenOf c sid) (s.descOf c) ∧ apart (s.listenOf c sid) (s.wordOf c) ∧
      ∀ z, z < 512 → s.Live c z → apart (s.listenOf c sid) (s.ringOf c z) ∧ apart (s.listenOf c sid) (s.playOf c z) := by
  have hall := ((h.2 sid hs).2 ha).2
  refine ⟨hall _ ?_, hall _ ?_, hall _ ?_, fun z hz hl => ⟨hall _ (mem_regions_ring hz hl).1, hall _ (mem_regions_ring hz hl).2⟩⟩
  · rw [s.regions_eq]; exact List.mem_cons_self
  · rw [s.regions_eq]; exact List.mem_cons_of_mem _ List.mem_cons_self
  · rw [s.regions_eq]; exact List.mem_cons_of_mem _ (List.mem_cons_of_mem _ List.mem_cons_self)

/-! ### What may be written -/

/-- The fields of the stream table that change: all but the addresses of rings and records, and what follows them. -/
def State.InTable (s : State) (c x : Nat) : Prop := In (s.tableOf c) x ∧ (x - s.desc c 72 8) % 128 < 80

/-- STATE, LAG and the bytes about them, and EVWP, of the descriptor (R278). -/
def State.InDesc (s : State) (c x : Nat) : Prop := In (s.ctxDesc c, 8) x ∨ In (s.ctxDesc c + 60, 4) x

/-- Word 0 of the translation entry, which holds FLIP (R318). -/
def State.InWord (s : State) (c x : Nat) : Prop := In (s.ctxWordAt c 0, 8) x

/-- The ring or the played record of an id. -/
def State.InRing (s : State) (c sid x : Nat) : Prop := In (s.ringOf c sid) x ∨ In (s.playOf c sid) x

/-- Word 0 of the translation entry, and every ring and played record. -/
def State.Loose (s : State) (c x : Nat) : Prop := s.InWord c x ∨ ∃ sid, sid < 512 ∧ s.Live c sid ∧ s.InRing c sid x

theorem State.InTable.in_table {s : State} {c x : Nat} (h : s.InTable c x) : In (s.tableOf c) x := h.1

theorem State.InDesc.in_desc {s : State} {c x : Nat} (h : s.InDesc c x) : In (s.descOf c) x := by
  rcases h with ⟨h1, h2⟩ | ⟨h1, h2⟩ <;> constructor <;> dsimp only [State.descOf] at * <;> omega

theorem State.InWord.in_word {s : State} {c x : Nat} (h : s.InWord c x) : In (s.wordOf c) x :=
  ⟨h.1, lt_of_lt_of_le h.2 (Nat.add_le_add_left (show 8 ≤ 64 by decide) _)⟩

/-- What lies apart from the translation entry and from every ring is not loose. -/
theorem State.not_loose {s : State} {c x : Nat} (hw : ¬s.InWord c x)
    (hr : ∀ sid, sid < 512 → s.Live c sid → ¬In (s.ringOf c sid) x ∧ ¬In (s.playOf c sid) x) : ¬s.Loose c x := by
  rintro (h | ⟨sid, hs, hl, h | h⟩)
  · exact hw h
  · exact (hr sid hs hl).1 h
  · exact (hr sid hs hl).2 h

/-! ### States that differ from one another there alone -/

/-- From s to t only fields of the stream table, of the descriptor and bytes of A are written, where the areas stand in s0. -/
structure State.Stays (s0 : State) (c : Nat) (A : Nat → Prop) (s t : State) : Prop where
  ctxbase : t.ctxbase = s.ctxbase
  mem : ∀ x, ¬s0.InTable c x → ¬s0.InDesc c x → ¬A x → Mem.byte t.mem x = Mem.byte s.mem x

theorem State.Stays.refl (s0 : State) (c : Nat) (A : Nat → Prop) (s : State) : s0.Stays c A s s := ⟨rfl, fun _ _ _ _ => rfl⟩

theorem State.Stays.trans {s0 s t u : State} {c : Nat} {A : Nat → Prop} (h : s0.Stays c A s t) (k : s0.Stays c A t u) :
    s0.Stays c A s u :=
  ⟨k.ctxbase.trans h.ctxbase, fun x ht hd hA => (k.mem x ht hd hA).trans (h.mem x ht hd hA)⟩

theorem State.Stays.mono {s0 s t : State} {c : Nat} {A B : Nat → Prop} (h : s0.Stays c A s t) (hAB : ∀ x, A x → B x) :
    s0.Stays c B s t := ⟨h.ctxbase, fun x ht hd hB => h.mem x ht hd fun hA => hB (hAB x hA)⟩

theorem State.Stays.of_mem {s0 s t : State} {c : Nat} {A : Nat → Prop} (hb : t.ctxbase = s.ctxbase) (hm : t.mem = s.mem) :
    s0.Stays c A s t := ⟨hb, fun x _ _ _ => by rw [hm]⟩

/-- A state that the operations on context c reach from s0: its areas lie apart, and every one stands where it stood. -/
structure State.Held (s0 : State) (c : Nat) (t : State) : Prop where
  laid : s0.Laid c
  stays : s0.Stays c (s0.Loose c) s0 t

theorem State.Laid.held {s0 : State} {c : Nat} (h : s0.Laid c) : s0.Held c s0 := ⟨h, .refl ..⟩

theorem State.Held.step {s0 t u : State} {c : Nat} {A : Nat → Prop} (h : s0.Held c t) (k : s0.Stays c A t u)
    (hA : ∀ x, A x → s0.Loose c x) : s0.Held c u := ⟨h.laid, h.stays.trans (k.mono hA)⟩

theorem State.Held.ctxDesc {s0 t : State} {c : Nat} (h : s0.Held c t) : t.ctxDesc c = s0.ctxDesc c := by
  unfold State.ctxDesc; rw [h.stays.ctxbase]

theorem State.Held.ctxWordAt {s0 t : State} {c : Nat} (h : s0.Held c t) (w : Nat) : t.ctxWordAt c w = s0.ctxWordAt c w := by
  unfold State.ctxWordAt; rw [h.stays.ctxbase]

section
variable {s0 : State} {c : Nat} (L : s0.Laid c)
include L

theorem State.Laid.desc_not_written {x : Nat} (h : In (s0.ctxDesc c + 8, 52) x ∨ In (s0.ctxDesc c + 64, 192) x) :
    ¬s0.InTable c x ∧ ¬s0.InDesc c x ∧ ¬s0.Loose c x := by
  obtain ⟨htd, -, hdw, hr⟩ := L.tables
  have hin : In (s0.descOf c) x := by
    rcases h with ⟨h1, h2⟩ | ⟨h1, h2⟩ <;> constructor <;> dsimp only [State.descOf] at * <;> omega
  refine ⟨fun ht => htd.not_in ht.in_table hin, fun hd => ?_, State.not_loose (fun hw => hdw.not_in hin hw.in_word) fun sid hs hl =>
    ⟨((hr sid hs hl _ (.inl rfl)).2.1).not_in hin, ((hr sid hs hl _ (.inr rfl)).2.1).not_in hin⟩⟩
  unfold State.InDesc In at hd
  unfold In at h
  dsimp only at h hd
  omega

theorem State.Laid.word_not_written {x : Nat} (h : In (s0.ctxWordAt c 0 + 8, 56) x) :
    ¬s0.InTable c x ∧ ¬s0.InDesc c x ∧ ¬s0.Loose c x := by
  obtain ⟨-, htw, hdw, hr⟩ := L.tables
  have hin : In (s0.wordOf c) x := ⟨(Nat.le_add_right _ _).trans h.1, by have := h.2; dsimp only [State.wordOf] at *; omega⟩
  refine ⟨fun ht => htw.not_in ht.in_table hin, fun hd => hdw.not_in hd.in_desc hin, State.not_loose (fun hw => ?_) fun sid hs hl =>
    ⟨((hr sid hs hl _ (.inl rfl)).2.2).not_in hin, ((hr sid hs hl _ (.inr rfl)).2.2).not_in hin⟩⟩
  have h1 := hw.2
  have h2 := h.1
  dsimp only at h1 h2
  omega

theorem State.Laid.table_not_written {x : Nat} (h : In (s0.tableOf c) x) : ¬s0.InDesc c x ∧ ¬s0.Loose c x := by
  obtain ⟨htd, htw, -, hr⟩ := L.tables
  exact ⟨fun hd => htd.not_in h hd.in_desc, State.not_loose (fun hw => htw.not_in h hw.in_word) fun sid hs hl =>
    ⟨((hr sid hs hl _ (.inl rfl)).1).not_in h, ((hr sid hs hl _ (.inr rfl)).1).not_in h⟩⟩

/-- A ring or a played record is not among the tables. -/
theorem State.Laid.ring_not_table {sid x : Nat} (hs : sid < 512) (hl : s0.Live c sid) (h : s0.InRing c sid x) :
    ¬In (s0.tableOf c) x ∧ ¬In (s0.descOf c) x ∧ ¬In (s0.wordOf c) x := by
  obtain ⟨-, -, -, hr⟩ := L.tables
  have key : ∀ y, y = s0.ringOf c sid ∨ y = s0.playOf c sid → In y x → _ := fun y hy hin =>
    And.intro (fun ht => ((hr sid hs hl y hy).1).not_in ht hin)
      (And.intro (fun ht => ((hr sid hs hl y hy).2.1).not_in ht hin) fun ht => ((hr sid hs hl y hy).2.2).not_in ht hin)
  rcases h with h | h
  · exact key _ (.inl rfl) h
  · exact key _ (.inr rfl) h

theorem State.Laid.ring_not_ring {a b x : Nat} (ha : a < 512) (hb : b < 512) (hla : s0.Live c a) (hlb : s0.Live c b) (hab : a ≠ b)
    (h : s0.InRing c a x) : ¬s0.InRing c b x := by
  have hr := L.rings ha hb hla hlb hab
  have key : ∀ y, y = s0.ringOf c a ∨ y = s0.playOf c a → In y x → ¬s0.InRing c b x := fun y hy hin => by
    rintro (hz | hz)
    · exact (hr y hy _ (.inl rfl)).not_in hin hz
    · exact (hr y hy _ (.inr rfl)).not_in hin hz
  rcases h with h | h
  · exact key _ (.inl rfl) h
  · exact key _ (.inr rfl) h

/-- No listening ring of an active stream is written. -/
theorem State.Laid.listen_not_written {sid x : Nat} (hs : sid < 512) (ha : s0.active c sid = true) (h : In (s0.listenOf c sid) x) :
    ¬s0.InTable c x ∧ ¬s0.InDesc c x ∧ ¬s0.Loose c x := by
  obtain ⟨ht, hd, hw, hr⟩ := L.listen hs ha
  exact ⟨fun k => ht.not_in h k.in_table, fun k => hd.not_in h k.in_desc, State.not_loose (fun k => hw.not_in h k.in_word)
    fun z hz hl => ⟨((hr z hz hl).1).not_in h, ((hr z hz hl).2).not_in h⟩⟩

end

section
variable {s0 t : State} {c : Nat}

/-! ### What stands in a held state -/

theorem State.Held.same_desc (h : s0.Held c t) : Mem.Same s0.mem t.mem (s0.ctxDesc c + 8) 52 ∧
    Mem.Same s0.mem t.mem (s0.ctxDesc c + 64) 192 := by
  refine ⟨fun x h1 h2 => ?_, fun x h1 h2 => ?_⟩
  · obtain ⟨ht, hd, hl⟩ := h.laid.desc_not_written (x := x) (.inl ⟨h1, h2⟩)
    exact h.stays.mem x ht hd hl
  · obtain ⟨ht, hd, hl⟩ := h.laid.desc_not_written (x := x) (.inr ⟨h1, h2⟩)
    exact h.stays.mem x ht hd hl

/-- A field of the descriptor that is not written. -/
theorem State.Held.desc (h : s0.Held c t) (off n : Nat) (ho : 8 ≤ off ∧ off + n ≤ 60 ∨ 64 ≤ off ∧ off + n ≤ 256) :
    t.desc c off n = s0.desc c off n := by
  unfold State.desc
  rw [h.ctxDesc]
  obtain ⟨h1, h2⟩ := h.same_desc
  rcases ho with ho | ho
  · exact (h1.mono (by omega) (by omega)).nat_eq
  · exact (h2.mono (by omega) (by omega)).nat_eq

theorem State.Held.ctxWord (h : s0.Held c t) (w : Nat) (hw : 1 ≤ w ∧ w ≤ 7) : t.ctxWord c w = s0.ctxWord c w := by
  have hat := h.ctxWordAt w
  unfold State.ctxWordAt at hat
  unfold State.ctxWord
  rw [hat]
  refine Mem.Same.nat_eq fun x h1 h2 => ?_
  obtain ⟨ht, hd, hl⟩ := h.laid.word_not_written (x := x) ⟨by unfold State.ctxWordAt; dsimp only; omega, by
    unfold State.ctxWordAt; dsimp only; omega⟩
  exact h.stays.mem x ht hd hl

theorem State.Held.streamAt (h : s0.Held c t) (sid : Nat) : t.streamAt c sid = s0.desc c 72 8 + 128 * sid := by
  unfold State.streamAt
  rw [h.desc 72 8 (by omega)]

/-- A field of a stream stands at its place in the table. -/
theorem State.Held.st_eq (h : s0.Held c t) (sid : Nat) (f : Nat × Nat) :
    t.st c sid f = Mem.nat t.mem (s0.desc c 72 8 + 128 * sid + f.1) f.2 := by
  show Mem.nat t.mem (t.streamAt c sid + f.1) f.2 = _
  rw [h.streamAt]

theorem State.Held.same_fixed (h : s0.Held c t) {sid : Nat} (hs : sid < 512) :
    Mem.Same s0.mem t.mem (s0.desc c 72 8 + 128 * sid + 80) 48 := fun x h1 h2 => by
  have hin : In (s0.tableOf c) x := ⟨by dsimp only [State.tableOf]; omega, by dsimp only [State.tableOf]; omega⟩
  obtain ⟨hd, hl⟩ := h.laid.table_not_written hin
  refine h.stays.mem x (fun ht => ?_) hd hl
  have hlt := ht.2
  omega

/-- The addresses of a stream's ring and record stand. -/
theorem State.Held.spk (h : s0.Held c t) {sid : Nat} (hs : sid < 512) : t.st c sid stSpk = s0.st c sid stSpk := by
  rw [h.st_eq, h.laid.held.st_eq]
  exact ((h.same_fixed hs).mono (Nat.le_refl _) (Nat.add_le_add_left (show 8 ≤ 48 by decide) _)).nat_eq

theorem State.Held.play (h : s0.Held c t) {sid : Nat} (hs : sid < 512) : t.st c sid stPlay = s0.st c sid stPlay := by
  rw [h.st_eq, h.laid.held.st_eq]
  exact ((h.same_fixed hs).mono (Nat.add_le_add_left (by decide) _) (by
    show _ + 88 + 8 ≤ _ + 80 + 48; omega)).nat_eq

/-- An active stream's listening ring holds what it held. -/
theorem State.Held.same_listen (h : s0.Held c t) {sid : Nat} (hs : sid < 512) (ha : s0.active c sid = true) :
    Mem.Same s0.mem t.mem (s0.st c sid stLring) (64 * 2 ^ s0.st c sid stLlog) := fun x h1 h2 => by
  obtain ⟨ht, hd, hl⟩ := h.laid.listen_not_written hs ha ⟨h1, h2⟩
  exact h.stays.mem x ht hd hl

end

/-- A ring that A leaves alone holds what it held. -/
theorem State.Stays.same_ring {s0 t u : State} {c : Nat} (L : s0.Laid c) {A : Nat → Prop} (h : s0.Stays c A t u) {sid : Nat} (hs : sid < 512) (hl : s0.Live c sid)
    (hA : ∀ x, s0.InRing c sid x → ¬A x) :
    Mem.Same t.mem u.mem (s0.st c sid stSpk) 1032 ∧ Mem.Same t.mem u.mem (s0.st c sid stPlay) 1024 := by
  have key : ∀ x, s0.InRing c sid x → Mem.byte u.mem x = Mem.byte t.mem x := fun x hx =>
    h.mem x (fun k => (L.ring_not_table hs hl hx).1 k.in_table) (fun k => (L.ring_not_table hs hl hx).2.1 k.in_desc) (hA x hx)
  exact ⟨fun x h1 h2 => key x (.inl ⟨h1, h2⟩), fun x h1 h2 => key x (.inr ⟨h1, h2⟩)⟩

end Sys2Proof.Machine

namespace Sys2Proof.Machine

/-! ## The fields of the stream table under the operations on streams -/

/-- The fields of a stream-table entry that change: all but the addresses of its ring and its record (R280). -/
def stFields : List (Nat × Nat) :=
  [stState, stLlog, stParent, stRoot, stN, stQ, stE, stG, stRp, stSnap, stLate, stStarved, stSpkdrop, stKey, stLring, stLwp]

theorem stFields_bound : ∀ f ∈ stFields, f.1 + f.2 ≤ 80 := by decide

theorem stFields_disjoint : ∀ f ∈ stFields, ∀ g ∈ stFields, f ≠ g → f.1 + f.2 ≤ g.1 ∨ g.1 + g.2 ≤ f.1 := by decide

/-- Of the fields of streams only those that W names change, beside what Stays allows. -/
structure State.Does (s0 : State) (c : Nat) (A : Nat → Prop) (W : Nat → Nat × Nat → Prop) (s t : State) : Prop
    extends s0.Stays c A s t where
  fields : ∀ sid, sid < 512 → ∀ f ∈ stFields, ¬W sid f → t.st c sid f = s.st c sid f

section
variable {s0 s t u : State} {c : Nat} {A B : Nat → Prop} {W V : Nat → Nat × Nat → Prop}

theorem State.Does.refl (s0 : State) (c : Nat) (A : Nat → Prop) (W : Nat → Nat × Nat → Prop) (s : State) : s0.Does c A W s s :=
  ⟨.refl .., fun _ _ _ _ _ => rfl⟩

theorem State.Does.trans (h : s0.Does c A W s t) (k : s0.Does c A W t u) : s0.Does c A W s u :=
  ⟨h.toStays.trans k.toStays, fun sid hs f hf hW => (k.fields sid hs f hf hW).trans (h.fields sid hs f hf hW)⟩

theorem State.Does.mono (h : s0.Does c A W s t) (hA : ∀ x, A x → B x) (hW : ∀ sid f, W sid f → V sid f) : s0.Does c B V s t :=
  ⟨h.toStays.mono hA, fun sid hs f hf hV => h.fields sid hs f hf fun k => hV (hW sid f k)⟩

/-- A fold of operations, each of which acts so on any state that the ones before it reach. -/
theorem State.Does.foldl {α : Type} (l : List α) (f : State → α → State)
    (h : ∀ t, s0.Does c A W s t → ∀ x ∈ l, s0.Does c A W t (f t x)) : s0.Does c A W s (l.foldl f s) :=
  List.foldlRecOn l f (motive := fun t => s0.Does c A W s t) (.refl ..) fun t ht x hx => ht.trans (h t ht x hx)

theorem State.st_of_mem {s t : State} (hb : t.ctxbase = s.ctxbase) (hm : t.mem = s.mem) (c sid : Nat) (f : Nat × Nat) :
    t.st c sid f = s.st c sid f := by
  show Mem.nat t.mem (t.streamAt c sid + f.1) f.2 = Mem.nat s.mem (s.streamAt c sid + f.1) f.2
  have hat : t.streamAt c sid = s.streamAt c sid := by
    unfold State.streamAt State.desc State.ctxDesc
    rw [hb, hm]
  rw [hat, hm]

/-- An operation that leaves device memory alone. -/
theorem State.Does.of_mem (hb : t.ctxbase = s.ctxbase) (hm : t.mem = s.mem) : s0.Does c A W s t :=
  ⟨.of_mem hb hm, fun sid _ f _ _ => State.st_of_mem hb hm c sid f⟩

theorem State.Held.does (h : s0.Held c s) (k : s0.Does c A W s t) (hA : ∀ x, A x → s0.Loose c x) : s0.Held c t :=
  h.step k.toStays hA

/-! ### A field is written -/

section
variable (H : s0.Held c t)
include H

theorem State.Held.setSt_mem {sid : Nat} (f : Nat × Nat) (v : Nat) :
    (t.setSt c sid f v).mem = Mem.putNat t.mem (s0.desc c 72 8 + 128 * sid + f.1) f.2 v := by
  show Mem.putNat t.mem (t.streamAt c sid + f.1) f.2 v = _
  rw [H.streamAt]

theorem State.Held.setSt_stays {sid : Nat} (hs : sid < 512) {f : Nat × Nat} (hf : f.1 + f.2 ≤ 80) (v : Nat) :
    s0.Stays c A t (t.setSt c sid f v) := by
  refine ⟨rfl, fun x ht _ _ => ?_⟩
  rw [H.setSt_mem]
  refine Mem.byte_putNat_outside ?_
  by_contra hx
  refine ht ⟨?_, ?_⟩
  · constructor <;> dsimp only [State.tableOf] <;> omega
  · omega

/-- What the fields read after one is written: it reads the value, cut to its bytes, and no other changes. -/
theorem State.Held.st_setSt {sid sid' : Nat} (hs : sid < 512) {f f' : Nat × Nat} (hf : f ∈ stFields) (hf' : f' ∈ stFields) (v : Nat) :
    (t.setSt c sid f v).st c sid' f' = if sid' = sid ∧ f' = f then v % 256 ^ f.2 else t.st c sid' f' := by
  have hheld : s0.Held c (t.setSt c sid f v) :=
    State.Held.step H (H.setSt_stays (A := s0.Loose c) hs (stFields_bound f hf) v) fun _ h => h
  have hb := stFields_bound f hf
  have hb' := stFields_bound f' hf'
  rw [hheld.st_eq, H.st_eq, H.setSt_mem]
  by_cases hsid : sid' = sid
  · subst hsid
    by_cases hff : f' = f
    · subst hff
      rw [if_pos ⟨rfl, rfl⟩, Mem.nat_putNat_same]
    · rw [if_neg fun h => hff h.2]
      have := stFields_disjoint f hf f' hf' (Ne.symm hff)
      exact (Mem.putNat_same (by omega)).nat_eq
  · rw [if_neg fun h => hsid h.1]
    exact (Mem.putNat_same (by omega)).nat_eq

theorem State.Held.setSt_does {sid : Nat} (hs : sid < 512) {f : Nat × Nat} (hf : f ∈ stFields) (v : Nat) (hW : W sid f) :
    s0.Does c A W t (t.setSt c sid f v) :=
  ⟨H.setSt_stays hs (stFields_bound f hf) v, fun sid' _ f' hf' hW' => by
    rw [H.st_setSt hs hf hf', if_neg]
    rintro ⟨rfl, rfl⟩
    exact hW' hW⟩

theorem State.Held.count_does {sid : Nat} (hs : sid < 512) {f : Nat × Nat} (hf : f ∈ stFields) (n : Nat) (hW : W sid f) :
    s0.Does c A W t (t.count c sid f n) := H.setSt_does hs hf _ hW

theorem State.Held.st_count {sid : Nat} (hs : sid < 512) {f : Nat × Nat} (hf : f ∈ stFields) (h2 : f.2 = 2) (n : Nat) :
    (t.count c sid f n).st c sid f = min 0xFFFF (t.st c sid f + n) := by
  unfold State.count
  rw [H.st_setSt hs hf hf, if_pos ⟨rfl, rfl⟩, h2]
  exact Nat.mod_eq_of_lt (by omega)

/-! ### The descriptor and the translation entry -/

theorem State.Held.setDesc_does {off n : Nat} (v : Nat) (ho : off + n ≤ 8 ∨ 60 ≤ off ∧ off + n ≤ 64) :
    s0.Does c A W t (t.setDesc c off n v) := by
  have hmem : (t.setDesc c off n v).mem = Mem.putNat t.mem (s0.ctxDesc c + off) n v := by
    show Mem.putNat t.mem (t.ctxDesc c + off) n v = _
    rw [H.ctxDesc]
  have hstays : ∀ B, s0.Stays c B t (t.setDesc c off n v) := fun B => ⟨rfl, fun x _ hd _ => by
    rw [hmem]
    refine Mem.byte_putNat_outside ?_
    by_contra hx
    refine hd ?_
    unfold State.InDesc In
    dsimp only
    omega⟩
  refine ⟨hstays A, fun sid hs f hf _ => ?_⟩
  rw [State.Held.st_eq (H.step (hstays (s0.Loose c)) fun _ h => h), H.st_eq, hmem]
  obtain ⟨htd, -, -, -⟩ := H.laid.tables
  have hb := stFields_bound f hf
  refine (Mem.putNat_same ?_).nat_eq
  rcases htd with h | h <;> dsimp only [State.tableOf, State.descOf] at h <;> omega

theorem State.Held.writeEvent_does (p : Nat) (e : Event) (sid : Nat) (pos detail : Option Nat) :
    s0.Does c A W t (t.writeEvent p c e sid pos detail) := by
  have h := H.setDesc_does (A := A) (W := W) (off := 60) (n := 4) (t.desc c 60 4 + 1) (.inr ⟨Nat.le_refl _, Nat.le_refl _⟩)
  exact ⟨⟨rfl, h.mem⟩, h.fields⟩

theorem State.Held.tellLost_does (p : Nat) : s0.Does c A W t (t.tellLost p c) := by
  unfold State.tellLost
  split
  · exact .refl ..
  · exact (H.writeEvent_does p .eventsLost noSid none (some (SMap.get 0 t.evLost c))).trans (.of_mem rfl rfl)

theorem State.Held.event_does (p : Nat) (e : Event) (sid : Nat) (pos detail : Option Nat) :
    s0.Does c A W t (t.event p c e sid pos detail) := by
  cases hroom : t.eventRoom c
  · rw [t.event_of_no_room p c e sid pos detail hroom]
    exact .of_mem rfl rfl
  · rw [t.event_of_room p c e sid pos detail hroom]
    have h := H.tellLost_does (A := A) (W := W) p
    have h' := H.tellLost_does (A := s0.Loose c) (W := W) p
    split
    · exact h.trans (State.Held.writeEvent_does (H.does h' fun _ h => h) p e sid pos detail)
    · exact h.trans (.of_mem rfl rfl)

theorem State.Held.setCtxWord_does (v : Nat) (hA : ∀ x, s0.InWord c x → A x) : s0.Does c A W t (t.setCtxWord c 0 v) := by
  have hmem : (t.setCtxWord c 0 v).mem = Mem.putNat t.mem (s0.ctxWordAt c 0) 8 v := by
    show Mem.putNat t.mem (t.ctxWordAt c 0) 8 v = _
    rw [H.ctxWordAt]
  have hstays : ∀ B : Nat → Prop, (∀ x, s0.InWord c x → B x) → s0.Stays c B t (t.setCtxWord c 0 v) := fun B hB =>
    ⟨rfl, fun x _ _ hx => by
      rw [hmem]
      refine Mem.byte_putNat_outside ?_
      by_contra hin
      refine hx (hB x ⟨?_, ?_⟩) <;> dsimp only <;> omega⟩
  refine ⟨hstays A hA, fun sid hs f hf _ => ?_⟩
  rw [State.Held.st_eq (H.step (hstays (s0.Loose c) fun _ => Or.inl) fun _ h => h), H.st_eq, hmem]
  obtain ⟨-, htw, -, -⟩ := H.laid.tables
  have hb := stFields_bound f hf
  refine (Mem.putNat_same ?_).nat_eq
  rcases htw with h | h <;> dsimp only [State.tableOf, State.wordOf] at h <;> omega

/-! ### Rings and played records -/

/-- A write within a ring or a played record. -/
theorem State.Held.ring_does {sid a n : Nat} (hs : sid < 512) (hl : s0.Live c sid) {m : SMap Byte}
    (hm : ∀ x, (x < a ∨ a + n ≤ x) → Mem.byte m x = Mem.byte t.mem x) (hb : u.ctxbase = t.ctxbase) (hu : u.mem = m)
    (hin : ∀ x, a ≤ x → x < a + n → s0.InRing c sid x) (hA : ∀ x, s0.InRing c sid x → A x) : s0.Does c A W t u := by
  have hstays : ∀ B : Nat → Prop, (∀ x, s0.InRing c sid x → B x) → s0.Stays c B t u := fun B hB => ⟨hb, fun x _ _ hx => by
    rw [hu]
    refine hm x ?_
    by_contra h
    exact hx (hB x (hin x (by omega) (by omega)))⟩
  refine ⟨hstays A hA, fun sid' hs' f hf _ => ?_⟩
  rw [State.Held.st_eq (H.step (hstays (s0.Loose c) fun x hx => .inr ⟨sid, hs, hl, hx⟩) fun _ h => h), H.st_eq, hu]
  have hbound := stFields_bound f hf
  refine Mem.Same.nat_eq fun x h1 h2 => hm x ?_
  by_contra h
  refine (H.laid.ring_not_table hs hl (hin x (by omega) (by omega))).1 ⟨?_, ?_⟩ <;> dsimp only [State.tableOf] <;> omega

/-- The publish word and what it says of a stream (R29). -/
theorem State.Held.publishWord_does {sid : Nat} (hs : sid < 512) (hl : s0.Live c sid) (e : Nat)
    (hA : ∀ x, s0.InRing c sid x → A x) (hE : W sid stE) (hG : W sid stG) : s0.Does c A W t (t.publishWord c sid e) := by
  unfold State.publishWord
  generalize (t.st c sid stG + 1) % 2 ^ 32 = g
  dsimp only
  have hloose : ∀ x, s0.InRing c sid x → s0.Loose c x := fun x hx => .inr ⟨sid, hs, hl, hx⟩
  have h1 := fun B => H.setSt_does (A := B) (W := W) hs (f := stE) (by decide) e hE
  have H1 := H.does (h1 (s0.Loose c)) fun _ h => h
  generalize t.setSt c sid stE e = t1 at h1 H1 ⊢
  have h2 := fun B => H1.setSt_does (A := B) (W := W) hs (f := stG) (by decide) g hG
  have H2 := H1.does (h2 (s0.Loose c)) fun _ h => h
  generalize t1.setSt c sid stG g = t2 at h2 H2 ⊢
  rw [H2.spk hs]
  refine ((h1 A).trans (h2 A)).trans (H2.ring_does (a := s0.st c sid stSpk + 1024) (n := 8) hs hl
    (fun x hx => Mem.byte_putNat_outside hx) rfl rfl (fun x hx1 hx2 => .inl ⟨?_, ?_⟩) hA) <;>
    dsimp only [State.ringOf] <;> omega

theorem State.Held.st_publishWord {sid : Nat} (hs : sid < 512) (hl : s0.Live c sid) (e : Nat) :
    (t.publishWord c sid e).st c sid stE = e % 2 ^ 32 ∧ (t.publishWord c sid e).st c sid stG = (t.st c sid stG + 1) % 2 ^ 32 ∧
      Mem.nat (t.publishWord c sid e).mem (s0.st c sid stSpk + 1024) 8 = (t.st c sid stG + 1) % 2 ^ 32 * 2 ^ 32 + e % 2 ^ 32 := by
  unfold State.publishWord
  generalize hg : (t.st c sid stG + 1) % 2 ^ 32 = g
  dsimp only
  have hE := fun f' hf' => H.st_setSt (sid' := sid) hs (f := stE) (f' := f') (by decide) hf' e
  have H1 := H.does (H.setSt_does (A := s0.Loose c) (W := fun _ _ => True) hs (f := stE) (by decide) e trivial) fun _ h => h
  generalize t.setSt c sid stE e = t1 at hE H1 ⊢
  have hG := fun f' hf' => H1.st_setSt (sid' := sid) hs (f := stG) (f' := f') (by decide) hf' g
  have H2 := H1.does (H1.setSt_does (A := s0.Loose c) (W := fun _ _ => True) hs (f := stG) (by decide) g trivial) fun _ h => h
  generalize t1.setSt c sid stG g = t2 at hG H2 ⊢
  rw [H2.spk hs]
  generalize hv : ({ t2 with mem := Mem.putNat t2.mem (s0.st c sid stSpk + 1024) 8 (g * 2 ^ 32 + e % 2 ^ 32) } : State) = v
  have hring : s0.Does c (s0.Loose c) (fun _ _ => False) t2 v := by
    refine H2.ring_does (a := s0.st c sid stSpk + 1024) (n := 8) hs hl (fun x hx => Mem.byte_putNat_outside hx)
      (by rw [← hv]) (by rw [← hv]) (fun x hx1 hx2 => .inl ⟨?_, ?_⟩) fun x hx => .inr ⟨sid, hs, hl, hx⟩ <;>
      dsimp only [State.ringOf] <;> omega
  have hglt : g < 2 ^ 32 := by rw [← hg]; exact Nat.mod_lt _ (by decide)
  refine ⟨?_, ?_, ?_⟩
  · rw [hring.fields sid hs stE (by decide) id, hG stE (by decide), if_neg fun h => absurd h.2 (by decide), hE stE (by decide), if_pos ⟨rfl, rfl⟩]
    rfl
  · rw [hring.fields sid hs stG (by decide) id, hG stG (by decide), if_pos ⟨rfl, rfl⟩]
    exact Nat.mod_eq_of_lt hglt
  · rw [Mem.nat_putNat_same]
    exact Nat.mod_eq_of_lt (by omega)

/-- Bytes written into a ring or a record. -/
theorem State.Held.putDev_does {sid a : Nat} (hs : sid < 512) (hl : s0.Live c sid) (bs : List Byte)
    (hin : ∀ x, a ≤ x → x < a + bs.length → s0.InRing c sid x) (hA : ∀ x, s0.InRing c sid x → A x) :
    s0.Does c A W t (t.putDev a bs) :=
  H.ring_does hs hl (fun _ hx => Mem.byte_put_outside _ hx) rfl (t.putDev_mem a bs) hin hA

end

end

end Sys2Proof.Machine

namespace Sys2Proof.Machine

/-! ## Channel entries (R24, R29, R30) -/

/-- A field of a list of bytes lies in its part that stands at the field's place. -/
theorem leField_append_right {as bs : List Byte} {off : Nat} (h : as.length = off) (k n : Nat) :
    leField (as ++ bs) (off + k) n = leField bs k n := by
  unfold leField slice
  rw [List.drop_append, h, List.drop_eq_nil_of_le (by omega), List.nil_append, Nat.add_sub_cancel_left]

theorem leField_append_left {as bs : List Byte} {off n : Nat} (h : off + n ≤ as.length) :
    leField (as ++ bs) off n = leField as off n := by
  unfold leField slice
  rw [List.drop_append_of_le_length (by omega), List.take_append_of_le_length (by rw [List.length_drop]; omega)]

theorem leField_toLe (n x : Nat) : leField (toLe n x) 0 n = x % 256 ^ n := by
  unfold leField slice
  rw [List.drop_zero, List.take_of_length_le (by rw [length_toLe]), leNat_toLe]

/-- The field that a number's bytes make, between others. -/
theorem leField_mid {as bs : List Byte} {n x off : Nat} (h : as.length = off) : leField (as ++ toLe n x ++ bs) off n = x % 256 ^ n := by
  rw [leField_append_left (by rw [List.length_append, length_toLe, h])]
  have := leField_append_right (bs := toLe n x) h 0 n
  rw [Nat.add_zero] at this
  rw [this, leField_toLe]

theorem leField_lt (bs : List Byte) (off n : Nat) : leField bs off n < 256 ^ n := by
  refine lt_of_lt_of_le (leNat_lt _) (Nat.pow_le_pow_right (by decide) ?_)
  unfold slice
  rw [List.length_take]
  exact Nat.min_le_left ..

/-- The header of an entry, its position, flags, count, lag and frame, and its codes (R24). -/
def entryHead (pos flags count lag frame : Nat) : List Byte :=
  toLe 4 pos ++ toLe 2 flags ++ toLe 1 (min count 24) ++ toLe 1 lag ++ toLe 4 frame
def entryCodes (count : Nat) (codes : List Byte) : List Byte := (codes.take (2 * min count 24) ++ zeros 48).take 48

theorem makeEntry_eq (pos flags count lag frame : Nat) (codes : List Byte) :
    makeEntry pos flags count lag frame codes = entryHead pos flags count lag frame ++
      toLe 4 (crc32c (entryHead pos flags count lag frame ++ entryCodes count codes)).toNat ++ entryCodes count codes := rfl

theorem length_entryHead (pos flags count lag frame : Nat) : (entryHead pos flags count lag frame).length = 12 := by
  simp [entryHead]

theorem length_entryCodes (count : Nat) (codes : List Byte) : (entryCodes count codes).length = 48 := by
  simp [entryCodes, zeros]

theorem getD_entryCodes (count : Nat) (codes : List Byte) (h : 2 * min count 24 ≤ codes.length) {j : Nat} (hj : j < 48) :
    (entryCodes count codes).getD j 0 = if j < 2 * min count 24 then codes.getD j 0 else 0 := by
  unfold entryCodes zeros
  have hlen : (codes.take (2 * min count 24)).length = 2 * min count 24 := by rw [List.length_take]; omega
  rw [List.getD_eq_getElem?_getD, List.getElem?_take_of_lt hj]
  split
  · next hlt =>
    rw [List.getElem?_append_left (by omega), List.getElem?_take_of_lt hlt, ← List.getD_eq_getElem?_getD]
  · next hge =>
    rw [List.getElem?_append_right (by omega), ← List.getD_eq_getElem?_getD, List.getD_replicate 0 (by omega)]

/-- The fields of an entry's header. -/
theorem leField_entryHead (pos flags count lag frame : Nat) :
    leField (entryHead pos flags count lag frame) 0 4 = pos % 2 ^ 32 ∧ leField (entryHead pos flags count lag frame) 4 2 = flags % 2 ^ 16 ∧
      leField (entryHead pos flags count lag frame) 6 1 = min count 24 ∧ leField (entryHead pos flags count lag frame) 7 1 = lag % 256 ∧
      leField (entryHead pos flags count lag frame) 8 4 = frame % 2 ^ 32 := by
  have hcount : min count 24 % 256 ^ 1 = min count 24 := Nat.mod_eq_of_lt (by omega)
  have h := fun (as bs : List Byte) (n x off : Nat) (he : entryHead pos flags count lag frame = as ++ toLe n x ++ bs)
      (hl : as.length = off) => he ▸ leField_mid (bs := bs) (n := n) (x := x) hl
  refine ⟨?_, ?_, ?_, ?_, ?_⟩
  · exact h [] (toLe 2 flags ++ toLe 1 (min count 24) ++ toLe 1 lag ++ toLe 4 frame) 4 pos 0
      (by simp only [entryHead, List.nil_append, List.append_assoc]) rfl
  · exact h (toLe 4 pos) (toLe 1 (min count 24) ++ toLe 1 lag ++ toLe 4 frame) 2 flags 4
      (by simp only [entryHead, List.append_assoc]) (length_toLe ..)
  · rw [← hcount]
    exact h (toLe 4 pos ++ toLe 2 flags) (toLe 1 lag ++ toLe 4 frame) 1 (min count 24) 6
      (by simp only [entryHead, List.append_assoc]) (by simp)
  · exact h (toLe 4 pos ++ toLe 2 flags ++ toLe 1 (min count 24)) (toLe 4 frame) 1 lag 7
      (by simp only [entryHead, List.append_assoc]) (by simp)
  · exact h (toLe 4 pos ++ toLe 2 flags ++ toLe 1 (min count 24) ++ toLe 1 lag) [] 4 frame 8
      (by simp only [entryHead, List.append_nil]) (by simp)

/-- An entry that the device makes is a channel entry (R24). -/
theorem entryIs_makeEntry (pos flags count lag frame : Nat) (codes : List Byte) (hf : flags < 2 ^ 16)
    (hc : 2 * min count 24 ≤ codes.length) : EntryIs (makeEntry pos flags count lag frame codes) pos flags count lag frame codes := by
  rw [makeEntry_eq]
  have hhead := length_entryHead pos flags count lag frame
  have hcodes := length_entryCodes count codes
  have hcode := fun j => getD_entryCodes count codes hc (j := j)
  obtain ⟨hpos, hflags, hcount, hlag, hframe⟩ := leField_entryHead pos flags count lag frame
  generalize entryHead pos flags count lag frame = head at hhead hpos hflags hcount hlag hframe ⊢
  generalize entryCodes count codes = tail at hcodes hcode ⊢
  generalize hcrc : crc32c (head ++ tail) = crc
  have hin : ∀ off n, off + n ≤ 12 → leField (head ++ toLe 4 crc.toNat ++ tail) off n = leField head off n := fun off n h => by
    rw [List.append_assoc, leField_append_left (by rw [hhead]; exact h)]
  refine ⟨?_, ?_, ?_, ?_, ?_, ?_, ?_, fun j hj => ?_⟩
  · rw [List.length_append, List.length_append, hhead, hcodes, length_toLe]
  · rw [hin 0 4 (by decide), hpos]
  · rw [hin 4 2 (by decide), hflags, Nat.mod_eq_of_lt hf]
  · rw [hin 6 1 (by decide), hcount]
  · rw [hin 7 1 (by decide), hlag]
  · rw [hin 8 4 (by decide), hframe]
  · rw [leField_mid hhead, List.append_assoc, List.take_append_of_le_length hhead.ge, List.take_of_length_le hhead.le,
      List.drop_append, List.drop_eq_nil_of_le (by omega), List.drop_append, hhead, List.drop_eq_nil_of_le (by rw [length_toLe]),
      length_toLe, List.nil_append, List.nil_append]
    show crc.toNat % 256 ^ 4 = (crc32c (head ++ tail)).toNat
    rw [hcrc]
    exact Nat.mod_eq_of_lt crc.isLt
  · rw [List.getD_append_right _ _ _ _ (by rw [List.length_append, length_toLe]; omega), List.length_append, length_toLe, hhead,
      Nat.add_sub_cancel_left]
    exact hcode j hj

/-- An entry with other flags, and what else it held (R30). -/
theorem entryIs_reflag (bs : List Byte) (flags : Nat) (hl : bs.length = 64) (hf : flags < 2 ^ 16) :
    EntryIs (reflag bs flags) (leField bs 0 4) flags (leField bs 6 1) (leField bs 7 1) (leField bs 8 4) (bs.drop 16) :=
  entryIs_makeEntry _ _ _ _ _ _ hf (by rw [List.length_drop]; omega)

/-- A fill entry (R29, R30). -/
theorem State.Held.fillIs {s0 t : State} {c : Nat} (H : s0.Held c t) (pos flags lag frame : Nat) (hf : flags < 2 ^ 16) :
    s0.FillIs c (t.fillEntry c pos flags lag frame) pos flags lag frame := by
  have hcodes : Mem.bytes t.mem (t.ctxDesc c + 88) 48 = Mem.bytes s0.mem (s0.ctxDesc c + 88) 48 := by
    rw [H.ctxDesc]
    exact (H.same_desc.2.mono (by omega) (by omega)).bytes_eq
  have hmin : min (min 24 (s0.desc c 80 1)) 24 = min (s0.desc c 80 1) 24 := by omega
  unfold State.FillIs State.fillEntry
  rw [hcodes, H.desc 80 1 (.inr (by decide))]
  have h := entryIs_makeEntry pos flags (min 24 (s0.desc c 80 1)) lag frame (Mem.bytes s0.mem (s0.ctxDesc c + 88) 48) hf
    (by rw [Mem.length_bytes]; omega)
  unfold EntryIs at h ⊢
  rwa [hmin] at h

end Sys2Proof.Machine

namespace Sys2Proof.Machine

/-! ## Positions (R23, R29) -/

/-- The position nearest q with the low bits of n is n, when n lies within half the window of q. -/
theorem nearest_of_near {n q : Nat} (hl : q < n + 2 ^ 31) (hr : n < q + 2 ^ 31) : nearest (n % 2 ^ 32) q = n := by
  unfold nearest serial32
  rw [BitVec.toInt_ofNat', Int.bmod_def]
  omega

theorem State.EndIs.endPos {s : State} {c sid e : Nat} (h : s.EndIs c sid e) : s.endPos c sid = e := by
  obtain ⟨hE, hlo, hhi⟩ := h
  unfold State.endPos
  rw [hE, nearest_of_near (by omega) (by omega)]
  exact Int.toNat_natCast e

/-! ## Runs of a listening ring (R25, R26) -/

/-- The entry lies below position n. -/
def Below (get : Nat → List Byte × Bool) (n i : Nat) : Prop := serial32 (entryPos (get i).1) n < 0

/-- The run that is split off is the longest of entries below n. -/
theorem splitRun_spec (get : Nat → List Byte × Bool) (n : Nat) (l : List Nat) :
    (splitRun get n l).1 ≤ l.length ∧ (splitRun get n l).2 = l.drop (splitRun get n l).1 ∧
      (∀ j, j < (splitRun get n l).1 → ∀ i, l[j]? = some i → Below get n i) ∧
      ∀ i, l[(splitRun get n l).1]? = some i → ¬Below get n i := by
  induction l with
  | nil => exact ⟨Nat.le_refl _, rfl, fun j hj => absurd hj (Nat.not_lt_zero j), fun i hi => absurd hi nofun⟩
  | cons i l ih =>
    by_cases hb : Below get n i
    · have hstep : splitRun get n (i :: l) = ((splitRun get n l).1 + 1, (splitRun get n l).2) :=
        if_pos hb
      obtain ⟨hle, hdrop, hrun, hend⟩ := ih
      rw [hstep]
      refine ⟨Nat.succ_le_succ hle, hdrop, fun j hj x hx => ?_, hend⟩
      cases j with
      | zero => rw [← Option.some.inj hx]; exact hb
      | succ j => exact hrun j (Nat.lt_of_succ_lt_succ hj) x hx
    · have hstep : splitRun get n (i :: l) = (0, i :: l) := if_neg hb
      rw [hstep]
      exact ⟨Nat.zero_le _, rfl, fun j hj => absurd hj (Nat.not_lt_zero j), fun x hx => by rw [← Option.some.inj hx]; exact hb⟩

theorem State.consumed_eq (s : State) (c sid : Nat) (a : AnchorStream) :
    ∃ x, splitRun (s.listenEntry c sid) a.n (pendingSeq a.rp a.snap) = x ∧
      s.consumed c sid a = (x.1, currentEntry (s.listenEntry c sid) a.n x.2) := by
  -- Unfolded under its binders: the kernel would evaluate the run of entries to compare the two sides.
  obtain ⟨f, hf⟩ : ∃ f, f = State.consumed := ⟨_, rfl⟩
  rw [← hf]
  delta State.consumed at hf
  rewrite [hf]
  beta_reduce
  generalize splitRun _ _ _ = x
  obtain ⟨late, rest⟩ := x
  exact ⟨(late, rest), rfl, rfl⟩

/-- How many entries are pending. -/
def AnchorStream.pending (a : AnchorStream) : Nat := (a.snap + 2 ^ 32 - a.rp) % 2 ^ 32

theorem getElem?_range (lo n j : Nat) : (range lo n)[j]? = if j < n then some (lo + j) else none := by
  induction n generalizing lo j with
  | zero => simp [range]
  | succ n ih =>
    cases j with
    | zero => simp [range]
    | succ j => simp [range, ih, Nat.add_assoc, Nat.add_comm 1 j]

theorem length_range (lo n : Nat) : (range lo n).length = n := by
  induction n generalizing lo with
  | zero => rfl
  | succ n ih => rw [range, List.length_cons, ih]

theorem getElem?_pendingSeq (a : AnchorStream) (j : Nat) :
    (pendingSeq a.rp a.snap)[j]? = if j < a.pending then some ((a.rp + j) % 2 ^ 32) else none := by
  unfold pendingSeq AnchorStream.pending
  rw [List.getElem?_map, getElem?_range]
  split
  · rw [Nat.zero_add]; rfl
  · rfl

theorem length_pendingSeq (a : AnchorStream) : (pendingSeq a.rp a.snap).length = a.pending := by
  unfold pendingSeq AnchorStream.pending
  rw [List.length_map, length_range]

theorem currentEntry_cons (get : Nat → List Byte × Bool) (n i : Nat) (l : List Nat) :
    currentEntry get n (i :: l) = if entryPos (get i).1 = n % 2 ^ 32 then some (get i) else none := rfl

/-- What a commit consumes is the run of R26, and its current entry. -/
theorem State.run_consumed (s : State) (c : Nat) (a : AnchorStream) :
    s.Run c a (s.consumed c a.sid a).1 (s.consumed c a.sid a).2.isSome ∧
      ((s.consumed c a.sid a).2.isSome = true →
        (s.consumed c a.sid a).2 = some (s.listenEntry c a.sid ((a.rp + (s.consumed c a.sid a).1) % 2 ^ 32))) := by
  obtain ⟨⟨k, rest⟩, hx, hconsumed⟩ := s.consumed_eq c a.sid a
  have hspec := splitRun_spec (s.listenEntry c a.sid) a.n (pendingSeq a.rp a.snap)
  rw [hx] at hspec
  obtain ⟨hle, hdrop, hrun, hend⟩ := hspec
  dsimp only at hle hdrop hrun hend hconsumed
  rw [hconsumed, hdrop]
  dsimp only
  rw [length_pendingSeq] at hle
  have hbelow : ∀ j, j < k → serial32 (leField (s.listenEntry c a.sid ((a.rp + j) % 2 ^ 32)).1 0 4) a.n < 0 := fun j hj =>
    hrun j hj _ (by rw [getElem?_pendingSeq, if_pos (lt_of_lt_of_le hj hle)])
  by_cases hk : k < a.pending
  · have hget := getElem?_pendingSeq a k
    rw [if_pos hk] at hget
    have hcons : (pendingSeq a.rp a.snap).drop k = (a.rp + k) % 2 ^ 32 :: (pendingSeq a.rp a.snap).drop (k + 1) := by
      obtain ⟨hlt, hval⟩ := List.getElem?_eq_some_iff.mp hget
      rw [List.drop_eq_getElem_cons hlt, hval]
    rw [hcons, currentEntry_cons]
    have hnot : ¬serial32 (leField (s.listenEntry c a.sid ((a.rp + k) % 2 ^ 32)).1 0 4) a.n < 0 := hend _ hget
    by_cases hpos : entryPos (s.listenEntry c a.sid ((a.rp + k) % 2 ^ 32)).1 = a.n % 2 ^ 32
    · rw [if_pos hpos]
      exact ⟨⟨hle, hbelow, .inr hnot, fun _ => ⟨hk, hpos⟩, fun _ => rfl⟩, fun _ => rfl⟩
    · rw [if_neg hpos]
      exact ⟨⟨hle, hbelow, .inr hnot, ⟨fun h => absurd h Bool.false_ne_true, fun h => absurd h.2 hpos⟩⟩,
        fun h => absurd h Bool.false_ne_true⟩
  · have hnil : (pendingSeq a.rp a.snap).drop k = [] := List.drop_eq_nil_of_le (by rw [length_pendingSeq]; omega)
    rw [hnil]
    exact ⟨⟨hle, hbelow, .inl (by unfold AnchorStream.pending at *; omega), ⟨fun h => absurd h Bool.false_ne_true,
      fun h => absurd h.1 hk⟩⟩, fun h => absurd h Bool.false_ne_true⟩

/-- There is one such run. -/
theorem State.Run.unique {s : State} {c : Nat} {a : AnchorStream} {k k' : Nat} {cur cur' : Bool} (h : s.Run c a k cur)
    (h' : s.Run c a k' cur') : k = k' ∧ cur = cur' := by
  obtain ⟨hle, hbelow, hend, hcur⟩ := h
  obtain ⟨hle', hbelow', hend', hcur'⟩ := h'
  have hk : k = k' := by
    rcases Nat.lt_trichotomy k k' with hlt | heq | hgt
    · rcases hend with hm | hn
      · omega
      · exact absurd (hbelow' k hlt) hn
    · exact heq
    · rcases hend' with hm | hn
      · omega
      · exact absurd (hbelow k' hgt) hn
  subst hk
  exact ⟨rfl, Bool.eq_iff_iff.mpr (hcur.trans hcur'.symm)⟩

/-- A run depends on the entries' bytes alone. -/
theorem State.Run.congr {s u : State} {c : Nat} {a : AnchorStream} {k : Nat} {cur : Bool}
    (hget : ∀ i, (u.listenEntry c a.sid i).1 = (s.listenEntry c a.sid i).1) (h : s.Run c a k cur) : u.Run c a k cur := by
  unfold State.Run at h ⊢
  simp only [hget]
  exact h

/-- A commit consumes the run that stood when its step began to write, where the ring still holds it. -/
theorem State.consumed_of_run {s u : State} {c : Nat} {a : AnchorStream} {k : Nat} {cur : Bool}
    (hget : ∀ i, (u.listenEntry c a.sid i).1 = (s.listenEntry c a.sid i).1) (h : s.Run c a k cur) :
    (u.consumed c a.sid a).1 = k ∧ (u.consumed c a.sid a).2.isSome = cur :=
  (u.run_consumed c a).1.unique (h.congr hget)

/-- The current entry resets its stream as R38 says. -/
theorem State.goodReset_consumed {s u : State} {c : Nat} {a : AnchorStream}
    (hget : ∀ i, u.listenEntry c a.sid i = s.listenEntry c a.sid i) :
    goodReset (u.consumed c a.sid a).2 = true ↔ s.Resets c a := by
  obtain ⟨hrun, hcur⟩ := u.run_consumed c a
  have hs := hrun.congr (u := s) fun i => by rw [hget]
  generalize u.consumed c a.sid a = x at hrun hcur hs ⊢
  obtain ⟨k, cur⟩ := x
  dsimp only at hrun hcur hs ⊢
  cases cur with
  | none =>
    refine ⟨fun h => absurd h Bool.false_ne_true, fun ⟨k', hk', _⟩ => ?_⟩
    exact absurd (hs.unique hk').2 Bool.false_ne_true
  | some e =>
    have he : e = s.listenEntry c a.sid ((a.rp + k) % 2 ^ 32) := by
      rw [← hget]; exact Option.some.inj (hcur rfl)
    have hgood : goodReset (some e) = true ↔ e.2 = false ∧ (leField e.1 4 2).testBit 1 = true := by
      obtain ⟨bs, poison⟩ := e
      cases poison with
      | false => exact ⟨fun h => ⟨rfl, h⟩, fun h => h.2⟩
      | true => exact ⟨fun h => absurd h Bool.false_ne_true, fun h => absurd h.1.symm Bool.false_ne_true⟩
    rw [hgood]
    refine ⟨fun h => ⟨k, hs, he ▸ h⟩, fun ⟨k', hk', h⟩ => ?_⟩
    rw [he, (hs.unique hk').1]
    exact h

/-! ### The ring still holds what it held -/

/-- Where a state is held and the ring's place stands, the entries of an active stream are what they were. -/
theorem State.Held.listenEntry {s0 t : State} {c sid : Nat} (H : s0.Held c t) (hs : sid < 512) (ha : s0.active c sid = true)
    (hring : t.st c sid stLring = s0.st c sid stLring) (hlog : t.st c sid stLlog = s0.st c sid stLlog) (i : Nat) :
    (t.listenEntry c sid i).1 = (s0.listenEntry c sid i).1 ∧
      (t.memEcc = s0.memEcc → t.listenEntry c sid i = s0.listenEntry c sid i) := by
  have hsame : Mem.Same s0.mem t.mem (s0.st c sid stLring + 64 * (i % 2 ^ s0.st c sid stLlog)) 64 := by
    have hlt := Nat.mod_lt i (Nat.two_pow_pos (s0.st c sid stLlog))
    exact (H.same_listen hs ha).mono (by omega) (by omega)
  have hbytes := hsame.bytes_eq
  unfold State.listenEntry
  dsimp only
  rw [hring, hlog, hbytes]
  exact ⟨rfl, fun h => by rw [h]⟩

end Sys2Proof.Machine

namespace Sys2Proof.Machine

/-! ## The steps of a commit after the entries: pointers, the flip, the children, the end (R26, R27) -/

/-- The fields that a commit moves of a stream's position and counters. -/
def ptrFields : List (Nat × Nat) := [stN, stRp, stLate, stStarved]

theorem ptrFields_sub : ∀ f ∈ ptrFields, f ∈ stFields := by decide

section
variable {s0 t u : State} {c : Nat} {A : Nat → Prop} {W : Nat → Nat × Nat → Prop}

/-- A state that differs only so is held if the one before was. -/
theorem State.Held.next (H : s0.Held c t) (h : s0.Does c (s0.Loose c) W t u) : s0.Held c u := H.does h fun _ hx => hx

/-- The counter of a consumed run, and the pointer past it and its current entry. -/
def State.passRun (t : State) (c : Nat) (a : AnchorStream) (late : Nat) (current : Bool) : State :=
  (t.count c a.sid stLate late).setSt c a.sid stRp (a.rp + late + (if current = true then 1 else 0))

/-- A stream without a current entry is starved. -/
def State.starveIf (t : State) (c sid : Nat) (current : Bool) : State :=
  if current = true then t else t.count c sid stStarved 1

theorem State.movePointers_eq (t : State) (c : Nat) (a : AnchorStream) (late : Nat) (current : Bool) :
    t.movePointers c a late current =
      ((t.passRun c a late current).starveIf c a.sid current).setSt c a.sid stN (a.n + 1) := rfl

theorem State.Held.passRun_does (H : s0.Held c t) (a : AnchorStream) (late : Nat) (current : Bool) (hs : a.sid < 512)
    (hL : W a.sid stLate) (hR : W a.sid stRp) : s0.Does c A W t (t.passRun c a late current) := by
  have h := fun B => H.count_does (A := B) (W := W) hs (f := stLate) (by decide) late hL
  exact (h A).trans ((H.next (h _)).setSt_does hs (f := stRp) (by decide) _ hR)

theorem State.Held.st_passRun (H : s0.Held c t) (a : AnchorStream) (late : Nat) (current : Bool) (hs : a.sid < 512) :
    (t.passRun c a late current).st c a.sid stRp = (a.rp + late + if current = true then 1 else 0) % 2 ^ 32 ∧
      (t.passRun c a late current).st c a.sid stLate = min 0xFFFF (t.st c a.sid stLate + late) := by
  have h := H.st_count hs (f := stLate) (by decide) rfl late
  have Hc := H.next (W := fun _ _ => True) (H.count_does hs (f := stLate) (by decide) late trivial)
  unfold State.passRun
  generalize t.count c a.sid stLate late = u at h Hc ⊢
  have hset := fun f hf => Hc.st_setSt (sid := a.sid) (sid' := a.sid) hs (f := stRp) (f' := f) (by decide) hf
    (a.rp + late + if current = true then 1 else 0)
  refine ⟨?_, ?_⟩
  · rw [hset stRp (by decide)]
    exact if_pos ⟨rfl, rfl⟩
  · rw [hset stLate (by decide), ← h]
    exact if_neg fun x => absurd x.2 (by decide)

theorem State.Held.starveIf_does (H : s0.Held c t) {sid : Nat} (current : Bool) (hs : sid < 512) (hW : W sid stStarved) :
    s0.Does c A W t (t.starveIf c sid current) := by
  unfold State.starveIf
  split
  · exact .refl ..
  · exact H.count_does hs (by decide) 1 hW

theorem State.Held.st_starveIf (H : s0.Held c t) {sid : Nat} (current : Bool) (hs : sid < 512) :
    (t.starveIf c sid current).st c sid stStarved =
      if current = true then t.st c sid stStarved else min 0xFFFF (t.st c sid stStarved + 1) := by
  unfold State.starveIf
  split
  · rfl
  · exact H.st_count hs (by decide) rfl 1

theorem State.Held.movePointers_does (H : s0.Held c t) (a : AnchorStream) (late : Nat) (current : Bool) (hs : a.sid < 512)
    (hW : ∀ f ∈ ptrFields, W a.sid f) : s0.Does c A W t (t.movePointers c a late current) := by
  rw [t.movePointers_eq]
  have h1 := fun B => H.passRun_does (A := B) (W := W) a late current hs (hW _ (by decide)) (hW _ (by decide))
  have H1 := H.next (h1 _)
  generalize t.passRun c a late current = u at h1 H1 ⊢
  have h2 := fun B => H1.starveIf_does (A := B) (W := W) current hs (hW _ (by decide))
  have H2 := H1.next (h2 _)
  generalize u.starveIf c a.sid current = v at h2 H2 ⊢
  exact ((h1 A).trans (h2 A)).trans (H2.setSt_does hs (by decide) _ (hW _ (by decide)))

/-- What the fields of a stream read after its pointers have moved (R26, R27). -/
theorem State.Held.st_movePointers (H : s0.Held c t) (a : AnchorStream) (late : Nat) (current : Bool) (hs : a.sid < 512) :
    (t.movePointers c a late current).st c a.sid stN = (a.n + 1) % 2 ^ 64 ∧
      (t.movePointers c a late current).st c a.sid stRp = (a.rp + late + if current = true then 1 else 0) % 2 ^ 32 ∧
      (t.movePointers c a late current).st c a.sid stLate = min 0xFFFF (t.st c a.sid stLate + late) ∧
      (t.movePointers c a late current).st c a.sid stStarved =
        if current = true then t.st c a.sid stStarved else min 0xFFFF (t.st c a.sid stStarved + 1) := by
  rw [t.movePointers_eq]
  obtain ⟨hrp, hlate⟩ := H.st_passRun a late current hs
  have hd1 := H.passRun_does (A := s0.Loose c) (W := fun _ f => f = stLate ∨ f = stRp) a late current hs (.inl rfl) (.inr rfl)
  have hstv := hd1.fields a.sid hs stStarved (by decide) (by decide)
  have H1 := H.next hd1
  generalize t.passRun c a late current = u at hrp hlate hstv H1 ⊢
  have hstarved := H1.st_starveIf (sid := a.sid) current hs
  have hd2 := H1.starveIf_does (A := s0.Loose c) (W := fun _ f => f = stStarved) (sid := a.sid) current hs rfl
  have hkeep := fun f hf hne => hd2.fields a.sid hs f hf hne
  have H2 := H1.next hd2
  generalize u.starveIf c a.sid current = v at hstarved hkeep H2 ⊢
  have hset := fun f hf => H2.st_setSt (sid := a.sid) (sid' := a.sid) hs (f := stN) (f' := f) (by decide) hf (a.n + 1)
  refine ⟨?_, ?_, ?_, ?_⟩
  · rw [hset stN (by decide), if_pos ⟨rfl, rfl⟩]
    rfl
  · rw [hset stRp (by decide), if_neg fun x => absurd x.2 (by decide), hkeep stRp (by decide) (by decide), hrp]
  · rw [hset stLate (by decide), if_neg fun x => absurd x.2 (by decide), hkeep stLate (by decide) (by decide), hlate]
  · rw [hset stStarved (by decide), if_neg fun x => absurd x.2 (by decide), hstarved, hstv]

/-! ### All the streams of the step -/

/-- The commit moves this stream's pointers: it survives, was not reset and is no child of this commit. -/
def CommitView.moves (v : CommitView) (u : State) (c sid : Nat) : Bool :=
  u.active c sid && !v.resets.contains sid && !(v.born.any fun b => b.1 = sid)

/-- A stream's part in step 6. -/
def State.moveIf (u : State) (c : Nat) (v : CommitView) (a : AnchorStream) : State :=
  if v.moves u c a.sid then u.movePointers c a (u.consumed c a.sid a).1 (u.consumed c a.sid a).2.isSome else u

theorem State.commitPointers_eq_foldl (u : State) (p i : Nat) (v : CommitView) :
    u.commitPointers p i v =
      ((u.partAt p).res i).atAnchor.foldl (fun t a => t.moveIf ((u.partAt p).res i).ctx v a) u := u.commitPointers_eq p i v

/-- Fields that step 6 writes, of the streams on a list. -/
def CommitView.moved (v : CommitView) (u : State) (c : Nat) (l : List AnchorStream) (sid : Nat) (f : Nat × Nat) : Prop :=
  (∃ a ∈ l, a.sid = sid) ∧ v.moves u c sid = true ∧ f ∈ ptrFields

theorem CommitView.moves_congr (v : CommitView) {t u : State} {c sid : Nat} (h : t.st c sid stState = u.st c sid stState) :
    v.moves t c sid = v.moves u c sid := by
  have ha : t.active c sid = u.active c sid := by
    rw [Bool.eq_iff_iff, t.active_iff, u.active_iff, h]
  unfold CommitView.moves
  rw [ha]

theorem CommitView.not_moved_state (v : CommitView) (u : State) (c : Nat) (l : List AnchorStream) (sid : Nat) :
    ¬v.moved u c l sid stState := fun h => absurd h.2.2 (by decide)

theorem State.Held.moveIf_does (H : s0.Held c t) (v : CommitView) (l : List AnchorStream) (a : AnchorStream) (ha : a ∈ l)
    (hs : a.sid < 512) (hst : t.st c a.sid stState = u.st c a.sid stState) :
    s0.Does c A (v.moved u c l) t (t.moveIf c v a) := by
  unfold State.moveIf
  rw [v.moves_congr hst]
  split
  · next hm => exact H.movePointers_does a _ _ hs fun f hf => ⟨⟨a, ha, rfl⟩, hm, hf⟩
  · exact .refl ..

theorem State.Held.moveAll_does (H : s0.Held c u) (v : CommitView) (l : List AnchorStream) (hs : ∀ a ∈ l, a.sid < 512) :
    s0.Does c A (v.moved u c l) u (l.foldl (fun t a => t.moveIf c v a) u) := by
  have h : ∀ B, s0.Does c B (v.moved u c l) u (l.foldl (fun t a => t.moveIf c v a) u) ∧
      s0.Does c (s0.Loose c) (v.moved u c l) u (l.foldl (fun t a => t.moveIf c v a) u) := fun B =>
    List.foldlRecOn l (fun t a => t.moveIf c v a) (motive := fun t => s0.Does c B (v.moved u c l) u t ∧
      s0.Does c (s0.Loose c) (v.moved u c l) u t) ⟨.refl .., .refl ..⟩ fun t ht a ha => by
        have Ht := H.next ht.2
        have hst := ht.2.fields a.sid (hs a ha) stState (by decide) (v.not_moved_state u c l a.sid)
        exact ⟨ht.1.trans (Ht.moveIf_does v l a ha (hs a ha) hst), ht.2.trans (Ht.moveIf_does v l a ha (hs a ha) hst)⟩
  exact (h A).1

/-- A stream that step 6 moves consumes its run (R26, R27). -/
theorem State.Held.moveAll_moved (H : s0.Held c u) (v : CommitView) (l : List AnchorStream) (hs : ∀ a ∈ l, a.sid < 512)
    (hn : (l.map (·.sid)).Nodup) (a : AnchorStream) (ha : a ∈ l) (hm : v.moves u c a.sid = true) (hact : s0.active c a.sid = true)
    (hring : u.st c a.sid stLring = s0.st c a.sid stLring) (hlog : u.st c a.sid stLlog = s0.st c a.sid stLlog) {k : Nat} {cur : Bool}
    (hrun : s0.Run c a k cur) :
    (l.foldl (fun t a => t.moveIf c v a) u).st c a.sid stN = (a.n + 1) % 2 ^ 64 ∧
      (l.foldl (fun t a => t.moveIf c v a) u).st c a.sid stRp = (a.rp + k + if cur = true then 1 else 0) % 2 ^ 32 ∧
      (l.foldl (fun t a => t.moveIf c v a) u).st c a.sid stLate = min 0xFFFF (u.st c a.sid stLate + k) ∧
      (l.foldl (fun t a => t.moveIf c v a) u).st c a.sid stStarved =
        if cur = true then u.st c a.sid stStarved else min 0xFFFF (u.st c a.sid stStarved + 1) := by
  obtain ⟨l1, l2, rfl⟩ := List.append_of_mem ha
  rw [List.map_append, List.map_cons, List.nodup_append, List.nodup_cons] at hn
  obtain ⟨-, ⟨hn2, -⟩, hdis⟩ := hn
  have hnot1 : ∀ f, ¬v.moved u c l1 a.sid f := fun f ⟨⟨b, hb, hbs⟩, _⟩ =>
    hdis b.sid (List.mem_map_of_mem hb) a.sid List.mem_cons_self hbs
  have hpre := H.moveAll_does (A := s0.Loose c) v l1 fun b hb => hs b (List.mem_append_left _ hb)
  have Hp := H.next hpre
  rw [List.foldl_append, List.foldl_cons]
  generalize l1.foldl (fun t a => t.moveIf c v a) u = t1 at hpre Hp ⊢
  have hasid := hs a ha
  have hkeep := fun f hf => hpre.fields a.sid hasid f hf (hnot1 f)
  have hmt : v.moves t1 c a.sid = true := by rw [v.moves_congr (hkeep stState (by decide)), hm]
  have hget := fun i => (Hp.listenEntry hasid hact ((hkeep stLring (by decide)).trans hring)
    ((hkeep stLlog (by decide)).trans hlog) i).1
  obtain ⟨hk, hcur⟩ := State.consumed_of_run hget hrun
  have hstep : t1.moveIf c v a = t1.movePointers c a k cur := by
    unfold State.moveIf
    rw [if_pos hmt, hk, hcur]
  have hmove := Hp.st_movePointers a k cur hasid
  have hmd := Hp.movePointers_does (A := s0.Loose c) (W := fun _ _ => True) a k cur hasid fun _ _ => trivial
  have Hm := Hp.next hmd
  rw [← hstep] at hmove Hm
  generalize t1.moveIf c v a = t2 at hmove Hm ⊢
  have hpost := Hm.moveAll_does (A := s0.Loose c) v l2 fun b hb => hs b (List.mem_append_right _ (List.mem_cons_of_mem _ hb))
  have hnot2 : ∀ f, ¬v.moved t2 c l2 a.sid f := fun f ⟨⟨b, hb, hbs⟩, _⟩ => hn2 (hbs ▸ List.mem_map_of_mem hb)
  have hkeep2 := fun f hf => hpost.fields a.sid hasid f hf (hnot2 f)
  rw [hkeep2 stN (by decide), hkeep2 stRp (by decide), hkeep2 stLate (by decide), hkeep2 stStarved (by decide)]
  rw [hkeep stLate (by decide), hkeep stStarved (by decide)] at hmove
  exact hmove

end

end Sys2Proof.Machine

namespace Sys2Proof.Machine

/-! ## The flip, the children and the end of a commit (R27, R35, R40, R166) -/

theorem State.uncache_mem (s : State) (rs : List Nat) (f : XlatEntry → Bool) : (s.uncache rs f).mem = s.mem :=
  List.foldlRecOn (motive := fun t : State => t.mem = s.mem) rs _ rfl fun _ ht _ _ => ht

theorem State.st_lt (s : State) (c sid : Nat) (f : Nat × Nat) : s.st c sid f < 256 ^ f.2 := Mem.nat_lt ..

section
variable {s0 t u : State} {c : Nat} {A : Nat → Prop} {W : Nat → Nat × Nat → Prop}

/-! ### FLIP -/

/-- FLIP stands where word 0 of the translation entry is not written. -/
theorem State.Held.ctxWord_zero (H : s0.Held c t) (h : s0.Stays c A t u) (hA : ∀ x, s0.InWord c x → ¬A x) :
    u.ctxWord c 0 = t.ctxWord c 0 := by
  have hat : ∀ y : State, y.ctxbase = s0.ctxbase → y.ctxWord c 0 = Mem.nat y.mem (s0.ctxWordAt c 0) 8 := fun y hy => by
    unfold State.ctxWord State.ctxWordAt; rw [hy]
  rw [hat u (h.ctxbase.trans H.stays.ctxbase), hat t H.stays.ctxbase]
  obtain ⟨-, htw, hdw, -⟩ := H.laid.tables
  refine Mem.Same.nat_eq fun x h1 h2 => ?_
  have hw : s0.InWord c x := ⟨h1, h2⟩
  exact h.mem x (fun k => htw.not_in k.in_table hw.in_word) (fun k => hdw.not_in k.in_desc hw.in_word) (hA x hw)

theorem State.Held.flipOf (H : s0.Held c t) (h : s0.Stays c A t u) (hA : ∀ x, s0.InWord c x → ¬A x) : u.flipOf c = t.flipOf c := by
  unfold State.flipOf
  rw [H.ctxWord_zero h hA]

theorem State.Held.commitFlip_does (H : s0.Held c t) (p i : Nat) (hctx : ((t.partAt p).res i).ctx = c)
    (hA : ∀ x, s0.InWord c x → A x) : s0.Does c A W t (t.commitFlip p i) := by
  unfold State.commitFlip
  dsimp only
  rw [hctx]
  split
  · exact (H.setCtxWord_does _ hA).trans (.of_mem (State.uncache_notes ..).ctxbase (State.uncache_mem ..))
  · exact .refl ..

/-- The other half of a bit pair. -/
theorem bits_setBits_flip (w : Nat) : bits (setBits w 1 1 (1 - bits w 1 1) % 256 ^ 8) 1 1 = 1 - bits w 1 1 := by
  unfold setBits bits
  norm_num
  omega

theorem State.flipOf_commitFlip (t : State) (p i : Nat) (hctx : ((t.partAt p).res i).ctx = c) :
    (t.commitFlip p i).flipOf c = if (t.partAt p).flip = true then 1 - t.flipOf c else t.flipOf c := by
  unfold State.commitFlip
  dsimp only
  rw [hctx]
  split
  · have hword : ∀ v rs f, ((t.setCtxWord c 0 v).uncache rs f).ctxWord c 0 = v % 256 ^ 8 := fun v rs f => by
      unfold State.ctxWord
      rw [State.uncache_mem, (State.uncache_notes ..).ctxbase]
      exact Mem.nat_putNat_same t.mem (t.ctxWordAt c 0) 8 v
    unfold State.flipOf
    rw [hword, bits_setBits_flip]
  · rfl

/-! ### Fields copied from a parent to its child -/

/-- Fields of one stream are copied into another, one after another. -/
def State.copyFields (t : State) (c parent child : Nat) (l : List (Nat × Nat)) : State :=
  l.foldl (fun s f => s.setSt c child f (s.st c parent f)) t

theorem State.Held.copyFields_does (H : s0.Held c t) {parent child : Nat} (hc : child < 512) (l : List (Nat × Nat))
    (hl : ∀ f ∈ l, f ∈ stFields) (hW : ∀ f ∈ l, W child f) : s0.Does c A W t (t.copyFields c parent child l) := by
  unfold State.copyFields
  induction l generalizing t with
  | nil => exact .refl ..
  | cons g l ih =>
    rw [List.foldl_cons]
    have hset := fun B => H.setSt_does (A := B) (W := W) hc (hl g List.mem_cons_self) (t.st c parent g) (hW g List.mem_cons_self)
    exact (hset A).trans (ih (H.next (hset _)) (fun f hf => hl f (List.mem_cons_of_mem _ hf)) fun f hf => hW f (List.mem_cons_of_mem _ hf))

theorem State.Held.st_copyFields (H : s0.Held c t) {parent child : Nat} (hc : child < 512) (hne : parent ≠ child)
    (l : List (Nat × Nat)) (hl : ∀ f ∈ l, f ∈ stFields) (f : Nat × Nat) (hf : f ∈ l) :
    (t.copyFields c parent child l).st c child f = t.st c parent f := by
  induction l generalizing t with
  | nil => exact absurd hf List.not_mem_nil
  | cons g l ih =>
    have hg := hl g List.mem_cons_self
    have hl' : ∀ f ∈ l, f ∈ stFields := fun f hf => hl f (List.mem_cons_of_mem _ hf)
    have hset := fun sid f' hf' => H.st_setSt (sid' := sid) (f' := f') hc hg hf' (t.st c parent g)
    have H1 := H.next (W := fun _ _ => True) (H.setSt_does hc hg (t.st c parent g) trivial)
    have hcons : t.copyFields c parent child (g :: l) = (t.setSt c child g (t.st c parent g)).copyFields c parent child l := rfl
    rw [hcons]
    generalize t.setSt c child g (t.st c parent g) = t1 at hset H1 ⊢
    by_cases hfl : f ∈ l
    · rw [ih H1 hl' hfl, hset parent f (hl f hf), if_neg fun x => hne x.1]
    · have hfg : f = g := (List.mem_cons.mp hf).resolve_right hfl
      have hrest := H1.copyFields_does (A := s0.Loose c) (W := fun _ f => f ∈ l) (parent := parent) hc l hl' fun _ h => h
      rw [hrest.fields child hc f (hl f hf) hfl, hset child f (hl f hf), if_pos ⟨rfl, hfg⟩, hfg]
      exact Nat.mod_eq_of_lt (State.st_lt ..)

/-! ### The settled child (R40) -/

theorem State.settleChild_eq (t : State) (c parent child : Nat) :
    t.settleChild c parent child =
      (t.copyFields c parent child [stN, stQ, stRp, stSnap]).publishWord c child (t.st c parent stQ) := rfl

/-- The fields that the end of a commit writes of its children. -/
def childFields : List (Nat × Nat) := [stN, stQ, stRp, stSnap, stE, stG]

theorem State.Held.settleChild_does (H : s0.Held c t) {parent child : Nat} (hc : child < 512) (hl : s0.Live c child)
    (hA : ∀ x, s0.InRing c child x → A x) (hW : ∀ f ∈ childFields, W child f) : s0.Does c A W t (t.settleChild c parent child) := by
  rw [t.settleChild_eq]
  have h := fun B => H.copyFields_does (A := B) (W := W) (parent := parent) hc [stN, stQ, stRp, stSnap] (by decide) fun f hf =>
    hW f ((by decide : ∀ f ∈ [stN, stQ, stRp, stSnap], f ∈ childFields) f hf)
  have H1 := H.next (h _)
  generalize t.copyFields c parent child [stN, stQ, stRp, stSnap] = t1 at h H1 ⊢
  exact (h A).trans (H1.publishWord_does hc hl _ hA (hW _ (by decide)) (hW _ (by decide)))

theorem State.Held.st_settleChild (H : s0.Held c t) {parent child : Nat} (hc : child < 512) (hl : s0.Live c child)
    (hne : parent ≠ child) :
    (∀ f ∈ [stN, stQ, stRp, stSnap], (t.settleChild c parent child).st c child f = t.st c parent f) ∧
      (t.settleChild c parent child).st c child stE = t.st c parent stQ % 2 ^ 32 ∧
      (t.settleChild c parent child).st c child stG = (t.st c child stG + 1) % 2 ^ 32 ∧
      Mem.nat (t.settleChild c parent child).mem (s0.st c child stSpk + 1024) 8 =
        (t.st c child stG + 1) % 2 ^ 32 * 2 ^ 32 + t.st c parent stQ % 2 ^ 32 := by
  rw [t.settleChild_eq]
  have hcopy := fun f hf => H.st_copyFields hc hne [stN, stQ, stRp, stSnap] (by decide) f hf
  have hd := H.copyFields_does (A := s0.Loose c) (W := fun _ f => f ∈ [stN, stQ, stRp, stSnap]) (parent := parent) hc
    [stN, stQ, stRp, stSnap] (by decide) fun _ h => h
  have hG := hd.fields child hc stG (by decide) (by decide)
  have H1 := H.next hd
  generalize t.copyFields c parent child [stN, stQ, stRp, stSnap] = t1 at hcopy hG H1 ⊢
  have hpub := H1.st_publishWord hc hl (t.st c parent stQ)
  rw [hG] at hpub
  have hkeep := H1.publishWord_does (A := s0.Loose c) (W := fun _ f => f = stE ∨ f = stG) hc hl (t.st c parent stQ)
    (fun x hx => .inr ⟨child, hc, hl, hx⟩) (.inl rfl) (.inr rfl)
  refine ⟨fun f hf => ?_, hpub⟩
  have hf' : f ∈ stFields ∧ ¬(f = stE ∨ f = stG) :=
    (by decide : ∀ f ∈ [stN, stQ, stRp, stSnap], f ∈ stFields ∧ ¬(f = stE ∨ f = stG)) f hf
  rw [hkeep.fields child hc f hf'.1 hf'.2, hcopy f hf]

/-! ### The end -/

theorem State.Held.setLag_does (H : s0.Held c t) (p i n : Nat) (hctx : ((t.partAt p).res i).ctx = c) :
    s0.Does c A W t (t.setLag p i n) := by
  have hmem : ∀ v, s0.Does c v W t (t.onRes p i fun r => { r with lag := n }) := fun v => .of_mem rfl rfl
  unfold State.setLag
  dsimp only
  rw [hctx]
  exact (hmem A).trans ((H.next (hmem _)).setDesc_does n (.inl (by decide)))

theorem State.Held.commitEnd_does (H : s0.Held c t) (p i : Nat) (hctx : ((t.partAt p).res i).ctx = c) :
    s0.Does c A W t (t.commitEnd p i) := by
  rw [t.commitEnd_eq]
  dsimp only
  have h : ∀ B, s0.Does c B W t ((t.partAt p).xstep.elim t fun prio => t.onPart p fun q => q.request (q.res i).ctx prio) ∧
      (((((t.partAt p).xstep.elim t fun prio => t.onPart p fun q => q.request (q.res i).ctx prio).partAt p).res i)).ctx = c := fun B => by
    cases (t.partAt p).xstep with
    | none => exact ⟨.refl .., hctx⟩
    | some prio =>
      refine ⟨.of_mem rfl rfl, ?_⟩
      show (((t.onPart p fun q => q.request (q.res i).ctx prio).partAt p).res i).ctx = c
      rw [State.partAt_onPart_same]
      unfold Partition.request
      split
      · exact hctx
      · exact hctx
  generalize (t.partAt p).xstep.elim t _ = u at h ⊢
  split
  · exact (h A).1
  · exact (h A).1.trans ((H.next (h _).1).setLag_does p i _ (h A).2)

end

/-- A queued request stands in the queue at its priority or above (R35). -/
theorem Partition.request_queued (q : Partition) (c prio : Nat) : ∃ x ∈ (q.request c prio).xqueue, x.ctx = c ∧ prio ≤ x.prio := by
  unfold Partition.request
  split
  · next h =>
    obtain ⟨x, hx, hc⟩ := List.any_eq_true.mp h
    have hc' : x.ctx = c := of_decide_eq_true hc
    refine ⟨{ x with prio := max x.prio prio }, List.mem_map.mpr ⟨x, hx, if_pos hc'⟩, hc', Nat.le_max_right ..⟩
  · exact ⟨_, List.mem_append_right _ (List.mem_singleton_self _), rfl, Nat.le_refl _⟩

theorem Partition.request_eq (q : Partition) (c prio : Nat) :
    q.request c prio = { q with xqueue := (q.request c prio).xqueue, xseq := (q.request c prio).xseq } := by
  unfold Partition.request
  split <;> rfl

/-- The staged request is queued, where there is one. -/
def State.requests (s : State) (p i : Nat) (xstep : Option Nat) : State :=
  xstep.elim s fun prio => s.onPart p fun q => q.request (q.res i).ctx prio

theorem State.requests_part (s : State) (p i : Nat) (xstep : Option Nat) :
    (s.requests p i xstep).partAt p =
      { s.partAt p with xqueue := ((s.requests p i xstep).partAt p).xqueue, xseq := ((s.requests p i xstep).partAt p).xseq } := by
  cases xstep with
  | none => rfl
  | some prio =>
    have h : (s.requests p i (some prio)).partAt p = (s.partAt p).request ((s.partAt p).res i).ctx prio :=
      s.partAt_onPart_same p fun q => q.request (q.res i).ctx prio
    rw [h]
    exact Partition.request_eq ..

/-- The last step of a commit in its partition: the request is queued, and the lag of a step that is not the slot's own
falls (R27). -/
theorem State.commitEnd_part (s : State) (p i : Nat) :
    let q := s.partAt p
    let t := s.commitEnd p i
    t.partAt p = { q with residents := (t.partAt p).residents, xqueue := (t.partAt p).xqueue, xseq := (t.partAt p).xseq } ∧
      (t.partAt p).res i = { q.res i with lag := if q.step.kind = .owned then (q.res i).lag else (q.res i).lag - 1 } ∧
      (q.xstep = none → (t.partAt p).xqueue = q.xqueue) ∧
      ∀ prio, q.xstep = some prio → ∃ x ∈ (t.partAt p).xqueue, x.ctx = (q.res i).ctx ∧ prio ≤ x.prio := by
  intro q t
  have hu : ∃ u : State, u.partAt p = { q with xqueue := (u.partAt p).xqueue, xseq := (u.partAt p).xseq } ∧
      (q.xstep = none → (u.partAt p).xqueue = q.xqueue) ∧
      (∀ prio, q.xstep = some prio → ∃ x ∈ (u.partAt p).xqueue, x.ctx = (q.res i).ctx ∧ prio ≤ x.prio) ∧
      t = if q.step.kind = .owned then u else u.setLag p i ((q.res i).lag - 1) := by
    refine ⟨s.requests p i q.xstep, s.requests_part p i q.xstep, fun h => ?_, fun prio h => ?_, s.commitEnd_eq p i⟩
    · rw [h]; rfl
    · rw [h]
      show ∃ x ∈ ((s.onPart p fun q => q.request (q.res i).ctx prio).partAt p).xqueue, _
      rw [State.partAt_onPart_same]
      exact Partition.request_queued ..
  obtain ⟨u, hpart, hnone, hsome, ht⟩ := hu
  have hres : (u.partAt p).res i = q.res i := by rw [hpart]; rfl
  by_cases hk : q.step.kind = .owned
  · rw [if_pos hk] at ht
    rw [ht, if_pos hk]
    exact ⟨by rw [hpart], hres, hnone, hsome⟩
  · rw [if_neg hk] at ht
    rw [ht, if_neg hk, State.res_setLag, if_pos rfl, hres, (State.setLag_maps ..).part]
    exact ⟨by rw [hpart], rfl, hnone, hsome⟩

end Sys2Proof.Machine

namespace Sys2Proof.Machine

/-! ## A commit as its first five steps and the rest -/

/-- The view of the streams that a commit begins with. -/
def State.startView (s : State) (c : Nat) : CommitView := { before := s.actives c, resets := [], born := [] }

/-- E of every stream before a commit. -/
def State.endsBefore (s : State) (c sid : Nat) : Nat := s.st c sid stE

/-- What the first five steps of R27 leave, and the view of the streams that the others take. -/
def State.commitHead (s : State) (p i : Nat) : State × CommitView :=
  let q := s.partAt p
  let ops := sortBy (fun (a b : Staged) => a.org.before b.org) q.stage
  let v := s.startView (q.res i).ctx
  let a := (s.commitCancels p i v ops).commitResets p i v
  let b := a.1.commitForks p i a.2 ops
  ((b.1.commitRetracts p i b.2 ops).commitSpeaks p i b.2 (s.endsBefore (q.res i).ctx), b.2)

/-- Steps 6 and the flip, and the children's pointers. -/
def State.commitTail (u : State) (p i c : Nat) (v : CommitView) : State :=
  v.born.foldl (fun s x => s.settleChild c x.2 x.1) ((u.commitPointers p i v).commitFlip p i)

/-- The last step of a commit, and how it leaves its partition. -/
def State.finish (s : State) (p i : Nat) : State := ((s.commitEnd p i).onPart p Partition.closed).countNull p

theorem State.commit_eq_finish (s : State) (p i : Nat) :
    ((s.commit p i).onPart p Partition.closed).countNull p =
      ((s.commitHead p i).1.commitTail p i ((s.partAt p).res i).ctx (s.commitHead p i).2).finish p i := by
  rw [s.commit_eq]
  rfl

theorem State.commitHead_commits (s : State) (p i : Nat) : s.Commits p (s.commitHead p i).1 := by
  unfold State.commitHead
  extract_lets q ops v a b
  have ha : s.Commits p a.1 := (s.commitCancels_commits p i v ops).trans (State.commitResets_commits ..)
  have hb : s.Commits p b.1 := ha.trans (State.commitForks_commits ..)
  exact (hb.trans (State.commitRetracts_commits ..)).trans (State.commitSpeaks_commits ..)

theorem State.commitTail_notes (u : State) (p i c : Nat) (v : CommitView) : u.Notes (u.commitTail p i c v) :=
  ((u.commitPointers_notes p i v).trans (State.commitFlip_notes ..)).trans
    (State.Notes.foldl _ _ (fun s _ _ => s.settleChild_notes ..) _)

theorem State.Sends.keeps {s t : State} (h : s.Sends t) :
    t.retracted = s.retracted ∧ t.tails = s.tails ∧ t.mem = s.mem ∧ t.ctxbase = s.ctxbase := by
  rw [h.1]
  exact ⟨rfl, rfl, rfl, rfl⟩

/-- What the last step leaves alone. -/
theorem State.finish_keeps (s : State) (p i : Nat) :
    (s.finish p i).retracted = s.retracted ∧ (s.finish p i).tails = s.tails ∧ s.out <+: (s.finish p i).out ∧
      (s.finish p i).mem = (s.commitEnd p i).mem ∧ (s.finish p i).ctxbase = s.ctxbase := by
  have hlag : ∀ (u : State) n, (u.setLag p i n).retracted = u.retracted ∧ (u.setLag p i n).tails = u.tails ∧
      (u.setLag p i n).out = u.out ∧ (u.setLag p i n).ctxbase = u.ctxbase := fun u n => ⟨rfl, rfl, rfl, rfl⟩
  have hreq : ∀ o : Option Nat, (s.requests p i o).retracted = s.retracted ∧ (s.requests p i o).tails = s.tails ∧
      (s.requests p i o).out = s.out ∧ (s.requests p i o).ctxbase = s.ctxbase := fun o => by
    cases o with
    | none => exact ⟨rfl, rfl, rfl, rfl⟩
    | some prio => exact ⟨rfl, rfl, rfl, rfl⟩
  have hend : (s.commitEnd p i).retracted = s.retracted ∧ (s.commitEnd p i).tails = s.tails ∧ (s.commitEnd p i).out = s.out ∧
      (s.commitEnd p i).ctxbase = s.ctxbase := by
    rw [s.commitEnd_eq]
    dsimp only
    rw [← State.requests]
    have hr := hreq (s.partAt p).xstep
    generalize s.requests p i (s.partAt p).xstep = u at hr ⊢
    obtain ⟨h1, h2, h3, h4⟩ := hr
    split
    · exact ⟨h1, h2, h3, h4⟩
    · obtain ⟨k1, k2, k3, k4⟩ := hlag u (((s.partAt p).res i).lag - 1)
      exact ⟨k1.trans h1, k2.trans h2, k3.trans h3, k4.trans h4⟩
  obtain ⟨hr, ht, ho, hb⟩ := hend
  unfold State.finish
  have hsends := ((s.commitEnd p i).onPart p Partition.closed).countNull_sends p
  obtain ⟨hsr, hst, hsm, hsb⟩ := hsends.keeps
  exact ⟨hsr.trans hr, hst.trans ht, ho ▸ hsends.2.1, hsm, hsb.trans hb⟩

/-- The partition after the last step of a commit. -/
theorem State.finish_part (s : State) (p i : Nat) :
    (s.finish p i).partAt p = ((s.commitEnd p i).partAt p).closed := by
  unfold State.finish
  rw [State.partAt_of_parts (State.countNull_sends ..).parts, State.partAt_onPart_same]

section
variable {s0 t u : State} {c p i : Nat} {A : Nat → Prop} {W : Nat → Nat × Nat → Prop}

/-! ### Rings of some streams -/

/-- The rings and played records of the ids that Z names. -/
def State.RingsOf (s0 : State) (c : Nat) (Z : Nat → Prop) (x : Nat) : Prop :=
  ∃ z, z < 512 ∧ s0.Live c z ∧ Z z ∧ s0.InRing c z x

theorem State.RingsOf.loose {Z : Nat → Prop} {x : Nat} (h : s0.RingsOf c Z x) : s0.Loose c x := by
  obtain ⟨z, hz, hl, -, hin⟩ := h
  exact .inr ⟨z, hz, hl, hin⟩

theorem State.Laid.ringsOf_not_word (L : s0.Laid c) {Z : Nat → Prop} {x : Nat} (hw : s0.InWord c x) : ¬s0.RingsOf c Z x :=
  fun ⟨_, hz, hl, _, hin⟩ => (L.ring_not_table hz hl hin).2.2 hw.in_word

theorem State.Laid.ringsOf_not_ring (L : s0.Laid c) {Z : Nat → Prop} {sid x : Nat} (hs : sid < 512) (hl : s0.Live c sid) (hZ : ¬Z sid)
    (hin : s0.InRing c sid x) : ¬s0.RingsOf c Z x := by
  rintro ⟨z, hz, hlz, hZz, hzx⟩
  exact L.ring_not_ring hs hz hl hlz (fun he => hZ (he ▸ hZz)) hin hzx

theorem State.Laid.word_not_ring (L : s0.Laid c) {sid x : Nat} (hs : sid < 512) (hl : s0.Live c sid) (hin : s0.InRing c sid x) :
    ¬s0.InWord c x := fun hw => (L.ring_not_table hs hl hin).2.2 hw.in_word

/-! ### What the rest of a commit writes -/

/-- The children of a commit. -/
def CommitView.child (v : CommitView) (sid : Nat) : Prop := ∃ b ∈ v.born, b.1 = sid

/-- The fields that the rest of a commit writes. -/
def CommitView.writes (v : CommitView) (u : State) (c : Nat) (l : List AnchorStream) (sid : Nat) (f : Nat × Nat) : Prop :=
  v.moved u c l sid f ∨ v.child sid ∧ f ∈ childFields

/-- The children of a commit are ids with a ring. -/
def CommitView.Sound (v : CommitView) (s0 : State) (c : Nat) : Prop := ∀ b ∈ v.born, b.1 < 512 ∧ s0.Live c b.1

/-- The flip and the children's rings. -/
def CommitView.Reaches (v : CommitView) (s0 : State) (c x : Nat) : Prop := s0.InWord c x ∨ s0.RingsOf c v.child x

theorem CommitView.Reaches.loose {v : CommitView} {x : Nat} (h : v.Reaches s0 c x) : s0.Loose c x := by
  rcases h with h | h
  · exact .inl h
  · exact h.loose

theorem State.Held.pointers_does (H : s0.Held c u) (v : CommitView) (hctx : ((u.partAt p).res i).ctx = c)
    (hs : ∀ a ∈ ((u.partAt p).res i).atAnchor, a.sid < 512) :
    s0.Does c A (v.writes u c ((u.partAt p).res i).atAnchor) u (u.commitPointers p i v) := by
  rw [u.commitPointers_eq_foldl, hctx]
  exact (H.moveAll_does v _ hs).mono (fun _ h => h) fun _ _ => .inl

theorem State.Held.settle_does (H : s0.Held c t) (v : CommitView) (hv : v.Sound s0 c) :
    s0.Does c (v.Reaches s0 c) (fun sid f => v.child sid ∧ f ∈ childFields) t
      (v.born.foldl (fun s x => s.settleChild c x.2 x.1) t) :=
  State.Does.foldl _ _ fun y hy b hb => by
    have Hy := H.does hy fun _ => CommitView.Reaches.loose
    obtain ⟨hlt, hlive⟩ := hv b hb
    exact Hy.settleChild_does hlt hlive (fun x hx => .inr ⟨b.1, hlt, hlive, ⟨b, hb, rfl⟩, hx⟩) fun f hf => ⟨⟨b, hb, rfl⟩, hf⟩

theorem State.Held.finish_does (H : s0.Held c t) (hctx : ((t.partAt p).res i).ctx = c) : s0.Does c A W t (t.finish p i) := by
  obtain ⟨-, -, -, hmem, hbase⟩ := t.finish_keeps p i
  have hd := H.commitEnd_does (A := A) (W := W) p i hctx
  exact hd.trans (.of_mem (hbase.trans hd.ctxbase.symm) hmem)

theorem State.Held.tail_does (H : s0.Held c u) (v : CommitView) (hv : v.Sound s0 c) (hctx : ((u.partAt p).res i).ctx = c)
    (hs : ∀ a ∈ ((u.partAt p).res i).atAnchor, a.sid < 512) :
    s0.Does c (v.Reaches s0 c) (v.writes u c ((u.partAt p).res i).atAnchor) u ((u.commitTail p i c v).finish p i) := by
  have hp := fun B => H.pointers_does (A := B) v hctx hs
  have hpart := (u.commitPointers_notes p i v).partAt p
  have Hp := H.next (hp _)
  have hend := (u.commitTail_notes p i c v).partAt p
  unfold State.commitTail at hend ⊢
  generalize u.commitPointers p i v = x at hp hpart Hp hend ⊢
  have hf := fun B hB => Hp.commitFlip_does (A := B) (W := v.writes u c ((u.partAt p).res i).atAnchor) p i (by rw [hpart]; exact hctx) hB
  have Hf := Hp.next (hf _ fun _ => .inl)
  generalize x.commitFlip p i = y at hf Hf hend ⊢
  have hc := Hf.settle_does v hv
  have Hc := Hf.does hc fun _ => CommitView.Reaches.loose
  generalize v.born.foldl _ y = z at hc Hc hend ⊢
  have hc' := hc.mono (fun _ h => h) (V := v.writes u c ((u.partAt p).res i).atAnchor) fun _ _ => .inr
  exact (((hp _).trans (hf _ fun _ => .inl)).trans hc').trans (Hc.finish_does (by rw [hend]; exact hctx))

/-- FLIP after the rest of a commit (R166). -/
theorem State.Held.flipOf_tail (H : s0.Held c u) (v : CommitView) (hv : v.Sound s0 c) (hctx : ((u.partAt p).res i).ctx = c)
    (hs : ∀ a ∈ ((u.partAt p).res i).atAnchor, a.sid < 512) :
    ((u.commitTail p i c v).finish p i).flipOf c = if (u.partAt p).flip = true then 1 - u.flipOf c else u.flipOf c := by
  have hp := fun B => H.pointers_does (A := B) v hctx hs
  have hpart := (u.commitPointers_notes p i v).partAt p
  have hflipp := H.flipOf (hp fun _ => False).toStays fun _ _ => id
  have Hp := H.next (hp _)
  have hend := (u.commitTail_notes p i c v).partAt p
  unfold State.commitTail at hend ⊢
  generalize u.commitPointers p i v = x at hp hpart Hp hend hflipp ⊢
  have hxctx : ((x.partAt p).res i).ctx = c := by rw [hpart]; exact hctx
  have hflip := x.flipOf_commitFlip p i hxctx
  have Hf := Hp.next (W := fun _ _ => False) (Hp.commitFlip_does p i hxctx fun _ => .inl)
  generalize x.commitFlip p i = y at Hf hend hflip ⊢
  have hborn : s0.Does c (s0.RingsOf c v.child) (fun sid f => v.child sid ∧ f ∈ childFields) y
      (v.born.foldl (fun s x => s.settleChild c x.2 x.1) y) := State.Does.foldl _ _ fun z hz b hb => by
    obtain ⟨hlt, hlive⟩ := hv b hb
    exact (Hf.does hz fun _ => State.RingsOf.loose).settleChild_does hlt hlive (fun x hx => ⟨b.1, hlt, hlive, ⟨b, hb, rfl⟩, hx⟩)
      fun f hf => ⟨⟨b, hb, rfl⟩, hf⟩
  have hflipb := Hf.flipOf hborn.toStays fun _ => H.laid.ringsOf_not_word
  have Hc := Hf.does hborn fun _ => State.RingsOf.loose
  generalize v.born.foldl _ y = z at hborn hflipb Hc hend ⊢
  have hzctx : ((z.partAt p).res i).ctx = c := by rw [hend]; exact hctx
  rw [Hc.flipOf (Hc.finish_does (A := fun _ => False) (W := fun _ _ => False) hzctx).toStays fun _ _ => id, hflipb, hflip, hflipp, hpart]

end

end Sys2Proof.Machine

namespace Sys2Proof.Machine

/-! ## What every commit does, whatever its step staged (R27) -/

/-- An open step of resident i of partition p stands at its commit beat, with the streams of its anchor told apart and no
reset waiting. -/
structure State.Committing (s : State) (p i : Nat) : Prop where
  laid : s.Laid ((s.partAt p).res i).ctx
  resident : (s.partAt p).step.resident = i
  run : (s.partAt p).phase = .run
  isOpen : (s.partAt p).step.outcome = .open_
  beat : (s.partAt p).step.anchor + (s.partAt p).step.rdz + 16 ≤ (s.partAt p).topo
  small : ∀ a ∈ ((s.partAt p).res i).atAnchor, a.sid < 512
  nodup : (((s.partAt p).res i).atAnchor.map (·.sid)).Nodup
  resets : ((s.partAt p).res i).resets = []

/-- Beside its effect on streams a commit inverts a staged FLIP, queues a staged request and lowers the lag of a step that is
not the slot's own. -/
def State.Closing (s : State) (p i : Nat) (t : State) : Prop :=
  let q := s.partAt p
  let c := (q.res i).ctx
  t.flipOf c = (if q.flip = true then 1 - s.flipOf c else s.flipOf c) ∧
    ((t.partAt p).res i).lag = (if q.step.kind = .owned then (q.res i).lag else (q.res i).lag - 1) ∧
    (q.xstep = none → (t.partAt p).xqueue = q.xqueue) ∧
    ∀ prio, q.xstep = some prio → ∃ x ∈ (t.partAt p).xqueue, x.ctx = c ∧ prio ≤ x.prio

section
variable {s u : State} {p i c : Nat} {v : CommitView} {Z : Nat → Prop} {W : Nat → Nat × Nat → Prop}

/-- What the first five steps of a commit are known to do: u and v are what they leave, the rings of Z and the fields of W
what they write. -/
structure State.Heads (s : State) (p i : Nat) (Z : Nat → Prop) (W : Nat → Nat × Nat → Prop) (u : State) (v : CommitView) : Prop where
  head : s.commitHead p i = (u, v)
  does : s.Does ((s.partAt p).res i).ctx (s.RingsOf ((s.partAt p).res i).ctx Z) W s u
  sound : v.Sound s ((s.partAt p).res i).ctx

/-- The state after a commit. -/
def State.committed (s : State) (p i : Nat) : State :=
  ((s.commitHead p i).1.commitTail p i ((s.partAt p).res i).ctx (s.commitHead p i).2).finish p i

theorem State.Committing.exec_eq (C : s.Committing p i) : exec (.stepCommit p) s = .next (s.committed p i) := by
  rw [execStepCommit_eq p s C.run C.isOpen C.beat, C.resident, s.commit_eq_finish]
  rfl

theorem State.Heads.committed_eq (h : s.Heads p i Z W u v) :
    s.committed p i = (u.commitTail p i ((s.partAt p).res i).ctx v).finish p i := by
  unfold State.committed
  rw [h.head]

theorem State.Heads.commits (h : s.Heads p i Z W u v) : s.Commits p u := by
  have hc := s.commitHead_commits p i
  rw [h.head] at hc
  exact hc

theorem State.Heads.held (h : s.Heads p i Z W u v) (C : s.Committing p i) : s.Held ((s.partAt p).res i).ctx u :=
  C.laid.held.does h.does fun _ => State.RingsOf.loose

theorem State.Heads.ctx_eq (h : s.Heads p i Z W u v) : ((u.partAt p).res i).ctx = ((s.partAt p).res i).ctx := by
  rw [h.commits.res i]

theorem State.Heads.anchors_eq (h : s.Heads p i Z W u v) :
    ((u.partAt p).res i).atAnchor = ((s.partAt p).res i).atAnchor := by rw [h.commits.res i]

theorem State.Heads.small (h : s.Heads p i Z W u v) (C : s.Committing p i) :
    ∀ a ∈ ((u.partAt p).res i).atAnchor, a.sid < 512 := by rw [h.anchors_eq]; exact C.small

theorem State.Heads.closing (h : s.Heads p i Z W u v) (C : s.Committing p i) : s.Closing p i (s.committed p i) := by
  have H := h.held C
  have hflip := H.flipOf_tail v h.sound h.ctx_eq (h.small C)
  rw [C.laid.held.flipOf h.does.toStays fun _ => C.laid.ringsOf_not_word, h.commits.part] at hflip
  rw [h.committed_eq]
  refine ⟨hflip, ?_⟩
  have hpart := (u.commitTail_notes p i ((s.partAt p).res i).ctx v).partAt p
  rw [State.finish_part]
  generalize u.commitTail p i ((s.partAt p).res i).ctx v = y at hpart ⊢
  obtain ⟨hend, hlag, hnone, hsome⟩ := y.commitEnd_part p i
  have hkeep : (u.partAt p).xstep = (s.partAt p).xstep ∧ (u.partAt p).xqueue = (s.partAt p).xqueue ∧
      (u.partAt p).step.kind = (s.partAt p).step.kind := by rw [h.commits.part]; exact ⟨rfl, rfl, rfl⟩
  obtain ⟨hx, hq, hkind⟩ := hkeep
  rw [hpart, hx] at hnone hsome
  rw [hpart, hkind] at hlag
  rw [hq] at hnone
  rw [h.ctx_eq] at hsome
  refine ⟨?_, hnone, hsome⟩
  show ((((y.commitEnd p i).partAt p).res i)).lag = _
  rw [hlag, h.commits.res i]

/-- The fields that a whole commit may write. -/
theorem State.Heads.st_eq (h : s.Heads p i Z W u v) (C : s.Committing p i) {sid : Nat} (hs : sid < 512) {f : Nat × Nat} (hf : f ∈ stFields)
    (hw : ¬v.writes u ((s.partAt p).res i).ctx ((s.partAt p).res i).atAnchor sid f) :
    (s.committed p i).st ((s.partAt p).res i).ctx sid f = u.st ((s.partAt p).res i).ctx sid f := by
  have hd := (h.held C).tail_does v h.sound h.ctx_eq (h.small C)
  rw [h.anchors_eq] at hd
  rw [h.committed_eq]
  exact hd.fields sid hs f hf hw

/-- From the head of a commit to its end only the flip and its children's rings are written, beside the tables. -/
theorem State.Heads.tail_stays (h : s.Heads p i Z W u v) (C : s.Committing p i) :
    s.Stays ((s.partAt p).res i).ctx (v.Reaches s ((s.partAt p).res i).ctx) u (s.committed p i) := by
  rw [h.committed_eq]
  exact ((h.held C).tail_does v h.sound h.ctx_eq (h.small C)).toStays

/-- A ring that no child takes stands after the head. -/
theorem State.Heads.ring_after (h : s.Heads p i Z W u v) (C : s.Committing p i) {sid : Nat} (hs : sid < 512)
    (hl : s.Live ((s.partAt p).res i).ctx sid) (hv : ¬v.child sid) :
    Mem.Same u.mem (s.committed p i).mem (s.st ((s.partAt p).res i).ctx sid stSpk) 1032 := by
  refine ((h.tail_stays C).same_ring C.laid hs hl fun x hx => ?_).1
  rintro (hw | hr)
  · exact C.laid.word_not_ring hs hl hx hw
  · exact C.laid.ringsOf_not_ring hs hl hv hx hr

/-- A ring that Z leaves out stands up to the head. -/
theorem State.Heads.ring_before (h : s.Heads p i Z W u v) (C : s.Committing p i) {sid : Nat} (hs : sid < 512)
    (hl : s.Live ((s.partAt p).res i).ctx sid) (hZ : ¬Z sid) :
    Mem.Same s.mem u.mem (s.st ((s.partAt p).res i).ctx sid stSpk) 1032 :=
  (h.does.toStays.same_ring C.laid hs hl fun _ hx => C.laid.ringsOf_not_ring hs hl hZ hx).1

/-- Fields that step 6 does not write. -/
theorem CommitView.not_writes {l : List AnchorStream} {sid : Nat} {f : Nat × Nat} (hv : ¬v.child sid) (hf : f ∉ ptrFields) :
    ¬v.writes u c l sid f := by
  rintro (h | h)
  · exact hf h.2.2
  · exact hv h.1

/-- A stream that the commit moves consumes its run. -/
theorem State.Heads.moved (h : s.Heads p i Z W u v) (C : s.Committing p i) (a : AnchorStream)
    (ha : a ∈ ((s.partAt p).res i).atAnchor) (hact : s.active ((s.partAt p).res i).ctx a.sid = true) (hv : ¬v.child a.sid)
    (hres : v.resets.contains a.sid = false)
    (hW : ∀ f ∈ [stState, stLring, stLlog, stLate, stStarved], ¬W a.sid f) :
    s.Moved (s.committed p i) ((s.partAt p).res i).ctx a := by
  have hs := C.small a ha
  have hkeep := fun f (hf : f ∈ [stState, stLring, stLlog, stLate, stStarved]) => h.does.fields a.sid hs f
    ((by decide : ∀ f ∈ [stState, stLring, stLlog, stLate, stStarved], f ∈ stFields) f hf) (hW f hf)
  have hmoves : v.moves u ((s.partAt p).res i).ctx a.sid = true := by
    have hactu : u.active ((s.partAt p).res i).ctx a.sid = true := by
      rw [State.active_iff, hkeep stState (by decide), ← State.active_iff]; exact hact
    have hborn : (v.born.any fun b => b.1 = a.sid) = false := by
      rw [Bool.eq_false_iff]
      intro hb
      obtain ⟨b, hb, he⟩ := List.any_eq_true.mp hb
      exact hv ⟨b, hb, of_decide_eq_true he⟩
    unfold CommitView.moves
    rw [hactu, hres, hborn]
    rfl
  intro k cur hrun
  have H := h.held C
  have hmoved := H.moveAll_moved v _ C.small C.nodup a ha hmoves hact (hkeep stLring (by decide)) (hkeep stLlog (by decide)) hrun
  rw [hkeep stLate (by decide), hkeep stStarved (by decide)] at hmoved
  have hfold := u.commitPointers_eq_foldl p i v
  rw [h.ctx_eq, h.anchors_eq] at hfold
  rw [← hfold] at hmoved
  -- what follows step 6 leaves these fields
  have hrest : ∀ f ∈ ptrFields, (s.committed p i).st ((s.partAt p).res i).ctx a.sid f =
      (u.commitPointers p i v).st ((s.partAt p).res i).ctx a.sid f := fun f hf => by
    have hp := H.pointers_does (A := s.Loose ((s.partAt p).res i).ctx) v h.ctx_eq (h.small C)
    have Hp := H.next hp
    have hpart := (u.commitPointers_notes p i v).partAt p
    have hend := (u.commitTail_notes p i ((s.partAt p).res i).ctx v).partAt p
    rw [h.committed_eq]
    unfold State.commitTail at hend ⊢
    generalize u.commitPointers p i v = x at Hp hpart hend ⊢
    have hf' := ptrFields_sub f hf
    have hflip := Hp.commitFlip_does (A := s.Loose ((s.partAt p).res i).ctx) (W := fun _ _ => False) p i
      (by rw [hpart]; exact h.ctx_eq) fun _ => .inl
    have Hf := Hp.next hflip
    have hkf := hflip.fields a.sid hs f hf' id
    generalize x.commitFlip p i = y at Hf hkf hend ⊢
    have hsettle := Hf.settle_does v h.sound
    have Hs := Hf.does hsettle fun _ => CommitView.Reaches.loose
    have hks := hsettle.fields a.sid hs f hf' fun hc => hv hc.1
    generalize v.born.foldl _ y = z at Hs hks hend ⊢
    have hfin := Hs.finish_does (A := s.Loose ((s.partAt p).res i).ctx) (W := fun _ _ => False) (p := p) (i := i)
      (by rw [hend]; exact h.ctx_eq)
    rw [hfin.fields a.sid hs f hf' id, hks, hkf]
  obtain ⟨hN, hRp, hLate, hStarved⟩ := hmoved
  exact ⟨(hrest _ (by decide)).trans hN, (hrest _ (by decide)).trans hRp, (hrest _ (by decide)).trans hLate,
    (hrest _ (by decide)).trans hStarved⟩

/-- A stream whose releases the head leaves alone stands as it was. -/
theorem State.Heads.quiet (h : s.Heads p i Z W u v) (C : s.Committing p i) {sid : Nat} (hs : sid < 512)
    (hl : s.Live ((s.partAt p).res i).ctx sid) (hv : ¬v.child sid) (hZ : ¬Z sid) (hW : ∀ f ∈ [stQ, stE, stG], ¬W sid f) :
    s.Quiet (s.committed p i) ((s.partAt p).res i).ctx sid := by
  have hkeep : ∀ f ∈ [stQ, stE, stG], (s.committed p i).st ((s.partAt p).res i).ctx sid f = s.st ((s.partAt p).res i).ctx sid f :=
    fun f hf => by
      have hf' := (by decide : ∀ f ∈ [stQ, stE, stG], f ∈ stFields ∧ f ∉ ptrFields) f hf
      rw [h.st_eq C hs hf'.1 (CommitView.not_writes hv hf'.2), h.does.fields sid hs f hf'.1 (hW f hf)]
  exact ⟨hkeep _ (by decide), hkeep _ (by decide), hkeep _ (by decide),
    ((h.ring_before C hs hl hZ).trans (h.ring_after C hs hl hv)).bytes_eq⟩

/-- A stream that neither the head nor a child touches moves, and its releases stand. -/
theorem State.Heads.alone (h : s.Heads p i Z W u v) (C : s.Committing p i) (a : AnchorStream)
    (ha : a ∈ ((s.partAt p).res i).atAnchor) (hact : s.active ((s.partAt p).res i).ctx a.sid = true) (hv : ¬v.child a.sid)
    (hres : v.resets.contains a.sid = false) (hZ : ¬Z a.sid) (hW : ∀ f, ¬W a.sid f) :
    s.Moved (s.committed p i) ((s.partAt p).res i).ctx a ∧ s.Quiet (s.committed p i) ((s.partAt p).res i).ctx a.sid :=
  ⟨h.moved C a ha hact hv hres fun f _ => hW f, h.quiet C (C.small a ha) (State.live_of_active hact) hv hZ fun f _ => hW f⟩

end

/-- From u to t the end of a commit of partition p leaves the notes, the messages and the lists of the partition and of its
resident i. -/
structure State.EndKeeps (p i : Nat) (u t : State) : Prop where
  retracted : t.retracted = u.retracted
  tails : t.tails = u.tails
  out : u.out <+: t.out
  published : (t.partAt p).step.published = (u.partAt p).step.published
  reclaiming : (t.partAt p).reclaiming = (u.partAt p).reclaiming
  zeroing : (t.partAt p).zeroing = (u.partAt p).zeroing
  resets : ((t.partAt p).res i).resets = ((u.partAt p).res i).resets

theorem State.committed_keeps (s : State) (p i : Nat) : State.EndKeeps p i (s.commitHead p i).1 (s.committed p i) := by
  unfold State.committed
  generalize (s.commitHead p i).2 = v
  generalize (s.commitHead p i).1 = u
  have hn := u.commitTail_notes p i ((s.partAt p).res i).ctx v
  generalize u.commitTail p i ((s.partAt p).res i).ctx v = y at hn ⊢
  obtain ⟨hr, ht, ho, -, -⟩ := y.finish_keeps p i
  obtain ⟨hend, hres, -, -⟩ := y.commitEnd_part p i
  have hpart := hn.partAt p
  rw [hpart] at hend hres
  refine ⟨hr.trans hn.retracted, ht.trans hn.tails, hn.out.trans ho, ?_, ?_, ?_, ?_⟩
  · rw [State.finish_part, hend]; rfl
  · rw [State.finish_part, hend]; rfl
  · rw [State.finish_part, hend]; rfl
  · rw [State.finish_part]
    show ((((y.commitEnd p i).partAt p).res i)).resets = _
    rw [hres]

theorem State.Heads.keeps {s u : State} {p i : Nat} {v : CommitView} {Z : Nat → Prop} {W : Nat → Nat × Nat → Prop} (h : s.Heads p i Z W u v) :
    State.EndKeeps p i u (s.committed p i) := by
  have hk := s.committed_keeps p i
  rw [h.head] at hk
  exact hk

end Sys2Proof.Machine

namespace Sys2Proof.Machine

/-! ## The first five steps of a commit, one stream at a time (R27) -/

/-- A fold of which every element leaves the value alone. -/
theorem foldl_eq_self {α β : Type} {f : β → α → β} {l : List α} {y : β} (h : ∀ x ∈ l, f y x = y) : l.foldl f y = y :=
  List.foldlRecOn l f (motive := fun z => z = y) rfl fun z hz x hx => by rw [hz]; exact h x hx

/-- A fold of which one element alone acts. -/
theorem foldl_eq_one {α β : Type} {f : β → α → β} {l : List α} {y : β} {x : α} (hn : l.Nodup) (hx : x ∈ l)
    (hy : ∀ z ∈ l, z ≠ x → f y z = y) (hfy : ∀ z ∈ l, z ≠ x → f (f y x) z = f y x) : l.foldl f y = f y x := by
  obtain ⟨l1, l2, rfl⟩ := List.append_of_mem hx
  rw [List.nodup_append, List.nodup_cons] at hn
  obtain ⟨-, ⟨hn2, -⟩, hdis⟩ := hn
  rw [List.foldl_append, List.foldl_cons,
    foldl_eq_self fun z hz => hy z (List.mem_append_left _ hz) (hdis z hz x List.mem_cons_self),
    foldl_eq_self fun z hz => hfy z (List.mem_append_right _ (List.mem_cons_of_mem _ hz)) fun he => hn2 (he ▸ hz)]

theorem sortBy_nil {α : Type} (lt : α → α → Bool) : sortBy lt [] = [] := rfl

theorem sortBy_singleton {α : Type} (lt : α → α → Bool) (x : α) : sortBy lt [x] = [x] := rfl

theorem State.actives_nodup (s : State) (c : Nat) : (s.actives c).Nodup := List.Nodup.filter _ (range_nodup 0 512)

theorem State.mem_actives {s : State} {c sid : Nat} : sid ∈ s.actives c ↔ sid < 512 ∧ s.active c sid = true := by
  unfold State.actives sids
  rw [List.mem_filter, mem_range, Nat.zero_add]
  exact and_congr_left' ⟨fun h => h.2, fun h => ⟨Nat.zero_le _, h⟩⟩

/-! ### Resets (R38) -/

/-- A stream's part in step 2. -/
def State.resetIf (p i c : Nat) (y : State × CommitView) (a : AnchorStream) : State × CommitView :=
  if y.1.active c a.sid && !y.2.resets.contains a.sid && goodReset (y.1.consumed c a.sid a).2 then
    (y.1.takeReset p i c a (y.1.consumed c a.sid a).1, { y.2 with resets := a.sid :: y.2.resets })
  else y

theorem State.commitResets_eq_foldl (s : State) (p i : Nat) (v : CommitView) :
    s.commitResets p i v = ((s.partAt p).res i).atAnchor.foldl (State.resetIf p i ((s.partAt p).res i).ctx)
      (s, { v with resets := v.before.filter ((s.partAt p).res i).resets.contains }) := s.commitResets_eq p i v

/-- No stream waits for its reset where no resident's list has one. -/
theorem filter_contains_nil (l : List Nat) : l.filter ([] : List Nat).contains = [] :=
  List.filter_eq_nil_iff.mpr fun _ _ h => absurd h Bool.false_ne_true

section
variable {s u : State} {p i c : Nat}

/-- What the ring of a stream holds at a commit stands: its place, its entries and their marks. -/
structure State.SameRing (s u : State) (c sid : Nat) : Prop where
  active : u.active c sid = s.active c sid
  ring : u.st c sid stLring = s.st c sid stLring
  log : u.st c sid stLlog = s.st c sid stLlog

theorem State.SameRing.refl (s : State) (c sid : Nat) : s.SameRing s c sid := ⟨rfl, rfl, rfl⟩

theorem State.Does.sameRing {A : Nat → Prop} {W : Nat → Nat × Nat → Prop} {s0 : State} (h : s0.Does c A W s u) {sid : Nat} (hs : sid < 512)
    (hW : ∀ f ∈ [stState, stLring, stLlog], ¬W sid f) : s.SameRing u c sid := by
  have hkeep := fun f (hf : f ∈ [stState, stLring, stLlog]) => h.fields sid hs f
    ((by decide : ∀ f ∈ [stState, stLring, stLlog], f ∈ stFields) f hf) (hW f hf)
  refine ⟨?_, hkeep stLring (by decide), hkeep stLlog (by decide)⟩
  rw [Bool.eq_iff_iff, u.active_iff, s.active_iff, hkeep stState (by decide)]

theorem State.Held.goodReset (H : s.Held c u) (hecc : u.memEcc = s.memEcc) {a : AnchorStream} (hs : a.sid < 512)
    (ha : s.active c a.sid = true) (hr : s.SameRing u c a.sid) : goodReset (u.consumed c a.sid a).2 = true ↔ s.Resets c a :=
  State.goodReset_consumed fun j => (H.listenEntry hs ha hr.ring hr.log j).2 hecc

/-- A stream that is not to be reset leaves the state alone. -/
theorem State.Held.resetIf_steady (H : s.Held c u) (hecc : u.memEcc = s.memEcc) (v : CommitView) {a : AnchorStream} (hs : a.sid < 512)
    (hr : u.active c a.sid = true → s.SameRing u c a.sid ∧ ¬s.Resets c a) : State.resetIf p i c (u, v) a = (u, v) := by
  refine if_neg fun h => ?_
  rw [Bool.and_eq_true, Bool.and_eq_true] at h
  obtain ⟨⟨hact, -⟩, hgood⟩ := h
  obtain ⟨hsame, hnot⟩ := hr hact
  exact hnot ((H.goodReset hecc hs (by rw [← hsame.active]; exact hact) hsame).mp hgood)

/-! ### The publish words (R29) -/

/-- A stream's part in step 5, with its staged entries and E before the commit. -/
def State.speakFor (u : State) (p c lag : Nat) (mine : List SpeakEntry) (e0 sid : Nat) : State :=
  let t := mine.foldl (fun s x => s.publish p c lag x) u
  if t.st c sid stE ≠ e0 ∨ (u.partAt p).step.published.length < (t.partAt p).step.published.length then
    t.publishWord c sid (t.st c sid stE)
  else t

/-- The staged entries of streams that were active, in their order (R247). -/
theorem State.commitSpeaks_eq (u : State) (p i : Nat) (v : CommitView) (e0 : Nat → Nat) {entries : List SpeakEntry}
    (he : sortBy SpeakEntry.before (u.partAt p).speak = entries) (h : ∀ x ∈ entries, leField x.bytes 8 2 ∈ v.before) :
    u.commitSpeaks p i v e0 =
      (v.before.filter fun sid => u.active ((u.partAt p).res i).ctx sid && !v.resets.contains sid).foldl (fun t sid =>
        t.speakFor p ((u.partAt p).res i).ctx ((u.partAt p).res i).lag (entries.filter fun x => leField x.bytes 8 2 = sid) (e0 sid) sid) u := by
  have hnone : entries.filter (fun x => !x.poison && !v.before.contains (entryNat x.bytes 8 2)) = [] := by
    refine List.filter_eq_nil_iff.mpr fun x hx hc => ?_
    have hin : v.before.contains (entryNat x.bytes 8 2) = true := List.contains_iff_mem.mpr (h x hx)
    rw [hin, Bool.not_true, Bool.and_false] at hc
    exact Bool.false_ne_true hc
  unfold State.commitSpeaks
  dsimp only
  rw [he, hnone]
  rfl

theorem State.speakFor_nil (u : State) (p c lag e0 sid : Nat) :
    u.speakFor p c lag [] e0 sid = if u.st c sid stE = e0 then u else u.publishWord c sid (u.st c sid stE) := by
  unfold State.speakFor
  dsimp only
  rw [List.foldl_nil]
  by_cases h : u.st c sid stE = e0
  · rw [if_pos h, if_neg fun hc => hc.elim (fun hne => hne h) (Nat.lt_irrefl _)]
  · rw [if_neg h, if_pos (.inl h)]

/-! ### A commit that resets no stream -/

/-- No stream but sid has a current entry that resets it. -/
def State.Steady (s : State) (p i sid : Nat) : Prop :=
  ∀ a ∈ ((s.partAt p).res i).atAnchor, a.sid ≠ sid → s.active ((s.partAt p).res i).ctx a.sid = true →
    ¬s.Resets ((s.partAt p).res i).ctx a

theorem State.Steady.all {p i : Nat} (C : s.Committing p i) (h : s.Steady p i 512) :
    ∀ a ∈ ((s.partAt p).res i).atAnchor, s.active ((s.partAt p).res i).ctx a.sid = true → ¬s.Resets ((s.partAt p).res i).ctx a :=
  fun a ha => h a ha (Nat.ne_of_lt (C.small a ha))

/-- Where no current entry resets its stream, step 2 does nothing. -/
theorem State.Committing.commitResets_steady (C : s.Committing p i) (h : s.Steady p i 512) :
    s.commitResets p i (s.startView ((s.partAt p).res i).ctx) = (s, s.startView ((s.partAt p).res i).ctx) := by
  rw [s.commitResets_eq_foldl, C.resets, filter_contains_nil]
  exact foldl_eq_self fun a ha => C.laid.held.resetIf_steady rfl _ (C.small a ha) fun hact => ⟨.refl .., h.all C a ha hact⟩

/-- The first five steps where no stream is cancelled or reset. -/
theorem State.Committing.head_steady (C : s.Committing p i) (h : s.Steady p i 512) {ops : List Staged}
    (hops : sortBy (fun (a b : Staged) => a.org.before b.org) (s.partAt p).stage = ops)
    (hcancel : s.commitCancels p i (s.startView ((s.partAt p).res i).ctx) ops = s) :
    s.commitHead p i =
      let b := s.commitForks p i (s.startView ((s.partAt p).res i).ctx) ops
      ((b.1.commitRetracts p i b.2 ops).commitSpeaks p i b.2 (s.endsBefore ((s.partAt p).res i).ctx), b.2) := by
  unfold State.commitHead
  dsimp only
  rw [hops, hcancel, C.commitResets_steady h]

/-- Step 5 without staged entries where no E differs. -/
theorem State.commitSpeaks_silent (u : State) (p i : Nat) (v : CommitView) (e0 : Nat → Nat) (hs : (u.partAt p).speak = [])
    (h : ∀ sid ∈ v.before, u.active ((u.partAt p).res i).ctx sid = true → sid ∉ v.resets →
      u.st ((u.partAt p).res i).ctx sid stE = e0 sid) :
    u.commitSpeaks p i v e0 = u := by
  rw [u.commitSpeaks_eq p i v e0 (entries := []) (by rw [hs]; rfl) fun x hx => absurd hx List.not_mem_nil]
  refine foldl_eq_self fun sid hsid => ?_
  obtain ⟨hin, hact⟩ := List.mem_filter.mp hsid
  rw [Bool.and_eq_true, Bool.not_eq_true'] at hact
  rw [List.filter_nil, State.speakFor_nil, if_pos (h sid hin hact.1 fun hr => Bool.false_ne_true (hact.2.symm.trans (List.contains_iff_mem.mpr hr)))]

/-- Step 3 where nothing is forked. -/
theorem State.commitForks_none (u : State) (p i : Nat) (v : CommitView) {ops : List Staged} (h : ∀ x ∈ ops, x.op.forked = none) :
    u.commitForks p i v ops = (u, v) := by
  rw [u.commitForks_eq]
  exact foldl_eq_self fun x hx => by rw [h x hx]; rfl

/-- The first five steps of a commit with nothing staged. -/
theorem State.Committing.head_plain (C : s.Committing p i) (h : s.Steady p i 512) (hstage : (s.partAt p).stage = [])
    (hspeak : (s.partAt p).speak = []) : s.commitHead p i = (s, s.startView ((s.partAt p).res i).ctx) := by
  rw [C.head_steady h (ops := []) (by rw [hstage]; rfl) rfl, s.commitForks_none p i _ fun x hx => absurd hx List.not_mem_nil]
  show (s.commitSpeaks p i _ _, _) = _
  rw [s.commitSpeaks_silent p i _ _ hspeak]
  exact fun _ _ _ _ => rfl

theorem State.startView_sound (s : State) (c : Nat) : (s.startView c).Sound s c := fun _ hb => absurd hb List.not_mem_nil

theorem State.startView_child (s : State) (c sid : Nat) : ¬(s.startView c).child sid := fun ⟨_, hb, _⟩ => absurd hb List.not_mem_nil

theorem State.Committing.heads_plain (C : s.Committing p i) (h : s.Steady p i 512) (hstage : (s.partAt p).stage = [])
    (hspeak : (s.partAt p).speak = []) :
    s.Heads p i (fun _ => False) (fun _ _ => False) s (s.startView ((s.partAt p).res i).ctx) :=
  ⟨C.head_plain h hstage hspeak, .refl .., s.startView_sound _⟩

end

end Sys2Proof.Machine

namespace Sys2Proof.Machine

/-! ## A commit with nothing staged, and with a RETRACT (R26 to R28) -/

/-- From s to t every other stream of the anchor moves on, and its releases stand. -/
def State.Alone (s : State) (p i sid : Nat) (t : State) : Prop :=
  ∀ a ∈ ((s.partAt p).res i).atAnchor, a.sid ≠ sid → s.active ((s.partAt p).res i).ctx a.sid = true →
    s.Moved t ((s.partAt p).res i).ctx a ∧ s.Quiet t ((s.partAt p).res i).ctx a.sid

/-- From s to t the stream moves on. -/
def State.MovesOn (s : State) (p i sid : Nat) (t : State) : Prop :=
  ∀ a ∈ ((s.partAt p).res i).atAnchor, a.sid = sid → s.Moved t ((s.partAt p).res i).ctx a

section
variable {s u : State} {p i sid : Nat} {v : CommitView} {Z : Nat → Prop} {W : Nat → Nat × Nat → Prop}

/-- Where the head acts on one stream alone, the others move on quietly. -/
theorem State.Heads.alone_all (h : s.Heads p i Z W u v) (C : s.Committing p i) (hv : ∀ z, z ≠ sid → s.active ((s.partAt p).res i).ctx z = true →
    ¬v.child z ∧ z ∉ v.resets) (hZ : ∀ z, z ≠ sid → s.active ((s.partAt p).res i).ctx z = true → ¬Z z)
    (hW : ∀ z f, z ≠ sid → s.active ((s.partAt p).res i).ctx z = true → ¬W z f) : s.Alone p i sid (s.committed p i) :=
  fun a ha hne hact => by
    obtain ⟨hchild, hres⟩ := hv a.sid hne hact
    refine h.alone C a ha hact hchild ?_ (hZ _ hne hact) fun f => hW _ f hne hact
    rw [Bool.eq_false_iff]
    exact fun hc => hres (List.contains_iff_mem.mp hc)

/-- A field that neither the head nor step 6 writes. -/
theorem State.Heads.field_eq (h : s.Heads p i Z W u v) (C : s.Committing p i) (hs : sid < 512) {f : Nat × Nat}
    (hf : f ∈ stFields ∧ f ∉ ptrFields) (hv : ¬v.child sid) (hW : ¬W sid f) :
    (s.committed p i).st ((s.partAt p).res i).ctx sid f = s.st ((s.partAt p).res i).ctx sid f := by
  rw [h.st_eq C hs hf.1 (CommitView.not_writes hv hf.2), h.does.fields sid hs f hf.1 hW]

/-- What the head shows of a stream stands at the commit's end. -/
theorem State.Heads.shown (h : s.Heads p i Z W u v) (C : s.Committing p i) (hs : sid < 512)
    (hl : s.Live ((s.partAt p).res i).ctx sid) (hv : ¬v.child sid) {e : Nat} (hu : s.Shown u ((s.partAt p).res i).ctx sid e) :
    s.Shown (s.committed p i) ((s.partAt p).res i).ctx sid e := by
  obtain ⟨hE, hG, hword⟩ := hu
  refine ⟨?_, ?_, ?_⟩
  · rw [h.st_eq C hs (by decide) (CommitView.not_writes hv (by decide)), hE]
  · rw [h.st_eq C hs (by decide) (CommitView.not_writes hv (by decide)), hG]
  · rw [((h.ring_after C hs hl hv).mono (Nat.le_add_right _ _) (by omega)).nat_eq, hword]

/-! ### Nothing staged -/

/-- A commit with nothing staged and no reset moves its streams, and writes the tables alone. -/
theorem State.Committing.plain (C : s.Committing p i) (h : s.Steady p i 512) (hstage : (s.partAt p).stage = [])
    (hspeak : (s.partAt p).speak = []) :
    s.Alone p i 512 (s.committed p i) ∧ (∀ x, (∀ y ∈ (s.regions ((s.partAt p).res i).ctx).take 3, apart (x, 1) y) →
      Mem.byte (s.committed p i).mem x = Mem.byte s.mem x) ∧ s.Closing p i (s.committed p i) := by
  have hh := C.heads_plain h hstage hspeak
  refine ⟨hh.alone_all C (fun z _ _ => ⟨s.startView_child _ z, List.not_mem_nil⟩) (fun _ _ _ => id) (fun _ _ _ _ => id), fun x hx => ?_,
    hh.closing C⟩
  have hout : ∀ y ∈ (s.regions ((s.partAt p).res i).ctx).take 3, ¬In y x := fun y hy hin =>
    (hx y hy).symm.not_in hin ⟨Nat.le_refl _, Nat.lt_succ_self _⟩
  rw [s.regions_eq] at hout
  refine (hh.tail_stays C).mem x (fun ht => ?_) (fun hd => ?_) ?_
  · exact hout _ List.mem_cons_self ht.in_table
  · exact hout _ (List.mem_cons_of_mem _ List.mem_cons_self) hd.in_desc
  · rintro (hw | ⟨z, -, -, hz, -⟩)
    · exact hout _ (List.mem_cons_of_mem _ (List.mem_cons_of_mem _ List.mem_cons_self)) hw.in_word
    · exact s.startView_child _ z hz

/-! ### The publish word of one stream -/

/-- E and G of one stream. -/
def shownFields (sid z : Nat) (f : Nat × Nat) : Prop := z = sid ∧ (f = stE ∨ f = stG)

section
variable {t : State} {c : Nat}

theorem State.Held.publish_does (H : s.Held c t) (hs : sid < 512) (hl : s.Live c sid) (e : Nat) :
    s.Does c (s.RingsOf c (· = sid)) (shownFields sid) t (t.publishWord c sid e) :=
  H.publishWord_does hs hl e (fun _ hx => ⟨sid, hs, hl, rfl, hx⟩) ⟨rfl, .inl rfl⟩ ⟨rfl, .inr rfl⟩

/-- Step 5 without staged entries, where the E of one stream differs: its publish word is written. -/
theorem State.Held.commitSpeaks_one (H : s.Held c t) (hctx : ((t.partAt p).res i).ctx = c) (hspeak : (t.partAt p).speak = [])
    (hs : sid < 512) (hact : s.active c sid = true) (hactt : t.active c sid = true)
    (hne : t.st c sid stE ≠ s.st c sid stE) (hother : ∀ z, z < 512 → z ≠ sid → t.st c z stE = s.st c z stE) :
    t.commitSpeaks p i (s.startView c) (s.endsBefore c) = t.publishWord c sid (t.st c sid stE) := by
  rw [t.commitSpeaks_eq p i _ _ (entries := []) (by rw [hspeak]; rfl) fun x hx => absurd hx List.not_mem_nil, hctx]
  have hone : ∀ y lag, State.speakFor y p c lag (([] : List SpeakEntry).filter fun x => leField x.bytes 8 2 = sid)
      (s.endsBefore c sid) sid = if y.st c sid stE = s.st c sid stE then y else y.publishWord c sid (y.st c sid stE) :=
    fun y lag => y.speakFor_nil p c lag _ sid
  have hdoes := H.publish_does hs (State.live_of_active hact) (t.st c sid stE)
  refine (foldl_eq_one (x := sid) (List.Nodup.filter _ (s.actives_nodup c)) ?_ (fun z hz hzs => ?_) fun z hz hzs => ?_).trans ?_
  · refine List.mem_filter.mpr ⟨State.mem_actives.mpr ⟨hs, hact⟩, ?_⟩
    rw [hactt]
    rfl
  · have hz' := State.mem_actives.mp (List.mem_of_mem_filter hz)
    exact (t.speakFor_nil p c _ _ z).trans (if_pos (hother z hz'.1 hzs))
  · have hz' := State.mem_actives.mp (List.mem_of_mem_filter hz)
    rw [hone, if_neg hne]
    refine (State.speakFor_nil _ p c _ _ z).trans (if_pos ?_)
    rw [hdoes.fields z hz'.1 stE (by decide) fun hf => hzs hf.1]
    exact hother z hz'.1 hzs
  · rw [hone, if_neg hne]

end

/-! ### RETRACT -/

/-- The streams that a withdrawal leaves: of its stream E falls back. -/
theorem State.Held.withdraw_does {t : State} {c : Nat} (H : s.Held c t) (hs : sid < 512) (x : Nat) :
    s.Does c (s.RingsOf c (· = sid)) (shownFields sid) t (t.withdraw c sid x) := by
  unfold State.withdraw
  dsimp only
  split
  · exact (H.setSt_does hs (by decide) _ ⟨rfl, .inl rfl⟩).trans (.of_mem rfl rfl)
  · exact .refl ..

/-- What a withdrawal does (R28). -/
theorem State.withdraw_eq {c e : Nat} (he : s.EndIs c sid e) (x : Nat) :
    s.withdraw c sid x = if max x (s.st c sid stQ) < e then
      { s.setSt c sid stE (max x (s.st c sid stQ)) with
        retracted := s.retracted ++ (range (max x (s.st c sid stQ)) (e - max x (s.st c sid stQ))).map fun n => (c, sid, n) }
      else s := by
  unfold State.withdraw
  dsimp only
  rw [he.endPos]

/-- A staged effect acts on a stream that is active and no child of this commit. -/
theorem State.onStaged_active (s : State) {p i sid c : Nat} {v : CommitView} (f : State → State) (hctx : ((s.partAt p).res i).ctx = c)
    (hact : s.active c sid = true) (hborn : v.born = []) : s.onStaged p i sid v f = f s := by
  unfold State.onStaged
  dsimp only
  rw [hctx, hact, hborn]
  exact if_pos rfl

/-- The first five steps of a commit whose one staged effect is a RETRACT. -/
theorem State.Committing.head_retract (C : s.Committing p i) (h : s.Steady p i 512) {org : Origin} {pos : Nat}
    (hstage : (s.partAt p).stage = [{ org := org, op := .retract sid pos }]) (hact : s.active ((s.partAt p).res i).ctx sid = true) :
    s.commitHead p i = (((s.withdraw ((s.partAt p).res i).ctx sid pos).commitSpeaks p i (s.startView ((s.partAt p).res i).ctx)
      (s.endsBefore ((s.partAt p).res i).ctx)), s.startView ((s.partAt p).res i).ctx) := by
  rw [C.head_steady h (ops := [{ org := org, op := .retract sid pos }]) (by rw [hstage]; rfl) rfl,
    s.commitForks_none p i _ fun x hx => by rw [List.mem_singleton.mp hx]; rfl]
  have hretract : s.commitRetracts p i (s.startView ((s.partAt p).res i).ctx) [{ org := org, op := .retract sid pos }] =
      s.withdraw ((s.partAt p).res i).ctx sid pos := by
    unfold State.commitRetracts
    rw [List.foldl_cons, List.foldl_nil]
    exact (s.onStaged_active _ rfl hact rfl).trans (if_neg Bool.false_ne_true)
  dsimp only
  rw [hretract]

/-- A RETRACT at the commit withdraws what is published from its position on (R28). -/
theorem State.Committing.retract (C : s.Committing p i) (h : s.Steady p i 512) {org : Origin} {pos e : Nat}
    (hstage : (s.partAt p).stage = [{ org := org, op := .retract sid pos }]) (hspeak : (s.partAt p).speak = [])
    (hs : sid < 512) (hact : s.active ((s.partAt p).res i).ctx sid = true) (he : s.EndIs ((s.partAt p).res i).ctx sid e) :
    (s.Alone p i sid (s.committed p i) ∧ s.MovesOn p i sid (s.committed p i) ∧
      (s.committed p i).st ((s.partAt p).res i).ctx sid stQ = s.st ((s.partAt p).res i).ctx sid stQ ∧
      (max pos (s.st ((s.partAt p).res i).ctx sid stQ) < e →
        s.Shown (s.committed p i) ((s.partAt p).res i).ctx sid (max pos (s.st ((s.partAt p).res i).ctx sid stQ)) ∧
        ∀ n, max pos (s.st ((s.partAt p).res i).ctx sid stQ) ≤ n → n < e →
          (((s.partAt p).res i).ctx, sid, n) ∈ (s.committed p i).retracted) ∧
      (e ≤ max pos (s.st ((s.partAt p).res i).ctx sid stQ) → s.Quiet (s.committed p i) ((s.partAt p).res i).ctx sid)) ∧
    s.Closing p i (s.committed p i) := by
  have hhead := C.head_retract h hstage hact
  generalize hc : ((s.partAt p).res i).ctx = c at hhead hact he ⊢
  have hl := State.live_of_active hact
  have H : s.Held c s := hc ▸ C.laid.held
  have hchild := s.startView_child c
  have heq := s.withdraw_eq he pos
  generalize hfrom : max pos (s.st c sid stQ) = from_ at heq ⊢
  by_cases hlt : from_ < e
  · rw [if_pos hlt] at heq
    have hwd := H.withdraw_does hs pos
    have hstores := (s.withdraw_stores c sid pos).partAt p
    have hEt : (s.withdraw c sid pos).st c sid stE = from_ % 2 ^ 32 := by
      rw [heq]
      exact (H.st_setSt hs (f := stE) (f' := stE) (by decide) (by decide) from_).trans (if_pos ⟨rfl, rfl⟩)
    have hGt : (s.withdraw c sid pos).st c sid stG = s.st c sid stG := by
      rw [heq]
      exact (H.st_setSt hs (f := stE) (f' := stG) (by decide) (by decide) from_).trans (if_neg fun x => absurd x.2 (by decide))
    have hret : (s.withdraw c sid pos).retracted = s.retracted ++ (range from_ (e - from_)).map fun n => (c, sid, n) := by rw [heq]
    generalize s.withdraw c sid pos = t at hhead hwd hstores hEt hGt hret
    have Ht : s.Held c t := H.does hwd fun _ => State.RingsOf.loose
    have hsame := hwd.sameRing hs fun f hf hw =>
      (by decide : ∀ f ∈ [stState, stLring, stLlog], ¬(f = stE ∨ f = stG)) f hf hw.2
    have hQ := he.2.1
    have hE9 := he.2.2
    have hne : t.st c sid stE ≠ s.st c sid stE := by
      rw [hEt, he.1]
      omega
    have hone := Ht.commitSpeaks_one (p := p) (i := i) (by rw [hstores, hc]) (by rw [hstores]; exact hspeak) hs hact
      (by rw [hsame.active]; exact hact) hne fun z hz hzs => hwd.fields z hz stE (by decide) fun hf => hzs hf.1
    rw [hone, hEt] at hhead
    have hpub := Ht.st_publishWord hs hl (from_ % 2 ^ 32)
    rw [Nat.mod_mod, hGt] at hpub
    have hnotes := t.publishWord_notes c sid (from_ % 2 ^ 32)
    have hpd := hwd.trans (Ht.publish_does hs hl (from_ % 2 ^ 32))
    generalize t.publishWord c sid (from_ % 2 ^ 32) = u at hhead hpub hpd hnotes
    subst hc
    have hh : s.Heads p i (· = sid) (shownFields sid) u (s.startView _) := ⟨hhead, hpd, s.startView_sound _⟩
    refine ⟨⟨hh.alone_all C (fun z _ _ => ⟨hchild z, List.not_mem_nil⟩) (fun _ h _ => h) (fun _ _ h _ hw => h hw.1), fun a ha has => ?_,
      hh.field_eq C hs (by decide) (hchild sid) fun hw => absurd hw.2 (by decide), fun _ => ⟨hh.shown C hs hl (hchild sid) hpub, fun n h1 h2 => ?_⟩,
      fun hle => absurd hlt (Nat.not_lt.mpr hle)⟩, hh.closing C⟩
    · subst has
      exact hh.moved C a ha hact (hchild _) rfl fun f hf hw =>
        (by decide : ∀ f ∈ [stState, stLring, stLlog, stLate, stStarved], ¬(f = stE ∨ f = stG)) f hf hw.2
    · rw [hh.keeps.retracted, hnotes.retracted, hret]
      exact List.mem_append_right _ (List.mem_map.mpr ⟨n, mem_range.mpr ⟨h1, by omega⟩, rfl⟩)
  · rw [if_neg hlt] at heq
    rw [heq, s.commitSpeaks_silent p i _ _ hspeak fun _ _ _ _ => by rw [hc]; rfl] at hhead
    subst hc
    have hh : s.Heads p i (fun _ => False) (fun _ _ => False) s (s.startView _) := ⟨hhead, .refl .., s.startView_sound _⟩
    refine ⟨⟨hh.alone_all C (fun z _ _ => ⟨hchild z, List.not_mem_nil⟩) (fun _ _ _ => id) (fun _ _ _ _ => id), fun a ha has => ?_,
      hh.field_eq C hs (by decide) (hchild sid) id, fun h => absurd h hlt, fun _ => hh.quiet C hs hl (hchild sid) id fun _ _ => id⟩,
      hh.closing C⟩
    subst has
    exact hh.moved C a ha hact (hchild _) rfl fun _ _ => id

end

end Sys2Proof.Machine

namespace Sys2Proof.Machine

/-! ## Events of a context (R284) -/

/-- The fields of an event record. -/
theorem State.leField_eventRecord (s : State) (p : Nat) (e : Event) (sid : Nat) (pos detail : Option Nat) :
    leField (s.eventRecord p e sid pos detail) 0 2 = e.code ∧ leField (s.eventRecord p e sid pos detail) 2 2 = sid % 2 ^ 16 ∧
      (∀ n, pos = some n → leField (s.eventRecord p e sid pos detail) 8 8 = n % 2 ^ 64) ∧
      ∀ n, detail = some n → leField (s.eventRecord p e sid pos detail) 16 8 = n % 2 ^ 64 := by
  have hcode : e.code % 256 ^ 2 = e.code := by cases e <;> rfl
  have h := fun (as bs : List Byte) (n x off : Nat) (he : s.eventRecord p e sid pos detail = as ++ toLe n x ++ bs)
      (hl : as.length = off) => he ▸ leField_mid (bs := bs) (n := n) (x := x) hl
  unfold State.eventRecord at h ⊢
  generalize (s.partAt p).frame = frame at h ⊢
  generalize s.wall / 1000000 = time at h ⊢
  refine ⟨?_, ?_, fun n hn => ?_, fun n hn => ?_⟩
  · rw [h [] _ 2 e.code 0 (by simp only [List.nil_append, List.append_assoc]; rfl) rfl, hcode]
  · exact h (toLe 2 e.code) _ 2 sid 2 (by simp only [List.append_assoc]; rfl) (length_toLe ..)
  · subst hn
    exact h (toLe 2 e.code ++ toLe 2 sid ++ toLe 4 frame) _ 8 n 8 (by simp only [List.append_assoc, Option.getD_some]; rfl)
      (by simp)
  · subst hn
    exact h (toLe 2 e.code ++ toLe 2 sid ++ toLe 4 frame ++ toLe 8 _) _ 8 n 16 (by simp only [List.append_assoc, Option.getD_some]; rfl)
      (by simp)

/-- What decides whether an event of a context goes out: its ring's write pointer, and whether one was lost. -/
structure State.SameEvents (s : State) (c : Nat) (t : State) : Prop where
  evwp : t.desc c 60 4 = s.desc c 60 4
  lost : t.evLost = s.evLost

theorem State.SameEvents.refl (s : State) (c : Nat) : s.SameEvents c s := ⟨rfl, rfl⟩

theorem State.SameEvents.trans {s t u : State} {c : Nat} (h : s.SameEvents c t) (k : t.SameEvents c u) : s.SameEvents c u :=
  ⟨k.evwp.trans h.evwp, k.lost.trans h.lost⟩

/-- An event goes out where the ring has room and none was lost. -/
theorem State.event_out (t : State) (p c : Nat) (e : Event) (sid : Nat) (pos detail : Option Nat) (hroom : t.eventRoom c = true)
    (hlost : SMap.get 0 t.evLost c = 0) :
    ∃ a, OutMsg.event c a (t.eventRecord p e sid pos detail) ∈ (t.event p c e sid pos detail).out := by
  have htell : t.tellLost p c = t := if_pos hlost
  rw [t.event_of_room p c e sid pos detail hroom, htell, if_pos hroom, t.writeEvent_out]
  exact ⟨_, List.mem_append_right _ (List.mem_singleton_self _)⟩

section
variable {s t u : State} {c : Nat}

theorem State.Held.eventRoom (H : s.Held c t) (h : s.SameEvents c t) : t.eventRoom c = s.eventRoom c := by
  unfold State.eventRoom
  rw [h.evwp, H.desc 64 4 (by decide), H.desc 56 1 (by decide)]

/-- An event of a context whose pointer stood until then. -/
theorem State.Held.event_tells (H : s.Held c t) (h : s.SameEvents c t) (p : Nat) (e : Event) {sid : Nat} (hs : sid < 512)
    (pos detail : Option Nat) {P : List Byte → Prop}
    (hP : ∀ bs, (∀ n, pos = some n → leField bs 8 8 = n % 2 ^ 64) → (∀ n, detail = some n → leField bs 16 8 = n % 2 ^ 64) → P bs)
    (hout : (t.event p c e sid pos detail).out <+: u.out) : s.Tells u c e.code sid P := by
  intro hroom hlost
  obtain ⟨a, ha⟩ := t.event_out p c e sid pos detail (by rw [H.eventRoom h]; exact hroom) (by rw [h.lost]; exact hlost)
  obtain ⟨hcode, hsid, hpos, hdetail⟩ := t.leField_eventRecord p e sid pos detail
  exact ⟨a, _, hout.subset ha, hcode, by rw [hsid, Nat.mod_eq_of_lt (by omega)], hP _ hpos hdetail⟩

/-! ### What leaves the pointer alone -/

/-- A write outside the descriptor. -/
theorem State.Held.sameEvents_of_mem (H : s.Held c t) (hb : u.ctxbase = t.ctxbase) (hl : u.evLost = t.evLost)
    (hm : ∀ x, In (s.descOf c) x → Mem.byte u.mem x = Mem.byte t.mem x) : t.SameEvents c u := by
  refine ⟨?_, hl⟩
  have hat : u.ctxDesc c = s.ctxDesc c := by
    rw [← H.ctxDesc]; unfold State.ctxDesc; rw [hb]
  unfold State.desc
  rw [hat, H.ctxDesc]
  exact Mem.Same.nat_eq fun x h1 h2 => hm x ⟨by dsimp only [State.descOf]; omega, by dsimp only [State.descOf]; omega⟩

theorem State.Held.setSt_sameEvents (H : s.Held c t) {sid : Nat} (hs : sid < 512) {f : Nat × Nat} (hf : f ∈ stFields) (v : Nat) :
    t.SameEvents c (t.setSt c sid f v) := by
  refine H.sameEvents_of_mem rfl rfl fun x hx => ?_
  rw [H.setSt_mem]
  refine Mem.byte_putNat_outside ?_
  obtain ⟨htd, -, -, -⟩ := H.laid.tables
  have hb := stFields_bound f hf
  by_contra hin
  refine htd.symm.not_in hx ⟨?_, ?_⟩ <;> dsimp only [State.tableOf] <;> omega

theorem State.Held.copyFields_sameEvents (H : s.Held c t) {parent child : Nat} (hc : child < 512) (l : List (Nat × Nat))
    (hl : ∀ f ∈ l, f ∈ stFields) : t.SameEvents c (t.copyFields c parent child l) := by
  unfold State.copyFields
  induction l generalizing t with
  | nil => exact .refl t c
  | cons g l ih =>
    rw [List.foldl_cons]
    have hg := hl g List.mem_cons_self
    exact (H.setSt_sameEvents hc hg _).trans (ih (H.next (W := fun _ _ => True) (H.setSt_does hc hg _ trivial))
      fun f hf => hl f (List.mem_cons_of_mem _ hf))

theorem State.Held.publishWord_sameEvents (H : s.Held c t) {sid : Nat} (hs : sid < 512) (hl : s.Live c sid) (e : Nat) :
    t.SameEvents c (t.publishWord c sid e) := by
  unfold State.publishWord
  generalize (t.st c sid stG + 1) % 2 ^ 32 = g
  dsimp only
  have h1 := H.setSt_sameEvents hs (f := stE) (by decide) e
  have H1 := H.next (W := fun _ _ => True) (H.setSt_does hs (f := stE) (by decide) e trivial)
  generalize t.setSt c sid stE e = t1 at h1 H1 ⊢
  have h2 := H1.setSt_sameEvents hs (f := stG) (by decide) g
  have H2 := H1.next (W := fun _ _ => True) (H1.setSt_does hs (f := stG) (by decide) g trivial)
  generalize t1.setSt c sid stG g = t2 at h2 H2 ⊢
  refine (h1.trans h2).trans (H2.sameEvents_of_mem rfl rfl fun x hx => ?_)
  rw [H2.spk hs]
  refine Mem.byte_putNat_outside ?_
  by_contra hin
  refine (H.laid.ring_not_table hs hl (x := x) (.inl ⟨?_, ?_⟩)).2.1 hx <;> dsimp only [State.ringOf] <;> omega

end

end Sys2Proof.Machine

namespace Sys2Proof.Machine

/-! ## A commit with an SFORK (R40, R326) -/

section
variable {s u : State} {p i c sid : Nat}

/-- The first five steps of a commit whose one staged effect is an SFORK, where no E of an active stream differs after it. -/
theorem State.Committing.head_fork (C : s.Committing p i) (h : s.Steady p i 512) {org : Origin} {v : CommitView}
    (hc : ((s.partAt p).res i).ctx = c)
    (hstage : (s.partAt p).stage = [{ org := org, op := .fork sid }]) (hspeak : (s.partAt p).speak = [])
    (hfork : s.forkOne p i c (decide (s.flipOf c = 1)) (s.startView c) sid = (u, v)) (hbefore : v.before = s.actives c)
    (hE : ∀ z ∈ s.actives c, u.st c z stE = s.st c z stE) : s.commitHead p i = (u, v) := by
  have hpart := (s.forkOne_stores p i c (decide (s.flipOf c = 1)) (s.startView c) sid).partAt p
  rw [hfork] at hpart
  have hforks : s.commitForks p i (s.startView c) [{ org := org, op := .fork sid }] = (u, v) := by
    rw [s.commitForks_eq, hc, List.foldl_cons, List.foldl_nil]
    exact hfork
  rw [C.head_steady h (ops := [{ org := org, op := .fork sid }]) (by rw [hstage]; rfl) rfl, hc, hforks]
  show (u.commitSpeaks p i v _, v) = _
  rw [u.commitSpeaks_silent p i v _ (by rw [hpart]; exact hspeak) fun z hz _ _ => by rw [hpart, hc]; exact hE z (hbefore ▸ hz)]

/-! ### The id that an SFORK takes -/

theorem find_prepared_none (h : ∀ n, n < 512 → s.st c n stState ≠ 3) : (sids.find? fun n => s.st c n stState = 3) = none :=
  List.find?_eq_none.mpr fun n hn hd => h n (by have := (mem_range.mp hn).2; omega) (of_decide_eq_true hd)

theorem find_prepared_some {child : Nat} (hlt : child < 512) (h3 : s.st c child stState = 3)
    (hlow : ∀ n, n < child → s.st c n stState ≠ 3) : (sids.find? fun n => s.st c n stState = 3) = some child := by
  have hat : ∀ n, n < 512 → sids[n]? = some n := fun n hn => by
    unfold sids
    rw [getElem?_range, if_pos hn, Nat.zero_add]
  obtain ⟨hlen, hval⟩ := List.getElem?_eq_some_iff.mp (hat child hlt)
  refine List.find?_eq_some_iff_getElem.mpr ⟨decide_eq_true h3, child, hlen, hval, fun j hj => ?_⟩
  obtain ⟨hlen', hval'⟩ := List.getElem?_eq_some_iff.mp (hat j (hj.trans hlt))
  rw [hval', Bool.not_eq_true', decide_eq_false_iff_not]
  exact hlow j hj

theorem State.forkOne_guards (hact : s.active c sid = true) :
    (((s.startView c).before.contains sid && !s.active c sid) || (s.startView c).resets.contains sid) = false ∧
      (s.active c sid && !((s.startView c).born.any fun b => b.1 = sid)) = true := by
  rw [hact]
  exact ⟨by rw [Bool.not_true, Bool.and_false, Bool.false_or]; rfl, rfl⟩

theorem State.forkOne_dropped (hact : s.active c sid = true) (flip : Bool)
    (hnone : (sids.find? fun n => s.st c n stState = 3) = none) :
    s.forkOne p i c flip (s.startView c) sid = (s.event p c .forkDropped sid none none, s.startView c) := by
  obtain ⟨hgone, hgo⟩ := State.forkOne_guards hact
  unfold State.forkOne
  rw [hgone, if_neg Bool.false_ne_true, if_pos hgo, hnone]

theorem State.forkOne_done (hact : s.active c sid = true) (flip : Bool) {child : Nat}
    (hsome : (sids.find? fun n => s.st c n stState = 3) = some child) :
    s.forkOne p i c flip (s.startView c) sid =
      (s.createChild p i sid child flip, { s.startView c with born := [(child, sid)] }) := by
  obtain ⟨hgone, hgo⟩ := State.forkOne_guards hact
  unfold State.forkOne
  rw [hgone, if_neg Bool.false_ne_true, if_pos hgo, hsome]
  rfl

/-! ### An SFORK without a prepared id -/

/-- It is dropped, with its event. -/
theorem State.Committing.fork_dropped (C : s.Committing p i) (h : s.Steady p i 512) {org : Origin}
    (hstage : (s.partAt p).stage = [{ org := org, op := .fork sid }]) (hspeak : (s.partAt p).speak = []) (hs : sid < 512)
    (hact : s.active ((s.partAt p).res i).ctx sid = true) (hnone : ∀ n, n < 512 → s.st ((s.partAt p).res i).ctx n stState ≠ 3) :
    (s.Alone p i 512 (s.committed p i) ∧ s.Tells (s.committed p i) ((s.partAt p).res i).ctx 0x14 sid fun _ => True) ∧
      s.Closing p i (s.committed p i) := by
  generalize hc : ((s.partAt p).res i).ctx = c at hact hnone ⊢
  have H : s.Held c s := hc ▸ C.laid.held
  have hdone := State.forkOne_dropped (p := p) (i := i) hact (decide (s.flipOf c = 1)) (find_prepared_none hnone)
  have hd := H.event_does (A := fun _ => False) (W := fun _ _ => False) p .forkDropped sid none none
  have htells := fun (t : State) => H.event_tells (u := t) (.refl s c) p .forkDropped hs none none (P := fun _ => True) fun _ _ _ => trivial
  generalize s.event p c .forkDropped sid none none = u at hdone hd htells
  have hhead := C.head_fork h hc hstage hspeak hdone rfl fun z hz => hd.fields z (State.mem_actives.mp hz).1 stE (by decide) id
  subst hc
  have hh : s.Heads p i (fun _ => False) (fun _ _ => False) u (s.startView _) :=
    ⟨hhead, hd.mono (fun _ => False.elim) fun _ _ => id, s.startView_sound _⟩
  exact ⟨⟨hh.alone_all C (fun z _ _ => ⟨s.startView_child _ z, List.not_mem_nil⟩) (fun _ _ _ => id) (fun _ _ _ _ => id),
    htells _ hh.keeps.out⟩, hh.closing C⟩

end

end Sys2Proof.Machine

namespace Sys2Proof.Machine

/-! ## The child of an SFORK (R40, R124, R280, R326) -/

/-- What is kept of a range of memory reads as the range does. -/
theorem byte_snapMem (s : State) (src n j : Nat) (hj : j < n) : Mem.byte (s.snapMem src n).cells j = Mem.byte s.mem (src + j) := by
  unfold State.snapMem Mem.byte
  dsimp only
  induction s.mem with
  | nil => rfl
  | cons e m ih =>
    obtain ⟨k, x⟩ := e
    by_cases hin : src ≤ k ∧ k < src + n
    · rw [List.filter_cons_of_pos (by simpa using hin), List.map_cons]
      unfold SMap.get
      by_cases hk : k - src = j
      · rw [if_pos hk, if_pos (by omega)]
      · rw [if_neg hk, if_neg (by omega)]
        exact ih
    · rw [List.filter_cons_of_neg (by simpa using hin)]
      conv_rhs => unfold SMap.get
      rw [if_neg (by omega)]
      exact ih

/-- The fields that a fork writes of its child. -/
def bornFields : List (Nat × Nat) :=
  [stState, stParent, stRoot, stLlog, stLring, stLwp, stQ, stKey, stE, stLate, stStarved, stSpkdrop]

/-- Fields of a stream are zeroed, one after another. -/
def State.zeroFields (t : State) (c child : Nat) (l : List (Nat × Nat)) : State := l.foldl (fun s f => s.setSt c child f 0) t

/-- A child's fields before the commit moves the pointers. -/
def State.bear (s : State) (c parent child key : Nat) : State :=
  let s := ((s.setSt c child stState 1).setSt c child stParent parent).copyFields c parent child [stRoot, stLlog, stLring, stLwp, stQ]
  let s := (s.setSt c child stKey key).setSt c child stE (s.st c parent stQ)
  s.zeroFields c child [stLate, stStarved, stSpkdrop]

/-- A fork of a stream without a whole page: the child's fields, what it is to inherit, and the event. -/
theorem State.createChild_eq (s : State) (p i parent child : Nat) (flip : Bool) {a : AnchorStream} {c : Nat}
    (hc : ((s.partAt p).res i).ctx = c)
    (ha : (((s.partAt p).res i).atAnchor.find? fun a => a.sid = parent) = some a) (hext : s.extent c a.n < 65536) :
    s.createChild p i parent child flip =
      State.event
        { s.bear c parent child (mix (.ofNat 64 (s.st c parent stKey)) (.ofNat 64 child)).toNat with
          tails := (s.bear c parent child (mix (.ofNat 64 (s.st c parent stKey)) (.ofNat 64 child)).toNat).tails ++
            [s.forkSources c parent child (s.extent c a.n) flip] }
        p c .forkDone parent none (some child) := by
  have hpages : ∀ k : Nat, range 0 (min k (s.extent c a.n / 65536)) = [] := fun k => by
    rw [Nat.div_eq_of_lt hext, Nat.min_zero]; rfl
  subst hc
  unfold State.createChild State.bear State.copyFields State.zeroFields
  dsimp only
  rw [ha]
  dsimp only
  rw [hpages]
  generalize State.setSt = setSt
  generalize State.forkSources = sources
  generalize State.event = event
  rfl

section
variable {s0 t u : State} {c : Nat} {A : Nat → Prop} {W : Nat → Nat × Nat → Prop}

theorem State.Held.zeroFields_does (H : s0.Held c t) {child : Nat} (hc : child < 512) (l : List (Nat × Nat))
    (hl : ∀ f ∈ l, f ∈ stFields) (hW : ∀ f ∈ l, W child f) :
    s0.Does c A W t (t.zeroFields c child l) ∧ t.SameEvents c (t.zeroFields c child l) := by
  unfold State.zeroFields
  induction l generalizing t with
  | nil => exact ⟨.refl .., .refl ..⟩
  | cons g l ih =>
    rw [List.foldl_cons]
    have hg := hl g List.mem_cons_self
    have hset := fun B => H.setSt_does (A := B) (W := W) hc hg 0 (hW g List.mem_cons_self)
    obtain ⟨hd, he⟩ := ih (H.next (hset _)) (fun f hf => hl f (List.mem_cons_of_mem _ hf)) fun f hf => hW f (List.mem_cons_of_mem _ hf)
    exact ⟨(hset A).trans hd, (H.setSt_sameEvents hc hg 0).trans he⟩

theorem State.Held.st_zeroFields (H : s0.Held c t) {child : Nat} (hc : child < 512) (l : List (Nat × Nat))
    (hl : ∀ f ∈ l, f ∈ stFields) (f : Nat × Nat) (hf : f ∈ l) : (t.zeroFields c child l).st c child f = 0 := by
  induction l generalizing t with
  | nil => exact absurd hf List.not_mem_nil
  | cons g l ih =>
    have hg := hl g List.mem_cons_self
    have hl' : ∀ f ∈ l, f ∈ stFields := fun f hf => hl f (List.mem_cons_of_mem _ hf)
    have hset := fun f' hf' => H.st_setSt (sid' := child) (f' := f') hc hg hf' 0
    have H1 := H.next (W := fun _ _ => True) (H.setSt_does hc hg 0 trivial)
    have hcons : t.zeroFields c child (g :: l) = (t.setSt c child g 0).zeroFields c child l := rfl
    rw [hcons]
    generalize t.setSt c child g 0 = t1 at hset H1 ⊢
    by_cases hfl : f ∈ l
    · exact ih H1 hl' hfl
    · have hfg : f = g := (List.mem_cons.mp hf).resolve_right hfl
      obtain ⟨hrest, -⟩ := H1.zeroFields_does (A := s0.Loose c) (W := fun _ f => f ∈ l) hc l hl' fun _ h => h
      rw [hrest.fields child hc f (hl f hf) hfl, hset f (hl f hf), if_pos ⟨rfl, hfg⟩, Nat.zero_mod]

/-- What a child's fields read before the pointers move, and what else stands (R40). -/
theorem State.Held.bear_spec (H : s0.Held c t) {parent child : Nat} (key : Nat) (hp : parent < 512) (hc : child < 512)
    (hne : parent ≠ child) :
    s0.Does c A (fun z f => z = child ∧ f ∈ bornFields) t (t.bear c parent child key) ∧
      t.SameEvents c (t.bear c parent child key) ∧
      (t.bear c parent child key).st c child stState = 1 ∧ (t.bear c parent child key).st c child stParent = parent ∧
      (t.bear c parent child key).st c child stRoot = t.st c parent stRoot ∧
      (t.bear c parent child key).st c child stKey = key % 2 ^ 64 ∧
      ∀ f ∈ [stLate, stStarved, stSpkdrop], (t.bear c parent child key).st c child f = 0 := by
  have hborn : ∀ f, f ∈ bornFields → (fun z f => z = child ∧ f ∈ bornFields) child f := fun f hf => ⟨rfl, hf⟩
  have hset := fun {x : State} (Hx : s0.Held c x) {f : Nat × Nat} (hf : f ∈ bornFields ∧ f ∈ stFields) (v : Nat) =>
    And.intro (fun B => Hx.setSt_does (A := B) (W := fun z f => z = child ∧ f ∈ bornFields) hc hf.2 v (hborn f hf.1))
      (And.intro (Hx.setSt_sameEvents hc hf.2 v) fun z g hg => Hx.st_setSt (sid' := z) (f' := g) hc hf.2 hg v)
  unfold State.bear
  dsimp only
  -- the state and the parent
  obtain ⟨d1, e1, r1⟩ := hset H (f := stState) (by decide) 1
  have H1 := H.next (d1 _)
  generalize t.setSt c child stState 1 = t1 at d1 e1 r1 H1 ⊢
  obtain ⟨d2, e2, r2⟩ := hset H1 (f := stParent) (by decide) parent
  have H2 := H1.next (d2 _)
  generalize t1.setSt c child stParent parent = t2 at d2 e2 r2 H2 ⊢
  -- the fields of the parent
  have d3 := fun B => H2.copyFields_does (A := B) (W := fun z f => z = child ∧ f ∈ [stRoot, stLlog, stLring, stLwp, stQ]) (parent := parent)
    hc [stRoot, stLlog, stLring, stLwp, stQ] (by decide) fun _ h => ⟨rfl, h⟩
  have e3 := H2.copyFields_sameEvents (parent := parent) hc [stRoot, stLlog, stLring, stLwp, stQ] (by decide)
  have r3 := H2.st_copyFields hc hne [stRoot, stLlog, stLring, stLwp, stQ] (by decide) stRoot (by decide)
  have H3 := H2.next (d3 _)
  generalize t2.copyFields c parent child [stRoot, stLlog, stLring, stLwp, stQ] = t3 at d3 e3 r3 H3 ⊢
  -- the key and E
  generalize t3.st c parent stQ = q
  obtain ⟨d4, e4, r4⟩ := hset H3 (f := stKey) (by decide) key
  have H4 := H3.next (d4 _)
  generalize t3.setSt c child stKey key = t4 at d4 e4 r4 H4 ⊢
  obtain ⟨d5, e5, r5⟩ := hset H4 (f := stE) (by decide) q
  have H5 := H4.next (d5 _)
  generalize t4.setSt c child stE q = t5 at d5 e5 r5 H5 ⊢
  -- the counters
  have d6 := fun B => (H5.zeroFields_does (A := B) (W := fun z f => z = child ∧ f ∈ [stLate, stStarved, stSpkdrop]) hc
    [stLate, stStarved, stSpkdrop] (by decide) fun _ h => ⟨rfl, h⟩)
  have r6 := H5.st_zeroFields hc [stLate, stStarved, stSpkdrop] (by decide)
  generalize t5.zeroFields c child [stLate, stStarved, stSpkdrop] = t6 at d6 r6 ⊢
  have hsub : ∀ l : List (Nat × Nat), (∀ f ∈ l, f ∈ bornFields) → ∀ z f, z = child ∧ f ∈ l → z = child ∧ f ∈ bornFields :=
    fun l hl z f h => ⟨h.1, hl f h.2⟩
  have hend : ∀ f, f ∈ stFields → f ∉ [stLate, stStarved, stSpkdrop] → f ≠ stE → t6.st c child f = t4.st c child f := fun f hf hz hE => by
    rw [(d6 (s0.Loose c)).1.fields child hc f hf fun h => hz h.2, r5 child f hf, if_neg fun h => hE h.2]
  have hmid : ∀ f, f ∈ stFields → f ∉ [stLate, stStarved, stSpkdrop] → f ≠ stE → f ≠ stKey → t6.st c child f = t3.st c child f :=
    fun f hf hz hE hK => by rw [hend f hf hz hE, r4 child f hf, if_neg fun h => hK h.2]
  refine ⟨?_, ?_, ?_, ?_, ?_, ?_, r6⟩
  · exact (((((d1 A).trans (d2 A)).trans ((d3 A).mono (fun _ h => h) (hsub _ (by decide)))).trans (d4 A)).trans (d5 A)).trans
      ((d6 A).1.mono (fun _ h => h) (hsub _ (by decide)))
  · exact ((((e1.trans e2).trans e3).trans e4).trans e5).trans (d6 (s0.Loose c)).2
  · rw [hmid stState (by decide) (by decide) (by decide) (by decide), (d3 (s0.Loose c)).fields child hc stState (by decide) fun h =>
      absurd h.2 (by decide), r2 child stState (by decide), if_neg fun h => absurd h.2 (by decide), r1 child stState (by decide), if_pos ⟨rfl, rfl⟩]
    rfl
  · rw [hmid stParent (by decide) (by decide) (by decide) (by decide), (d3 (s0.Loose c)).fields child hc stParent (by decide) fun h =>
      absurd h.2 (by decide), r2 child stParent (by decide), if_pos ⟨rfl, rfl⟩]
    exact Nat.mod_eq_of_lt (show parent < 256 ^ 2 by omega)
  · rw [hmid stRoot (by decide) (by decide) (by decide) (by decide), r3, r2 parent stRoot (by decide), if_neg fun h => hne h.1,
      r1 parent stRoot (by decide), if_neg fun h => hne h.1]
  · rw [hend stKey (by decide) (by decide) (by decide), r4 child stKey (by decide), if_pos ⟨rfl, rfl⟩]
    rfl

theorem State.bear_notes (t : State) (c parent child key : Nat) : t.Notes (t.bear c parent child key) := by
  unfold State.bear
  dsimp only
  have h1 := (t.setSt_notes c child stState 1).trans (State.setSt_notes _ c child stParent parent)
  generalize (t.setSt c child stState 1).setSt c child stParent parent = t1 at h1 ⊢
  have h2 := h1.trans (t1.copyFields_notes c parent child [stRoot, stLlog, stLring, stLwp, stQ])
  rw [← State.copyFields] at h2
  generalize t1.copyFields c parent child [stRoot, stLlog, stLring, stLwp, stQ] = t2 at h2 ⊢
  have h3 := (h2.trans (t2.setSt_notes c child stKey key)).trans (State.setSt_notes _ c child stE (t2.st c parent stQ))
  generalize State.setSt _ c child stE _ = t3 at h3 ⊢
  exact h3.trans (State.Notes.foldl [stLate, stStarved, stSpkdrop] (fun s f => s.setSt c child f 0) (fun s _ _ => s.setSt_notes ..) t3)

end

end Sys2Proof.Machine

namespace Sys2Proof.Machine

section
variable {s u : State} {p i c sid child : Nat} {v : CommitView} {Z : Nat → Prop} {W : Nat → Nat × Nat → Prop}

/-! ## The commit of a fork (R40) -/

/-- A child's position, its release side and its publish word after a commit that bears it alone. -/
theorem State.Heads.settled (h : s.Heads p i Z W u v) (C : s.Committing p i) (hborn : v.born = [(child, sid)]) (hs : sid < 512)
    (hc : child < 512) (hl : s.Live ((s.partAt p).res i).ctx child) (hne : sid ≠ child) :
    (∀ f ∈ [stN, stQ, stRp, stSnap], (s.committed p i).st ((s.partAt p).res i).ctx child f =
      (s.committed p i).st ((s.partAt p).res i).ctx sid f) ∧
    (s.committed p i).st ((s.partAt p).res i).ctx child stE = u.st ((s.partAt p).res i).ctx sid stQ % 2 ^ 32 ∧
    (s.committed p i).st ((s.partAt p).res i).ctx child stG = (u.st ((s.partAt p).res i).ctx child stG + 1) % 2 ^ 32 ∧
    Mem.nat (s.committed p i).mem (s.st ((s.partAt p).res i).ctx child stSpk + 1024) 8 =
      (u.st ((s.partAt p).res i).ctx child stG + 1) % 2 ^ 32 * 2 ^ 32 + u.st ((s.partAt p).res i).ctx sid stQ % 2 ^ 32 := by
  have H := h.held C
  have hctx := h.ctx_eq
  have hsmall := h.small C
  have hend := (u.commitTail_notes p i ((s.partAt p).res i).ctx v).partAt p
  rw [h.committed_eq]
  generalize ((s.partAt p).res i).ctx = c at H hctx hend hl ⊢
  unfold State.commitTail at hend ⊢
  rw [hborn, List.foldl_cons, List.foldl_nil] at hend ⊢
  dsimp only at hend ⊢
  -- up to the flip
  have dp := H.pointers_does (A := s.Loose c) v hctx hsmall
  have kp : ∀ z, z < 512 → ∀ f ∈ [stQ, stG], (u.commitPointers p i v).st c z f = u.st c z f := fun z hz f hf =>
    (H.moveAll_does (A := s.Loose c) v _ hsmall).fields z hz f ((by decide : ∀ f ∈ [stQ, stG], f ∈ stFields) f hf)
      (fun hm => (by decide : ∀ f ∈ [stQ, stG], f ∉ ptrFields) f hf hm.2.2) |> fun h => by
        rw [u.commitPointers_eq_foldl, hctx]; exact h
  have hpart := (u.commitPointers_notes p i v).partAt p
  have Hp := H.next dp
  generalize u.commitPointers p i v = x at kp hpart Hp hend ⊢
  have df := Hp.commitFlip_does (A := s.Loose c) (W := fun _ _ => False) p i (by rw [hpart]; exact hctx) fun _ => .inl
  have Hf := Hp.next df
  have kf : ∀ z, z < 512 → ∀ f ∈ [stQ, stG], (x.commitFlip p i).st c z f = u.st c z f := fun z hz f hf =>
    (df.fields z hz f ((by decide : ∀ f ∈ [stQ, stG], f ∈ stFields) f hf) id).trans (kp z hz f hf)
  generalize x.commitFlip p i = y at kf Hf hend ⊢
  -- the child settles
  obtain ⟨rf, rE, rG, rword⟩ := Hf.st_settleChild hc hl hne
  have ds := Hf.settleChild_does (A := s.Loose c) (W := fun z _ => z = child) (parent := sid) hc hl
    (fun x hx => .inr ⟨child, hc, hl, hx⟩) fun _ _ => rfl
  have Hs := Hf.next ds
  rw [kf sid hs stQ (by decide)] at rE rword
  rw [kf child hc stG (by decide)] at rG rword
  have rsid : ∀ f ∈ [stN, stQ, stRp, stSnap], (y.settleChild c sid child).st c child f = (y.settleChild c sid child).st c sid f :=
    fun f hf => (rf f hf).trans (ds.fields sid hs f ((by decide : ∀ f ∈ [stN, stQ, stRp, stSnap], f ∈ stFields) f hf) hne).symm
  generalize y.settleChild c sid child = z at rsid rE rG rword Hs hend ⊢
  -- the end
  have de := Hs.finish_does (A := fun _ => False) (W := fun _ _ => False) (p := p) (i := i) (by rw [hend]; exact hctx)
  refine ⟨fun f hf => ?_, ?_, ?_, ?_⟩
  · have hf' := (by decide : ∀ f ∈ [stN, stQ, stRp, stSnap], f ∈ stFields) f hf
    rw [de.fields child hc f hf' id, de.fields sid hs f hf' id, rsid f hf]
  · rw [de.fields child hc stE (by decide) id, rE]
  · rw [de.fields child hc stG (by decide) id, rG]
  · rw [((de.toStays.same_ring H.laid hc hl fun _ _ => id).1.mono (Nat.le_add_right _ _) (by omega)).nat_eq, rword]

/-- The anchored stream of an id. -/
theorem find_anchored {l : List AnchorStream} {a : AnchorStream} (hn : (l.map (·.sid)).Nodup) (ha : a ∈ l) (hs : a.sid = sid) :
    (l.find? fun b => b.sid = sid) = some a := by
  obtain ⟨b, hb⟩ := Option.isSome_iff_exists.mp (List.find?_isSome.mpr ⟨a, ha, decide_eq_true hs⟩ :
    (l.find? fun b => b.sid = sid).isSome = true)
  have hbs : b.sid = sid := of_decide_eq_true (List.find?_some hb :)
  rw [hb, List.inj_on_of_nodup_map hn (List.mem_of_find?_eq_some hb) ha (hbs.trans hs.symm)]

/-- What the commit's third step leaves of a fork of a stream without a whole page (R40, R326). -/
theorem State.Held.createChild_spec (H : s.Held c s) (hctx : ((s.partAt p).res i).ctx = c) {a : AnchorStream}
    (ha : (((s.partAt p).res i).atAnchor.find? fun a => a.sid = sid) = some a) (hext : a.n * s.kvb c * 64 < 65536)
    (hs : sid < 512) (hc : child < 512) (hne : sid ≠ child) (flip : Bool) :
    s.Does c (fun _ => False) (fun z f => z = child ∧ f ∈ bornFields) s (s.createChild p i sid child flip) ∧
      (s.createChild p i sid child flip).tails = s.tails ++ [s.forkSources c sid child (a.n * s.kvb c * 64) flip] ∧
      ((s.createChild p i sid child flip).st c child stState = 1 ∧ (s.createChild p i sid child flip).st c child stParent = sid ∧
        (s.createChild p i sid child flip).st c child stRoot = s.st c sid stRoot ∧
        (s.createChild p i sid child flip).st c child stKey = (mix (.ofNat 64 (s.st c sid stKey)) (.ofNat 64 child)).toNat ∧
        ∀ f ∈ [stLate, stStarved, stSpkdrop], (s.createChild p i sid child flip).st c child f = 0) ∧
      ∀ t : State, (s.createChild p i sid child flip).out <+: t.out → s.Tells t c 0x13 sid fun bs => leField bs 16 8 = child := by
  rw [← State.extent] at hext ⊢
  rw [s.createChild_eq p i sid child flip hctx ha hext]
  obtain ⟨d, e, rState, rParent, rRoot, rKey, rzero⟩ := H.bear_spec (A := fun _ => False)
    (mix (.ofNat 64 (s.st c sid stKey)) (.ofNat 64 child)).toNat hs hc hne
  rw [Nat.mod_eq_of_lt (BitVec.isLt _)] at rKey
  have htails := (s.bear_notes c sid child (mix (.ofNat 64 (s.st c sid stKey)) (.ofNat 64 child)).toNat).tails
  generalize s.bear c sid child _ = x at d e rState rParent rRoot rKey rzero htails ⊢
  rw [htails]
  generalize htl : s.tails ++ [s.forkSources c sid child (s.extent c a.n) flip] = tl
  have dt : s.Does c (fun _ => False) (fun _ _ => False) x { x with tails := tl } := .of_mem rfl rfl
  have Hx : s.Held c x := H.does d fun _ => False.elim
  have et : x.SameEvents c { x with tails := tl } := Hx.sameEvents_of_mem rfl rfl fun _ _ => rfl
  have htl' : ({ x with tails := tl } : State).tails = tl := rfl
  generalize ({ x with tails := tl } : State) = y at dt et htl' ⊢
  have Hy : s.Held c y := Hx.does dt fun _ => False.elim
  have de := Hy.event_does (A := fun _ => False) (W := fun _ _ => False) p .forkDone sid none (some child)
  have hnotes := y.event_notes p c .forkDone sid none (some child)
  have hkeep : ∀ f ∈ stFields, (y.event p c .forkDone sid none (some child)).st c child f = x.st c child f := fun f hf =>
    (de.fields child hc f hf id).trans (dt.fields child hc f hf id)
  have htell := fun t : State => Hy.event_tells (u := t) (e.trans et) p .forkDone hs none (some child)
    (P := fun bs => leField bs 16 8 = child) fun bs _ hdetail => by
      rw [hdetail child rfl]; exact Nat.mod_eq_of_lt (by omega)
  have hwide : ∀ x y : State, s.Does c (fun _ => False) (fun _ _ => False) x y →
      s.Does c (fun _ => False) (fun z f => z = child ∧ f ∈ bornFields) x y := fun _ _ h => h.mono (fun _ => id) fun _ _ => False.elim
  refine ⟨(d.trans (hwide _ _ dt)).trans (hwide _ _ de), ?_, ⟨?_, ?_, ?_, ?_, fun f hf => ?_⟩, htell⟩
  · rw [hnotes.tails, htl', ← htl]
  · rw [hkeep stState (by decide), rState]
  · rw [hkeep stParent (by decide), rParent]
  · rw [hkeep stRoot (by decide), rRoot]
  · rw [hkeep stKey (by decide), rKey]
  · rw [hkeep f ((by decide : ∀ f ∈ [stLate, stStarved, stSpkdrop], f ∈ stFields) f hf), rzero f hf]

/-- An SFORK makes the lowest prepared id a child (R40, R326). -/
theorem State.Committing.fork_done (C : s.Committing p i) (h : s.Steady p i 512) {org : Origin}
    (hstage : (s.partAt p).stage = [{ org := org, op := .fork sid }]) (hspeak : (s.partAt p).speak = []) (hs : sid < 512)
    (hctx : ((s.partAt p).res i).ctx = c) (hact : s.active c sid = true) {a : AnchorStream} (ha : a ∈ ((s.partAt p).res i).atAnchor) (has : a.sid = sid)
    (hext : a.n * s.kvb c * 64 < 65536) (hc : child < 512) (h3 : s.st c child stState = 3)
    (hlow : ∀ n, n < child → s.st c n stState ≠ 3) :
    (s.Alone p i 512 (s.committed p i) ∧
      (s.committed p i).st c child stState = 1 ∧ (s.committed p i).st c child stParent = sid ∧
      (s.committed p i).st c child stRoot = s.st c sid stRoot ∧
      (s.committed p i).st c child stN = (s.committed p i).st c sid stN ∧
      (s.committed p i).st c child stQ = (s.committed p i).st c sid stQ ∧
      (s.committed p i).st c child stRp = (s.committed p i).st c sid stRp ∧
      (s.committed p i).st c child stKey = (mix (.ofNat 64 (s.st c sid stKey)) (.ofNat 64 child)).toNat ∧
      (s.committed p i).st c child stLate = 0 ∧ (s.committed p i).st c child stStarved = 0 ∧
      (s.committed p i).st c child stSpkdrop = 0 ∧ s.Shown (s.committed p i) c child (s.st c sid stQ) ∧
      (∃ x ∈ (s.committed p i).tails, x.ctx = c ∧ x.child = child ∧ x.parent = sid ∧ x.ext = a.n * s.kvb c * 64 ∧
        x.half = decide (s.flipOf c = 1) ∧ ∀ j, j < 4096 → Mem.byte x.pen.cells j = Mem.byte s.mem (s.penaltyAt c sid + j)) ∧
      s.Tells (s.committed p i) c 0x13 sid fun bs => leField bs 16 8 = child) ∧
    s.Closing p i (s.committed p i) := by
  have H : s.Held c s := hctx ▸ C.laid.held
  have hone := (s.active_iff c sid).mp hact
  have hne : sid ≠ child := fun he => by rw [he, h3] at hone; exact absurd hone (by decide)
  have hdone := State.forkOne_done (p := p) (i := i) hact (decide (s.flipOf c = 1)) (find_prepared_some hc h3 hlow)
  have hl : s.Live c child := .inr h3
  obtain ⟨d, htails, ⟨rState, rParent, rRoot, rKey, rzero⟩, htell⟩ :=
    H.createChild_spec hctx (find_anchored C.nodup ha has) hext hs hc hne (decide (s.flipOf c = 1))
  generalize s.createChild p i sid child _ = u at hdone d htails rState rParent rRoot rKey rzero htell
  have hhead := C.head_fork h hctx hstage hspeak hdone rfl fun z hz =>
    d.fields z (State.mem_actives.mp hz).1 stE (by decide) fun hw => by
      obtain ⟨hw, -⟩ := hw
      have hz1 := (s.active_iff c z).mp (State.mem_actives.mp hz).2
      rw [hw, h3] at hz1
      exact absurd hz1 (by decide)
  subst hctx
  have hsound : CommitView.Sound { s.startView ((s.partAt p).res i).ctx with born := [(child, sid)] } s ((s.partAt p).res i).ctx :=
    fun b hb => by rw [List.mem_singleton.mp hb]; exact ⟨hc, hl⟩
  have hh : s.Heads p i (fun _ => False) (fun z f => z = child ∧ f ∈ bornFields) u
      { s.startView ((s.partAt p).res i).ctx with born := [(child, sid)] } :=
    ⟨hhead, d.mono (fun _ => False.elim) fun _ _ => id, hsound⟩
  have hother : ∀ z, s.active ((s.partAt p).res i).ctx z = true → z ≠ child := fun z hz he => by
    have hz1 := (s.active_iff _ z).mp hz
    rw [he, h3] at hz1
    exact absurd hz1 (by decide)
  have hnotmoves : CommitView.moves { s.startView ((s.partAt p).res i).ctx with born := [(child, sid)] } u ((s.partAt p).res i).ctx child = false := by
    unfold CommitView.moves
    have hany : ([(child, sid)].any fun b : Nat × Nat => decide (b.1 = child)) = true := by simp
    rw [hany, Bool.not_true, Bool.and_false]
  have hkeep : ∀ f ∈ [stState, stParent, stRoot, stKey, stLate, stStarved, stSpkdrop],
      (s.committed p i).st ((s.partAt p).res i).ctx child f = u.st ((s.partAt p).res i).ctx child f := fun f hf => by
    have hf' := (by decide : ∀ f ∈ [stState, stParent, stRoot, stKey, stLate, stStarved, stSpkdrop], f ∈ stFields ∧ f ∉ childFields) f hf
    refine hh.st_eq C hc hf'.1 ?_
    rintro (hw | hw)
    · exact absurd (hw.2.1.symm.trans hnotmoves) (by decide)
    · exact hf'.2 hw.2
  obtain ⟨rptr, rE, rG, rword⟩ := hh.settled C rfl hs hc hl hne
  rw [d.fields sid hs stQ (by decide) fun hw => hne hw.1] at rE rword
  rw [d.fields child hc stG (by decide) fun hw => absurd hw.2 (by decide)] at rG rword
  refine ⟨⟨hh.alone_all C (fun z _ hz => ⟨?_, List.not_mem_nil⟩) (fun _ _ _ => id) (fun z f _ hz hw => hother z hz hw.1),
    ?_, ?_, ?_, rptr stN (by decide), rptr stQ (by decide), rptr stRp (by decide), ?_, ?_, ?_, ?_, ⟨rE, rG, rword⟩, ?_, htell _ hh.keeps.out⟩, hh.closing C⟩
  · rintro ⟨b, hb, hbz⟩
    rw [List.mem_singleton.mp hb] at hbz
    exact hother z hz hbz.symm
  · rw [hkeep stState (by decide), rState]
  · rw [hkeep stParent (by decide), rParent]
  · rw [hkeep stRoot (by decide), rRoot]
  · rw [hkeep stKey (by decide), rKey]
  · rw [hkeep stLate (by decide), rzero stLate (by decide)]
  · rw [hkeep stStarved (by decide), rzero stStarved (by decide)]
  · rw [hkeep stSpkdrop (by decide), rzero stSpkdrop (by decide)]
  · rw [hh.keeps.tails, htails]
    exact ⟨_, List.mem_append_right _ (List.mem_singleton_self _), rfl, rfl, rfl, rfl, rfl, fun j hj => byte_snapMem s _ 4096 j hj⟩

end

end Sys2Proof.Machine

namespace Sys2Proof.Machine

/-! ## What a cancel and a reset clear (R38, R41) -/

/-- The entries of a stream are cleared, and its staged publications. -/
def State.cleared (s : State) (p c sid : Nat) : State := (s.clearEntries c sid).onPart p fun q => q.dropSpeak sid

section
variable {s t u : State} {p i c sid : Nat}

theorem State.clearEntries_eq (s : State) (c sid : Nat) :
    s.clearEntries c sid = if (s.unretractAll c sid).endPos c sid = (s.unretractAll c sid).st c sid stQ then s.unretractAll c sid
      else (s.unretractAll c sid).publishWord c sid ((s.unretractAll c sid).st c sid stQ) := rfl

theorem State.not_mem_unretractAll (s : State) (c sid n : Nat) : (c, sid, n) ∉ (s.unretractAll c sid).retracted := fun h => by
  have hf := (List.mem_filter.mp (h : (c, sid, n) ∈ s.retracted.filter _)).2
  simp at hf

theorem State.EndIs.of_same (hu : u.st c sid stE = s.st c sid stE ∧ u.st c sid stQ = s.st c sid stQ) {e : Nat} (h : s.EndIs c sid e) :
    u.EndIs c sid e := by
  unfold State.EndIs at h ⊢
  rwa [hu.1, hu.2]

/-- What clearing a stream's entries does (R29, R34). -/
theorem State.Held.clearEntries_spec (H : s.Held c s) (hs : sid < 512) (hl : s.Live c sid) :
    s.Does c (s.RingsOf c (· = sid)) (shownFields sid) s (s.clearEntries c sid) ∧ s.SameEvents c (s.clearEntries c sid) ∧
      (s.clearEntries c sid).memEcc = s.memEcc ∧ (∀ n, (c, sid, n) ∉ (s.clearEntries c sid).retracted) ∧
      ∀ e, s.EndIs c sid e → (s.clearEntries c sid).st c sid stE = s.st c sid stQ % 2 ^ 32 ∧
        (s.st c sid stQ < e → s.Shown (s.clearEntries c sid) c sid (s.st c sid stQ)) := by
  have d1 : s.Does c (fun _ => False) (fun _ _ => False) s (s.unretractAll c sid) := .of_mem rfl rfl
  have e1 : s.SameEvents c (s.unretractAll c sid) := H.sameEvents_of_mem rfl rfl fun _ _ => rfl
  have hecc : (s.unretractAll c sid).memEcc = s.memEcc := rfl
  have hret := s.not_mem_unretractAll c sid
  rw [s.clearEntries_eq]
  generalize s.unretractAll c sid = x at d1 e1 hecc hret ⊢
  have Hx := H.does d1 fun _ => False.elim
  have hkeep := fun f hf => d1.fields sid hs f hf id
  have hend : ∀ e, s.EndIs c sid e → x.endPos c sid = e := fun e he =>
    (he.of_same ⟨hkeep stE (by decide), hkeep stQ (by decide)⟩).endPos
  rw [hkeep stQ (by decide)]
  by_cases h : x.endPos c sid = s.st c sid stQ
  · rw [if_pos h]
    refine ⟨d1.mono (fun _ => False.elim) fun _ _ => False.elim, e1, hecc, hret, fun e he => ?_⟩
    have hee : e = s.st c sid stQ := (hend e he).symm.trans h
    exact ⟨by rw [hkeep stE (by decide), he.1, hee], fun hlt => absurd hee (Nat.ne_of_gt hlt)⟩
  · rw [if_neg h]
    obtain ⟨rE, rG, rword⟩ := Hx.st_publishWord hs hl (s.st c sid stQ)
    rw [hkeep stG (by decide)] at rG rword
    have hn := x.publishWord_notes c sid (s.st c sid stQ)
    refine ⟨(d1.mono (fun _ => False.elim) fun _ _ => False.elim).trans (Hx.publish_does hs hl _),
      e1.trans (Hx.publishWord_sameEvents hs hl _), hn.memEcc.trans hecc, fun n => by rw [hn.retracted]; exact hret n,
      fun e he => ⟨rE, fun _ => ⟨rE, rG, rword⟩⟩⟩

/-- A change of a partition leaves memory and what is noted alone. -/
theorem State.onPart_fields (x : State) (p : Nat) (f : Partition → Partition) :
    (x.onPart p f).mem = x.mem ∧ (x.onPart p f).ctxbase = x.ctxbase ∧ (x.onPart p f).memEcc = x.memEcc ∧
      (x.onPart p f).retracted = x.retracted ∧ (x.onPart p f).evLost = x.evLost := ⟨rfl, rfl, rfl, rfl, rfl⟩

theorem State.cleared_spec (H : s.Held c s) (hs : sid < 512) (hl : s.Live c sid) (p : Nat) :
    s.Does c (s.RingsOf c (· = sid)) (shownFields sid) s (s.cleared p c sid) ∧ s.SameEvents c (s.cleared p c sid) ∧
      (s.cleared p c sid).memEcc = s.memEcc ∧ (∀ n, (c, sid, n) ∉ (s.cleared p c sid).retracted) ∧
      (∀ e, s.EndIs c sid e → (s.cleared p c sid).st c sid stE = s.st c sid stQ % 2 ^ 32 ∧
        (s.st c sid stQ < e → s.Shown (s.cleared p c sid) c sid (s.st c sid stQ))) ∧
      (s.cleared p c sid).partAt p = (s.partAt p).dropSpeak sid := by
  obtain ⟨d, e, hecc, hret, hend⟩ := H.clearEntries_spec hs hl
  have hpart := (s.clearEntries_stores c sid).partAt p
  unfold State.cleared
  generalize s.clearEntries c sid = x at d e hecc hret hend hpart ⊢
  have hm := x.onPart_fields p fun q => q.dropSpeak sid
  have hp := x.partAt_onPart_same p fun q => q.dropSpeak sid
  generalize x.onPart p _ = y at hm hp ⊢
  obtain ⟨hmem, hbase, hmarks, hr, hlost⟩ := hm
  have Hx : s.Held c x := H.does d fun _ => State.RingsOf.loose
  have hkeep := State.st_of_mem hbase hmem c sid
  refine ⟨d.trans (.of_mem hbase hmem), e.trans (Hx.sameEvents_of_mem hbase hlost fun _ _ => by rw [hmem]), hmarks.trans hecc,
    fun n => by rw [hr]; exact hret n, fun e he => ?_, by rw [hp, hpart]⟩
  obtain ⟨hE, hshown⟩ := hend e he
  unfold State.Shown at hshown ⊢
  rw [hkeep, hkeep, hmem]
  exact ⟨hE, hshown⟩

theorem Partition.dropSpeak_nil (q : Partition) (sid : Nat) (h : q.speak = []) : q.dropSpeak sid = q := by
  unfold Partition.dropSpeak
  rw [h, List.filter_nil, ← h]

/-! ### Pages of a context without a translation tree (R318, R325) -/

theorem State.releasePage_unmapped (s : State) (p i c sid k : Nat) (h : (s.ctxWord c 0).testBit 0 = false) :
    s.releasePage p i c sid k = s := by
  have hleaf : s.leafTable c (kvBase sid + 65536 * k) = none := by
    unfold State.leafTable
    rw [h]
    exact if_neg Bool.false_ne_true
  have hpage : s.kvPage c sid k = none := by
    unfold State.kvPage State.kvEntry
    dsimp only
    rw [hleaf]
    rfl
  unfold State.releasePage
  rw [hpage]

/-- The reclaimer takes a stream's pages, and the next TURN its slices. -/
def State.toReclaimer (s : State) (p c sid : Nat) : State := s.onPart p fun q =>
  { q with reclaiming := q.reclaiming ++ [(c, sid)], zeroing := q.zeroing ++ [(c, sid)] }

theorem State.releaseStream_unmapped (s : State) (p i c sid : Nat) (h : (s.ctxWord c 0).testBit 0 = false) :
    s.releaseStream p i c sid = s.toReclaimer p c sid := by
  have hpages : s.releasePages p i c sid = s := by
    unfold State.releasePages
    generalize range 0 kvPages = l
    exact foldl_eq_self fun k _ => s.releasePage_unmapped p i c sid k h
  rw [s.releaseStream_eq, hpages]
  rfl

/-! ### Streams without children -/

/-- No active stream has this parent. -/
def State.Childless (s : State) (c sid : Nat) : Prop := ∀ x, x < 512 → s.active c x = true → s.st c x stParent ≠ sid

theorem State.Childless.kids (h : s.Childless c sid) : ((s.actives c).filter fun x => s.st c x stParent = sid) = [] :=
  List.filter_eq_nil_iff.mpr fun x hx hd => h x (State.mem_actives.mp hx).1 (State.mem_actives.mp hx).2 (of_decide_eq_true hd)

theorem State.Childless.subtree (h : s.Childless c sid) (fuel : Nat) : s.subtree c fuel sid = [] := by
  cases fuel with
  | zero => rfl
  | succ fuel =>
    unfold State.subtree
    rw [h.kids]
    rfl

/-- A cancel of a stream without children removes that stream. -/
theorem State.cancelStream_childless (h : s.Childless ((s.partAt p).res i).ctx sid) (tree : Bool) :
    s.cancelStream p i sid tree = s.removeStream p i sid .streamCancelled := by
  have htree : s.removeTree p i sid .streamCancelled = s.removeStream p i sid .streamCancelled := by
    unfold State.removeTree
    generalize 512 = fuel
    dsimp only
    rw [h.subtree fuel]
    rfl
  have hkids : ∀ v, (s.actives ((s.partAt p).res i).ctx).foldl (fun t x =>
      if t.st ((s.partAt p).res i).ctx x stParent = sid then t.setSt ((s.partAt p).res i).ctx x stParent v else t) s = s := fun v =>
    foldl_eq_self fun x hx => if_neg (h x (State.mem_actives.mp hx).1 (State.mem_actives.mp hx).2)
  unfold State.cancelStream
  dsimp only
  rw [hkids, htree, ite_self]

end

end Sys2Proof.Machine

namespace Sys2Proof.Machine

section
variable {s t u : State} {p i c sid : Nat}

/-! ## A commit with an SCANCEL (R41, R175) -/

/-- The fields that a cancel writes of its stream. -/
def removedFields (sid z : Nat) (f : Nat × Nat) : Prop := z = sid ∧ (f = stE ∨ f = stG ∨ f = stState)

theorem State.removal_eq (s : State) (hctx : ((s.partAt p).res i).ctx = c) (e : Event) :
    s.removal p i sid e =
      State.onRes (State.event ((s.cleared p c sid).setSt c sid stState 2) p c e sid
        (some (((s.cleared p c sid).st c sid stQ + 2 ^ 64 - 1) % 2 ^ 64)) none) p i fun r => { r with resets := r.resets.filter (· ≠ sid) } := by
  subst hctx
  rfl

/-- A change of a resident leaves memory and what is noted alone. -/
theorem State.onRes_fields (x : State) (p i : Nat) (f : Resident → Resident) :
    (x.onRes p i f).mem = x.mem ∧ (x.onRes p i f).ctxbase = x.ctxbase ∧ (x.onRes p i f).memEcc = x.memEcc ∧
      (x.onRes p i f).retracted = x.retracted ∧ (x.onRes p i f).out = x.out := ⟨rfl, rfl, rfl, rfl, rfl⟩

/-- What the removal of a stream does, before its pages go (R41). -/
theorem State.Held.removal_spec (H : s.Held c s) (hctx : ((s.partAt p).res i).ctx = c) (hs : sid < 512) (hl : s.Live c sid)
    (hspeak : (s.partAt p).speak = []) (hresets : ((s.partAt p).res i).resets = []) :
    s.Does c (s.RingsOf c (· = sid)) (removedFields sid) s (s.removal p i sid .streamCancelled) ∧
      (s.removal p i sid .streamCancelled).memEcc = s.memEcc ∧
      (∀ n, (c, sid, n) ∉ (s.removal p i sid .streamCancelled).retracted) ∧
      (s.removal p i sid .streamCancelled).st c sid stState = 2 ∧
      (∀ e, s.EndIs c sid e → (s.removal p i sid .streamCancelled).st c sid stE = s.st c sid stQ % 2 ^ 32 ∧
        (s.st c sid stQ < e → s.Shown (s.removal p i sid .streamCancelled) c sid (s.st c sid stQ))) ∧
      (((s.removal p i sid .streamCancelled).partAt p).speak = [] ∧ (((s.removal p i sid .streamCancelled).partAt p).res i).resets = []) ∧
      ∀ t : State, (s.removal p i sid .streamCancelled).out <+: t.out →
        s.Tells t c 0x11 sid fun bs => leField bs 8 8 = (s.st c sid stQ + 2 ^ 64 - 1) % 2 ^ 64 := by
  rw [s.removal_eq hctx]
  obtain ⟨d1, e1, hecc1, hret1, hend1, hpart1⟩ := State.cleared_spec H hs hl p
  rw [Partition.dropSpeak_nil _ _ hspeak] at hpart1
  generalize s.cleared p c sid = x at d1 e1 hecc1 hret1 hend1 hpart1 ⊢
  have H1 := H.does d1 fun _ => State.RingsOf.loose
  rw [d1.fields sid hs stQ (by decide) fun h => absurd h.2 (by decide)]
  -- the state
  have d2 := H1.setSt_does (A := s.RingsOf c (· = sid)) (W := removedFields sid) hs (f := stState) (by decide) 2 ⟨rfl, .inr (.inr rfl)⟩
  have e2 := H1.setSt_sameEvents hs (f := stState) (by decide) 2
  have r2 := H1.st_setSt (sid' := sid) hs (f := stState) (f' := stState) (by decide) (by decide) 2
  rw [if_pos ⟨rfl, rfl⟩] at r2
  have n2 := x.setSt_notes c sid stState 2
  have k2 : ∀ f ∈ [stE, stG], (x.setSt c sid stState 2).st c sid f = x.st c sid f := fun f hf =>
    (H1.st_setSt hs (by decide) ((by decide : ∀ f ∈ [stE, stG], f ∈ stFields) f hf) 2).trans
      (if_neg fun h => (by decide : ∀ f ∈ [stE, stG], f ≠ stState) f hf h.2)
  have w2 : Mem.nat (x.setSt c sid stState 2).mem (s.st c sid stSpk + 1024) 8 = Mem.nat x.mem (s.st c sid stSpk + 1024) 8 :=
    (((H1.setSt_stays (A := fun _ => False) hs (f := stState) (by decide) 2).same_ring H.laid hs hl fun _ _ => id).1.mono
      (Nat.le_add_right _ _) (by omega)).nat_eq
  generalize x.setSt c sid stState 2 = y at d2 e2 r2 n2 k2 w2 ⊢
  have H2 := H1.does d2 fun _ => State.RingsOf.loose
  -- the event
  generalize hpos : (s.st c sid stQ + 2 ^ 64 - 1) % 2 ^ 64 = pos
  have hpos64 : pos < 2 ^ 64 := hpos ▸ Nat.mod_lt _ (by decide)
  have htell := fun t : State => H2.event_tells (u := t) (e1.trans e2) p .streamCancelled hs (some pos) none
    (P := fun bs => leField bs 8 8 = pos) fun bs hb _ => (hb pos rfl).trans (Nat.mod_eq_of_lt hpos64)
  have d3 := H2.event_does (A := fun _ => False) (W := fun _ _ => False) p .streamCancelled sid (some pos) none
  have n3 := n2.trans (y.event_notes p c .streamCancelled sid (some pos) none)
  generalize y.event p c .streamCancelled sid (some pos) none = z at htell d3 n3 ⊢
  -- the resets that wait
  obtain ⟨hm, hb, he, hr, ho⟩ := z.onRes_fields p i fun r => { r with resets := r.resets.filter (· ≠ sid) }
  have hpart := z.partAt_onRes p i fun r => { r with resets := r.resets.filter (· ≠ sid) }
  have hres := z.res_onRes p i i fun r => { r with resets := r.resets.filter (· ≠ sid) }
  rw [if_pos rfl] at hres
  generalize z.onRes p i _ = v at hm hb he hr ho hpart hres ⊢
  have hzpart : z.partAt p = s.partAt p := (n3.partAt p).trans hpart1
  have hkeep : ∀ f ∈ stFields, v.st c sid f = y.st c sid f := fun f hf =>
    (State.st_of_mem hb hm c sid f).trans (d3.fields sid hs f hf id)
  have hword : Mem.nat v.mem (s.st c sid stSpk + 1024) 8 = Mem.nat x.mem (s.st c sid stSpk + 1024) 8 := by
    rw [hm, ← w2]
    exact ((d3.toStays.same_ring H.laid hs hl fun _ _ => id).1.mono (Nat.le_add_right _ _) (by omega)).nat_eq
  have hwide : ∀ a b : State, s.Does c (s.RingsOf c (· = sid)) (shownFields sid) a b →
      s.Does c (s.RingsOf c (· = sid)) (removedFields sid) a b := fun _ _ h => h.mono (fun _ => id) fun _ _ hf => ⟨hf.1, hf.2.imp_right .inl⟩
  refine ⟨?_, ?_, fun n => ?_, ?_, fun e hE => ?_, ⟨?_, ?_⟩, fun t ht => htell t (ho ▸ ht)⟩
  · exact (((hwide _ _ d1).trans d2).trans (d3.mono (fun _ => False.elim) fun _ _ => False.elim)).trans (.of_mem hb hm)
  · rw [he, n3.memEcc, hecc1]
  · rw [hr, n3.retracted]; exact hret1 n
  · rw [hkeep stState (by decide), r2]; rfl
  · obtain ⟨rE, rshown⟩ := hend1 e hE
    refine ⟨by rw [hkeep stE (by decide), k2 stE (by decide), rE], fun hlt => ?_⟩
    obtain ⟨s1, s2, s3⟩ := rshown hlt
    exact ⟨by rw [hkeep stE (by decide), k2 stE (by decide), s1], by rw [hkeep stG (by decide), k2 stG (by decide), s2], by rw [hword, s3]⟩
  · rw [hpart, hzpart]; exact hspeak
  · rw [hres, hzpart]
    show ((s.partAt p).res i).resets.filter _ = []
    rw [hresets]
    rfl

end

end Sys2Proof.Machine

namespace Sys2Proof.Machine

section
variable {s t u : State} {p i c sid : Nat}

/-! ## Every SCANCEL gives its stream to the reclaimer (R41, R329) -/

theorem State.mem_reclaiming_removeStream (s : State) (hctx : ((s.partAt p).res i).ctx = c) (e : Event) :
    (c, sid) ∈ ((s.removeStream p i sid e).partAt p).reclaiming := by
  rw [s.removeStream_eq, hctx]
  exact State.mem_reclaiming_releaseStream ..

theorem State.mem_reclaiming_cancelStream (s : State) (hctx : ((s.partAt p).res i).ctx = c) (tree : Bool) :
    (c, sid) ∈ ((s.cancelStream p i sid tree).partAt p).reclaiming := by
  unfold State.cancelStream
  dsimp only
  split
  · unfold State.removeTree
    dsimp only
    have hmem := s.mem_reclaiming_removeStream (sid := sid) hctx .streamCancelled
    have hrest := State.Commits.foldl (p := p) (s.subtree ((s.partAt p).res i).ctx 512 sid)
      (fun s x => s.removeStream p i x .streamCancelled) (fun s x _ => s.removeStream_commits p i x .streamCancelled)
      (s.removeStream p i sid .streamCancelled)
    exact hrest.reclaiming.subset hmem
  · refine State.mem_reclaiming_removeStream _ ?_ _
    have hn := State.Notes.foldl (s.actives ((s.partAt p).res i).ctx) (fun t x =>
      if t.st ((s.partAt p).res i).ctx x stParent = sid then
        t.setSt ((s.partAt p).res i).ctx x stParent (s.st ((s.partAt p).res i).ctx sid stParent) else t) (fun t x _ => by
      split
      · exact t.setSt_notes ..
      · exact .refl t) s
    rw [hn.partAt p, hctx]

/-- The first five steps after the cancels. -/
theorem State.commitHead_after_cancels (s : State) (p i : Nat) {ops : List Staged}
    (hops : sortBy (fun (a b : Staged) => a.org.before b.org) (s.partAt p).stage = ops) :
    State.Commits p (s.commitCancels p i (s.startView ((s.partAt p).res i).ctx) ops) (s.commitHead p i).1 := by
  unfold State.commitHead
  dsimp only
  rw [hops]
  generalize s.commitCancels p i _ ops = x
  have ha := x.commitResets_commits p i (s.startView ((s.partAt p).res i).ctx)
  generalize x.commitResets p i _ = a at ha ⊢
  have hb := ha.trans (a.1.commitForks_commits p i a.2 ops)
  generalize a.1.commitForks p i a.2 ops = b at hb ⊢
  exact (hb.trans (State.commitRetracts_commits ..)).trans (State.commitSpeaks_commits ..)

theorem State.commitCancels_one (hctx : ((s.partAt p).res i).ctx = c) (hact : s.active c sid = true) (org : Origin) (tree : Bool) :
    s.commitCancels p i (s.startView c) [{ org := org, op := .cancel sid tree }] = s.cancelStream p i sid tree := by
  unfold State.commitCancels
  rw [List.foldl_cons, List.foldl_nil]
  exact s.onStaged_active _ hctx hact rfl

theorem State.Committing.cancel_reclaims (_C : s.Committing p i) {org : Origin} {tree : Bool} (hctx : ((s.partAt p).res i).ctx = c)
    (hstage : (s.partAt p).stage = [{ org := org, op := .cancel sid tree }]) (hact : s.active c sid = true) :
    (c, sid) ∈ ((s.committed p i).partAt p).reclaiming := by
  have hc := s.commitHead_after_cancels p i (ops := [{ org := org, op := .cancel sid tree }]) (by rw [hstage]; rfl)
  rw [hctx, State.commitCancels_one hctx hact] at hc
  have hk := (s.committed_keeps p i).reclaiming
  rw [hk]
  exact hc.reclaiming.subset (s.mem_reclaiming_cancelStream hctx tree)

/-! ## An SCANCEL of a stream without children (R41) -/

/-- The partition after its reclaimer has taken a stream. -/
theorem State.toReclaimer_part (x : State) (p c sid : Nat) : (x.toReclaimer p c sid).partAt p =
    { x.partAt p with reclaiming := (x.partAt p).reclaiming ++ [(c, sid)], zeroing := (x.partAt p).zeroing ++ [(c, sid)] } :=
  x.partAt_onPart_same p _

theorem State.toReclaimer_keeps (x : State) (p c sid i : Nat) : ((x.toReclaimer p c sid).partAt p).speak = (x.partAt p).speak ∧
    ((x.toReclaimer p c sid).partAt p).res i = (x.partAt p).res i := by
  rw [x.toReclaimer_part]
  exact ⟨rfl, rfl⟩

theorem State.toReclaimer_fields (x : State) (p c sid : Nat) :
    (x.toReclaimer p c sid).mem = x.mem ∧ (x.toReclaimer p c sid).ctxbase = x.ctxbase ∧ (x.toReclaimer p c sid).memEcc = x.memEcc ∧
      (x.toReclaimer p c sid).retracted = x.retracted ∧ (x.toReclaimer p c sid).out = x.out := ⟨rfl, rfl, rfl, rfl, rfl⟩

/-- The tree of a context that has none stands empty under the cancel of a stream. -/
theorem State.Held.unmapped {A : Nat → Prop} (H : s.Held c s) (h : s.Stays c A s t) (hA : ∀ x, s.InWord c x → ¬A x)
    (hw : (s.ctxWord c 0).testBit 0 = false) : (t.ctxWord c 0).testBit 0 = false := by
  rw [H.ctxWord_zero h hA]
  exact hw

/-- The first five steps of a commit whose one staged effect cancels a stream without children. -/
theorem State.Committing.head_cancel (C : s.Committing p i) (h : s.Steady p i sid) {org : Origin} {tree : Bool}
    (hctx : ((s.partAt p).res i).ctx = c) (hstage : (s.partAt p).stage = [{ org := org, op := .cancel sid tree }])
    (hact : s.active c sid = true)
    (hu : s.cancelStream p i sid tree = u) (hd : s.Does c (s.RingsOf c (· = sid)) (removedFields sid) s u)
    (hecc : u.memEcc = s.memEcc) (hinact : u.active c sid = false) (hspeak : (u.partAt p).speak = [])
    (hresets : ((u.partAt p).res i).resets = []) : s.commitHead p i = (u, s.startView c) := by
  have H : s.Held c s := hctx ▸ C.laid.held
  have hcommits : s.Commits p u := hu ▸ s.cancelStream_commits p i sid tree
  have hanchor : ((u.partAt p).res i).atAnchor = ((s.partAt p).res i).atAnchor := by rw [hcommits.res i]
  have huctx : ((u.partAt p).res i).ctx = c := by rw [hcommits.res i, hctx]
  have hsid : ∀ z, u.active c z = true → z ≠ sid := fun z hz he => by
    rw [he, hinact] at hz; exact Bool.false_ne_true hz
  have hsame : ∀ z, z < 512 → z ≠ sid → s.SameRing u c z := fun z hz hne => hd.sameRing hz fun f _ hf => hne hf.1
  have hresetsEq : u.commitResets p i (s.startView c) = (u, s.startView c) := by
    rw [u.commitResets_eq_foldl, hresets, filter_contains_nil, huctx, hanchor]
    refine foldl_eq_self fun a ha => (H.does hd fun _ => State.RingsOf.loose).resetIf_steady hecc _ (C.small a ha) fun hau => ?_
    have hne := hsid a.sid hau
    have hr := hsame a.sid (C.small a ha) hne
    have has : s.active c a.sid = true := by rw [← hr.active]; exact hau
    exact ⟨hr, hctx ▸ h a ha hne (by rw [hctx]; exact has)⟩
  have hspeaks : u.commitSpeaks p i (s.startView c) (s.endsBefore c) = u := by
    refine u.commitSpeaks_silent p i _ _ hspeak fun z hz hau _ => ?_
    rw [huctx] at hau ⊢
    exact hd.fields z (State.mem_actives.mp hz).1 stE (by decide) fun hf => hsid z hau hf.1
  unfold State.commitHead
  dsimp only
  rw [hstage, sortBy_singleton, hctx, State.commitCancels_one hctx hact, hu, hresetsEq]
  dsimp only
  rw [u.commitForks_none p i _ fun x hx => by rw [List.mem_singleton.mp hx]; rfl]
  show (u.commitSpeaks p i _ _, _) = _
  rw [hspeaks]

/-- An SCANCEL removes a stream without children (R41, R175). -/
theorem State.Committing.cancel (C : s.Committing p i) (h : s.Steady p i sid) {org : Origin} {tree : Bool}
    (hctx : ((s.partAt p).res i).ctx = c) (hstage : (s.partAt p).stage = [{ org := org, op := .cancel sid tree }])
    (hspeak : (s.partAt p).speak = []) (hs : sid < 512) (hact : s.active c sid = true) (hw : (s.ctxWord c 0).testBit 0 = false)
    (hkids : s.Childless c sid) :
    (s.Alone p i sid (s.committed p i) ∧ (s.committed p i).st c sid stState = 2 ∧
      (s.committed p i).st c sid stN = s.st c sid stN ∧ (∀ n, (c, sid, n) ∉ (s.committed p i).retracted) ∧
      (∀ e, s.EndIs c sid e → (s.committed p i).st c sid stE = s.st c sid stQ % 2 ^ 32 ∧
        (s.st c sid stQ < e → s.Shown (s.committed p i) c sid (s.st c sid stQ))) ∧
      s.Tells (s.committed p i) c 0x11 sid fun bs => leField bs 8 8 = (s.st c sid stQ + 2 ^ 64 - 1) % 2 ^ 64) ∧
    s.Closing p i (s.committed p i) := by
  have H : s.Held c s := hctx ▸ C.laid.held
  have hl := State.live_of_active hact
  obtain ⟨d, hecc, hret, hstate, hend, ⟨hsp, hres⟩, htell⟩ := H.removal_spec hctx hs hl hspeak C.resets
  have hcancel : s.cancelStream p i sid tree = (s.removal p i sid .streamCancelled).toReclaimer p c sid := by
    have hw' : ((s.removal p i sid .streamCancelled).ctxWord c 0).testBit 0 = false :=
      H.unmapped d.toStays (fun _ => H.laid.ringsOf_not_word) hw
    rw [State.cancelStream_childless (by rw [hctx]; exact hkids), s.removeStream_eq, hctx]
    generalize s.removal p i sid .streamCancelled = x at hw' ⊢
    exact x.releaseStream_unmapped p i c sid hw'
  generalize s.removal p i sid .streamCancelled = x at d hecc hret hstate hend hsp hres htell hcancel
  obtain ⟨hm, hb, he, hr, ho⟩ := x.toReclaimer_fields p c sid
  obtain ⟨hpspeak, hpres⟩ := x.toReclaimer_keeps p c sid i
  generalize x.toReclaimer p c sid = u at hcancel hm hb he hr ho hpspeak hpres
  have hst := State.st_of_mem hb hm c
  have du : s.Does c (s.RingsOf c (· = sid)) (removedFields sid) s u := d.trans (.of_mem hb hm)
  have hinact : u.active c sid = false := by
    rw [Bool.eq_false_iff]
    intro ha
    rw [u.active_iff, hst, hstate] at ha
    exact absurd ha (by decide)
  have hhead := C.head_cancel h hctx hstage hact hcancel du (he.trans hecc) hinact (hpspeak.trans hsp) (by rw [hpres]; exact hres)
  subst hctx
  have hh : s.Heads p i (· = sid) (removedFields sid) u (s.startView _) := ⟨hhead, du, s.startView_sound _⟩
  have hchild := s.startView_child ((s.partAt p).res i).ctx
  have hout := hh.keeps.out
  rw [ho] at hout
  refine ⟨⟨hh.alone_all C (fun z _ _ => ⟨hchild z, List.not_mem_nil⟩) (fun _ hz _ => hz) (fun _ _ hz _ hf => hz hf.1), ?_, ?_, fun n => ?_,
    fun e hE => ?_, htell _ hout⟩, hh.closing C⟩
  · rw [hh.st_eq C hs (by decide) (CommitView.not_writes (hchild sid) (by decide)), hst, hstate]
  · rw [hh.st_eq C hs (by decide), du.fields sid hs stN (by decide) fun hf => absurd hf.2 (by decide)]
    rintro (hmv | hmv)
    · have hmoves := hmv.2.1
      unfold CommitView.moves at hmoves
      rw [hinact] at hmoves
      exact Bool.false_ne_true hmoves
    · exact hchild sid hmv.1
  · rw [hh.keeps.retracted, hr]; exact hret n
  · obtain ⟨rE, rshown⟩ := hend e hE
    refine ⟨?_, fun hlt => hh.shown C hs hl (hchild sid) ?_⟩
    · rw [hh.st_eq C hs (by decide) (CommitView.not_writes (hchild sid) (by decide)), hst, rE]
    · have hshown := rshown hlt
      unfold State.Shown at hshown ⊢
      rw [hst, hst, hm]
      exact hshown

end

end Sys2Proof.Machine

namespace Sys2Proof.Machine

section
variable {s t u : State} {p i c sid : Nat}

/-! ## A commit with a good RESET (R38) -/

/-- The fields that a reset writes of its stream. -/
def resetFields (sid z : Nat) (f : Nat × Nat) : Prop := z = sid ∧ f ∈ [stE, stG, stN, stLate, stRp]

/-- The reset of a stream without children in a context without a translation tree. -/
theorem State.resetStream_eq (hctx : ((s.partAt p).res i).ctx = c) (hkids : s.Childless c sid)
    (hw : ((s.cleared p c sid).ctxWord c 0).testBit 0 = false) :
    s.resetStream p i sid =
      (((s.cleared p c sid).toReclaimer p c sid).setSt c sid stN 0).onRes p i fun r => { r with resets := r.resets ++ [sid] } := by
  unfold State.resetStream
  dsimp only
  rw [hctx, hkids.kids, List.foldl_nil, ← State.cleared]
  generalize s.cleared p c sid = x at hw ⊢
  rw [x.releaseStream_unmapped p i c sid hw]

/-- The list of resets grows. -/
theorem State.addReset_keeps (x : State) (p i sid : Nat) :
    ((x.onRes p i fun r => { r with resets := r.resets ++ [sid] }).partAt p).speak = (x.partAt p).speak ∧
      ((x.onRes p i fun r => { r with resets := r.resets ++ [sid] }).partAt p).reclaiming = (x.partAt p).reclaiming ∧
      ((x.onRes p i fun r => { r with resets := r.resets ++ [sid] }).partAt p).zeroing = (x.partAt p).zeroing ∧
      (((x.onRes p i fun r => { r with resets := r.resets ++ [sid] }).partAt p).res i).resets = ((x.partAt p).res i).resets ++ [sid] := by
  rw [x.res_onRes, x.partAt_onRes, if_pos rfl]
  exact ⟨rfl, rfl, rfl, rfl⟩

theorem State.toReclaimer_lists (x : State) (p c sid : Nat) :
    ((x.toReclaimer p c sid).partAt p).reclaiming = (x.partAt p).reclaiming ++ [(c, sid)] ∧
      ((x.toReclaimer p c sid).partAt p).zeroing = (x.partAt p).zeroing ++ [(c, sid)] := by
  rw [x.toReclaimer_part]
  exact ⟨rfl, rfl⟩

/-- What a reset does to its stream, its partition and its resident (R38). -/
theorem State.Held.takeReset_spec (H : s.Held c s) (hctx : ((s.partAt p).res i).ctx = c) (a : AnchorStream) (k : Nat) (hs : a.sid < 512)
    (hl : s.Live c a.sid) (hspeak : (s.partAt p).speak = []) (hresets : ((s.partAt p).res i).resets = [])
    (hkids : s.Childless c a.sid) (hw : (s.ctxWord c 0).testBit 0 = false) :
    s.Does c (s.RingsOf c (· = a.sid)) (resetFields a.sid) s (s.takeReset p i c a k) ∧ (s.takeReset p i c a k).memEcc = s.memEcc ∧
      ((s.takeReset p i c a k).st c a.sid stN = 0 ∧ (s.takeReset p i c a k).st c a.sid stRp = (a.rp + k + 1) % 2 ^ 32 ∧
        (s.takeReset p i c a k).st c a.sid stLate = min 0xFFFF (s.st c a.sid stLate + k) ∧
        ∀ e, s.EndIs c a.sid e → (s.takeReset p i c a k).st c a.sid stE = s.st c a.sid stQ % 2 ^ 32) ∧
      (((s.takeReset p i c a k).partAt p).speak = [] ∧
        ((s.takeReset p i c a k).partAt p).reclaiming = (s.partAt p).reclaiming ++ [(c, a.sid)] ∧
        ((s.takeReset p i c a k).partAt p).zeroing = (s.partAt p).zeroing ++ [(c, a.sid)] ∧
        (((s.takeReset p i c a k).partAt p).res i).resets = [a.sid]) := by
  obtain ⟨d1, -, hecc1, -, hend1, hpart1⟩ := State.cleared_spec H hs hl p
  rw [Partition.dropSpeak_nil _ _ hspeak] at hpart1
  have hw1 := H.unmapped d1.toStays (fun _ => H.laid.ringsOf_not_word) hw
  unfold State.takeReset
  rw [State.resetStream_eq hctx hkids hw1]
  generalize s.cleared p c a.sid = x at d1 hecc1 hend1 hpart1 ⊢
  have H1 := H.does d1 fun _ => State.RingsOf.loose
  -- the reclaimer
  obtain ⟨hm2, hb2, he2, -, -⟩ := x.toReclaimer_fields p c a.sid
  obtain ⟨hsp2, hres2⟩ := x.toReclaimer_keeps p c a.sid i
  obtain ⟨hrec2, hzero2⟩ := x.toReclaimer_lists p c a.sid
  rw [hpart1] at hsp2 hres2 hrec2 hzero2
  generalize x.toReclaimer p c a.sid = y at hm2 hb2 he2 hsp2 hres2 hrec2 hzero2 ⊢
  have d2 : s.Does c (s.RingsOf c (· = a.sid)) (resetFields a.sid) x y := .of_mem hb2 hm2
  have H2 := H1.does d2 fun _ => State.RingsOf.loose
  have r2 := State.st_of_mem hb2 hm2 c a.sid
  -- the position
  have d3 := H2.setSt_does (A := s.RingsOf c (· = a.sid)) (W := resetFields a.sid) hs (f := stN) (by decide) 0 ⟨rfl, by decide⟩
  have r3 := fun f hf => H2.st_setSt (sid' := a.sid) hs (f := stN) (f' := f) (by decide) hf 0
  have n3 := y.setSt_notes c a.sid stN 0
  generalize y.setSt c a.sid stN 0 = z at d3 r3 n3 ⊢
  have H3 := H2.does d3 fun _ => State.RingsOf.loose
  -- the list of resets
  obtain ⟨hm4, hb4, he4, -, -⟩ := z.onRes_fields p i fun r => { r with resets := r.resets ++ [a.sid] }
  obtain ⟨hsp4, hrec4, hzero4, hres4⟩ := z.addReset_keeps p i a.sid
  rw [n3.partAt p] at hsp4 hrec4 hzero4 hres4
  rw [hsp2] at hsp4
  rw [hrec2] at hrec4
  rw [hzero2] at hzero4
  rw [hres2, hresets] at hres4
  generalize z.onRes p i _ = w at hm4 hb4 he4 hsp4 hrec4 hzero4 hres4 ⊢
  have d4 : s.Does c (s.RingsOf c (· = a.sid)) (resetFields a.sid) z w := .of_mem hb4 hm4
  have H4 := H3.does d4 fun _ => State.RingsOf.loose
  have r4 := State.st_of_mem hb4 hm4 c a.sid
  -- the counter and the pointer
  have d5 := H4.count_does (A := s.RingsOf c (· = a.sid)) (W := resetFields a.sid) hs (f := stLate) (by decide) k ⟨rfl, by decide⟩
  have r5 := H4.st_count hs (f := stLate) (by decide) rfl k
  have k5 : ∀ f ∈ [stN, stE], (w.count c a.sid stLate k).st c a.sid f = w.st c a.sid f := fun f hf =>
    (H4.st_setSt hs (by decide) ((by decide : ∀ f ∈ [stN, stE], f ∈ stFields) f hf) _).trans
      (if_neg fun h => (by decide : ∀ f ∈ [stN, stE], f ≠ stLate) f hf h.2)
  have n5 := w.count_notes c a.sid stLate k
  generalize w.count c a.sid stLate k = v at d5 r5 k5 n5 ⊢
  have H5 := H4.does d5 fun _ => State.RingsOf.loose
  have d6 := H5.setSt_does (A := s.RingsOf c (· = a.sid)) (W := resetFields a.sid) hs (f := stRp) (by decide) (a.rp + k + 1) ⟨rfl, by decide⟩
  have r6 := fun f hf => H5.st_setSt (sid' := a.sid) hs (f := stRp) (f' := f) (by decide) hf (a.rp + k + 1)
  have n6 := n5.trans (v.setSt_notes c a.sid stRp (a.rp + k + 1))
  generalize v.setSt c a.sid stRp (a.rp + k + 1) = u at d6 r6 n6 ⊢
  have d1' : s.Does c (s.RingsOf c (· = a.sid)) (resetFields a.sid) s x := d1.mono (fun _ => id) fun z f hf =>
    ⟨hf.1, by rcases hf.2 with h | h <;> rw [h] <;> decide⟩
  refine ⟨((((d1'.trans d2).trans d3).trans d4).trans d5).trans d6, ?_, ⟨?_, ?_, ?_, fun e he => ?_⟩, ?_⟩
  · rw [n6.memEcc, he4, n3.memEcc, he2, hecc1]
  · rw [r6 stN (by decide), if_neg fun h => absurd h.2 (by decide), k5 stN (by decide), r4, r3 stN (by decide), if_pos ⟨rfl, rfl⟩, Nat.zero_mod]
  · rw [r6 stRp (by decide), if_pos ⟨rfl, rfl⟩]
    rfl
  · rw [r6 stLate (by decide), if_neg fun h => absurd h.2 (by decide), r5, r4, r3 stLate (by decide), if_neg fun h => absurd h.2 (by decide), r2,
      d1.fields a.sid hs stLate (by decide) fun h => absurd h.2 (by decide)]
  · rw [r6 stE (by decide), if_neg fun h => absurd h.2 (by decide), k5 stE (by decide), r4, r3 stE (by decide), if_neg fun h => absurd h.2 (by decide), r2,
      (hend1 e he).1]
  · rw [n6.partAt p]
    exact ⟨hsp4.trans hspeak, hrec4, hzero4, hres4⟩

end

end Sys2Proof.Machine

namespace Sys2Proof.Machine

section
variable {s u : State} {p i c : Nat}

/-- The view of a commit that has reset one stream. -/
def State.resetView (s : State) (c sid : Nat) : CommitView := { s.startView c with resets := [sid] }

/-- The first five steps of a commit that resets one stream (R38). -/
theorem State.Committing.head_reset (C : s.Committing p i) {a : AnchorStream} (h : s.Steady p i a.sid)
    (hctx : ((s.partAt p).res i).ctx = c) (hstage : (s.partAt p).stage = []) (ha : a ∈ ((s.partAt p).res i).atAnchor)
    (hact : s.active c a.sid = true) {k : Nat} (hrun : s.Run c a k true) (hgood : s.Resets c a) (hu : s.takeReset p i c a k = u)
    (hd : s.Does c (s.RingsOf c (· = a.sid)) (resetFields a.sid) s u) (hecc : u.memEcc = s.memEcc)
    (hspeak : (u.partAt p).speak = []) : s.commitHead p i = (u, s.resetView c a.sid) := by
  have H : s.Held c s := hctx ▸ C.laid.held
  have huctx : ((u.partAt p).res i).ctx = c := by rw [← hu, (s.takeReset_commits p i c a k).res i, hctx]
  have hother : ∀ z ∈ ((s.partAt p).res i).atAnchor, z ≠ a → z.sid ≠ a.sid := fun z hz hne he =>
    hne (List.inj_on_of_nodup_map C.nodup hz ha he)
  have hone : State.resetIf p i c (s, s.startView c) a = (u, s.resetView c a.sid) := by
    have hcond : (s.active c a.sid && !(s.startView c).resets.contains a.sid && goodReset (s.consumed c a.sid a).2) = true := by
      rw [hact, (H.goodReset rfl (C.small a ha) hact (.refl ..)).mpr hgood]
      rfl
    refine (if_pos hcond).trans ?_
    rw [(State.consumed_of_run (fun _ => rfl) hrun).1, hu]
    rfl
  have hresets : s.commitResets p i (s.startView c) = (u, s.resetView c a.sid) := by
    rw [s.commitResets_eq_foldl, C.resets, filter_contains_nil, hctx]
    refine (foldl_eq_one (x := a) (List.Nodup.of_map _ C.nodup) ha (fun z hz hne => ?_) fun z hz hne => ?_).trans hone
    · exact H.resetIf_steady rfl _ (C.small z hz) fun hz' => ⟨.refl .., hctx ▸ h z hz (hother z hz hne) (by rw [hctx]; exact hz')⟩
    · show State.resetIf p i c (State.resetIf p i c (s, s.startView c) a) z = State.resetIf p i c (s, s.startView c) a
      rw [hone]
      refine (H.does hd fun _ => State.RingsOf.loose).resetIf_steady hecc _ (C.small z hz) fun hz' => ?_
      have hr := hd.sameRing (C.small z hz) fun f _ hf => hother z hz hne hf.1
      exact ⟨hr, hctx ▸ h z hz (hother z hz hne) (by rw [hctx, ← hr.active]; exact hz')⟩
  have hspeaks : u.commitSpeaks p i (s.resetView c a.sid) (s.endsBefore c) = u := by
    refine u.commitSpeaks_silent p i _ _ hspeak fun z hz _ hnot => ?_
    rw [huctx]
    exact hd.fields z (State.mem_actives.mp hz).1 stE (by decide) fun hf => hnot (List.mem_singleton.mpr hf.1)
  unfold State.commitHead
  dsimp only
  rw [hstage, sortBy_nil, hctx]
  have hcancels : s.commitCancels p i (s.startView c) [] = s := rfl
  rw [hcancels, hresets]
  dsimp only
  rw [u.commitForks_none p i _ (fun x hx => absurd hx List.not_mem_nil)]
  show (u.commitSpeaks p i _ _, _) = _
  rw [hspeaks]

/-- A good RESET resets its stream (R38). -/
theorem State.Committing.reset (C : s.Committing p i) {a : AnchorStream} (h : s.Steady p i a.sid)
    (hctx : ((s.partAt p).res i).ctx = c) (hstage : (s.partAt p).stage = []) (hspeak : (s.partAt p).speak = [])
    (ha : a ∈ ((s.partAt p).res i).atAnchor) (hact : s.active c a.sid = true) {k : Nat} (hrun : s.Run c a k true) (hgood : s.Resets c a)
    (hw : (s.ctxWord c 0).testBit 0 = false) (hkids : s.Childless c a.sid) :
    (s.Alone p i a.sid (s.committed p i) ∧ (s.committed p i).st c a.sid stState = 1 ∧ (s.committed p i).st c a.sid stN = 0 ∧
      (s.committed p i).st c a.sid stRp = (a.rp + k + 1) % 2 ^ 32 ∧
      (s.committed p i).st c a.sid stLate = min 0xFFFF (s.st c a.sid stLate + k) ∧
      (s.committed p i).st c a.sid stQ = s.st c a.sid stQ ∧
      (∀ e, s.EndIs c a.sid e → (s.committed p i).st c a.sid stE = s.st c a.sid stQ % 2 ^ 32) ∧
      ((s.committed p i).partAt p).reclaiming = (s.partAt p).reclaiming ++ [(c, a.sid)] ∧
      ((s.committed p i).partAt p).zeroing = (s.partAt p).zeroing ++ [(c, a.sid)] ∧
      (((s.committed p i).partAt p).res i).resets = [a.sid]) ∧
    s.Closing p i (s.committed p i) := by
  have H : s.Held c s := hctx ▸ C.laid.held
  have hs := C.small a ha
  obtain ⟨d, hecc, ⟨rN, rRp, rLate, rE⟩, hsp, hrec, hzero, hres⟩ :=
    H.takeReset_spec hctx a k hs (State.live_of_active hact) hspeak C.resets hkids hw
  have hhead := fun u (hu : s.takeReset p i c a k = u) => C.head_reset (u := u) h hctx hstage ha hact hrun hgood hu
  replace hhead := hhead _ rfl d hecc hsp
  generalize s.takeReset p i c a k = u at d hecc rN rRp rLate rE hsp hrec hzero hres hhead
  subst hctx
  have hchild := s.startView_child ((s.partAt p).res i).ctx
  have hh : s.Heads p i (· = a.sid) (resetFields a.sid) u (s.resetView _ a.sid) := ⟨hhead, d, s.startView_sound _⟩
  have hkeep : ∀ f ∈ stFields, (s.committed p i).st ((s.partAt p).res i).ctx a.sid f =
      u.st ((s.partAt p).res i).ctx a.sid f := fun f hf => by
    refine hh.st_eq C hs hf ?_
    rintro (hmv | hmv)
    · have hmoves := hmv.2.1
      have hin : (s.resetView ((s.partAt p).res i).ctx a.sid).resets.contains a.sid = true := List.contains_iff_mem.mpr (List.mem_singleton_self _)
      unfold CommitView.moves at hmoves
      rw [hin, Bool.not_true, Bool.and_false, Bool.false_and] at hmoves
      exact Bool.false_ne_true hmoves
    · exact hchild a.sid hmv.1
  refine ⟨⟨hh.alone_all C (fun z hz _ => ⟨hchild z, fun hm => hz (List.mem_singleton.mp hm)⟩) (fun _ hz _ => hz) (fun _ _ hz _ hf => hz hf.1),
    ?_, ?_, ?_, ?_, ?_, fun e he => ?_, hh.keeps.reclaiming.trans hrec, hh.keeps.zeroing.trans hzero, hh.keeps.resets.trans hres⟩, hh.closing C⟩
  · rw [hkeep stState (by decide), d.fields a.sid hs stState (by decide) fun hf => absurd hf.2 (by decide)]
    exact (s.active_iff _ _).mp hact
  · rw [hkeep stN (by decide), rN]
  · rw [hkeep stRp (by decide), rRp]
  · rw [hkeep stLate (by decide), rLate]
  · rw [hkeep stQ (by decide), d.fields a.sid hs stQ (by decide) fun hf => absurd hf.2 (by decide)]
  · rw [hkeep stE (by decide), rE e he]

end

end Sys2Proof.Machine

namespace Sys2Proof.Machine

/-! ## Entries written into a speaking ring (R29) -/

section
variable {s t u : State} {p i c sid : Nat}

/-- Address of the place of a position in a ring that begins at a. -/
def slotOf (a n : Nat) : Nat := a + 64 * (n % 16)

theorem slotOf_disjoint {a m n : Nat} (h : m % 16 ≠ n % 16) : slotOf a m + 64 ≤ slotOf a n ∨ slotOf a n + 64 ≤ slotOf a m := by
  unfold slotOf
  omega

theorem slotOf_in (a n : Nat) : a ≤ slotOf a n ∧ slotOf a n + 64 ≤ a + 1024 := by
  unfold slotOf
  omega

/-- Published positions of the step's own entries. -/
def State.publishedBy (s : State) (p : Nat) : List (Nat × Nat) := (s.partAt p).step.published

/-- What an entry's writing does. -/
theorem State.Held.putEntry_spec (H : s.Held c t) (hs : sid < 512) (hl : s.Live c sid) (pos : Nat) {bs : List Byte} (hbs : bs.length = 64) :
    s.Does c (s.RingsOf c (· = sid)) (fun _ _ => False) t (t.putEntry p c sid pos bs) ∧
      Mem.bytes (t.putEntry p c sid pos bs).mem (slotOf (s.st c sid stSpk) pos) 64 = bs ∧
      (∀ m, m % 16 ≠ pos % 16 → Mem.bytes (t.putEntry p c sid pos bs).mem (slotOf (s.st c sid stSpk) m) 64 =
        Mem.bytes t.mem (slotOf (s.st c sid stSpk) m) 64) ∧
      (t.putEntry p c sid pos bs).publishedBy p = (sid, pos) :: t.publishedBy p := by
  have hat : t.speakAt c sid pos = slotOf (s.st c sid stSpk) pos := by
    unfold State.speakAt slotOf
    rw [H.spk hs]
  have hin := slotOf_in (s.st c sid stSpk) pos
  have d1 := H.putDev_does (A := s.RingsOf c (· = sid)) (W := fun _ _ => False) (a := slotOf (s.st c sid stSpk) pos) hs hl bs
    (fun x h1 h2 => .inl ⟨by dsimp only [State.ringOf]; omega, by dsimp only [State.ringOf]; omega⟩) fun x hx => ⟨sid, hs, hl, rfl, hx⟩
  have hmem := t.putDev_mem (slotOf (s.st c sid stSpk) pos) bs
  have hpart := (t.putDev_stores (slotOf (s.st c sid stSpk) pos) bs).partAt p
  unfold State.putEntry State.publishedBy
  dsimp only
  rw [hat]
  generalize t.putDev (slotOf (s.st c sid stSpk) pos) bs = x at d1 hmem hpart ⊢
  have hpart2 := (x.unretract_stores c sid pos).partAt p
  have d2 : s.Does c (s.RingsOf c (· = sid)) (fun _ _ => False) x (x.unretract c sid pos) := .of_mem rfl rfl
  have hmem2 : (x.unretract c sid pos).mem = x.mem := rfl
  generalize x.unretract c sid pos = y at hpart2 d2 hmem2 ⊢
  have hy := y.onPart_fields p fun q => { q with step := { q.step with published := (sid, pos) :: q.step.published } }
  obtain ⟨hmem3, hbase3, -, -, -⟩ := hy
  have hpart3 := y.partAt_onPart_same p fun q => { q with step := { q.step with published := (sid, pos) :: q.step.published } }
  generalize y.onPart p _ = z at hmem3 hbase3 hpart3 ⊢
  have hz : z.mem = Mem.put t.mem (slotOf (s.st c sid stSpk) pos) bs := by rw [hmem3, hmem2, hmem]
  refine ⟨(d1.trans d2).trans (.of_mem hbase3 hmem3), ?_, fun m hm => ?_, ?_⟩
  · have hput := Mem.bytes_put_same t.mem (slotOf (s.st c sid stSpk) pos) bs
    rw [hbs] at hput
    rw [hz, hput]
  · rw [hz]
    refine (Mem.put_same ?_).bytes_eq
    rw [hbs]
    exact (slotOf_disjoint hm).symm
  · rw [hpart3, hpart2, hpart]

/-- A publish word leaves the places of its ring alone. -/
theorem State.Held.publishWord_slot (H : s.Held c t) (hs : sid < 512) (hl : s.Live c sid) (e n : Nat) :
    Mem.bytes (t.publishWord c sid e).mem (slotOf (s.st c sid stSpk) n) 64 = Mem.bytes t.mem (slotOf (s.st c sid stSpk) n) 64 := by
  have hin := slotOf_in (s.st c sid stSpk) n
  unfold State.publishWord
  generalize (t.st c sid stG + 1) % 2 ^ 32 = g
  dsimp only
  have h1 := H.setSt_does (A := fun _ => False) (W := fun _ _ => True) hs (f := stE) (by decide) e trivial
  have H1 := H.does h1 fun _ => False.elim
  generalize t.setSt c sid stE e = t1 at h1 H1 ⊢
  have h2 := H1.setSt_does (A := fun _ => False) (W := fun _ _ => True) hs (f := stG) (by decide) g trivial
  have H2 := H1.does h2 fun _ => False.elim
  generalize t1.setSt c sid stG g = t2 at h2 H2 ⊢
  rw [H2.spk hs]
  have hring := ((h1.trans h2).toStays.same_ring H.laid hs hl fun _ _ => id).1.mono (b := slotOf (s.st c sid stSpk) n) (k := 64) hin.1 (by omega)
  exact (hring.trans (Mem.putNat_same (.inr (by omega)))).bytes_eq

/-- A publish word leaves the played record alone. -/
theorem State.Held.publishWord_play (H : s.Held c t) (hs : sid < 512) (hl : s.Live c sid) (e : Nat) :
    Mem.Same t.mem (t.publishWord c sid e).mem (s.st c sid stPlay) 1024 := by
  unfold State.publishWord
  generalize (t.st c sid stG + 1) % 2 ^ 32 = g
  dsimp only
  have h1 := H.setSt_does (A := fun _ => False) (W := fun _ _ => True) hs (f := stE) (by decide) e trivial
  have H1 := H.does h1 fun _ => False.elim
  generalize t.setSt c sid stE e = t1 at h1 H1 ⊢
  have h2 := H1.setSt_does (A := fun _ => False) (W := fun _ _ => True) hs (f := stG) (by decide) g trivial
  have H2 := H1.does h2 fun _ => False.elim
  generalize t1.setSt c sid stG g = t2 at h2 H2 ⊢
  rw [H2.spk hs]
  have hap := H.laid.ring_play hs hl
  refine ((h1.trans h2).toStays.same_ring H.laid hs hl fun _ _ => id).2.trans (Mem.putNat_same ?_)
  rcases hap with h | h <;> dsimp only [State.ringOf, State.playOf] at h <;> omega

/-- Fill entries at the positions of a list, in order. -/
def State.fillRun (t : State) (p c sid lag frame : Nat) (l : List Nat) : State :=
  l.foldl (fun s n => s.putEntry p c sid n (s.fillEntry c n (2 ^ flFill) lag frame)) t

/-- What the filling of a gap does: each place of the run holds its fill entry, every other what it held. -/
theorem State.Held.fillRun_spec (H : s.Held c t) (hs : sid < 512) (hl : s.Live c sid) (lag frame : Nat) (l : List Nat)
    (hn : (l.map (· % 16)).Nodup) :
    s.Does c (s.RingsOf c (· = sid)) (fun _ _ => False) t (t.fillRun p c sid lag frame l) ∧
      (∀ n ∈ l, s.FillIs c (Mem.bytes (t.fillRun p c sid lag frame l).mem (slotOf (s.st c sid stSpk) n) 64) n 8 lag frame) ∧
      (∀ m, (∀ n ∈ l, m % 16 ≠ n % 16) → Mem.bytes (t.fillRun p c sid lag frame l).mem (slotOf (s.st c sid stSpk) m) 64 =
        Mem.bytes t.mem (slotOf (s.st c sid stSpk) m) 64) ∧
      (t.publishedBy p).length ≤ ((t.fillRun p c sid lag frame l).publishedBy p).length := by
  induction l generalizing t with
  | nil =>
    have hnil : t.fillRun p c sid lag frame [] = t := rfl
    rw [hnil]
    exact ⟨.refl .., fun n hn => absurd hn List.not_mem_nil, fun _ _ => rfl, Nat.le_refl _⟩
  | cons a l ih =>
    rw [List.map_cons, List.nodup_cons] at hn
    obtain ⟨hna, hn⟩ := hn
    have hfill := H.fillIs a (2 ^ flFill) lag frame (by decide)
    obtain ⟨d, hat, hother, hpub⟩ := H.putEntry_spec (p := p) hs hl a hfill.1
    have hstep : t.fillRun p c sid lag frame (a :: l) =
        (t.putEntry p c sid a (t.fillEntry c a (2 ^ flFill) lag frame)).fillRun p c sid lag frame l := by
      unfold State.fillRun
      rw [List.foldl_cons]
    rw [hstep]
    generalize t.fillEntry c a (2 ^ flFill) lag frame = bs at hfill d hat hother hpub ⊢
    generalize t.putEntry p c sid a bs = x at d hat hother hpub ⊢
    obtain ⟨d', hin, hout, hlen⟩ := ih (H.does d fun _ => State.RingsOf.loose) hn
    refine ⟨d.trans d', fun n hm => ?_, fun m hm => ?_, ?_⟩
    · by_cases hnl : n ∈ l
      · exact hin n hnl
      · have hnea : n = a := (List.mem_cons.mp hm).resolve_right hnl
        rw [hnea, hout a fun k hk he => hna (List.mem_map.mpr ⟨k, hk, he.symm⟩), hat]
        exact hfill
    · rw [hout m fun n hn => hm n (List.mem_cons_of_mem _ hn), hother m (hm a List.mem_cons_self)]
    · rw [hpub, List.length_cons] at hlen
      omega

end

end Sys2Proof.Machine

namespace Sys2Proof.Machine

/-! ## A commit with one staged entry (R28, R29) -/

section
variable {s t u : State} {p i c sid : Nat}

/-- A staged entry whose position stands for pos near Q. -/
structure SpeakEntry.At (x : SpeakEntry) (sid q pos : Nat) : Prop where
  clean : x.poison = false
  size : x.bytes.length = 64
  stream : leField x.bytes 8 2 = sid
  position : leField x.bytes 0 4 = pos % 2 ^ 32
  below : pos < q + 2 ^ 31
  above : q < pos + 2 ^ 31

theorem SpeakEntry.At.nearest {x : SpeakEntry} {q pos : Nat} (h : x.At sid q pos) : nearest (entryPos x.bytes) q = pos := by
  have hp : entryPos x.bytes = pos % 2 ^ 32 := h.position
  rw [hp, nearest_of_near h.above h.below]

/-- An entry outside the window is discarded and counted (R29). -/
theorem State.publish_dropped (s : State) (p c lag : Nat) {x : SpeakEntry} {pos : Nat} (hx : x.At sid (s.st c sid stQ) pos)
    (h : pos < s.st c sid stQ ∨ s.st c sid stQ + 8 < pos) : s.publish p c lag x = s.count c sid stSpkdrop 1 := by
  have hsid : entryNat x.bytes 8 2 = sid := hx.stream
  unfold State.publish
  dsimp only
  rw [hsid, hx.nearest]
  exact if_pos (.inr (by omega))

/-- The flags that a publication takes of a staged entry. -/
def SpeakEntry.flags (x : SpeakEntry) : Nat := if (leField x.bytes 4 2).testBit 2 then 4 else 0

/-- An entry of the window, after the fill entries before it. -/
def State.putStaged (s : State) (p c sid lag e pos : Nat) (x : SpeakEntry) : State :=
  (s.fillRun p c sid lag (s.partAt p).frame (range e (pos - e))).putEntry p c sid pos
    (makeEntry pos x.flags (leField x.bytes 6 1) lag (s.partAt p).frame (x.bytes.drop 16))

/-- An entry of the window is published (R29). -/
theorem State.publish_stored (s : State) (p c lag : Nat) {x : SpeakEntry} {e pos : Nat} (hx : x.At sid (s.st c sid stQ) pos)
    (he : s.EndIs c sid e) (h1 : s.st c sid stQ ≤ pos) (h2 : pos ≤ s.st c sid stQ + 8) :
    s.publish p c lag x =
      if e ≤ pos then (s.putStaged p c sid lag e pos x).setSt c sid stE (pos + 1) else s.putStaged p c sid lag e pos x := by
  have hsid : entryNat x.bytes 8 2 = sid := hx.stream
  have hcond : ¬(x.poison = true ∨ (pos : Int) < (s.st c sid stQ : Int) ∨ (s.st c sid stQ : Int) + 8 < (pos : Int)) := by
    rw [hx.clean]
    rintro (h | h | h)
    · exact Bool.false_ne_true h
    · omega
    · omega
  unfold State.publish State.putStaged State.fillRun
  dsimp only
  rw [hsid, hx.nearest, if_neg hcond, Int.toNat_natCast, he.endPos]
  rfl

/-- The positions of a gap take different places. -/
theorem gap_places {e k : Nat} (hk : k ≤ 16) : ((range e k).map (· % 16)).Nodup :=
  List.Nodup.map_on (fun a ha b hb hab => by
    have h1 := mem_range.mp ha
    have h2 := mem_range.mp hb
    omega) (range_nodup e k)

/-- The speaking ring after a publication (R29). -/
theorem State.Held.putStaged_spec (H : s.Held c s) (hs : sid < 512) (hl : s.Live c sid) (lag : Nat) {x : SpeakEntry} {e pos : Nat}
    (hx : x.At sid (s.st c sid stQ) pos) (he : s.EndIs c sid e) (h2 : pos ≤ s.st c sid stQ + 8) :
    s.Does c (s.RingsOf c (· = sid)) (fun _ _ => False) s (s.putStaged p c sid lag e pos x) ∧
      EntryIs (Mem.bytes (s.putStaged p c sid lag e pos x).mem (slotOf (s.st c sid stSpk) pos) 64) pos x.flags (leField x.bytes 6 1) lag
        (s.partAt p).frame (x.bytes.drop 16) ∧
      (∀ n, e ≤ n → n < pos → s.FillIs c (Mem.bytes (s.putStaged p c sid lag e pos x).mem (slotOf (s.st c sid stSpk) n) 64) n 8 lag
        (s.partAt p).frame) ∧
      (s.st c sid stQ ≤ pos → ∀ n, s.st c sid stQ ≤ n → n < e → n ≠ pos →
        Mem.bytes (s.putStaged p c sid lag e pos x).mem (slotOf (s.st c sid stSpk) n) 64 =
        Mem.bytes s.mem (slotOf (s.st c sid stSpk) n) 64) ∧
      (s.publishedBy p).length < ((s.putStaged p c sid lag e pos x).publishedBy p).length ∧
      (sid, pos) ∈ (s.putStaged p c sid lag e pos x).publishedBy p := by
  obtain ⟨-, hQ, hE9⟩ := he
  generalize hq : s.st c sid stQ = q at hQ hE9 h2 ⊢
  have hentry := entryIs_makeEntry pos x.flags (leField x.bytes 6 1) lag (s.partAt p).frame (x.bytes.drop 16)
    (by unfold SpeakEntry.flags; split <;> decide) (by rw [List.length_drop, hx.size]; omega)
  unfold State.putStaged
  generalize (s.partAt p).frame = frame at hentry ⊢
  generalize makeEntry pos x.flags (leField x.bytes 6 1) lag frame (x.bytes.drop 16) = bs at hentry ⊢
  obtain ⟨d1, hin, hout, hlen⟩ := H.fillRun_spec (p := p) hs hl lag frame (range e (pos - e)) (gap_places (by omega))
  generalize s.fillRun p c sid lag frame (range e (pos - e)) = y at d1 hin hout hlen ⊢
  obtain ⟨d2, hat, hother, hpub⟩ := (H.does d1 fun _ => State.RingsOf.loose).putEntry_spec (p := p) hs hl pos hentry.1
  generalize y.putEntry p c sid pos bs = z at d2 hat hother hpub ⊢
  refine ⟨d1.trans d2, by rw [hat]; exact hentry, fun n hn1 hn2 => ?_, fun hqp n hn1 hn2 hne => ?_, ?_, ?_⟩
  · rw [hother n (by omega)]
    exact hin n (mem_range.mpr ⟨hn1, by omega⟩)
  · rw [hother n (by omega), hout n fun m hm => ?_]
    have hm' := mem_range.mp hm
    omega
  · rw [hpub, List.length_cons]
    omega
  · rw [hpub]
    exact List.mem_cons_self

/-! ### Step 5 of such a commit -/

/-- One staged entry, of an active stream: step 5 acts on that stream alone. -/
theorem State.commitSpeaks_entry (hctx : ((s.partAt p).res i).ctx = c) {x : SpeakEntry}
    (hspeak : (s.partAt p).speak = [x]) (hx : leField x.bytes 8 2 = sid) (hs : sid < 512) (hact : s.active c sid = true)
    (hu : s.speakFor p c ((s.partAt p).res i).lag [x] (s.st c sid stE) sid = u)
    {W : Nat → Nat × Nat → Prop} {A : Nat → Prop} (hd : s.Does c A W s u) (hW : ∀ z, z ≠ sid → ¬W z stE) :
    s.commitSpeaks p i (s.startView c) (s.endsBefore c) = u := by
  have hmem : sid ∈ s.actives c := State.mem_actives.mpr ⟨hs, hact⟩
  rw [s.commitSpeaks_eq p i _ _ (entries := [x]) (by rw [hspeak]; rfl) fun y hy => by
    rw [List.mem_singleton.mp hy, hx]; exact hmem, hctx]
  have hmine : ∀ z, ([x].filter fun y => leField y.bytes 8 2 = z) = if sid = z then [x] else [] := fun z => by
    by_cases hz : sid = z
    · rw [if_pos hz, List.filter_cons_of_pos (by rw [hx]; exact decide_eq_true hz), List.filter_nil]
    · rw [if_neg hz, List.filter_cons_of_neg (by rw [hx]; exact fun h => hz (of_decide_eq_true h)), List.filter_nil]
  simp only [hmine]
  refine (foldl_eq_one (x := sid) (List.Nodup.filter _ (s.actives_nodup c)) ?_ (fun z hz hzs => ?_) fun z hz hzs => ?_).trans ?_
  · refine List.mem_filter.mpr ⟨hmem, ?_⟩
    rw [hact]
    rfl
  · rw [if_neg fun h => hzs h.symm]
    exact (State.speakFor_nil ..).trans (if_pos rfl)
  · rw [if_pos rfl, if_neg fun h : sid = z => hzs h.symm]
    have hz' := State.mem_actives.mp (List.mem_of_mem_filter hz)
    refine (State.speakFor_nil ..).trans (if_pos ?_)
    show State.st (s.speakFor p c _ [x] (s.st c sid stE) sid) c z stE = s.st c z stE
    rw [hu, hd.fields z hz'.1 stE (by decide) (hW z hzs)]
  · rw [if_pos rfl]
    exact hu

end

end Sys2Proof.Machine

namespace Sys2Proof.Machine

section
variable {s u : State} {p i c sid : Nat}

/-- The first five steps of a commit with one staged entry of an active stream. -/
theorem State.Committing.head_speak (C : s.Committing p i) (h : s.Steady p i 512) (hctx : ((s.partAt p).res i).ctx = c)
    (hstage : (s.partAt p).stage = []) (hu : s.commitSpeaks p i (s.startView c) (s.endsBefore c) = u) :
    s.commitHead p i = (u, s.startView c) := by
  rw [C.head_steady h (ops := []) (by rw [hstage]; rfl) rfl, hctx, s.commitForks_none p i _ fun x hx => absurd hx List.not_mem_nil]
  show (s.commitSpeaks p i _ _, _) = _
  rw [hu]

/-- An entry outside the window is discarded and counted at the commit (R29). -/
theorem State.Committing.speak_dropped (C : s.Committing p i) (h : s.Steady p i 512) (hctx : ((s.partAt p).res i).ctx = c)
    (hstage : (s.partAt p).stage = []) {x : SpeakEntry} (hspeak : (s.partAt p).speak = [x]) (hs : sid < 512)
    (hact : s.active c sid = true) {pos : Nat} (hx : x.At sid (s.st c sid stQ) pos)
    (hout : pos < s.st c sid stQ ∨ s.st c sid stQ + 8 < pos) :
    (s.Alone p i sid (s.committed p i) ∧ s.MovesOn p i sid (s.committed p i) ∧
      s.Quiet (s.committed p i) c sid ∧ (s.committed p i).st c sid stSpkdrop = min 0xFFFF (s.st c sid stSpkdrop + 1)) ∧
    s.Closing p i (s.committed p i) := by
  have H : s.Held c s := hctx ▸ C.laid.held
  have hl := State.live_of_active hact
  have d := H.count_does (A := fun _ => False) (W := fun z f => z = sid ∧ f = stSpkdrop) hs (f := stSpkdrop) (by decide) 1 ⟨rfl, rfl⟩
  have r := H.st_count hs (f := stSpkdrop) (by decide) rfl 1
  have n := s.count_notes c sid stSpkdrop 1
  have hfor : ∀ lag, s.speakFor p c lag [x] (s.st c sid stE) sid = s.count c sid stSpkdrop 1 := fun lag => by
    unfold State.speakFor
    rw [List.foldl_cons, List.foldl_nil, s.publish_dropped p c lag hx hout]
    dsimp only
    rw [n.partAt p, d.fields sid hs stE (by decide) fun hf => absurd hf.2 (by decide)]
    exact if_neg fun hc => hc.elim (fun hne => hne rfl) (Nat.lt_irrefl _)
  have hhead := C.head_speak h hctx hstage (State.commitSpeaks_entry hctx hspeak hx.stream hs hact (hfor _) d fun z hz hf => hz hf.1)
  generalize s.count c sid stSpkdrop 1 = u at d r hhead
  subst hctx
  have hchild := s.startView_child ((s.partAt p).res i).ctx
  have hh : s.Heads p i (fun _ => False) (fun z f => z = sid ∧ f = stSpkdrop) u (s.startView _) :=
    ⟨hhead, d.mono (fun _ => False.elim) fun _ _ => id, s.startView_sound _⟩
  refine ⟨⟨hh.alone_all C (fun z _ _ => ⟨hchild z, List.not_mem_nil⟩) (fun _ _ _ => id) (fun _ _ hz _ hf => hz hf.1), fun a ha has => ?_,
    hh.quiet C hs hl (hchild sid) id fun f hf hw => (by decide : ∀ f ∈ [stQ, stE, stG], f ≠ stSpkdrop) f hf hw.2, ?_⟩, hh.closing C⟩
  · subst has
    exact hh.moved C a ha hact (hchild _) rfl fun f hf hw =>
      (by decide : ∀ f ∈ [stState, stLring, stLlog, stLate, stStarved], f ≠ stSpkdrop) f hf hw.2
  · rw [hh.st_eq C hs (by decide) (CommitView.not_writes (hchild sid) (by decide)), r]

/-- The publication of an entry of the window, with its publish word (R29). -/
theorem State.Held.speakFor_stored (H : s.Held c s) (hs : sid < 512) (hl : s.Live c sid) (lag : Nat) {x : SpeakEntry} {e pos : Nat}
    (hx : x.At sid (s.st c sid stQ) pos) (he : s.EndIs c sid e) (h1 : s.st c sid stQ ≤ pos) (h2 : pos ≤ s.st c sid stQ + 8) :
    s.Does c (s.RingsOf c (· = sid)) (shownFields sid) s (s.speakFor p c lag [x] (s.st c sid stE) sid) ∧
      s.Shown (s.speakFor p c lag [x] (s.st c sid stE) sid) c sid (max e (pos + 1)) ∧
      (sid, pos) ∈ (s.speakFor p c lag [x] (s.st c sid stE) sid).publishedBy p ∧
      ∀ n, Mem.bytes (s.speakFor p c lag [x] (s.st c sid stE) sid).mem (slotOf (s.st c sid stSpk) n) 64 =
        Mem.bytes (s.putStaged p c sid lag e pos x).mem (slotOf (s.st c sid stSpk) n) 64 := by
  obtain ⟨d1, -, -, -, hlen, hmem⟩ := H.putStaged_spec (p := p) hs hl lag hx he h2
  have hpub := s.publish_stored p c lag hx he h1 h2
  generalize s.putStaged p c sid lag e pos x = y at d1 hlen hmem hpub ⊢
  have H1 := H.does d1 fun _ => State.RingsOf.loose
  -- E moves past the entry
  have hy : ∃ z, s.publish p c lag x = z ∧ s.Does c (fun _ => False) (shownFields sid) y z ∧ y.Notes z ∧
      z.st c sid stE = max e (pos + 1) % 2 ^ 32 ∧ z.st c sid stG = s.st c sid stG := by
    by_cases hep : e ≤ pos
    · rw [if_pos hep] at hpub
      have hset := fun f' hf' => H1.st_setSt (sid' := sid) hs (f := stE) (f' := f') (by decide) hf' (pos + 1)
      refine ⟨_, hpub, H1.setSt_does hs (by decide) _ ⟨rfl, .inl rfl⟩, y.setSt_notes .., ?_, ?_⟩
      · rw [hset stE (by decide), if_pos ⟨rfl, rfl⟩, Nat.max_eq_right (by omega)]
        rfl
      · rw [hset stG (by decide), if_neg fun hf => absurd hf.2 (by decide), d1.fields sid hs stG (by decide) id]
    · rw [if_neg hep] at hpub
      refine ⟨y, hpub, .refl .., .refl y, ?_, d1.fields sid hs stG (by decide) id⟩
      rw [d1.fields sid hs stE (by decide) id, he.1, Nat.max_eq_left (by omega)]
  obtain ⟨z, hz, d2, n2, rE, rG⟩ := hy
  have H2 := H1.does d2 fun _ => False.elim
  have hstep : s.speakFor p c lag [x] (s.st c sid stE) sid = z.publishWord c sid (z.st c sid stE) := by
    unfold State.speakFor
    rw [List.foldl_cons, List.foldl_nil, hz]
    refine if_pos (.inr ?_)
    rw [n2.partAt p]
    exact hlen
  rw [hstep]
  obtain ⟨sE, sG, sword⟩ := H2.st_publishWord hs hl (z.st c sid stE)
  have d3 := H2.publish_does hs hl (z.st c sid stE)
  have n3 := n2.trans (z.publishWord_notes c sid (z.st c sid stE))
  have hslot := fun n => H2.publishWord_slot hs hl (z.st c sid stE) n
  have hslot2 := fun n => ((d2.toStays.same_ring H.laid hs hl fun _ _ => id).1.mono (slotOf_in _ n).1
    ((slotOf_in _ n).2.trans (by omega))).bytes_eq
  generalize z.publishWord c sid (z.st c sid stE) = u at sE sG sword d3 n3 hslot ⊢
  rw [rE, Nat.mod_mod] at sE sword
  rw [rG] at sG sword
  refine ⟨((d1.mono (fun _ => id) fun _ _ => False.elim).trans (d2.mono (fun _ => False.elim) fun _ _ => id)).trans d3, ⟨sE, sG, sword⟩, ?_, fun n =>
    (hslot n).trans (hslot2 n)⟩
  unfold State.publishedBy
  rw [n3.partAt p]
  exact hmem

/-- The places of a ring at a commit's end are those after its head. -/
theorem State.Heads.slot {v : CommitView} {Z : Nat → Prop} {W : Nat → Nat × Nat → Prop} (h : s.Heads p i Z W u v) (C : s.Committing p i)
    (hs : sid < 512) (hl : s.Live ((s.partAt p).res i).ctx sid) (hv : ¬v.child sid) (n : Nat) :
    Mem.bytes (s.committed p i).mem (slotOf (s.st ((s.partAt p).res i).ctx sid stSpk) n) 64 =
      Mem.bytes u.mem (slotOf (s.st ((s.partAt p).res i).ctx sid stSpk) n) 64 :=
  ((h.ring_after C hs hl hv).mono (slotOf_in _ n).1 ((slotOf_in _ n).2.trans (by omega))).bytes_eq

/-- An entry of the window is published at the commit, after fill entries for the gap before it, or replaces another (R29). -/
theorem State.Committing.speak_stored (C : s.Committing p i) (h : s.Steady p i 512) (hctx : ((s.partAt p).res i).ctx = c)
    (hstage : (s.partAt p).stage = []) {x : SpeakEntry} (hspeak : (s.partAt p).speak = [x]) (hs : sid < 512)
    (hact : s.active c sid = true) {e pos : Nat} (hx : x.At sid (s.st c sid stQ) pos) (he : s.EndIs c sid e)
    (h1 : s.st c sid stQ ≤ pos) (h2 : pos ≤ s.st c sid stQ + 8) :
    (s.Alone p i sid (s.committed p i) ∧ s.MovesOn p i sid (s.committed p i) ∧
      (s.committed p i).st c sid stQ = s.st c sid stQ ∧
      s.Shown (s.committed p i) c sid (max e (pos + 1)) ∧ (sid, pos) ∈ ((s.committed p i).partAt p).step.published ∧
      EntryIs (Mem.bytes (s.committed p i).mem (slotOf (s.st c sid stSpk) pos) 64) pos x.flags (leField x.bytes 6 1)
        ((s.partAt p).res i).lag (s.partAt p).frame (x.bytes.drop 16) ∧
      (∀ n, e ≤ n → n < pos → s.FillIs c (Mem.bytes (s.committed p i).mem (slotOf (s.st c sid stSpk) n) 64) n 8
        ((s.partAt p).res i).lag (s.partAt p).frame) ∧
      ∀ n, s.st c sid stQ ≤ n → n < e → n ≠ pos → Mem.bytes (s.committed p i).mem (slotOf (s.st c sid stSpk) n) 64 =
        Mem.bytes s.mem (slotOf (s.st c sid stSpk) n) 64) ∧
    s.Closing p i (s.committed p i) := by
  have H : s.Held c s := hctx ▸ C.laid.held
  have hl := State.live_of_active hact
  obtain ⟨d, hshown, hpub, hslot⟩ := H.speakFor_stored (p := p) hs hl ((s.partAt p).res i).lag hx he h1 h2
  obtain ⟨-, hentry, hfill, hkeep, -, -⟩ := H.putStaged_spec (p := p) hs hl ((s.partAt p).res i).lag hx he h2
  have hhead := C.head_speak h hctx hstage (State.commitSpeaks_entry hctx hspeak hx.stream hs hact rfl d fun z hz hf => hz hf.1)
  generalize s.speakFor p c ((s.partAt p).res i).lag [x] (s.st c sid stE) sid = u at d hshown hpub hslot hhead
  generalize s.putStaged p c sid ((s.partAt p).res i).lag e pos x = y at hslot hentry hfill hkeep
  subst hctx
  have hchild := s.startView_child ((s.partAt p).res i).ctx
  have hh : s.Heads p i (· = sid) (shownFields sid) u (s.startView _) := ⟨hhead, d, s.startView_sound _⟩
  have hat := fun n => (hh.slot C hs hl (hchild sid) n).trans (hslot n)
  refine ⟨⟨hh.alone_all C (fun z _ _ => ⟨hchild z, List.not_mem_nil⟩) (fun _ hz _ => hz) (fun _ _ hz _ hf => hz hf.1), fun a ha has => ?_,
    hh.field_eq C hs (by decide) (hchild sid) fun hw => absurd hw.2 (by decide), hh.shown C hs hl (hchild sid) hshown, ?_, ?_,
    fun n hn1 hn2 => ?_, fun n hn1 hn2 hne => ?_⟩, hh.closing C⟩
  · subst has
    exact hh.moved C a ha hact (hchild _) rfl fun f hf hw =>
      (by decide : ∀ f ∈ [stState, stLring, stLlog, stLate, stStarved], ¬(f = stE ∨ f = stG)) f hf hw.2
  · rw [hh.keeps.published]
    exact hpub
  · rw [hat]
    exact hentry
  · rw [hat]
    exact hfill n hn1 hn2
  · rw [hat]
    exact hkeep h1 n hn1 hn2 hne

end

end Sys2Proof.Machine

namespace Sys2Proof.Machine

/-! ## One stream's release (R30, R36, R306) -/

section
variable {s t u : State} {p i c sid : Nat}

/-- From t to u the release of stream sid stands: its fields, its ring and record, and what is noted of it. -/
structure State.Leaves (s : State) (c sid : Nat) (t u : State) : Prop where
  does : s.Does c (s.RingsOf c (· ≠ sid)) (fun z _ => z ≠ sid) t u
  skipped : (c, sid) ∈ u.skipped ↔ (c, sid) ∈ t.skipped
  retracted : ∀ n, (c, sid, n) ∈ u.retracted ↔ (c, sid, n) ∈ t.retracted
  out : t.out <+: u.out

theorem State.Leaves.refl (s : State) (c sid : Nat) (t : State) : s.Leaves c sid t t := ⟨.refl .., .rfl, fun _ => .rfl, List.prefix_refl _⟩

theorem State.Leaves.trans {v : State} (h : s.Leaves c sid t u) (k : s.Leaves c sid u v) : s.Leaves c sid t v :=
  ⟨h.does.trans k.does, k.skipped.trans h.skipped, fun n => (k.retracted n).trans (h.retracted n), h.out.trans k.out⟩

theorem State.Leaves.held (h : s.Leaves c sid t u) (H : s.Held c t) : s.Held c u := H.does h.does fun _ => State.RingsOf.loose

/-- An operation that leaves memory and the notes alone. -/
theorem State.Leaves.of_mem (hb : u.ctxbase = t.ctxbase) (hm : u.mem = t.mem) (hs : u.skipped = t.skipped)
    (hr : u.retracted = t.retracted) (ho : t.out <+: u.out) : s.Leaves c sid t u :=
  ⟨.of_mem hb hm, by rw [hs], fun _ => by rw [hr], ho⟩

/-- An operation that notes nothing, and writes neither fields nor rings. -/
theorem State.Leaves.of_notes (h : t.Notes u) (d : s.Does c (fun _ => False) (fun _ _ => False) t u) : s.Leaves c sid t u :=
  ⟨d.mono (fun _ => False.elim) fun _ _ => False.elim, by rw [h.skipped], fun _ => by rw [h.retracted], h.out⟩

/-- The rings of an id under what leaves its release alone. -/
theorem State.Leaves.same_ring (h : s.Leaves c sid t u) (L : s.Laid c) (hs : sid < 512) (hl : s.Live c sid) :
    Mem.Same t.mem u.mem (s.st c sid stSpk) 1032 ∧ Mem.Same t.mem u.mem (s.st c sid stPlay) 1024 :=
  h.does.toStays.same_ring L hs hl fun _ hx => L.ringsOf_not_ring hs hl (fun hne => hne rfl) hx

theorem State.Leaves.st_eq (h : s.Leaves c sid t u) (hs : sid < 512) {f : Nat × Nat} (hf : f ∈ stFields) :
    u.st c sid f = t.st c sid f := h.does.fields sid hs f hf fun hne => hne rfl

/-! ### SKIPPED -/

/-- What the taking of the SKIPPED flag does. -/
theorem State.takeSkipped_spec (t : State) (c sid : Nat) :
    ((t.takeSkipped c sid).2 = if (c, sid) ∈ t.skipped then 128 else 0) ∧ (c, sid) ∉ (t.takeSkipped c sid).1.skipped ∧
      (∀ z, z ≠ sid → ((c, z) ∈ (t.takeSkipped c sid).1.skipped ↔ (c, z) ∈ t.skipped)) ∧
      (t.takeSkipped c sid).1.mem = t.mem ∧ (t.takeSkipped c sid).1.retracted = t.retracted := by
  unfold State.takeSkipped
  by_cases h : (c, sid) ∈ t.skipped
  · rw [if_pos (List.contains_iff_mem.mpr h), if_pos h]
    refine ⟨rfl, fun hm => ?_, fun z hz => ?_, rfl, rfl⟩
    · exact of_decide_eq_true (List.mem_filter.mp hm).2 rfl
    · refine ⟨fun hm => (List.mem_filter.mp hm).1, fun hm => List.mem_filter.mpr ⟨hm, decide_eq_true fun he => hz ?_⟩⟩
      exact (Prod.mk.inj he).2
  · rw [if_neg fun hc => h (List.contains_iff_mem.mp hc), if_neg h]
    exact ⟨rfl, h, fun _ _ => .rfl, rfl, rfl⟩

/-! ### The played record -/

theorem State.play_fields (t : State) (c sid q : Nat) (bs : List Byte) :
    (t.play c sid q bs).mem = Mem.put t.mem (slotOf (t.st c sid stPlay) q) bs ∧ (t.play c sid q bs).ctxbase = t.ctxbase ∧
      (t.play c sid q bs).skipped = t.skipped ∧ (t.play c sid q bs).retracted = t.retracted := ⟨rfl, rfl, rfl, rfl⟩

/-- A released entry stands in the played record, and leaves the ring alone. -/
theorem State.Held.play_spec (H : s.Held c t) (hs : sid < 512) (hl : s.Live c sid) (q : Nat) {bs : List Byte} (hbs : bs.length = 64) :
    s.Does c (s.RingsOf c (· = sid)) (fun _ _ => False) t (t.play c sid q bs) ∧
      Mem.bytes (t.play c sid q bs).mem (slotOf (s.st c sid stPlay) q) 64 = bs ∧
      Mem.Same t.mem (t.play c sid q bs).mem (s.st c sid stSpk) 1032 := by
  obtain ⟨hm, hb, -, -⟩ := t.play_fields c sid q bs
  rw [H.play hs] at hm
  generalize t.play c sid q bs = u at hm hb ⊢
  have hin := slotOf_in (s.st c sid stPlay) q
  refine ⟨?_, ?_, ?_⟩
  · exact H.ring_does (a := slotOf (s.st c sid stPlay) q) (n := bs.length) hs hl (fun _ hx => Mem.byte_put_outside _ hx) hb hm
      (fun x h1 h2 => .inr ⟨by dsimp only [State.playOf]; omega, by dsimp only [State.playOf]; omega⟩) fun x hx => ⟨sid, hs, hl, rfl, hx⟩
  · have hput := Mem.bytes_put_same t.mem (slotOf (s.st c sid stPlay) q) bs
    rw [hbs] at hput
    rw [hm, hput]
  · rw [hm]
    have hap := H.laid.ring_play hs hl
    refine Mem.put_same ?_
    rcases hap with h | h <;> dsimp only [State.ringOf, State.playOf] at h <;> omega

/-! ### The move of Q -/

/-- The fields that a release writes of its stream. -/
def releaseFields (sid z : Nat) (f : Nat × Nat) : Prop := z = sid ∧ f ∈ [stQ, stE, stG]

/-- Q moves on past the released entry, and E with it where there was none. -/
def State.advance (t : State) (c sid q : Nat) (valid : Bool) : State :=
  let u := (t.setSt c sid stQ (q + 1)).unretract c sid q
  if valid then u else u.publishWord c sid (q + 1)

theorem State.unretract_fields (t : State) (c sid q : Nat) :
    (t.unretract c sid q).mem = t.mem ∧ (t.unretract c sid q).ctxbase = t.ctxbase ∧ (t.unretract c sid q).skipped = t.skipped ∧
      (c, sid, q) ∉ (t.unretract c sid q).retracted ∧
      ∀ z n, z ≠ sid → ((c, z, n) ∈ (t.unretract c sid q).retracted ↔ (c, z, n) ∈ t.retracted) := by
  refine ⟨rfl, rfl, rfl, fun hm => of_decide_eq_true (List.mem_filter.mp hm).2 rfl, fun z n hz => ?_⟩
  refine ⟨fun hm => (List.mem_filter.mp hm).1, fun hm => List.mem_filter.mpr ⟨hm, decide_eq_true fun he => hz ?_⟩⟩
  exact (Prod.mk.inj (Prod.mk.inj he).2).1

/-- What the move of Q does (R30). -/
theorem State.Held.advance_spec (H : s.Held c t) (hs : sid < 512) (hl : s.Live c sid) (q : Nat) (valid : Bool) :
    s.Does c (s.RingsOf c (· = sid)) (releaseFields sid) t (t.advance c sid q valid) ∧
      (t.advance c sid q valid).st c sid stQ = (q + 1) % 2 ^ 64 ∧
      (valid = true → (t.advance c sid q valid).st c sid stE = t.st c sid stE ∧ (t.advance c sid q valid).st c sid stG = t.st c sid stG) ∧
      (valid = false → (t.advance c sid q valid).st c sid stE = (q + 1) % 2 ^ 32 ∧
        (t.advance c sid q valid).st c sid stG = (t.st c sid stG + 1) % 2 ^ 32 ∧
        Mem.nat (t.advance c sid q valid).mem (s.st c sid stSpk + 1024) 8 = (t.st c sid stG + 1) % 2 ^ 32 * 2 ^ 32 + (q + 1) % 2 ^ 32) ∧
      Mem.Same t.mem (t.advance c sid q valid).mem (s.st c sid stPlay) 1024 ∧
      ((t.advance c sid q valid).skipped = t.skipped ∧ (c, sid, q) ∉ (t.advance c sid q valid).retracted ∧
        ∀ z n, z ≠ sid → ((c, z, n) ∈ (t.advance c sid q valid).retracted ↔ (c, z, n) ∈ t.retracted)) := by
  -- Q
  have d1 := H.setSt_does (A := fun _ => False) (W := releaseFields sid) hs (f := stQ) (by decide) (q + 1) ⟨rfl, by decide⟩
  have r1 := fun f hf => H.st_setSt (sid' := sid) hs (f := stQ) (f' := f) (by decide) hf (q + 1)
  have n1 := t.setSt_notes c sid stQ (q + 1)
  unfold State.advance
  dsimp only
  generalize t.setSt c sid stQ (q + 1) = x at d1 r1 n1 ⊢
  have H1 := H.does d1 fun _ => False.elim
  -- the retracted mark
  obtain ⟨hm, hb, hskip, hret, hother⟩ := x.unretract_fields c sid q
  rw [n1.retracted] at hother
  rw [n1.skipped] at hskip
  generalize x.unretract c sid q = y at hm hb hskip hret hother ⊢
  have d2 : s.Does c (fun _ => False) (releaseFields sid) x y := .of_mem hb hm
  have H2 := H1.does d2 fun _ => False.elim
  have r2 := State.st_of_mem hb hm c sid
  have rQ : y.st c sid stQ = (q + 1) % 2 ^ 64 := by
    rw [r2, r1 stQ (by decide), if_pos ⟨rfl, rfl⟩]
    rfl
  have rk : ∀ f ∈ [stE, stG], y.st c sid f = t.st c sid f := fun f hf => by
    have hf' := (by decide : ∀ f ∈ [stE, stG], f ∈ stFields ∧ f ≠ stQ) f hf
    rw [r2, r1 f hf'.1, if_neg fun h => hf'.2 h.2]
  have d12 := d1.trans d2
  have hplay := (d12.toStays.same_ring H.laid hs hl fun _ _ => id).2
  have hwide : s.Does c (s.RingsOf c (· = sid)) (releaseFields sid) t y := d12.mono (fun _ => False.elim) fun _ _ => id
  cases valid with
  | true => exact ⟨hwide, rQ, fun _ => ⟨rk stE (by decide), rk stG (by decide)⟩, fun h => absurd h.symm Bool.false_ne_true, hplay, hskip, hret, hother⟩
  | false =>
    rw [if_neg Bool.false_ne_true]
    obtain ⟨sE, sG, sword⟩ := H2.st_publishWord hs hl (q + 1)
    rw [rk stG (by decide)] at sG sword
    have d3 := H2.publish_does hs hl (q + 1)
    have hplay3 := H2.publishWord_play hs hl (q + 1)
    have n3 := y.publishWord_notes c sid (q + 1)
    generalize y.publishWord c sid (q + 1) = z at sE sG sword d3 hplay3 n3 ⊢
    refine ⟨hwide.trans (d3.mono (fun _ => id) fun z f h => ⟨h.1, by rcases h.2 with h | h <;> rw [h] <;> decide⟩), ?_,
      fun h => absurd h Bool.false_ne_true, fun _ => ⟨sE, sG, sword⟩, hplay.trans hplay3, n3.skipped.trans hskip, by rw [n3.retracted]; exact hret, by
        rw [n3.retracted]; exact hother⟩
    rw [d3.fields sid hs stQ (by decide) fun h => absurd h.2 (by decide), rQ]

end

end Sys2Proof.Machine

namespace Sys2Proof.Machine

section
variable {s t u : State} {p i c sid : Nat}

/-! ## What a stream releases (R30) -/

/-- The entry that a stream releases, by the table of R30. -/
def State.releasedBytes (t : State) (c sid : Nat) (r : Resident) (frame skip : Nat) (committed : Bool) (st : Step) : List Byte :=
  let q := t.st c sid stQ
  let x := releaseFlags r.state committed (decide (q < t.endPos c sid)) (st.published.contains (sid, q)) (t.retracted.contains (c, sid, q))
  if x.2 = true then
    reflag (Mem.bytes t.mem (t.speakAt c sid q) 64) (entryFlags (Mem.bytes t.mem (t.speakAt c sid q) 64) ||| (x.1 + skip))
  else t.fillEntry c q (x.1 + skip) r.lag frame

/-- The release of a stream that waits for no reset. -/
def State.releasePlain (t : State) (c sid : Nat) (r : Resident) (frame skip : Nat) (committed : Bool) (st : Step) : State :=
  (t.play c sid (t.st c sid stQ) (t.releasedBytes c sid r frame skip committed st)).advance c sid (t.st c sid stQ)
    (decide (t.st c sid stQ < t.endPos c sid))

/-- The release of a stream that is reset (R38). -/
def State.releaseReset (t : State) (c sid : Nat) (r : Resident) (frame skip : Nat) : State :=
  t.play c sid (t.st c sid stQ) (t.fillEntry c (t.st c sid stQ) (2 ^ flFill + 2 ^ flReset + skip) r.lag frame)

theorem State.releaseOne_eq (t : State) (p i sid : Nat) (committed : Bool) (st : Step) :
    t.releaseOne p i sid committed st =
      let r := (t.partAt p).res i
      let x := t.takeSkipped r.ctx sid
      if r.resets.contains sid = true then x.1.releaseReset r.ctx sid r (t.partAt p).frame x.2
      else x.1.releasePlain r.ctx sid r (t.partAt p).frame x.2 committed st := by
  unfold State.releaseOne State.releaseReset State.releasePlain State.releasedBytes State.advance
  generalize State.fillEntry = fillEntry
  generalize State.play = play
  generalize State.endPos = endPos
  generalize State.publishWord = publishWord
  generalize reflag = reflag
  dsimp only

/-- What a state has of a stream that is still to be released: its fields and its ring as in s, with SKIPPED taken. -/
structure State.Awaits (s : State) (c sid : Nat) (t : State) : Prop where
  held : s.Held c t
  fields : ∀ f ∈ [stQ, stE, stG, stState], t.st c sid f = s.st c sid f
  ring : Mem.Same s.mem t.mem (s.st c sid stSpk) 1032
  retracted : ∀ n, (c, sid, n) ∈ t.retracted ↔ (c, sid, n) ∈ s.retracted

theorem State.Awaits.endIs (h : s.Awaits c sid t) {e : Nat} (he : s.EndIs c sid e) : t.EndIs c sid e :=
  he.of_same ⟨h.fields stE (by decide), h.fields stQ (by decide)⟩

theorem State.Awaits.speakAt (h : s.Awaits c sid t) (hs : sid < 512) (n : Nat) : t.speakAt c sid n = slotOf (s.st c sid stSpk) n := by
  unfold State.speakAt slotOf
  rw [h.held.spk hs]

theorem State.Awaits.old (h : s.Awaits c sid t) (n : Nat) :
    Mem.bytes t.mem (slotOf (s.st c sid stSpk) n) 64 = Mem.bytes s.mem (slotOf (s.st c sid stSpk) n) 64 :=
  (h.ring.mono (slotOf_in _ n).1 ((slotOf_in _ n).2.trans (by omega))).bytes_eq

/-- MISS and LOOKAHEAD of a release (R30). -/
def missFlag (committed : Bool) : Nat := if committed = true then 0 else 16
def aheadFlag (committed published : Bool) : Nat := if committed = true ∧ published = true then 0 else 32

theorem releaseFlags_parked (committed valid published retracted : Bool) :
    releaseFlags .parked committed valid published retracted = (8 + 256, false) := rfl

theorem releaseFlags_faulted (committed valid published retracted : Bool) :
    releaseFlags .faulted committed valid published retracted = (8, false) := rfl

theorem releaseFlags_running {x : CtxState} (hp : x ≠ .parked) (hf : x ≠ .faulted) (committed valid published retracted : Bool) :
    releaseFlags x committed valid published retracted =
      if valid = true then (aheadFlag committed published + missFlag committed, true)
      else (8 + (if retracted = true then 64 else 0) + missFlag committed, false) := by
  cases x with
  | parked => exact absurd rfl hp
  | faulted => exact absurd rfl hf
  | inactive => cases committed <;> cases published <;> rfl
  | active => cases committed <;> cases published <;> rfl

/-- The entry that R30's table names. -/
theorem State.Awaits.releasedBytes_spec (h : s.Awaits c sid t) (hs : sid < 512) (r : Resident) (frame : Nat) {skip : Nat} (hskip : skip ≤ 128)
    (committed : Bool) (st : Step) {e : Nat} (he : s.EndIs c sid e) :
    let Q := s.st c sid stQ
    let old := Mem.bytes s.mem (slotOf (s.st c sid stSpk) Q) 64
    let bs := t.releasedBytes c sid r frame skip committed st
    (r.state = .parked → s.FillIs c bs Q (8 + 256 + skip) r.lag frame) ∧
      (r.state = .faulted → s.FillIs c bs Q (8 + skip) r.lag frame) ∧
      (r.state ≠ .parked → r.state ≠ .faulted → e = Q →
        s.FillIs c bs Q (8 + (if (c, sid, Q) ∈ s.retracted then 64 else 0) + missFlag committed + skip) r.lag frame) ∧
      (r.state ≠ .parked → r.state ≠ .faulted → Q < e → EntryIs bs (leField old 0 4)
        (leField old 4 2 ||| (aheadFlag committed (st.published.contains (sid, Q)) + missFlag committed + skip)) (leField old 6 1)
        (leField old 7 1) (leField old 8 4) (old.drop 16)) := by
  intro Q old bs
  have hQ := h.fields stQ (by decide)
  have hend := (h.endIs he).endPos
  have hmiss : missFlag committed ≤ 16 := by unfold missFlag; split <;> decide
  have hahead : ∀ b, aheadFlag committed b ≤ 32 := fun b => by unfold aheadFlag; split <;> decide
  have hold : Mem.bytes t.mem (t.speakAt c sid Q) 64 = old := by rw [h.speakAt hs, h.old]
  have hbs : bs = if (releaseFlags r.state committed (decide (Q < e)) (st.published.contains (sid, Q)) (t.retracted.contains (c, sid, Q))).2 = true
      then reflag old (entryFlags old ||| ((releaseFlags r.state committed (decide (Q < e)) (st.published.contains (sid, Q))
        (t.retracted.contains (c, sid, Q))).1 + skip))
      else t.fillEntry c Q ((releaseFlags r.state committed (decide (Q < e)) (st.published.contains (sid, Q))
        (t.retracted.contains (c, sid, Q))).1 + skip) r.lag frame := by
    show t.releasedBytes c sid r frame skip committed st = _
    unfold State.releasedBytes
    rw [hQ, hend]
    dsimp only
    rw [hold]
  have holdlen : old.length = 64 := Mem.length_bytes ..
  generalize bs = bs at hbs ⊢
  generalize old = old at hbs holdlen ⊢
  have hQe : Q ≤ e := he.2.1
  refine ⟨fun hst => ?_, fun hst => ?_, fun hp hf heq => ?_, fun hp hf hlt => ?_⟩
  · rw [hst, releaseFlags_parked, if_neg Bool.false_ne_true] at hbs
    rw [hbs]
    exact h.held.fillIs _ _ _ _ (by dsimp only; omega)
  · rw [hst, releaseFlags_faulted, if_neg Bool.false_ne_true] at hbs
    rw [hbs]
    exact h.held.fillIs _ _ _ _ (by dsimp only; omega)
  · have hret : (if t.retracted.contains (c, sid, Q) = true then 64 else 0) = if (c, sid, Q) ∈ s.retracted then 64 else 0 :=
      if_congr (List.contains_iff_mem.trans (h.retracted Q)) rfl rfl
    rw [releaseFlags_running hp hf, decide_eq_false (by omega : ¬Q < e), if_neg Bool.false_ne_true, if_neg Bool.false_ne_true, hret] at hbs
    rw [hbs]
    refine h.held.fillIs _ _ _ _ ?_
    dsimp only
    split <;> omega
  · rw [releaseFlags_running hp hf, decide_eq_true hlt, if_pos rfl, if_pos rfl] at hbs
    rw [hbs]
    refine entryIs_reflag old _ holdlen ?_
    have := leField_lt old 4 2
    exact Nat.or_lt_two_pow this (lt_of_le_of_lt (Nat.add_le_add (Nat.add_le_add (hahead _) hmiss) hskip) (by decide))

theorem length_makeEntry (pos flags count lag frame : Nat) (codes : List Byte) : (makeEntry pos flags count lag frame codes).length = 64 := by
  rw [makeEntry_eq, List.length_append, List.length_append, length_entryHead, length_entryCodes, length_toLe]

/-- Every released entry has 64 bytes. -/
theorem State.length_releasedBytes (t : State) (c sid : Nat) (r : Resident) (frame skip : Nat) (committed : Bool) (st : Step) :
    (t.releasedBytes c sid r frame skip committed st).length = 64 := by
  unfold State.releasedBytes
  dsimp only
  split
  · exact length_makeEntry ..
  · exact length_makeEntry ..

end

end Sys2Proof.Machine

namespace Sys2Proof.Machine

section
variable {s t u : State} {p i c sid z : Nat}

/-! ## The releases of a slot, stream by stream (R30, R38, R306) -/

/-- An entry has gone out and stands in the played record, and SKIPPED is taken. -/
structure State.Played (s : State) (c sid q : Nat) (bs : List Byte) (u : State) : Prop where
  sent : OutMsg.release c sid bs ∈ u.out
  record : Mem.bytes u.mem (slotOf (s.st c sid stPlay) q) 64 = bs
  skipped : (c, sid) ∉ u.skipped

theorem State.Played.leaves {q : Nat} {bs : List Byte} (h : s.Played c sid q bs t) (k : s.Leaves c sid t u) (L : s.Laid c) (hs : sid < 512)
    (hl : s.Live c sid) : s.Played c sid q bs u :=
  ⟨k.out.subset h.sent,
    (((k.same_ring L hs hl).2.mono (slotOf_in _ q).1 (slotOf_in _ q).2).bytes_eq).trans h.record, fun hm => h.skipped (k.skipped.mp hm)⟩

theorem State.RingsOf.other {x : Nat} (hz : z ≠ sid) (h : s.RingsOf c (· = z) x) : s.RingsOf c (· ≠ sid) x := by
  obtain ⟨y, hy, hl, rfl, hin⟩ := h
  exact ⟨y, hy, hl, hz, hin⟩

/-- What acts on one stream leaves the others. -/
theorem State.Does.other {W : Nat → Nat × Nat → Prop} (hz : z ≠ sid) (h : s.Does c (s.RingsOf c (· = z)) W t u)
    (hW : ∀ y f, W y f → y = z) : s.Does c (s.RingsOf c (· ≠ sid)) (fun y _ => y ≠ sid) t u :=
  h.mono (fun _ => State.RingsOf.other hz) fun y f hf => hW y f hf ▸ hz

theorem State.takeSkipped_leaves (s t : State) (c : Nat) (hz : z ≠ sid) : s.Leaves c sid t (t.takeSkipped c z).1 := by
  obtain ⟨-, -, hskip, hm, hr⟩ := t.takeSkipped_spec c z
  have hn := t.takeSkipped_stores c z
  exact ⟨.of_mem hn.ctxbase hm, hskip sid (Ne.symm hz), fun _ => by rw [hr], hn.out⟩

theorem State.Held.play_leaves (H : s.Held c t) (hz : z ≠ sid) (hs : z < 512) (hl : s.Live c z) (q : Nat) {bs : List Byte} (hbs : bs.length = 64) :
    s.Leaves c sid t (t.play c z q bs) := by
  obtain ⟨d, -, -⟩ := H.play_spec hs hl q hbs
  obtain ⟨-, -, hskip, hret⟩ := t.play_fields c z q bs
  exact ⟨d.other hz fun _ _ => False.elim, by rw [hskip], fun _ => by rw [hret], (t.play_stores c z q bs).out⟩

theorem State.advance_stores (t : State) (c sid q : Nat) (valid : Bool) : t.Stores (t.advance c sid q valid) := by
  unfold State.advance
  dsimp only
  have h := (t.setSt_notes c sid stQ (q + 1)).toStores.trans (State.unretract_stores _ c sid q)
  generalize State.unretract _ c sid q = u at h ⊢
  split
  · exact h
  · exact h.trans (u.publishWord_notes ..).toStores

theorem State.Held.advance_leaves (H : s.Held c t) (hz : z ≠ sid) (hs : z < 512) (hl : s.Live c z) (q : Nat) (valid : Bool) :
    s.Leaves c sid t (t.advance c z q valid) := by
  obtain ⟨d, -, -, -, -, hskip, -, hret⟩ := H.advance_spec hs hl q valid
  exact ⟨d.other hz fun _ _ h => h.1, by rw [hskip], fun n => hret sid n (Ne.symm hz), (t.advance_stores c z q valid).out⟩

/-- The release of one stream leaves every other. -/
theorem State.Held.releaseOne_leaves (H : s.Held c t) (hctx : ((t.partAt p).res i).ctx = c) (hz : z ≠ sid) (hs : z < 512) (hl : s.Live c z)
    (committed : Bool) (st : Step) : s.Leaves c sid t (t.releaseOne p i z committed st) := by
  rw [t.releaseOne_eq]
  dsimp only
  rw [hctx]
  have h1 := s.takeSkipped_leaves t c hz
  generalize t.takeSkipped c z = x at h1 ⊢
  have H1 := h1.held H
  split
  · exact h1.trans (H1.play_leaves hz hs hl _ (length_makeEntry ..))
  · unfold State.releasePlain
    have hlen := x.1.length_releasedBytes c z ((t.partAt p).res i) (t.partAt p).frame x.2 committed st
    generalize x.1.releasedBytes c z _ _ x.2 committed st = bs at hlen ⊢
    have h2 := H1.play_leaves hz hs hl (x.1.st c z stQ) hlen
    have H2 := h2.held H1
    exact (h1.trans h2).trans (H2.advance_leaves hz hs hl _ _)

/-- A stream that was not released yet after the taking of its SKIPPED flag. -/
theorem State.Awaits.takeSkipped (h : s.Awaits c sid t) : s.Awaits c sid (t.takeSkipped c sid).1 := by
  obtain ⟨-, -, -, hm, hr⟩ := t.takeSkipped_spec c sid
  have hn := t.takeSkipped_stores c sid
  have hst := State.st_of_mem hn.ctxbase hm c sid
  exact ⟨h.held.next (W := fun _ _ => False) (.of_mem hn.ctxbase hm), fun f hf => (hst f).trans (h.fields f hf), by rw [hm]; exact h.ring,
    fun n => by rw [hr]; exact h.retracted n⟩

/-- What a stream that waits for no reset has after its release (R30). -/
theorem State.Awaits.releaseOne_plain (h : s.Awaits c sid t) (hctx : ((t.partAt p).res i).ctx = c) (hs : sid < 512) (hl : s.Live c sid)
    (hskip : (c, sid) ∈ t.skipped ↔ (c, sid) ∈ s.skipped) (hresets : ((t.partAt p).res i).resets = []) (committed : Bool) (st : Step) {e : Nat}
    (he : s.EndIs c sid e) :
    let Q := s.st c sid stQ
    let u := t.releaseOne p i sid committed st
    u.st c sid stQ = (Q + 1) % 2 ^ 64 ∧ (c, sid, Q) ∉ u.retracted ∧
      (Q < e → u.st c sid stE = s.st c sid stE ∧ u.st c sid stG = s.st c sid stG) ∧ (e = Q → s.Shown u c sid (Q + 1)) ∧
      ∃ x : State, s.Awaits c sid x ∧ s.Played c sid Q
        (x.releasedBytes c sid ((t.partAt p).res i) (t.partAt p).frame (if (c, sid) ∈ s.skipped then 128 else 0) committed st) u ∧ s.Held c u := by
  intro Q u
  have hu : u = (t.takeSkipped c sid).1.releasePlain c sid ((t.partAt p).res i) (t.partAt p).frame (t.takeSkipped c sid).2 committed st := by
    show t.releaseOne p i sid committed st = _
    rw [t.releaseOne_eq]
    dsimp only
    rw [hctx, hresets]
    exact if_neg Bool.false_ne_true
  have hx := h.takeSkipped
  obtain ⟨hflag, hnot, -, -, -⟩ := t.takeSkipped_spec c sid
  rw [if_congr hskip rfl rfl] at hflag
  rw [hflag] at hu
  generalize (t.takeSkipped c sid).1 = x at hu hx hnot
  generalize u = u at hu ⊢
  have hQ := hx.fields stQ (by decide)
  have hend := (hx.endIs he).endPos
  have hlen := x.length_releasedBytes c sid ((t.partAt p).res i) (t.partAt p).frame (if (c, sid) ∈ s.skipped then 128 else 0) committed st
  unfold State.releasePlain at hu
  rw [hQ, hend] at hu
  generalize hbs : x.releasedBytes c sid ((t.partAt p).res i) (t.partAt p).frame (if (c, sid) ∈ s.skipped then 128 else 0) committed st = bs at hu hlen
  obtain ⟨d1, hrec, -⟩ := hx.held.play_spec hs hl Q hlen
  obtain ⟨-, -, hskip1, -⟩ := x.play_fields c sid Q bs
  have hsent := x.mem_out_play c sid Q bs
  generalize x.play c sid Q bs = y at hu d1 hrec hskip1 hsent
  have H1 := hx.held.does d1 fun _ => State.RingsOf.loose
  obtain ⟨d2, rQ, rvalid, rnone, hplay, hskip2, hret, -⟩ := H1.advance_spec hs hl Q (decide (Q < e))
  have hout := (y.advance_stores c sid Q (decide (Q < e))).out
  rw [← hu] at d2 rQ rvalid rnone hplay hskip2 hret hout
  have hk := fun f (hf : f ∈ [stQ, stE, stG, stState]) =>
    (d1.fields sid hs f ((by decide : ∀ f ∈ [stQ, stE, stG, stState], f ∈ stFields) f hf) id).trans (hx.fields f hf)
  refine ⟨rQ, hret, fun hlt => ?_, fun heq => ?_, x, hx, ⟨hout.subset (hbs ▸ hsent), ?_, by rw [hskip2, hskip1]; exact hnot⟩,
    H1.does d2 fun _ => State.RingsOf.loose⟩
  · obtain ⟨sE, sG⟩ := rvalid (decide_eq_true hlt)
    exact ⟨sE.trans (hk stE (by decide)), sG.trans (hk stG (by decide))⟩
  · obtain ⟨sE, sG, sword⟩ := rnone (decide_eq_false (by omega))
    rw [hk stG (by decide)] at sG sword
    exact ⟨sE, sG, sword⟩
  · rw [hbs, ← hrec]
    exact (hplay.mono (slotOf_in _ Q).1 (slotOf_in _ Q).2).bytes_eq

/-- What a stream that is reset has after its release (R38). -/
theorem State.Awaits.releaseOne_reset (h : s.Awaits c sid t) (hctx : ((t.partAt p).res i).ctx = c) (hs : sid < 512) (hl : s.Live c sid)
    (hskip : (c, sid) ∈ t.skipped ↔ (c, sid) ∈ s.skipped) (hresets : ((t.partAt p).res i).resets = [sid]) (committed : Bool) (st : Step) :
    let Q := s.st c sid stQ
    let u := t.releaseOne p i sid committed st
    u.st c sid stG = s.st c sid stG ∧ u.st c sid stState = s.st c sid stState ∧ s.Held c u ∧
      ∃ bs, s.FillIs c bs Q (8 + 2 + if (c, sid) ∈ s.skipped then 128 else 0) ((t.partAt p).res i).lag (t.partAt p).frame ∧ s.Played c sid Q bs u := by
  intro Q u
  have hu : u = (t.takeSkipped c sid).1.releaseReset c sid ((t.partAt p).res i) (t.partAt p).frame (t.takeSkipped c sid).2 := by
    show t.releaseOne p i sid committed st = _
    rw [t.releaseOne_eq]
    dsimp only
    rw [hctx, hresets]
    exact if_pos (List.contains_iff_mem.mpr (List.mem_singleton_self _))
  have hx := h.takeSkipped
  obtain ⟨hflag, hnot, -, -, -⟩ := t.takeSkipped_spec c sid
  rw [if_congr hskip rfl rfl] at hflag
  rw [hflag] at hu
  generalize (t.takeSkipped c sid).1 = x at hu hx hnot
  generalize u = u at hu ⊢
  have hQ := hx.fields stQ (by decide)
  have hfill := hx.held.fillIs Q (2 ^ flFill + 2 ^ flReset + if (c, sid) ∈ s.skipped then 128 else 0) ((t.partAt p).res i).lag (t.partAt p).frame
    (by split <;> decide)
  unfold State.releaseReset at hu
  rw [hQ] at hu
  generalize x.fillEntry c Q _ _ _ = bs at hu hfill
  obtain ⟨d1, hrec, -⟩ := hx.held.play_spec hs hl Q hfill.1
  obtain ⟨-, -, hskip1, -⟩ := x.play_fields c sid Q bs
  have hsent := x.mem_out_play c sid Q bs
  rw [← hu] at d1 hrec hskip1 hsent
  refine ⟨(d1.fields sid hs stG (by decide) id).trans (hx.fields stG (by decide)),
    (d1.fields sid hs stState (by decide) id).trans (hx.fields stState (by decide)), hx.held.does d1 fun _ => State.RingsOf.loose, bs, hfill, hsent, hrec, ?_⟩
  rw [hskip1]
  exact hnot

end

end Sys2Proof.Machine

namespace Sys2Proof.Machine

section
variable {s t u : State} {p i c sid : Nat}

/-! ## All the releases of a slot, and what comes after them -/

theorem State.Held.releaseAll_leaves (H : s.Held c t) (hctx : ((t.partAt p).res i).ctx = c) (committed : Bool) (st : Step) (l : List Nat)
    (hl : ∀ z ∈ l, z ≠ sid ∧ z < 512 ∧ s.Live c z) : s.Leaves c sid t (t.releaseAll p i committed st l) := by
  induction l generalizing t with
  | nil => exact .refl ..
  | cons z l ih =>
    obtain ⟨hz, hs, hlz⟩ := hl z List.mem_cons_self
    have h1 := H.releaseOne_leaves hctx hz hs hlz committed st
    have hpart := (t.releaseOne_stores p i z committed st).partAt p
    have hcons : t.releaseAll p i committed st (z :: l) = (t.releaseOne p i z committed st).releaseAll p i committed st l :=
      List.foldl_cons ..
    rw [hcons]
    generalize t.releaseOne p i z committed st = x at h1 hpart ⊢
    exact h1.trans (ih (h1.held H) (by rw [hpart, hctx]) fun y hy => hl y (List.mem_cons_of_mem _ hy))

/-- A stream's release among those of its slot. -/
theorem State.Held.ownerPlayed_around (H : s.Held c s) (hctx : ((s.partAt p).res i).ctx = c) (hs : sid < 512) (hact : s.active c sid = true) :
    ∃ x : State, s.Leaves c sid s x ∧ x.partAt p = { s.partAt p with released := true } ∧
      s.Leaves c sid (x.releaseOne p i sid (decide ((s.partAt p).ended i = .committed)) (s.partAt p).judged) (s.ownerPlayed p i) ∧
      s.Held c (x.releaseOne p i sid (decide ((s.partAt p).ended i = .committed)) (s.partAt p).judged) := by
  unfold State.ownerPlayed
  dsimp only
  generalize decide ((s.partAt p).ended i = .committed) = committed
  generalize (s.partAt p).judged = st
  rw [hctx]
  obtain ⟨l1, l2, hsplit⟩ := List.append_of_mem (State.mem_actives.mpr ⟨hs, hact⟩)
  have hnodup := s.actives_nodup c
  have hlive : ∀ z ∈ s.actives c, z < 512 ∧ s.Live c z := fun z hz =>
    ⟨(State.mem_actives.mp hz).1, State.live_of_active (State.mem_actives.mp hz).2⟩
  rw [hsplit] at hnodup hlive ⊢
  rw [List.nodup_append, List.nodup_cons] at hnodup
  obtain ⟨-, ⟨hn2, -⟩, hdis⟩ := hnodup
  have h0 : s.Leaves c sid s (s.marked p) := .of_mem rfl rfl rfl rfl (List.prefix_refl _)
  have hpart0 := s.marked_part p
  generalize s.marked p = t0 at h0 hpart0 ⊢
  have hctx0 : ((t0.partAt p).res i).ctx = c := by rw [hpart0]; exact hctx
  have h1 := (h0.held H).releaseAll_leaves (sid := sid) hctx0 committed st l1 fun z hz =>
    ⟨hdis z hz sid List.mem_cons_self, hlive z (List.mem_append_left _ hz)⟩
  have hpart1 := (t0.releaseAll_stores p i committed st l1).partAt p
  have happ : t0.releaseAll p i committed st (l1 ++ sid :: l2) =
      ((t0.releaseAll p i committed st l1).releaseOne p i sid committed st).releaseAll p i committed st l2 := by
    unfold State.releaseAll
    rw [List.foldl_append, List.foldl_cons]
  rw [happ]
  generalize t0.releaseAll p i committed st l1 = x at h1 hpart1 ⊢
  have hx := h0.trans h1
  have hxpart : x.partAt p = { s.partAt p with released := true } := hpart1.trans hpart0
  have Hx := hx.held H
  have Hone : s.Held c (x.releaseOne p i sid committed st) :=
    ((Hx.releaseOne_leaves (p := p) (i := i) (z := sid) (sid := sid + 1) (by rw [hxpart]; exact hctx) (Nat.ne_of_lt (Nat.lt_succ_self _)) hs
      (State.live_of_active hact) committed st).held Hx)
  have hpart2 := (x.releaseOne_stores p i sid committed st).partAt p
  refine ⟨x, hx, hxpart, ?_, Hone⟩
  generalize x.releaseOne p i sid committed st = y at hpart2 Hone ⊢
  exact Hone.releaseAll_leaves (by rw [hpart2, hxpart]; exact hctx) committed st l2 fun z hz =>
    ⟨fun he => hn2 (he ▸ hz), hlive z (List.mem_append_right _ (List.mem_cons_of_mem _ hz))⟩

/-! ### The miss, the faults and the withdrawn requests -/

theorem State.onRes_leaves (t : State) (p j : Nat) (f : Resident → Resident) : s.Leaves c sid t (t.onRes p j f) :=
  .of_mem rfl rfl rfl rfl (List.prefix_refl _)

theorem State.Held.setDesc_leaves (H : s.Held c t) {off n : Nat} (v : Nat) (ho : off + n ≤ 8 ∨ 60 ≤ off ∧ off + n ≤ 64) :
    s.Leaves c sid t (t.setDesc c off n v) := .of_notes (t.setDesc_notes c off n v) (H.setDesc_does v ho)

theorem State.Held.event_leaves (H : s.Held c t) (p : Nat) (e : Event) (x : Nat) (pos detail : Option Nat) :
    s.Leaves c sid t (t.event p c e x pos detail) := .of_notes (t.event_notes ..) (H.event_does p e x pos detail)

theorem State.Held.setState_leaves (H : s.Held c t) (hctx : ((t.partAt p).res i).ctx = c) (x : CtxState) :
    s.Leaves c sid t (t.setState p i x) := by
  unfold State.setState
  dsimp only
  rw [hctx]
  have h := State.onRes_leaves (s := s) (c := c) (sid := sid) t p i fun r => { r with state := x }
  exact h.trans ((h.held H).setDesc_leaves _ (.inl (by decide)))

theorem State.Held.setLag_leaves (H : s.Held c t) (hctx : ((t.partAt p).res i).ctx = c) (n : Nat) :
    s.Leaves c sid t (t.setLag p i n) := by
  unfold State.setLag
  dsimp only
  rw [hctx]
  have h := State.onRes_leaves (s := s) (c := c) (sid := sid) t p i fun r => { r with lag := n }
  exact h.trans ((h.held H).setDesc_leaves _ (.inl (by decide)))

theorem State.Held.missed_leaves (H : s.Held c t) (hctx : ((t.partAt p).res i).ctx = c) (faulted : Bool) :
    s.Leaves c sid t (t.missed p i faulted) := by
  rw [t.missed_eq]
  have h1 := H.setLag_leaves (sid := sid) hctx (min 8 (((t.partAt p).res i).lag + 1))
  have hres := t.res_setLag p i i (min 8 (((t.partAt p).res i).lag + 1))
  rw [if_pos rfl] at hres
  generalize t.setLag p i _ = x at h1 hres ⊢
  have hctx1 : ((x.partAt p).res i).ctx = c := by rw [hres]; exact hctx
  split
  · have h2 := (h1.held H).setState_leaves (sid := sid) hctx1 .parked
    have hres2 := x.res_setState p i i .parked
    rw [if_pos rfl] at hres2
    dsimp only
    generalize x.setState p i .parked = y at h2 hres2 ⊢
    rw [hres2]
    dsimp only
    rw [hctx1]
    exact (h1.trans h2).trans ((h2.held (h1.held H)).event_leaves p _ _ _ _)
  · exact h1

theorem State.Held.faultRes_leaves (H : s.Held c t) (hctx : ((t.partAt p).res i).ctx = c) : s.Leaves c sid t (t.faultRes p i) := by
  unfold State.faultRes
  dsimp only
  rw [hctx]
  have h := H.setState_leaves (sid := sid) hctx .faulted
  exact h.trans ((h.held H).event_leaves p _ _ _ _)

theorem State.Sends.leaves (h : t.Sends u) : s.Leaves c sid t u := by
  obtain ⟨hr, -, hm, hb⟩ := h.keeps
  refine .of_mem hb hm ?_ hr h.2.1
  rw [h.1]

/-- The partition's faults are cleared, and its service contexts may go quiet. -/
theorem State.clearFaults_leaves (t : State) (p : Nat) (v : SMap Service) :
    s.Leaves c sid t (State.onPart { t with svcs := v } p fun q => { q with fault := none, svcFault := false }) :=
  .of_mem rfl rfl rfl rfl (List.prefix_refl _)

theorem State.Held.settleFaults_leaves (H : s.Held c t) (hctx : ((t.partAt p).res i).ctx = c)
    (hf : (t.partAt p).toFault = [i] ∨ (t.partAt p).toFault = []) : s.Leaves c sid t (t.settleFaults p) := by
  rw [t.settleFaults_eq]
  have h1 : s.Leaves c sid t (t.faultAll p (t.partAt p).toFault) := by
    rcases hf with hf | hf
    · rw [hf]
      unfold State.faultAll
      rw [List.foldl_cons, List.foldl_nil]
      exact H.faultRes_leaves hctx
    · rw [hf]
      unfold State.faultAll
      rw [List.foldl_nil]
      exact .refl ..
  generalize t.faultAll p (t.partAt p).toFault = x at h1 ⊢
  obtain ⟨v, hv⟩ := x.quietFor_eq p 2
  rw [hv]
  exact h1.trans (State.clearFaults_leaves x p v)

theorem State.endPhase_leaves (t : State) (p : Nat) : s.Leaves c sid t (t.endPhase p) := .of_mem rfl rfl rfl rfl (List.prefix_refl _)

/-! ### The resets of a slot's end (R38) -/

theorem State.finishResets_none (t : State) (p j : Nat) (h : ((t.partAt p).res j).resets = []) : s.Leaves c sid t (t.finishResets p j) := by
  unfold State.finishResets
  dsimp only
  rw [h, List.filter_nil, List.foldl_nil]
  exact State.onRes_leaves t p j _

/-- Residents without resets leave every stream alone. -/
theorem State.finishAll_none (t : State) (p : Nat) (l : List Nat) (h : ∀ j ∈ l, ((t.partAt p).res j).resets = []) :
    s.Leaves c sid t (t.finishAll p l) := by
  induction l generalizing t with
  | nil => exact .refl ..
  | cons j l ih =>
    have h1 := State.finishResets_none (s := s) (c := c) (sid := sid) t p j (h j List.mem_cons_self)
    have hres := fun k => t.res_finishResets p j k
    have hcons : t.finishAll p (j :: l) = (t.finishResets p j).finishAll p l := List.foldl_cons ..
    rw [hcons]
    generalize t.finishResets p j = x at h1 hres ⊢
    refine h1.trans (ih x fun k hk => ?_)
    rw [hres]
    split
    · rfl
    · exact h k (List.mem_cons_of_mem _ hk)

end

end Sys2Proof.Machine

namespace Sys2Proof.Machine

section
variable {s t u : State} {p i c sid : Nat}

/-! ## From the releases to the slot's end -/

theorem State.resets_missed (t : State) (p i j : Nat) (faulted : Bool) :
    (((t.missed p i faulted).partAt p).res j).resets = ((t.partAt p).res j).resets := by
  have hlag := fun k n => t.res_setLag p i k n
  have hset : ∀ x : State, (∀ k, ((x.partAt p).res k).resets = ((t.partAt p).res k).resets) →
      ∀ k, (((x.setState p i .parked).partAt p).res k).resets = ((t.partAt p).res k).resets := fun x hx k => by
    rw [x.res_setState]
    split
    · next hk => rw [hk]; exact hx i
    · exact hx k
  have hafter : ∀ k n, (((t.setLag p i n).partAt p).res k).resets = ((t.partAt p).res k).resets := fun k n => by
    rw [hlag]
    split
    · next hk => rw [hk]
    · rfl
  rw [t.missed_eq]
  split
  · dsimp only
    rw [(State.event_notes ..).partAt]
    exact hset _ (fun k => hafter k _) j
  · exact hafter j _

/-- The slot's end up to its resets. -/
def State.faultsSettled (s : State) (p : Nat) : State := (s.released p).settleFaults p

theorem State.slotEnds_eq (h : (s.partAt p).skipped = false) :
    s.slotEnds p = ((s.faultsSettled p).finishAll p (s.partAt p).validIdx).endPhase p := s.slotEnds_of_not_skipped p h

/-- What the miss and the faults leave of the owner's streams and of the resets that wait. -/
theorem State.Held.faultsSettled_leaves (H : s.Held c (s.ownerPlayed p i)) (hctx : ((s.partAt p).res i).ctx = c) (ho : (s.partAt p).Owned i)
    (hr : slotReleases (s.partAt p).step (s.partAt p).slotBegun ((s.partAt p).res i) = true) (hsvc : (s.partAt p).svcFault = false) :
    s.Leaves c sid (s.ownerPlayed p i) (s.faultsSettled p) ∧
      ∀ j, (((s.faultsSettled p).partAt p).res j).resets = ((s.partAt p).res j).resets := by
  have hpart := s.ownerPlayed_part p i
  have hrel := s.released_of_owner p i ho hr
  have hfaults : ((s.released p).partAt p).toFault = (s.partAt p).toFault := by
    rw [s.released_part]; exact Partition.toFault_with ..
  have htofault := ho.toFault hsvc
  have hres := s.released_part p
  generalize s.ownerPlayed p i = x at H hpart hrel ⊢
  have hxctx : ((x.partAt p).res i).ctx = c := by rw [hpart]; exact hctx
  have hxresets : ∀ j, ((x.partAt p).res j).resets = ((s.partAt p).res j).resets := fun j => by rw [hpart]; rfl
  -- the miss
  have hmiss : ∃ y : State, s.released p = y.withdraws p (s.partAt p) ∧ s.Leaves c sid x y ∧ ((y.partAt p).res i).ctx = c ∧
      ∀ j, ((y.partAt p).res j).resets = ((s.partAt p).res j).resets := by
    split at hrel
    · refine ⟨_, hrel, H.missed_leaves hxctx _, ?_, fun j => (x.resets_missed p i j _).trans (hxresets j)⟩
      rw [x.res_missed]
      exact hxctx
    · exact ⟨x, hrel, .refl .., hxctx, hxresets⟩
  obtain ⟨y, hy, hleaves, hyctx, hyresets⟩ := hmiss
  have hsends := y.withdraws_sends p (s.partAt p)
  have hwpart := State.partAt_of_parts hsends.parts p
  have hwleaves := hsends.leaves (s := s) (c := c) (sid := sid)
  unfold State.faultsSettled
  rw [hy] at hfaults ⊢
  generalize y.withdraws p (s.partAt p) = w at hfaults hwpart hwleaves ⊢
  have hw := hleaves.trans hwleaves
  refine ⟨hw.trans ((hw.held H).settleFaults_leaves (by rw [hwpart]; exact hyctx) ?_), fun j => ?_⟩
  · rw [hfaults, htofault]
    split
    · exact .inl rfl
    · exact .inr rfl
  · rw [w.res_settleFaults, hwpart]
    exact hyresets j

/-- Where no reset waits, the rest of the slot's end leaves every stream of its owner. -/
theorem State.Held.slotEnds_leaves (H : s.Held c (s.ownerPlayed p i)) (hctx : ((s.partAt p).res i).ctx = c) (ho : (s.partAt p).Owned i)
    (hr : slotReleases (s.partAt p).step (s.partAt p).slotBegun ((s.partAt p).res i) = true) (hsvc : (s.partAt p).svcFault = false)
    (hskip : (s.partAt p).skipped = false) (hresets : ∀ j ∈ (s.partAt p).validIdx, ((s.partAt p).res j).resets = []) :
    s.Leaves c sid (s.ownerPlayed p i) (s.slotEnds p) := by
  obtain ⟨hleaves, hkeep⟩ := H.faultsSettled_leaves (sid := sid) hctx ho hr hsvc
  rw [State.slotEnds_eq hskip]
  generalize s.faultsSettled p = x at hleaves hkeep ⊢
  have h2 := x.finishAll_none (s := s) (c := c) (sid := sid) p (s.partAt p).validIdx fun j hj => (hkeep j).trans (hresets j hj)
  generalize x.finishAll p (s.partAt p).validIdx = y at h2 ⊢
  exact (hleaves.trans h2).trans (State.endPhase_leaves y p)

theorem State.Shown.leaves {e : Nat} (h : s.Shown t c sid e) (k : s.Leaves c sid t u) (L : s.Laid c) (hs : sid < 512) (hl : s.Live c sid) :
    s.Shown u c sid e := by
  obtain ⟨hE, hG, hword⟩ := h
  exact ⟨(k.st_eq hs (by decide)).trans hE, (k.st_eq hs (by decide)).trans hG,
    (((k.same_ring L hs hl).1.mono (Nat.le_add_right _ _) (by omega)).nat_eq).trans hword⟩

/-- What is left of a stream before its release is as it was. -/
theorem State.Leaves.awaits (h : s.Leaves c sid s t) (H : s.Held c s) (hs : sid < 512) (hl : s.Live c sid) : s.Awaits c sid t :=
  ⟨h.held H, fun f hf => h.st_eq hs ((by decide : ∀ f ∈ [stQ, stE, stG, stState], f ∈ stFields) f hf), (h.same_ring H.laid hs hl).1, h.retracted⟩

/-- A slot's end releases what R30's table names of each stream of its owner, and moves Q on. -/
theorem State.Held.release_plain (H : s.Held c s) (hctx : ((s.partAt p).res i).ctx = c) (ho : (s.partAt p).Owned i)
    (hr : slotReleases (s.partAt p).step (s.partAt p).slotBegun ((s.partAt p).res i) = true) (hsvc : (s.partAt p).svcFault = false)
    (hskip : (s.partAt p).skipped = false) (hresets : ∀ j ∈ (s.partAt p).validIdx, ((s.partAt p).res j).resets = [])
    (hi : i ∈ (s.partAt p).validIdx) (hs : sid < 512) (hact : s.active c sid = true) {e : Nat} (he : s.EndIs c sid e) :
    let Q := s.st c sid stQ
    let u := s.slotEnds p
    (u.st c sid stQ = (Q + 1) % 2 ^ 64 ∧ (c, sid, Q) ∉ u.retracted ∧
      (Q < e → u.st c sid stE = s.st c sid stE ∧ u.st c sid stG = s.st c sid stG) ∧ (e = Q → s.Shown u c sid (Q + 1))) ∧
      ∃ x : State, s.Awaits c sid x ∧ s.Played c sid Q
        (x.releasedBytes c sid ((s.partAt p).res i) (s.partAt p).frame (if (c, sid) ∈ s.skipped then 128 else 0)
          (decide ((s.partAt p).ended i = .committed)) (s.partAt p).judged) u := by
  intro Q u
  have hl := State.live_of_active hact
  obtain ⟨x, hbefore, hpart, hafter, Hone⟩ := H.ownerPlayed_around (p := p) (i := i) hctx hs hact
  have hres : (x.partAt p).res i = (s.partAt p).res i := by rw [hpart]; rfl
  have hframe : (x.partAt p).frame = (s.partAt p).frame := by rw [hpart]
  obtain ⟨rQ, hret, rvalid, rnone, y, hy, hplayed, -⟩ := (hbefore.awaits H hs hl).releaseOne_plain (p := p) (i := i) (by rw [hres]; exact hctx) hs hl
    hbefore.skipped (by rw [hres]; exact hresets i hi) (decide ((s.partAt p).ended i = .committed)) (s.partAt p).judged he
  rw [hres, hframe] at hplayed
  have hend := (hafter.held Hone).slotEnds_leaves (sid := sid) hctx ho hr hsvc hskip hresets
  have k := hafter.trans hend
  refine ⟨⟨(k.st_eq hs (by decide)).trans rQ, fun hm => hret ((k.retracted _).mp hm), fun hlt => ?_, fun heq => (rnone heq).leaves k H.laid hs hl⟩,
    y, hy, hplayed.leaves k H.laid hs hl⟩
  obtain ⟨hE, hG⟩ := rvalid hlt
  exact ⟨(k.st_eq hs (by decide)).trans hE, (k.st_eq hs (by decide)).trans hG⟩

end

end Sys2Proof.Machine

namespace Sys2Proof.Machine

section
variable {s t u : State} {p i c sid : Nat}

/-! ## The release side of a reset (R38) -/

/-- Q, E and the publish word go to the lag. -/
def State.restartReleases (t : State) (c sid lag : Nat) : State := (t.setSt c sid stQ lag).publishWord c sid lag

theorem State.finishResets_one (t : State) (p i : Nat) (h : ((t.partAt p).res i).resets = [sid]) (hctx : ((t.partAt p).res i).ctx = c)
    (hact : t.active c sid = true) :
    t.finishResets p i = (t.restartReleases c sid ((t.partAt p).res i).lag).onRes p i fun r => { r with resets := [] } := by
  unfold State.finishResets
  dsimp only
  rw [hctx, h, List.filter_cons_of_pos hact, List.filter_nil, List.foldl_cons, List.foldl_nil]
  rfl

/-- What the restart of a stream's releases does. -/
theorem State.Held.restartReleases_spec (H : s.Held c t) (hs : sid < 512) (hl : s.Live c sid) (lag : Nat) :
    s.Held c (t.restartReleases c sid lag) ∧ t.Notes (t.restartReleases c sid lag) ∧ (t.restartReleases c sid lag).st c sid stQ = lag % 2 ^ 64 ∧
      ((t.restartReleases c sid lag).st c sid stE = lag % 2 ^ 32 ∧ (t.restartReleases c sid lag).st c sid stG = (t.st c sid stG + 1) % 2 ^ 32 ∧
        Mem.nat (t.restartReleases c sid lag).mem (s.st c sid stSpk + 1024) 8 = (t.st c sid stG + 1) % 2 ^ 32 * 2 ^ 32 + lag % 2 ^ 32) ∧
      Mem.Same t.mem (t.restartReleases c sid lag).mem (s.st c sid stPlay) 1024 := by
  have d1 := H.setSt_does (A := fun _ => False) (W := releaseFields sid) hs (f := stQ) (by decide) lag ⟨rfl, by decide⟩
  have r1 := fun f hf => H.st_setSt (sid' := sid) hs (f := stQ) (f' := f) (by decide) hf lag
  have n1 := t.setSt_notes c sid stQ lag
  unfold State.restartReleases
  generalize t.setSt c sid stQ lag = x at d1 r1 n1 ⊢
  have H1 := H.does d1 fun _ => False.elim
  have hplay := (d1.toStays.same_ring H.laid hs hl fun _ _ => id).2
  obtain ⟨sE, sG, sword⟩ := H1.st_publishWord hs hl lag
  have hG : x.st c sid stG = t.st c sid stG := (r1 stG (by decide)).trans (if_neg fun h => absurd h.2 (by decide))
  rw [hG] at sG sword
  have d2 := H1.publish_does hs hl lag
  refine ⟨H1.does d2 fun _ => State.RingsOf.loose, n1.trans (x.publishWord_notes ..), ?_, ⟨sE, sG, sword⟩, hplay.trans (H1.publishWord_play hs hl lag)⟩
  rw [d2.fields sid hs stQ (by decide) fun h => absurd h.2 (by decide), r1 stQ (by decide), if_pos ⟨rfl, rfl⟩]
  rfl

/-- A stream's restart at its slot's end. -/
structure State.Restarted (s : State) (c sid q lag : Nat) (bs : List Byte) (u : State) : Prop where
  position : u.st c sid stQ = lag % 2 ^ 64
  shown : s.Shown u c sid lag
  played : s.Played c sid q bs u

theorem State.Restarted.leaves {q lag : Nat} {bs : List Byte} (h : s.Restarted c sid q lag bs t) (k : s.Leaves c sid t u) (L : s.Laid c)
    (hs : sid < 512) (hl : s.Live c sid) : s.Restarted c sid q lag bs u :=
  ⟨(k.st_eq hs (by decide)).trans h.position, h.shown.leaves k L hs hl, h.played.leaves k L hs hl⟩

theorem State.Held.finishResets_restarts (H : s.Held c t) (hs : sid < 512) (hl : s.Live c sid)
    (h : ((t.partAt p).res i).resets = [sid]) (hctx : ((t.partAt p).res i).ctx = c) (hact : t.active c sid = true)
    (hG : t.st c sid stG = s.st c sid stG) {q : Nat} {bs : List Byte} (hp : s.Played c sid q bs t) :
    s.Restarted c sid q ((t.partAt p).res i).lag bs (t.finishResets p i) := by
  rw [t.finishResets_one p i h hctx hact]
  generalize ((t.partAt p).res i).lag = lag
  obtain ⟨-, n, rQ, ⟨rE, rG, rword⟩, hplay⟩ := H.restartReleases_spec hs hl lag
  rw [hG] at rG rword
  generalize t.restartReleases c sid lag = x at n rQ rE rG rword hplay ⊢
  have hx : s.Restarted c sid q lag bs x := ⟨rQ, ⟨rE, rG, rword⟩, n.out.subset hp.sent,
    ((hplay.mono (slotOf_in _ q).1 (slotOf_in _ q).2).bytes_eq).trans hp.record, by rw [n.skipped]; exact hp.skipped⟩
  exact hx.leaves (State.onRes_leaves x p i _) H.laid hs hl

/-- The resets of a slot's end where one resident alone waits for one. -/
theorem State.Held.finishAll_restarts (H : s.Held c t) (hs : sid < 512) (hl : s.Live c sid) {l : List Nat} (hi : i ∈ l)
    (hone : ((t.partAt p).res i).resets = [sid]) (hother : ∀ j ∈ l, j ≠ i → ((t.partAt p).res j).resets = [])
    (hctx : ((t.partAt p).res i).ctx = c) (hact : t.active c sid = true) (hG : t.st c sid stG = s.st c sid stG) {q : Nat} {bs : List Byte}
    (hp : s.Played c sid q bs t) : s.Restarted c sid q ((t.partAt p).res i).lag bs (t.finishAll p l) := by
  obtain ⟨l1, l2, rfl, hnot⟩ := List.eq_append_cons_of_mem hi
  have happ : t.finishAll p (l1 ++ i :: l2) = ((t.finishAll p l1).finishResets p i).finishAll p l2 := by
    unfold State.finishAll
    rw [List.foldl_append, List.foldl_cons]
  rw [happ]
  have k1 := State.finishAll_none (s := s) (c := c) (sid := sid) t p l1 fun j hj =>
    hother j (List.mem_append_left _ hj) fun he => hnot (he ▸ hj)
  have hres1 := fun j => t.res_finishAll p l1 j
  generalize t.finishAll p l1 = x at k1 hres1 ⊢
  have hxi : (x.partAt p).res i = (t.partAt p).res i := by rw [hres1, if_neg hnot]
  have hxact : x.active c sid = true := by
    rw [x.active_iff, k1.st_eq hs (by decide), ← t.active_iff]
    exact hact
  have h2 := (k1.held H).finishResets_restarts (p := p) (i := i) hs hl (by rw [hxi]; exact hone) (by rw [hxi]; exact hctx) hxact
    ((k1.st_eq hs (by decide)).trans hG) (hp.leaves k1 H.laid hs hl)
  rw [hxi] at h2
  have hres2 := fun j => x.res_finishResets p i j
  generalize x.finishResets p i = y at h2 hres2 ⊢
  refine h2.leaves (State.finishAll_none y p l2 fun j hj => ?_) H.laid hs hl
  rw [hres2]
  by_cases hji : j = i
  · rw [if_pos hji]
  · rw [if_neg hji, hres1]
    dsimp only
    split
    · rfl
    · exact hother j (List.mem_append_right _ (List.mem_cons_of_mem _ hj)) hji

/-- A slot's end finishes the reset of a stream whose step committed (R38). -/
theorem State.Held.release_reset (H : s.Held c s) (hctx : ((s.partAt p).res i).ctx = c) (ho : (s.partAt p).Owned i)
    (hr : slotReleases (s.partAt p).step (s.partAt p).slotBegun ((s.partAt p).res i) = true) (hsvc : (s.partAt p).svcFault = false)
    (hskip : (s.partAt p).skipped = false) (hone : ((s.partAt p).res i).resets = [sid])
    (hother : ∀ j ∈ (s.partAt p).validIdx, j ≠ i → ((s.partAt p).res j).resets = []) (hi : i ∈ (s.partAt p).validIdx)
    (hcom : (s.partAt p).ended i = .committed) (hs : sid < 512) (hact : s.active c sid = true) :
    (∃ bs, s.FillIs c bs (s.st c sid stQ) (8 + 2 + if (c, sid) ∈ s.skipped then 128 else 0) ((s.partAt p).res i).lag (s.partAt p).frame ∧
      s.Restarted c sid (s.st c sid stQ) ((s.partAt p).res i).lag bs (s.slotEnds p)) ∧
      (((s.slotEnds p).partAt p).res i).resets = [] := by
  have hl := State.live_of_active hact
  obtain ⟨x, hbefore, hpart, hafter, Hone⟩ := H.ownerPlayed_around (p := p) (i := i) hctx hs hact
  have hres : (x.partAt p).res i = (s.partAt p).res i := by rw [hpart]; rfl
  have hframe : (x.partAt p).frame = (s.partAt p).frame := by rw [hpart]
  obtain ⟨rG, rState, -, bs, hfill, hplayed⟩ := (hbefore.awaits H hs hl).releaseOne_reset (p := p) (i := i) (by rw [hres]; exact hctx) hs hl
    hbefore.skipped (by rw [hres]; exact hone) (decide ((s.partAt p).ended i = .committed)) (s.partAt p).judged
  rw [hres, hframe] at hfill
  obtain ⟨hsettled, hkeep⟩ := (hafter.held Hone).faultsSettled_leaves (sid := sid) hctx ho hr hsvc
  have k := hafter.trans hsettled
  have hlag : ((s.faultsSettled p).partAt p).res i =
      { (s.partAt p).res i with state := (((s.faultsSettled p).partAt p).res i).state } := by
    unfold State.faultsSettled
    rw [State.res_settleFaults, s.res_released_of_not_missed p i ho hr fun h => h.2 hcom]
  have hend := s.res_slotEnds p i hskip
  refine ⟨⟨bs, hfill, ?_⟩, by rw [hend]; exact if_pos hi⟩
  rw [State.slotEnds_eq hskip]
  have Hk := k.held Hone
  generalize s.faultsSettled p = y at k hkeep hlag Hk ⊢
  have hyact : y.active c sid = true := by
    rw [y.active_iff, k.st_eq hs (by decide), rState]
    exact (s.active_iff c sid).mp hact
  have h := Hk.finishAll_restarts (p := p) (i := i) hs hl hi ((hkeep i).trans hone) (fun j hj hne => (hkeep j).trans (hother j hj hne))
    (by rw [hlag]; exact hctx) hyact ((k.st_eq hs (by decide)).trans rG) (hplayed.leaves k H.laid hs hl)
  have hylag : ((y.partAt p).res i).lag = ((s.partAt p).res i).lag := by rw [hlag]
  rw [hylag] at h
  generalize y.finishAll p (s.partAt p).validIdx = z at h ⊢
  exact h.leaves (State.endPhase_leaves z p) H.laid hs hl

end

end Sys2Proof.Machine

namespace Sys2Proof.Machine

/-! ## What a commit does to its streams, and what a slot releases -/

section
variable {s : State} {p i : Nat}

/-- The event of a commit, from what the commit leaves. -/
theorem State.Committing.commits (C : s.Committing p i) {P : State → Prop} (h : P (s.committed p i) ∧ s.Closing p i (s.committed p i)) :
    ∃ t, exec (.stepCommit p) s = .next t ∧ P t ∧ s.Closing p i t := ⟨_, C.exec_eq, h⟩

/-- How the owner's step counts at the end of the slot that it ran in. -/
theorem Partition.Owned.ended_of_begun {q : Partition} (h : q.Owned i) (hlead : q.phase ≠ .lead) (hbound : q.step.bound = true) :
    q.ended i = q.step.outcome ∧ q.judged = q.step ∧ slotReleases q.step q.slotBegun (q.res i) = q.step.releases := by
  have hb := h.slotBegun.mpr ⟨hlead, hbound⟩
  exact ⟨if_pos hb, if_pos hb, if_pos hb⟩

theorem missFlag_decide (o : StepEnd) : missFlag (decide (o = .committed)) = if o = .committed then 0 else 16 := by
  unfold missFlag
  exact if_congr decide_eq_true_iff rfl rfl

theorem aheadFlag_decide (o : StepEnd) (l : List (Nat × Nat)) (x : Nat × Nat) :
    aheadFlag (decide (o = .committed)) (l.contains x) = if o = .committed ∧ x ∈ l then 0 else 32 := by
  unfold aheadFlag
  exact if_congr (and_congr decide_eq_true_iff List.contains_iff_mem) rfl rfl

end

/-- Settles O60: each of R27's steps acts on its stream as its own lemma says and leaves the others, and each stream's release
is that of R30's table. -/
theorem commitsAndReleasesAct : Obligations.CommitsAndReleasesAct := by
  intro p i s q r c hL hi
  refine ⟨fun hresident hrun hopen hbeat hsmall hnodup hresets => ?_, fun hrun hwall hunreleased hgap hlead hfrozen hplan hskip hsvc hbound hreleases hother => ?_⟩
  · have C : s.Committing p i := ⟨hL, hresident, hrun, hopen, hbeat, hsmall, hnodup, hresets⟩
    intro steady commits alone moves
    refine ⟨fun hstage hspeak hsteady => ?_, fun sid hs hact => ?_⟩
    · obtain ⟨halone, hbytes, hclosing⟩ := C.plain hsteady hstage hspeak
      exact C.commits ⟨⟨halone, hbytes⟩, hclosing⟩
    intro Q spk
    refine ⟨fun e org pos he hstage hspeak hsteady => ?_, fun e pos x he hstage hspeak hclean hsize hstream hpos hlt hgt hsteady => ?_,
      fun org hstage hspeak hsteady => ⟨fun hnone => ?_, fun a child ha has hext hc h3 hlow => ?_⟩,
      fun org tree hstage hspeak => ⟨?_, fun hw hkids hsteady => ?_⟩,
      fun a k ha has hrun hgood hstage hspeak hw hkids hsteady => ?_⟩
    · exact C.commits (C.retract hsteady hstage hspeak hs hact he)
    · have hx : x.At sid (s.st c sid stQ) pos := ⟨hclean, hsize, hstream, hpos, hlt, hgt⟩
      by_cases hwin : pos < s.st c sid stQ ∨ s.st c sid stQ + 8 < pos
      · obtain ⟨⟨halone, hmoves, hquiet, hdrop⟩, hclosing⟩ := C.speak_dropped hsteady rfl hstage hspeak hs hact hx hwin
        exact C.commits ⟨⟨halone, hmoves, hquiet.1, fun _ => ⟨hquiet, hdrop⟩, fun h1 h2 =>
          absurd hwin (not_or.mpr ⟨Nat.not_lt.mpr h1, Nat.not_lt.mpr h2⟩)⟩, hclosing⟩
      · obtain ⟨h1, h2⟩ := not_or.mp hwin
        obtain ⟨⟨halone, hmoves, hQ, hstored⟩, hclosing⟩ :=
          C.speak_stored hsteady rfl hstage hspeak hs hact hx he (Nat.not_lt.mp h1) (Nat.not_lt.mp h2)
        exact C.commits ⟨⟨halone, hmoves, hQ, fun h => absurd h hwin, fun _ _ => hstored⟩, hclosing⟩
    · exact C.commits (C.fork_dropped hsteady hstage hspeak hs hact hnone)
    · exact C.commits (C.fork_done hsteady hstage hspeak hs rfl hact ha has hext hc h3 hlow)
    · exact ⟨_, C.exec_eq, C.cancel_reclaims rfl hstage hact⟩
    · exact C.commits (C.cancel hsteady rfl hstage hspeak hs hact hw hkids)
    · subst has
      exact C.commits (C.reset hsteady rfl hstage hspeak ha hact hrun hgood hw hkids)
  · have ho : (s.partAt p).Owned i := ⟨hfrozen, hplan⟩
    obtain ⟨hended, hjudged, hrel⟩ := ho.ended_of_begun hlead hbound
    obtain ⟨t, hexec, -, -, -, -, -, heq⟩ := execRelease_acts p s hrun hwall hunreleased hgap
    refine ⟨t, hexec, fun sid hs hact => ?_⟩
    rw [heq i ho]
    intro Q old skipped committed miss playsAt
    have hr := hrel.trans hreleases
    refine ⟨fun e he hnone => ?_, fun hone hcom => ?_⟩
    · have hall : ∀ j ∈ q.validIdx, (q.res j).resets = [] := fun j hj => by
        by_cases hji : j = i
        · rw [hji]; exact hnone
        · exact hother j hj hji
      obtain ⟨⟨hQ, hret, hvalid, hshown⟩, x, hx, hplayed⟩ := hL.held.release_plain rfl ho hr hsvc hskip hall hi hs hact he
      rw [hended, hjudged] at hplayed
      have hflag : (if (c, sid) ∈ s.skipped then 128 else 0) ≤ 128 := by split <;> decide
      obtain ⟨hparked, hfaulted, hfill, hentry⟩ := hx.releasedBytes_spec hs r q.frame hflag (decide (q.step.outcome = .committed)) q.step he
      rw [missFlag_decide] at hfill hentry
      rw [aheadFlag_decide] at hentry
      have hplays := And.intro hplayed.sent (And.intro hplayed.record hplayed.skipped)
      refine ⟨hQ, hret, hvalid, hshown, fun hst => ⟨_, hparked hst, hplays⟩, fun hst => ⟨_, hfaulted hst, hplays⟩, fun hst heQ => ?_, fun hst hlt => ?_⟩
      · exact ⟨_, hplays, hfill (by rw [hst]; decide) (by rw [hst]; decide) heQ⟩
      · exact ⟨_, hplays, hentry (by rw [hst]; decide) (by rw [hst]; decide) hlt⟩
    · obtain ⟨⟨bs, hfill, hpos, hshown, hplayed⟩, hresets⟩ :=
        hL.held.release_reset rfl ho hr hsvc hskip hone hother hi (hended.trans hcom) hs hact
      exact ⟨⟨bs, hfill, hplayed.sent, hplayed.record, hplayed.skipped⟩, hpos, hshown, hresets⟩

end Sys2Proof.Machine

namespace Sys2Proof.Machine

/-! ## Words that issue with effects (R47, R50, R333) -/

/-- A word's own place is kept by a change of its unit that leaves its track, its macro entries and its code. -/
theorem State.org_onCur (s : State) (f : Core → Core) (ht : (f s.core).track s.cur.track = s.core.track s.cur.track)
    (hm : (f s.core).macros = s.core.macros) (hc : (f s.core).code = s.core.code) : (s.onCur f).org = s.org := by
  have hsource := s.onCur_source f hc
  have hmacro : (f s.core).macro_ = s.core.macro_ := by funext e; unfold Core.macro_; rw [hm]
  unfold State.org State.word State.track Core.nextWord
  rw [hsource, State.onCur_core, State.onCur_cur, State.onCur_now, ht, hmacro]

/-- A word that leaves one effect in flight, or the residue fault in its place, and is followed by the next. -/
theorem State.emit_bad_retire_schedules (s : State) (act : Nat) (e : Effect) (bad : Option (Nat × Nat)) :
    s.Schedules ((s.emit act e bad).retire) s.core [s.latch act e bad] := by
  obtain ⟨⟨hunit, hissued, hresync⟩, hfollows⟩ := (s.emit act e bad).retire_schedules 0 none
  unfold State.emit at hunit hissued hresync hfollows ⊢
  have htrack : ∀ f, ({ s.core with latches := s.core.latches ++ [{ org := s.org, act := act, eff := e, bad := bad }] } : Core).track f =
      s.core.track f := fun f => by cases f <;> rfl
  have hcur : (s.onCur fun k => { k with latches := k.latches ++ [{ org := s.org, act := act, eff := e, bad := bad }] }).track = s.track := by
    unfold State.track
    rw [State.onCur_core, State.onCur_cur, htrack]
  refine ⟨⟨(s.onlyUnit_onCur _).trans hunit, ?_, ?_⟩, ?_⟩
  · rw [State.onCur_core, State.onCur_cur] at hissued
    exact Core.Issued.withLatches (ms := []) hissued
  · unfold State.resyncLeft at hresync ⊢
    rwa [hcur, State.onCur_now, State.onCur_cur] at hresync
  · unfold State.joinLeft at hfollows ⊢
    rw [hcur] at hfollows
    exact hfollows.onCur (htrack _) rfl rfl (State.onCur_source s _ rfl)

/-- A change of its unit that leaves its track, its loops, its macro entries and its code is the word's own. -/
theorem State.Schedules.onCur {s t : State} {f : Core → Core} {k : Core} {ls : List Latch} (h : (s.onCur f).Schedules t k ls)
    (ht : (f s.core).track s.cur.track = s.core.track s.cur.track) (hk : (f s.core).kregs = s.core.kregs)
    (hm : (f s.core).macros = s.core.macros) (hc : (f s.core).code = s.core.code) (hissued : k.Issued t.core s.cur.track ls) :
    s.Schedules t k ls := by
  obtain ⟨⟨hunit, -, hresync⟩, hfollows⟩ := h
  have htrack : (s.onCur f).track = s.track := by
    unfold State.track
    rw [State.onCur_core, State.onCur_cur, ht]
  refine ⟨⟨(s.onlyUnit_onCur f).trans hunit, hissued, ?_⟩, ?_⟩
  · unfold State.resyncLeft at hresync ⊢
    rwa [htrack, State.onCur_now, State.onCur_cur] at hresync
  · unfold State.joinLeft at hfollows ⊢
    rw [htrack] at hfollows
    exact hfollows.onCur ht hk hm (State.onCur_source s f hc)

/-- A word that leaves one effect in flight after it changes its unit's other registers. -/
theorem State.onCur_emit_bad_retire_schedules (s : State) (f : Core → Core) (act : Nat) (e : Effect) (bad : Option (Nat × Nat))
    (ht : (f s.core).track s.cur.track = s.core.track s.cur.track) (hk : (f s.core).kregs = s.core.kregs)
    (hm : (f s.core).macros = s.core.macros) (hc : (f s.core).code = s.core.code) :
    s.Schedules (((s.onCur f).emit act e bad).retire) (f s.core) [s.latch act e bad] := by
  have h := (s.onCur f).emit_bad_retire_schedules act e bad
  have hlatch : (s.onCur f).latch act e bad = s.latch act e bad := by simp [State.latch, s.org_onCur f ht hm hc]
  rw [State.onCur_core, hlatch] at h
  exact h.onCur ht hk hm hc (by simpa using h.1.2.1)

/-- A word that changes its unit's registers at once and leaves nothing in flight. -/
theorem State.onCur_retire_schedules (s : State) (f : Core → Core)
    (ht : (f s.core).track s.cur.track = s.core.track s.cur.track) (hk : (f s.core).kregs = s.core.kregs)
    (hm : (f s.core).macros = s.core.macros) (hc : (f s.core).code = s.core.code) :
    s.Schedules ((s.onCur f).retire) (f s.core) [] := by
  have h : (s.onCur f).Schedules ((s.onCur f).retire) (s.onCur f).core [] := (s.onCur f).retire_schedules 0 none
  rw [State.onCur_core] at h
  exact h.onCur ht hk hm hc (by simpa using h.1.2.1)

/-! ## Recording a write for the early-read check (R69) -/

/-- What is recorded for the early-read check stands in the table or in STATUS and its clears. -/
theorem Core.erRecord_fields (k : Core) (sp : Space) (lo hi perform : Nat) (o : Origin) :
    k.erRecord sp lo hi perform o =
      { k with ertab := (k.erRecord sp lo hi perform o).ertab, status := (k.erRecord sp lo hi perform o).status,
               stuck := (k.erRecord sp lo hi perform o).stuck, latches := (k.erRecord sp lo hi perform o).latches } := by
  unfold Core.erRecord
  split
  · split <;> rfl
  · rfl

theorem Core.erRecord_track (k : Core) (sp : Space) (lo hi perform : Nat) (o : Origin) (f : Family) :
    (k.erRecord sp lo hi perform o).track f = k.track f := by rw [Core.erRecord_fields]; cases f <;> rfl

@[simp] theorem Core.erRecord_sreg (k : Core) (sp : Space) (lo hi perform : Nat) (o : Origin) (n : BitVec 5) :
    (k.erRecord sp lo hi perform o).sreg n = k.sreg n := by rw [Core.erRecord_fields]; rfl

@[simp] theorem Core.erRecord_lat (k : Core) (sp : Space) (lo hi perform : Nat) (o : Origin) (n : Nat) :
    (k.erRecord sp lo hi perform o).lat n = k.lat n := by rw [Core.erRecord_fields]; rfl

@[simp] theorem Core.erRecord_residueBad (k : Core) (sp : Space) (lo hi perform : Nat) (o : Origin) :
    (k.erRecord sp lo hi perform o).residueBad = k.residueBad := by rw [Core.erRecord_fields]; rfl

@[simp] theorem Core.erRecord_residueDetail (k : Core) (sp : Space) (lo hi perform : Nat) (o : Origin) :
    (k.erRecord sp lo hi perform o).residueDetail = k.residueDetail := by rw [Core.erRecord_fields]; rfl

/-- A pending write of the running word, noted before the word's effect is scheduled. -/
theorem State.note_emit_retire_schedules (s : State) (sp : Space) (lo hi perform act : Nat) (e : Effect)
    (bad : Option (Nat × Nat)) :
    s.Schedules (((s.note sp lo hi perform).emit act e bad).retire) (s.recorded sp lo hi perform) [s.latch act e bad] := by
  unfold State.note State.recorded
  split
  · exact s.emit_bad_retire_schedules act e bad
  · exact s.onCur_emit_bad_retire_schedules _ act e bad (Core.erRecord_track ..) (by rw [Core.erRecord_fields])
      (by rw [Core.erRecord_fields]) (by rw [Core.erRecord_fields])

/-- A fact about the unit's registers that recording a write keeps. -/
theorem State.core_note {α : Type} (s : State) (sp : Space) (lo hi perform : Nat) (g : Core → α)
    (h : g (s.core.erRecord sp lo hi perform s.org) = g s.core) : g (s.note sp lo hi perform).core = g s.core := by
  unfold State.note
  split
  · rfl
  · rw [State.onCur_core, h]

@[simp] theorem State.note_now (s : State) (sp : Space) (lo hi perform : Nat) : (s.note sp lo hi perform).now = s.now := by
  unfold State.note
  split
  · rfl
  · exact State.onCur_now ..

/-! ## The address of a scalar access (R75, R77, R153) -/

theorem State.eaImm_eq (s : State) (a : BitVec 5) (i : BitVec 9) (z : Nat) : s.eaImm a i z = s.core.immAt a i z := by
  unfold State.eaImm Core.immAt
  rw [BitVec.toNat_add, BitVec.toNat_ofInt]
  generalize (s.core.sreg a).toNat = x
  generalize i.toInt * (z : Int) = y
  omega

theorem State.eaIdx_eq (s : State) (a b : BitVec 5) : s.eaIdx a b = s.core.idxAt a b := BitVec.toNat_add ..

theorem accessTimes_eq (sp : Space) : accessTimes sp = (accessBeat sp, loadUsable sp) := by cases sp <;> rfl

theorem atomTimes_eq (sp : Space) : atomTimes sp = (accessBeat sp, atomUsable sp) := by cases sp <;> rfl

theorem Access.outside_eq (x : Access) : x.outside = x.space.outside x.addr x.size := by
  obtain ⟨sp, z, regs, a⟩ := x
  cases sp <;> rfl

theorem Access.placed_iff (x : Access) : x.placed = true ↔ x.outside = false ∧ x.addr % x.size = 0 := by simp [Access.placed]

theorem Core.baseBad_eq_baseMismatch (k : Core) (x : Access) :
    k.baseBad x.regs (x.space.tagged x.addr) = k.baseMismatch x := by
  unfold Core.baseBad Core.firstBad Core.baseMismatch Space.tagged
  cases x.regs.find? k.residueBad <;> rfl

theorem State.addrFault_of_placed (s : State) (x : Access) (h : x.placed = true) : s.addrFault x.space x.addr x.size = none := by
  obtain ⟨hin, halign⟩ := x.placed_iff.mp h
  unfold State.addrFault
  rw [(addrBad_eq_none _ _ _).mpr ⟨by rw [← x.outside_eq, hin], halign⟩]
  rfl

theorem State.addrFault_of_outside (s : State) (x : Access) (h : x.outside = true) :
    s.addrFault x.space x.addr x.size = some (s.raise .addressRange x.addr x.size) := by
  rw [x.outside_eq] at h
  simp [State.addrFault, addrBad, h]

theorem State.addrFault_of_misaligned (s : State) (x : Access) (h : x.outside = false) (ha : x.addr % x.size ≠ 0) :
    s.addrFault x.space x.addr x.size = some (s.raise .alignment x.addr x.size) := by
  rw [x.outside_eq] at h
  simp [State.addrFault, addrBad, h, ha]

/-- An access that may be made passes what keeps a service context out. -/
theorem State.MayAccess.reach_physical {s : State} {x : Access} (h : s.MayAccess x) (f : State → State) (k : State → Out) :
    reach x.space f (physical x.space x.addr k) s = k s := by
  obtain ⟨hcore, -, hphys⟩ := h
  have hp : physical x.space x.addr k s = k s := by
    unfold physical physEnd
    rw [if_neg]
    rintro ⟨hsvc, -, hle⟩
    exact absurd (hphys hsvc) (Nat.not_lt.mpr hle)
  unfold reach
  split
  · exact hp
  · rename_i hsp
    rw [onCore_eq (hcore hsp), hp]

/-! ## Every scalar access is one of three words -/

/-- The access of a word at addresses as its meaning forms them. -/
theorem loadOf_exec {i : Instr} {s : State} {x : Access} {sx_ : Bool} {d : BitVec 5} {c : BitVec 4}
    (h : loadOf s.core i = some (x, sx_, d, c)) : exec i s = loadWord x.space x.size sx_ d x.regs x.addr c s := by
  cases i <;> simp only [loadOf, reduceCtorEq, Option.some.injEq, Prod.mk.injEq] at h <;>
    (obtain ⟨rfl, rfl, rfl, rfl⟩ := h) <;> simp only [← State.eaImm_eq, ← State.eaIdx_eq] <;> rfl

theorem storeOf_exec {i : Instr} {s : State} {x : Access} {v : BitVec 5} {c : BitVec 4}
    (h : storeOf s.core i = some (x, v, c)) : exec i s = storeWord x.space x.size v x.regs x.addr c s := by
  cases i <;> simp only [storeOf, reduceCtorEq, Option.some.injEq, Prod.mk.injEq] at h <;>
    (obtain ⟨rfl, rfl, rfl⟩ := h) <;> simp only [← State.eaImm_eq, ← State.eaIdx_eq] <;> rfl

/-- The address register of an atomic is its only one. -/
theorem atomicOf_exec {i : Instr} {s : State} {x : Access} {fn : AtomFn} {d b : BitVec 5} {c : BitVec 4}
    (h : atomicOf s.core i = some (x, fn, d, b, c)) :
    ∃ a, x.regs = [a] ∧ x.addr = (s.core.sreg a).toNat ∧ exec i s = atomicWord x.space x.size fn d a b c s := by
  cases i <;> simp only [atomicOf, reduceCtorEq, Option.some.injEq, Prod.mk.injEq] at h <;>
    (obtain ⟨rfl, rfl, rfl, rfl, rfl⟩ := h) <;> exact ⟨_, rfl, rfl, rfl⟩

end Sys2Proof.Machine

namespace Sys2Proof.Machine

/-! ## What scalar accesses do once their checks pass (R153 to R156) -/

/-- Settles O2: past its checks a load only puts its sample in flight. -/
theorem loadsSample : Obligations.LoadsSample := by
  unfold Obligations.LoadsSample
  intro i s x sx_ d c hload hmay
  refine ⟨_, ?_, s.emit_bad_retire_schedules _ _ _⟩
  rw [loadOf_exec hload]
  unfold loadWord
  rw [s.addrFault_of_placed x hmay.2.1]
  dsimp only
  rw [hmay.reach_physical, Core.baseBad_eq_baseMismatch, accessTimes_eq]

/-- The low bytes of a register at consecutive addresses (R3). -/
theorem storedCells_eq (a z : Nat) (v : W64) : storedCells a z v = cellsAt a (toLe z v.toNat) := by
  have hbyte : ∀ (z a n : Nat), cellsAt a (toLe z n) = (List.range z).map fun j => (a + j, BitVec.ofNat 8 (n / 256 ^ j)) := by
    intro z
    induction z with
    | zero => intro a n; rfl
    | succ z ih =>
      intro a n
      simp only [toLe, cellsAt, ih, List.range_succ_eq_map, List.map_cons, List.map_map, Nat.pow_zero, Nat.div_one, Nat.add_zero]
      refine congrArg _ (List.map_congr_left fun j _ => ?_)
      simp only [Function.comp_apply, Nat.pow_succ', Nat.div_div_eq_div_mul, Prod.mk.injEq, and_true]
      omega
  rw [hbyte]
  refine List.map_congr_left fun j _ => congrArg _ (BitVec.eq_of_toNat_eq ?_)
  rw [BitVec.extractLsb'_toNat, BitVec.toNat_ofNat, Nat.shiftRight_eq_div_pow, Nat.pow_mul]

/-- The checks of a store pass where its access may be made and its address registers carry their residues. -/
theorem State.memBad_of_mayAccess {s : State} {x : Access} (hmay : s.MayAccess x) (hbase : s.core.baseMismatch x = none) :
    s.memBad x.space x.regs x.addr x.size = none := by
  unfold State.memBad
  rw [s.addrFault_of_placed x hmay.2.1, Core.baseBad_eq_baseMismatch, hbase]
  rfl

/-- A register is stored as it was before the write was noted. -/
@[simp] theorem State.note_sreg (s : State) (sp : Space) (lo hi perform : Nat) (n : BitVec 5) :
    (s.note sp lo hi perform).core.sreg n = s.core.sreg n := s.core_note _ _ _ _ (fun k => k.sreg n) (by simp)

@[simp] theorem State.note_lat (s : State) (sp : Space) (lo hi perform n : Nat) :
    (s.note sp lo hi perform).core.lat n = s.core.lat n := s.core_note _ _ _ _ (fun k => k.lat n) (by simp)

@[simp] theorem State.note_baseMismatch (s : State) (sp : Space) (lo hi perform : Nat) (x : Access) :
    (s.note sp lo hi perform).core.baseMismatch x = s.core.baseMismatch x :=
  s.core_note _ _ _ _ (fun k => k.baseMismatch x) (by simp [Core.baseMismatch])

@[simp] theorem State.note_dataBad (s : State) (sp : Space) (lo hi perform : Nat) (n : BitVec 5) :
    (s.note sp lo hi perform).core.dataBad n = s.core.dataMismatch n :=
  s.core_note _ _ _ _ (fun k => k.dataBad n) (by simp [Core.dataBad])

/-- Settles O3: past its checks a store notes its write and puts it in flight. -/
theorem storesSchedule : Obligations.StoresSchedule := by
  unfold Obligations.StoresSchedule
  intro i s x v c hstore hmay hbase act
  refine ⟨_, ?_, s.note_emit_retire_schedules _ _ _ _ _ _ _⟩
  rw [storeOf_exec hstore]
  unfold storeWord act
  rw [State.memBad_of_mayAccess hmay hbase]
  dsimp only
  rw [hmay.reach_physical, State.note_sreg, State.note_dataBad, storedCells_eq, accessTimes_eq]

/-- Settles O4: past its checks an atomic notes its write and puts its one access in flight. -/
theorem atomicsSchedule : Obligations.AtomicsSchedule := by
  unfold Obligations.AtomicsSchedule
  intro i s x fn d b c hatomic hmay act
  obtain ⟨a, hregs, haddr, hexec⟩ := atomicOf_exec hatomic
  refine ⟨_, ?_, s.note_emit_retire_schedules _ _ _ _ _ _ _⟩
  rw [hexec]
  unfold atomicWord act
  rw [← haddr, ← hregs]
  dsimp only
  rw [s.addrFault_of_placed x hmay.2.1]
  dsimp only
  rw [hmay.reach_physical, Core.baseBad_eq_baseMismatch, State.note_baseMismatch, State.note_dataBad, State.note_sreg,
    State.note_lat, State.note_now, atomTimes_eq]

/-! ## The checks of a scalar access, in their order (R75, R153, R293, R333) -/

/-- A scalar access is a load's, a store's or an atomic's. -/
theorem accessOf_cases {k : Core} {i : Instr} {x : Access} (h : accessOf k i = some x) :
    (∃ e d c, loadOf k i = some (x, e, d, c)) ∨ (∃ v c, storeOf k i = some (x, v, c)) ∨
      ∃ fn d b c, atomicOf k i = some (x, fn, d, b, c) := by
  simp only [accessOf, Option.orElse_eq_orElse, Option.orElse_eq_or, Option.or_eq_some_iff, Option.map_eq_some_iff, Prod.exists] at h
  obtain ⟨x, e, d, c, h, rfl⟩ | ⟨-, ⟨x, v, c, h, rfl⟩ | ⟨-, x, fn, d, b, c, h, rfl⟩⟩ := h
  · exact .inl ⟨e, d, c, h⟩
  · exact .inr (.inl ⟨v, c, h⟩)
  · exact .inr (.inr ⟨fn, d, b, c, h⟩)

/-- A fault of its address is all that a scalar access does. -/
theorem exec_of_addrFault {i : Instr} {s t : State} {x : Access} (hx : accessOf s.core i = some x)
    (hf : s.addrFault x.space x.addr x.size = some t) : exec i s = .next t := by
  obtain ⟨e, d, c, h⟩ | ⟨v, c, h⟩ | ⟨fn, d, b, c, h⟩ := accessOf_cases hx
  · rw [loadOf_exec h, loadWord, hf]
  · rw [storeOf_exec h, storeWord, State.memBad, hf]
  · obtain ⟨a, -, haddr, hexec⟩ := atomicOf_exec h
    rw [hexec, atomicWord]
    dsimp only
    rw [← haddr, hf]

/-- Device memory that does not exist stops a service context (R317). -/
theorem reach_physical_of_service {s : State} {a : Nat} (hsvc : s.cur.svc = true) (ha : 80 * 2 ^ 30 ≤ a) (f : State → State)
    (k : State → Out) : reach .dev f (physical .dev a k) s = .fault (.noSuchDeviceAddress a) := by
  unfold reach physical physEnd
  rw [if_pos rfl, if_pos ⟨hsvc, rfl, ha⟩]

/-- What an atomic stores is no store's access. -/
theorem storeOf_eq_none_of_atomic {k : Core} {i : Instr} {y} (h : atomicOf k i = some y) : storeOf k i = none := by
  cases i <;> simp only [atomicOf, reduceCtorEq] at h <;> rfl

theorem storeOf_eq_none_of_load {k : Core} {i : Instr} {y} (h : loadOf k i = some y) : storeOf k i = none := by
  cases i <;> simp only [loadOf, reduceCtorEq] at h <;> rfl

/-- Settles O6: range, alignment, a store's residue, and what does not exist, in that order. -/
theorem accessChecksInOrder : Obligations.AccessChecksInOrder := by
  unfold Obligations.AccessChecksInOrder
  intro i s x hx
  refine ⟨fun hout => exec_of_addrFault hx (s.addrFault_of_outside x hout),
    fun hin halign => exec_of_addrFault hx (s.addrFault_of_misaligned x hin halign), fun v c r hstore hplaced hr => ?_,
    fun hsvc hdev hplaced hphys hbase => ?_⟩
  · rw [storeOf_exec hstore, storeWord, State.memBad, s.addrFault_of_placed x hplaced]
    simp only [Core.baseBad, Core.firstBad, hr, Option.map_some, Space.tagged]
  · have haddr := s.addrFault_of_placed x hplaced
    rw [hdev] at haddr
    obtain ⟨e, d, c, h⟩ | ⟨v, c, h⟩ | ⟨fn, d, b, c, h⟩ := accessOf_cases hx
    · rw [loadOf_exec h, loadWord, hdev, haddr]
      exact reach_physical_of_service hsvc hphys _ _
    · have hres : s.core.baseBad x.regs (x.space.tagged x.addr) = none := by
        rw [Core.baseBad_eq_baseMismatch]
        exact hbase.resolve_left (by rw [h]; exact Option.some_ne_none _)
      rw [hdev] at hres
      rw [storeOf_exec h, storeWord, State.memBad, hdev, haddr, hres]
      exact reach_physical_of_service hsvc hphys _ _
    · obtain ⟨a, -, hea, hexec⟩ := atomicOf_exec h
      rw [hexec, atomicWord, hdev]
      dsimp only
      rw [← hea, haddr]
      exact reach_physical_of_service hsvc hphys _ _

/-! ## Fences and COMMIT (R99, R166, R167) -/

theorem execCommit_eq (g : BitVec 3) (s : State) (h : s.cur.svc = false) :
    exec (.commit g) s = .next (s.onPart s.cur.part fun q => { q with flip := true }).retire := by
  show execCommit g s = _
  unfold execCommit
  exact onCore_eq h

theorem execCfence_of_none {g : BitVec 3} {fs fv fc : BitVec 1} {m : BitVec 16} {s : State}
    (h : m = 0 ∨ (fs = 0 ∧ fv = 0 ∧ fc = 0)) : exec (.cfence g fs fv fc m) s = .next s.retire := by
  exact congrArg _ (if_pos h)

theorem execCfence_of_some {g : BitVec 3} {fs fv fc : BitVec 1} {m : BitVec 16} {s : State}
    (h : ¬ (m = 0 ∨ (fs = 0 ∧ fv = 0 ∧ fc = 0))) : exec (.cfence g fs fv fc m) s = .next (s.onCur fun k =>
      { k with fences := k.fences ++
          [{ beat := s.now, classes := m, s := decide (fs = 1), v := decide (fv = 1), c := decide (fc = 1) }] }).retire := by
  exact congrArg _ (if_neg h)

/-- Settles O13: CFENCE changes its unit's fences alone, COMMIT its partition's staged flip. -/
theorem fencesAndCommitStand : Obligations.FencesAndCommitStand := by
  unfold Obligations.FencesAndCommitStand
  intro g fs fv fc m s
  refine ⟨?_, fun hsvc => ⟨_, execCommit_eq g s hsvc, State.retire_schedules _ 0 none⟩⟩
  split
  · rename_i hnone
    exact ⟨_, execCfence_of_none hnone, s.retire_schedules 0 none⟩
  · rename_i hsome
    exact ⟨_, execCfence_of_some hsome, s.onCur_retire_schedules _ (by cases s.cur.track <;> rfl) rfl rfl rfl⟩

end Sys2Proof.Machine

namespace Sys2Proof.Machine

/-! ## Rows that may be read (R69, R79, R184) -/

/-- From k to k' only STATUS with its clears in flight and the checker's list of reads differ, and no bit of STATUS falls. -/
structure Core.Looked (k k' : Core) : Prop where
  rest : k' = { k with status := k'.status, stuck := k'.stuck, reads := k'.reads, latches := k'.latches }
  latches : k'.latches.length = k.latches.length
  status : ∀ n, k.status.getLsbD n = true → k'.status.getLsbD n = true

theorem Core.Looked.refl (k : Core) : k.Looked k := ⟨rfl, rfl, fun _ h => h⟩

theorem Core.Looked.trans {k k' k'' : Core} (h : k.Looked k') (h' : k'.Looked k'') : k.Looked k'' :=
  ⟨by rw [h'.rest, h.rest], h'.latches.trans h.latches, fun n hn => h'.status n (h.status n hn)⟩

theorem Core.sticky_looked (k : Core) (n : Nat) : k.Looked (k.sticky n) := by
  refine ⟨rfl, List.length_map _, fun m hm => ?_⟩
  show (k.status ||| _).getLsbD m = true
  rw [BitVec.getLsbD_or, hm, Bool.true_or]

theorem Core.keepRead_looked (k : Core) (sp : Space) (lo hi : Nat) (o : Origin) : k.Looked (k.keepRead sp lo hi o) := by
  unfold Core.keepRead
  split
  · exact ⟨rfl, rfl, fun _ h => h⟩
  · exact .refl k

theorem Core.keepRead_of_off {k : Core} (h : k.erchk = false) (sp : Space) (lo hi : Nat) (o : Origin) : k.keepRead sp lo hi o = k := by
  simp [Core.keepRead, h]

theorem Core.sticky_unallocRead (k : Core) : (k.sticky stUnallocRead).status.getLsbD 0 = true := by
  show (k.status ||| _).getLsbD 0 = true
  rw [BitVec.getLsbD_or]
  simp [stUnallocRead]

/-- A row that may be read may still be read once others were. -/
theorem State.RowReadable.of_looked {s t : State} {x : Place} (h : s.RowReadable x) (hk : s.core.Looked t.core) (hn : t.now = s.now) :
    t.RowReadable x := by
  unfold State.RowReadable at h ⊢
  rw [hn, hk.rest]
  exact h

theorem State.OnlyUnit.now {s t : State} (h : s.OnlyUnit t) (hs : s.cur.svc = false) : t.now = s.now := by
  have hcur := h.cur
  unfold State.OnlyUnit at h
  rw [hs, if_neg (by decide)] at h
  rw [State.now, State.now, hcur, hs, if_neg (by decide), if_neg (by decide), h.1]
  rfl

theorem State.onCore_eq_onCur {s : State} (h : s.cur.svc = false) (f : Core → Core) : s.onCore s.cur.rope s.cur.core f = s.onCur f := by
  simp [State.onCore, State.onCur, State.setCore, State.core, h]

/-! ### The marks of a range (R335) -/

theorem le_foldl_max {α : Type} (f : α → Nat) (xs : List α) (m : Nat) :
    m ≤ xs.foldl (fun m x => max m (f x)) m ∧ ∀ x ∈ xs, f x ≤ xs.foldl (fun m x => max m (f x)) m := by
  induction xs generalizing m with
  | nil => exact ⟨Nat.le_refl m, fun x hx => absurd hx List.not_mem_nil⟩
  | cons y ys ih =>
    obtain ⟨hbase, hrest⟩ := ih (max m (f y))
    refine ⟨(Nat.le_max_left ..).trans hbase, fun x hx => ?_⟩
    obtain rfl | hx := List.mem_cons.mp hx
    · exact (Nat.le_max_right ..).trans hbase
    · exact hrest x hx

/-- A read whose worst mark is no error finds no corrected one. -/
theorem eccCorrected_of_clean {marks : SMap Nat} {u a n : Nat} (h : eccOver marks u a n = 0) : eccCorrected marks u a n = false := by
  unfold eccOver at h
  unfold eccCorrected
  by_cases hn : n = 0
  · simp [hn]
  · rw [if_neg hn] at h
    refine Bool.and_eq_false_imp.mpr fun _ => List.any_eq_false.mpr fun i hi hone => ?_
    have hle := (le_foldl_max (SMap.get 0 marks) _ 0).2 i hi
    rw [h, of_decide_eq_true hone] at hle
    exact absurd hle (by decide)

theorem State.eccRead_eq (s : State) (r c : Nat) (sp : Space) (a n : Nat) :
    s.eccRead r c sp a n =
      (if eccCorrected (s.eccOf r c sp).1 (s.eccOf r c sp).2 a n ∧ sp ≠ .dev then s.onCore r c fun k => k.sticky stEccCorr else s,
        eccOver (s.eccOf r c sp).1 (s.eccOf r c sp).2 a n) := by
  unfold State.eccRead
  dsimp only
  split <;> rfl

/-! ### The check of one row -/

/-- What the check of a row that may be read does. -/
structure State.Reads (s : State) (x : Place) (t : State) : Prop where
  unit : s.OnlyUnit t
  core : s.core.Looked t.core
  unallocated : s.core.allocated x.bank = false → t.core.status.getLsbD 0 = true
  clean : s.core.allocated x.bank = true → eccOver s.core.accEcc 8 x.addr 256 = 0 → s.core.erchk = false → t.core = s.core

theorem State.checkRow_reads {s : State} {x : Place} (hc : s.OnCore .v) (hx : s.RowReadable x) :
    (s.checkRow x).2 = true ∧ s.Reads x (s.checkRow x).1 := by
  obtain ⟨hsvc, -⟩ := hc
  obtain ⟨hearly, hband⟩ := hx
  set s1 := s.onCur fun k => k.keepRead .acc x.addr (x.addr + 256) s.org with hs1
  have hunit : s.OnlyUnit s1 := s.onlyUnit_onCur _
  have hcore : s1.core = s.core.keepRead .acc x.addr (x.addr + 256) s.org := s.onCur_core _
  have hlooked : s.core.Looked s1.core := by rw [hcore]; exact Core.keepRead_looked ..
  unfold State.checkRow
  dsimp only
  rw [hearly]
  dsimp only
  rw [← hs1]
  cases ha : s.core.allocated x.bank
  · simp only [Bool.false_and, Bool.false_eq_true, if_false, Bool.not_false, if_true]
    refine ⟨trivial, hunit.trans (s1.onlyUnit_onCur _), ?_, fun _ => ?_, fun h => absurd (ha.symm.trans h) (by decide)⟩
    · rw [State.onCur_core]
      exact hlooked.trans (Core.sticky_looked ..)
    · rw [State.onCur_core]
      exact Core.sticky_unallocRead _
  · obtain ⟨howner, hpoison⟩ := hband ha
    have hsvc1 : s1.cur.svc = false := by rw [hunit.cur]; exact hsvc
    have hk1 : s1.coreAt s1.cur.rope s1.cur.core = s1.core := by rw [State.core, hsvc1]; rfl
    have hecc : s1.core.accEcc = s.core.accEcc := by rw [hlooked.rest]
    simp only [howner, ne_eq, not_true_eq_false, decide_false, Bool.and_false, Bool.false_eq_true, if_false, Bool.not_true]
    rw [State.eccRead_eq]
    unfold State.eccOf
    dsimp only
    rw [hk1, hecc, if_neg hpoison, State.onCore_eq_onCur hsvc1]
    refine ⟨rfl, ?_⟩
    dsimp only
    split
    · rename_i hcorr
      refine ⟨hunit.trans (s1.onlyUnit_onCur _), ?_, fun h => absurd (ha.symm.trans h) (by decide), fun _ hclean => ?_⟩
      · rw [State.onCur_core]
        exact hlooked.trans (Core.sticky_looked ..)
      · rw [eccCorrected_of_clean hclean] at hcorr
        exact absurd hcorr.1 (by decide)
    · exact ⟨hunit, hlooked, fun h => absurd (ha.symm.trans h) (by decide), fun _ _ hoff => by
        rw [hcore, Core.keepRead_of_off hoff]⟩

/-! ### The checks of several rows -/

/-- What the checks of rows that may be read do. -/
structure State.ReadsAll (s : State) (xs : List Place) (t : State) : Prop where
  unit : s.OnlyUnit t
  core : s.core.Looked t.core
  unallocated : (∃ x ∈ xs, s.core.allocated x.bank = false) → t.core.status.getLsbD 0 = true
  clean : (∀ x ∈ xs, s.core.allocated x.bank = true ∧ eccOver s.core.accEcc 8 x.addr 256 = 0) → s.core.erchk = false → t.core = s.core

theorem State.OnlyUnit.refl (s : State) : s.OnlyUnit s := by
  unfold State.OnlyUnit
  split <;> simp

/-- The checks go on from row to row while each row may be read. -/
theorem State.foldl_checkRow_reads {xs : List Place} {s : State} (hc : s.OnCore .v) (hx : ∀ x ∈ xs, s.RowReadable x) :
    let y := xs.foldl (fun (y : State × Bool) x => if y.2 then y.1.checkRow x else (y.1, false)) (s, true)
    y.2 = true ∧ s.ReadsAll xs y.1 := by
  induction xs generalizing s with
  | nil => exact ⟨rfl, .refl s, .refl _, fun ⟨_, hx, _⟩ => absurd hx List.not_mem_nil, fun _ _ => rfl⟩
  | cons x xs ih =>
    obtain ⟨hok, hread⟩ := s.checkRow_reads hc (hx x List.mem_cons_self)
    set t := (s.checkRow x).1
    have hstep : s.checkRow x = (t, true) := Prod.ext rfl hok
    have hct : t.OnCore .v := by
      unfold State.OnCore at hc ⊢
      rwa [hread.unit.cur]
    have hreadable : ∀ y ∈ xs, t.RowReadable y := fun y hy =>
      (hx y (List.mem_cons_of_mem x hy)).of_looked hread.core (hread.unit.now hc.1)
    have hbanks : ∀ n, t.core.allocated n = s.core.allocated n := fun n => by rw [hread.core.rest]; rfl
    have hsame : t.core.accEcc = s.core.accEcc ∧ t.core.erchk = s.core.erchk := by rw [hread.core.rest]; exact ⟨rfl, rfl⟩
    obtain ⟨hok', hrest⟩ := ih hct hreadable
    simp only [List.foldl_cons, if_true, hstep]
    refine ⟨hok', hread.unit.trans hrest.unit, hread.core.trans hrest.core, ?_, fun hall hoff => ?_⟩
    · rintro ⟨y, hy, hun⟩
      obtain rfl | hy := List.mem_cons.mp hy
      · exact hrest.core.status 0 (hread.unallocated hun)
      · exact hrest.unallocated ⟨y, hy, (hbanks _).trans hun⟩
    · obtain ⟨halloc, hclean⟩ := hall x List.mem_cons_self
      refine (hrest.clean (fun y hy => ?_) (hsame.2.trans hoff)).trans (hread.clean halloc hclean hoff)
      rw [hbanks, hsame.1]
      exact hall y (List.mem_cons_of_mem x hy)

/-- Settles O26: row by row, over the distinct rows of the list. -/
theorem rowReadsPass : Obligations.RowReadsPass := by
  unfold Obligations.RowReadsPass
  intro s xs hc hreadable t
  obtain ⟨hok, hunit, hcore, hunalloc, hclean⟩ := State.foldl_checkRow_reads (xs := xs.eraseDups) hc fun x hx =>
    hreadable x (List.mem_eraseDups.mp hx)
  refine ⟨hok, hunit, hcore.rest, hcore.latches, ?_, fun hall hoff => hclean (fun x hx => hall x (List.mem_eraseDups.mp hx)) hoff⟩
  rintro ⟨x, hx, hun⟩
  exact hunalloc ⟨x, List.mem_eraseDups.mpr hx, hun⟩

end Sys2Proof.Machine

namespace Sys2Proof.Machine

/-! ## The canonical form of device memory under the operations of the model (R74, R317)

Each operation either leaves device memory alone or writes it by the operations of sparse maps; so each keeps the canonical form,
and its lemma follows the operation's own composition: State.Canonical.f says it of operation f. -/

/-- What a meaning answers is in canonical form, where it is a state. -/
def Out.Canonical : Out → Prop
  | .next t => t.Canonical
  | _ => True

namespace State.Canonical

variable {s t : State}

/-! ### Memory left alone -/

theorem of_mem (h : s.Canonical) (e : t.mem = s.mem) : t.Canonical := by
  unfold State.Canonical at h ⊢
  rwa [e]

theorem of_fst {α : Type} {p : State × α} {x : α} (h : p.1.Canonical) (e : p = (t, x)) : t.Canonical := by
  rw [e] at h
  exact h

theorem branch {c : Prop} [Decidable c] (hs : s.Canonical) (ht : t.Canonical) : (if c then s else t).Canonical := by
  split <;> assumption

theorem foldl {α : Type} {f : State → α → State} (hf : ∀ s x, s.Canonical → (f s x).Canonical) {xs : List α} (h : s.Canonical) :
    (xs.foldl f s).Canonical := List.foldlRecOn xs f h fun s hs x _ => hf s x hs

theorem foldl_fst {α β : Type} {f : State × β → α → State × β} (hf : ∀ y x, y.1.Canonical → (f y x).1.Canonical) {xs : List α}
    {y : State × β} (h : y.1.Canonical) : (xs.foldl f y).1.Canonical := List.foldlRecOn xs f h fun y hy x _ => hf y x hy

theorem setPart {p : Nat} {q : Partition} (h : s.Canonical) : (s.setPart p q).Canonical := h

theorem onPart {p : Nat} {f : Partition → Partition} (h : s.Canonical) : (s.onPart p f).Canonical := h

theorem setCoreAt {r c : Nat} {k : Core} (h : s.Canonical) : (s.setCoreAt r c k).Canonical := h

theorem onCore {r c : Nat} {f : Core → Core} (h : s.Canonical) : (s.onCore r c f).Canonical := h

theorem setSvc {r : Nat} {v : Service} (h : s.Canonical) : (s.setSvc r v).Canonical := h

theorem onFabric {f : Fabric → Fabric} (h : s.Canonical) : (s.onFabric f).Canonical := h

theorem onCur {f : Core → Core} (h : s.Canonical) : (s.onCur f).Canonical := h.of_mem (s.onCur_mem f)

theorem onHome {x : Home} {f : Core → Core} (h : s.Canonical) : (s.onHome x f).Canonical := h.of_mem (s.onHome_mem x f)

/-! ### Memory written by the operations of sparse maps -/

theorem putNat {a n v : Nat} (h : s.Canonical) : ({ s with mem := Mem.putNat s.mem a n v } : State).Canonical :=
  Mem.wf_putNat a n v h

theorem putDev {a : Nat} {bs : List Byte} (h : s.Canonical) : (s.putDev a bs).Canonical := Mem.wf_put a bs h

theorem zeroMem {a n : Nat} (h : s.Canonical) : (s.zeroMem a n).Canonical := Mem.wf_clear a (a + n) h

theorem putSnap {dst n : Nat} {x : Snap} (h : s.Canonical) : (s.putSnap dst n x).Canonical := Mem.wf_putCells _ h.zeroMem

theorem wf_foldl {α : Type} {f : SMap Byte → α → SMap Byte} (hf : ∀ m x, Mem.wf m = true → Mem.wf (f m x) = true)
    {xs : List α} {m : SMap Byte} (hm : Mem.wf m = true) : Mem.wf (xs.foldl f m) = true :=
  List.foldlRecOn (motive := fun m => Mem.wf m = true) xs f hm fun m hm x _ => hf m x hm

theorem wf_copyIn {m src : SMap Byte} {lo hi a : Nat} (hm : Mem.wf m = true) : Mem.wf (Mem.copyIn m src lo hi a) = true :=
  List.foldrRecOn (motive := fun m => Mem.wf m = true) _ _ (Mem.wf_clear _ _ hm) fun _ hm _ _ => SMap.wf_set _ _ hm

/-- A core's frame is cleared, and its fields and memories are written there (R298). -/
theorem writeFrame {p r c cause n : Nat} (h : s.Canonical) : (s.writeFrame p r c cause n).Canonical := by
  unfold State.writeFrame
  extract_lets s1 k q fa items m1 m2 m3 m4
  have h2 : Mem.wf m2 = true := wf_foldl (fun _ _ hm => Mem.wf_put _ _ hm) (Mem.wf_clear _ _ (Mem.wf_clear _ _ h))
  have h4 : Mem.wf m4 = true := by
    refine wf_foldl (fun m b hm => ?_) (wf_copyIn h2)
    split
    · exact wf_copyIn hm
    · exact hm
  unfold State.Canonical
  dsimp only
  exact h4

/-- A reset device holds nothing (R355). -/
theorem toReset {thermal : Bool} : (s.toReset thermal).Canonical := rfl

/-! ### Ops (Sys2Proof/Machine/Ops.lean) -/

theorem setCore {k : Core} (h : s.Canonical) : (s.setCore k).Canonical := by
  unfold State.setCore
  split
  · exact .setSvc h
  · exact .setCoreAt h

theorem retire {dead : Nat} {j : Option (Nat × Nat)} (h : s.Canonical) : (s.retire dead j).Canonical := .onCur h

theorem jump {pc : Nat} {dead : Nat} {j : Option (Nat × Nat)} (h : s.Canonical) : (s.jump pc dead j).Canonical :=
  .onCur h

theorem emit {act : Nat} {e : Effect} {bad : Option (Nat × Nat)} (h : s.Canonical) : (s.emit act e bad).Canonical :=
  .onCur h

theorem emitS {d : BitVec 5} {v : W64} {res : BitVec 4} {lat : Nat}
    (h : s.Canonical) : (s.emitS d v res lat).Canonical :=
  .emit h

theorem giveS {d : BitVec 5} {v : W64} {lat : Nat} (h : s.Canonical) : (s.giveS d v lat).Canonical := .emitS h

theorem storeDev {a : Nat} {bs : List Byte} (h : s.Canonical) : (s.storeDev a bs).Canonical := .putDev h

theorem putOutside {a : Nat} {bs : List Byte} (h : s.Canonical) : (s.putOutside a bs).Canonical := by
  unfold State.putOutside
  show Mem.wf _ = true
  exact State.Canonical.storeDev h

theorem enterService {r cause addr : Nat} (h : s.Canonical) : (s.enterService r cause addr).Canonical := .setSvc h

theorem record {p n : Nat} {f : FaultRec} (h : s.Canonical) : (s.record p n f).Canonical := .enterService (.putDev h)

theorem giveOpen {d : BitVec 5} {lat : Nat} (h : s.Canonical) : (s.giveOpen d lat).Canonical := .giveS h

/-! ### Operands (Sys2Proof/Machine/Operands.lean) -/

theorem touch {p r va : Nat} (h : s.Canonical) : (s.touch p r va).Canonical := by
  unfold State.touch
  dsimp only
  split <;> exact h

theorem earlyHitAt {p r c : Nat} {sp : Space} {lo hi : Nat} {o : Origin}
    (h : s.Canonical) : (s.earlyHitAt p r c sp lo hi o).Canonical := by
  unfold State.earlyHitAt
  split
  · exact State.raiseAt_canonical _ _ _ _ _ _ h
  · exact h

theorem poison {r c : Nat} {sp : Space} {a n : Nat} (h : s.Canonical) : (s.poison r c sp a n).Canonical := by
  unfold State.poison
  split
  · exact .onCore h
  · exact .onCore h
  · exact h

theorem eccRead {r c : Nat} {sp : Space} {a n : Nat} (h : s.Canonical) : (s.eccRead r c sp a n).1.Canonical := by
  unfold State.eccRead
  dsimp only
  split
  · exact .onCore h
  · exact h

theorem dataError {p r c : Nat} {sp : Space} {a n : Nat} {o : Origin}
    (h : s.Canonical) : (s.dataError p r c sp a n o).Canonical :=
  State.raiseAt_canonical _ _ _ _ _ _ h

theorem addrFault {sp : Space} {ea z : Nat} (h : s.Canonical) : ∀ t ∈ s.addrFault sp ea z, t.Canonical := by
  intro t ht
  obtain ⟨c, -, rfl⟩ := Option.map_eq_some_iff.mp ht
  exact State.raise_canonical _ _ _ h

theorem memBad {sp : Space} {regs : List (BitVec 5)} {ea z : Nat} (h : s.Canonical) :
    ∀ t ∈ s.memBad sp regs ea z, t.Canonical := by
  intro t ht
  unfold State.memBad at ht
  split at ht
  · next u hu =>
    obtain rfl := Option.some_inj.mp ht
    exact h.addrFault _ hu
  · obtain ⟨x, -, rfl⟩ := Option.map_eq_some_iff.mp ht
    exact State.raise_canonical _ _ _ h

theorem note {sp : Space} {lo hi perform : Nat} (h : s.Canonical) : (s.note sp lo hi perform).Canonical := by
  unfold State.note
  split
  · exact h
  · exact .onCur h

/-! ### Control (Sys2Proof/Machine/Control.lean) -/

theorem setStream {c sid off n v : Nat} (h : s.Canonical) : (s.setStream c sid off n v).Canonical := .putNat h

/-! ### Rows (Sys2Proof/Machine/Rows.lean) -/

theorem checkRow {x : Place} (h : s.Canonical) : (s.checkRow x).1.Canonical := by
  unfold State.checkRow
  dsimp only
  split
  · exact State.raise_canonical _ _ _ h
  · split
    · exact State.raiseAt_canonical _ _ _ _ _ _ h
    · split
      · exact .onCur (.onCur h)
      · split
        · exact .dataError (.eccRead (.onCur h))
        · exact .eccRead (.onCur h)

theorem checkRows {xs : List Place} (h : s.Canonical) : (s.checkRows xs).1.Canonical := by
  unfold State.checkRows
  dsimp only
  refine .foldl_fst (fun _ _ h1 => ?_) ?_
  · split
    · exact .checkRow h1
    · exact h1
  · dsimp only
    exact h

theorem emitRow {x : Place} {bs : List Byte} {lat : Nat} (h : s.Canonical) : (s.emitRow x bs lat).Canonical :=
  .emit (.onCur h)

/-! ### Matrix (Sys2Proof/Machine/Matrix.lean) -/

theorem retain {c : PitchCmd} {bs : List Nat} {es : List (Nat × Nat)}
    (h : s.Canonical) : (s.retain c bs es).Canonical :=
  .onCur h

theorem retainOther (h : s.Canonical) : s.retainOther.Canonical := .retain h

theorem firstOf {cs : List (State → Option State)} (hcs : ∀ c ∈ cs, ∀ t ∈ c s, t.Canonical) :
    ∀ t ∈ s.firstOf cs, t.Canonical := by
  intro t ht
  obtain ⟨c, hc, hct⟩ := List.exists_of_findSome?_eq_some ht
  exact hcs c hc t hct

theorem engineEcc {r c y a n : Nat} {o : Origin} (h : s.Canonical) : (s.engineEcc r c y a n o).Canonical := by
  unfold State.engineEcc
  dsimp only
  split
  · exact .onCore (.eccRead h)
  · exact .eccRead h

theorem readTable {ea : Nat} (h : s.Canonical) : (s.readTable ea).1.Canonical := by
  unfold State.readTable
  dsimp only
  exact .engineEcc (State.takeRead_canonical _ _ _ _ _ _ (State.earlyCheck_canonical _ _ _ _ _ _ _ h))

/-! ### Copy (Sys2Proof/Machine/Copy.lean) -/

theorem copyFault {c : FaultClass} {x : CopyPlan} (h : s.Canonical) : (s.copyFault c x).Canonical :=
  State.raise_canonical _ _ _ h

theorem launch {x : CopyPlan} {sp dp : Space} {src dst column : Nat}
    (h : s.Canonical) : (s.launch x sp dp src dst column).Canonical := by
  unfold State.launch
  refine .retire ?_
  split
  · refine .onCur ?_
    split
    · exact .emit (.onCur (.onCur h))
    · exact .onCur h
  · split
    · exact .emit (.onCur (.onCur h))
    · exact .onCur h

theorem copyWord {x : CopyPlan} (h : s.Canonical) : (s.copyWord x).Canonical := by
  unfold State.copyWord
  dsimp only
  split
  · exact .copyFault h
  · split
    · split
      · split
        · split
          · split
            · split
              · exact .copyFault (.touch h)
              · exact .launch (.touch h)
            · exact .copyFault h
          · split
            · split
              · exact .copyFault (.touch h)
              · exact .launch (.touch h)
            · exact .copyFault h
        · exact State.raise_canonical _ _ _ h
      · split
        · exact .copyFault h
        · exact .launch h
    · exact .copyFault h

theorem send {dst : Nat} {m : OutMsg} (h : s.Canonical) : (s.send dst m).Canonical := by
  unfold State.send
  split <;> exact h

theorem countOccurrence {p g t : Nat} (h : s.Canonical) : (s.countOccurrence p g t).Canonical := h

theorem undoColls {p r c b : Nat} (h : s.Canonical) : (s.undoColls p r c b).Canonical := by
  unfold State.undoColls
  refine .foldl (fun _ _ h1 => ?_) h
  exact .onCore h1

theorem countNull {p : Nat} (h : s.Canonical) : (s.countNull p).Canonical := by
  unfold State.countNull
  split
  · exact h
  · refine .foldl (fun _ _ h2 => ?_) h
    split
    · split
      · exact .countOccurrence h2
      · exact h2
    · exact h2

theorem giveD {d : BitVec 5} {v : W64} {bad : Option (Nat × Nat)} (h : s.Canonical) : (s.giveD d v bad).Canonical :=
  .emit h

/-! ### Xlat (Sys2Proof/Machine/Xlat.lean) -/

theorem setCtxWord {c w v : Nat} (h : s.Canonical) : (s.setCtxWord c w v).Canonical := .putNat h

theorem setDepth {c n : Nat} (h : s.Canonical) : (s.setDepth c n).Canonical := .setCtxWord h

theorem popPage {c : Nat} (h : s.Canonical) : ∀ x ∈ s.popPage c, x.2.Canonical := by
  intro x hx
  unfold State.popPage at hx
  dsimp only at hx
  split at hx
  · simp at hx
  · obtain rfl := Option.some_inj.mp hx
    exact h.setDepth

theorem setPageCount {pa n : Nat} (h : s.Canonical) : (s.setPageCount pa n).Canonical := .putNat h

theorem install {r : Nat} {e : XlatEntry} (h : s.Canonical) : (s.install r e).Canonical := h

theorem uncache {rs : List Nat} {f : XlatEntry → Bool} (h : s.Canonical) : (s.uncache rs f).Canonical := by
  unfold State.uncache
  refine .foldl (fun _ _ h1 => ?_) h
  exact h1

theorem xlatClear {r : Nat} {v : W64} {i : Nat} {all : Bool} (h : s.Canonical) : (s.xlatClear r v i all).Canonical :=
  .uncache h

theorem startWalk {w : Walk} (h : s.Canonical) : (s.startWalk w).Canonical := by
  unfold State.startWalk
  split <;> exact h

theorem demand {c pte : Nat} (h : s.Canonical) : ∀ x ∈ s.demand c pte, x.1.Canonical := by
  intro x hx
  unfold State.demand at hx
  split at hx
  · next pa u hu =>
    have h1 : State.Canonical u := h.popPage _ hu
    obtain rfl := Option.some_inj.mp hx
    dsimp only
    split
    · exact .zeroMem (.setPageCount (.putNat h1))
    · exact .setPageCount (.putNat h1)
  · simp at hx

theorem walkPage {w : Walk} (h : s.Canonical) : (s.walkPage w).1.Canonical := by
  unfold State.walkPage
  dsimp only
  split
  · exact h
  · exact h
  · split
    · exact h
    · split
      · next u e hu => exact h.demand _ hu
      · exact h

theorem walkEnd {w : Walk} (h : s.Canonical) : (s.walkEnd w).Canonical := by
  unfold State.walkEnd
  extract_lets waiting
  split
  next u page hu =>
  have h1 : u.Canonical := .of_fst (.walkPage h) hu
  extract_lets ok s1 bad
  have h2 : s1.Canonical := by
    dsimp only [s1]
    split
    · exact .branch (.install h1) h1
    · exact h1
  exact .branch (.foldl (fun _ _ h3 => .startWalk h3) h2) (.onPart h2)

theorem quiet {p : Nat} (h : s.Canonical) : (s.quiet p).Canonical := .foldl (fun _ _ h1 => .setSvc h1) h

theorem quietFor {p cause : Nat} (h : s.Canonical) : (s.quietFor p cause).Canonical := by
  unfold State.quietFor
  refine .foldl (fun _ _ h1 => ?_) h
  split
  · exact .setSvc h1
  · exact h1

theorem closeHold {p : Nat} (h : s.Canonical) : (s.closeHold p).Canonical := .onPart (.quietFor h)

theorem enterAll {p cause : Nat} {addr : Nat → Nat} (h : s.Canonical) : (s.enterAll p cause addr).Canonical :=
  .foldl (fun _ _ h1 => .enterService h1) h

theorem beginHold {p : Nat} {causes : List Nat} {needs : List PageNeed}
    (h : s.Canonical) : (s.beginHold p causes needs).Canonical :=
  .enterAll (.onPart (.foldl (fun _ _ h1 => .startWalk h1) h))

theorem refuse {p : Nat} {n : PageNeed} (h : s.Canonical) : (s.refuse p n).Canonical := .onCore h

theorem refusals {p : Nat} (h : s.Canonical) : (s.refusals p).Canonical := by
  unfold State.refusals
  split
  · split
    · exact .foldl (fun _ _ h3 => .refuse (State.raiseAt_canonical _ _ _ _ _ _ h3)) (.closeHold h)
    · exact h
  · exact h

theorem writeSys {p n : Nat} {v : W64} (h : s.Canonical) : (s.writeSys p n v).Canonical := by
  unfold State.writeSys
  split
  · exact h
  · split
    · split
      · exact h
      · exact .onPart h
    · exact h

/-! ### Engine (Sys2Proof/Machine/Engine.lean) -/

theorem later {x : Home} {o : Origin} {act : Nat} {e : Effect} (h : s.Canonical) : (s.later x o act e).Canonical :=
  .onHome h

theorem homeRead {x : Home} {sp : Space} {as : List Nat} {o : Origin}
    (h : s.Canonical) : (s.homeRead x sp as o).Canonical := by
  unfold State.homeRead
  split
  · exact h
  · exact .foldl (fun _ _ h2 => State.takeRead_canonical _ _ _ _ _ _ h2) (.foldl
    (fun _ _ h2 => State.earlyCheck_canonical _ _ _ _ _ _ _ h2) h)

theorem homeWrite {x : Home} {sp : Space} {as : List Nat} {o : Origin}
    (h : s.Canonical) : (s.homeWrite x sp as o).Canonical := by
  unfold State.homeWrite
  split
  · exact h
  · exact .foldl (fun _ _ h2 => State.takeWrite_canonical _ _ _ _ _ _ h2) h

theorem homeEcc {x : Home} {sp : Space} {a n : Nat} (h : s.Canonical) : (s.homeEcc x sp a n).1.Canonical := by
  unfold State.homeEcc
  split
  · exact h
  · exact .eccRead h

theorem homePoisoned {x : Home} {sp : Space} {a n : Nat} {o : Origin}
    (h : s.Canonical) : (s.homePoisoned x sp a n o).Canonical :=
  State.homeRaise_canonical _ _ _ _ _ h

theorem fetchBytes {x : Home} {sp : Space} {a n cls late : Nat} {o : Origin} {alts : List (Nat × List Host.Cell)}
    (h : s.Canonical) : (s.fetchBytes x sp a n cls late o alts).1.Canonical := by
  unfold State.fetchBytes
  dsimp only
  split
  · split
    · split
      · exact .homePoisoned (.homeEcc (.touch h))
      · dsimp only
        show Mem.wf _ = true
        dsimp only
        exact State.Canonical.homeEcc (.touch h)
    · split
      · exact .homePoisoned (.homeEcc (.homeRead h))
      · dsimp only
        show Mem.wf _ = true
        dsimp only
        exact State.Canonical.homeEcc (.homeRead h)
  · exact State.homeRaise_canonical _ _ _ _ _ h

theorem writeBytes {x : Home} {o : Origin} {sp : Space} {pa a cls : Nat} {cells : List Host.Cell} {raced : List Nat}
    (h : s.Canonical) : (s.writeBytes x o sp pa a cls cells raced).Canonical := by
  unfold State.writeBytes
  dsimp only
  split
  · exact State.homeRaise_canonical _ _ _ _ _ h
  · refine State.putCells_canonical _ _ _ _ _ ?_
    show Mem.wf _ = true
    dsimp only
    exact State.Canonical.onHome h

theorem performStore {x : Home} {o : Origin} {sp : Space} {cells : List Host.Cell} {cls : Nat} {raced : List Nat}
    (h : s.Canonical) : (s.performStore x o sp cells cls raced).Canonical := by
  unfold State.performStore
  split
  · exact h
  · split
    · refine .writeBytes ?_
      refine .homeWrite ?_
      split
      · exact .touch h
      · exact h
    · exact State.homeRaise_canonical _ _ _ _ _ h

theorem laterS {x : Home} {o : Origin} {usable dst : Nat} {v : W64}
    (h : s.Canonical) : (s.laterS x o usable dst v).Canonical :=
  .later h

theorem finishLoad {x : Home} {o : Origin} {sp : Space} {a : Nat} {sx_ : Bool} {dst usable cls from_ : Nat}
    {bs : List Byte} {laid : List (Nat × List Host.Cell)}
    (h : s.Canonical) : (s.finishLoad x o sp a sx_ dst usable cls from_ bs laid).Canonical := by
  unfold State.finishLoad
  split
  · exact .later h
  · exact .laterS h

theorem performLoad {x : Home} {o : Origin} {sp : Space} {a n : Nat} {sx_ : Bool} {dst usable cls : Nat}
    (h : s.Canonical) : (s.performLoad x o sp a n sx_ dst usable cls).Canonical := by
  unfold State.performLoad
  split
  · exact .finishLoad (.of_fst (.fetchBytes h) ‹_›)
  · exact .of_fst (.fetchBytes h) ‹_›

theorem performLoadAfter {x : Home} {o : Origin} {sp : Space} {a : Nat} {sx_ : Bool} {dst usable cls : Nat}
    {base : List Byte} {laid : List (Nat × List Host.Cell)}
    (h : s.Canonical) : (s.performLoadAfter x o sp a sx_ dst usable cls base laid).Canonical :=
  .finishLoad h

theorem performLda {x : Home} {o : Origin} {a n : Nat} {sx_ : Bool} {dst usable : Nat}
    (h : s.Canonical) : (s.performLda x o a n sx_ dst usable).Canonical := by
  unfold State.performLda
  dsimp only
  split
  · exact .laterS (.onHome (.homeRead h))
  · split
    · exact State.homeRaise_canonical _ _ _ _ _ h
    · split
      · exact .laterS (.of_fst (.fetchBytes h) ‹_›)
      · exact .of_fst (.fetchBytes h) ‹_›

theorem performLoadRow {x : Home} {o : Origin} {bank row : Nat} {base : List Byte} {fetch : List (Nat × Nat)} {write cls : Nat}
    (h : s.Canonical) : (s.performLoadRow x o bank row base fetch write cls).Canonical := by
  unfold State.performLoadRow
  dsimp only
  split
  · next u a hu =>
    refine .homePoisoned (.of_fst (.foldl_fst (fun _ _ h1 => ?_) ?_) hu)
    · exact .homeEcc h1
    · exact .homeRead h
  · next u hu =>
    have h1 : State.Canonical u := by
      refine .of_fst (.foldl_fst (fun _ _ h1 => ?_) ?_) hu
      · exact .homeEcc h1
      · exact .homeRead h
    exact State.Canonical.later (s := { u with free := u.free + 1 }) h1

theorem performAtomic {x' : Home} {o : Origin} {sp : Space} {a n : Nat} {fn : AtomFn} {x : W64}
    {dst usable cls : Nat} {skip raced : List Nat} {alts : List (Nat × List Host.Cell)}
    (h : s.Canonical) : (s.performAtomic x' o sp a n fn x dst usable cls skip raced alts).Canonical := by
  unfold State.performAtomic
  split
  · split
    · exact .laterS (.onHome (.writeBytes (.of_fst (.fetchBytes h) ‹_›)))
    · exact .of_fst (.fetchBytes h) ‹_›
  · exact State.homeRaise_canonical _ _ _ _ _ h

theorem performRow {x : Home} {o : Origin} {bank row : Nat} {bs : List Byte}
    (h : s.Canonical) : (s.performRow x o bank row bs).Canonical := by
  unfold State.performRow
  split
  · exact State.homeRaise_canonical _ _ _ _ _ h
  · exact State.poke_canonical _ _ _ _ _ (.onHome (State.takeWrite_canonical _ _ _ _ _ _ h))

theorem performZero {x : Home} {o : Origin} {bank next left period : Nat} {freeing : Bool}
    (h : s.Canonical) : (s.performZero x o bank next left period freeing).Canonical := by
  unfold State.performZero
  split
  · exact State.homeRaise_canonical _ _ _ _ _ h
  · split
    · exact State.poke_canonical _ _ _ _ _ (.onHome (State.takeWrite_canonical _ _ _ _ _ _ h))
    · exact .later (State.poke_canonical _ _ _ _ _ (.onHome (State.takeWrite_canonical _ _ _ _ _ _ h)))

theorem performScales {x : Home} {o : Origin} {b : Bool} {a use : Nat}
    (h : s.Canonical) : (s.performScales x o b a use).Canonical :=
  .later (.engineEcc (.homeRead h))

theorem performXpre {x : Home} {va : Nat} {big : Bool} (h : s.Canonical) : (s.performXpre x va big).Canonical := by
  unfold State.performXpre
  dsimp only
  split
  · split
    · exact .startWalk h
    · exact h
  · exact h

theorem performEffect {x : Home} {o : Origin} {e : Effect} (h : s.Canonical) : (s.performEffect x o e).Canonical := by
  cases e with
  | row => exact .performRow h
  | store => exact .performStore h
  | load => exact .performLoad h
  | loadAfter => exact .performLoadAfter h
  | loadElem => exact .performLda h
  | loadRow => exact .performLoadRow h
  | atomic => exact .performAtomic h
  | zeroRows => exact .performZero h
  | scaleLoad => exact .performScales h
  | sysWrite => exact .writeSys h
  | xlatWrite => exact .install h
  | xlatClear => exact .xlatClear h
  | xpre => exact .performXpre h
  | sreg | dreg | pred | bindWin | omap | alloc | free | owners | rmode | ftab | scaleUse | ringPop | ringInit | ringPush | prot
  | statClear =>
    dsimp only [State.performEffect]
    exact .onHome h

theorem performLatch {x : Home} {l : Latch} (h : s.Canonical) : (s.performLatch x l).Canonical := by
  unfold State.performLatch
  split
  · exact State.homeRaise_canonical _ _ _ _ _ h
  · exact .performEffect h

theorem sampleTile {p r c : Nat} {a : AccOp} (h : s.Canonical) : (s.sampleTile p r c a).Canonical :=
  .onCore (.foldl (fun _ _ h1 => .engineEcc (State.takeRead_canonical _ _ _ _ _ _
    (State.earlyCheck_canonical _ _ _ _ _ _ _ h1))) h)

theorem writeAcc {r c : Nat} {cells : List Host.Cell} (h : s.Canonical) : (s.writeAcc r c cells).Canonical :=
  State.pokeCells_canonical _ _ _ _ h

theorem writeback {p r c : Nat} {a : AccOp} (h : s.Canonical) : (s.writeback p r c a).Canonical := by
  unfold State.writeback
  dsimp only
  split
  · exact .onCore h
  · split
    · exact State.raiseAt_canonical _ _ _ _ _ _ (.onCore h)
    · split
      · refine .onCore ?_
        split
        · exact .onCore (State.takeWrite_canonical _ _ _ _ _ _ (.foldl
          (fun _ _ h6 => State.earlyCheck_canonical _ _ _ _ _ _ _ h6) (.onCore h)))
        · exact State.takeWrite_canonical _ _ _ _ _ _ (.foldl
          (fun _ _ h6 => State.earlyCheck_canonical _ _ _ _ _ _ _ h6) (.onCore h))
      · refine .writeAcc ?_
        refine .onCore ?_
        split
        · exact .onCore (State.takeWrite_canonical _ _ _ _ _ _ (.foldl
          (fun _ _ h7 => State.earlyCheck_canonical _ _ _ _ _ _ _ h7) (.onCore h)))
        · exact State.takeWrite_canonical _ _ _ _ _ _ (.foldl
          (fun _ _ h7 => State.earlyCheck_canonical _ _ _ _ _ _ _ h7) (.onCore h))

theorem dropIssued {p : Nat} (h : s.Canonical) : (s.dropIssued p).Canonical := by
  unfold State.dropIssued
  dsimp only
  split
  · split
    · exact .foldl (fun _ _ h3 => .onCore (.undoColls h3)) h
    · exact h
  · exact h

/-! ### Streams (Sys2Proof/Machine/Streams.lean) -/

theorem setDesc {c off n v : Nat} (h : s.Canonical) : (s.setDesc c off n v).Canonical := .putNat h

theorem onRes {p i : Nat} {f : Resident → Resident} (h : s.Canonical) : (s.onRes p i f).Canonical := .onPart h

theorem setState {p i : Nat} {x : CtxState} (h : s.Canonical) : (s.setState p i x).Canonical := .setDesc (.onRes h)

theorem setLag {p i n : Nat} (h : s.Canonical) : (s.setLag p i n).Canonical := .setDesc (.onRes h)

theorem writeEvent {p c : Nat} {e : Event} {sid : Nat} {pos detail : Option Nat}
    (h : s.Canonical) : (s.writeEvent p c e sid pos detail).Canonical := by
  unfold State.writeEvent
  show Mem.wf _ = true
  dsimp only
  exact State.Canonical.setDesc h

theorem event {p c : Nat} {e : Event} {sid : Nat} {pos detail : Option Nat}
    (h : s.Canonical) : (s.event p c e sid pos detail).Canonical := by
  unfold State.event
  dsimp only
  split
  · exact h
  · split
    · split
      · exact .writeEvent h
      · exact h
    · split
      · refine .writeEvent ?_
        show Mem.wf _ = true
        dsimp only
        exact State.Canonical.writeEvent h
      · show Mem.wf _ = true
        dsimp only
        exact State.Canonical.writeEvent h

theorem setSt {c sid : Nat} {f : Nat × Nat} {v : Nat} (h : s.Canonical) : (s.setSt c sid f v).Canonical :=
  .setStream h

theorem count {c sid : Nat} {f : Nat × Nat} {n : Nat} (h : s.Canonical) : (s.count c sid f n).Canonical := .setSt h

theorem publishWord {c sid e : Nat} (h : s.Canonical) : (s.publishWord c sid e).Canonical :=
  .putNat (.setSt (.setSt h))

/-! ### Vector (Sys2Proof/Machine/Vector.lean) -/

theorem emitPred {n : Nat} {v : Mask} {lat : Nat} (h : s.Canonical) : (s.emitPred n v lat).Canonical := .emit h

/-! ### Transfer (Sys2Proof/Machine/Transfer.lean) -/

theorem copyStop {p r c : Nat} {x : Copy} {cls : FaultClass} {d d2 : Nat}
    (h : s.Canonical) : (s.copyStop p r c x cls d d2).Canonical :=
  .onCore (State.raiseAt_canonical _ _ _ _ _ _ h)

theorem startCopy {p r c : Nat} {x : Copy} (h : s.Canonical) : (s.startCopy p r c x).Canonical := by
  unfold State.startCopy
  dsimp only
  split
  · exact .onCore h
  · split
    · exact .copyStop h
    · split
      · exact .copyStop h
      · exact .onCore (.onPart h)

theorem takeColumn {p r c : Nat} {x : Copy} (h : s.Canonical) : (s.takeColumn p r c x).1.Canonical := by
  unfold State.takeColumn
  dsimp only
  split
  · exact .copyStop h
  · split
    · split
      · exact .copyStop h
      · exact .onCore (State.raiseAt_canonical _ _ _ _ _ _ h)
    · exact .onCore h

theorem engineRead {p r c : Nat} {sp : Space} {a n owner : Nat} {o : Origin}
    (h : s.Canonical) : (s.engineRead p r c sp a n owner o).1.Canonical := by
  unfold State.engineRead
  dsimp only
  split
  · exact State.raiseAt_canonical _ _ _ _ _ _ h
  · split
    · exact .onCore (State.takeRead_canonical _ _ _ _ _ _ (State.earlyCheck_canonical _ _ _ _ _ _ _ h))
    · exact .eccRead (State.takeRead_canonical _ _ _ _ _ _ (State.earlyCheck_canonical _ _ _ _ _ _ _ h))

theorem ordered {p r c : Nat} {x : Copy} {sp : Space} {a : Nat} {bs : List Byte} {ps : List Nat}
    (h : s.Canonical) : (s.ordered p r c x sp a bs ps).1.Canonical :=
  h

theorem copySource {p r c : Nat} {x : Copy} {j : Nat} (h : s.Canonical) : (s.copySource p r c x j).1.Canonical := by
  unfold State.copySource
  dsimp only
  split
  · split <;> exact .of_fst (.takeColumn h) ‹_›
  · split
    · dsimp only
      exact .ordered (.of_fst (.engineRead h) ‹_›)
    · exact .onCore (.of_fst (.engineRead h) ‹_›)

theorem stageSpeak {p r c : Nat} {x : Copy} {t slot : Nat} {bs : List Byte} {bad : Bool}
    (h : s.Canonical) : (s.stageSpeak p r c x t slot bs bad).Canonical := by
  unfold State.stageSpeak
  dsimp only
  split
  · exact h
  · split
    · exact .event h
    · split
      · split
        · exact .count h
        · exact h
      · split
        · exact .copyStop h
        · exact .onPart h

theorem stageChunk {p r c : Nat} {x : Copy} {ch : Chunk} (h : s.Canonical) : (s.stageChunk p r c x ch).Canonical := by
  unfold State.stageChunk
  split
  · exact .foldl (fun _ _ h2 => .stageSpeak h2) (.onCore h)
  · exact .onCore (.foldl (fun _ _ h2 => .stageSpeak h2) (.onCore h))

theorem stageReady {p r c : Nat} {all : Bool} (h : s.Canonical) : (s.stageReady p r c all).Canonical :=
  .foldl (fun _ _ h1 => .foldl (fun _ _ h2 => .stageChunk h2) h1) h

theorem sampleSpeak {p r c : Nat} {x : Copy} {j : Nat} (h : s.Canonical) : (s.sampleSpeak p r c x j).Canonical := by
  unfold State.sampleSpeak
  split
  · exact .stageReady (.onCore (.of_fst (.copySource h) ‹_›))
  · exact .of_fst (.copySource h) ‹_›

theorem settleDebt {p r c : Nat} {x : Debt} (h : s.Canonical) : (s.settleDebt p r c x).Canonical :=
  .onCore (.foldl (fun _ _ h1 => .poison h1) (State.pokeCells_canonical _ _ _ _ (.onCore h)))

theorem payRound {p r c : Nat} (h : s.Canonical) : (s.payRound p r c).Canonical :=
  .foldl (fun _ _ h1 => .settleDebt h1) (.foldl (fun _ _ h1 => .onCore h1) h)

theorem payOwed {p r c : Nat} (h : s.Canonical) : (s.payOwed p r c).Canonical := by
  unfold State.payOwed
  dsimp only
  split
  · exact .stageReady (.foldl (fun _ _ h2 => .payRound h2) h)
  · exact h

theorem landChunks {p r c : Nat} {x : Copy} {j : Nat} {chs : List Chunk}
    (h : s.Canonical) : (s.landChunks p r c x j chs).Canonical :=
  .payOwed (.onCore h)

theorem sampleSelect {p r c : Nat} {x : Copy} {j : Nat} (h : s.Canonical) : (s.sampleSelect p r c x j).Canonical := by
  unfold State.sampleSelect
  split
  next u first hu =>
  have h1 : State.Canonical u := by
    split at hu
    · split at hu
      · next v bs ps hv =>
        have h1 : State.Canonical v := .of_fst h.engineRead hv
        obtain ⟨rfl, -⟩ := Prod.mk.inj hu
        exact h1
      · next v hv =>
        have h1 : State.Canonical v := .of_fst h.engineRead hv
        obtain ⟨rfl, -⟩ := Prod.mk.inj hu
        exact h1
    · obtain ⟨rfl, -⟩ := Prod.mk.inj hu
      exact h
  split
  · next v ch hv => exact .payOwed (.onCore (.of_fst (.copySource h1) hv))
  · next v hv => exact .of_fst (.copySource h1) hv

theorem sampleCopy {p r c : Nat} {x : Copy} (h : s.Canonical) : (s.sampleCopy p r c x).Canonical := by
  unfold State.sampleCopy
  dsimp only
  split
  · exact .sampleSpeak h
  · exact .landChunks h
  · exact .sampleSelect h
  · split
    · exact .landChunks (.of_fst (.copySource h) ‹_›)
    · exact .of_fst (.copySource h) ‹_›

theorem putChunk {r c : Nat} {x : Copy} {a : Nat} {bs : List Byte} {lines : List Nat}
    (h : s.Canonical) : (s.putChunk r c x a bs lines).Canonical := by
  unfold State.putChunk
  refine .onCore ?_
  split
  · exact .foldl (fun _ _ h3 => .poison h3) (State.pokeCells_canonical _ _ _ _ h)
  · exact .onCore (.foldl (fun _ _ h3 => .poison h3) (State.pokeCells_canonical _ _ _ _ h))

theorem putOwing {p r c : Nat} {x : Copy} {a : Nat} {ch : Chunk} {old : Option Chunk} {bs : List Byte}
    {lines : List Nat} (h : s.Canonical) : (s.putOwing p r c x a ch old bs lines).Canonical := by
  unfold State.putOwing
  dsimp only
  split
  · split
    · exact .payOwed (.onCore (.putChunk h))
    · exact .putChunk h
  · exact .onCore (.putChunk h)

theorem writeChunk {p r c : Nat} {x : Copy} {a : Nat} {ch : Chunk}
    (h : s.Canonical) : (s.writeChunk p r c x a ch).1.Canonical := by
  unfold State.writeChunk
  dsimp only
  split
  · exact .copyStop h
  · split
    · split
      · exact .putOwing (.of_fst (.takeColumn h) ‹_›)
      · exact .of_fst (.takeColumn h) ‹_›
    · exact .putOwing (State.takeWrite_canonical _ _ _ _ _ _ h)
    · split
      · exact .copyStop h
      · split
        · split
          · exact .putOwing (State.takeWrite_canonical _ _ _ _ _ _ (.ordered (.of_fst (.engineRead h) ‹_›)))
          · exact .onCore (.of_fst (.engineRead h) ‹_›)
        · exact .putOwing (State.takeWrite_canonical _ _ _ _ _ _ h)

theorem advanceCopy {r c : Nat} {x : Copy} {n : Nat} (h : s.Canonical) : (s.advanceCopy r c x n).Canonical :=
  .onCore h

theorem entryFull {p r c : Nat} {x : Copy} {n : Nat} (h : s.Canonical) : (s.entryFull p r c x n).1.Canonical := by
  unfold State.entryFull
  split
  · split
    · exact .copyStop h
    · exact h
  · exact h

theorem tagEntry {r c : Nat} {x : Copy} {n : Nat} (h : s.Canonical) : (s.tagEntry r c x n).Canonical := by
  unfold State.tagEntry
  split
  · split
    · exact .onCore h
    · exact h
  · exact h

theorem performCopy {p r c : Nat} {x : Copy} (h : s.Canonical) : (s.performCopy p r c x).Canonical := by
  unfold State.performCopy
  dsimp only
  split
  · split
    · exact .advanceCopy (.of_fst (.writeChunk h) ‹_›)
    · exact .of_fst (.writeChunk h) ‹_›
  · split
    · exact .of_fst (.entryFull h) ‹_›
    · split
      · split
        · exact .advanceCopy (.tagEntry (.of_fst (.writeChunk (.of_fst (.entryFull h) ‹_›)) ‹_›))
        · exact .of_fst (.writeChunk (.of_fst (.entryFull h) ‹_›)) ‹_›
      · exact .advanceCopy (.of_fst (.entryFull h) ‹_›)

theorem checkSegments {p : Nat} (h : s.Canonical) : (s.checkSegments p).Canonical := by
  unfold State.checkSegments
  refine .foldl (fun _ _ h1 => ?_) h
  refine .foldl (fun _ _ h2 => ?_) h1
  split
  · exact State.raiseAt_canonical _ _ _ _ _ _ h2
  · exact h2

theorem sampleFlit {p r c : Nat} {x : SendOp} (h : s.Canonical) : (s.sampleFlit p r c x).Canonical := by
  unfold State.sampleFlit
  split
  · exact .onPart (.onCore (.of_fst (.engineRead h) ‹_›))
  · exact .onCore (.of_fst (.engineRead h) ‹_›)

theorem arrive {p : Nat} {f : Flit} (h : s.Canonical) : (s.arrive p f).Canonical := by
  unfold State.arrive
  dsimp only
  split
  · split
    · exact State.raiseAt_canonical _ _ _ _ _ _ (.onCore h)
    · split
      · refine .onCore ?_
        refine .poison ?_
        split
        · exact .onCore (State.poke_canonical _ _ _ _ _ (State.takeWrite_canonical _ _ _ _ _ _ (.onCore h)))
        · exact State.poke_canonical _ _ _ _ _ (State.takeWrite_canonical _ _ _ _ _ _ (.onCore h))
      · split
        · exact .onCore (State.poke_canonical _ _ _ _ _ (State.takeWrite_canonical _ _ _ _ _ _ (.onCore h)))
        · exact State.poke_canonical _ _ _ _ _ (State.takeWrite_canonical _ _ _ _ _ _ (.onCore h))
  · exact State.raiseAt_canonical _ _ _ _ _ _ h

theorem missedFlits {p : Nat} (h : s.Canonical) : (s.missedFlits p).Canonical :=
  .foldl (fun _ _ h1 => .foldl (fun _ _ h2 => .onCore (State.raiseAt_canonical _ _ _ _ _ _ h2)) h1) h

theorem sampleColl {p r c : Nat} {x : CollOp} (h : s.Canonical) : (s.sampleColl p r c x).Canonical := by
  unfold State.sampleColl
  split <;> exact .onCore (.of_fst (.engineRead h) ‹_›)

theorem enterColl {p r c : Nat} {x : CollOp} (h : s.Canonical) : (s.enterColl p r c x).Canonical :=
  .onPart (.onCore h)

theorem performColl {p r c : Nat} {x : CollOp} (h : s.Canonical) : (s.performColl p r c x).Canonical := by
  unfold State.performColl
  dsimp only
  split
  · exact .onCore (.onCore h)
  · split
    · split
      · exact State.raiseAt_canonical _ _ _ _ _ _ (.onCore h)
      · split
        · refine .onCore ?_
          split
          · exact .foldl (fun _ _ h7 => .poison h7) (State.poke_canonical _ _ _ _ _ (.foldl
            (fun _ _ h7 => State.takeWrite_canonical _ _ _ _ _ _ h7) (.onCore h)))
          · exact .onCore (.foldl (fun _ _ h7 => .poison h7) (State.poke_canonical _ _ _ _ _ (.foldl
            (fun _ _ h7 => State.takeWrite_canonical _ _ _ _ _ _ h7) (.onCore h))))
        · split
          · exact .foldl (fun _ _ h6 => .poison h6) (State.poke_canonical _ _ _ _ _ (.foldl
            (fun _ _ h6 => State.takeWrite_canonical _ _ _ _ _ _ h6) (.onCore h)))
          · exact .onCore (.foldl (fun _ _ h6 => .poison h6) (State.poke_canonical _ _ _ _ _ (.foldl
            (fun _ _ h6 => State.takeWrite_canonical _ _ _ _ _ _ h6) (.onCore h))))
    · exact h

theorem sampleCore {p r c b : Nat} (h : s.Canonical) : (s.sampleCore p r c b).Canonical :=
  .foldl (fun _ _ h1 => .sampleColl h1) (.foldl (fun _ _ h1 => .enterColl h1) (.foldl (fun _ _ h1 => .sampleFlit h1)
    (.foldl (fun _ _ h1 => .sampleTile h1) (.foldl (fun _ _ h1 => .performLatch h1) (.onCore (.onCore h))))))

theorem sampleAll {p : Nat} (h : s.Canonical) : (s.sampleAll p).Canonical :=
  .checkSegments (.foldl (fun _ _ h1 => .sampleCore h1) h)

/-! ### Commit (Sys2Proof/Machine/Commit.lean) -/

theorem uncachePage {p i va : Nat} (h : s.Canonical) : (s.uncachePage p i va).Canonical := .uncache h

theorem setW {p i va a e : Nat} {w : Bool} (h : s.Canonical) : (s.setW p i va a e w).Canonical :=
  .uncachePage (.putNat h)

theorem restoreW {p i c k pa : Nat} (h : s.Canonical) : (s.restoreW p i c k pa).Canonical := by
  unfold State.restoreW
  split
  · split
    · exact .setW h
    · exact h
  · exact h

theorem releasePage {p i c sid k : Nat} (h : s.Canonical) : (s.releasePage p i c sid k).Canonical := by
  unfold State.releasePage
  dsimp only
  split
  · split
    · exact .onPart (.setPageCount (.uncachePage (.putNat h)))
    · split
      · exact .restoreW (.setPageCount (.uncachePage (.putNat h)))
      · exact .setPageCount (.uncachePage (.putNat h))
  · exact h

theorem releaseStream {p i c sid : Nat} (h : s.Canonical) : (s.releaseStream p i c sid).Canonical :=
  .onPart (.foldl (fun _ _ h1 => .releasePage h1) h)

theorem unretract {c sid pos : Nat} (h : s.Canonical) : (s.unretract c sid pos).Canonical := h

theorem unretractAll {c sid : Nat} (h : s.Canonical) : (s.unretractAll c sid).Canonical := h

theorem clearEntries {c sid : Nat} (h : s.Canonical) : (s.clearEntries c sid).Canonical := by
  unfold State.clearEntries
  dsimp only
  split
  · exact .unretractAll h
  · exact .publishWord (.unretractAll h)

theorem removeStream {p i sid : Nat} {e : Event} (h : s.Canonical) : (s.removeStream p i sid e).Canonical :=
  .releaseStream (.onRes (.event (.setSt (.onPart (.clearEntries h)))))

theorem removeTree {p i sid : Nat} {e : Event} (h : s.Canonical) : (s.removeTree p i sid e).Canonical :=
  .foldl (fun _ _ h1 => .removeStream h1) (.removeStream h)

theorem cancelStream {p i sid : Nat} {tree : Bool} (h : s.Canonical) : (s.cancelStream p i sid tree).Canonical := by
  unfold State.cancelStream
  dsimp only
  split
  · exact .removeTree h
  · refine .removeStream ?_
    refine .foldl (fun _ _ h3 => ?_) h
    split
    · exact .setSt h3
    · exact h3

theorem resetStream {p i sid : Nat} (h : s.Canonical) : (s.resetStream p i sid).Canonical :=
  .onRes (.setSt (.releaseStream (.onPart (.clearEntries (.foldl (fun _ _ h1 => .removeTree h1) h)))))

theorem sharePage {p i c parent child k : Nat} (h : s.Canonical) : (s.sharePage p i c parent child k).Canonical := by
  unfold State.sharePage
  split
  · exact .setPageCount (.uncachePage (.putNat (.setW h)))
  · exact h

theorem createChild {p i parent child : Nat} {flip : Bool}
    (h : s.Canonical) : (s.createChild p i parent child flip).Canonical := by
  unfold State.createChild
  refine .event ?_
  show Mem.wf _ = true
  exact State.Canonical.foldl (fun _ _ h3 => .sharePage h3) (.foldl (fun _ _ h3 => .setSt h3) (.setSt (.setSt
    (.foldl (fun _ _ h3 => .setSt h3) (.setSt (.setSt h))))))

theorem settleChild {c parent child : Nat} (h : s.Canonical) : (s.settleChild c parent child).Canonical :=
  .publishWord (.foldl (fun _ _ h1 => .setSt h1) h)

theorem withdraw {c sid x : Nat} (h : s.Canonical) : (s.withdraw c sid x).Canonical := by
  unfold State.withdraw
  dsimp only
  split
  · show Mem.wf _ = true
    dsimp only
    exact State.Canonical.setSt h
  · exact h

theorem putEntry {p c sid pos : Nat} {bs : List Byte} (h : s.Canonical) : (s.putEntry p c sid pos bs).Canonical :=
  .onPart (.unretract (.putDev h))

theorem publish {p c lag : Nat} {x : SpeakEntry} (h : s.Canonical) : (s.publish p c lag x).Canonical := by
  unfold State.publish
  dsimp only
  split
  · exact .count h
  · split
    · exact .setSt (.putEntry (.foldl (fun _ _ h3 => .putEntry h3) h))
    · exact .putEntry (.foldl (fun _ _ h3 => .putEntry h3) h)

theorem onStaged {p i sid : Nat} {v : CommitView} {f : State → State} (h : s.Canonical) (hf : (f s).Canonical) :
    (s.onStaged p i sid v f).Canonical := by
  unfold State.onStaged
  dsimp only
  split
  · exact hf
  · split
    · exact h
    · exact h.event

theorem commitCancels {p i : Nat} {v : CommitView} {ops : List Staged}
    (h : s.Canonical) : (s.commitCancels p i v ops).Canonical := by
  unfold State.commitCancels
  refine .foldl (fun _ _ h1 => ?_) h
  split
  · refine .onStaged h1 ?_
    exact .cancelStream h1
  · exact h1

theorem commitResets {p i : Nat} {v : CommitView} (h : s.Canonical) : (s.commitResets p i v).1.Canonical := by
  unfold State.commitResets
  refine .foldl_fst (fun ⟨u, w⟩ a h1 => ?_) h
  show State.Canonical (Prod.fst (ite _ _ _))
  split
  · split
    · split
      · dsimp only
        exact .setSt (.count (.resetStream h1))
      · exact h1
    · exact h1
  · exact h1

theorem commitForks {p i : Nat} {v : CommitView} {ops : List Staged} (h : s.Canonical) :
    (s.commitForks p i v ops).1.Canonical := by
  unfold State.commitForks
  refine .foldl_fst (fun ⟨u, w⟩ x h1 => ?_) h
  dsimp only at h1 ⊢
  split
  · split
    · dsimp only
      exact .event h1
    · split
      · split
        · dsimp only
          exact .createChild h1
        · dsimp only
          exact .event h1
      · dsimp only
        exact .event h1
  · exact h1

theorem commitRetracts {p i : Nat} {v : CommitView} {ops : List Staged}
    (h : s.Canonical) : (s.commitRetracts p i v ops).Canonical := by
  unfold State.commitRetracts
  refine .foldl (fun _ _ h1 => ?_) h
  split
  · refine .onStaged h1 ?_
    split
    · exact h1
    · exact .withdraw h1
  · exact h1

theorem commitSpeaks {p i : Nat} {v : CommitView} {e0 : Nat → Nat}
    (h : s.Canonical) : (s.commitSpeaks p i v e0).Canonical := by
  unfold State.commitSpeaks
  dsimp only
  refine .foldl (fun _ _ h1 => ?_) (.foldl (fun _ _ h1 => .event h1) h)
  split
  · exact .publishWord (.foldl (fun _ _ h3 => .publish h3) h1)
  · exact .foldl (fun _ _ h3 => .publish h3) h1

theorem commitPointers {p i : Nat} {v : CommitView} (h : s.Canonical) : (s.commitPointers p i v).Canonical := by
  unfold State.commitPointers
  refine .foldl (fun u a h1 => ?_) h
  split
  · split
    split
    · refine .setSt ?_
      exact .setSt (.count h1)
    · refine .setSt ?_
      refine .count ?_
      exact .setSt (.count h1)
  · exact h1

theorem commitFlip {p i : Nat} (h : s.Canonical) : (s.commitFlip p i).Canonical := by
  unfold State.commitFlip
  split
  · exact .uncache (.setCtxWord h)
  · exact h

theorem commitEnd {p i : Nat} (h : s.Canonical) : (s.commitEnd p i).Canonical := by
  unfold State.commitEnd
  dsimp only
  split
  · split
    · exact .onPart h
    · exact h
  · refine .setLag ?_
    split
    · exact .onPart h
    · exact h

theorem commit {p i : Nat} (h : s.Canonical) : (s.commit p i).Canonical :=
  .commitEnd (.foldl (fun _ _ h1 => .settleChild h1) (.commitFlip (.commitPointers (.commitSpeaks (.commitRetracts
    (.commitForks (.commitResets (.commitCancels h))))))))

/-! ### Image (Sys2Proof/Machine/Image.lean) -/

theorem startLoad {p i : Nat} (h : s.Canonical) : (s.startLoad p i).Canonical := .onPart (.onRes h)

/-! ### Grid (Sys2Proof/Machine/Grid.lean) -/

theorem writeHeadTail {p i : Nat} (h : s.Canonical) : (s.writeHeadTail p i).Canonical := .setDesc (.setDesc h)

theorem switchOut {p i : Nat} (h : s.Canonical) : (s.switchOut p i).Canonical := by
  unfold State.switchOut
  refine .onPart ?_
  refine .uncache ?_
  show Mem.wf _ = true
  exact State.Canonical.setDesc (.setDesc (.writeHeadTail h))

theorem switchIn {p i : Nat} {v : W64} (h : s.Canonical) : (s.switchIn p i v).Canonical := by
  unfold State.switchIn
  dsimp only
  split
  · exact .onPart h
  · exact .startLoad (.onPart h)

theorem applyMap {p : Nat} (h : s.Canonical) : (s.applyMap p).Canonical := by
  unfold State.applyMap
  refine .foldl (fun _ _ h1 => ?_) ?_
  · split
    · exact .switchIn h1
    · exact h1
  · refine .onPart ?_
    refine .foldl (fun _ _ h3 => ?_) h
    split
    · exact .switchOut h3
    · exact h3

theorem spareStart {p : Nat} (h : s.Canonical) : (s.spareStart p).Canonical :=
  .onPart (.foldl (fun _ _ h1 => .event h1) h)

theorem sendMarks {p : Nat} (h : s.Canonical) : (s.sendMarks p).Canonical := by
  unfold State.sendMarks
  split
  · refine .foldl (fun _ _ h2 => ?_) h
    split <;> exact h2
  · exact h

theorem enterSlot {p k : Nat} (h : s.Canonical) : (s.enterSlot p k).Canonical := .setPart h

theorem slotDuties {p : Nat} (h : s.Canonical) : (s.slotDuties p).Canonical := by
  unfold State.slotDuties
  dsimp only
  split
  · refine .sendMarks ?_
    split
    · show Mem.wf _ = true
      dsimp only
      split
      · exact State.Canonical.spareStart h
      · exact h
    · split
      · exact .spareStart h
      · exact h
  · split
    · show Mem.wf _ = true
      dsimp only
      split
      · exact State.Canonical.spareStart h
      · exact h
    · split
      · exact .spareStart h
      · exact h

theorem enterFrame {p : Nat} (h : s.Canonical) : (s.enterFrame p).Canonical := by
  unfold State.enterFrame
  dsimp only
  split
  · split
    · exact .enterSlot (.setPart (.applyMap h))
    · exact .setPart (.applyMap h)
  · exact .enterSlot (.setPart (.applyMap h))

theorem enterNext {p : Nat} (h : s.Canonical) : (s.enterNext p).Canonical := by
  unfold State.enterNext
  dsimp only
  split
  · exact .enterFrame h
  · exact .enterSlot h

theorem withdrawUnissued {p : Nat} (h : s.Canonical) : (s.withdrawUnissued p).Canonical := by
  unfold State.withdrawUnissued
  refine .foldl (fun _ _ h1 => ?_) h
  split
  · split
    · split
      · exact .send (.countOccurrence h1)
      · exact .countOccurrence h1
    · exact h1
  · exact h1

theorem settle {p : Nat} (h : s.Canonical) : (s.settle p).Canonical :=
  .onPart (.foldl (fun _ _ h1 => .foldl (fun _ _ h2 => .onCore (.send h2)) h1) (.withdrawUnissued h))

theorem stopHold {p : Nat} (h : s.Canonical) : (s.stopHold p).Canonical := by
  unfold State.stopHold
  dsimp only
  split
  · exact .closeHold (.foldl (fun _ _ h2 => .onCore h2) h)
  · exact h

theorem abandon {p : Nat} (h : s.Canonical) : (s.abandon p).Canonical := .settle (.onPart (.stopHold h))

theorem copyCuts {p c n : Nat} (h : s.Canonical) : (s.copyCuts p c n).Canonical := .foldl (fun _ _ h1 => .event h1) h

theorem holdColls {p : Nat} {k : Core} (h : s.Canonical) : (s.holdColls p k).Canonical := h

theorem cutCore {p c0 : Nat} {keep : Bool} {r c : Nat} (h : s.Canonical) : (s.cutCore p c0 keep r c).Canonical :=
  .setCoreAt (.holdColls (.copyCuts h))

/-- A tail's new page is entered in the child's table. -/
theorem forkPage {x : ForkTail} {pa n k : Nat}
    (h : s.Canonical) : ∀ u ∈ (match (generalizing := false) s.kvEntry x.ctx x.child k with
    | some a => some ({ s with mem := Mem.putNat s.mem a 8 n }.setPageCount pa 1)
    | none => some s), u.Canonical := by
  intro u hu
  split at hu
  · obtain rfl := Option.some_inj.mp hu
    exact .setPageCount (.putNat h)
  · obtain rfl := Option.some_inj.mp hu
    exact h

theorem forkTail {x : ForkTail} (h : s.Canonical) : (s.forkTail x).1.Canonical := by
  unfold State.forkTail
  dsimp only
  split
  · exact h
  · next u hu =>
    have h1 : u.Canonical := by
      split at hu
      · obtain rfl := Option.some_inj.mp hu
        exact h
      · split at hu
        · simp at hu
        · next pa v hv =>
          have h2 : State.Canonical v := h.popPage _ hv
          refine forkPage ?_ u hu
          split
          · exact .putSnap (.zeroMem h2)
          · exact .zeroMem h2
    refine .putSnap (.foldl (fun _ _ h2 => ?_) h1)
    split
    · exact .putSnap h2
    · exact h2

theorem tailFault {p i child ext : Nat} (h : s.Canonical) : (s.tailFault p i child ext).Canonical := by
  unfold State.tailFault
  exact .event (.setState (.onPart (.record (.onPart h))))

theorem forkTails {p i : Nat} (h : s.Canonical) : (s.forkTails p i).Canonical := by
  unfold State.forkTails
  refine .foldl (fun _ _ h1 => ?_) (show State.Canonical { s with tails := _ } from h)
  split
  · split
    · exact .of_fst (.forkTail h1) ‹_›
    · exact .tailFault (.of_fst (.forkTail h1) ‹_›)
  · exact h1

theorem zeroSlices {c sid : Nat} (h : s.Canonical) : (s.zeroSlices c sid).Canonical := by
  unfold State.zeroSlices
  refine .zeroMem ?_
  refine .foldl (fun _ _ h2 => ?_) h
  refine .foldl (fun _ _ h3 => ?_) h2
  split
  · exact .zeroMem h3
  · exact h3

theorem reclaimPage {c pa : Nat} (h : s.Canonical) : (s.reclaimPage c pa).Canonical := by
  unfold State.reclaimPage
  dsimp only
  split
  · exact .setDepth (.putNat (.zeroMem h))
  · exact .setPageCount (.zeroMem h)

theorem zeroReleased {p : Nat} (h : s.Canonical) : (s.zeroReleased p).Canonical :=
  .onPart (.foldl (fun _ _ h1 => .zeroSlices h1) h)

theorem reclaimSlot {p : Nat} (h : s.Canonical) : (s.reclaimSlot p).Canonical := by
  unfold State.reclaimSlot
  dsimp only
  refine .onPart ?_
  refine .foldl (fun _ _ h2 => ?_) (.foldl (fun _ _ h2 => .reclaimPage h2) h)
  split
  · exact .setSt h2
  · exact h2

theorem startTodo {p : Nat} (h : s.Canonical) : (s.startTodo p).Canonical := by
  unfold State.startTodo
  split
  · exact .forkTails h
  · exact h

theorem turnBegin {p : Nat} (h : s.Canonical) : (s.turnBegin p).Canonical := by
  unfold State.turnBegin
  refine .startTodo ?_
  refine .onPart ?_
  refine .zeroReleased ?_
  split
  · exact .onPart (.foldl (fun _ _ h5 => .cutCore h5) h)
  · exact h

theorem turnNext {p i : Nat} (h : s.Canonical) : (s.turnNext p i).Canonical := by
  unfold State.turnNext
  refine .startTodo ?_
  refine .onPart ?_
  split
  · exact h
  · exact .writeHeadTail h

theorem snapStream {p i sid : Nat} (h : s.Canonical) : (s.snapStream p i sid).Canonical := by
  unfold State.snapStream
  dsimp only
  split
  · exact .event (.onRes (.setSt (.setSt h)))
  · exact .setSt h

theorem snapAll {p i : Nat} (h : s.Canonical) : (s.snapAll p i).Canonical :=
  .foldl (fun _ _ h1 => .snapStream h1) (.onRes h)

theorem catchUp {c sid n : Nat} (h : s.Canonical) : (s.catchUp c sid n).Canonical := by
  have e := Eq.refl @State.catchUp
  conv at e => rhs; delta State.catchUp
  rw [e]
  beta_reduce
  split
  exact .setSt (.count h)

theorem restoreCtx {p i : Nat} (h : s.Canonical) : (s.restoreCtx p i).Canonical := by
  unfold State.restoreCtx
  dsimp only
  refine .onRes ?_
  refine .foldl (fun _ _ h2 => ?_) h
  split
  · exact .catchUp h2
  · exact h2

theorem bindStep {p i : Nat} {kind : StepKind} (h : s.Canonical) : (s.bindStep p i kind).Canonical := by
  unfold State.bindStep
  refine .onPart ?_
  split
  · exact .onRes (.event (.foldl (fun _ _ h3 => .onCore h3) h))
  · exact .foldl (fun _ _ h3 => .onCore h3) h

theorem turnBind {p : Nat} (h : s.Canonical) : (s.turnBind p).Canonical := by
  unfold State.turnBind
  dsimp only
  refine .reclaimSlot ?_
  split
  · split
    · exact .bindStep (.onPart (.restoreCtx (.snapAll (.foldl (fun _ _ h4 => .restoreCtx (.snapAll h4)) h))))
    · exact .onPart (.onPart (.restoreCtx (.snapAll (.foldl (fun _ _ h4 => .restoreCtx (.snapAll h4)) h))))
  · exact .onPart (.foldl (fun _ _ h3 => .restoreCtx (.snapAll h3)) h)

theorem checkPlan {p : Nat} (h : s.Canonical) : (s.checkPlan p).Canonical := by
  unfold State.checkPlan
  dsimp only
  split
  · exact h
  · exact State.raiseAt_canonical _ _ _ _ _ _ h

theorem dropLeftovers {p : Nat} (h : s.Canonical) : (s.dropLeftovers p).Canonical :=
  .foldl (fun _ _ h1 => .onCore (.copyCuts h1)) h

theorem anchor {p : Nat} (h : s.Canonical) : (s.anchor p).Canonical := by
  unfold State.anchor
  extract_lets s1 q i c s2 at_ s3 s4
  have h2 : s2.Canonical := .foldl (fun _ _ h1 => .onCore h1) (.dropLeftovers h)
  have h3 : s3.Canonical := .onRes h2
  exact .checkPlan (.onPart h3)

theorem play {c sid q : Nat} {bs : List Byte} (h : s.Canonical) : (s.play c sid q bs).Canonical := by
  unfold State.play
  show Mem.wf _ = true
  exact State.Canonical.putDev h

theorem takeSkipped {c sid : Nat} (h : s.Canonical) : (s.takeSkipped c sid).1.Canonical := by
  unfold State.takeSkipped
  split <;> exact h

theorem releaseOne {p i sid : Nat} {committed : Bool} {st : Step}
    (h : s.Canonical) : (s.releaseOne p i sid committed st).Canonical := by
  unfold State.releaseOne
  dsimp only
  split
  · exact .play (.takeSkipped h)
  · split
    · exact .unretract (.setSt (.play (.takeSkipped h)))
    · exact .publishWord (.unretract (.setSt (.play (.takeSkipped h))))

theorem finishResets {p i : Nat} (h : s.Canonical) : (s.finishResets p i).Canonical :=
  .onRes (.foldl (fun _ _ h1 => .publishWord (.setSt h1)) h)

theorem faultRes {p i : Nat} (h : s.Canonical) : (s.faultRes p i).Canonical := .event (.setState h)

theorem missed {p i : Nat} {faulted : Bool} (h : s.Canonical) : (s.missed p i faulted).Canonical := by
  unfold State.missed
  dsimp only
  split
  · exact .event (.setState (.setLag h))
  · exact .setLag h

theorem releaseSlot {p i : Nat} {st : Step} {begun svc : Bool}
    (h : s.Canonical) : (s.releaseSlot p i st begun svc).Canonical := by
  unfold State.releaseSlot
  dsimp only
  split
  · split
    · split
      · exact .missed (.foldl (fun _ _ h4 => .releaseOne h4) h)
      · exact .foldl (fun _ _ h4 => .releaseOne h4) h
    · exact h
  · split
    · split
      · split
        · exact .missed (.foldl (fun _ _ h5 => .releaseOne h5) h)
        · exact .foldl (fun _ _ h5 => .releaseOne h5) h
      · split
        · exact .missed (.foldl (fun _ _ h5 => .releaseOne h5) h)
        · exact .foldl (fun _ _ h5 => .releaseOne h5) h
    · exact h

theorem cutCopies {p r c : Nat} (h : s.Canonical) : (s.cutCopies p r c).Canonical := .onCore (.copyCuts h)

theorem urgentCut {p : Nat} (h : s.Canonical) : (s.urgentCut p).Canonical := .foldl (fun _ _ h1 => .cutCopies h1) h

theorem urgentEnd {p : Nat} (h : s.Canonical) : (s.urgentEnd p).Canonical := by
  unfold State.urgentEnd
  refine .onPart ?_
  refine .finishResets ?_
  split
  · exact .faultRes (.foldl (fun _ _ h4 => .onCore (.holdColls (.copyCuts (.cutCopies h4)))) h)
  · exact .foldl (fun _ _ h4 => .onCore (.holdColls (.copyCuts (.cutCopies h4)))) h

theorem settleFaults {p : Nat} (h : s.Canonical) : (s.settleFaults p).Canonical := by
  unfold State.settleFaults
  dsimp only
  refine .onPart ?_
  refine .quietFor ?_
  split
  · refine .foldl (fun _ _ h4 => ?_) ?_
    · exact .faultRes h4
    · split
      · split
        · exact .faultRes h
        · exact h
      · exact h
  · split
    · split
      · exact .faultRes h
      · exact h
    · exact h

theorem release {p : Nat} (h : s.Canonical) : (s.release p).Canonical := by
  unfold State.release
  extract_lets s1 q s2
  have h1 : s1.Canonical := .branch (.urgentEnd h) h
  have h2 : s2.Canonical := .onPart h1
  split
  extract_lets s3 s4 s5 s6
  have h3 : s3.Canonical := by
    dsimp only [s3]
    split
    · exact .releaseSlot h2
    · exact h2
  have h4 : s4.Canonical := .branch (.withdrawUnissued h3) h3
  have h5 : s5.Canonical := .settleFaults h4
  exact .onPart (.branch (.settleFaults h2) (.foldl (fun _ _ h7 => .finishResets h7) h5))

/-! ### Host (Sys2Proof/Machine/Host.lean) -/

theorem discard {k : Packet} (h : s.Canonical) : (s.discard k).Canonical := h

theorem notifyCons {c v : Nat} (h : s.Canonical) : (s.notifyCons c v).Canonical := by
  unfold State.notifyCons
  split
  · exact h
  · exact .setDesc h

theorem notifyTail {c v : Nat} (h : s.Canonical) : (s.notifyTail c v).Canonical := by
  unfold State.notifyTail
  dsimp only
  split
  · split
    · exact .setDesc (.onRes h)
    · exact .event h
  · split
    · exact .setDesc h
    · exact .event h

theorem answer {k : Packet} {bs : List Byte} (h : s.Canonical) : (s.answer k bs).Canonical := by
  unfold State.answer
  split
  · exact h
  · exact .discard h

theorem badCommand {p i : Nat} (h : s.Canonical) : (s.badCommand p i).Canonical := .event h

theorem meetRelease {p i : Nat} (h : s.Canonical) : (s.meetRelease p i).Canonical :=
  .setLag (.foldl (fun _ _ h1 => .setSt h1) h)

theorem setChannels {c sid llog lring lwp spk play : Nat}
    (h : s.Canonical) : (s.setChannels c sid llog lring lwp spk play).Canonical :=
  .foldl (fun _ _ h1 => .setSt h1) h

theorem rejectCommand {p i : Nat} (h : s.Canonical) : (s.rejectCommand p i).Canonical :=
  .badCommand (.onPart (.onRes h))

/-! ### Preempt (Sys2Proof/Machine/Preempt.lean) -/

theorem freezeAt {p : Nat} {cause : FreezeCause} (h : s.Canonical) : (s.freezeAt p cause).Canonical :=
  .enterAll (.onPart (.foldl (fun _ _ h1 => .writeFrame h1) h))

theorem breakRecord {p : Nat} {o : Origin} {code : Nat} (h : s.Canonical) : (s.breakRecord p o code).Canonical := by
  unfold State.breakRecord
  dsimp only
  show Mem.wf _ = true
  dsimp only
  exact State.Canonical.putDev (.onPart h)

theorem haltAt {p : Nat} (h : s.Canonical) : (s.haltAt p).Canonical := .freezeAt (.onPart h)

theorem callResume {p : Nat} (h : s.Canonical) : (s.callResume p).Canonical := by
  unfold State.callResume
  refine .foldl (fun _ _ h1 => ?_) h
  split
  · exact h1
  · exact .enterService h1

theorem pendItem {p r c fa j : Nat} {it : FrameItem} {x : LatchRec}
    (h : s.Canonical) : (s.pendItem p r c fa j it x).Canonical := by
  unfold State.pendItem
  split
  · split
    · refine .startWalk ?_
      split
      · exact .onCore (.putNat h)
      · exact .putNat h
    · exact h
  · exact h

theorem restoreCore {p r c fa f0 f : Nat} {k now : Core}
    (h : s.Canonical) : (s.restoreCore p r c fa f0 f k now).Canonical := by
  unfold State.restoreCore
  dsimp only
  refine .foldl (fun _ _ h1 => ?_) (.setCoreAt (.setCoreAt h))
  split
  · exact .pendItem h1
  · exact h1

theorem restoreFlits {p : Nat} {f : Frozen} {fa : Nat × Nat → Nat} {beat : Nat}
    (h : s.Canonical) : (s.restoreFlits p f fa beat).Canonical :=
  .onPart h

theorem resumeAll {p : Nat} (h : s.Canonical) : (s.resumeAll p).Canonical := by
  unfold State.resumeAll
  dsimp only
  split
  · exact h
  · split
    · exact State.raiseService_canonical _ _ _ _ _ (.foldl (fun _ _ h3 => .setCoreAt h3) (.onPart (.quiet h)))
    · show Mem.wf _ = true
      dsimp only
      exact State.Canonical.onPart (.quiet (.foldl (fun _ _ h4 => .restoreCore h4) (.restoreFlits (.foldl
        (fun _ _ h4 => .setCoreAt h4) (.onPart h)))))

theorem restart {p : Nat} (h : s.Canonical) : (s.restart p).Canonical := .onPart h

theorem skipSlot {p : Nat} (h : s.Canonical) : (s.skipSlot p).Canonical := by
  unfold State.skipSlot
  refine .onPart ?_
  split
  · refine .abandon ?_
    split <;> exact h
  · refine .stopHold ?_
    split <;> exact h

theorem passSlots {p n : Nat} (h : s.Canonical) : (State.passSlots p n s).Canonical := by
  induction n generalizing s with
  | zero => exact h
  | succ n ih =>
    unfold State.passSlots
    refine .branch (ih (.branch ?_ ?_)) h
    · exact .enterNext (.branch (.release h) h)
    · exact .skipSlot (.enterNext (.branch (.release h) h))

theorem thawPart {p d : Nat} (h : s.Canonical) : (s.thawPart p d).Canonical := by
  unfold State.thawPart
  dsimp only
  split
  · exact .foldl (fun _ _ h2 => .setSvc h2) (.onPart h)
  · refine .passSlots ?_
    split
    · exact .skipSlot (.foldl (fun _ _ h4 => .setSvc h4) (.onPart h))
    · exact .foldl (fun _ _ h4 => .setSvc h4) (.onPart h)

theorem thawAll (h : s.Canonical) : s.thawAll.Canonical := .foldl (fun _ _ h1 => .thawPart h1) h

/-! ### Fabric (Sys2Proof/Machine/Fabric.lean) -/

theorem sendNumber {x : SeqColl} (h : s.Canonical) : (s.sendNumber x).Canonical := .foldl (fun _ _ h1 => .send h1) h

theorem assign {key : CollKey} {shape : CollShape} {chips : List Nat} {n : Nat}
    (h : s.Canonical) : (s.assign key shape chips n).Canonical := by
  unfold State.assign
  dsimp only
  split
  · exact .send (.onFabric h)
  · exact .sendNumber (.onFabric h)

theorem nullify {x : SeqColl} {status : Nat} (h : s.Canonical) : (s.nullify x status).Canonical := by
  unfold State.nullify
  dsimp only
  split
  · exact h
  · split
    · exact .sendNumber (.onFabric h)
    · exact .onFabric h

theorem refuseKey {key : CollKey} {chips : List Nat} (h : s.Canonical) : (s.refuseKey key chips).Canonical :=
  .foldl (fun _ _ h1 => .send h1) h

theorem onKey {key : CollKey} {f : Nat → CollOp → CollOp} (h : s.Canonical) : (s.onKey key f).Canonical :=
  .onFabric (.foldl (fun _ _ h1 => .onCore h1) h)

theorem onNumber {key : CollKey} {f : Numbered → Numbered} (h : s.Canonical) : (s.onNumber key f).Canonical :=
  .onFabric h

theorem tellKey {key : CollKey} (h : s.Canonical) : (s.tellKey key).Canonical := by
  unfold State.tellKey
  split
  · exact .onKey h
  · exact h

theorem keepCopy {number gen : Nat} {key : CollKey} {shape : CollShape} {chips : List Nat}
    (h : s.Canonical) : (s.keepCopy number gen key shape chips).Canonical :=
  .onFabric h

theorem takeNumber {e : Numbered} (h : s.Canonical) : (s.takeNumber e).Canonical := by
  unfold State.takeNumber
  dsimp only
  refine .foldl (fun _ _ h1 => ?_) ?_
  · split
    · exact .withdrawUnissued h1
    · exact h1
  · split
    · exact .send (.tellKey (.onFabric h))
    · exact .tellKey (.onFabric h)

theorem finishKey {key : CollKey} (h : s.Canonical) : (s.finishKey key).Canonical := by
  unfold State.finishKey
  split
  · split
    · exact .onFabric (.onNumber (.onKey h))
    · exact h
  · exact h

theorem renewNumber {e : Numbered} {null : Nat} (h : s.Canonical) : (s.renewNumber e null).Canonical := by
  unfold State.renewNumber
  split
  · exact .finishKey (.tellKey (.onNumber h))
  · exact h

theorem land {key : CollKey} {r : Nat} {bs : List Byte} {ps : List Nat}
    (h : s.Canonical) : (s.land key r bs ps).Canonical := by
  unfold State.land
  split
  · exact h
  · exact .finishKey (.onFabric h)

theorem startKey {p : Nat} {key : CollKey} (h : s.Canonical) : (s.startKey p key).Canonical :=
  .countNull (.tellKey (.onNumber h))

theorem contribute {p : Nat} {x : CollOp} (h : s.Canonical) : (s.contribute p x).Canonical :=
  .land (.foldl (fun _ _ h1 => .send h1) (.startKey h))

theorem beatOut (h : s.Canonical) : s.beatOut.Canonical := by
  unfold State.beatOut
  extract_lets dests
  split
  extract_lets own s1
  have h1 : s1.Canonical := h.of_mem rfl
  exact .foldl (fun _ _ h2 => .onFabric h2) (.onFabric h1)

theorem takeOver (h : s.Canonical) : s.takeOver.Canonical :=
  .foldl (fun _ _ h1 => .send h1) (.onFabric (.foldl (fun _ _ h1 => .sendNumber h1) (.onFabric h)))

theorem loseChip {chip : Nat} (h : s.Canonical) : (s.loseChip chip).Canonical :=
  .foldl (fun _ _ h1 => .refuseKey h1) (.onFabric (.onFabric (.foldl (fun _ _ h1 => .nullify h1) (.onFabric h))))

theorem requestAgain {chip p : Nat} {x : CollOp} (h : s.Canonical) : (s.requestAgain chip p x).Canonical := by
  unfold State.requestAgain
  split
  · exact .send h
  · exact h

/-! ### Boot (Sys2Proof/Machine/Boot.lean) -/

theorem reserveLeaf {flashOk : Bool} (h : s.Canonical) : (s.reserveLeaf flashOk).1.Canonical := by
  unfold State.reserveLeaf
  split
  · exact h
  · split <;> exact h

/-! ### Due (Sys2Proof/Machine/Due.lean) -/

theorem spent (h : s.Canonical) : s.spent.Canonical := .onCur h

theorem serviceTick {r : Nat} {ran : Bool} (h : s.Canonical) : (s.serviceTick r ran).Canonical := .setSvc h

theorem meetAll {p : Nat} (h : s.Canonical) : (s.meetAll p).Canonical := by
  unfold State.meetAll
  dsimp only
  refine .foldl (fun _ _ h1 => ?_) h
  split
  · split
    · exact .foldl (fun _ _ h4 => .onCore h4) h1
    · exact h1
  · exact h1

theorem beginBeat {p : Nat} (h : s.Canonical) : (s.beginBeat p).Canonical := by
  unfold State.beginBeat
  refine .onPart ?_
  split
  · exact .foldl (fun _ _ h3 => .onCore h3) (.foldl (fun _ _ h3 => .onCore h3) (.meetAll h))
  · exact .foldl (fun _ _ h3 => .onCore h3) (.meetAll h)

theorem slips {p : Nat} (h : s.Canonical) : (s.slips p).Canonical := by
  unfold State.slips
  dsimp only
  split
  · refine .foldl (fun _ _ h2 => ?_) h
    split
    · refine .foldl (fun _ _ h4 => ?_) ?_
      · split
        · exact State.raiseAt_canonical _ _ _ _ _ _ h4
        · exact h4
      · split
        · exact State.raiseAt_canonical _ _ _ _ _ _ h2
        · exact h2
    · split
      · exact State.raiseAt_canonical _ _ _ _ _ _ h2
      · exact h2
  · exact h

theorem lateEarly {p : Nat} (h : s.Canonical) : (s.lateEarly p).Canonical :=
  .foldl (fun _ _ h1 => .foldl (fun _ _ h2 => .earlyHitAt h2) h1) h

theorem cutColls {p : Nat} (h : s.Canonical) : (s.cutColls p).Canonical := by
  unfold State.cutColls
  dsimp only
  refine .foldl (fun _ _ h1 => ?_) h
  split
  · exact h1
  · exact .foldl (fun _ _ h3 => .event h3) (.onCore h1)

theorem endBeat {p : Nat} (h : s.Canonical) : (s.endBeat p).Canonical :=
  .onPart (.foldl (fun _ _ h1 => .onCore h1) (.dropIssued h))

theorem droopBeat {counts : Bool} (h : s.Canonical) : (s.droopBeat counts).Canonical := by
  unfold State.droopBeat
  dsimp only
  split
  · split <;> exact h
  · exact h

theorem tick (h : s.Canonical) : s.tick.Canonical := by
  unfold State.tick
  show Mem.wf _ = true
  exact State.Canonical.droopBeat (.foldl (fun _ _ h2 => .endBeat h2) h)

end State.Canonical

/-! ## The meanings of the instructions -/

variable {s t : State} {k : State → Out}

/-! ### Ops (Sys2Proof/Machine/Ops.lean) -/

theorem guarded_canonical {bad : State → Option State} {eff : State → State} (hbad : ∀ t ∈ bad s, t.Canonical)
    (heff : (eff s).Canonical) : Out.Canonical (guarded bad eff s) := by
  unfold guarded
  split
  · next t ht => exact hbad t ht
  · exact heff

theorem onCore_canonical {svc : State → State} (hsvc : (svc s).Canonical) (hk : Out.Canonical (k s)) :
    Out.Canonical (Machine.onCore svc k s) := by
  unfold Machine.onCore
  split
  · exact hsvc.retire
  · exact hk

theorem serviceOnly_canonical (h : s.Canonical) (hk : Out.Canonical (k s)) : Out.Canonical (serviceOnly k s) := by
  unfold serviceOnly
  split
  · exact hk
  · exact State.illegal_canonical h

/-! ### Operands (Sys2Proof/Machine/Operands.lean) -/

theorem physical_canonical {sp : Space} {ea : Nat} (hk : Out.Canonical (k s)) : Out.Canonical (physical sp ea k s) := by
  unfold physical
  split
  · trivial
  · exact hk

theorem reach_canonical {sp : Space} {svc : State → State} (hsvc : (svc s).Canonical) (hk : Out.Canonical (k s)) :
    Out.Canonical (reach sp svc k s) := by
  unfold reach
  split
  · exact hk
  · exact onCore_canonical hsvc hk

theorem loadWord_canonical {sp : Space} {z : Nat} {signed : Bool} {d : BitVec 5} {regs : List (BitVec 5)} {ea : Nat}
    {cls : BitVec 4} (h : s.Canonical) : Out.Canonical (loadWord sp z signed d regs ea cls s) := by
  unfold loadWord
  split
  · exact State.Canonical.addrFault h _ ‹_›
  · refine reach_canonical ?_ ?_
    · exact .giveOpen h
    · refine physical_canonical ?_
      exact .retire (.emit h)

theorem storeWord_canonical {sp : Space} {z : Nat} {v : BitVec 5} {regs : List (BitVec 5)} {ea : Nat} {cls : BitVec 4}
    (h : s.Canonical) : Out.Canonical (storeWord sp z v regs ea cls s) := by
  unfold storeWord
  split
  · exact State.Canonical.memBad h _ ‹_›
  · refine reach_canonical ?_ ?_
    · exact h
    · refine physical_canonical ?_
      exact .retire (.emit (.note h))

theorem atomicWord_canonical {sp : Space} {z : Nat} {fn : AtomFn} {d a b : BitVec 5} {cls : BitVec 4}
    (h : s.Canonical) : Out.Canonical (atomicWord sp z fn d a b cls s) := by
  unfold atomicWord
  dsimp only
  split
  · exact State.Canonical.addrFault h _ ‹_›
  · refine reach_canonical ?_ ?_
    · exact .giveOpen h
    · refine physical_canonical ?_
      exact .retire (.emit (.note h))

/-! ### Control (Sys2Proof/Machine/Control.lean) -/

theorem placed_canonical {ker mac : Bool}
    (h : s.Canonical) (hk : Out.Canonical (k s)) : Out.Canonical (placed ker mac k s) := by
  unfold placed
  split
  · exact State.illegal_canonical h
  · exact hk

/-- Where a judgement answers a fault, that is the answer. -/
theorem judged_canonical {bad : Option State} {o : Out} (hbad : ∀ t ∈ bad, t.Canonical) (ho : Out.Canonical o) :
    Out.Canonical (match (generalizing := false) bad with | some t => .next t | none => o) := by
  split
  · exact hbad _ rfl
  · exact ho

theorem windowed_canonical (h : s.Canonical) (hk : Out.Canonical (k s)) : Out.Canonical (windowed k s) := by
  unfold windowed
  split
  · split
    · exact State.raise_canonical _ _ _ h
    · exact hk
  · exact hk

theorem execAnchor_canonical (h : s.Canonical) : Out.Canonical (execAnchor s) := by
  unfold execAnchor
  refine placed_canonical h ?_
  refine windowed_canonical h ?_
  exact .retire h

theorem execRendez_canonical {g : BitVec 3} (h : s.Canonical) : Out.Canonical (execRendez g s) := by
  unfold execRendez
  dsimp only
  refine placed_canonical h ?_
  refine windowed_canonical h ?_
  split
  · exact .setSvc h
  · split
    · exact State.raise_canonical _ _ _ h
    · split
      · exact State.raiseAt_canonical _ _ _ _ _ _ (.onCur (.retire h))
      · exact .onCur (.retire h)

theorem execIdle_canonical {g : BitVec 3} {m : BitVec 18} (h : s.Canonical) : Out.Canonical (execIdle g m s) :=
  .retire h

theorem headerRead_canonical {e : Nat} (h : s.Canonical) (hk : ∀ s, s.Canonical → Out.Canonical (k s)) :
    Out.Canonical (headerRead e k s) := by
  unfold headerRead
  split
  · exact State.raise_canonical _ _ _ h
  · exact hk _ h.onCur
  · exact hk _ h

theorem execMcall_canonical {g : BitVec 3} {e p q : BitVec 6} {r : BitVec 5}
    (h : s.Canonical) : Out.Canonical (execMcall g e p q r s) := by
  unfold execMcall
  dsimp only
  refine placed_canonical h ?_
  refine headerRead_canonical h fun s hs => ?_
  split
  · refine windowed_canonical hs ?_
    exact .onCur hs
  · exact State.illegal_canonical hs

theorem branch_canonical {taken : Bool} {o : BitVec 13} (h : s.Canonical) : Out.Canonical (branch taken o s) := by
  unfold branch
  refine placed_canonical h ?_
  split
  · exact .jump h
  · exact .retire h

theorem execJmp_canonical {g : BitVec 3} {i : BitVec 18} (h : s.Canonical) : Out.Canonical (execJmp g i s) := by
  unfold execJmp
  refine placed_canonical h ?_
  exact .jump h

theorem execCall_canonical {g : BitVec 3} {d : BitVec 5} {i : BitVec 18}
    (h : s.Canonical) : Out.Canonical (execCall g d i s) := by
  unfold execCall
  refine placed_canonical h ?_
  exact .jump (.giveS h)

theorem execJr_canonical {g : BitVec 3} {a : BitVec 5} (h : s.Canonical) : Out.Canonical (execJr g a s) := by
  unfold execJr
  refine placed_canonical h ?_
  exact .jump h

theorem execBrq_canonical {g : BitVec 3} {a b : BitVec 5} {z : BitVec 1} {j : BitVec 12}
    (h : s.Canonical) : Out.Canonical (execBrq g a b z j s) := by
  unfold execBrq
  dsimp only
  refine placed_canonical h ?_
  split
  · exact State.illegal_canonical h
  · split
    · exact State.raise_canonical _ _ _ h
    · split
      · split
        · exact .jump h
        · exact .retire h
      · split
        · exact .jump h
        · exact .retire h

theorem kloopWord_canonical {kn len trip : Nat} (h : s.Canonical) : Out.Canonical (kloopWord kn len trip s) := by
  unfold kloopWord
  dsimp only
  refine placed_canonical h ?_
  split
  · exact State.illegal_canonical h
  · split <;> exact .onCur h

theorem execKloopReg_canonical {g : BitVec 3} {k : BitVec 2} {l r : BitVec 5}
    (h : s.Canonical) : Out.Canonical (execKloopReg g k l r s) := by
  unfold execKloopReg
  split
  · exact State.illegal_canonical h
  · exact kloopWord_canonical h

theorem execCfence_canonical {g : BitVec 3} {fs fv fc : BitVec 1} {m : BitVec 16}
    (h : s.Canonical) : Out.Canonical (execCfence g fs fv fc m s) := by
  unfold execCfence
  show State.Canonical _
  split
  · exact .retire h
  · exact .retire (.onCur h)

theorem execBelay_canonical {g : BitVec 3} (h : s.Canonical) : Out.Canonical (execBelay g s) := by
  unfold execBelay
  dsimp only
  refine placed_canonical h ?_
  split
  · exact .onCur (.retire h)
  · exact .retire h

theorem execResync_canonical {g : BitVec 3} {a : BitVec 5} {m : BitVec 4}
    (h : s.Canonical) : Out.Canonical (execResync g a m s) := by
  unfold execResync
  dsimp only
  refine placed_canonical h ?_
  split
  · exact State.raise_canonical _ _ _ h
  · exact .onCur (.retire h)

theorem gearWord_canonical {low : Bool} (h : s.Canonical) : Out.Canonical (gearWord low s) := by
  unfold gearWord
  refine placed_canonical h ?_
  split
  · exact State.raise_canonical _ _ _ h
  · refine onCore_canonical ?_ ?_
    · exact h
    · exact .onCur (.retire h)

theorem execCommit_canonical {g : BitVec 3} (h : s.Canonical) : Out.Canonical (execCommit g s) := by
  unfold execCommit
  refine onCore_canonical ?_ ?_
  · exact h
  · exact .retire (.onPart h)

theorem execRdctr_canonical {g : BitVec 3} {d : BitVec 5} {sel : BitVec 8}
    (h : s.Canonical) : Out.Canonical (execRdctr g d sel s) := by
  unfold execRdctr
  split
  · exact .retire (.giveOpen h)
  · exact .retire (.giveS h)

theorem execStat_canonical {g : BitVec 3} {d a : BitVec 5} (h : s.Canonical) : Out.Canonical (execStat g d a s) := by
  unfold execStat
  refine onCore_canonical ?_ ?_
  · exact .giveOpen h
  · exact .retire (.emit (.giveS h))

theorem execXpre_canonical {g : BitVec 3} {a : BitVec 5} {z : BitVec 1}
    (h : s.Canonical) : Out.Canonical (execXpre g a z s) := by
  unfold execXpre
  dsimp only
  split
  · exact .retire h
  · split
    · exact .retire (.emit h)
    · exact .retire h

theorem stageWord_canonical {sid : Nat} {op : StageOp} (h : s.Canonical) : Out.Canonical (stageWord sid op s) := by
  unfold stageWord
  split
  · exact State.illegal_canonical h
  · refine onCore_canonical ?_ ?_
    · exact h
    · split
      · exact State.raise_canonical _ _ _ h
      · exact .retire (.onPart h)

theorem execXstep_canonical {g : BitVec 3} {p : BitVec 2} (h : s.Canonical) : Out.Canonical (execXstep g p s) := by
  unfold execXstep
  refine onCore_canonical ?_ ?_
  · exact h
  · exact .retire (.onPart h)

theorem execPosq_canonical {g : BitVec 3} {d a : BitVec 5} {sel : BitVec 2}
    (h : s.Canonical) : Out.Canonical (execPosq g d a sel s) := by
  unfold execPosq
  refine onCore_canonical ?_ ?_
  · exact .giveOpen h
  · exact .retire (.giveS h)

theorem execWrsys_canonical {g : BitVec 3} {a : BitVec 5} {n : BitVec 8}
    (h : s.Canonical) : Out.Canonical (execWrsys g a n s) := by
  unfold execWrsys
  refine serviceOnly_canonical h ?_
  exact .retire (.emit h)

theorem execXlatw_canonical {g : BitVec 3} {a i : BitVec 5}
    (h : s.Canonical) : Out.Canonical (execXlatw g a i s) := by
  unfold execXlatw
  dsimp only
  refine serviceOnly_canonical h ?_
  split
  · exact State.illegal_canonical h
  · exact .retire (.emit h)

theorem execXlati_canonical {g : BitVec 3} {a : BitVec 5} {l : BitVec 1} {i : BitVec 5}
    (h : s.Canonical) : Out.Canonical (execXlati g a l i s) := by
  unfold execXlati
  refine serviceOnly_canonical h ?_
  exact .retire (.emit h)

theorem execHoldx_canonical {g : BitVec 3} {c : BitVec 2} (h : s.Canonical) : Out.Canonical (execHoldx g c s) := by
  unfold execHoldx
  refine serviceOnly_canonical h ?_
  exact .retire (.onPart h)

theorem execRdsys_canonical {g : BitVec 3} {d : BitVec 5} {n : BitVec 8}
    (h : s.Canonical) : Out.Canonical (execRdsys g d n s) := by
  unfold execRdsys
  refine serviceOnly_canonical h ?_
  exact .retire (.giveS h)

/-! ### Rows (Sys2Proof/Machine/Rows.lean) -/

theorem rowWord_canonical {types : BitVec 6 → Bool} {lat : Nat} {p : BitVec 4} {z : BitVec 1} {d : BitVec 6}
    {acc : Bool} {reads : Core → List Place} {f : Core → BitVec 6 → List Nat}
    (h : s.Canonical) : Out.Canonical (rowWord types lat p z d acc reads f s) := by
  unfold rowWord
  dsimp only
  split
  · exact State.raise_canonical _ _ _ h
  · refine windowed_canonical h ?_
    split
    · split
      · exact .retire (.emitRow (.checkRows h))
      · exact .checkRows h
    · split
      · exact .retire (.emitRow (.checkRows h))
      · exact .checkRows h

theorem laneUnary_canonical {types : BitVec 6 → Bool} {lat : Nat} {f : BitVec 6 → Nat → Nat} {p : BitVec 4}
    {z : BitVec 1} {d a : BitVec 6} (h : s.Canonical) : Out.Canonical (laneUnary types lat f p z d a s) :=
  rowWord_canonical h

theorem laneBinary_canonical {types : BitVec 6 → Bool} {lat : Nat} {f : BitVec 6 → Nat → Nat → Nat} {p : BitVec 4}
    {z : BitVec 1} {d a b : BitVec 6} (h : s.Canonical) : Out.Canonical (laneBinary types lat f p z d a b s) :=
  rowWord_canonical h

theorem laneTernary_canonical {types : BitVec 6 → Bool} {lat : Nat} {f : BitVec 6 → Nat → Nat → Nat → Nat}
    {p : BitVec 4} {z : BitVec 1} {d a b : BitVec 6}
    (h : s.Canonical) : Out.Canonical (laneTernary types lat f p z d a b s) :=
  rowWord_canonical h

theorem indexed_canonical {regs : List (BitVec 5)} (h : s.Canonical) (hk : Out.Canonical (k s)) :
    Out.Canonical (indexed regs k s) := by
  refine windowed_canonical h ?_
  split
  · exact State.raise_canonical _ _ _ h
  · exact hk

/-! ### Matrix (Sys2Proof/Machine/Matrix.lean) -/

theorem shapeBad_canonical {q : Nat} (h : s.Canonical) : ∀ t ∈ shapeBad q s, t.Canonical := by
  intro t ht
  unfold shapeBad at ht
  dsimp only at ht
  split at ht
  · obtain rfl := Option.some_inj.mp ht
    exact State.raise_canonical _ _ _ h
  · simp at ht

theorem formatBad_canonical {w : TileWord} (h : s.Canonical) : ∀ t ∈ formatBad w s, t.Canonical := by
  intro t ht
  simp only [formatBad] at ht
  split at ht <;>
    (repeat' split at ht) <;> simp only [Option.mem_def, Option.some.injEq, reduceCtorEq] at ht <;> subst ht <;>
    exact State.raise_canonical _ _ _ h

theorem arrayBad_canonical (h : s.Canonical) : ∀ t ∈ arrayBad s, t.Canonical := by
  intro t ht
  unfold arrayBad at ht
  split at ht
  · obtain rfl := Option.some_inj.mp ht
    exact State.raise_canonical _ _ _ h
  · simp at ht

theorem headBad_canonical {q u : Nat} (h : s.Canonical) : ∀ t ∈ headBad q u s, t.Canonical := by
  intro t ht
  unfold headBad at ht
  dsimp only at ht
  split at ht
  · simp at ht
  · obtain rfl := Option.some_inj.mp ht
    exact State.raise_canonical _ _ _ h

theorem startAcc_canonical {t : TileWord} {bs : List BTile} {rows popB : Nat} {table : Option (Nat × List Byte)}
    (h : s.Canonical) : (startAcc t bs rows popB table s).Canonical := by
  unfold startAcc
  refine .retire ?_
  split
  · refine .emit ?_
    split
    · exact .onCur (.retain (.onCur h))
    · exact .retain (.onCur h)
  · refine .emit ?_
    refine .emit ?_
    split
    · exact .onCur (.retain (.onCur h))
    · exact .retain (.onCur h)

theorem tileWord_canonical {w : TileWord} {rows : Nat} (h : s.Canonical) : Out.Canonical (tileWord w rows s) := by
  refine windowed_canonical h (judged_canonical (.firstOf fun c hc => ?_) ?_)
  · simp only [List.mem_cons, List.not_mem_nil, or_false] at hc
    rcases hc with rfl | rfl | rfl | rfl | rfl | rfl
    · exact shapeBad_canonical h
    · exact shapeBad_canonical h
    · exact formatBad_canonical h
    · exact arrayBad_canonical h
    · exact headBad_canonical h
    · exact headBad_canonical h
  · exact startAcc_canonical h

theorem tableBad_canonical {a : BitVec 5} (h : s.Canonical) : ∀ t ∈ tableBad a s, t.Canonical := h.memBad

theorem groupWord_canonical {c : BitVec 6} {a b : BitVec 3} {k : BitVec 6} {sn : BitVec 5} {p : BitVec 4}
    (h : s.Canonical) :
    Out.Canonical (groupWord c a b k sn p s) := by
  refine windowed_canonical h (judged_canonical (.firstOf fun c hc => ?_) ?_)
  · simp only [List.mem_cons, List.not_mem_nil, or_false] at hc
    rcases hc with rfl | rfl | rfl
    · exact shapeBad_canonical h
    · exact shapeBad_canonical h
    · exact tableBad_canonical h
  · extract_lets ea
    split
    next u bs hu =>
    have h1 : u.Canonical := .of_fst (.readTable h) hu
    extract_lets g rb t
    split
    · exact State.raise_canonical _ _ _ h1
    · split
      · exact State.raise_canonical _ _ _ h1
      · refine judged_canonical (.firstOf fun c hc => ?_) ?_
        · rcases List.mem_append.mp hc with hc | hc
          · simp only [List.mem_cons, List.not_mem_nil, or_false] at hc
            rcases hc with rfl | rfl | rfl
            · exact formatBad_canonical h1
            · exact arrayBad_canonical h1
            · exact headBad_canonical h1
          · obtain ⟨u, -, rfl⟩ := List.mem_map.mp hc
            exact headBad_canonical h1
        · exact startAcc_canonical h1

theorem execRamp_canonical {g : BitVec 3} (h : s.Canonical) : Out.Canonical (execRamp g s) := by
  unfold execRamp
  refine windowed_canonical h ?_
  exact .retire (.onCur (.retainOther h))

theorem execTstart_canonical {g : BitVec 3} (h : s.Canonical) : Out.Canonical (execTstart g s) := by
  unfold execTstart
  refine windowed_canonical h ?_
  exact .retire (.onCur h)

theorem scaleWord_canonical {b : Bool} {sn : BitVec 5} (h : s.Canonical) : Out.Canonical (scaleWord b sn s) := by
  unfold scaleWord
  dsimp only
  refine windowed_canonical h ?_
  split
  · exact State.Canonical.addrFault h _ ‹_›
  · exact .retire (.emit (.retain h))

theorem execFtset_canonical {g : BitVec 3} {e : BitVec 4} {sn : BitVec 5}
    (h : s.Canonical) : Out.Canonical (execFtset g e sn s) := by
  unfold execFtset
  dsimp only
  split
  · refine indexed_canonical h ?_
    exact .retire (.emit (.retainOther h))
  · exact State.illegal_canonical h

theorem execRmode_canonical {g : BitVec 3} {sat : BitVec 1} {m : BitVec 3}
    (h : s.Canonical) : Out.Canonical (execRmode g sat m s) := by
  unfold execRmode
  refine windowed_canonical h ?_
  exact .retire (.emit (.retainOther h))

theorem execBalloc_canonical {g : BitVec 3} {k t : BitVec 6} {o : BitVec 8}
    (h : s.Canonical) : Out.Canonical (execBalloc g k t o s) := by
  unfold execBalloc
  dsimp only
  refine windowed_canonical h ?_
  split
  · exact State.raise_canonical _ _ _ h
  · exact .retire (.emit (.retainOther h))

theorem execBfree_canonical {g : BitVec 3} {k : BitVec 6} (h : s.Canonical) : Out.Canonical (execBfree g k s) := by
  unfold execBfree
  refine windowed_canonical h ?_
  split
  · exact .retire (.emit (.emit (.onCur (.retain h))))
  · exact .retire (.retainOther h)

theorem execBband_canonical {g : BitVec 3} {k : BitVec 6} {o : BitVec 8}
    (h : s.Canonical) : Out.Canonical (execBband g k o s) := by
  unfold execBband
  refine windowed_canonical h ?_
  split
  · exact .retire (.emit (.retainOther h))
  · exact State.raise_canonical _ _ _ h

theorem execMzero_canonical {g : BitVec 3} {k r : BitVec 6}
    (h : s.Canonical) : Out.Canonical (execMzero g k r s) := by
  unfold execMzero
  refine windowed_canonical h ?_
  exact .retire (.emit (.onCur (.retain h)))

theorem ringBad_canonical {a : BitVec 5} (h : s.Canonical) : ∀ t ∈ ringBad a s, t.Canonical := by
  intro t ht
  unfold ringBad at ht
  dsimp only at ht
  split at ht
  · obtain rfl := Option.some_inj.mp ht
    exact State.raise_canonical _ _ _ h
  · split at ht
    · obtain rfl := Option.some_inj.mp ht
      exact State.illegal_canonical h
    · split at ht
      · obtain rfl := Option.some_inj.mp ht
        exact State.raise_canonical _ _ _ h
      · simp at ht

theorem execQinit_canonical {g q : BitVec 3} {sn : BitVec 5}
    (h : s.Canonical) : Out.Canonical (execQinit g q sn s) := by
  unfold execQinit
  refine windowed_canonical h ?_
  refine guarded_canonical (ringBad_canonical h) ?_
  exact .retire (.emit (.retainOther h))

theorem execQskip_canonical {g q : BitVec 3} (h : s.Canonical) : Out.Canonical (execQskip g q s) := by
  unfold execQskip
  refine windowed_canonical h ?_
  split
  · exact State.raise_canonical _ _ _ h
  · exact .retire (.emit (.retainOther h))

/-! ### Copy (Sys2Proof/Machine/Copy.lean) -/

theorem execCpy_canonical {g : BitVec 3} {d a l : BitVec 5} {t : BitVec 8}
    (h : s.Canonical) : Out.Canonical (execCpy g d a l t s) :=
  .copyWord h

theorem execCpya_canonical {g : BitVec 3} {d a l : BitVec 5} {t : BitVec 8}
    (h : s.Canonical) : Out.Canonical (execCpya g d a l t s) := by
  unfold execCpya
  dsimp only
  split
  · exact State.raise_canonical _ _ _ h
  · exact .copyWord h

theorem execCpy2_canonical {g : BitVec 3} {d a l x' : BitVec 5} {t : BitVec 3}
    (h : s.Canonical) : Out.Canonical (execCpy2 g d a l x' t s) :=
  .copyWord h

theorem execCpyq_canonical {g q : BitVec 3} {a l : BitVec 5} {t : BitVec 8}
    (h : s.Canonical) : Out.Canonical (execCpyq g q a l t s) := by
  unfold execCpyq
  dsimp only
  split
  · exact State.raise_canonical _ _ _ h
  · exact .copyWord h

theorem execCpysel_canonical {g : BitVec 3} {d a l : BitVec 5} {t : BitVec 8}
    (h : s.Canonical) : Out.Canonical (execCpysel g d a l t s) := by
  unfold execCpysel
  dsimp only
  split
  · exact State.raise_canonical _ _ _ h
  · exact .copyWord h

theorem execListen_canonical {g : BitVec 3} {d a l : BitVec 5} {t : BitVec 8}
    (h : s.Canonical) : Out.Canonical (execListen g d a l t s) :=
  .copyWord h

theorem execSpeak_canonical {g : BitVec 3} {a l : BitVec 5} {t : BitVec 8}
    (h : s.Canonical) : Out.Canonical (execSpeak g a l t s) :=
  .copyWord h

theorem execSend_canonical {g l : BitVec 3} {r : BitVec 1} {x' : BitVec 3} {k : BitVec 6} {x : BitVec 5}
    (h : s.Canonical) : Out.Canonical (execSend g l r x' k x s) := by
  unfold execSend
  dsimp only
  split
  · exact .retire (.onCur (.onCur h))
  · exact State.raise_canonical _ _ _ h

theorem execRecv_canonical {g l : BitVec 3} {r : BitVec 1} {k : BitVec 6} {x : BitVec 5}
    (h : s.Canonical) : Out.Canonical (execRecv g l r k x s) := by
  unfold execRecv
  dsimp only
  split
  · exact .retire (.onCur (.onCur h))
  · exact State.raise_canonical _ _ _ h

theorem collWord_canonical {fn : Nat} {d a p : BitVec 5} (h : s.Canonical) : Out.Canonical (collWord fn d a p s) := by
  unfold collWord
  dsimp only
  split
  · exact State.raise_canonical _ _ _ h
  · split
    · exact .retire (.send (.onCur (.countOccurrence h)))
    · exact State.raise_canonical _ _ _ h

theorem execCollq_canonical {g : BitVec 3} {d p : BitVec 5} (h : s.Canonical) : Out.Canonical (execCollq g d p s) :=
  .retire (.giveD h)

theorem execDli_canonical {g : BitVec 3} {d : BitVec 5} {n : BitVec 2} {i : BitVec 16}
    (h : s.Canonical) : Out.Canonical (execDli g d n i s) :=
  .retire (.giveD h)

theorem execDset_canonical {g : BitVec 3} {d a : BitVec 5} (h : s.Canonical) : Out.Canonical (execDset g d a s) :=
  .retire (.giveD h)

theorem execDget_canonical {g : BitVec 3} {d a : BitVec 5} (h : s.Canonical) : Out.Canonical (execDget g d a s) :=
  .retire (.emit h)

theorem cloopWord_canonical {len trip : Nat} (h : s.Canonical) : Out.Canonical (cloopWord len trip s) := by
  unfold cloopWord
  dsimp only
  refine placed_canonical h ?_
  split
  · exact State.illegal_canonical h
  · exact .onCur h

theorem execCloopReg_canonical {g : BitVec 3} {l r : BitVec 5}
    (h : s.Canonical) : Out.Canonical (execCloopReg g l r s) := by
  unfold execCloopReg
  split
  · exact State.illegal_canonical h
  · exact cloopWord_canonical h

/-! ### Xlat (Sys2Proof/Machine/Xlat.lean) -/

theorem execWalkComplete_canonical {k : Nat} (h : s.Canonical) : Out.Canonical (execWalkComplete k s) := by
  unfold execWalkComplete
  split
  · split
    · exact .refusals (.walkEnd h)
    · exact h
  · exact h

theorem execHoldEnd_canonical {p : Nat} (h : s.Canonical) : Out.Canonical (execHoldEnd p s) := by
  unfold execHoldEnd
  split
  · split
    · exact .closeHold h
    · exact h
  · exact h

/-! ### Engine (Sys2Proof/Machine/Engine.lean) -/

theorem execWritePerform_canonical {r c k : Nat} (h : s.Canonical) : Out.Canonical (execWritePerform r c k s) := by
  unfold execWritePerform
  dsimp only
  split
  · split
    · exact .performLatch (.onHome h)
    · exact h
  · exact h

theorem execMmaWriteback_canonical {r c k : Nat} (h : s.Canonical) : Out.Canonical (execMmaWriteback r c k s) := by
  unfold execMmaWriteback
  dsimp only
  split
  · split
    · exact .writeback h
    · exact h
  · exact h

theorem execPitchReplay_canonical {r c : Nat} (h : s.Canonical) : Out.Canonical (execPitchReplay r c s) := by
  unfold execPitchReplay
  dsimp only
  split
  · split
    · exact .setCoreAt h
    · exact .onPart (.dropIssued (.foldl (fun _ _ h3 => State.raiseAt_canonical _ _ _ _ _ _ h3) (.onPart (.closeHold
      (.onCore h)))))
  · exact h

/-! ### Streams (Sys2Proof/Machine/Streams.lean) -/

theorem execEventAck_canonical {c : Nat} (h : s.Canonical) : Out.Canonical (execEventAck c s) := by
  unfold execEventAck
  split <;> exact h

/-! ### Vector (Sys2Proof/Machine/Vector.lean) -/

theorem execVaddc_canonical {g : BitVec 3} {p : BitVec 4} {z : BitVec 1} {d a b : BitVec 6}
    (h : s.Canonical) : Out.Canonical (execVaddc g p z d a b s) := by
  unfold execVaddc
  dsimp only
  split
  · exact State.raise_canonical _ _ _ h
  · refine windowed_canonical h ?_
    split
    · split
      · exact .retire (.emitRow (.emitRow (.checkRows h)))
      · exact .checkRows h
    · split
      · exact .retire (.emitRow (.emitRow (.checkRows h)))
      · exact .checkRows h

theorem special_canonical {f : FVal → FVal} {p : BitVec 4} {z : BitVec 1} {d a : BitVec 6}
    (h : s.Canonical) : Out.Canonical (special f p z d a s) :=
  laneUnary_canonical h

theorem compareWord_canonical {c : Cond} {p : BitVec 4} {d a b : BitVec 6}
    (h : s.Canonical) : Out.Canonical (compare_ c p d a b s) := by
  unfold compare_
  dsimp only
  refine windowed_canonical h ?_
  split
  · exact .retire (.emitPred (.checkRows h))
  · exact .checkRows h

theorem predWord_canonical {d : BitVec 7} {f : Core → Mask} (h : s.Canonical) : Out.Canonical (predWord d f s) := by
  unfold predWord
  refine windowed_canonical h ?_
  exact .retire (.emitPred h)

theorem execVcvt_canonical {g : BitVec 3} {p : BitVec 4} {z : BitVec 1} {d a : BitVec 6} {t : BitVec 1} {m : BitVec 3}
    (h : s.Canonical) : Out.Canonical (execVcvt g p z d a t m s) := by
  unfold execVcvt
  dsimp only
  refine windowed_canonical h ?_
  split
  · split
    · exact .retire (.emitRow (.checkRows h))
    · exact .checkRows h
  · split
    · exact .retire (.emitRow (.checkRows h))
    · exact .checkRows h

theorem moveBinary_canonical {f : List Nat → List Nat → List Nat} {p : BitVec 4} {z : BitVec 1} {d a b : BitVec 6}
    (h : s.Canonical) : Out.Canonical (moveBinary f p z d a b s) :=
  rowWord_canonical h

theorem moveUnary_canonical {f : List Nat → List Nat} {p : BitVec 4} {z : BitVec 1} {d a : BitVec 6}
    (h : s.Canonical) : Out.Canonical (moveUnary f p z d a s) :=
  rowWord_canonical h

theorem keyWord_canonical {toKey : Bool} {p : BitVec 4} {z : BitVec 1} {d a : BitVec 6}
    (h : s.Canonical) : Out.Canonical (keyWord toKey p z d a s) := by
  unfold keyWord
  dsimp only
  split
  · exact State.raise_canonical _ _ _ h
  · exact rowWord_canonical h

theorem reduce_canonical {f : BitVec 6 → List (Nat × Nat) → List Nat} {p : BitVec 4} {d a : BitVec 6}
    (h : s.Canonical) : Out.Canonical (reduce f p d a s) :=
  rowWord_canonical h

theorem execVrot_canonical {g : BitVec 3} {p : BitVec 4} {z : BitVec 1} {d a : BitVec 6} {i : BitVec 1} {x : BitVec 5}
    (h : s.Canonical) : Out.Canonical (execVrot g p z d a i x s) := by
  unfold execVrot
  refine indexed_canonical h ?_
  exact moveUnary_canonical h

theorem execVslide_canonical {g : BitVec 3} {p : BitVec 4} {z : BitVec 1} {d a : BitVec 6} {i : BitVec 1}
    {x : BitVec 5} (h : s.Canonical) : Out.Canonical (execVslide g p z d a i x s) := by
  unfold execVslide
  refine indexed_canonical h ?_
  exact moveUnary_canonical h

theorem execVextr_canonical {g : BitVec 3} {p : BitVec 4} {z : BitVec 1} {d a : BitVec 6} {i : BitVec 1}
    {x : BitVec 5} (h : s.Canonical) : Out.Canonical (execVextr g p z d a i x s) := by
  unfold execVextr
  refine indexed_canonical h ?_
  exact moveUnary_canonical h

theorem execVinsrt_canonical {g : BitVec 3} {p : BitVec 4} {z : BitVec 1} {d : BitVec 6} {k : BitVec 5}
    {i : BitVec 1} {x : BitVec 5} (h : s.Canonical) : Out.Canonical (execVinsrt g p z d k i x s) := by
  unfold execVinsrt
  refine indexed_canonical h ?_
  exact rowWord_canonical h

theorem prefixWord_canonical {exclusive : Bool} {p : BitVec 4} {z : BitVec 1} {d a : BitVec 6}
    (h : s.Canonical) : Out.Canonical (prefixWord exclusive p z d a s) :=
  rowWord_canonical h

theorem lanesIn_canonical {f : LaneForm} {usable : Nat} {p : BitVec 4} {z : BitVec 1} {d : BitVec 6} {cls : BitVec 4}
    (h : s.Canonical) : Out.Canonical (lanesIn f usable p z d cls s) := by
  unfold lanesIn
  dsimp only
  refine windowed_canonical h ?_
  split
  · split
    · exact .checkRows h
    · split
      · exact State.raise_canonical _ _ _ (.checkRows h)
      · split
        · exact .retire (.emitRow (.checkRows h))
        · exact .retire (.emit (.onCur (.checkRows h)))
  · split
    · exact .checkRows h
    · split
      · exact State.raise_canonical _ _ _ (.checkRows h)
      · split
        · exact .retire (.emitRow (.checkRows h))
        · exact .retire (.emit (.onCur (.checkRows h)))

theorem lanesOut_canonical {f : LaneForm} {perf : Nat} {p : BitVec 4} {d : BitVec 6} {cls : BitVec 4}
    (h : s.Canonical) : Out.Canonical (lanesOut f perf p d cls s) := by
  unfold lanesOut
  dsimp only
  refine windowed_canonical h ?_
  split
  · exact .checkRows h
  · split
    · exact State.raise_canonical _ _ _ (.checkRows h)
    · split
      · exact .retire (.checkRows h)
      · split
        · exact State.raise_canonical _ _ _ (.checkRows h)
        · exact .retire (.emit (.foldl (fun _ _ h6 => .note h6) (.checkRows h)))

theorem execVbindV_canonical {g : BitVec 3} {k : BitVec 6} (h : s.Canonical) : Out.Canonical (execVbindV g k s) := by
  unfold execVbindV
  refine windowed_canonical h ?_
  exact .retire (.emit h)

theorem execVbindW_canonical {g : BitVec 3} {k : BitVec 6} (h : s.Canonical) : Out.Canonical (execVbindW g k s) := by
  unfold execVbindW
  refine windowed_canonical h ?_
  exact .retire (.emit h)

theorem execVbindMap_canonical {g m : BitVec 3} (h : s.Canonical) : Out.Canonical (execVbindMap g m s) := by
  unfold execVbindMap
  refine windowed_canonical h ?_
  exact .retire (.emit h)

theorem execProt_canonical {g m : BitVec 3} (h : s.Canonical) : Out.Canonical (execProt g m s) := by
  unfold execProt
  refine windowed_canonical h ?_
  split
  · exact State.raise_canonical _ _ _ h
  · exact .retire (.emit h)

theorem mloopWord_canonical {ii stages len n : Nat}
    (h : s.Canonical) : Out.Canonical (mloopWord ii stages len n s) := by
  unfold mloopWord
  dsimp only
  refine placed_canonical h ?_
  refine windowed_canonical h ?_
  split
  · exact State.illegal_canonical h
  · split
    · split
      · exact State.raise_canonical _ _ _ h
      · exact .onCur h
    · split
      · exact State.raise_canonical _ _ _ h
      · exact .onCur h

/-! ### Transfer (Sys2Proof/Machine/Transfer.lean) -/

theorem execCopyStart_canonical {r c k : Nat} (h : s.Canonical) : Out.Canonical (execCopyStart r c k s) := by
  unfold execCopyStart
  dsimp only
  split
  · split
    · exact .startCopy h
    · exact h
  · exact h

theorem execCopyChunk_canonical {r c k : Nat} (h : s.Canonical) : Out.Canonical (execCopyChunk r c k s) := by
  unfold execCopyChunk
  dsimp only
  split
  · split
    · split
      · exact .sampleCopy h
      · exact h
    · split
      · exact .performCopy h
      · exact h
  · exact h

theorem execRopeFlitArrival_canonical {p k : Nat} (h : s.Canonical) : Out.Canonical (execRopeFlitArrival p k s) := by
  unfold execRopeFlitArrival
  dsimp only
  split
  · split
    · exact .arrive (.onPart h)
    · exact h
  · exact h

theorem execCollResultPerform_canonical {r c k : Nat}
    (h : s.Canonical) : Out.Canonical (execCollResultPerform r c k s) := by
  unfold execCollResultPerform
  dsimp only
  split
  · split
    · exact .performColl h
    · exact h
  · exact h

/-! ### Commit (Sys2Proof/Machine/Commit.lean) -/

theorem execStepCommit_canonical {p : Nat} (h : s.Canonical) : Out.Canonical (execStepCommit p s) := by
  unfold execStepCommit
  dsimp only
  split
  · exact .countNull (.onPart (.commit h))
  · exact h

/-! ### Image (Sys2Proof/Machine/Image.lean) -/

theorem execJobLoadComplete_canonical {p i : Nat} (h : s.Canonical) : Out.Canonical (execJobLoadComplete p i s) := by
  unfold execJobLoadComplete
  dsimp only
  split
  · split
    · exact .onPart (.onRes (.foldl (fun _ _ h3 => .onCore h3) h))
    · exact h
  · exact h

/-! ### Grid (Sys2Proof/Machine/Grid.lean) -/

theorem execSlotStart_canonical {p : Nat} (h : s.Canonical) : Out.Canonical (execSlotStart p s) := by
  unfold execSlotStart
  dsimp only
  split
  · show State.Canonical _
    split
    · exact .enterNext h
    · exact .slotDuties (.enterNext h)
  · exact h

theorem execDeadline_canonical {p : Nat} (h : s.Canonical) : Out.Canonical (execDeadline p s) := by
  unfold execDeadline
  dsimp only
  split
  · show State.Canonical _
    split
    · exact .abandon (.setPart h)
    · exact .stopHold (.setPart h)
  · exact h

theorem execTurn_canonical {p : Nat} (h : s.Canonical) : Out.Canonical (execTurn p s) := by
  unfold execTurn
  dsimp only
  split
  · split
    · exact .turnBegin h
    · exact h
  · split
    · exact h
    · split
      · exact .turnNext h
      · exact .turnBind h
  · exact h

theorem execRelease_canonical {p : Nat} (h : s.Canonical) : Out.Canonical (execRelease p s) := by
  unfold execRelease
  dsimp only
  split
  · exact .release h
  · exact h

theorem execWatchdog_canonical {p : Nat} (h : s.Canonical) : Out.Canonical (execWatchdog p s) := by
  unfold execWatchdog
  dsimp only
  split
  · exact State.abandonBy_canonical _ _ _ (.stopHold h)
  · exact h

/-! ### Host (Sys2Proof/Machine/Host.lean) -/

theorem fromHost_canonical {x : Packet} {f : State → State} (h : s.Canonical) (hf : (f s).Canonical) :
    Out.Canonical (fromHost x f s) := by
  unfold fromHost
  show State.Canonical _
  split
  · exact hf
  · exact h.discard

theorem execNotifyWrite_canonical {pkt : Packet} {c : Nat} {v : W64}
    (h : s.Canonical) : Out.Canonical (execNotifyWrite pkt c v s) := by
  unfold execNotifyWrite
  refine fromHost_canonical h ?_
  split
  · exact .notifyTail (.notifyCons h)
  · exact h

theorem execSystemRegisterWrite_canonical {pkt : Packet} {p n : Nat} {v : W64}
    (h : s.Canonical) : Out.Canonical (execSystemRegisterWrite pkt p n v s) := by
  unfold execSystemRegisterWrite
  refine fromHost_canonical h ?_
  split
  · exact .writeSys h
  · exact h

theorem execResmapWrite_canonical {pkt : Packet} {p i : Nat} {v : W64}
    (h : s.Canonical) : Out.Canonical (execResmapWrite pkt p i v s) := by
  unfold execResmapWrite
  refine fromHost_canonical h ?_
  split
  · exact .writeSys h
  · exact h

theorem execHostWrite_canonical {pkt : Packet} {addr : Nat} {bs : List Byte}
    (h : s.Canonical) : Out.Canonical (execHostWrite pkt addr bs s) := by
  unfold execHostWrite
  refine fromHost_canonical h ?_
  exact .putOutside h

theorem command_canonical {c : Nat} {f : Nat → Nat → State → State} (h : s.Canonical)
    (hf : ∀ p i s, s.Canonical → (f p i s).Canonical) : Out.Canonical (command c f s) := by
  unfold command
  split
  · exact hf _ _ _ (.onPart (.onRes h))
  · exact h

theorem onStream_canonical {c sid : Nat} {f : Nat → Nat → State → State} (h : s.Canonical)
    (hf : ∀ p i s, s.Canonical → (f p i s).Canonical) : Out.Canonical (onStream c sid f s) := by
  refine command_canonical h fun p i s h1 => ?_
  split
  · exact h1.badCommand
  · split
    · exact hf _ _ _ h1
    · exact h1.event

theorem execActivate_canonical {c image : Nat} (h : s.Canonical) : Out.Canonical (execActivate c image s) := by
  unfold execActivate
  dsimp only
  refine command_canonical h fun p i s hs => ?_
  split
  · exact .event hs
  · refine .startLoad ?_
    refine .onRes ?_
    split
    · exact .meetRelease (.setState (.setDesc hs))
    · exact .setDesc hs
    · exact .onRes (.foldl (fun _ _ h6 => .clearEntries h6) (.meetRelease (.setState (.setDesc hs))))

theorem execDeactivate_canonical {c : Nat} (h : s.Canonical) : Out.Canonical (execDeactivate c s) := by
  unfold execDeactivate
  refine command_canonical h fun p i s hs => ?_
  exact .foldl (fun _ _ h2 => .clearEntries h2) (.setState hs)

theorem execStreamAdd_canonical {c sid llog : Nat} {prep : Bool} {lring lwp spk play : Nat}
    (h : s.Canonical) : Out.Canonical (execStreamAdd c sid llog prep lring lwp spk play s) := by
  unfold execStreamAdd
  refine command_canonical h fun p i s hs => ?_
  split
  · exact .badCommand hs
  · split
    · exact .badCommand hs
    · split
      · exact .setSt (.setChannels hs)
      · exact .onRes (.publishWord (.foldl (fun _ _ h5 => .setSt h5) (.setChannels hs)))

theorem execStreamReset_canonical {c sid : Nat} (h : s.Canonical) : Out.Canonical (execStreamReset c sid s) := by
  unfold execStreamReset
  refine onStream_canonical h fun p i s hs => ?_
  exact .resetStream hs

theorem execStreamEnd_canonical {c sid : Nat} (h : s.Canonical) : Out.Canonical (execStreamEnd c sid s) := by
  unfold execStreamEnd
  refine onStream_canonical h fun p i s hs => ?_
  exact .removeTree hs

theorem execGridSet_canonical {c epoch table count : Nat}
    (h : s.Canonical) : Out.Canonical (execGridSet c epoch table count s) := by
  unfold execGridSet
  dsimp only
  refine command_canonical h fun p i s hs => ?_
  split
  · exact .onPart hs
  · exact .badCommand hs

theorem execFillSet_canonical {c count : Nat} {codes : List Nat}
    (h : s.Canonical) : Out.Canonical (execFillSet c count codes s) := by
  unfold execFillSet
  refine command_canonical h fun p i s hs => ?_
  exact .putDev (.setDesc hs)

theorem execKeySet_canonical {c sid : Nat} {key : W64}
    (h : s.Canonical) : Out.Canonical (execKeySet c sid key s) := by
  unfold execKeySet
  refine onStream_canonical h fun p i s hs => ?_
  exact .setSt hs

/-! ### Preempt (Sys2Proof/Machine/Preempt.lean) -/

theorem execBreak_canonical {g : BitVec 3} {code : BitVec 8}
    (h : s.Canonical) : Out.Canonical (execBreak g code s) := by
  unfold execBreak
  split
  · exact .freezeAt (.breakRecord h)
  · exact .retire h

theorem execHalt_canonical {p : Nat} (h : s.Canonical) : Out.Canonical (execHalt p s) := .onPart h

theorem execUrgentPreemption_canonical {p : Nat} (h : s.Canonical) : Out.Canonical (execUrgentPreemption p s) := by
  unfold execUrgentPreemption
  split
  · exact .onPart (.freezeAt (.onPart h))
  · exact h

theorem execUrgentStep_canonical {p : Nat} (h : s.Canonical) : Out.Canonical (execUrgentStep p s) := by
  unfold execUrgentStep
  dsimp only
  split
  · split
    · exact .onPart h
    · exact h
  · exact h

theorem execResume_canonical {g : BitVec 3} {a : BitVec 5} (h : s.Canonical) : Out.Canonical (execResume g a s) := by
  unfold execResume
  dsimp only
  refine serviceOnly_canonical h ?_
  split
  · exact State.raise_canonical _ _ _ h
  · split
    · exact .retire h
    · exact .setSvc (.retire h)

theorem execRun_canonical {p : Nat} (h : s.Canonical) : Out.Canonical (execRun p s) := by
  unfold execRun
  dsimp only
  split
  · split
    · exact .enterAll (.onPart h)
    · exact h
  · exact h

theorem execFreeze_canonical (h : s.Canonical) : Out.Canonical (execFreeze s) := h

theorem execThaw_canonical (h : s.Canonical) : Out.Canonical (execThaw s) := by
  unfold execThaw
  split
  · show State.Canonical _
    split
    · exact h
    · exact .thawAll h
  · exact h

/-! ### Fabric (Sys2Proof/Machine/Fabric.lean) -/

theorem execPtpMessage_canonical {domain : Nat} {peerToPeer : Bool} {stepNs : Int}
    (h : s.Canonical) : Out.Canonical (execPtpMessage domain peerToPeer stepNs s) := by
  unfold execPtpMessage
  split <;> exact h

theorem execStepMark_canonical {p gen frame time : Nat}
    (h : s.Canonical) : Out.Canonical (execStepMark p gen frame time s) := by
  unfold execStepMark
  dsimp only
  split
  · split
    · exact .setPart h
    · exact .onPart h
  · exact h

theorem execStepMarkTimeout_canonical {p : Nat} (h : s.Canonical) : Out.Canonical (execStepMarkTimeout p s) := by
  unfold execStepMarkTimeout
  dsimp only
  split
  · exact .onPart h
  · exact h

theorem execSequencerRequest_canonical {chip part : Nat} {key : CollKey} {ask : CollAsk}
    (h : s.Canonical) : Out.Canonical (execSequencerRequest chip part key ask s) := by
  unfold execSequencerRequest
  dsimp only
  split
  · exact h
  · split
    · show State.Canonical _
      split
      · exact h
      · exact .nullify h
    · split
      · exact .onFabric h
      · split
        · exact .refuseKey h
        · split
          · exact .assign h
          · exact .onFabric h

theorem execStandbyAck_canonical {number : Nat} (h : s.Canonical) : Out.Canonical (execStandbyAck number s) := by
  unfold execStandbyAck
  split
  · exact .sendNumber (.onFabric h)
  · exact h

theorem execDeferredNumbering_canonical (h : s.Canonical) : Out.Canonical (execDeferredNumbering s) := by
  unfold execDeferredNumbering
  dsimp only
  split
  · split
    · show State.Canonical _
      split
      · exact .assign (.onFabric h)
      · exact .nullify (.assign (.onFabric h))
    · exact .assign (.onFabric h)
  · exact h

theorem execCollWithdrawal_canonical {chip : Nat} {key : CollKey} {sampled : Bool}
    (h : s.Canonical) : Out.Canonical (execCollWithdrawal chip key sampled s) := by
  unfold execCollWithdrawal
  split
  · exact h
  · split
    · show State.Canonical _
      split
      · exact h
      · exact .nullify h
    · exact .onFabric h

theorem execStartNumber_canonical {number gen : Nat} {key : CollKey} {note : NumberNote}
    (h : s.Canonical) : Out.Canonical (execStartNumber number gen key note s) := by
  unfold execStartNumber
  split
  · exact .send (.keepCopy h)
  · split
    · exact .onKey h
    · split
      · exact .renewNumber h
      · split
        · exact h
        · exact .takeNumber h

theorem execCollectiveStart_canonical {r c k : Nat}
    (h : s.Canonical) : Out.Canonical (execCollectiveStart r c k s) := by
  unfold execCollectiveStart
  dsimp only
  split
  · split
    · split
      · exact .contribute (.onFabric h)
      · exact h
    · exact h
  · split
    · split
      · exact .contribute (.onCore h)
      · exact h
    · exact h

theorem execCollectiveData_canonical {key : CollKey} {rank : Nat} {bs : List Byte} {ps : List Nat}
    (h : s.Canonical) : Out.Canonical (execCollectiveData key rank bs ps s) :=
  .land h

theorem execHeartbeat_canonical {chip gen : Nat} {news : HeartbeatNews}
    (h : s.Canonical) : Out.Canonical (execHeartbeat chip gen news s) := by
  unfold execHeartbeat
  split
  · exact .beatOut h
  · exact .onFabric h

theorem execHeartbeatTimeout_canonical {chip : Nat}
    (h : s.Canonical) : Out.Canonical (execHeartbeatTimeout chip s) := by
  unfold execHeartbeatTimeout
  split
  · show State.Canonical _
    split
    · exact .loseChip h
    · exact .takeOver h
  · exact h

theorem execSequencerAnnounce_canonical {chip gen : Nat}
    (h : s.Canonical) : Out.Canonical (execSequencerAnnounce chip gen s) :=
  .foldl (fun _ _ h1 => .requestAgain h1) (.foldl (fun _ _ h1 => .foldl (fun _ _ h2 => .requestAgain h2) h1)
    (.onFabric h))

/-! ### Boot (Sys2Proof/Machine/Boot.lean) -/

theorem execDroopEpisode_canonical {fs : Nat} (h : s.Canonical) : Out.Canonical (execDroopEpisode fs s) := by
  unfold execDroopEpisode
  split <;> exact h

theorem execDroopEnd_canonical (h : s.Canonical) : Out.Canonical (execDroopEnd s) := h

theorem execTelemetryUpdate_canonical (h : s.Canonical) : Out.Canonical (execTelemetryUpdate s) := by
  unfold execTelemetryUpdate
  extract_lets s1
  have h1 : s1.Canonical := h.of_mem rfl
  split
  · exact State.Canonical.putDev (.foldl (fun _ _ h2 => .putDev h2) h1)
  · exact h1

theorem execResetOrPowerLoss_canonical : Out.Canonical (execResetOrPowerLoss s) := .toReset

theorem execThermalRead_canonical {die0 die1 die2 die3 io : Int}
    (h : s.Canonical) : Out.Canonical (execThermalRead die0 die1 die2 die3 io s) := by
  unfold execThermalRead
  dsimp only
  split
  · split
    · exact .toReset
    · split
      · show State.Canonical _
        split
        · exact h
        · exact .thawAll h
      · exact h
  · split
    · exact h
    · split <;> exact h
  · split
    · exact h
    · split <;> exact h

theorem execTripTimeout_canonical (h : s.Canonical) : Out.Canonical (execTripTimeout s) := by
  unfold execTripTimeout
  split
  · exact .toReset
  · exact h

theorem execPowerGood_canonical {pufOk : Bool} (h : s.Canonical) : Out.Canonical (execPowerGood pufOk s) := by
  unfold execPowerGood
  split <;> exact h

theorem execImageSlotsRead_canonical (h : s.Canonical) : Out.Canonical (execImageSlotsRead s) := by
  unfold execImageSlotsRead
  split
  · split <;> exact h
  · exact h

theorem execConfig_canonical (h : s.Canonical) : Out.Canonical (execConfig s) := by
  unfold execConfig
  split <;> exact h

theorem execTrainComplete_canonical (h : s.Canonical) : Out.Canonical (execTrainComplete s) := by
  unfold execTrainComplete
  split
  · exact .foldl (fun _ _ h2 => .onPart h2) h
  · exact h

theorem execTrainFail_canonical (h : s.Canonical) : Out.Canonical (execTrainFail s) := by
  unfold execTrainFail
  split <;> exact h

theorem execFlashRewrite_canonical {slot : Nat} {bs : List Byte}
    (h : s.Canonical) : Out.Canonical (execFlashRewrite slot bs s) := by
  unfold execFlashRewrite
  split <;> exact h

theorem execAttestationResponse_canonical {flashOk : Bool} (h : s.Canonical) :
    Out.Canonical (execAttestationResponse flashOk s) := by
  unfold execAttestationResponse
  dsimp only
  split
  · split
    · exact h
    · have hput : ∀ {u : State} {a b c : Nat} {xs ys zs : List Byte}, u.Canonical →
          (((u.putDev a xs).putDev b ys).putDev c zs).Canonical := fun hu => .putDev (.putDev (.putDev hu))
      split
      · show Mem.wf _ = true
        dsimp only
        exact hput h
      · split
        · show Mem.wf _ = true
          dsimp only
          exact hput h
        · have h1 :
          (State.reserveLeaf { s with attestDue := false } flashOk).1.Canonical := State.Canonical.reserveLeaf h
          split
          · next u hu =>
            show Mem.wf _ = true
            dsimp only
            exact hput (.of_fst h1 hu)
          · next u hu =>
            show Mem.wf _ = true
            dsimp only
            exact hput (.of_fst h1 hu)
  · exact h

/-! ### Memory (Sys2Proof/Machine/Memory.lean) -/

theorem execLda_canonical {g : BitVec 3} {d a : BitVec 5} {c : BitVec 4} {i : BitVec 9}
    (h : s.Canonical) : Out.Canonical (execLda g d a c i s) := by
  unfold execLda
  dsimp only
  split
  · exact State.Canonical.addrFault h _ ‹_›
  · refine reach_canonical ?_ ?_
    · exact .giveOpen h
    · exact .retire (.emit h)

/-! ### Scalar (Sys2Proof/Machine/Scalar.lean) -/

theorem aluOut_canonical {d : BitVec 5} {v : W64} {lat : Nat} (h : s.Canonical) : Out.Canonical (aluOut d v lat s) :=
  .retire (.giveS h)

theorem aluPred_canonical {d : BitVec 5} {v : W64} {res : BitVec 4} {lat : Nat}
    (h : s.Canonical) : Out.Canonical (aluPred d v res lat s) :=
  .retire (.emitS h)

/-- What an instruction's meaning answers is in canonical form, where its state was. -/
theorem exec_canonical {i : Instr} (h : s.Canonical) : Out.Canonical (exec i s) := by
  unfold exec
  cases i with
  | add | sub | mul | addsh | addi | li | lih => exact aluPred_canonical h
  | and_ | or_ | xor_ | shl | shr | sar | rol | min_ | max_ | minu | maxu | slt | sltu | seq | mulh | mulhu | div
  | divu | rem | remu | sel | clz | ctz | popc | bswap | andi | ori | xori | shli | shri | sari | slti | exts | extu
  | ins => exact aluOut_canonical h
  | ldsB | ldsH | ldsW | ldsD | ldmB | ldmH | ldmW | ldmD | ldsBIndexed | ldsHIndexed | ldsWIndexed | ldsDIndexed
  | ldsBuIndexed | ldsHuIndexed | ldsWuIndexed | ldmBIndexed | ldmHIndexed | ldmWIndexed | ldmDIndexed | ldmBuIndexed
  | ldmHuIndexed | ldmWuIndexed => exact loadWord_canonical h
  | stsB | stsH | stsW | stsD | stmB | stmH | stmW | stmD | stsBIndexed | stsHIndexed | stsWIndexed | stsDIndexed
  | stmBIndexed | stmHIndexed | stmWIndexed | stmDIndexed => exact storeWord_canonical h
  | amosAdd | amosAnd | amosOr | amosXor | amosSwap | amosMin | amosMax | amosMinu | amosMaxu | amosWAdd | amosWAnd
  | amosWOr | amosWXor | amosWSwap | amosWMin | amosWMax | amosWMinu | amosWMaxu | amomAdd | amomAnd | amomOr | amomXor
  | amomSwap | amomMin | amomMax | amomMinu | amomMaxu | amomWAdd | amomWAnd | amomWOr | amomWXor | amomWSwap
  | amomWMin | amomWMax | amomWMinu | amomWMaxu => exact atomicWord_canonical h
  | beq | bne | blt | bge | bltu | bgeu => exact branch_canonical h
  | kloop => exact kloopWord_canonical h
  | gearH | gearL => exact gearWord_canonical h
  | sfork | scancel | scancelT | retract => exact stageWord_canonical h
  | vadd | vsub | vmul | vmin | vmax | vcpysgn | viadd | visub | vimul | vimulh | vimin | vimax | vand | vor | vxor
  | vshl | vshr | vsar => exact laneBinary_canonical h
  | vfma | vfms | vfnma => exact laneTernary_canonical h
  | vabs | vneg | vclass | vclz | vctz | vpopc | vsatnS | vsatnU | vmov => exact laneUnary_canonical h
  | vrcp | vrsq | vsqrt | vexp2 | vlog2 | vsin | vcos | vtanh | vsigm => exact special_canonical h
  | vidx | vsel | vbcast | vhist | vcompact | vzero | pcnt => exact rowWord_canonical h
  | vcmpEq | vcmpNe | vcmpLt | vcmpLe | vcmpUn | vcmpOrd => exact compareWord_canonical h
  | vpack | vshuf => exact moveBinary_canonical h
  | vunpk => exact moveUnary_canonical h
  | vordkey | vkeyord => exact keyWord_canonical h
  | vrsum | vrmax | vrmin | vrargmax | vrargmin => exact reduce_canonical h
  | vprefix | vprefixX => exact prefixWord_canonical h
  | vld | vlds | vgath => exact lanesIn_canonical h
  | vst | vsts | vscat => exact lanesOut_canonical h
  | mloop | mloopReg => exact mloopWord_canonical h
  | pand | por | pxor | pandn | pnot | pmov | pset | pclr | pfirst | plast => exact predWord_canonical h
  | mmaBf16 | mmaFp16 | mmaB8 | mmat => exact tileWord_canonical h
  | mgrpBf16 | mgrpFp16 => exact groupWord_canonical h
  | mscaleA | mscaleB => exact scaleWord_canonical h
  | collArsum | collArmax | collRs | collAg | collBc | collXp => exact collWord_canonical h
  | cloop => exact cloopWord_canonical h
  | anchor => exact execAnchor_canonical h
  | rendez => exact execRendez_canonical h
  | idle => exact execIdle_canonical h
  | mcall => exact execMcall_canonical h
  | lda => exact execLda_canonical h
  | jmp => exact execJmp_canonical h
  | call => exact execCall_canonical h
  | jr => exact execJr_canonical h
  | brq => exact execBrq_canonical h
  | kloopReg => exact execKloopReg_canonical h
  | cfence => exact execCfence_canonical h
  | belay => exact execBelay_canonical h
  | resync => exact execResync_canonical h
  | commit => exact execCommit_canonical h
  | rdctr => exact execRdctr_canonical h
  | stat => exact execStat_canonical h
  | break_ => exact execBreak_canonical h
  | xpre => exact execXpre_canonical h
  | xstep => exact execXstep_canonical h
  | posq => exact execPosq_canonical h
  | rdsys => exact execRdsys_canonical h
  | wrsys => exact execWrsys_canonical h
  | xlatw => exact execXlatw_canonical h
  | xlati => exact execXlati_canonical h
  | resume => exact execResume_canonical h
  | holdx => exact execHoldx_canonical h
  | vaddc => exact execVaddc_canonical h
  | vcvt => exact execVcvt_canonical h
  | vrot => exact execVrot_canonical h
  | vslide => exact execVslide_canonical h
  | vextr => exact execVextr_canonical h
  | vinsrt => exact execVinsrt_canonical h
  | vbindV => exact execVbindV_canonical h
  | vbindW => exact execVbindW_canonical h
  | vbindMap => exact execVbindMap_canonical h
  | prot => exact execProt_canonical h
  | balloc => exact execBalloc_canonical h
  | bfree => exact execBfree_canonical h
  | bband => exact execBband_canonical h
  | qinit => exact execQinit_canonical h
  | qskip => exact execQskip_canonical h
  | rmode => exact execRmode_canonical h
  | ftset => exact execFtset_canonical h
  | ramp => exact execRamp_canonical h
  | tstart => exact execTstart_canonical h
  | mzero => exact execMzero_canonical h
  | cpy => exact execCpy_canonical h
  | cpya => exact execCpya_canonical h
  | cpy2 => exact execCpy2_canonical h
  | cpyq => exact execCpyq_canonical h
  | cpysel => exact execCpysel_canonical h
  | send => exact execSend_canonical h
  | recv => exact execRecv_canonical h
  | collq => exact execCollq_canonical h
  | listen => exact execListen_canonical h
  | speak => exact execSpeak_canonical h
  | dli => exact execDli_canonical h
  | dset => exact execDset_canonical h
  | dget => exact execDget_canonical h
  | cloopReg => exact execCloopReg_canonical h
  | activate => exact execActivate_canonical h
  | deactivate => exact execDeactivate_canonical h
  | streamAdd => exact execStreamAdd_canonical h
  | streamReset => exact execStreamReset_canonical h
  | streamEnd => exact execStreamEnd_canonical h
  | gridSet => exact execGridSet_canonical h
  | fillSet => exact execFillSet_canonical h
  | keySet => exact execKeySet_canonical h
  | notifyWrite => exact execNotifyWrite_canonical h
  | resmapWrite => exact execResmapWrite_canonical h
  | systemRegisterWrite => exact execSystemRegisterWrite_canonical h
  | hostWrite => exact execHostWrite_canonical h
  | slotStart => exact execSlotStart_canonical h
  | turn => exact execTurn_canonical h
  | stepCommit => exact execStepCommit_canonical h
  | deadline => exact execDeadline_canonical h
  | release => exact execRelease_canonical h
  | jobLoadComplete => exact execJobLoadComplete_canonical h
  | eventAck => exact execEventAck_canonical h
  | writePerform => exact execWritePerform_canonical h
  | copyStart => exact execCopyStart_canonical h
  | copyChunk => exact execCopyChunk_canonical h
  | ropeFlitArrival => exact execRopeFlitArrival_canonical h
  | mmaWriteback => exact execMmaWriteback_canonical h
  | collResultPerform => exact execCollResultPerform_canonical h
  | holdEnd => exact execHoldEnd_canonical h
  | walkComplete => exact execWalkComplete_canonical h
  | pitchReplay => exact execPitchReplay_canonical h
  | watchdog => exact execWatchdog_canonical h
  | urgentPreemption => exact execUrgentPreemption_canonical h
  | urgentStep => exact execUrgentStep_canonical h
  | halt => exact execHalt_canonical h
  | run => exact execRun_canonical h
  | freeze => exact execFreeze_canonical h
  | thaw => exact execThaw_canonical h
  | droopEpisode => exact execDroopEpisode_canonical h
  | droopEnd => exact execDroopEnd_canonical h
  | thermalRead => exact execThermalRead_canonical h
  | tripTimeout => exact execTripTimeout_canonical h
  | telemetryUpdate => exact execTelemetryUpdate_canonical h
  | powerGood => exact execPowerGood_canonical h
  | imageSlotsRead => exact execImageSlotsRead_canonical h
  | config => exact execConfig_canonical h
  | trainComplete => exact execTrainComplete_canonical h
  | trainFail => exact execTrainFail_canonical h
  | attestationResponse => exact execAttestationResponse_canonical h
  | ptpMessage => exact execPtpMessage_canonical h
  | stepMark => exact execStepMark_canonical h
  | stepMarkTimeout => exact execStepMarkTimeout_canonical h
  | sequencerRequest => exact execSequencerRequest_canonical h
  | standbyAck => exact execStandbyAck_canonical h
  | deferredNumbering => exact execDeferredNumbering_canonical h
  | startNumber => exact execStartNumber_canonical h
  | collectiveStart => exact execCollectiveStart_canonical h
  | collectiveData => exact execCollectiveData_canonical h
  | collWithdrawal => exact execCollWithdrawal_canonical h
  | heartbeat => exact execHeartbeat_canonical h
  | heartbeatTimeout => exact execHeartbeatTimeout_canonical h
  | sequencerAnnounce => exact execSequencerAnnounce_canonical h
  | resetOrPowerLoss => exact execResetOrPowerLoss_canonical
  | flashRewrite => exact execFlashRewrite_canonical h

/-! ## What is due next, and one step -/

/-- What is due, if anything is, stands in a state in canonical form. -/
def Due.Kept (o : Option Due) : Prop := ∀ d ∈ o, d.st.Canonical

namespace Due.Kept

variable {s : State}

theorem nothing : Kept none := fun _ h => absurd h (Option.not_mem_none _)

theorem one {d : Due} (h : d.st.Canonical) : Kept (some d) := by
  intro e he
  obtain rfl := Option.some_inj.mp he
  exact h

theorem acts (h : s.Canonical) : Kept (Machine.acts s) := one h

theorem runs {i : Instr} (h : s.Canonical) : Kept (Machine.runs i s) := one h

theorem branch {c : Prop} [Decidable c] {x y : Option Due} (hx : Kept x) (hy : Kept y) : Kept (if c then x else y) := by
  split <;> assumption

theorem orElse {x y : Option Due} (hx : Kept x) (hy : Kept y) : Kept (x <|> y) := by
  cases x with
  | none => simpa using hy
  | some d => simpa using hx

theorem firstDue {α : Type} {xs : List α} {f : α → Option Due} (hf : ∀ x, Kept (f x)) : Kept (firstDue xs f) := by
  intro d hd
  obtain ⟨x, -, hx⟩ := List.exists_of_findSome?_eq_some hd
  exact hf x d hx

theorem arrival {a : Arrival} (h : s.Canonical) : Kept (s.arrival a) := by
  unfold State.arrival
  split
  · exact runs h
  · split
    · exact runs h
    · exact acts (.branch h (.discard h))
  · exact acts (.answer h)
  · exact acts (.answer h)
  · exact acts (h.of_mem rfl)
  · split
    · exact runs h
    · exact acts h

theorem inboxDue (h : s.Canonical) : Kept s.inboxDue := by
  unfold State.inboxDue
  extract_lets ok
  split
  · next a rest _ =>
    have h1 : State.Canonical { s with inbox := rest } := h.of_mem rfl
    exact branch (arrival h1) (acts h1)
  · exact nothing

theorem ownDue (h : s.Canonical) : Kept s.ownDue := by
  unfold State.ownDue
  split
  · exact one (h.of_mem rfl)
  · exact nothing

theorem gridDue {p : Nat} (h : s.Canonical) : Kept (s.gridDue p) :=
  branch nothing (branch (runs h) (branch (branch (runs h) (runs h)) nothing))

theorem watchDue {p : Nat} (h : s.Canonical) : Kept (s.watchDue p) := branch (runs h) (branch (runs h) nothing)

theorem collDue (h : s.Canonical) : Kept s.collDue := by
  unfold State.collDue
  split
  · exact acts (.finishKey (.startKey h))
  · split
    · exact runs h
    · refine firstDue fun e => ?_
      split
      · exact runs h
      · exact nothing

theorem thermDue (h : s.Canonical) : Kept s.thermDue := branch (runs (h.of_mem rfl)) nothing

theorem deviceDue (h : s.Canonical) : Kept s.deviceDue := by
  refine branch (runs (h.of_mem rfl)) (branch (runs h) (branch (runs h) ?_))
  split
  · exact runs h
  · exact branch (runs h) (collDue h)

theorem stopDue {p : Nat} (h : s.Canonical) : Kept (s.stopDue p) := by
  refine branch (acts (.settle h)) ?_
  split
  · exact branch (acts (.restart h)) nothing
  · refine branch (acts (.resumeAll h)) (branch (acts (.urgentCut h)) (branch (acts (.urgentEnd h)) ?_))
    split
    · exact branch nothing (branch (branch (acts (.callResume h)) nothing) (branch (runs h) nothing))
    · exact branch (runs h) (branch (firstDue fun _ => branch (runs h) nothing) nothing)
    · exact nothing

end Due.Kept

theorem Due.stands {i : Option Instr} (h : t.Canonical) : ({ st := t, ins := i } : Due).st.Canonical := h

/-- A word that issues meets its fault, or runs in the state that its fetch leaves (R337, R334, R141). -/
theorem State.Canonical.issue (h : s.Canonical) : s.issue.st.Canonical := by
  have h1 : s.spent.Canonical := .onCur h
  unfold State.issue
  extract_lets s1
  split
  · exact Due.stands (State.illegal_canonical h1)
  · split
    split
    · exact Due.stands (State.raise_canonical _ _ _ h1)
    · next mark _ _ _ =>
      extract_lets s2
      have h2 : s2.Canonical := .branch (.onCur h1) h1
      split
      · exact Due.stands (State.raise_canonical _ _ _ h2)
      · split
        · exact Due.stands (State.illegal_canonical h2)
        · split
          · exact Due.stands (.retire h2)
          · split
            · exact Due.stands (State.illegal_canonical h2)
            · split
              · exact Due.stands (State.raise_canonical _ _ _ h2)
              · exact h2

theorem Due.Kept.serviceDue {p r : Nat} (h : s.Canonical) : Due.Kept (s.serviceDue p r) := by
  refine branch ?_ nothing
  split
  · exact runs h
  · have h1 : State.Canonical { s with cur := { part := p, rope := r, core := 0, track := .s, svc := true } } := h.of_mem rfl
    exact branch (one (.issue h1)) (branch (acts (State.raise_canonical _ _ _ h1)) (acts (.serviceTick h1)))

theorem Due.Kept.breakAt {p : Nat} (h : s.Canonical) : Due.Kept (s.breakAt p) := by
  refine branch (firstDue fun (r, c) => ?_) nothing
  have h1 : State.Canonical { s with cur := { part := p, rope := r, core := c, track := .s, svc := false } } := h.of_mem rfl
  refine branch ?_ nothing
  split
  · refine branch nothing ?_
    split
    · exact runs (.branch (.onCur h1) h1)
    · exact nothing
  · exact nothing

/-! ### The parts of a beat -/

theorem State.Canonical.beforeBeat {p : Nat} (h : s.Canonical) : (s.beforeBeat p).st.Canonical := by
  unfold State.beforeBeat
  extract_lets q causes
  split
  · exact Due.stands (.beginHold h)
  · split
    · exact Due.stands (.haltAt h)
    · split
      · next d hd => exact Due.Kept.breakAt h d hd
      · split
        · exact h
        · split
          · exact h
          · split
            · split
              · next i _ =>
                extract_lets r
                split
                · exact h
                · exact Due.stands (.rejectCommand h)
              · exact h
            · split
              · exact Due.stands (.anchor h)
              · exact Due.stands (.beginBeat h)

theorem State.Canonical.wordsDue {p : Nat} (h : s.Canonical) : (s.wordsDue p).st.Canonical := by
  unfold State.wordsDue
  split
  · exact h
  · split
    · exact .issue (h.of_mem rfl)
    · exact Due.stands (.onPart (.dropIssued (.slips h)))

theorem State.Canonical.samplesDue {p : Nat} (h : s.Canonical) : (s.samplesDue p).st.Canonical := by
  unfold State.samplesDue
  extract_lets q
  split
  · exact h
  · split
    · exact h
    · exact Due.stands (.onPart (.dropIssued (.sampleAll (.lateEarly h))))

theorem State.Canonical.writesDue {p : Nat} (h : s.Canonical) : (s.writesDue p).st.Canonical := by
  unfold State.writesDue
  extract_lets q
  split
  · split
    · exact Due.stands (.foldl (fun _ _ h1 => .stageReady h1) h)
    · exact h
  · split
    · exact h
    · split
      · exact h
      · exact Due.stands (.onPart (.cutColls (.missedFlits h)))

theorem Due.Kept.beatDue {p : Nat} (h : s.Canonical) : Due.Kept (s.beatDue p) := by
  refine branch nothing (one ?_)
  split
  · exact .beforeBeat h
  · exact .wordsDue h
  · exact .samplesDue h
  · exact .writesDue h

/-! ### Between beats -/

theorem Due.Kept.betweenDue (h : s.Canonical) : Due.Kept s.betweenDue :=
  orElse (inboxDue h) (orElse (thermDue h) (orElse (ownDue h) (orElse (firstDue fun _ => gridDue h)
    (orElse (firstDue fun _ => watchDue h) (orElse (deviceDue h) (orElse (firstDue fun _ => stopDue h)
      (firstDue fun _ => firstDue fun _ => serviceDue h)))))))

theorem Due.Kept.tripDue (h : s.Canonical) : Due.Kept s.tripDue := branch (runs h) (branch (runs h) (thermDue h))

theorem State.Canonical.idleDue (h : s.Canonical) : s.idleDue.st.Canonical := by
  unfold State.idleDue
  split
  · next d hd => exact Due.Kept.orElse (.inboxDue h) (.tripDue h) d hd
  · exact Due.stands (h.of_mem rfl)

theorem State.Canonical.due (h : s.Canonical) : (due s).st.Canonical := by
  unfold Machine.due
  split
  · exact .idleDue h
  · split
    · next d hd => exact Due.Kept.branch (.betweenDue h) .nothing d hd
    · split
      · next d hd => exact Due.Kept.firstDue (fun _ => .beatDue h) d hd
      · exact Due.stands (.tick h)

/-- Settles O55: what is due keeps the form, and so does the meaning of the instruction that runs. -/
theorem stepKeepsCanonical : Obligations.StepKeepsCanonical := by
  unfold Obligations.StepKeepsCanonical
  intro s t h hstep
  have hdue := h.due
  have hkept : Out.Canonical (step s) := by
    unfold step
    split
    · next u i hu =>
      rw [hu] at hdue
      exact exec_canonical hdue
    · next u hu =>
      rw [hu] at hdue
      exact hdue
  rw [hstep] at hkept
  exact hkept

end Sys2Proof.Machine

namespace Sys2Proof.Machine

/-! ## A fault's trap record under the source of a CPYSEL (R237, R292)

A CPYSEL reads its select record and its first chunk on one beat, the record first. Where the record's bank is taken already the
read raises a bank conflict, the fault writes its trap record to device memory, and a chunk that lies there is read as the fault
left it, not as it stood before the beat. -/

/-- The C-track word that issued the CPYSEL. -/
def selectWord : Origin := { rope := 0, core := 0, track := .c, issue := 0, pc := 0, mac := none, word := 0 }

/-- A CPYSEL of one chunk, at the place of partition 0's first trap record, into the record at scratchpad address 0. -/
def selectAtTrap : Copy :=
  { org := selectWord, kind := .cpysel, cls := 0, start := 0, started := true, sample0 := 0, perform0 := 1, period := 1, chunks := 1,
    srcSpace := .dev, src := 0x40000, dstSpace := .spad, dst := 0, srcVa := 0, dstVa := 0, port := 0, column := 0, rowLen := 1,
    sStride := 1, dStride := 1, type := 0, ring := none, nextSample := 0, nextPerform := 0, buf := [], suppressed := [],
    record := [], poisoned := false, first := 0, streams := 0, maxe := 0, step := 0, anchor := 0, grants := [0], cut := false,
    raw := [] }

/-- The samples of beat 0 are due, a scalar access has taken scratchpad bank 0, and lane 0 of the chunk is a NaN, which no
select record takes up. -/
def selectMeetsTrap : State :=
  ({ State.reset with ctxbase := some 0, mem := [(0x40002, 0xC0), (0x40003, 0x7F)] } : State).setPart 0
      { Partition.reset with ropes := [0], mark := 2, step := { Step.none_ with outcome := .open_ } }
    |>.setCoreAt 0 0 { Core.reset with
      copies := [selectAtTrap]
      ports := [{ kind := .spadBank, bank := 0, org := { selectWord with track := .s } }] }

/-- Byte 32 of the select records of core 0's copies: the low byte of the first candidate's index (R236). -/
def firstCandidates : Out → List Byte
  | .next t => (t.coreAt 0 0).copies.map fun y => y.record.getD 32 0
  | _ => []

theorem selectAtTrap_finds :
    selectMeetsTrap.Finds 0 0 selectAtTrap (selectAtTrap.srcAt selectAtTrap.nextSample) (Mem.bytes selectMeetsTrap.mem 0x40000 256) [] := by
  refine ⟨⟨⟨0, List.mem_singleton.mpr rfl, by decide⟩, fun u hu => ?_⟩, rfl, by decide⟩
  exact absurd hu List.not_mem_nil

/-- As the chunk stood before the beat, its first candidate is lane 1. -/
theorem firstCandidate_before :
    (foldChunk (Mem.bytes (selectMeetsTrap.coreAt 0 0).spad selectAtTrap.dst 256) selectAtTrap.nextSample
      (Mem.bytes selectMeetsTrap.mem 0x40000 256)).getD 32 0 = 1 := by
  decide +kernel

/-- The record that is folded has lane 0 first, which the trap record has made a number. -/
theorem firstCandidates_copyChunk : firstCandidates (exec (.copyChunk 0 0 0) selectMeetsTrap) = [0] := by decide +kernel

/-- Refutes O49: the read of a CPYSEL's record can raise a fault, and where its trap record falls on the first chunk, that chunk
is not folded with the bytes it held before. -/
theorem not_beatEventsAct : ¬ Obligations.BeatEventsAct := by
  unfold Obligations.BeatEventsAct
  rintro ⟨-, h⟩
  obtain ⟨-, hsample, -⟩ := h 0 0 0 selectMeetsTrap (Nat.zero_lt_succ 7)
  have hfirst : ∀ y ∈ (selectMeetsTrap.coreAt 0 0).copies, ¬ y.org.issue < selectAtTrap.org.issue := fun _ _ => Nat.not_lt_zero _
  have hsettled : (∀ y ∈ (selectMeetsTrap.coreAt 0 0).copies, ∀ ch ∈ y.buf, ch.owed = []) ∧ (selectMeetsTrap.coreAt 0 0).debts = [] :=
    ⟨by decide, rfl⟩
  obtain ⟨-, -, -, -, -, hselect⟩ := hsample selectAtTrap rfl (by decide) (by decide) hfirst hsettled
  obtain ⟨t, hexec, -, -, hmem⟩ := hselect _ rfl rfl rfl selectAtTrap_finds (by decide)
  have hfolded := firstCandidates_copyChunk
  rw [hexec] at hfolded
  have hlane : ∀ y ∈ (t.coreAt 0 0).copies, y.record.getD 32 0 = 0 := fun y hy =>
    List.mem_singleton.mp (hfolded ▸ List.mem_map_of_mem (f := fun y : Copy => y.record.getD 32 0) hy)
  have hkept := hlane _ hmem
  have hchunk : selectAtTrap.nextSample = 0 := rfl
  dsimp only at hkept
  rw [if_pos hchunk, firstCandidate_before] at hkept
  exact absurd hkept (by decide)

end Sys2Proof.Machine
